-- ==== Sys2Proof/Word.lean ====
section
/-! DEFINITION. The word types of the Belhomel S4 and the widths the spec names. -/

namespace Sys2Proof

/-- One byte (R2). -/
abbrev Byte := BitVec 8

/-- A 32-bit register, pool word or literal (R54, R62). -/
abbrev Word := BitVec 32

/-- A 64-bit value: a register pair (R143), a memory-mapped register, an extension word. -/
abbrev DWord := BitVec 64

/-- A 57-bit virtual address or program counter (R54, R288). -/
abbrev VAddr := BitVec 57

/-- The extension word of a 128-bit instruction (R83); each owning chapter names its fields. -/
abbrev Ext := BitVec 64

/-- One word with its craze tag (R386): when the tag is set the 32 bits are a payload, not a value. -/
structure TWord where
  /-- The 32 data bits. -/
  val : Word
  /-- The craze tag. -/
  tag : Bool
deriving DecidableEq, Repr, Inhabited

/-- A clean word. -/
abbrev TWord.clean (w : Word) : TWord := ⟨w, false⟩

/-- A crazed word with payload `p`. -/
abbrev TWord.crazed (p : Word) : TWord := ⟨p, true⟩

end Sys2Proof
end

