-- ==== Sys2Proof/Syntax.lean ====
section
/-! DEFINITION. The instructions of the Greane set and the steps of the other agents: one constructor of `Instr` for
each row of the opcode table. Register numbers, selectors and modifier codes are turned into constructors here;
extension words stay bit vectors, because their reserved bits and unassigned values are faults of issue or of start
(R404), not of decoding. -/

namespace Sys2Proof

/-! ## Operands -/

/-- A source field (R87). -/
inductive Src where
  /-- Selector 0b00: `v0`-`v254`; 255 is `vz`. -/
  | vec (i : BitVec 8)
  /-- Selector 0b01: `s0`-`s62`; 63 is `sz`. -/
  | scal (i : BitVec 6)
  /-- Selector 0b10: latch `l0` (false) or `l1` (true). -/
  | latch (one : Bool)
  /-- Selector 0b11, index 0x00-0x3F: an inline integer. -/
  | imm (n : BitVec 6)
  /-- Selector 0b11, index 0x40-0x5F: an inline floating-point constant (R90). -/
  | fcon (k : BitVec 5)
  /-- Selector 0b11, index 0xFF: the literal (R91). -/
  | lit
deriving DecidableEq, Repr

/-- Destination of the opcodes 0x001-0x01E (R92, R93, R95). -/
inductive Dst where
  /-- `U` = 0, `W` = 0: `v0`-`v254`; 255 is `vz`. -/
  | vec (i : BitVec 8)
  /-- `U` = 1: `s0`-`s62`; 63 is `sz`. -/
  | scal (i : BitVec 6)
  /-- `W` = 1: latch `l0` alone. -/
  | latch
deriving DecidableEq, Repr

/-- Destination of a form that may not take `U` = 1 but may take `W` = 1. -/
inductive VDst where
  /-- `W` = 0: a vector register. -/
  | vec (i : BitVec 8)
  /-- `W` = 1: latch `l0` alone. -/
  | latch
deriving DecidableEq, Repr

/-- Guard (R94) and the chain-continue bit (R33, R96). -/
structure Hdr where
  /-- Guard predicate `p0`-`p7`. -/
  guard : BitVec 3
  /-- Negate the guard. -/
  neg : Bool
  /-- The `C` bit. -/
  chain : Bool
deriving DecidableEq, Repr

/-! ## Modifier codes -/

/-- Type field T of the arithmetic group (R148). -/
inductive ITy where
  | n32 | s32 | n64 | s64
deriving DecidableEq, Repr

/-- Integer conditions, codes 0-5 (R156). -/
inductive ICond where
  | eq | ne | lt | le | gt | ge
deriving DecidableEq, Repr

/-- Floating-point conditions, codes 0-11 (R156). -/
inductive FCond where
  | eq | ne | lt | le | gt | ge | num | nan | ltu | leu | gtu | geu
deriving DecidableEq, Repr

/-- Type codes of `cvti` (R157). -/
inductive CvTy where
  | n32 | s32 | n64 | s64 | n8 | s8 | n16 | s16
deriving DecidableEq, Repr

/-- Rounding codes 0-3 (R132, R158). -/
inductive RMode where
  | rne | rz | rp | rm
deriving DecidableEq, Repr

/-- Rounding of a conversion, codes 0-4; code 4, stochastic, reads one more source (R164, R165). -/
inductive CvRound where
  | det (m : RMode)
  | sr (r : Src)
deriving DecidableEq, Repr

/-- The floating-point side of `cvtfi` and `cvtif` (R165). -/
inductive F4 where
  | f32 | f64 | f16 | bf16
deriving DecidableEq, Repr

/-- Type and condition of `pset` (R167). -/
inductive PCmp where
  | int (t : ITy) (c : ICond)
  | f32 (c : FCond)
  | f64 (c : FCond)
deriving DecidableEq, Repr

/-- `vote` modes (R174). -/
inductive VoteMode where
  | any | all | ballot | eq
deriving DecidableEq, Repr

/-- `shfl` modes; `.clip` goes with `.rot` only (R176). -/
inductive ShflMode where
  | idx | rot (clip : Bool) | bfly | rev
deriving DecidableEq, Repr

/-- `redw` operations (R177). -/
inductive RedwOp where
  | add | nmin | nmax | smin | smax | and | or | xor | fadd | fmin | fmax
deriving DecidableEq, Repr

/-- Scopes (R172, R303). -/
inductive Scope where
  | thr | wg | kln | dev | fab
deriving DecidableEq, Repr

/-- `fence` kinds (R198). -/
inductive FenceKind where
  | full | acq | rel
deriving DecidableEq, Repr

/-- `mchain` modes (R232). -/
inductive ChainMode where
  | off | nsplit | ksplit
deriving DecidableEq, Repr

/-- Why a word is not an instruction: the tests of R102, in their order. -/
inductive Reject where
  /-- Length code 0b11. -/
  | lengthCode
  /-- The opcode map leaves the opcode unassigned (R104). -/
  | opcode
  /-- The length is not among the opcode's lengths. -/
  | length
  /-- The word would cross a 32-byte block (R85). -/
  | crossing
  /-- Bits [127:96] of a 96-bit word are not zero. -/
  | padding
  /-- An unassigned modifier value (R101). -/
  | modifier
  /-- `U` = 1 where R92 or R93 does not allow it. -/
  | uniform
  /-- `W` = 1 where R95 does not allow it. -/
  | suppress
  /-- A source field that is read selects no operand, or one the form does not allow. -/
  | source
  /-- Length 96 and the selection of the literal do not agree (R82). -/
  | literal
deriving DecidableEq, Repr

/-! ## References of the events -/

/-- A resident warp: the workgroup's number and the warp's number in it. -/
structure WRef where
  /-- Number of the workgroup in the machine's list. -/
  wg : Nat
  /-- Warp number in the workgroup. -/
  warp : Nat
deriving DecidableEq, Repr

/-- What the home slice of a remote page answers a load (R361, R420): the words, or the cause of a fault. -/
inductive PeerAnswer where
  | words (ws : List TWord)
  | fault (cause : Byte)
deriving DecidableEq, Repr

/-- A request of the outside world to write the 8 bytes at offset `off` of a register block (R7), or, at an offset of a vector
control word of an MSI-X table (log 16), its 4 bytes. -/
structure RegRef where
  /-- `none`: BAR0 of the physical function; `some v`: BAR0 of virtual function v. -/
  vf : Option (BitVec 8)
  /-- Byte offset in the BAR. -/
  off : Nat
  /-- The write carries the IDE TEE attribute (R459). -/
  tee : Bool
deriving DecidableEq, Repr

/-! ## The instructions and events -/

/-- One constructor for each row of the opcode table. -/
inductive Instr where
  -- integer, logic, address: 0x001-0x01E (R149)
  | iadd (h : Hdr) (t : ITy) (sat : Bool) (d : Dst) (a b : Src) (lit : Word)
  | iadd3 (h : Hdr) (t : ITy) (sat : Bool) (d : Dst) (a b c : Src) (lit : Word)
  | isub (h : Hdr) (t : ITy) (sat : Bool) (d : Dst) (a b : Src) (lit : Word)
  | imul (h : Hdr) (t : ITy) (d : Dst) (a b : Src) (lit : Word)
  | imulhi (h : Hdr) (t : ITy) (d : Dst) (a b : Src) (lit : Word)
  | imad (h : Hdr) (t : ITy) (sat : Bool) (d : Dst) (a b c : Src) (lit : Word)
  | imadw (h : Hdr) (signed : Bool) (d : Dst) (a b c : Src) (lit : Word)
  | iabs (h : Hdr) (wide : Bool) (sat : Bool) (d : Dst) (a : Src) (lit : Word)
  | imin (h : Hdr) (t : ITy) (d : Dst) (a b : Src) (lit : Word)
  | imax (h : Hdr) (t : ITy) (d : Dst) (a b : Src) (lit : Word)
  | icmp (h : Hdr) (t : ITy) (c : ICond) (d : Dst) (a b : Src) (lit : Word)
  | sel (h : Hdr) (wide : Bool) (q : BitVec 3) (nq : Bool) (d : Dst) (a b : Src) (lit : Word)
  | shl (h : Hdr) (wide : Bool) (d : Dst) (a b : Src) (lit : Word)
  | shr (h : Hdr) (wide : Bool) (d : Dst) (a b : Src) (lit : Word)
  | sra (h : Hdr) (wide : Bool) (d : Dst) (a b : Src) (lit : Word)
  /-- `b = none` is `.rot`, which reads no B. -/
  | shf (h : Hdr) (wrap : Bool) (d : Dst) (a : Src) (b : Option Src) (c : Src) (lit : Word)
  | and (h : Hdr) (wide : Bool) (d : Dst) (a b : Src) (lit : Word)
  | or (h : Hdr) (wide : Bool) (d : Dst) (a b : Src) (lit : Word)
  | xor (h : Hdr) (wide : Bool) (d : Dst) (a b : Src) (lit : Word)
  | lop3 (h : Hdr) (wide : Bool) (d : Dst) (a b c : Src) (lit : Word)
  | bfe (h : Hdr) (t : ITy) (d : Dst) (a b : Src) (lit : Word)
  | bfi (h : Hdr) (wide : Bool) (d : Dst) (a b c : Src) (lit : Word)
  | popc (h : Hdr) (wide : Bool) (d : Dst) (a : Src) (lit : Word)
  | clz (h : Hdr) (wide : Bool) (d : Dst) (a : Src) (lit : Word)
  | brev (h : Hdr) (wide : Bool) (d : Dst) (a : Src) (lit : Word)
  | prmt (h : Hdr) (d : Dst) (a b c : Src) (lit : Word)
  | lea (h : Hdr) (t : ITy) (sh : BitVec 5) (d : Dst) (a b : Src) (lit : Word)
  | mov (h : Hdr) (wide : Bool) (d : Dst) (a : Src) (lit : Word)
  | movl (h : Hdr) (wide : Bool) (d : Dst) (e : Ext)
  | cvti (h : Hdr) (src dst : CvTy) (sat : Bool) (d : Dst) (a : Src) (lit : Word)
  -- floating point: 0x040-0x051 (R159)
  | fadd (h : Hdr) (r : RMode) (f64 na nb sat : Bool) (d : VDst) (a b : Src) (lit : Word)
  | fmul (h : Hdr) (r : RMode) (f64 na nb sat : Bool) (d : VDst) (a b : Src) (lit : Word)
  | fma (h : Hdr) (r : RMode) (f64 na nb nc sat : Bool) (d : VDst) (a b c : Src) (lit : Word)
  | fmin (h : Hdr) (f64 na nb : Bool) (d : VDst) (a b : Src) (lit : Word)
  | fmax (h : Hdr) (f64 na nb : Bool) (d : VDst) (a b : Src) (lit : Word)
  | fcmp (h : Hdr) (f64 : Bool) (c : FCond) (d : VDst) (a b : Src) (lit : Word)
  | frcp (h : Hdr) (r : RMode) (f64 na : Bool) (d : VDst) (a : Src) (lit : Word)
  | frsq (h : Hdr) (r : RMode) (f64 na : Bool) (d : VDst) (a : Src) (lit : Word)
  | fsqrt (h : Hdr) (r : RMode) (f64 na : Bool) (d : VDst) (a : Src) (lit : Word)
  | fex2 (h : Hdr) (na : Bool) (d : VDst) (a : Src) (lit : Word)
  | flg2 (h : Hdr) (na : Bool) (d : VDst) (a : Src) (lit : Word)
  | fsin (h : Hdr) (na : Bool) (d : VDst) (a : Src) (lit : Word)
  | fcos (h : Hdr) (na : Bool) (d : VDst) (a : Src) (lit : Word)
  | fscale (h : Hdr) (r : RMode) (f64 na sat : Bool) (d : VDst) (a b : Src) (lit : Word)
  | fclass (h : Hdr) (f64 : Bool) (d : VDst) (a : Src) (lit : Word)
  | cvtf (h : Hdr) (r : CvRound) (d : VDst) (a b : Src) (lit : Word)
  | cvtfi (h : Hdr) (r : CvRound) (dst : ITy) (src : F4) (d : VDst) (a : Src) (lit : Word)
  | cvtif (h : Hdr) (r : CvRound) (src : ITy) (dst : F4) (d : VDst) (a : Src) (lit : Word)
  -- packed 16-bit: 0x052-0x054 (R166)
  | hfma2 (h : Hdr) (bf16 : Bool) (r : RMode) (na nb nc sat : Bool) (d : VDst) (a b c : Src) (lit : Word)
  | hadd2 (h : Hdr) (bf16 : Bool) (r : RMode) (na nb sat : Bool) (d : VDst) (a b : Src) (lit : Word)
  | hmul2 (h : Hdr) (bf16 : Bool) (r : RMode) (na nb sat : Bool) (d : VDst) (a b : Src) (lit : Word)
  -- predicates, control, warp-wide, rng: 0x080-0x08F
  | nop (h : Hdr)
  /-- The padding word; its guard, `C`, `W`, `dst`, `U` and source fields are ignored (R86). -/
  | nopSkip
  | pset (h : Hdr) (k : PCmp) (dst : BitVec 8) (a b : Src) (lit : Word)
  | pmov (h : Hdr) (ps : BitVec 3) (neg : Bool) (dst : BitVec 8)
  | pmovPack (h : Hdr) (dst : BitVec 8)
  | pmovUnpack (h : Hdr) (dst : BitVec 8) (a : Src)
  | bra (h : Hdr) (off : Word)
  | brx (h : Hdr) (a : Src)
  | call (h : Hdr) (dst : BitVec 8) (off : Word)
  | ret (h : Hdr) (a : Src)
  | convg (h : Hdr)
  | yield (h : Hdr)
  | exit (h : Hdr)
  | waiteq (h : Hdr) (dst : BitVec 8) (a b : Src) (e : Ext)
  | vote (h : Hdr) (m : VoteMode) (q : BitVec 3) (nq : Bool) (dst : BitVec 8)
  | matchw (h : Hdr) (wide : Bool) (d : VDst) (a : Src)
  | shfl (h : Hdr) (m : ShflMode) (d : VDst) (a b c : Src) (lit : Word)
  | redw (h : Hdr) (op : RedwOp) (d : VDst) (a : Src)
  | rng (h : Hdr) (d : VDst) (a b c : Src) (lit : Word)
  -- memory, atomics, barriers: 0x0C0-0x0CE
  | ld (h : Hdr) (a64 : Bool) (dst : BitVec 8) (a b : Src) (e : Ext)
  | st (h : Hdr) (a64 fill : Bool) (a b c : Src) (e : Ext)
  | ldfe (h : Hdr) (a64 take : Bool) (dst : BitVec 8) (a b : Src) (e : Ext)
  | atom (h : Hdr) (a64 : Bool) (dst : BitVec 8) (a b c : Src) (e : Ext)
  | cas (h : Hdr) (a64 : Bool) (dst : BitVec 8) (a b c : Src) (e : Ext)
  | red (h : Hdr) (a64 : Bool) (a b c : Src) (e : Ext)
  | fence (h : Hdr) (sc : Scope) (k : FenceKind)
  | prefetch (h : Hdr) (a64 : Bool) (a b : Src) (e : Ext)
  /-- `cnt = some A` is `.cnt`. -/
  | bar (h : Hdr) (id : BitVec 4) (arrive : Bool) (cnt : Option Src)
  | kbar (h : Hdr)
  | tbinit (h : Hdr) (a b c : Src) (e : Ext)
  | tbarrive (h : Hdr) (thr : Bool) (dst : BitVec 8) (a b : Src) (e : Ext)
  | tbexpect (h : Hdr) (arr : Bool) (a b : Src) (e : Ext)
  | tbwait (h : Hdr) (a b : Src) (e : Ext)
  | tbtest (h : Hdr) (dst : BitVec 8) (a b : Src) (e : Ext)
  -- regions and system: 0x100-0x108
  | rgn (h : Hdr) (e : Ext)
  | commit (h : Hdr) (each r keep : Bool)
  | abort (h : Hdr)
  | replay (h : Hdr)
  | ptest (h : Hdr) (clean b64 : Bool) (dst : BitVec 8) (a : Src)
  | crzread (h : Hdr) (field : BitVec 3) (dst : BitVec 8) (a : Src)
  | trap (h : Hdr) (dst : BitVec 8) (a b c : Src) (code : Word)
  /-- `opa` carries the code of R61 in bits [7:0]. -/
  | rdsys (h : Hdr) (scalar : Bool) (dst : BitVec 8) (opa : BitVec 10)
  | segset (h : Hdr) (a b : Src) (e : Ext)
  -- copy engine, multicast, collectives: 0x140-0x148
  | cpyld (h : Hdr) (fe mf nobar : Bool) (a b c : Src) (e : Ext)
  | cpyst (h : Hdr) (nobar : Bool) (a b c : Src) (e : Ext)
  | cpypeer (h : Hdr) (fe nobar : Bool) (a b c : Src) (e : Ext)
  | cpygrp (h : Hdr) (fe nobar : Bool) (a b c : Src) (e : Ext)
  | grpjoin (h : Hdr) (a b : Src) (lit : Word)
  | grpleave (h : Hdr) (a : Src) (lit : Word)
  | cpylin (h : Hdr) (fe nobar : Bool) (a b c : Src) (e : Ext)
  | coll (h : Hdr) (dst : BitVec 8) (a b : Src) (e : Ext)
  | collwait (h : Hdr) (a : Src)
  -- matrix: 0x180-0x18D (R229)
  | fmtset (h : Hdr) (dst : BitVec 8) (a : Src) (lit : Word)
  | mcoef (h : Hdr) (dst : BitVec 8) (e : Ext)
  | mcoefS (h : Hdr) (dst : BitVec 8) (a : Src) (e : Ext)
  | mchain (h : Hdr) (m : ChainMode)
  /-- `c` is read only for a narrow format (R233). -/
  | mlds (h : Hdr) (arv : Bool) (a b : Src) (c : Option Src) (e : Ext)
  | mswap (h : Hdr)
  | mzero (h : Hdr) (dst : BitVec 8) (n : BitVec 5)
  | mma (h : Hdr) (z arv ch : Bool) (a b : Src) (c : Option Src) (e : Ext)
  | mfeedShadow (h : Hdr) (t : Bool) (e : Ext)
  | mfeedStream (h : Hdr) (z : Bool) (e : Ext)
  | mldacc (h : Hdr) (arv : Bool) (a b : Src) (e : Ext)
  | macc (h : Hdr) (e : Ext)
  | mstore (h : Hdr) (arv : Bool) (a b : Src) (e : Ext)
  | mstoreSs (h : Hdr) (arv : Bool) (a : Src) (e : Ext)
  | mstoreMc (h : Hdr) (arv : Bool) (a : Src) (e : Ext)
  | mnorm (h : Hdr) (diff rt : Bool) (dst : BitVec 8) (e : Ext)
  | mpoly (h : Hdr) (e : Ext)
  | msoak (h : Hdr) (ch : Bool) (e : Ext)
  -- events of the lane and the memory path
  | illegalEncoding (why : Reject) (wide : Bool)
  /-- `answer`: the block's bytes where its page is remote. -/
  | instructionFetch (w : WRef) (tlb : Bool) (answer : List Byte)
  | reservationGrant (w : WRef)
  | tlbWalkComplete (w : WRef) (acc : Nat) (tlb : Bool)
  /-- `answer`: what a peer answers for a remote page. -/
  | homeSliceAccess (w : WRef) (acc : Nat) (answer : PeerAnswer)
  | loadDataReturn (w : WRef) (acc : Nat)
  /-- `verdict`: the cause a peer's home slice answers for a remote page, 0 for none. -/
  | heldPush (w : WRef) (item : Nat) (verdict : Byte)
  | saggerDeferredPush (w : WRef) (item : Nat)
  | heldRelease (w : WRef) (tag slice : Nat)
  | heldSettle (w : WRef) (tag slice : Nat)
  | commitDecide (w : WRef) (tag : Nat)
  | commitComplete (w : WRef) (tag : Nat)
  | waiteqWake (w : WRef) (thread : Nat)
  | waiteqTimeout (w : WRef) (thread : Nat)
  | ldfeWake (w : WRef) (thread : Nat)
  | tbwaitWake (w : WRef) (thread : Nat)
  | barRelease (wg id : Nat)
  | kbarRelease (wg : Nat)
  | trapRecordWrite (w : WRef)
  -- events of the matrix array
  | matrixInstructionStart (wg entry : Nat)
  | matrixInstructionComplete (wg entry : Nat)
  | soakIteration (wg : Nat)
  | soakRelease (wg : Nat)
  | chainPartnerTimeout (wg : Nat)
  -- events of the copy engine, the shelf and the collectives
  | copyCommandStart (core cmd : Nat)
  | copySectorWrite (core cmd : Nat)
  | copyGranuleWaitEnd (core cmd : Nat)
  | cpystLineLand (core cmd : Nat)
  | copyCommandComplete (core cmd : Nat)
  | groupChangeComplete (w : WRef)
  | shelfRequest (core cmd : Nat)
  | shelfTimerExpiry (entry : Nat)
  | collContribution (w : WRef) (ticket : Nat)
  | collComplete (inst : Nat)
  | collTimeout (inst : Nat)
  | collwaitWake (w : WRef) (thread : Nat)
  -- events of the Stoker and of dispatch
  | nodeComplete (die node : Nat)
  | bindWrite (die : Nat) (node : Nat)
  | placeWorkgroup (die bind core : Nat)
  | resumeWorkgroup (die bind core : Nat)
  | workgroupComplete (wg : Nat)
  | compactionWaitExpiry (die bind core : Nat)
  | kilnResumeWaitExpiry (die bind kiln : Nat)
  | stopSignal (wg : Nat)
  | stopPoint (wg : Nat)
  | stopWaitsDone (wg : Nat)
  | saveImageWritten (wg : Nat)
  | stopDeadlineExpiry (stop : Nat)
  | scbSignature (w : WRef)
  | scbCompare (die entry : Nat)
  | coneSweepSlot (die : Nat)
  | coneSweepScanStart (die : Nat)
  | coneSweepScanDone (die : Nat) (bad : Bool)
  | maintenancePause (ctl : Nat)
  -- mailbox requests of the physical function (R352)
  | dcbWrite (ch : Nat)
  | dcbLink (ch : Nat)
  | dcbUnlink (ch : Nat)
  | nodeSubmit (ch : Nat)
  | stop (ch : Nat)
  | resume (ch : Nat)
  | windowSet (ch : Nat)
  | keyAssign (ch : Nat)
  | measure (ch : Nat)
  | glazeWrite (ch : Nat)
  | glazeStagingComplete (req : Nat)
  | bisqueGateOpen (req : Nat)
  | keyServiceResponse (req : Nat) (ok : Bool) (key : Nat)
  | glazeSignComplete (req : Nat)
  | glazeRestore (ch : Nat)
  | mailboxUnassignedCode (ch : Nat)
  | vfMailboxSubmit (vf : BitVec 8) (data : DWord) (tee : Bool)
  | vmctlPendWrite (vf : BitVec 8) (data : DWord)
  -- register writes with behaviour of their own, and the others
  | vfgenWrite (vf : BitVec 8)
  | generationBumpComplete (vf : BitVec 8)
  | srdbWrite (vf : BitVec 8) (data : DWord) (tee : Bool)
  | fnodeWrite (data : DWord)
  | mcqRelease (ctl entry : Nat) (data : DWord)
  | prxWrite (die : Nat) (data : DWord)
  | registerWrite (r : RegRef) (data : DWord)
  -- host, fabric and system events
  | hostMemRead (addr n : Nat)
  | hostMemWrite (addr : Nat) (data : List Byte)
  | remoteRequest (port : Nat) (data : List Byte)
  | hostLinkDown
  | hostLinkUp
  | hostCompletionTimeout (w : WRef) (acc : Nat)
  | flitReplayExhausted (port : Nat)
  | portRetrainDone (port : Nat) (ok : Bool)
  | portTakenDown (port : Nat)
  | fabricE2eTimeout (w : WRef) (acc : Nat)
  | peerUnreachableTimeout (peer : Nat)
  | linkDownMark (link : Nat)
  | telemetrySample (die : Nat) (sample : DWord)
  | ageingRead (die : Nat)
  -- TDISP and SPDM messages (R356, R367)
  | lockInterfaceRequest (vf : BitVec 8) (data : List Byte)
  | startInterfaceRequest (vf : BitVec 8) (data : List Byte)
  | stopInterfaceRequest (vf : BitVec 8)
  | interfaceReport (vf : BitVec 8)
  | getVersion (msg : List Byte)
  | getCapabilities (msg : List Byte)
  | negotiateAlgorithms (msg : List Byte)
  | getDigests (msg : List Byte)
  | getCertificate (msg : List Byte)
  | challenge (msg : List Byte)
  | getMeasurements (msg : List Byte)
  | keyExchange (msg : List Byte)
  | finish (msg : List Byte)
  -- resets and errors (R467, R426)
  | vfFunctionLevelReset (vf : BitVec 8)
  | pfFunctionLevelReset
  | packageReset
  | powerRemoved
  | uncorrectableError (place : Nat) (index : Nat)
deriving DecidableEq, Repr

end Sys2Proof
end

