-- ==== Sys2Proof/Machine/Bits.lean ====
section
/-! DEFINITION. The fields of the instruction words (R80, R81) as a record, with packing and unpacking, and the
bit-field, sign-extension and byte-order helpers of the model. -/

namespace Sys2Proof

/-- The fields of an instruction word: the base word of R81 and bits [127:64]. -/
structure Raw where
  /-- Bits [1:0], the length code. -/
  len : BitVec 2
  /-- Bit 2, chain-continue. -/
  cbit : Bool
  /-- Bit 3, suppress write-back. -/
  wbit : Bool
  /-- Bits [13:4]. -/
  opcode : BitVec 10
  /-- Bits [16:14]. -/
  guard : BitVec 3
  /-- Bit 17, negate guard. -/
  nbit : Bool
  /-- Bits [25:18]. -/
  dst : BitVec 8
  /-- Bit 26, uniform form. -/
  ubit : Bool
  /-- Bits [36:27]. -/
  opa : BitVec 10
  /-- Bits [46:37]. -/
  opb : BitVec 10
  /-- Bits [56:47]. -/
  opc : BitVec 10
  /-- Bits [63:57]. -/
  mod : BitVec 7
  /-- Bits [127:64]: literal and padding, or the extension word. -/
  hi : BitVec 64
deriving DecidableEq, Repr

/-- One bit as a vector. -/
abbrev bit1 (b : Bool) : BitVec 1 := BitVec.ofBool b

/-- The word whose fields are `r` (R81). -/
def Raw.pack (r : Raw) : BitVec 128 :=
  r.hi ++ (r.mod ++ (r.opc ++ (r.opb ++ (r.opa ++ (bit1 r.ubit ++ (r.dst ++ (bit1 r.nbit ++ (r.guard ++
    (r.opcode ++ (bit1 r.wbit ++ (bit1 r.cbit ++ r.len)))))))))))

/-- The fields of a word (R81). -/
def Raw.unpack (w : BitVec 128) : Raw where
  len := w.extractLsb' 0 2
  cbit := w.getLsbD 2
  wbit := w.getLsbD 3
  opcode := w.extractLsb' 4 10
  guard := w.extractLsb' 14 3
  nbit := w.getLsbD 17
  dst := w.extractLsb' 18 8
  ubit := w.getLsbD 26
  opa := w.extractLsb' 27 10
  opb := w.extractLsb' 37 10
  opc := w.extractLsb' 47 10
  mod := w.extractLsb' 57 7
  hi := w.extractLsb' 64 64

/-- Little-endian value of a byte list (R2). -/
def leNat : List Byte → Nat
  | [] => 0
  | b :: bs => b.toNat + 256 * leNat bs

/-- The `n` low bytes of `v`, least significant first (R2). -/
def leBytes : Nat → Nat → List Byte
  | 0, _ => []
  | n + 1, v => BitVec.ofNat 8 v :: leBytes n (v / 256)

/-- Bits [lo + len - 1 : lo] of a word, as a number. -/
def field (w lo len : Nat) : Nat := w / 2 ^ lo % 2 ^ len

/-- `w` with bits [lo + len - 1 : lo] replaced by the low bits of `v`. -/
def setField (w lo len v : Nat) : Nat :=
  w % 2 ^ lo + (v % 2 ^ len) * 2 ^ lo + w / 2 ^ (lo + len) * 2 ^ (lo + len)

/-- Bit `i` of a number. -/
abbrev bitOf (w i : Nat) : Bool := w.testBit i

/-- The low `n` bits of `v`, read as a two's complement integer. -/
def sext (n v : Nat) : Int := (BitVec.ofNat n v).toInt

/-- Is the source the literal? -/
def Src.isLit : Src → Bool
  | .lit => true
  | _ => false

/-- Is the operand format of an `mlds` or `mma` extension word narrow (a format register, code 8-15), so that C is
read (R226, R233, R236)? -/
def narrowExt (e : Ext) : Bool := e.getLsbD 63

/-- The rounding source of a conversion. -/
def CvRound.src? : CvRound → Option Src
  | .det _ => none
  | .sr s => some s

end Sys2Proof
end

