-- ==== Sys2Proof/Config.lean ====
section
/-! DEFINITION. What one part fixes and the spec leaves open: fuses, keys and firmware contents, and the free values.
Every constant here is opaque: nothing can evaluate it, so a statement holds for every value of it. -/

namespace Sys2Proof.Config

/-- A fresh value where the spec leaves one open: the step applies it to `State.freeCtr` (log 3). -/
opaque freeValue : Nat → BitVec 64

/-- The kiln site of a die that test disabled (R13, R16; log 5). -/
opaque kilnOff : Nat → Fin 9

/-- The four slice sites of a die that test disabled (R13, R16; log 5): each by its place among the sites that are left. -/
opaque sliceOff : Nat → Fin 36 × Fin 35 × Fin 34 × Fin 33

/-- What a crazed word of a transaction barrier's granule counts as: its payload, and which word it is (R387; log 18). -/
opaque crazedBar : BitVec 32 → Nat → BitVec 32

/-- The thread from which a `shfl` takes its value where B or C is crazed: the payload, and the reading thread (R176, R396;
log 15). -/
opaque shflThread : BitVec 32 → Nat → Nat

/-- What a sector written under one key slot and epoch reads as under another: the bytes as stored, the stored slot
and epoch, the slot and epoch of the reader, and the sector's address (R354, R467; log 8). -/
opaque otherKeyByte : Nat → Nat → Nat → Nat → Nat → BitVec 8 → BitVec 8

/-- The FP32 code of `fex2` (0), `flg2` (1), `fsin` (2) or `fcos` (3) of an operand that the model's widest enclosure
does not decide (R162; log 12). -/
opaque functionCode : Nat → BitVec 32 → BitVec 32

/-- The die on which the nodes of a stream live, by the stream's DCB (R318; log 46). -/
opaque streamDie : Nat → Nat

/-- Does a session with a tenant's key service stand: its number, the partition (R355, R368, R373; log 9)? -/
opaque sessionStands : Nat → Nat → Bool

/-- Address of the device DCB divided by 128, where the Stoker firmware puts it (R315; log 46). -/
opaque deviceDcb : Nat

/-- Measurement `k` of the firmware and the fuses: 64 bytes (R369; log 5). -/
opaque measurement : Nat → Nat → BitVec 8

/-- The bridges between a west and an east die, by the north or south pair: for each, which full router of the east edge of
the one die and which of the west edge of the other it joins (R11, R364; log 48). There is at least one. -/
opaque bridgesAcross : Bool → (Fin 4 × Fin 5) × List (Fin 4 × Fin 5)

/-- The bridges between a north and a south die, by the west or east pair: likewise on the south and the north edge. -/
opaque bridgesDown : Bool → (Fin 4 × Fin 4) × List (Fin 4 × Fin 4)

/-- Package site at which a memory controller joins the network (R365, R366; log 48). -/
opaque ctlSite : Nat → Nat

/-- Do the firmware images of the security controller, the management controller and the Stokers carry valid signatures (R377;
log 5)? -/
opaque firmwareSigned : Bool

/-- Links that fail the link test of bring-up, by number (R365, R377; log 48). -/
opaque failedLinks : List Nat

/-- Measurement 5, the digest of an accepted route set: the links that are down, and the byte number (R366, R369; log 48). -/
opaque routeDigest : List Nat → Nat → BitVec 8

/-- What the SPDM responder sends: the message code, the transcript so far, the byte number; and the response's length
(R367; log 9). -/
opaque spdmByte : Nat → List (BitVec 8) → Nat → BitVec 8
/-- Its length. -/
opaque spdmLength : Nat → List (BitVec 8) → Nat
/-- Does the responder accept the message: a signature, a handshake, a version (R367; log 9)? -/
opaque spdmAccepts : Nat → List (BitVec 8) → Bool

/-- SHA3-512 of the device's identity public key (R371; log 9). -/
opaque identityDigest : Nat → BitVec 8
/-- AES-256-GCM ciphertext and tag of a glaze payload under the key of a session and counter (R371, R373; log 9): the session,
the counter, the plaintext, the byte number. -/
opaque sealByte : Nat → Nat → List (BitVec 8) → List (BitVec 8) → Nat → BitVec 8
/-- The plaintext byte of a ciphertext, and whether the tag agrees (R375; log 9). -/
opaque openByte : Nat → Nat → List (BitVec 8) → List (BitVec 8) → Nat → BitVec 8
/-- Does the tag agree? -/
opaque tagAgrees : Nat → Nat → List (BitVec 8) → List (BitVec 8) → Bool
/-- ML-DSA-87 signature byte of a message (R371; log 9). -/
opaque signByte : List (BitVec 8) → Nat → BitVec 8
/-- Does the signature verify through the chain to the Tyold device CA: the chain's address, the signed bytes (R375; log 9)? -/
opaque chainVerifies : List (BitVec 8) → List (BitVec 8) → Bool
/-- The digest of the identity key of a certificate chain (R375; log 9). -/
opaque chainDigest : List (BitVec 8) → Nat → BitVec 8

/-- Do two elements share a byte when a tile is stored in the format of a crazed format register with this payload (log 113)? -/
opaque crazedFormatIsNarrowest : BitVec 32 → Bool

/-- Which entry of a full TLB makes room for a new one: by the cycle, the virtual function and the page (R291). -/
opaque tlbVictim : Nat → BitVec 8 → Nat → Nat

end Sys2Proof.Config
end

