-- ==== Sys2Proof/Machine/Tab.lean ====
section
/-! DEFINITION. Sparse tables: a list of keys and values with the keys strictly rising. A table of registers, of memory
words or of records holds no entry equal to what an unlisted key reads as, so equal contents are equal data. -/

namespace Sys2Proof

/-- A sparse table: keys strictly rising. -/
abbrev Tab (α : Type) := List (Nat × α)

namespace Tabs

/-- The entry of key `k`. -/
def find? {α : Type} : Tab α → Nat → Option α
  | [], _ => none
  | (j, x) :: t, k => if j = k then some x else find? t k

/-- The entry of key `k`, or `d` where none is listed. -/
def get {α : Type} (t : Tab α) (d : α) (k : Nat) : α := (find? t k).getD d

/-- The table with key `k` listed as `x`. -/
def put {α : Type} : Tab α → Nat → α → Tab α
  | [], k, x => [(k, x)]
  | (j, y) :: t, k, x =>
    if k < j then (k, x) :: (j, y) :: t else if j = k then (k, x) :: t else (j, y) :: put t k x

/-- The table without key `k`. -/
def del {α : Type} : Tab α → Nat → Tab α
  | [], _ => []
  | (j, y) :: t, k => if j = k then del t k else (j, y) :: del t k

/-- The table in which key `k` reads as `x`, where an unlisted key reads as `d`. -/
def set {α : Type} [DecidableEq α] (t : Tab α) (d : α) (k : Nat) (x : α) : Tab α :=
  if x = d then del t k else put t k x

/-- Change the entry of key `k`, if it is listed. -/
def modify {α : Type} (t : Tab α) (k : Nat) (f : α → α) : Tab α :=
  t.map (fun e => if e.1 = k then (k, f e.2) else e)

/-- Every key of `t` is at least `n`, and the keys rise strictly. -/
def sortedFrom {α : Type} : Nat → Tab α → Bool
  | _, [] => true
  | n, (j, _) :: t => decide (n ≤ j) && sortedFrom (j + 1) t

/-- The canonical form: keys strictly rising, and no entry equal to `d`. -/
def canon {α : Type} [DecidableEq α] (d : α) (t : Tab α) : Bool :=
  sortedFrom 0 t && t.all (fun e => decide (e.2 ≠ d))

end Tabs

end Sys2Proof
end

