-- ==== Sys2Proof/Machine/Lane.lean ====
section
/-! DEFINITION. The state a thread, a warp and a workgroup carry (R34, R54, R216), as plain data. -/

namespace Sys2Proof.Machine

/-! ## Where things are -/

/-- A scratchpad address: the workgroup that owns the scratchpad and the byte offset in it (R70, R286). -/
structure ScrLoc where
  wg : Nat
  off : Nat
deriving DecidableEq, Repr

/-- A watched word of `waiteq` (R53, R173). -/
structure Watch where
  /-- The word, once the read has been made: in a scratchpad, or at a device physical address. -/
  scr : Option ScrLoc
  /-- Device physical address of a watched global word. -/
  dpa : Nat
  /-- The version of the word at the read; a later change moves the word's version. -/
  ver : Nat
  /-- The cycle of the timeout; `none` where `tmo` is 0. -/
  deadline : Option Nat
  /-- Destination register. -/
  dst : Nat
  /-- The access whose answer the thread waits for, before it watches. -/
  acc : Option Nat
  /-- Segment offset, scope and segment of the word, for the read at the wake. -/
  va : Nat
  /-- Scope code. -/
  scope : Nat
  /-- The word lies in a remote page: its changes are the peer's to see (R173, R361). -/
  rmt : Bool
deriving DecidableEq, Repr

/-- What a thread parked on an event waits for (R34). -/
inductive Park where
  /-- `ldfe`: the granule. -/
  | ldfe (at_ : ScrLoc)
  /-- `tbwait`: the barrier and the phase. -/
  | tbwait (at_ : ScrLoc) (q : BitVec 4)
  /-- `collwait`: the ticket. -/
  | collwait (ticket : Word)
  /-- `msoak`. -/
  | msoak
  /-- `trap`: the host has not marked the record done. -/
  | trap
  /-- A replay waits for its service (R417). -/
  | service
  /-- `bar` with this id. -/
  | bar (id : Nat)
  | kbar
  /-- `rgn`: the reservation. -/
  | rgn
  /-- A `rgn` that a non-member reached: the close of the open region (R410). It holds no release of convergence back. -/
  | closed
  /-- `commit`: completion. -/
  | commit
deriving DecidableEq, Repr

/-- The state of a thread (R34, R25). -/
inductive TState where
  | eligible
  /-- Parked at convergence; `isConv` when the instruction there is `conv` itself. -/
  | parkedConv (isConv : Bool)
  /-- Released at a warp-level instruction, which executes for it next (R43, R199). -/
  | released
  | parkedWord (w : Watch)
  | parkedEvent (p : Park)
  | yielded
  | exited
  /-- The thread slot holds no thread (R25): it counts as exited. -/
  | absent
deriving DecidableEq, Repr

/-- One thread (R34, R54, R387). -/
structure Thread where
  pc : VAddr
  st : TState
  /-- `v0`-`v254`: an unlisted register holds a clean 0. -/
  v : Tab TWord
  /-- `p0`-`p6`. -/
  p : BitVec 7
  /-- Craze tags of `p0`-`p6`. -/
  pt : BitVec 7
  /-- The predicate payload word. -/
  pp : Word
  /-- Latches: `none` is invalid (R98). -/
  l0 : Option TWord
  l1 : Option TWord
  /-- The thread stands at a derail target and has not issued there yet (R406). -/
  derailed : Bool
  /-- Vector registers with an uncorrectable error that nothing has read (R426); `l0` is 300, `l1` is 301. -/
  bad : List Nat
deriving DecidableEq, Repr

/-- Warp roles (R39). -/
inductive Role where
  | copy | matrix | vector
deriving DecidableEq, Repr

/-! ## Held data and regions (R42 to R47, R408 to R419) -/

/-- One byte of a held store: its offset from the item's address, its value, and the payload that crazes its word. -/
structure WCell where
  off : Nat
  b : Byte
  crz : Option Word
deriving DecidableEq, Repr

/-- What a held item does to the committed value. -/
inductive ItemKind where
  /-- Bytes of a `st`, or of a line of `cpyst` or `cpylin`. -/
  | store
  /-- A reduction: operation code, width in bytes, operand. -/
  | red (op : Nat) (n : Nat) (x : DWord) (crz : Option Word)
deriving DecidableEq, Repr

/-- How far a held item has come. -/
inductive ItemStage where
  /-- The sagger holds it; its address is not translated yet. -/
  | walk
  /-- Translated; it has not reached its home slice. -/
  | sagger
  /-- Its push found no free held entry and the sagger pushes it later (R300). -/
  | deferred
  /-- Its home slice holds it (R301). -/
  | held
  /-- Its push met the quarantine verdict (R419): it is never written. -/
  | refused
  /-- Its home slice has applied it and acknowledged (R301). -/
  | released
deriving DecidableEq, Repr

/-- One held store, reduction or copy line of one thread. -/
structure Item where
  id : Nat
  /-- The region, explicit or implicit, it belongs to. -/
  tag : Nat
  /-- Place in the warp's program order. -/
  po : Nat
  thread : Nat
  kind : ItemKind
  /-- Cells of a store. -/
  cells : List WCell
  va : Nat
  /-- Number of bytes from `va` the item covers. -/
  n : Nat
  pc : VAddr
  stage : ItemStage
  dpa : Nat
  gen : BitVec 16
  key : BitVec 8
  /-- The leaf's `rmt` bit: a remote page (R361). -/
  rmt : Bool
  /-- A line of the copy engine (R435); it takes no sagger bytes but an index. -/
  copy : Bool
  /-- The sagger's copy is uncorrectable (R426). -/
  bad : Bool
  /-- The commit has decided to release it: no roll-back or abort reaches it any more. -/
  sent : Bool
  /-- Cycle in which its instruction issued. -/
  issued : Nat
  /-- The thread that a fault of its push names: its own, and for a sector that came back from an image the lowest one whose bytes
  the sector holds (R333, R337). -/
  named : Nat
deriving DecidableEq, Repr

/-- A `commit` that waits for its decision (R411). -/
structure CommitReq where
  each : Bool
  r : Bool
  keep : Bool
  /-- Members released at the `commit`. -/
  released : BitVec 32
  pc : VAddr
deriving DecidableEq, Repr

/-- A release that a commit has decided (R411, R414). -/
structure Release where
  tag : Nat
  /-- The members whose items are released. -/
  set : BitVec 32
  /-- The threads that continue after the `commit` at `pc` when it completes. -/
  cont : BitVec 32
  pc : VAddr
  /-- The region closes at completion. -/
  closes : Bool
  seq : BitVec 16
  /-- Granules that become empty at completion. -/
  pending : List (Nat × ScrLoc)
  /-- Units a leader's region keeps until agreement (R478). -/
  units : Nat
  /-- The release may be sent: unpaired, or the copies agreed (R480). -/
  agreed : Bool
  /-- Its signature, and whether it has reached the SCB (R477, R478). -/
  sig : DWord
  sigSent : Bool
  /-- The request that it decided, for a pair whose copies part before they agree (R481, R482). -/
  undo : Option CommitReq
deriving DecidableEq, Repr

/-- The open region of a warp (R42, R205, R408, R409). -/
structure Region where
  tag : Nat
  seq : BitVec 16
  /-- Reservation in 512-byte units. -/
  res : Nat
  openPc : VAddr
  recovery : VAddr
  members : BitVec 32
  /-- Member crazes, by thread. -/
  crazes : Tab Word
  /-- Members with an event that is no crazed data (R415). -/
  hard : BitVec 32
  regionCraze : Option Word
  /-- Cycle of issue and thread of the event that set the region craze: of several by one instruction the lowest thread's counts
  (R408). -/
  first : Option (Nat × Nat)
  replays : Nat
  /-- Threads whose items are refused since the region overflowed (R422). -/
  overflow : Bool
  /-- Granules it marked pending-empty, with the thread that took each. -/
  pending : List (Nat × ScrLoc)
  commit : Option CommitReq
  /-- Retryable replays in a row (R417). -/
  retryRun : Nat
  /-- The next releasing commit sets every member craze to a new craze 0x14 (R481). -/
  crz14 : Bool
deriving DecidableEq, Repr

/-- An implicit region in flight (R44, R187). -/
structure Implicit where
  tag : Nat
  /-- Place in the warp's program order. -/
  po : Nat
  /-- Units of sagger space it reserves. -/
  units : Nat
  /-- It is a release (R305). -/
  rel : Bool
  pc : VAddr
  /-- The check pass has run and its items are sent. -/
  decided : Bool
  /-- The releases may be sent: unpaired, or the copies agreed (R480). -/
  agreed : Bool
  /-- Number of the implicit region since launch (R477). -/
  num : Word
  /-- Its signature, and whether it has reached the SCB (R477, R478). -/
  sig : DWord
  sigSent : Bool
  /-- The thread whose copy command lands lines in it; `none` for a `st` or `red` (R269). -/
  owner : Option Nat
  /-- Region sequence of the warp when it formed. -/
  seq : BitVec 16
deriving DecidableEq, Repr

/-! ## Outstanding accesses (R188, R189, R198) -/

/-- What an outstanding global access does. -/
inductive AccKind where
  | load (sx : Bool)
  | atom (op : Nat)
  | cas
  | waiteq
  /-- A fence: no access, but an order between the accesses around it. -/
  | fence (k : FenceKind)
deriving DecidableEq, Repr

/-- How far an access has come. -/
inductive AccStage where
  /-- Step 5 of R420 is to come. -/
  | walk
  /-- Steps 6 to 9 are to come. -/
  | home
  /-- The copy engine makes it: the reads of a copy command, which stand at the command's place in program order (R308). -/
  | engine
  /-- Performed: the answer is on its way. -/
  | done (r : List TWord)
deriving DecidableEq, Repr

/-- One outstanding access of one thread, or a fence. -/
structure Acc where
  id : Nat
  kind : AccKind
  thread : Nat
  /-- Place in the warp's program order. -/
  po : Nat
  pc : VAddr
  va : Nat
  n : Nat
  /-- Destination register; 255 discards. -/
  dst : Nat
  x : DWord
  cmp : DWord
  /-- `ord` of R180. -/
  ord : Nat
  scope : Nat
  stage : AccStage
  dpa : Nat
  gen : BitVec 16
  key : BitVec 8
  rmt : Bool
  /-- Cycle in which its instruction issued. -/
  issued : Nat
deriving DecidableEq, Repr

/-- A `rgn` that waits for its reservation (R205). -/
structure RgnWait where
  pc : VAddr
  res : Nat
  recovery : VAddr
  threads : BitVec 32
deriving DecidableEq, Repr

/-- A `trap` or fault service record of a warp (R212, R418). -/
structure SvcWait where
  /-- Sequence number in the virtual function's ring; `none` while the record waits for its slot. -/
  seq : Option Nat
  /-- A fault service record. -/
  isFault : Bool
  code : Word
  pc : VAddr
  amask : BitVec 32
  dst : Nat
  /-- The 384 argument bytes as words: A, B, C of thread t at 3t. -/
  args : List Word
  /-- The members the service answers for. -/
  members : BitVec 32
deriving DecidableEq, Repr

/-- What a warp that replays still waits for (R417). -/
structure ReplayWait where
  members : BitVec 32
  /-- Waits until `VFGEN.busy` is 0. -/
  gen : Bool
  /-- Waits for the fault service record. -/
  svc : Bool
  /-- The member crazes of the set Z as they stood, for a refused service (R418). -/
  crazes : Tab Word
deriving DecidableEq, Repr

/-- A collective the warp has issued (R280, R281): one that completes without a fault is no longer listed. -/
structure CollOut where
  ticket : Word
  /-- Its contribution has been made. -/
  sent : Bool
  done : Bool
  /-- The `collwait` derails: a buffer access faulted (R444), with this payload. -/
  fault : Option Word
  thread : Nat
  pc : VAddr
  po : Nat
  e : Ext
  /-- Virtual address of the buffer, and the bytes from it to the end of its segment. -/
  va : Nat
  room : Nat
  count : Nat
deriving DecidableEq, Repr

/-- First placement of a warp (R61). -/
structure Placement where
  lane : Nat
  wslot : Nat
  warp : Nat
  kpos : Nat
  kiln : Nat
  core : Nat
  die : Nat
deriving DecidableEq, Repr

/-- One warp (R54). -/
structure Warp where
  thr : List Thread
  /-- `s0`-`s62`. -/
  s : Tab TWord
  /-- `sg0`-`sg7`. -/
  sg : List (BitVec 128)
  /-- Lane and warp slot where the warp runs now (R24). -/
  lane : Nat
  slot : Nat
  /-- Row of its register block (R68). -/
  blk : Nat
  first : Placement
  role : Role
  /-- Instructions of the open chain; 0 outside a chain (R33). -/
  chain : Nat
  /-- Region sequence (R42). -/
  rseq : BitVec 16
  region : Option Region
  implicit : List Implicit
  rels : List Release
  items : List Item
  accs : List Acc
  /-- Counters of tags, items, accesses and program order. -/
  nextTag : Nat
  nextId : Nat
  po : Nat
  rgnWait : Option RgnWait
  trapWait : Option SvcWait
  /-- Results of the leader's traps that a trailer has not taken yet (R476). -/
  trapQ : List (List Word)
  svcWait : Option SvcWait
  replay : Option ReplayWait
  /-- Discard count (R403), saturating. -/
  discard : BitVec 16
  /-- Implicit regions since launch (R477). -/
  implicitCount : Word
  /-- Collectives issued (R281). -/
  collCount : Word
  colls : List CollOut
  /-- A `grpjoin` or `grpleave` in progress (R274): group, and whether it joins with a hold value. -/
  grp : Option (Nat × Option (BitVec 16))
  /-- Fetched blocks the lane keeps (R406): address and 32 bytes. -/
  kept : Tab (List Byte)
  /-- Ready-since cycle (R326); `none` where the warp is not ready, or has been selected. -/
  since : Option Nat
deriving DecidableEq, Repr

/-! ## The workgroup -/

/-- Full/empty state of a granule (R191); a pending-empty granule is marked with its region. -/
inductive Gran where
  | empty
  | full
  | pending (wg warp tag : Nat)
deriving DecidableEq, Repr

/-- The scratchpad of a workgroup (R54, R70, R191). -/
structure Scr where
  /-- Size in bytes. -/
  size : Nat
  /-- Words by number; an unlisted word is a clean 0. -/
  words : Tab TWord
  /-- Granules by number; an unlisted granule is empty. -/
  gran : Tab Gran
  /-- Versions of the watched words (R53). -/
  watch : Tab Nat
  /-- Words with an uncorrectable error that nothing has read (R426). -/
  bad : List Nat
deriving DecidableEq, Repr

/-- One column of a plane: its elements in ascending k with their tags, its E8M0 scales with their crazes, block by
block, and its payload (R217, R387). -/
structure MCol where
  el : List (DWord × Bool)
  scale : List (Byte × Option Word)
  pay : Word
deriving DecidableEq, Repr

/-- A plane of the array (R216, R217). -/
structure Plane where
  valid : Bool
  fmt : Nat
  /-- The format register's value where the format is narrow. -/
  fm : Word
  /-- That register was crazed: the format is not known, and every element is crazed. -/
  unknown : Bool
  k : Nat
  cols : List MCol
deriving DecidableEq, Repr

/-- What a started array instruction writes when it completes (R221, R223). -/
structure MOut where
  /-- Accumulator words. -/
  acc : List (Nat × TWord)
  /-- The new shadow plane. -/
  plane : Option Plane
  /-- The planes are exchanged. -/
  swap : Bool
  /-- Both planes become invalid. -/
  clear : Bool
  mc : Option (Nat × DWord × Bool)
  /-- Scratchpad bytes: offset and cells. -/
  scr : List (Nat × List WCell)
  /-- The barrier of an `.arv` update, and whether it sets `crz` (R225, R439). -/
  arv : Option (Nat × Bool)
  /-- The chain mode; the count is cleared (R232). -/
  mode : Option Nat
deriving DecidableEq, Repr

/-- A word that an engine has fetched: its value, or the cause and address of the fault that crazes it (R398, R420). -/
inductive FWord where
  | ok (w : TWord)
  | bad (cause va : Nat)
deriving DecidableEq, Repr

/-- What the checks of a start give: the payload that every destination takes, whether a start fault gave it, the barrier update,
the format register's value and the chain mode that the start found. -/
structure MStart where
  craze : Option Word
  fault : Bool
  arv : Option (Nat × Bool)
  fm : TWord
  mode : Nat
deriving DecidableEq, Repr

/-- An entry of the matrix queue (R216, R220): the instruction with the sources read at issue. -/
structure MEntry where
  id : Nat
  ins : Instr
  a : TWord
  b : TWord
  c : TWord
  /-- `mcoef.s`: the 64-bit source. -/
  wide : DWord
  pc : VAddr
  warp : Nat
  thread : Nat
  /-- The batch of an `msoak`. -/
  batch : BitVec 32
  /-- The open region it was issued in, by warp and tag (R332). -/
  reg : Option (Nat × Nat)
  /-- `sg1` of the issuing warp at issue (R227). -/
  sg1 : BitVec 128
  started : Bool
  /-- What a running instruction that reads scratchpad found at its start (R221), and the words it has read so far (R225). -/
  head : Option MStart
  seen : Tab TWord
  out : Option MOut
  /-- Chain count value of a chained instruction (R232). -/
  chained : Option Nat
  /-- Cycle in which a chained instruction met its start conditions without its partners (R434). -/
  waitFrom : Option Nat
  /-- An `msoak` that has stopped. -/
  stopped : Bool
  /-- Cycle and warp slot of its issue (R224). -/
  issued : Nat × Nat
  /-- Craze of the guards of its active set, the lowest thread's first (R395). -/
  gcrz : Option Word
deriving DecidableEq, Repr

/-- An episode at a barrier id of a workgroup (R200, R438). -/
structure BarId where
  /-- The expected count, fixed by the first arrival. -/
  expect : Nat
  /-- The warps that arrived, one entry an arrival. -/
  came : List Nat
  /-- Warps that had exited at the first arrival. -/
  gone : List Nat
  /-- Warps that wait, with the threads each released. -/
  waiting : List (Nat × BitVec 32)
  /-- Warps of earlier, complete episodes that are still to become eligible. -/
  freed : List (Nat × BitVec 32)
deriving DecidableEq, Repr

/-- What a workgroup carries from its launch record and kernel header (R71, R73, R60). -/
structure LaunchInfo where
  hdrVa : VAddr
  nregs : Nat
  vecOff : Nat
  sagger : Nat
  nacc : Nat
  accF64 : Bool
  scrRows : Nat
  prvBytes : Nat
  croles : Nat
  mroles : Nat
  ngid : List Nat
  ntid : List Nat
  gid : List Nat
  /-- Linear index of the workgroup in its grid. -/
  index : Nat
  kg : Nat
  kpos : Nat
  paired : Bool
  pword : DWord
  constBase : DWord
  constLen : DWord
  prvBase : DWord
deriving DecidableEq, Repr

/-- A stop in progress on a workgroup (R328 to R335). -/
structure StopState where
  /-- 0 drain, 1 region restart, 2 exact (R329). -/
  mode : Nat
  /-- 0 signalled, 1 at its stop point, 2 waits of R331 and steps of R332 done but for the copy drain. -/
  stage : Nat
  /-- The Stoker's own stop (compaction, sweep, mismatch, move): its resume bind is valid at once. -/
  own : Bool
  /-- Cores that the resume bind leaves out. -/
  avoid : List Nat
deriving DecidableEq, Repr

/-- An old value of a leader's returning atomic, queued for the trailer (R476): the warp, the address, the operation
(255 for `cas`), the size and the old value as words. -/
structure PairAtom where
  warp : Nat
  va : Nat
  op : Nat
  n : Nat
  words : List TWord
deriving DecidableEq, Repr

/-- One resident workgroup. -/
structure Wg where
  core : Nat
  /-- Group slot (R76), scratchpad rows and accumulator rows. -/
  slot : Nat
  scrBase : Nat
  accBase : Nat
  vf : BitVec 8
  part : Nat
  priv : Bool
  info : LaunchInfo
  /-- Die and slot of its bind (R321), and the domain control block and node it runs under. -/
  die : Nat
  bind : Nat
  dcb : Nat
  node : Nat
  /-- The DCBs above it, the nearest first, with the effective sagger quota (512-byte units) and held-line quota that
  each had when its bind was written (R28). -/
  quotas : List (Nat × Nat × Nat)
  prio : Nat
  warps : List Warp
  scr : Scr
  /-- Accumulator words: word w of row r at 1024 r + w; unlisted is +0.0. -/
  acc : Tab TWord
  /-- Accumulator words with an uncorrectable error that nothing has read. -/
  accBad : List Nat
  /-- `mc0`-`mc15` with their tags. -/
  mc : List (DWord × Bool)
  /-- `fm0`-`fm7`. -/
  fm : List TWord
  /-- The cycle of the latest write to them, and what they held before it (R58). -/
  fmOld : Option (Nat × List TWord)
  /-- `ss`. -/
  ss : BitVec 128
  active : Plane
  shadow : Plane
  chainMode : Nat
  chainCount : Nat
  /-- Chain counts of operations that have failed (R434). -/
  chainFailed : List Nat
  mq : List MEntry
  nextM : Nat
  /-- It holds a plane slot (R218). -/
  planeSlot : Bool
  /-- Uncorrectable elements that nothing has read (R426): shadow plane or active plane, column, k. -/
  planeBad : List (Bool × Nat × Nat)
  /-- Accumulator elements, by tile and element, whose next result-exponent check fails (R250). -/
  suspect : List (Nat × Nat)
  bars : Tab BarId
  /-- Warps that wait at `kbar`, with the threads each released. -/
  kbar : List (Nat × BitVec 32)
  /-- Issue counts k(m) of its groups (R273). -/
  groups : Tab Nat
  /-- Cycle of its placement, the order of youth for compaction (R325). -/
  placed : Nat
  /-- Paired execution (R475): `none` unpaired, otherwise the partner workgroup and whether this one leads. -/
  pair : Option (Nat × Bool)
  pairQ : List PairAtom
  stop : Option StopState
  /-- The kiln group it belongs to: workgroups by position. -/
  kiln : List Nat
  /-- A region's second retryable replay in a row: the Stoker saves the workgroup and resumes it elsewhere (R417). -/
  move : Bool
  /-- Cycle of its latest completed release or implicit commit, which it reports when it ends (R472). -/
  stamp : Nat
deriving DecidableEq, Repr

end Sys2Proof.Machine
end

