-- ==== Sys2Proof/Machine/State.lean ====
section
/-! DEFINITION. The state of the machine: everything the spec gives it, as plain data, the reset state, and the
reasons a step can stop. -/

namespace Sys2Proof.Machine

/-! ## Why a step can stop -/

/-- Why the machine stops with a fault. -/
inductive Fault where
  /-- `exec` is asked for an instruction of a warp although `State.cur` names no warp that is resident and has a
  batch; `step` never does that. Safe: the hardware has no such step. -/
  | noBatch
deriving DecidableEq, Repr

/-- Why an instruction has no meaning. -/
inductive Refusal where
  /-- Raised by an arm of `exec` whose instruction has no meaning yet. Safe: nothing is claimed of it. -/
  | notModelled (mnemonic : String)
deriving DecidableEq, Repr

/-! ## Memory -/

/-- Device and host memory by device physical address (R296), with what the check code keeps beside the data. -/
structure Memory where
  /-- Bytes: addresses strictly rising; an unlisted address reads 0 (log 6), and no entry holds 0. -/
  bytes : List Host.Cell
  /-- Crazed words, by address divided by 4 (R430): their bytes are a payload. -/
  craze : Tab Bool
  /-- Key slot and epoch each 32-byte sector was written under, by address divided by 32 (R354). -/
  keys : Tab (Nat × Nat)
  /-- Sectors whose data in HBM is uncorrectable (R426, R427). -/
  badHbm : Tab Bool
  /-- Sectors that are dirty and uncorrectable in the L2 (R426). -/
  badL2 : Tab Bool
  /-- Versions of the words that `waiteq` watches (R53). -/
  watch : Tab Nat
deriving DecidableEq, Repr

/-- One of the 16 memory controllers (R427 to R429). -/
structure MemCtl where
  /-- Addresses of the recorded poisoned sectors, divided by 32. -/
  pois : List Nat
  /-- Quarantine list: 32 entries, a page number or free. -/
  quar : Tab Nat
  corr : Nat
  qnew : Bool
  ovf : Bool
deriving DecidableEq, Repr

/-! ## The core's own state -/

/-- A craze record (R390). -/
structure CrzRec where
  cause : Byte
  flags : Byte
  thread : Nat
  unit : Nat
  wslot : Nat
  rseq : BitVec 16
  pc : VAddr
  va : VAddr
  stamp : DWord
deriving DecidableEq, Repr

/-- The kinds of copy command (R266, R272). -/
inductive CpyOp where
  | ld | st | peer | grp | lin
deriving DecidableEq, Repr

/-- How far a copy command has come (R254). -/
inductive CpyStage where
  | queued | running
  /-- A `cpygrp` whose request is on its way to a shelf or waits at its entry (R276). -/
  | shelf
deriving DecidableEq, Repr

/-- A byte of a line that a command stores: its place in the line, low and high nibble where the box covers them, each with the
craze of the scratchpad word it comes from (R258, R398). -/
structure NCell where
  off : Nat
  lo : Option (Nat × Option Word)
  hi : Option (Nat × Option Word)
deriving DecidableEq, Repr

/-- A copy command in its core's queue (R253, R254, R265). -/
structure CpyCmd where
  id : Nat
  op : CpyOp
  wg : Nat
  warp : Nat
  wslot : Nat
  thread : Nat
  pc : VAddr
  po : Nat
  rseq : BitVec 16
  /-- The region, explicit or implicit, that its lines belong to, and whether its issuing thread is a member. -/
  tag : Nat
  member : Bool
  /-- It lands lines in global memory (R269, R272). -/
  held : Bool
  fe : Bool
  mf : Bool
  nobar : Bool
  e : Ext
  /-- Coordinates; of a linear copy, none. -/
  coords : List TWord
  /-- Record offset B, or destination offset of a linear copy. -/
  b : DWord
  bCrz : Option Word
  /-- Source offset of a linear copy. -/
  a : DWord
  /-- Scratchpad offset, or count of a linear copy. -/
  c : DWord
  /-- C is crazed (R435). -/
  cBad : Bool
  /-- Crazes of C, the guard and the follow-on word, in this order (R394); of a linear copy, of A, B, C and the guard. -/
  crz : Option Word
  fws : DWord
  /-- Segment registers at issue: of the record, the source, the destination, and `sg1` of the barrier. -/
  sgRec : BitVec 128
  sgSrc : BitVec 128
  sgDst : BitVec 128
  sgBar : BitVec 128
  stage : CpyStage
  /-- The layout record, once read. -/
  lrec : List Byte
  /-- Receivers: the workgroup and the number of sectors written and counted there, in ascending address (R264). -/
  recv : List (Nat × Nat)
  /-- Sectors fetched ahead of their write: for several receivers, for a fill, or by a scratchpad-to-scratchpad copy. -/
  buf : Tab (List FWord)
  /-- Lines to land, each with its virtual address, and the number landed or dropped already. -/
  lines : List (Nat × List NCell)
  landed : Nat
  /-- Payload of each cause it has met (R435). -/
  causes : Tab Word
  /-- Issue count value of a `cpygrp` (R273). -/
  k : Nat
  /-- Slice of the anchor, while the request has not reached it (R275). -/
  anchor : Option Nat
  /-- A sector waits on a granule (R264). -/
  waiting : Bool
deriving DecidableEq, Repr

/-- One core. -/
structure Core where
  /-- Craze table: records 0-511; an unlisted record is free. -/
  crz : Tab CrzRec
  cpq : List CpyCmd
  /-- Number of the next copy command. -/
  nextCmd : Nat
deriving DecidableEq, Repr

/-- An empty core. -/
def Core.empty : Core := ⟨[], [], 0⟩

/-! ## The machine -/

/-- What the next step does: issue the batch of a warp, tell a lane that a warp has become ready or is ready no more (R326: the
latencies of R31 and R99 reach the machine so, log 1), or one step of another agent. -/
inductive Act where
  | issue (w : WRef)
  | ready (w : WRef) (on : Bool)
  /-- A running array instruction reads a word of its scratchpad; and it makes the last of these reads (R225, log 7). -/
  | arrayRead (wg entry word : Nat)
  | arrayLastRead (wg entry : Nat)
  | event (i : Instr)
deriving DecidableEq, Repr

/-- An entry of the agenda: the cycles that pass, then the step (log 1). -/
structure Slot where
  dt : Nat
  act : Act
deriving DecidableEq, Repr

/-- A line in the releasing state: the line, and the region whose release marked it (R301): of a warp here, or, where `src` names a
node, of a remote one (R361). -/
structure RelLine where
  line : Nat
  wg : Nat
  warp : Nat
  tag : Nat
  src : Option Nat
deriving DecidableEq, Repr

/-- A TLB entry: virtual function, generation and page of a translation (R291). -/
structure TlbEntry where
  vf : BitVec 8
  gen : BitVec 16
  page : Nat
  size : Nat
  /-- The leaf entry. -/
  leaf : DWord
deriving DecidableEq, Repr

/-- The fields of a DCB whose changes wait for the next bind that is written under it (R28): override bits of the colour set and
of the memory quota, and the two fields. -/
structure InForce where
  ovrColours : Bool
  colours : Nat
  ovrMemq : Bool
  memq : Nat
deriving DecidableEq, Repr

/-- A context image (R335, R337): the saved workgroup; its bytes lie in memory (log 10). -/
structure Img where
  /-- Number of the workgroup in the machine's list. -/
  id : Nat
  /-- Job DCB. -/
  job : Nat
  g : Wg
  /-- 1 region restart, 2 exact. -/
  mode : Nat
  /-- Total size, padding included. -/
  size : Nat
  /-- `PWORD` of the core it was saved on. -/
  pword : DWord
  /-- Hold value of each of its groups (R278). -/
  holds : Tab Nat
  /-- Copy commands recorded for re-issue (R279). -/
  cmds : List CpyCmd
deriving DecidableEq, Repr

/-! ## The Stoker (R315 to R325, R328, R468 to R482) -/

/-- A kernel header (R71): its words. -/
structure Header where
  w0 : Nat
  w1 : Nat
  w2 : Nat
  w3 : Nat
  /-- Bytes 32 to 63 are zero. -/
  sound : Bool
deriving DecidableEq, Repr

/-- A graph node that was submitted (R318, R319). -/
structure Node where
  dcb : Nat
  lrec : Nat
  /-- The kernel header, as the latest check of the launch found it (R74, R405). -/
  hdr : Header
  /-- Successors: 65,536 die + index, one entry an edge. -/
  succ : List Nat
  counter : Nat
  /-- Order in which it became ready. -/
  ready : Option Nat
  /-- Workgroups, the size of a kiln group (0: none) and `sword` of its launch, once its first bind was checked. -/
  n : Nat
  kg : Nat
  sword : DWord
  begun : Bool
  /-- Lowest workgroup index not yet given to a bind, and workgroups that have not completed. -/
  given : Nat
  left : Nat
deriving DecidableEq, Repr

/-- Ranges of a core's resources that compaction has freed for a bind (R325): group slot excepted. -/
structure Kept where
  core : Nat
  /-- Scratchpad rows and accumulator rows: first row and length. -/
  scr : Nat × Nat
  acc : Nat × Nat
  /-- Register blocks: lane, first row, rows. -/
  blks : List (Nat × Nat × Nat)
deriving DecidableEq, Repr

/-- A compaction for a bind (R325, R452). -/
structure Hold where
  /-- The core, or the first core of the kiln, that it is for. -/
  core : Nat
  kept : List Kept
  /-- The workgroups that it saves, in the order in which they are stopped: the youngest launch first. -/
  wait : List Nat
deriving DecidableEq, Repr

/-- A bind record (R321) with what the Stoker keeps for it. -/
structure Bind where
  lrec : Nat
  /-- The kernel header that was checked for its node (R405). -/
  hdr : Header
  dcb : Nat
  first : Nat
  count : Nat
  cmask : BitVec 32
  cwait : BitVec 16
  valid : Bool
  resume : Bool
  priv : Bool
  paired : Bool
  stop : Bool
  prio : Nat
  img : Nat
  placed : Nat
  done : Nat
  /-- Node it was written for: 65,536 die + index. -/
  node : Nat
  kg : Nat
  /-- Images of a resume bind that are still to be placed, in order. -/
  imgs : List Nat
  /-- Local core, or local kiln, that took the previous workgroup. -/
  last : Option Nat
  /-- Effective issue share of each DCB above, when it was written (R28, R317). -/
  shares : List (Nat × Nat)
  /-- Effective sagger and held-line quotas, likewise. -/
  quotas : List (Nat × Nat × Nat)
  /-- Cores on which its next workgroup waits fragmented, with the cycle since which it does (R324). -/
  frag : Tab Nat
  /-- Cycle from which a kiln-group resume bind waits (R452). -/
  since : Nat
  hold : Option Hold
deriving DecidableEq, Repr

/-- A stop request in progress (R328, R446, R447). -/
structure StopReq where
  id : Nat
  dcb : Nat
  mode : Nat
  /-- Mode first requested. -/
  from_ : Nat
  /-- Mailbox channel that carries it. -/
  ch : Option Nat
  /-- Cycle in which the present deadline began, and its length. -/
  since : Nat
  deadline : Nat
deriving DecidableEq, Repr

/-- An entry of the signature compare buffer of a die (R478). -/
structure ScbEnt where
  id : Nat
  die : Nat
  lead : Nat
  trail : Nat
  warp : Nat
  /-- The key: an implicit region, and its number or region sequence. -/
  imp : Bool
  num : Nat
  lsig : Option DWord
  tsig : Option DWord
deriving DecidableEq, Repr

/-- The cone sweep of a die (R468, R469). -/
structure Sweep where
  /-- Rotation slots that have begun. -/
  slots : Nat
  /-- The pass in progress: logical core, scanning, and the cycle in which scanning began. -/
  pass : Option (Nat × Bool × Nat)
deriving DecidableEq, Repr

/-! ## Glaze images and sessions (R367 to R375) -/

/-- A section of a glaze image (R372): kind, address or workgroup index, original length, stored bytes, and the context image it
carries. -/
structure GSec where
  kind : Nat
  va : Nat
  len : Nat
  data : List Byte
  img : Option Img
deriving DecidableEq, Repr

/-- A glaze request in progress. -/
structure GlazeReq where
  id : Nat
  ch : Nat
  /-- `GLAZE_WRITE`, or `GLAZE_RESTORE`. -/
  write : Bool
  kind : Nat
  job : Nat
  dir : Nat
  dst : Nat
  session : Nat
  /-- 0 staging, 1 waiting for the gate, 2 for the key service, 3 for the signature. -/
  stage : Nat
  /-- Staging pages it holds in each stack. -/
  pages : List Nat
  secs : List GSec
  ctr : Nat
  image : List Byte
deriving DecidableEq, Repr

/-- A glaze image that was drained: its bytes, and the sections sealed in it (log 10). -/
structure GImg where
  image : List Byte
  secs : List GSec
deriving DecidableEq, Repr

/-- The SPDM responder (R367). -/
structure Spdm where
  /-- Messages of the connection so far, requests and responses. -/
  transcript : List Byte
  /-- How far the connection has come: 0 none, 1 version, 2 capabilities, 3 algorithms, 4 key exchange, 5 session. -/
  stage : Nat
  /-- Responses sent. -/
  out : List (List Byte)
deriving DecidableEq, Repr

/-! ## Host and fabric -/

/-- An interface report (R358): its MMIO ranges, each BAR0 of a virtual function with its bytes, and its device-specific part. -/
structure Report where
  ranges : List (BitVec 8 × Nat)
  specific : List Byte
deriving DecidableEq, Repr

/-- What a request from outside is answered with: its address, bytes, the craze mask of their words (R430), the poison
indication (R427), and the verdict given to a remote node (R361, R457; 0: none). -/
structure ReadOut where
  addr : Nat
  data : List Byte
  mask : Nat
  poison : Bool
  verdict : Nat
deriving DecidableEq, Repr

/-- An item that a remote node holds here (R361, R362). -/
structure RemItem where
  src : Nat
  tag : Nat
  /-- It belongs to an open region, whose held bytes make races (R424). -/
  racing : Bool
  item : Item
deriving DecidableEq, Repr

/-- A participant's contribution to a collective (R281, R442): its rank, its warp and ticket, its buffer, and the elements
it contributes. -/
structure CollPart where
  rank : Nat
  wg : Nat
  warp : Nat
  ticket : Word
  vf : BitVec 8
  part : Nat
  thread : Nat
  pc : VAddr
  e : Ext
  va : Nat
  room : Nat
  count : Nat
  data : List (Nat × Option Word)
deriving DecidableEq, Repr

/-- A collective instance (R442). -/
structure CollInst where
  id : Nat
  part : Nat
  cid : Nat
  np : Nat
  /-- The ranks that this S4 holds, with their workgroup indices. -/
  locals : List (Nat × Nat)
  job : Nat
  /-- Cycle in which its timer started, and the limit; 0 is none. -/
  since : Nat
  limit : Nat
  parts : List CollPart
  abandoned : Bool
  /-- Its abandonment waits for a page-table line in the releasing state. -/
  doomed : Bool
deriving DecidableEq, Repr

/-- A member of a multicast group (R273): its workgroup, its request count n(m), and whether it is suspended (R278). -/
structure GMem where
  wg : Nat
  n : Nat
  suspended : Bool
deriving DecidableEq, Repr

/-- A multicast group of a partition (R273). -/
structure Grp where
  hold : Nat
  members : List GMem
deriving DecidableEq, Repr

/-- How far a shelf entry has come (R276); a free entry is not listed. -/
inductive ShelfStage where
  | holding | releasing | delivering
deriving DecidableEq, Repr

/-- A shelf entry of an L2 slice (R276, R277). -/
structure ShelfEnt where
  id : Nat
  slice : Nat
  part : Nat
  gid : Nat
  k : Nat
  lrec : List Byte
  coords : List Word
  /-- Awaited members, by workgroup. -/
  awaited : List Nat
  /-- Receivers: core and command. -/
  recv : List (Nat × Nat)
  /-- Cycle in which its timer reaches zero. -/
  deadline : Nat
  stage : ShelfStage
deriving DecidableEq, Repr

/-- The machine. -/
structure State where
  /-- The model's own: the order of the steps (log 1). -/
  agenda : List Slot
  /-- The model's own: the warp that issues (log 2). -/
  cur : Option WRef
  /-- By core, the cycle of its latest issue and the lane that issued: in one cycle lanes issue in ascending order, each at most
  once (R58, R221, R254). -/
  lastIssue : Tab (Nat × Nat)
  /-- The model's own: counter of the free values (log 3). -/
  freeCtr : Nat
  /-- Arithmetic cycles since package reset (R61). -/
  clock : Nat
  mem : Memory
  /-- Epoch of each key slot: it rises when the slot takes a new key (R355, R467). -/
  keyEpoch : Tab Nat
  ctls : List MemCtl
  cores : Tab Core
  wgs : Tab Wg
  nextWg : Nat
  releasing : List RelLine
  /-- First-level TLBs, by core, and last-level TLBs, by die; the latest entry first (R291). -/
  flt : Tab (List TlbEntry)
  llt : Tab (List TlbEntry)
  /-- Registers of the physical function's BAR0 by byte offset; unlisted is 0 (R347). -/
  pf : Tab DWord
  /-- Registers of the virtual functions' BAR0: 0x1_0000 v + offset. -/
  vfr : Tab DWord
  /-- MSI-X messages sent: the function (`none`: the physical function) and the vector (R348). -/
  irqs : List (Option (BitVec 8) × Nat)
  /-- DCBs that are linked, by address (R315, R352). -/
  dcbs : List Nat
  /-- By DCB, what has been in force since the latest bind under it; before the first one the DCB's own fields are (R28). -/
  inForce : Tab InForce
  /-- Virtual functions whose interface has just moved to error: their subtrees are reset before the step ends (R460). -/
  errs : List (BitVec 8)
  /-- Context images by address. -/
  images : Tab Img
  /-- Trailers whose queued atomic has just met a mismatch: the Stoker acts before the step ends (R476, R481). -/
  mismatches : List Nat
  /-- Group tables of the partitions: 256 p + gid (R273). -/
  groups : Tab Grp
  shelf : List ShelfEnt
  nextShelf : Nat
  colls : List CollInst
  nextColl : Nat
  /-- Cores that a failed check has put at the head of the cone sweep rotation (R432). -/
  sweepHead : List Nat
  /-- Bring-up is complete up to step 3 of R377. -/
  up : Bool
  /-- Graph nodes: 65,536 die + index (R318). -/
  nodes : Tab Node
  nextReady : Nat
  /-- Bind tables: 256 die + slot (R321). -/
  binds : Tab Bind
  /-- Binds that wait for a free slot, with their die. -/
  bindq : List (Nat × Bind)
  /-- Workgroups that freed their resources in a cycle: the cycle, and the workgroup (R78). -/
  leaving : List (Nat × Wg)
  stops : List StopReq
  nextStop : Nat
  /-- Requests of the PF mailbox channels that are accepted and not yet served, in order of acceptance (R350). -/
  chans : List Nat
  scb : List ScbEnt
  nextScb : Nat
  sweeps : Tab Sweep
  /-- Cycle of the end of bring-up, from which rotation slots count (R468). -/
  upAt : Nat
  /-- Pass start of each core's last successful pass, to the cycle (R470, R473). -/
  passAt : Tab Nat
  /-- Cores that no route reaches (R463). -/
  lost : List Nat
  /-- Bisque tables: by job DCB, the latest commit stamp of each core (R472). -/
  bisque : Tab (Tab Nat)
  /-- Tainted jobs (R474). -/
  taints : List Nat
  glazes : List GlazeReq
  nextGlaze : Nat
  gimages : List GImg
  spdm : Spdm
  /-- Interfaces whose `STOP_INTERFACE_REQUEST` waits for their workgroups (R356). -/
  tdiStops : List (BitVec 8)
  /-- Interface reports given out (R358). -/
  reports : List Report
  reads : List ReadOut
  remote : List RemItem
  /-- Next sequence number applied, by source node (R456). -/
  remSeq : Tab Nat
  /-- Cycles in which each fabric port has failed to retrain (R455). -/
  portFails : Tab (List Nat)
  /-- NoC and bridge links marked down (R463). -/
  linksDown : List Nat
  /-- Maintenance pauses: the cycle in which each controller's last one began (R314). -/
  pauses : Tab Nat
  /-- Consecutive samples with the package above 1,800 W, and the dies whose life alarm was raised (R466, R483). -/
  hot : Nat
  aged : List Nat
  /-- The board controller was asked to remove power (R466). -/
  powerOff : Bool
deriving DecidableEq, Repr

/-- The machine right after package reset: nothing runs, nothing is listed, and every register reads its reset value. -/
def State.reset : State :=
  { agenda := [], cur := none, lastIssue := [], freeCtr := 0, clock := 0,
    mem := ⟨[], [], [], [], [], []⟩
    keyEpoch := []
    ctls := List.replicate 16 ⟨[], [], 0, false, false⟩
    cores := [], wgs := [], nextWg := 0, releasing := [], flt := [], llt := [], pf := [], vfr := [], irqs := [], dcbs := [], inForce := [], errs := [],
    images := [], mismatches := [], groups := [], shelf := [], nextShelf := 0, colls := [], nextColl := 0, sweepHead := [],
    up := false, nodes := [], nextReady := 0, binds := [], bindq := [], leaving := [], stops := [], nextStop := 0, chans := [],
    scb := [], nextScb := 0, sweeps := [], upAt := 0, passAt := [], lost := [], bisque := [], taints := [], glazes := [], nextGlaze := 0,
    gimages := [], spdm := ⟨[], 0, []⟩, tdiStops := [], reports := [], reads := [], remote := [], remSeq := [],
    portFails := [], linksDown := [], pauses := [], hot := 0, aged := [], powerOff := false }

end Sys2Proof.Machine
end

