-- ==== Sys2Proof/Machine/RegMap.lean ====
section
/-! DEFINITION. Byte offsets of the memory-mapped registers (R347) and their reads and writes as plain storage. -/

namespace Sys2Proof.Machine

namespace Reg

def hvmap (d : Nat) : Nat := 0x0 + 8 * d
def fnode : Nat := 0x100
def pword (c : Nat) : Nat := 0x10000 + 256 * c
def twin (c p : Nat) : Nat := 0x10000 + 256 * c + 8 + 8 * p
def vfroot (v : Nat) : Nat := 0x20000 + 8 * v
def vfgen (v : Nat) : Nat := 0x20800 + 8 * v
def vfpart (v : Nat) : Nat := 0x21000 + 8 * v
def keyown (k : Nat) : Nat := 0x21800 + 8 * k
def cmtbase (p : Nat) : Nat := 0x22000 + 8 * p
def fpeer (e : Nat) : Nat := 0x23000 + 8 * e
def fgranta (g : Nat) : Nat := 0x2B000 + 16 * g
def fgrantb (g : Nat) : Nat := 0x2B000 + 16 * g + 8
def mbox (j : Nat) : Nat := 0x30000 + 1024 * j
def pmeas (p : Nat) : Nat := 0x32000 + 64 * p
def tlm (d : Nat) : Nat := 0x33000 + 8 * d
def mcerr (c : Nat) : Nat := 0x34000 + 8 * c
def mcq (c k : Nat) : Nat := 0x35000 + 256 * c + 8 * k
def frlog : Nat := 0x36000
def stpx : Nat := 0x36008
def fpstat (k : Nat) : Nat := 0x37000 + 8 * k
def hlstat : Nat := 0x37080
def rtstat : Nat := 0x37088
def pbrlog : Nat := 0x37090
def tdierr (v : Nat) : Nat := 0x37800 + 8 * v
def csst (c : Nat) : Nat := 0x38000 + 8 * c
def cslog : Nat := 0x38400
def csx (d : Nat) : Nat := 0x38408 + 8 * d
def prctl (d : Nat) : Nat := 0x38428 + 8 * d
def prstat (d : Nat) : Nat := 0x38448 + 8 * d
def prx (d : Nat) : Nat := 0x38468 + 8 * d
def dspx (d : Nat) : Nat := 0x40000 + 32 * d
def xltx (d : Nat) : Nat := 0x40000 + 32 * d + 8
def schx (d : Nat) : Nat := 0x40000 + 32 * d + 16
def decx (c : Nat) : Nat := 0x41000 + 32 * c
def memx (c : Nat) : Nat := 0x41000 + 32 * c + 8
def mtxx (c : Nat) : Nat := 0x41000 + 32 * c + 16
def cpyx (c : Nat) : Nat := 0x41000 + 32 * c + 24
def msix : Nat := 0x50000
def msixPend : Nat := 0x51000
def vmctl (v : Nat) : Nat := 0x100000 + 1024 * v
def vfstat : Nat := 0x0000
def vmbox : Nat := 0x1000
def srbase : Nat := 0x2000
def sridx : Nat := 0x2008
def srdb : Nat := 0x2010
def vmsix : Nat := 0x8000
def vmsixPend : Nat := 0x9000

end Reg

/-- Reset value of the storage behind offset `off` of the physical function's BAR0: `PRCTL.slack` is 1 (R482), the
vector control word of an MSI-X entry has its mask bit set (log 16), every other register is 0. -/
def Reg.init (off : Nat) : DWord :=
  if Reg.prctl 0 ≤ off ∧ off < Reg.prctl 4 then 1
  else if Reg.msix ≤ off ∧ off < Reg.msix + 256 ∧ off % 16 = 8 then 0x100000000 else 0

/-- Reset value of the storage behind offset `off` of a virtual function's BAR0. -/
def Reg.vinit (off : Nat) : DWord :=
  if Reg.vmsix ≤ off ∧ off < Reg.vmsix + 64 ∧ off % 16 = 8 then 0x100000000 else 0

/-- The enabled slice sites of die `d`, in the order of their logical numbers (R13, R14). -/
def sliceSites (d : Nat) : List Nat :=
  let k := Config.sliceOff d
  ((((List.range 36).eraseIdx k.1.val).eraseIdx k.2.1.val).eraseIdx k.2.2.1.val).eraseIdx k.2.2.2.val

/-- `HVMAP` of die `d` (R16). -/
def hvmapOf (d : Nat) : DWord :=
  let off := (List.range 36).filter (fun i => !(sliceSites d).contains i)
  BitVec.ofNat 64 (off.foldl (fun n i => n + 2 ^ (6 + i)) (4 * (Config.kilnOff d).val + d % 4))

/-- Read a register of the physical function's BAR0 as storage. -/
def State.rd (s : State) (off : Nat) : DWord := Tabs.get s.pf (Reg.init off) off

/-- Write it as storage. -/
def State.wr (s : State) (off : Nat) (v : DWord) : State := { s with pf := Tabs.set s.pf (Reg.init off) off v }

/-- Read a register of virtual function `v`'s BAR0 as storage. -/
def State.vrd (s : State) (v : BitVec 8) (off : Nat) : DWord := Tabs.get s.vfr (Reg.vinit off) (65536 * v.toNat + off)

/-- Write it as storage. -/
def State.vwr (s : State) (v : BitVec 8) (off : Nat) (x : DWord) : State :=
  { s with vfr := Tabs.set s.vfr (Reg.vinit off) (65536 * v.toNat + off) x }

/-- The current generation of a virtual function (R292). -/
def State.gen (s : State) (vf : BitVec 8) : BitVec 16 := (s.rd (Reg.vfgen vf.toNat)).setWidth 16

/-- `VFGEN.busy`. -/
def State.genBusy (s : State) (vf : BitVec 8) : Bool := (s.rd (Reg.vfgen vf.toNat)).getLsbD 16

/-- Core `c` moves to the head of its die's rotation (R471), unless its die's control turns that off, it is there
already, or it is retired. -/
def State.sweepFirst (s : State) (c : Nat) : State :=
  let st := s.rd (Reg.csst c)
  if (s.rd (Reg.csx (c / 32))).getLsbD 0 || s.sweepHead.contains c || st.extractLsb' 0 2 == 3 then s
  else { s.wr (Reg.csst c) (st ||| 4) with sweepHead := s.sweepHead ++ [c] }

/-- A core. -/
def State.core (s : State) (c : Nat) : Core := Tabs.get s.cores Core.empty c

/-- Replace a core. -/
def State.setCore (s : State) (c : Nat) (k : Core) : State := { s with cores := Tabs.set s.cores Core.empty c k }

/-- A workgroup. -/
def State.wg? (s : State) (n : Nat) : Option Wg := Tabs.find? s.wgs n

/-- Replace a workgroup. -/
def State.setWg (s : State) (n : Nat) (g : Wg) : State := { s with wgs := Tabs.put s.wgs n g }

/-- A warp of a workgroup. -/
def State.warp? (s : State) (r : WRef) : Option (Wg × Warp) :=
  match s.wg? r.wg with
  | none => none
  | some g => match g.warps[r.warp]? with
    | none => none
    | some w => some (g, w)

/-- Replace a warp. -/
def State.setWarp (s : State) (r : WRef) (w : Warp) : State :=
  match s.wg? r.wg with
  | none => s
  | some g => s.setWg r.wg { g with warps := g.warps.set r.warp w }

end Sys2Proof.Machine
end

