-- ==== Sys2Proof/Machine/Mem.lean ====
section
/-! DEFINITION. The named operations over memory: bytes and words at device physical addresses, crazes at rest (R388,
R430), watched words (R53), key slots (R354), uncorrectable sectors and quarantine (R426 to R428), and interrupts. -/

namespace Sys2Proof.Machine

/-! ## Words with tags -/

/-- Byte `i` (0-3) of a word. -/
def byteOf (w : Word) (i : Nat) : Byte := BitVec.ofNat 8 (w.toNat / 256 ^ i)

/-- Replace byte `i` of a word. -/
def setByteOf (w : Word) (i : Nat) (b : Byte) : Word := BitVec.ofNat 32 (setField w.toNat (8 * i) 8 b.toNat)

/-- Write some bytes of one word, each with its place 0-3 (R388, R430): crazed data makes the word crazed; clean data
that covers it only in part leaves a crazed word as it is. -/
def mergeWord (old : TWord) (cs : List (Nat × Byte × Option Word)) : TWord :=
  match cs.findSome? (fun c => c.2.2) with
  | some p => ⟨p, true⟩
  | none =>
    if old.tag && !((List.range 4).all (fun i => cs.any (fun c => c.1 == i))) then old
    else ⟨cs.foldl (fun w c => setByteOf w c.1 c.2.1) old.val, false⟩

/-- The cells of a store of `n` bytes with value `v` at `off`, crazed where `crz`. -/
def cellsOf (off n : Nat) (v : Nat) (crz : Option Word) : List WCell :=
  (List.range n).map (fun i => ⟨off + i, BitVec.ofNat 8 (v / 256 ^ i), crz⟩)

/-- The cells of whole words, the first at `off`. -/
def cellsOfWords (off : Nat) (ws : List TWord) : List WCell :=
  (ws.zipIdx).flatMap (fun e => (List.range 4).map (fun i =>
    ⟨off + 4 * e.2 + i, byteOf e.1.val i, if e.1.tag then some e.1.val else none⟩))

/-- Word numbers that `n` bytes at address `a` touch. -/
def wordsOf (a n : Nat) : List Nat := (List.range ((a % 4 + n + 3) / 4)).map (a / 4 + ·)

/-- Word numbers the cells at base `a` touch, in order, without repeats. -/
def cellWords (a : Nat) (cs : List WCell) : List Nat := (cs.map (fun c => (a + c.off) / 4)).eraseDups

/-- The cells of word `k`, as `mergeWord` takes them. -/
def cellsIn (a : Nat) (cs : List WCell) (k : Nat) : List (Nat × Byte × Option Word) :=
  (cs.filter (fun c => (a + c.off) / 4 == k)).map (fun c => ((a + c.off) % 4, c.b, c.crz))

/-! ## Memory as bytes -/

/-- The byte at an address; one that nothing has written reads 0x00 (log 6). -/
def Memory.byte (m : Memory) (a : Nat) : Byte := Tabs.get m.bytes 0 a

/-- Write one byte. -/
def Memory.setByte (m : Memory) (a : Nat) (b : Byte) : Memory := { m with bytes := Tabs.set m.bytes 0 a b }

/-- Write consecutive bytes. -/
def Memory.setBytes (m : Memory) (a : Nat) : List Byte → Memory
  | [] => m
  | b :: bs => (m.setByte a b).setBytes (a + 1) bs

/-- The `n` bytes from an address. -/
def Memory.bytesAt (m : Memory) (a n : Nat) : List Byte := (List.range n).map (fun i => m.byte (a + i))

/-- Word number `k` with its craze tag. -/
def Memory.word (m : Memory) (k : Nat) : TWord :=
  ⟨BitVec.ofNat 32 (leNat (m.bytesAt (4 * k) 4)), Tabs.get m.craze false k⟩

/-- Replace word `k`; a watched word's version moves when it changes (R53). -/
def Memory.putWord (m : Memory) (k : Nat) (x : TWord) : Memory :=
  let old := m.word k
  let m1 := { m.setBytes (4 * k) (leBytes 4 x.val.toNat) with craze := Tabs.set m.craze false k x.tag }
  if x = old then m1 else { m1 with watch := Tabs.modify m1.watch k (· + 1) }

/-- Write cells at base address `a` (R388, R430). -/
def Memory.writeCells (m : Memory) (a : Nat) (cs : List WCell) : Memory :=
  (cellWords a cs).foldl (fun m k => m.putWord k (mergeWord (m.word k) (cellsIn a cs k))) m

/-- The canonical form of memory: bytes and craze tags strictly rising, none that an unlisted address reads as. -/
def Memory.wf (m : Memory) : Bool := Tabs.canon 0 m.bytes && Tabs.canon false m.craze

/-! ## Physical layout (R296 to R298, R346) -/

/-- Start of the host window. -/
def hostBase : Nat := 2 ^ 40

/-- Window number of an address (R346). -/
def windowOf (a : Nat) : Nat := a / 2 ^ 40

/-- `HLSTAT.up`: the host link is trained (R454). -/
def State.hostUp (s : State) : Bool := (s.rd Reg.hlstat).getLsbD 0

/-- An address of the host window while the link is down (R454). -/
def State.hostDead (s : State) (a : Nat) : Bool := windowOf a == 1 && !s.hostUp

/-- A posted write to the host window is dropped and counted (R454). -/
def State.dropHost (s : State) : State :=
  let v := s.rd Reg.hlstat
  if v.toNat / 65536 % 65536 = 65535 then s else s.wr Reg.hlstat (v + 65536)

/-- Stack of an address (R297). -/
def stackOf (a : Nat) : Nat := (a / 2 ^ 12 % 8) ^^^ (a / 2 ^ 15 % 8)

/-- Memory controller of an address (R297). -/
def ctlOf (a : Nat) : Nat := 2 * stackOf a + a / 128 % 2

/-- Home slice of an address (R298): logical slice number. -/
def sliceOf (a : Nat) : Nat := 32 * (stackOf a / 2) + ((a / 128 % 32) ^^^ (a / 2 ^ 15 % 32))

/-- Colour of a line (R298). -/
def colourOf (a : Nat) : Nat := a / 2 ^ 15 % 64

/-- End of addressable device memory (R296). -/
def memTop : Nat := 0x5000000000

/-- Address in its stack of an addressable address (R297): below 40 GiB. -/
def localOf (a : Nat) : Nat := a / 2 ^ 15 % 2 ^ 24 * 4096 + a % 2 ^ 12

/-- Stack and address in it of a byte of a staging region (R17, R296, R297): from 40 GiB to 48 GiB. -/
def stagingOf (a : Nat) : Nat × Nat := ((a - memTop) / 2 ^ 33, 40 * 2 ^ 30 + (a - memTop) % 2 ^ 33)

/-- Set of a slice that a line belongs to (R298): of 2,048, each of 12 ways. -/
def setOf (a : Nat) : Nat := 32 * colourOf a + a / 2 ^ 21 % 32

/-- Ways of a set (R298). -/
def sliceWays : Nat := 12

/-! ## Key slots (R354, R467) -/

/-- The key slot and epoch that accesses under slot `k` use now. -/
def State.keyNow (s : State) (k : Nat) : Nat × Nat := (k, Tabs.get s.keyEpoch 0 k)

/-- The bytes of sector `q` as an access under slot `k` reads them. -/
def State.sectorBytes (s : State) (k q : Nat) : List Byte :=
  let was := Tabs.get s.mem.keys (0, 0) q
  let now := s.keyNow k
  (s.mem.bytesAt (32 * q) 32).zipIdx.map (fun e =>
    if was = now then e.1 else Config.otherKeyByte was.1 was.2 now.1 now.2 (32 * q + e.2) e.1)

/-- Bring sector `q` under key slot `k`: its bytes become what an access under `k` reads. -/
def State.rekey (s : State) (k q : Nat) : State :=
  if 32 * q < hostBase ∧ Tabs.get s.mem.keys (0, 0) q ≠ s.keyNow k then
    { s with mem := { s.mem.setBytes (32 * q) (s.sectorBytes k q) with
        keys := Tabs.set s.mem.keys (0, 0) q (s.keyNow k) } }
  else s

/-- One word as an access under key slot `k` reads it. -/
def State.memWord (s : State) (k w : Nat) : TWord :=
  if 4 * w < hostBase ∧ Tabs.get s.mem.keys (0, 0) (w / 8) ≠ s.keyNow k then
    ⟨BitVec.ofNat 32 (leNat (((s.sectorBytes k (w / 8)).drop (4 * (w % 8))).take 4)), Tabs.get s.mem.craze false w⟩
  else s.mem.word w

/-- The words that `n` bytes at `a` touch, read under key slot `k`. -/
def State.memWords (s : State) (k a n : Nat) : List TWord := (wordsOf a n).map (s.memWord k)

/-- `n` bytes at `a` as a little-endian number, read under key slot `k` (R2). -/
def State.memNat (s : State) (k a n : Nat) : Nat :=
  leNat ((List.range n).map (fun i => byteOf (s.memWord k ((a + i) / 4)).val ((a + i) % 4)))

/-- Sectors that the cells at `a` touch. -/
def cellSectors (a : Nat) (cs : List WCell) : List Nat := (cs.map (fun c => (a + c.off) / 32)).eraseDups

/-- Does a list of cells cover sector `q` whole? -/
def coversSector (a : Nat) (cs : List WCell) (q : Nat) : Bool :=
  (List.range 32).all (fun i => cs.any (fun c => a + c.off == 32 * q + i))

/-- Replace memory controller `c`. -/
def State.setCtl (s : State) (c : Nat) (x : MemCtl) : State := { s with ctls := s.ctls.set c x }

/-- Memory controller `c`. -/
def State.ctl (s : State) (c : Nat) : MemCtl := s.ctls.getD c ⟨[], [], 0, false, false⟩

/-- A write that covers a whole sector replaces what was uncorrectable there (R427). -/
def State.healSector (s : State) (q : Nat) : State :=
  let c := ctlOf (32 * q)
  let k := s.ctl c
  { (if k.pois.contains q then s.setCtl c { k with pois := k.pois.filter (· != q) } else s) with
    mem := { s.mem with badHbm := Tabs.set s.mem.badHbm false q false, badL2 := Tabs.set s.mem.badL2 false q false } }

/-- Write cells at device physical address `a` under key slot `k`; a posted write to the host window is dropped while the
link is down (R454). -/
def State.memWrite (s : State) (k a : Nat) (cs : List WCell) : State :=
  if s.hostDead a then s.dropHost
  else
  let qs := if a < hostBase then cellSectors a cs else []
  let s1 := qs.foldl (fun s q => s.rekey k q) s
  let s2 := { s1 with mem := s1.mem.writeCells a cs }
  (qs.filter (coversSector a cs)).foldl (fun s q => s.healSector q) s2

/-- Write clean bytes under key slot `k`. -/
def State.memBytes (s : State) (k a : Nat) (bs : List Byte) : State :=
  s.memWrite k a (bs.zipIdx.map (fun e => ⟨e.2, e.1, none⟩))

/-- Write an `n`-byte little-endian number under key slot `k`. -/
def State.memPut (s : State) (k a n v : Nat) : State := s.memBytes k a (leBytes n v)

/-- Fresh free bytes. -/
def State.freeBytes (s : State) (n : Nat) : State × List Byte :=
  ({ s with freeCtr := s.freeCtr + n }, (List.range n).map (fun i => (Config.freeValue (s.freeCtr + i)).setWidth 8))

/-- What the host or the physical function does takes effect once the physical function is there, after step 3 of bring-up (R377). -/
def State.ifUp (s t : State) : State := if s.up then t else s

/-! ## Interrupts (R348) -/

/-- Raise vector `v` of a function: the message is sent, or, where the vector is masked, its pending bit is set. -/
def State.raise (s : State) (f : Option (BitVec 8)) (v : Nat) : State :=
  match f with
  | none =>
    if (s.rd (Reg.msix + 16 * v + 8)).getLsbD 32 then
      s.wr Reg.msixPend (s.rd Reg.msixPend ||| BitVec.twoPow 64 v)
    else { s with irqs := s.irqs ++ [(none, v)] }
  | some n =>
    if (s.vrd n (Reg.vmsix + 16 * v + 8)).getLsbD 32 then
      s.vwr n Reg.vmsixPend (s.vrd n Reg.vmsixPend ||| BitVec.twoPow 64 v)
    else { s with irqs := s.irqs ++ [(some n, v)] }

/-! ## Uncorrectable sectors (R426 to R428) -/

/-- Is the page of address `a` quarantined, by either controller of its stack? -/
def State.quarantined (s : State) (a : Nat) : Bool :=
  (s.ctl (2 * stackOf a)).quar.any (fun e => e.2 == a / 4096) ||
  (s.ctl (2 * stackOf a + 1)).quar.any (fun e => e.2 == a / 4096)

/-- Quarantine the page of sector `q`: its entries leave the record and the page joins the list (R428). -/
def State.quarantine (s : State) (q : Nat) : State :=
  let page := q / 128
  let c := ctlOf (32 * q)
  let k := s.ctl c
  let free := (List.range 32).find? (fun i => (Tabs.find? k.quar i).isNone)
  match free with
  | none => s.setCtl c { k with ovf := true }
  | some i =>
    (s.setCtl c { k with pois := k.pois.filter (fun x => x / 128 != page), quar := Tabs.put k.quar i page,
                         qnew := true }).raise none 9

/-- Enter sector `q` in its controller's record, quarantining its page when the record is full. -/
def State.enterPoison (s : State) (q : Nat) : State :=
  let c := ctlOf (32 * q)
  let k := s.ctl c
  if k.pois.contains q then s
  else if k.pois.length < 512 then s.setCtl c { k with pois := k.pois ++ [q] }
  else s.quarantine q

/-- A read of sector `q`: cause 0x0A for a dirty uncorrectable L2 sector, which goes to HBM as poisoned, 0x09 for one
that HBM cannot correct or that the record holds (R426, R427). -/
def State.readSector (s : State) (q : Nat) : State × Option Nat :=
  if hostBase ≤ 32 * q then (s, none)
  else if Tabs.get s.mem.badL2 false q then
    ({ s with mem := { s.mem with badL2 := Tabs.set s.mem.badL2 false q false } }.enterPoison q, some 0x0A)
  else if Tabs.get s.mem.badHbm false q || (s.ctl (ctlOf (32 * q))).pois.contains q then (s.enterPoison q, some 0x09)
  else (s, none)

/-- A read of the sectors of `n` bytes at `a`: the first cause met. -/
def State.readSectors (s : State) (a n : Nat) : State × Option Nat :=
  ((List.range ((a % 32 + n + 31) / 32)).map (a / 32 + ·)).foldl (fun r q =>
    match r.2 with
    | some _ => r
    | none => r.1.readSector q) (s, none)

end Sys2Proof.Machine
end

