-- ==== Sys2Proof/Machine/Domain.lean ====
section
/-! DEFINITION. Domain control blocks and effective values (R27, R28, R315, R316), partitions and their breaches (R353,
R462), and the state of trusted interfaces (R356, R459, R460). -/

namespace Sys2Proof.Machine

/-! ## Domain control blocks (R315) -/

/-- An `n`-byte field of the DCB at `d`; DCB accesses use key slot 0 (R354). -/
def State.dcb (s : State) (d off n : Nat) : Nat := s.memNat 0 (d + off) n

/-- Write a DCB field. -/
def State.dcbPut (s : State) (d off n v : Nat) : State := s.memPut 0 (d + off) n v

/-- Address of the parent DCB; 0 for the device DCB. -/
def State.parent (s : State) (d : Nat) : Nat := s.dcb d 0x00 8 % 2 ^ 52

/-- First child. -/
def State.child (s : State) (d : Nat) : Nat := s.dcb d 0x08 8 % 2 ^ 52

/-- Next sibling. -/
def State.sibling (s : State) (d : Nat) : Nat := s.dcb d 0x10 8 % 2 ^ 52

/-- Level of a DCB. -/
def State.level (s : State) (d : Nat) : Nat := s.dcb d 0x18 1

/-- `ident`. -/
def State.ident (s : State) (d : Nat) : Nat := s.dcb d 0x19 1

/-- Override bit `k` (R316). -/
def State.ovr (s : State) (d k : Nat) : Bool := (s.dcb d 0x1A 2).testBit k

/-- `state` of a DCB: 0 idle, 1 running, 2 stopping, 3 saved, 4 draining, 5 drained. -/
def State.dcbState (s : State) (d : Nat) : Nat := s.dcb d 0x1F 1

/-- The Stoker writes `state`. -/
def State.setDcbState (s : State) (d v : Nat) : State := s.dcbPut d 0x1F 1 v

/-- A DCB and the DCBs above it, the nearest first: at most the six levels of R315. -/
def State.lineage (s : State) : Nat → Nat → List Nat
  | 0, _ => []
  | n + 1, d => d :: (if s.parent d = 0 then [] else s.lineage n (s.parent d))

/-- The lineage of a DCB. -/
def State.above (s : State) (d : Nat) : List Nat := s.lineage 6 d

/-- Does the DCB `d` lie in the subtree of `top`? -/
def State.under (s : State) (d top : Nat) : Bool := (s.above d).contains top

/-- The DCB of a level at or above `d`. -/
def State.atLevel (s : State) (d k : Nat) : Option Nat := (s.above d).find? (fun x => s.level x == k)

/-- `effective` (R28) along a lineage: the device's value stands; an override bit that is clear passes the parent's
value on; `comb` joins a DCB's own value and its parent's. -/
def effectiveOf (ovr : Nat → Bool) (own : Nat → Nat) (comb : Nat → Nat → Nat) : List Nat → Nat
  | [] => 0
  | [d] => own d
  | d :: ds => if ovr d then comb (own d) (effectiveOf ovr own comb ds) else effectiveOf ovr own comb ds

/-- Effective issue share in 256ths; 0 stands for 256. -/
def State.effShare (s : State) (d : Nat) : Nat :=
  effectiveOf (fun x => s.ovr x 0) (fun x => if s.dcb x 0x1E 1 = 0 then 256 else s.dcb x 0x1E 1) min (s.above d)

/-- Colour set and memory quota of a DCB as they stand in it. -/
def State.forceNow (s : State) (d : Nat) : InForce := ⟨s.ovr d 1, s.dcb d 0x28 8, s.ovr d 2, s.dcb d 0x30 8⟩

/-- Those in force (R28). -/
def State.force (s : State) (d : Nat) : InForce := Tabs.get s.inForce (s.forceNow d) d

/-- A bind is written for DCB `d`: what stands in the DCBs above it is in force from now on (R28). -/
def State.enforce (s : State) (d : Nat) : State :=
  { s with inForce := (s.above d).foldl (fun t x => Tabs.put t x (s.forceNow x)) s.inForce }

/-- Effective colour set in force. -/
def State.effColours (s : State) (d : Nat) : Nat :=
  effectiveOf (fun x => (s.force x).ovrColours) (fun x => (s.force x).colours) (fun x y => x &&& y) (s.above d)

/-- Effective memory quota, in 2 MiB units, as the next bind will have it. -/
def State.effMemq (s : State) (d : Nat) : Nat :=
  effectiveOf (fun x => (s.forceNow x).ovrMemq) (fun x => (s.forceNow x).memq) min (s.above d)

/-- Effective sagger quota in 512-byte units. -/
def State.effSagq (s : State) (d : Nat) : Nat :=
  effectiveOf (fun x => s.ovr x 3) (fun x => s.dcb x 0x38 2) min (s.above d)

/-- Effective held-line quota. -/
def State.effHeldq (s : State) (d : Nat) : Nat :=
  effectiveOf (fun x => s.ovr x 4) (fun x => s.dcb x 0x3C 4) min (s.above d)

/-- Effective priority. -/
def State.effPrio (s : State) (d : Nat) : Nat :=
  effectiveOf (fun x => s.ovr x 5) (fun x => s.dcb x 0x1C 1 % 16) min (s.above d)

/-- Effective pre-emption mode. -/
def State.effMode (s : State) (d : Nat) : Nat :=
  effectiveOf (fun x => s.ovr x 7) (fun x => s.dcb x 0x1D 1 % 4) (fun x _ => x) (s.above d)

/-- Effective deadline; 0 selects 4,096 cycles (R446). -/
def State.effDeadline (s : State) (d : Nat) : Nat :=
  let v := effectiveOf (fun x => s.ovr x 8) (fun x => s.dcb x 0x20 4) (fun x _ => x) (s.above d)
  if v = 0 then 4096 else v

/-- Effective collective timeout; 0 is none. -/
def State.effCtmo (s : State) (d : Nat) : Nat :=
  effectiveOf (fun x => s.ovr x 9) (fun x => s.dcb x 0x24 4) (fun x _ => x) (s.above d)

/-- The level-1 DCB of a partition. -/
def State.partDcb (s : State) (p : Nat) : Option Nat := s.dcbs.find? (fun d => s.level d == 1 && s.ident d == p)

/-- The level-2 DCB of a virtual function. -/
def State.vfDcb (s : State) (v : Nat) : Option Nat := s.dcbs.find? (fun d => s.level d == 2 && s.ident d == v)

/-- Is the colour in the partition's effective colour set (R299, R462)? A partition without a DCB has every colour. -/
def State.colourOk (s : State) (p c : Nat) : Bool :=
  match s.partDcb p with
  | none => true
  | some d => (s.effColours d).testBit c

/-! ## Partitions and interfaces -/

/-- Partition a virtual function is bound to (R353). -/
def State.vfPart (s : State) (v : BitVec 8) : Nat := ((s.rd (Reg.vfpart v.toNat)).setWidth 5).toNat

/-- `VFPART.en`. -/
def State.vfBound (s : State) (v : BitVec 8) : Bool := (s.rd (Reg.vfpart v.toNat)).getLsbD 5

/-- Does partition `p` own key slot `k` (R353)? -/
def State.ownsKey (s : State) (p k : Nat) : Bool :=
  let r := s.rd (Reg.keyown k)
  r.getLsbD 5 && (r.setWidth 5).toNat == p

/-- State of an interface: 0 unlocked, 1 locked, 2 run, 3 error (R348). -/
def State.tdi (s : State) (v : BitVec 8) : Nat := (s.vrd v Reg.vfstat / 65536 % 4).toNat

/-- Set it. -/
def State.setTdi (s : State) (v : BitVec 8) (x : Nat) : State :=
  s.vwr v Reg.vfstat (BitVec.ofNat 64 (65536 * x))

/-- Is the interface locked or running? -/
def State.tdiLive (s : State) (v : BitVec 8) : Bool := s.tdi v == 1 || s.tdi v == 2

/-- An interface moves to error (R459, R460): the log, the state, vector 2, and a forced reset of its subtree that is
carried out before the step ends. An interface that is not locked or running stays as it is. -/
def State.interfaceError (s : State) (v : BitVec 8) (why off : Nat) : State :=
  if s.tdiLive v then
    let s1 := if (s.rd (Reg.tdierr v.toNat)).getLsbD 0 then s
      else s.wr (Reg.tdierr v.toNat) (BitVec.ofNat 64 (2 ^ 32 * off + 2 * why + 1))
    let s2 := (s1.setTdi v 3).raise (some v) 2
    { s2 with errs := s2.errs ++ [v] }
  else s

/-! ## The way to a peer (R360, R361, R455 to R457) -/

/-- Where a request to an address of a fabric window goes. -/
inductive Way where
  | port (k : Nat)
  /-- Its port trains, retrains or is down: it waits, so that the order is kept. -/
  | waits
  /-- The peer has no live port. -/
  | dead
deriving DecidableEq, Repr

/-- `st` of a fabric port. -/
def State.portSt (s : State) (k : Nat) : Nat := (s.rd (Reg.fpstat k)).toNat % 4

/-- The port that R361 picks among those of a list. -/
def hashPort (a : Nat) (ports : List Nat) : Option Nat :=
  ports[((a / 2 ^ 7 % 256) ^^^ (a / 2 ^ 15 % 256)) % ports.length]?

/-- The way to address `a`: over the live ports of its peer entry. -/
def State.wayTo (s : State) (a : Nat) : Way :=
  let e := s.rd (Reg.fpeer (windowOf a - 16))
  match hashPort (a % 2 ^ 39) ((List.range 12).filter (fun k => e.getLsbD 63 && e.getLsbD (32 + k) && s.portSt k != 3)) with
  | none => .dead
  | some k => if s.portSt k = 2 then .port k else .waits

/-- A release to address `a` completes here although its peer has not answered (R457): `lost` of the port it used, and the
error vector. -/
def State.lostRelease (s : State) (a : Nat) : State :=
  let e := s.rd (Reg.fpeer (windowOf a - 16))
  match hashPort (a % 2 ^ 39) ((List.range 12).filter (fun k => e.getLsbD (32 + k))) with
  | none => s.raise none 9
  | some k => (s.wr (Reg.fpstat k) (s.rd (Reg.fpstat k) ||| 8)).raise none 9

/-- All virtual function numbers. -/
def allVfs : List (BitVec 8) := (List.range 256).map (BitVec.ofNat 8)

/-- A breach by partition `p` (R462): kind 0 colour, 1 key slot. It is logged, and every locked or running interface of
the partition moves to error. -/
def State.breach (s : State) (p kind a : Nat) : State :=
  let log := s.rd Reg.pbrlog
  let s1 := if log.getLsbD 0 then s.wr Reg.pbrlog (log ||| 2)
    else s.wr Reg.pbrlog ((log &&& 2) ||| BitVec.ofNat 64 (2 ^ 59 * p + 2 ^ 57 * kind + a % 2 ^ 52 / 128 * 128 + 1))
  allVfs.foldl (fun s v => if s.tdiLive v && s.vfPart v == p then s.interfaceError v 4 0 else s) s1

end Sys2Proof.Machine
end

