-- ==== Sys2Proof/Machine/Num.lean ====
section
/-! DEFINITION. Number formats, rounding and exact arithmetic (R121 to R142). A value is computed exactly, as an
integer times a power of two, and rounded once. -/

namespace Sys2Proof.Num

/-! ## Exact values -/

/-- An exact value: NaN, an infinity, a signed zero, or `m` times 2 to the `e` with `m` not 0 (R133). -/
inductive X where
  | nan
  | inf (neg : Bool)
  | zero (neg : Bool)
  | fin (m : Int) (e : Int)
deriving DecidableEq, Repr

/-- `m` times 2 to the `e`, a zero being `neg`. -/
def mkX (neg : Bool) (m : Int) (e : Int) : X := if m = 0 then .zero neg else .fin m e

/-- Is the value negative (−0 included)? -/
def X.neg? : X → Bool
  | .nan => false
  | .inf n => n
  | .zero n => n
  | .fin m _ => decide (m < 0)

/-- The value with its sign turned; a NaN stays NaN (R160). -/
def X.negate : X → X
  | .nan => .nan
  | .inf n => .inf !n
  | .zero n => .zero !n
  | .fin m e => .fin (-m) e

/-- Negate where `b`. -/
def X.negIf (b : Bool) (x : X) : X := if b then x.negate else x

/-- The integer `m` times 2 to the `e - f`, for `f` at most `e`. -/
def align (m e f : Int) : Int := m * 2 ^ (e - f).toNat

/-- Exact sum; an exact zero of opposite signs is −0 where `rm` (round toward minus infinity) and +0 otherwise (R123). -/
def X.add (rm : Bool) : X → X → X
  | .nan, _ => .nan
  | _, .nan => .nan
  | .inf a, .inf b => if a = b then .inf a else .nan
  | .inf a, _ => .inf a
  | _, .inf b => .inf b
  | .zero a, .zero b => .zero (if a = b then a else rm)
  | .zero _, y => y
  | x, .zero _ => x
  | .fin m e, .fin n f => let g := min e f; mkX rm (align m e g + align n f g) g

/-- Exact product, with infinities and signed zeros per IEEE 754-2019 (R137 `prod`). -/
def X.mul : X → X → X
  | .nan, _ => .nan
  | _, .nan => .nan
  | .inf _, .zero _ => .nan
  | .zero _, .inf _ => .nan
  | .fin m e, .fin n f => .fin (m * n) (e + f)
  | .inf a, y => .inf (a != y.neg?)
  | x, .inf b => .inf (x.neg? != b)
  | .zero a, y => .zero (a != y.neg?)
  | x, .zero b => .zero (x.neg? != b)

/-- The value times 2 to the `k`; NaN, infinities and zeros pass through (R134). -/
def X.scale (k : Int) : X → X
  | .fin m e => .fin m (e + k)
  | x => x

/-- Compare two finite values: is `x` below `y`? Zeros compare as 0. -/
def X.ltFin (x y : X) : Bool :=
  let part := fun (z : X) => match z with
    | .fin m e => (m, e)
    | _ => ((0 : Int), (0 : Int))
  let (m, e) := part x
  let (n, f) := part y
  let g := min e f
  decide (align m e g < align n f g)

/-- Ordered and below: infinities at the ends, −0 equal to +0 (R156). -/
def X.lt : X → X → Bool
  | .nan, _ => false
  | _, .nan => false
  | .inf a, .inf b => a && !b
  | .inf a, _ => a
  | _, .inf b => !b
  | x, y => X.ltFin x y

/-- Neither value is NaN. -/
def X.ordered (x y : X) : Bool := x != .nan && y != .nan

/-- Ordered and equal, −0 equal to +0 (R156). -/
def X.eqv (x y : X) : Bool := X.ordered x y && !X.lt x y && !X.lt y x

/-- An integer as an exact value (R135). -/
def ofInt (i : Int) : X := if i = 0 then .zero false else .fin i 0

/-- `exact_sum` (R137). -/
def exactSum (l : List X) : X :=
  if l.any (· == .nan) || (l.any (· == .inf true) && l.any (· == .inf false)) then .nan
  else if l.any (· == .inf true) then .inf true
  else if l.any (· == .inf false) then .inf false
  else if l.all (· == .zero true) then .zero true
  else l.foldl (fun acc x => match X.add false acc x with
    | .zero _ => .zero false
    | y => y) (.zero false)

/-! ## Formats -/

/-- Special-value policies (R128); the standard formats are IEEE-like. -/
inductive Special where
  | finite | nan1 | ieee
deriving DecidableEq, Repr

/-- A number format (R121, R125, R130). -/
structure Fmt where
  /-- A half-step integer of `width` bits; the other fields then count for nothing. -/
  hs : Bool
  /-- Total width of a code, before `shift`. -/
  width : Nat
  sign : Bool
  /-- Exponent bits. -/
  eb : Nat
  /-- Mantissa bits. -/
  mb : Nat
  bias : Int
  /-- Exponent-0 codes are subnormals. -/
  sub : Bool
  special : Special
  /-- Zero bits below the code in its container (TF32). -/
  shift : Nat
deriving DecidableEq, Repr

def fp64 : Fmt := ⟨false, 64, true, 11, 52, 1023, true, .ieee, 0⟩
def fp32 : Fmt := ⟨false, 32, true, 8, 23, 127, true, .ieee, 0⟩
def tf32 : Fmt := ⟨false, 19, true, 8, 10, 127, true, .ieee, 13⟩
def fp16 : Fmt := ⟨false, 16, true, 5, 10, 15, true, .ieee, 0⟩
def bf16 : Fmt := ⟨false, 16, true, 8, 7, 127, true, .ieee, 0⟩

/-- Is a format register value assigned (R126)? -/
def fmAssigned (v : Word) : Bool :=
  let n := v.toNat
  let kind := field n 26 2
  let w := field n 0 4
  let e := field n 8 4
  let s := field n 12 1
  let sp := field n 14 2
  field n 28 4 == 0 && field n 25 1 == 0 && field n 4 4 == 0 &&
  (if kind = 0 then
    decide (4 ≤ w ∧ w ≤ 8 ∧ 1 ≤ e ∧ e ≤ 6 ∧ s + e ≤ w ∧ sp ≤ 2) && (sp != 2 || decide (2 ≤ e ∧ s + e + 1 ≤ w))
  else if kind ≤ 2 then
    w == 0 && e == 0 && s == 0 && field n 13 1 == 0 && sp == 0 && field n 16 8 == 0
  else false)

/-- The format a format register names (R125, R130). -/
def fmOf (v : Word) : Fmt :=
  let n := v.toNat
  if field n 26 2 = 1 then ⟨true, 4, true, 0, 0, 0, true, .finite, 0⟩
  else if field n 26 2 = 2 then ⟨true, 8, true, 0, 0, 0, true, .finite, 0⟩
  else
    { hs := false, width := field n 0 4, sign := v.getLsbD 12, eb := field n 8 4,
      mb := field n 0 4 - field n 12 1 - field n 8 4, bias := sext 8 (field n 16 8), sub := v.getLsbD 13,
      special := if field n 14 2 = 0 then .finite else if field n 14 2 = 1 then .nan1 else .ieee, shift := 0 }

/-- Elements of a scale block (R129). -/
def blockOf (v : Word) : Nat := if v.getLsbD 24 then 32 else 16

/-- `value_of` (R121, R127, R128, R130). -/
def valueOf (code : Nat) (f : Fmt) : X :=
  let c := field code f.shift f.width
  if f.hs then .fin (2 * sext f.width c + 1) (-1)
  else
    let s := f.sign && c.testBit (f.width - 1)
    let e := field c f.mb f.eb
    let m := field c 0 f.mb
    let sg : Int := if s then -1 else 1
    let top := 2 ^ f.eb - 1
    if f.special = .ieee && e == top then (if m = 0 then .inf s else .nan)
    else if f.special = .nan1 && e == top && m == 2 ^ f.mb - 1 then .nan
    else if e = 0 then
      if f.sub then mkX s (sg * m) (1 - f.bias - f.mb) else .zero s
    else .fin (sg * (2 ^ f.mb + m : Nat)) (e - f.bias - f.mb)

/-- `nan_code` (R122, R128). -/
def nanCode (f : Fmt) : Nat :=
  if f.hs then 0
  else match f.special with
    | .finite => 0
    | .nan1 => (2 ^ (f.eb + f.mb) - 1) * 2 ^ f.shift
    | .ieee => ((2 ^ f.eb - 1) * 2 ^ f.mb + 2 ^ (f.mb - 1)) * 2 ^ f.shift

/-- Magnitude code of `largest_finite` (R128). -/
def maxCode (f : Fmt) : Nat :=
  match f.special with
  | .finite => 2 ^ (f.eb + f.mb) - 1
  | .nan1 => 2 ^ (f.eb + f.mb) - 2
  | .ieee => (2 ^ f.eb - 1) * 2 ^ f.mb - 1

/-- A magnitude code with its sign, in its container. -/
def withSign (f : Fmt) (neg : Bool) (mag : Nat) : Nat :=
  ((if neg && f.sign then 2 ^ (f.width - 1) else 0) + mag) * 2 ^ f.shift

/-- `largest_finite` as an exact value. -/
def largestFinite (f : Fmt) : X := valueOf (withSign f false (maxCode f)) f

/-! ## Rounding -/

/-- A rounding mode with its random number (R132, R133). -/
inductive Rnd where
  | det (m : RMode)
  | sr (r : Nat)
deriving DecidableEq, Repr

/-- Round to nearest even. -/
abbrev rne : Rnd := .det .rne

/-- `pick` (R133) between the integers `n` and `n + 1` for a value that lies `rem / 2^d` above `n`, 0 < `rem` < 2^`d`:
`odd` says whether the last digit of `n` is odd, `negX` that the value is negative, `hiSmall` that `n + 1` is the
neighbour of smaller magnitude. -/
def pick (mode : Rnd) (n rem : Int) (d : Nat) (oddLo hiSmall : Bool) : Int :=
  match mode with
  | .det .rne =>
    if 2 * rem < 2 ^ d then n else if 2 ^ d < 2 * rem then n + 1 else if oddLo then n + 1 else n
  | .det .rz => if hiSmall then n + 1 else n
  | .det .rp => n + 1
  | .det .rm => n
  | .sr r => if (r : Int) < rem * 65536 / 2 ^ d then n + 1 else n

/-- Number of bits of a magnitude. -/
def bitLen (n : Nat) : Nat := if n = 0 then 0 else n.log2 + 1

/-- Encode the magnitude `n` times 2 to the `q`, which is on the grid and at most the largest finite value. -/
def encodeMag (f : Fmt) (n : Nat) (q : Int) : Nat :=
  let k : Int := q + (bitLen n : Int) - 1
  if k < 1 - f.bias then
    -- subnormal: units of 2^(1 - bias - mb)
    n * 2 ^ (q - (1 - f.bias - f.mb)).toNat
  else
    let e := (k + f.bias).toNat
    let m := if bitLen n ≤ f.mb + 1 then n * 2 ^ (f.mb + 1 - bitLen n) else n / 2 ^ (bitLen n - (f.mb + 1))
    e * 2 ^ f.mb + (m - 2 ^ f.mb)

/-- `round_to` for a half-step format: the code, an integer on the grid n + 1/2. -/
def roundHs (m e : Int) (f : Fmt) (mode : Rnd) : Nat :=
  let g := min e (-1)
  let x := align m e g - align 1 (-1) g          -- the value minus 1/2, in units of 2^g
  let d := (-g).toNat
  let n := x / 2 ^ d
  let rem := x - n * 2 ^ d
  let y := if rem = 0 then n
    else pick mode n rem d (n % 2 != 0) (if n = -1 then decide (0 < m) else decide (n < 0))
  let top : Int := 2 ^ (f.width - 1) - 1
  let z := if top < y then top else if y < -top - 1 then -top - 1 else y
  (z % 2 ^ f.width).toNat

/-- `round_to` (R133). -/
def roundTo (x : X) (f : Fmt) (mode : Rnd) : Nat :=
  match x with
  | .nan => nanCode f
  | .inf neg =>
    if f.hs then (if neg then 2 ^ (f.width - 1) else 2 ^ (f.width - 1) - 1)
    else if !f.sign && neg then 0
    else if f.special = .ieee then withSign f neg ((2 ^ f.eb - 1) * 2 ^ f.mb)
    else withSign f neg (maxCode f)
  | .zero neg =>
    if f.hs then (if neg then 2 ^ f.width - 1 else 0)
    else withSign f neg 0
  | .fin m e =>
    if f.hs then roundHs m e f mode
    else if !f.sign && decide (m < 0) then 0
    else
      let neg := decide (m < 0)
      let k : Int := e + (bitLen m.natAbs : Int) - 1
      let q := max k (1 - f.bias) - f.mb
      -- the value on the grid, in units of 2^q
      let y : Int :=
        if q ≤ e then align m e q
        else
          let d := (q - e).toNat
          let n := m / 2 ^ d
          let rem := m - n * 2 ^ d
          if rem = 0 then n
          else
            -- last digit of the neighbour n; with no mantissa bits it is that of the exponent field (log 11)
            let oddLo := if f.mb = 0 then (if n = 0 then false else
                (q + (bitLen n.natAbs : Int) - 1 + f.bias) % 2 != 0) else n % 2 != 0
            pick mode n rem d oddLo (decide (m < 0))
      if y = 0 then withSign f neg 0
      else
        let above := X.lt (largestFinite f) (.fin y.natAbs q)
        if above then
          if f.special != .ieee then withSign f neg (maxCode f)
          else if mode = .det .rz || (mode = .det .rp && neg) || (mode = .det .rm && !neg) then
            withSign f neg (maxCode f)
          else withSign f neg ((2 ^ f.eb - 1) * 2 ^ f.mb)
        else
          let mag := encodeMag f y.natAbs q
          if !f.sub && decide (mag < 2 ^ f.mb) then withSign f neg 0 else withSign f neg mag

/-- `tf32_of` (R124). -/
def tf32Of (w : Nat) : Nat := roundTo (valueOf w fp32) tf32 rne

/-- `convert` (R134). -/
def convert (c : Nat) (fs fd : Fmt) (mode : Rnd) (ss sd : Nat) : Nat :=
  let x := (valueOf c fs).scale (ss - 127)
  let x := if fd = tf32 && mode != rne then valueOf (roundTo x fp32 mode) fp32 else x
  roundTo (x.scale (127 - sd)) fd mode

/-- `to_int` (R135): the `n`-bit pattern. -/
def toInt (x : X) (n : Nat) (signed : Bool) (mode : Rnd) : Nat :=
  let lo : Int := if signed then -(2 ^ (n - 1)) else 0
  let hi : Int := if signed then 2 ^ (n - 1) - 1 else 2 ^ n - 1
  let y : Int := match x with
    | .nan => 0
    | .inf neg => if neg then lo else hi
    | .zero _ => 0
    | .fin m e =>
      if 0 ≤ e then align m e 0
      else
        let d := (-e).toNat
        let k := m / 2 ^ d
        let rem := m - k * 2 ^ d
        if rem = 0 then k else pick mode k rem d (k % 2 != 0) (decide (m < 0))
  let z := if hi < y then hi else if y < lo then lo else y
  (z % 2 ^ n).toNat

/-- `.sat` of R160: clamp a code of `f` to [+0.0, 1.0]. -/
def sat01 (c : Nat) (f : Fmt) : Nat :=
  let x := valueOf c f
  if x = .nan || x.neg? || x = .zero false then 0
  else if X.lt (.fin 1 0) x then roundTo (.fin 1 0) f rne else c

/-! ## Functions (R162) -/

/-- A positive quotient `a / b` with 130 significant bits and a last bit that is odd when it is inexact. -/
def quot (a b : Nat) : X :=
  let s := 130 + bitLen b
  let n := a * 2 ^ s / b
  let r := a * 2 ^ s % b
  .fin (2 * n + (if r = 0 then 0 else 1) : Nat) (-(s : Int) - 1)

/-- The positive square root of `m` times 2 to the `e`, in the same form. -/
def rootX (m : Nat) (e : Int) : X :=
  let s : Int := if e % 2 = 0 then 260 else 261
  let n := m * 2 ^ s.toNat
  let r := n.sqrt
  .fin (2 * r + (if r * r = n then 0 else 1) : Nat) ((e - s) / 2 - 1)

/-- 1 / x (R162). -/
def recipX : X → X
  | .nan => .nan
  | .inf n => .zero n
  | .zero n => .inf n
  | .fin m e => match quot 1 m.natAbs with
    | .fin q f => .fin (if m < 0 then -q else q) (f - e)
    | y => y

/-- √x (R162). -/
def sqrtX : X → X
  | .nan => .nan
  | .inf n => if n then .nan else .inf false
  | .zero n => .zero n
  | .fin m e => if m < 0 then .nan else rootX m.natAbs e

/-- 1 / √x (R162): the root of the exact reciprocal of a power of two, else a quotient under one root, with the last
bit odd when it is inexact. -/
def rsqrtX : X → X
  | .nan => .nan
  | .inf n => if n then .nan else .zero false
  | .zero n => .inf n
  | .fin m e =>
    if m < 0 then .nan
    else
      -- 1/√(m 2^e) = √(2^(2t) / m) 2^(-t - e/2), e made even
      let (m, e) := if e % 2 = 0 then (m.natAbs, e) else (2 * m.natAbs, e - 1)
      let t := 130 + bitLen m
      let n := 2 ^ (2 * t) / m
      let exactDiv := 2 ^ (2 * t) % m == 0
      let r := n.sqrt
      .fin (2 * r + (if exactDiv && r * r == n then 0 else 1) : Nat) (-(t : Int) - e / 2 - 1)

/-! ### Fixed-point series: integers in units of 2^-p -/

/-- Σ of 1 / (k 2^k) for k = 1 .. n, in units of 2^-p: ln 2, at most n units too small. -/
def ln2Fix (p : Nat) : Nat → Nat
  | 0 => 0
  | n + 1 => ln2Fix p n + 2 ^ p / ((n + 1) * 2 ^ (n + 1))

/-- Σ of x^k / k! over `n` terms from the term `t` with index `k`. -/
def expFix (p x : Nat) : Nat → Nat → Nat → Nat
  | 0, _, _ => 0
  | n + 1, t, k => t + expFix p x n (t * x / 2 ^ p / (k + 1)) (k + 1)

/-- Σ of y^(2i+1) / (2i+1) over `n` terms, `t` the power y^(2i+1): artanh y. -/
def atanhFix (p y2 : Nat) : Nat → Nat → Nat → Nat
  | 0, _, _ => 0
  | n + 1, t, k => t / k + atanhFix p y2 n (t * y2 / 2 ^ p) (k + 2)

/-- Alternating Σ of θ^k / k! over `n` terms, for sine or cosine: the terms of even index from this one count
positive. -/
def trigFix (p x2 : Nat) : Nat → Int → Nat → Int
  | 0, _, _ => 0
  | n + 1, t, k => t - trigFix p x2 n (t * x2 / 2 ^ p / ((k + 1) * (k + 2))) (k + 2)

/-- artan(1 / j) over `n` terms, in units of 2^-p. -/
def atanInv (p j : Nat) : Nat → Nat → Nat → Int
  | 0, _, _ => 0
  | n + 1, t, k => (t / k : Nat) - atanInv p j n (t / (j * j)) (k + 2)

/-- π in units of 2^-p, to within 64 p units (Machin's formula). -/
def piFix (p : Nat) : Int := 16 * atanInv p 5 p (2 ^ p / 5) 1 - 4 * atanInv p 239 p (2 ^ p / 239) 1

/-- An enclosure: the value lies between `lo` and `hi`, in units of 2^-p. -/
structure Encl where
  lo : Int
  hi : Int
  p : Nat

/-- The enclosure `v` ± `err`. -/
def encl (v : Int) (err p : Nat) : Encl := ⟨v - err, v + err, p⟩

/-- 2^f for 0 < f < 1, f = m / 2^d. -/
def exp2Encl (m d p : Nat) : Encl :=
  let ln2 := ln2Fix p p
  let x := ln2 * m / 2 ^ d
  encl (expFix p x (p + 1) (2 ^ p) 0) (8 * p + 64) p

/-- log₂ of m / 2^d in (1, 2). -/
def log2Encl (m d p : Nat) : Encl :=
  let ln2 := ln2Fix p p
  let y := (m - 2 ^ d) * 2 ^ p / (m + 2 ^ d)
  let ln := 2 * atanhFix p (y * y / 2 ^ p) p y 1
  encl (ln * 2 ^ p / ln2 : Nat) (32 * p + 64) p

/-- Sine (or cosine) of (π / 2) m / 2^d, 0 < m / 2^d < 1. -/
def trigEncl (cosine : Bool) (m d p : Nat) : Encl :=
  let th := (piFix p * m / 2 ^ (d + 1)).toNat
  let x2 := th * th / 2 ^ p
  let v := if cosine then trigFix p x2 p (2 ^ p) 0 else trigFix p x2 p th 1
  encl v (256 * p + 64) p

/-- Round both ends of the enclosure, shifted by `k` binary places and negated where `neg`: the code when they
agree. -/
def Encl.code (c : Encl) (neg : Bool) (add : Int) (k : Int) (f : Fmt) : Option Nat :=
  let g := fun (v : Int) =>
    let v := v + add * 2 ^ c.p
    roundTo (mkX false (if neg then -v else v) (k - c.p)) f rne
  let a := g c.lo
  let b := g c.hi
  -- a zero crossing rounds to codes that differ, so agreement means the value is between them
  if a = b ∧ (0 < c.lo + add * 2 ^ c.p ∨ c.hi + add * 2 ^ c.p < 0) then some a else none

/-- The precisions tried, in order. -/
def ladder : List Nat := [80, 200, 400]

/-- The code of the first enclosure that decides it; `free` where none does (log 12). -/
def decideCode (free : Nat) (f : Nat → Option Nat) : Nat :=
  match ladder.findSome? f with
  | some c => c
  | none => free

/-- `fex2` (R162) on FP32. -/
def fex2 (free : Nat) (x : X) : Nat :=
  match x with
  | .nan => nanCode fp32
  | .inf n => if n then 0 else roundTo (.inf false) fp32 rne
  | .zero _ => roundTo (.fin 1 0) fp32 rne
  | .fin m e =>
    if 0 ≤ e then
      -- an integer: exact; far out it overflows or underflows
      let n := if e < 20 then align m e 0 else if m < 0 then -4096 else 4096
      roundTo (.fin 1 (max (-4096) (min 4096 n))) fp32 rne
    else
      let d := (-e).toNat
      let n := m / 2 ^ d
      let r := (m - n * 2 ^ d).toNat
      let n := max (-4096) (min 4096 n)
      if r = 0 then roundTo (.fin 1 n) fp32 rne
      else decideCode free (fun p => (exp2Encl r d p).code false 0 n fp32)

/-- `flg2` (R162) on FP32. -/
def flg2 (free : Nat) (x : X) : Nat :=
  match x with
  | .nan => nanCode fp32
  | .inf n => if n then nanCode fp32 else roundTo (.inf false) fp32 rne
  | .zero _ => roundTo (.inf true) fp32 rne
  | .fin m e =>
    if m < 0 then nanCode fp32
    else
      let d := bitLen m.natAbs - 1
      let k : Int := e + d
      if m.natAbs = 2 ^ d then roundTo (ofInt k) fp32 rne
      else decideCode free (fun p => (log2Encl m.natAbs d p).code false k 0 fp32)

/-- `fsin` and `fcos` (R162) on FP32: the argument is in turns. -/
def ftrig (cosine : Bool) (free : Nat) (x : X) : Nat :=
  match x with
  | .nan => nanCode fp32
  | .inf _ => nanCode fp32
  | .zero n => if cosine then roundTo (.fin 1 0) fp32 rne else roundTo (.zero n) fp32 rne
  | .fin m e =>
    let d := (-e).toNat
    let num : Int := if 0 ≤ e then align m e 0 * 4 else m * 4     -- quarter turns, over 2^d
    let qi := num / 2 ^ d
    let r := (num - qi * 2 ^ d).toNat
    let qd := (qi % 4).toNat
    -- sin: 0 sin, 1 cos, 2 -sin, 3 -cos; cos: 0 cos, 1 -sin, 2 -cos, 3 sin
    let useCos := if cosine then qd % 2 = 0 else qd % 2 = 1
    let neg := if cosine then qd = 1 ∨ qd = 2 else 2 ≤ qd
    if r = 0 then
      if useCos then roundTo (.fin (if neg then -1 else 1) 0) fp32 rne
      else if cosine then 0 else roundTo (.zero (decide (m < 0))) fp32 rne
    else decideCode free (fun p => (trigEncl useCos r d p).code neg 0 0 fp32)

end Sys2Proof.Num
end

