-- ==== Sys2Proof/Machine/Ops.lean ====
section
/-! DEFINITION. The named operations of a lane: a warp with its workgroup and its core's craze table, its batch and
active set (R29, R35, R94), craze records (R391, R392), the derail, which is how the machine takes an exception (R401,
R402), program counters (R84), yields and convergence (R36, R37), chains and latches (R33, R98). -/

namespace Sys2Proof.Machine

/-! ## The lane's view -/

/-- A warp with what an instruction of the scalar pipeline can reach. -/
structure Lane where
  ref : WRef
  wg : Wg
  w : Warp
  core : Core
  clock : Nat
  /-- `DECX.chain_off` of the core. -/
  chainOff : Bool

/-- The lane of a warp. -/
def State.laneOf (s : State) (r : WRef) : Option Lane :=
  match s.warp? r with
  | none => none
  | some (g, w) => some ⟨r, g, w, s.core g.core, s.clock, (s.rd (Reg.decx g.core)).getLsbD 0⟩

/-- Put a lane back: its workgroup, its warp and its core. -/
def State.putLane (s : State) (l : Lane) : State :=
  { s with
    wgs := Tabs.put s.wgs l.ref.wg { l.wg with warps := l.wg.warps.set l.ref.warp l.w }
    cores := Tabs.set s.cores Core.empty l.wg.core l.core }

/-- Is the workgroup at or past the stop point of a stop that is no drain (R330)? -/
def Wg.frozen (g : Wg) : Bool :=
  match g.stop with
  | some p => p.mode != 0 && decide (1 ≤ p.stage)
  | none => false

/-- Is the workgroup under a stop that is no drain, signalled at least (R330)? -/
def Wg.stopping (g : Wg) : Bool := g.stop.any (fun p => p.mode != 0)

/-! ## Threads and masks -/

/-- A thread slot that holds no thread (R25). -/
def Thread.vacant : Thread := ⟨0, .absent, [], 0, 0, 0, none, none, false, []⟩

/-- Thread `t` of a warp. -/
def Warp.th (w : Warp) (t : Nat) : Thread := w.thr.getD t Thread.vacant

/-- Replace thread `t`. -/
def Warp.setTh (w : Warp) (t : Nat) (x : Thread) : Warp :=
  { w with thr := (List.range 32).map (fun k => if k = t then x else w.th k) }

/-- Replace thread `t` of the lane's warp. -/
def Lane.setTh (l : Lane) (t : Nat) (x : Thread) : Lane := { l with w := l.w.setTh t x }

/-- The mask of a list of threads. -/
def maskOf (ts : List Nat) : BitVec 32 := ts.foldl (fun m t => m ||| BitVec.twoPow 32 t) 0

/-- The threads of a mask, in ascending order. -/
def threadsOf (m : BitVec 32) : List Nat := (List.range 32).filter (fun t => m.getLsbD t)

/-- May the thread join a batch? -/
def Thread.runnable (t : Thread) : Bool := t.st == .eligible || t.st == .released

/-- Has the thread exited, or does its slot hold none (R25)? -/
def Thread.gone (t : Thread) : Bool := t.st == .exited || t.st == .absent

/-- Every thread of the warp has exited (R38). -/
def Warp.exited (w : Warp) : Bool := w.thr.all Thread.gone

/-- The lowest program counter among the threads that satisfy `f`. -/
def Warp.lowest (w : Warp) (f : Thread → Bool) : Option VAddr :=
  (w.thr.filter f).foldl (fun m t => match m with
    | none => some t.pc
    | some p => if t.pc < p then some t.pc else some p) none

/-- The batch (R35): the runnable threads at the lowest program counter. -/
def Warp.batch (w : Warp) : List Nat :=
  match w.lowest Thread.runnable with
  | none => []
  | some p => (List.range 32).filter (fun t => (w.th t).runnable && (w.th t).pc == p)

/-- The program counter of the batch. -/
def Warp.pc (w : Warp) : VAddr := (w.lowest Thread.runnable).getD 0

/-! ## Predicates and guards -/

/-- Value of a predicate; `p7` reads true (R54). -/
def Thread.pred (t : Thread) (k : BitVec 3) : Bool := k == 7 || t.p.getLsbD k.toNat

/-- Craze tag of a predicate. -/
def Thread.predTag (t : Thread) (k : BitVec 3) : Bool := k != 7 && t.pt.getLsbD k.toNat

/-- Payload of a predicate, when it is crazed (R387). -/
def Thread.predCraze (t : Thread) (k : BitVec 3) : Option Word := if t.predTag k then some t.pp else none

/-- Write a predicate: a write to `p7` is discarded (R169); a clean write clears the tag, a crazed one sets it and the
payload word (R387, R395). -/
def Thread.setPred (t : Thread) (k : BitVec 3) (v : Bool) (crz : Option Word) : Thread :=
  if k = 7 then t
  else
    let m : BitVec 7 := BitVec.twoPow 7 k.toNat
    match crz with
    | none => { t with p := if v then t.p ||| m else t.p &&& ~~~m, pt := t.pt &&& ~~~m }
    | some c => { t with pt := t.pt ||| m, pp := c }

/-- The guard of a thread holds, or is crazed (R94, R395). -/
def guardHolds (h : Hdr) (t : Thread) : Bool := t.predTag h.guard || (t.pred h.guard != h.neg)

/-- The instruction is unguarded (R94). -/
def unguarded (h : Hdr) : Bool := h.guard == 7 && !h.neg

/-! ## Craze records (R390 to R393) -/

/-- The lowest index from `k` on that the table does not list. -/
def firstFree {α : Type} : Tab α → Nat → Nat
  | [], k => k
  | (j, _) :: t, k => if j = k then firstFree t (k + 1) else if j < k then firstFree t k else k

/-- A payload (R386). -/
def payload (cause origin index : Nat) : Word := BitVec.ofNat 32 (cause * 2 ^ 24 + origin % 128 * 2 ^ 17 + index % 512)

/-- Cause of a payload. -/
def causeOf (p : Word) : Nat := p.toNat / 2 ^ 24

/-- Make a record in the table of core `c` (R391, R392): the payload of the new craze. -/
def Core.record (k : Core) (c : Nat) (r : CrzRec) : Core × Word :=
  let i := firstFree k.crz 0
  if i < 511 then ({ k with crz := Tabs.put k.crz i r }, payload r.cause.toNat c i)
  else
    let o : CrzRec := match Tabs.find? k.crz 511 with
      | none => { r with cause := 0x15, va := 1 }
      | some o => { o with va := if o.va = BitVec.allOnes 57 then o.va else o.va + 1 }
    ({ k with crz := Tabs.put k.crz 511 o }, payload r.cause.toNat c 511)

/-- Free the records that satisfy `f`. -/
def Core.free (k : Core) (f : CrzRec → Bool) : Core := { k with crz := k.crz.filter (fun e => e.1 == 511 || !f e.2) }

/-- Warp slot of the warp where it runs now (R24). -/
def Warp.wslot (w : Warp) : Nat := w.lane * 8 + w.slot

/-- Is thread `t` a member of the warp's open region? -/
def Warp.member (w : Warp) (t : Nat) : Bool :=
  match w.region with
  | none => false
  | some r => r.members.getLsbD t

/-- The record of a craze that the warp's thread `t` originates (R390). -/
def Lane.crzRec (l : Lane) (cause unit t : Nat) (pc : VAddr) (va : Option VAddr) (batch : Bool) : CrzRec :=
  { cause := BitVec.ofNat 8 cause
    flags := BitVec.ofNat 8 (1 + (if va.isSome then 2 else 0) + (if batch then 4 else 0) +
      (if l.w.member t then 8 else 0))
    thread := t, unit := unit, wslot := l.w.wslot, rseq := l.w.rseq, pc := pc, va := va.getD 0,
    stamp := BitVec.ofNat 64 l.clock }

/-- Originate a craze: make its record and take its payload. -/
def Lane.originate (l : Lane) (cause unit t : Nat) (pc : VAddr) (va : Option VAddr) (batch : Bool) : Lane × Word :=
  let (k, p) := l.core.record l.wg.core (l.crzRec cause unit t pc va batch)
  ({ l with core := k }, p)

/-- Add to the discard count, saturating (R403). -/
def Lane.discard (l : Lane) (n : Nat) : Lane :=
  { l with w := { l.w with discard := BitVec.ofNat 16 (min 65535 (l.w.discard.toNat + n)) } }

/-! ## Member crazes and the derail -/

/-- Does an event of thread `t`, by the instruction issued at cycle `at_`, set the region craze (R408)? It is the first one in time;
of several by one instruction the lowest thread's. -/
def Region.leads (r : Region) (t at_ : Nat) : Bool :=
  r.regionCraze.isNone ||
  ((Tabs.find? r.crazes t).isNone && r.first.any (fun f => f.1 == at_ && decide (t < f.2)))

/-- An event that sets the member craze of `t` (R408), by the instruction issued at cycle `at_`: the first one stands; `hard` when
it is no crazed data (R415). -/
def Region.setCraze (r : Region) (t : Nat) (p : Word) (hard : Bool) (at_ : Nat) : Region :=
  { r with
    crazes := match Tabs.find? r.crazes t with
      | some _ => r.crazes
      | none => Tabs.put r.crazes t p
    hard := if hard then r.hard ||| BitVec.twoPow 32 t else r.hard
    regionCraze := if r.leads t at_ then some p else r.regionCraze
    first := if r.leads t at_ then some (at_, t) else r.first }

/-- Set the member craze of `t`, when it is a member. -/
def Lane.memberCraze (l : Lane) (t : Nat) (p : Word) (hard : Bool) (at_ : Nat) : Lane :=
  match l.w.region with
  | none => l
  | some r => if r.members.getLsbD t then { l with w := { l.w with region := some (r.setCraze t p hard at_) } } else l

/-- A fault that sets the member craze of `t` to a new craze (R408). Where the member craze stands already nothing is
originated (log 23). -/
def Lane.memberFault (l : Lane) (t cause unit : Nat) (pc : VAddr) (va : Option VAddr) (at_ : Nat) : Lane :=
  match l.w.region with
  | none => l
  | some r =>
    if (Tabs.find? r.crazes t).isSome then l.memberCraze t 0 true at_
    else
      let (l, p) := l.originate cause unit t pc va false
      l.memberCraze t p true at_

/-- Where a derail with payload `p` sends thread `t` (R402): the open region's recovery target for a member, else the
vector table; `none` where there is no table and the thread exits. -/
def Lane.derailTarget (l : Lane) (t : Nat) (p : Word) : Option VAddr :=
  match l.w.region with
  | some r =>
    if r.members.getLsbD t then some r.recovery
    else if l.wg.info.vecOff = 0 then none
    else some (l.wg.info.hdrVa + BitVec.ofNat 57 (l.wg.info.vecOff + 16 * causeOf p))
  | none =>
    if l.wg.info.vecOff = 0 then none
    else some (l.wg.info.hdrVa + BitVec.ofNat 57 (l.wg.info.vecOff + 16 * causeOf p))

/-- Thread `t` moves to the target of a derail with payload `p`; none of its other state changes. -/
def Lane.divert (l : Lane) (t : Nat) (p : Word) : Lane :=
  let x := l.w.th t
  l.setTh t (match l.derailTarget t p with
    | some a => { x with pc := a, st := .eligible, derailed := true }
    | none => { x with st := .exited })

/-- THE EXCEPTION OF THIS MACHINE (R401, R402): thread `t` derails with payload `p`. Its program counter becomes the
target, it is eligible, and none of its other state changes; a member's derail sets its member craze and, first, the
region craze. -/
def Lane.derail (l : Lane) (t : Nat) (p : Word) : Lane := (l.divert t p).memberCraze t p true l.clock

/-- The threads `ts` derail with a payload that exists already (R401). -/
def Lane.derailWith (l : Lane) (ts : List Nat) (p : Word) : Lane := ts.foldl (fun l t => l.derail t p) l

/-- The derail form of R399: one batch record, naming the instruction at `pc`, for the threads `ts`, which derail with
its payload. -/
def Lane.derailAll (l : Lane) (ts : List Nat) (pc : VAddr) (cause : Nat) (va : Option VAddr) : Lane :=
  match ts with
  | [] => l
  | t :: _ =>
    let (l, p) := l.originate cause 0 t pc va true
    l.derailWith ts p

/-! ## Program counters, yields and convergence -/

/-- Move the threads `ts` past an instruction of `size` bytes (R84). -/
def Lane.advance (l : Lane) (ts : List Nat) (size : Nat) : Lane :=
  { l with w := { l.w with thr := (List.range 32).map (fun t =>
      let x := l.w.th t
      if ts.contains t then { x with pc := x.pc + BitVec.ofNat 57 size, st := .eligible, derailed := false } else x) } }

/-- Yielded threads that rejoin after an instruction whose batch is `b` (R36): those it excludes, and all of them when
no thread is runnable. -/
def Warp.unyield (w : Warp) (b : List Nat) : Warp :=
  let w1 : Warp := { w with thr := (List.range 32).map (fun t =>
    let x : Thread := w.th t
    if x.st == .yielded && !b.contains t then { x with st := .eligible } else x) }
  if w1.thr.any Thread.runnable then w1
  else { w1 with thr := (List.range 32).map (fun t =>
    let x : Thread := w1.th t
    if x.st == .yielded then { x with st := .eligible } else x) }

/-- Does the thread hold back the release of convergence (R37)? -/
def Thread.holdsBack (t : Thread) : Bool :=
  match t.st with
  | .parkedEvent .closed => false
  | .eligible | .released | .yielded | .parkedWord _ | .parkedEvent _ => true
  | _ => false

/-- Is the thread parked at convergence? -/
def Thread.atConv (t : Thread) : Bool :=
  match t.st with
  | .parkedConv _ => true
  | _ => false

/-- The release of convergence (R37): when every other wait is over, the threads at the lowest convergence address are
released; at a `conv` they continue after it, at a warp-level instruction it executes for them next. -/
def Warp.converge (w : Warp) : Warp :=
  if w.thr.any Thread.holdsBack then w
  else
    match w.lowest Thread.atConv with
    | none => w
    | some p =>
      { w with thr := w.thr.map (fun x =>
          if x.pc == p then
            match x.st with
            | .parkedConv true => { x with pc := p + 8, st := .eligible }
            | .parkedConv false => { x with st := .released }
            | _ => x
          else x) }

/-- What follows every instruction and every wake of a warp: yields, then convergence. -/
def Lane.settle (l : Lane) (b : List Nat) : Lane := { l with w := (l.w.unyield b).converge }

/-! ## Chains (R33, R96, R98) -/

/-- A chain boundary: latches become invalid (R98). -/
def Lane.endChain (l : Lane) : Lane :=
  { l with w := { l.w with chain := 0, thr := l.w.thr.map (fun x : Thread => { x with l0 := none, l1 := none, bad := x.bad.filter (fun k => Nat.ble k 255) }) } }

/-- Does the chain go on after an instruction with chain-continue bit `c` (R33, R100)? -/
def Lane.goesOn (l : Lane) (c : Bool) : Bool := c && !l.chainOff && decide (l.w.chain + 1 < 4)

/-- After an instruction that honours `C`: the chain goes on or ends (R33). -/
def Lane.nextChain (l : Lane) (c : Bool) : Lane :=
  if l.goesOn c then { l with w := { l.w with chain := l.w.chain + 1 } }
  else l.endChain

/-- Shift a thread's latches, `r` the new `l0` (R98). -/
def Thread.shift (t : Thread) (r : Option TWord) : Thread :=
  { t with l1 := t.l0, l0 := r, bad := t.bad.filterMap (fun k => if k = 301 then none else if k = 300 then some 301 else some k) }

/-! ## Outstanding loads (R189) -/

/-- Vector registers an outstanding load of the warp will write: base and count. -/
def Warp.loading (w : Warp) : List (Nat × Nat) :=
  (w.accs.filter (fun a => a.dst < 255)).map (fun a => (a.dst, if a.n ≤ 4 then 1 else a.n / 4))

/-- No register of the ranges `rs` has a load write outstanding. -/
def Warp.ready (w : Warp) (rs : List (Nat × Nat)) : Bool :=
  w.loading.all (fun p => rs.all (fun q => decide (p.1 + p.2 ≤ q.1) || decide (q.1 + q.2 ≤ p.1)))

end Sys2Proof.Machine
end

