-- ==== Sys2Proof/Machine/Operands.lean ====
section
/-! DEFINITION. Operand forms: what a source supplies in each width and type (R87 to R91, R143, R144), which register
bases are valid (R55, R144, R183), and the shape shared by the instructions that compute on registers: read the guard
and every source, propagate crazes (R394), write the destination (R147). -/

namespace Sys2Proof.Machine

open Sys2Proof.Num

/-! ## Inline constants -/

/-- FP32 bits of the inline floating-point constants 0x40-0x5F (R90). -/
def fconst32 : List Nat :=
  [0x00000000, 0x80000000, 0x3E000000, 0x3E800000, 0x3F000000, 0x3F400000,
   0x3F800000, 0x3FC00000, 0x40000000, 0x40400000, 0x40800000, 0x41000000,
   0x41200000, 0x41800000, 0x42800000, 0x43800000, 0x44800000, 0xBF000000,
   0xBF800000, 0xC0000000, 0xC0800000, 0x40490FDB, 0x3F317218, 0x3FB8AA3B,
   0x3E22F983, 0x3FB504F3, 0x3F3504F3, 0x7F800000, 0xFF800000, 0x00800000,
   0x33800000, 0x3A800000]

/-- FP64 bits of the same constants (R90). -/
def fconst64 : List Nat :=
  [0x0000000000000000, 0x8000000000000000, 0x3FC0000000000000, 0x3FD0000000000000,
   0x3FE0000000000000, 0x3FE8000000000000, 0x3FF0000000000000, 0x3FF8000000000000,
   0x4000000000000000, 0x4008000000000000, 0x4010000000000000, 0x4020000000000000,
   0x4024000000000000, 0x4030000000000000, 0x4050000000000000, 0x4070000000000000,
   0x4090000000000000, 0xBFE0000000000000, 0xBFF0000000000000, 0xC000000000000000,
   0xC010000000000000, 0x400921FB54442D18, 0x3FE62E42FEFA39EF, 0x3FF71547652B82FE,
   0x3FC45F306DC9C883, 0x3FF6A09E667F3BCD, 0x3FE6A09E667F3BCD, 0x7FF0000000000000,
   0xFFF0000000000000, 0x3810000000000000, 0x3E70000000000000, 0x3F50000000000000]

/-- How an instruction reads a source. -/
inductive OKind where
  /-- A 32-bit or 64-bit integer, or bits. -/
  | i32 | i64
  /-- FP32 or FP64. -/
  | f32 | f64
  /-- One FP16 or BF16 value in bits [15:0] of a register. -/
  | f16 | bf16
  /-- Two FP16 or BF16 values. -/
  | h16 | hb16
deriving DecidableEq, Repr

/-- Does the operand take 64 bits? -/
def OKind.wide : OKind → Bool
  | .i64 | .f64 => true
  | _ => false

/-- The value `x` as a code of a 16-bit format in the low half, or in both halves. -/
def halves (both : Bool) (c : Nat) : DWord := BitVec.ofNat 64 (if both then c * 65536 + c else c)

/-- What inline integer `n` supplies (R89). -/
def immValue (n : Nat) : OKind → DWord
  | .i32 | .i64 => BitVec.ofNat 64 n
  | .f32 => BitVec.ofNat 64 (roundTo (ofInt n) fp32 rne)
  | .f64 => BitVec.ofNat 64 (roundTo (ofInt n) fp64 rne)
  | .f16 => halves false (roundTo (ofInt n) fp16 rne)
  | .bf16 => halves false (roundTo (ofInt n) Num.bf16 rne)
  | .h16 => halves true (roundTo (ofInt n) fp16 rne)
  | .hb16 => halves true (roundTo (ofInt n) Num.bf16 rne)

/-- What inline floating-point constant `k` supplies (R90). To one 16-bit operand R90 gives nothing: it takes the half
that a packed operand takes (log 13). -/
def fconValue (k : Nat) : OKind → DWord
  | .i32 | .f32 => BitVec.ofNat 64 (fconst32.getD k 0)
  | .i64 | .f64 => BitVec.ofNat 64 (fconst64.getD k 0)
  | .f16 => halves false (roundTo (valueOf (fconst64.getD k 0) fp64) fp16 rne)
  | .bf16 => halves false (roundTo (valueOf (fconst64.getD k 0) fp64) Num.bf16 rne)
  | .h16 => halves true (roundTo (valueOf (fconst64.getD k 0) fp64) fp16 rne)
  | .hb16 => halves true (roundTo (valueOf (fconst64.getD k 0) fp64) Num.bf16 rne)

/-- What the literal supplies (R91). -/
def litValue (w : Word) : OKind → DWord
  | .i64 => w.signExtend 64
  | .f64 => BitVec.ofNat 64 (roundTo (valueOf w.toNat fp32) fp64 rne)
  | _ => w.setWidth 64

/-! ## Reading -/

/-- Two registers as a 64-bit operand: value and payload of the lowest tagged word (R143, R394). -/
def pairOf (lo hi : TWord) : DWord × Option Word :=
  (hi.val ++ lo.val, if lo.tag then some lo.val else if hi.tag then some hi.val else none)

/-- One register as an operand. -/
def oneOf (x : TWord) : DWord × Option Word := (x.val.setWidth 64, if x.tag then some x.val else none)

/-- A vector register; `vz` reads zero. -/
def Thread.vreg (t : Thread) (i : Nat) : TWord := if i = 255 then ⟨0, false⟩ else Tabs.get t.v ⟨0, false⟩ i

/-- A scalar register; `sz` reads zero. -/
def Warp.sreg (w : Warp) (i : Nat) : TWord := if i = 63 then ⟨0, false⟩ else Tabs.get w.s ⟨0, false⟩ i

/-- An operand of thread `t`: its value and, when it is crazed, its payload; `none` for an invalid latch (R98). -/
def readSrc (w : Warp) (t : Thread) (lit : Word) (k : OKind) : Src → Option (DWord × Option Word)
  | .vec i =>
    some (if k.wide then (if i = 255 then (0, none) else pairOf (t.vreg i.toNat) (t.vreg (i.toNat + 1)))
      else oneOf (t.vreg i.toNat))
  | .scal i =>
    some (if k.wide then (if i = 63 then (0, none) else pairOf (w.sreg i.toNat) (w.sreg (i.toNat + 1)))
      else oneOf (w.sreg i.toNat))
  | .latch one => (if one then t.l1 else t.l0).map oneOf
  | .imm n => some (immValue n.toNat k, none)
  | .fcon c => some (fconValue c.toNat k, none)
  | .lit => some (litValue lit k, none)

/-! ## Which registers a form may name -/

/-- A vector register, pair or quad of `n` registers from `i`: the base is aligned to `n` and every register is
declared (R55, R144, R183), or it is 255. -/
def vecOk (nregs i n : Nat) : Bool := i == 255 || (i % n == 0 && decide (i + n ≤ nregs))

/-- A scalar register, pair or quad: R144 and R183, or `sz`. -/
def scalOk (i n : Nat) : Bool := i == 63 || (i % n == 0 && decide (i + n ≤ 63))

/-- Registers of a width in bytes. -/
def regsOf (bytes : Nat) : Nat := if bytes ≤ 4 then 1 else bytes / 4

/-- May the form read this source as `n` registers? A latch serves 32-bit uses only, a constant no 16-byte use. -/
def srcOk (nregs n : Nat) : Src → Bool
  | .vec i => vecOk nregs i.toNat n
  | .scal i => scalOk i.toNat n
  | .latch _ => n == 1
  | _ => decide (n ≤ 2)

/-- Vector registers a source names, as ranges; `l0` and `l1` count as 300 and 301 (R426). -/
def srcRegs (n : Nat) : Src → List (Nat × Nat)
  | .vec i => if i = 255 then [] else [(i.toNat, n)]
  | .latch one => [(if one then 301 else 300, 1)]
  | _ => []

/-! ## The common shape of the register instructions -/

/-- Where the result goes. -/
inductive ADst where
  | vec (i : BitVec 8) (wide : Bool)
  | scal (i : BitVec 6) (wide : Bool)
  | latch
  | pred (k : BitVec 3)
deriving DecidableEq, Repr

/-- The destination of an opcode of 0x001-0x01E. -/
def aluDst (d : Dst) (wide : Bool) : ADst :=
  match d with
  | .vec i => .vec i wide
  | .scal i => .scal i wide
  | .latch => .latch

/-- The destination of a form that may not be uniform. -/
def aluVDst (d : VDst) (wide : Bool) : ADst :=
  match d with
  | .vec i => .vec i wide
  | .latch => .latch

/-- Is the destination register valid (R55, R144)? -/
def ADst.ok (nregs : Nat) : ADst → Bool
  | .vec i wide => vecOk nregs i.toNat (if wide then 2 else 1)
  | .scal i wide => scalOk i.toNat (if wide then 2 else 1)
  | _ => true

/-- The registers it names. -/
def ADst.regs : ADst → List (Nat × Nat)
  | .vec i wide => if i = 255 then [] else [(i.toNat, if wide then 2 else 1)]
  | _ => []

/-- A result written there is discarded, clean or crazed (R403). -/
def ADst.discards : ADst → Bool
  | .vec i _ => i == 255
  | .scal i _ => i == 63
  | .pred k => k == 7
  | .latch => false

/-- Write one vector register; `vz` discards. -/
def Thread.setV (t : Thread) (i : Nat) (x : TWord) : Thread :=
  if i = 255 then t else { t with v := Tabs.set t.v ⟨0, false⟩ i x, bad := t.bad.filter (· != i) }

/-- Write an uncorrectable word back crazed: a register, `l0` (300) or `l1` (301) (R426). -/
def Thread.setBad (t : Thread) (i : Nat) (p : Word) : Thread :=
  if i = 300 then { t with l0 := t.l0.map (fun _ => ⟨p, true⟩), bad := t.bad.filter (· != i) }
  else if i = 301 then { t with l1 := t.l1.map (fun _ => ⟨p, true⟩), bad := t.bad.filter (· != i) }
  else t.setV i ⟨p, true⟩

/-- Write a 64-bit value to a pair, both words crazed alike (R387). -/
def Thread.setV2 (t : Thread) (i : Nat) (v : DWord) (crz : Option Word) : Thread :=
  if i = 255 then t
  else match crz with
    | some p => (t.setV i ⟨p, true⟩).setV (i + 1) ⟨p, true⟩
    | none => (t.setV i ⟨v.setWidth 32, false⟩).setV (i + 1) ⟨(v >>> 32).setWidth 32, false⟩

/-- Write a result, crazed or clean, to a register. -/
def Thread.setV1 (t : Thread) (i : Nat) (v : DWord) (crz : Option Word) : Thread :=
  t.setV i (match crz with
    | some p => ⟨p, true⟩
    | none => ⟨v.setWidth 32, false⟩)

/-- Write one scalar register; `sz` discards. -/
def Warp.setS (w : Warp) (i : Nat) (x : TWord) : Warp :=
  if i = 63 then w else { w with s := Tabs.set w.s ⟨0, false⟩ i x }

/-- Write a scalar register or pair. -/
def Warp.setSc (w : Warp) (i : Nat) (wide : Bool) (v : DWord) (crz : Option Word) : Warp :=
  if i = 63 then w
  else
    let f := fun (x : Word) => match crz with
      | some p => (⟨p, true⟩ : TWord)
      | none => ⟨x, false⟩
    let w := w.setS i (f (v.setWidth 32))
    if wide then w.setS (i + 1) (f ((v >>> 32).setWidth 32)) else w

/-- The low word of a result as a latch holds it (R95, R98). -/
def latchOf (v : DWord) (crz : Option Word) : TWord :=
  match crz with
  | some p => ⟨p, true⟩
  | none => ⟨v.setWidth 32, false⟩

/-- Write a thread's result and shift its latches (R98): a register or latch result enters `l0`, a predicate result
leaves it invalid. -/
def Thread.putResult (t : Thread) (d : ADst) (v : DWord) (crz : Option Word) : Thread :=
  match d with
  | .vec i wide =>
    let u := if wide then t.setV2 i.toNat v crz else t.setV1 i.toNat v crz
    u.shift (some (latchOf v crz))
  | .latch => t.shift (some (latchOf v crz))
  | .pred k => (t.setPred k (v.getLsbD 0) crz).shift none
  | .scal _ _ => t.shift none

/-- What an instruction that computes on registers reads and writes. -/
structure Alu where
  h : Hdr
  /-- Bytes the instruction occupies. -/
  size : Nat
  /-- Rate 2 or 4: it stands alone in its chain (R146). -/
  slow : Bool
  dst : ADst
  srcs : List (Src × OKind)
  lit : Word
  /-- A predicate operand, read after the sources (R394). -/
  pred : Option (BitVec 3 × Bool)
  /-- An instruction-wide operand that is crazed (R394). -/
  wideCraze : Option Word
  /-- A fault known at issue with cause 0x01: a `dst` or extension field (R404). -/
  bad : Bool

/-- The operands of one thread. -/
structure Operands where
  /-- Values of the sources, then 0 or 1 for the predicate. -/
  vals : List DWord
  /-- The first craze in the order of R394. -/
  crz : Option Word
  /-- A source is an invalid latch, so a craze is originated (R407). -/
  latch : Bool

/-- The first payload of a list (R394 `craze_of`). -/
def crazeOf (l : List (Option Word)) : Option Word := l.findSome? id

/-- Read the operands of a thread; `fresh` is the payload of the craze that an invalid latch originates. -/
def Alu.operands (a : Alu) (w : Warp) (t : Thread) (fresh : Word) : Operands :=
  let rs := a.srcs.map (fun p => readSrc w t a.lit p.2 p.1)
  let ps := rs.map (fun r => match r with
    | some x => x.2
    | none => some fresh)
  let q := match a.pred with
    | some (k, n) => ([if t.pred k != n then (1 : DWord) else 0], [t.predCraze k])
    | none => ([], [])
  { vals := rs.map (fun r => match r with
      | some x => x.1
      | none => 0) ++ q.1
    crz := crazeOf (ps ++ q.2 ++ [t.predCraze a.h.guard, a.wideCraze])
    latch := rs.any Option.isNone }

/-- A faulty form (R404): issue with cause 0x01. -/
def Alu.faulty (a : Alu) (l : Lane) : Bool :=
  a.bad || (a.slow && (a.h.chain || decide (0 < l.w.chain))) || !a.dst.ok l.wg.info.nregs ||
  !(a.srcs.all (fun p => srcOk l.wg.info.nregs (if p.2.wide then 2 else 1) p.1))

/-- The registers of the ranges `rs`, one by one. -/
def spread (rs : List (Nat × Nat)) : List Nat := rs.flatMap (fun p => (List.range p.2).map (p.1 + ·))

/-- A thread reads the registers `rs`: a word with an uncorrectable error gives a new craze of cause 0x0A, and is
written back crazed with its payload (R426). -/
def Lane.scrub (l : Lane) (t : Nat) (pc : VAddr) (rs : List (Nat × Nat)) : Lane :=
  if (l.w.th t).bad.isEmpty then l
  else (spread rs).foldl (fun l r =>
    if (l.w.th t).bad.contains r then
      let (l, p) := l.originate 0x0A 0 t pc none false
      l.setTh t ((l.w.th t).setBad r p)
    else l) l

/-- Vector registers the sources read. -/
def Alu.reads (a : Alu) : List (Nat × Nat) := a.srcs.flatMap (fun p => srcRegs (if p.2.wide then 2 else 1) p.1)

/-- Would a craze made only for the result be discarded (R403)? With the chain going on, it enters `l0` (R98). -/
def Alu.drops (a : Alu) (l : Lane) : Bool :=
  a.dst.discards && !(l.goesOn a.h.chain && match a.dst with
    | .vec _ _ => true
    | _ => false)

/-- One active thread: read, compute, write. An invalid latch originates a craze of cause 0x03 with a record of the
thread, or counts as discarded (R403, R407). -/
def Alu.thread (a : Alu) (f : Thread → List DWord → DWord) (pc : VAddr) (l : Lane) (t : Nat) : Lane :=
  let l := l.scrub t pc a.reads
  let x := l.w.th t
  let o := a.operands l.w x 0
  if o.latch then
    if a.drops l then (l.discard 1).setTh t (x.shift none)
    else
      let (l, p) := l.originate 0x03 0 t pc none false
      let o := a.operands l.w x p
      l.setTh t (x.putResult a.dst 0 o.crz)
  else
    l.setTh t (x.putResult a.dst (f x o.vals) o.crz)

/-- The threads that issue without a result shift their latches. -/
def Lane.shiftIdle (l : Lane) (act : List Nat) : Lane :=
  { l with w := { l.w with thr := (List.range 32).map (fun t =>
      if act.contains t then l.w.th t else (l.w.th t).shift none) } }

/-- The uniform form (R30): it executes once, on scalar registers, when the active set is not empty; its result takes
the craze of its sources, then that of the guards of the batch (R394). A predicate operand is that of the lowest active
thread (log 14). -/
def Alu.uniform (a : Alu) (f : Thread → List DWord → DWord) (l : Lane) (b act : List Nat) (i : BitVec 6)
    (wide : Bool) : Lane :=
  match act with
  | [] => l
  | t :: _ =>
    let o := { a with h := ⟨7, false, false⟩ }.operands l.w (l.w.th t) 0
    let crz := crazeOf (o.crz :: b.map (fun t => (l.w.th t).predCraze a.h.guard))
    { l with w := l.w.setSc i.toNat wide (f (l.w.th t) o.vals) crz }

/-- The whole instruction on the lane; where no thread is active, none derails (R96). -/
def Alu.run (a : Alu) (f : Thread → List DWord → DWord) (l : Lane) : Lane :=
  let b := l.w.batch
  let act := b.filter (fun t => guardHolds a.h (l.w.th t))
  if !l.w.ready (a.dst.regs ++ a.reads) then l
  else if !act.isEmpty && a.faulty l then
    ((((l.advance b a.size).endChain).derailAll act l.w.pc 0x01 none).settle b)
  else
    let pc := l.w.pc
    let l1 := match a.dst with
      | .scal i wide => a.uniform f l b act i wide |>.shiftIdle []
      | _ => (act.foldl (a.thread f pc) l).shiftIdle act
    ((l1.advance b a.size).nextChain a.h.chain).settle b

/-! ## The outcome of an instruction -/

/-- The outcome of a step of this machine. -/
abbrev Out := Host.Outcome State Fault Refusal

/-- The lane of the warp that issues, when it has a batch. -/
def State.lane? (s : State) : Option Lane :=
  match s.cur with
  | none => none
  | some r => match s.laneOf r with
    | none => none
    | some l => if l.w.batch.isEmpty then none else some l

/-- Run an instruction that acts on the lane alone. -/
def onLane (s : State) (f : Lane → Lane) : Out :=
  match s.lane? with
  | none => .fault .noBatch
  | some l => .next (s.putLane (f l))

/-- Bytes of a "64/96" instruction with these sources (R80, R82). -/
def litSize (l : List Src) : Nat := if l.any Src.isLit then 16 else 8

/-- An instruction that computes on registers. -/
def Alu.exec (a : Alu) (f : Thread → List DWord → DWord) (s : State) : Out := onLane s (a.run f)

/-- The shape of a form without predicate operand or fault of its own. -/
def mkAlu (h : Hdr) (slow : Bool) (dst : ADst) (srcs : List (Src × OKind)) (lit : Word) : Alu :=
  { h, size := litSize (srcs.map Prod.fst), slow, dst, srcs, lit, pred := none, wideCraze := none, bad := false }

/-- Source value `i` of the list. -/
abbrev arg (l : List DWord) (i : Nat) : DWord := l.getD i 0

end Sys2Proof.Machine
end

