-- ==== Sys2Proof/Machine/Form.lean ====
section
/-! DEFINITION. The shapes of the instructions that are not plain register arithmetic: one body over the active set,
the branch family, whose crazed guards derail (R395, R401), and the warp-level instructions, which execute once for the
released threads (R37, R43, R199). -/

namespace Sys2Proof.Machine

/-! ## One body over the active set -/

/-- An instruction with a body of its own. -/
structure Form where
  h : Hdr
  size : Nat
  /-- It honours `C` (R96). -/
  chains : Bool
  /-- Vector registers it reads or writes, as ranges. -/
  regs : List (Nat × Nat)
  /-- The cause of a fault of the whole instruction known at issue: the derail form (R399). -/
  fault : Lane → Option Nat

/-- Run it: `body pc act l` acts for the active set `act`, after the batch has advanced; the instruction stood at
`pc`. An instruction that reads or writes a register with a load outstanding waits (R189); where no thread is active, none
derails (R96). -/
def Form.run (f : Form) (body : VAddr → List Nat → Lane → Lane) (l : Lane) : Lane :=
  let b := l.w.batch
  let act := b.filter (fun t => guardHolds f.h (l.w.th t))
  let pc := l.w.pc
  if !l.w.ready f.regs then l
  else
    match (if act.isEmpty then none else f.fault l) with
    | some c => ((l.advance b f.size).endChain.derailAll act pc c none).settle b
    | none =>
      let l1 := body pc act (l.advance b f.size)
      (if f.chains then (l1.shiftIdle act).nextChain f.h.chain else l1.endChain).settle b

/-- A form on the lane alone. -/
def Form.exec (f : Form) (body : VAddr → List Nat → Lane → Lane) (s : State) : Out := onLane s (f.run body)

/-- `some 0x01` where `b`. -/
def illegal (b : Bool) : Option Nat := if b then some 0x01 else none

/-- A source read for thread `t`: value and craze. An invalid latch originates a craze of cause 0x03 (R407), or counts
as discarded where `disc` (R403). -/
def Lane.readOne (l : Lane) (t : Nat) (pc : VAddr) (lit : Word) (k : OKind) (disc : Bool) (x : Src) :
    Lane × DWord × Option Word :=
  let l := l.scrub t pc (srcRegs (if k.wide then 2 else 1) x)
  match readSrc l.w (l.w.th t) lit k x with
  | some (v, c) => (l, v, c)
  | none =>
    if disc then (l.discard 1, 0, some 0)
    else
      let (l, p) := l.originate 0x03 0 t pc none false
      (l, 0, some p)

/-- A list of sources read for thread `t`: one new craze serves all the thread's invalid latches. -/
def Lane.readAll (l : Lane) (t : Nat) (pc : VAddr) (lit : Word) (disc : Bool) :
    List (Src × OKind) → Option Word → Lane × List (DWord × Option Word)
  | [], _ => (l, [])
  | (x, k) :: xs, fresh =>
    let l := l.scrub t pc (srcRegs (if k.wide then 2 else 1) x)
    match readSrc l.w (l.w.th t) lit k x, fresh with
    | some r, _ =>
      let (l, rs) := l.readAll t pc lit disc xs fresh
      (l, r :: rs)
    | none, some p =>
      let (l, rs) := l.readAll t pc lit disc xs fresh
      (l, (0, some p) :: rs)
    | none, none =>
      let (l, p) := if disc then (l.discard 1, (0 : Word)) else l.originate 0x03 0 t pc none false
      let (l, rs) := l.readAll t pc lit disc xs (some p)
      (l, (0, some p) :: rs)

/-! ## The branch family -/

/-- What one thread of a branch does. -/
inductive Turn where
  /-- It goes on as this thread. -/
  | go (x : Thread)
  /-- It derails with a payload that exists. -/
  | crazed (p : Word)
  /-- It meets a fault of its own: cause and address (R399). -/
  | fault (cause : Nat) (va : Option VAddr)

/-- Apply a turn to thread `t` of an instruction at `pc`. -/
def Lane.turn (l : Lane) (t : Nat) (pc : VAddr) : Turn → Lane
  | .go x => l.setTh t x
  | .crazed p => l.derail t p
  | .fault c va =>
    let (l, p) := l.originate c 0 t pc va false
    l.derail t p

/-- Does the turn derail? -/
def Turn.derails : Turn → Bool
  | .go _ => false
  | _ => true

/-- An instruction of the branch family `bra` to `exit`: a crazed guard derails its thread (R395); `fault`, with the
target as the record's address where that is misaligned, takes the derail form for the active set; `g pc l t x` is the turn of active thread `x`, which has advanced. A derail ends the chain
(R401). -/
def branch (f : Form) (target : VAddr → Option VAddr) (g : VAddr → Lane → Nat → Thread → Turn) (l : Lane) : Lane :=
  let b := l.w.batch
  let pc := l.w.pc
  let cg := fun (t : Nat) => (l.w.th t).predCraze f.h.guard
  let act := b.filter (fun t => guardHolds f.h (l.w.th t))
  if !l.w.ready f.regs then l
  else
    let clean := act.filter (fun t => (cg t).isNone)
    let l0 := l.advance b f.size
    let (l1, turns) := match f.fault l, clean with
      | some c, t :: _ =>
        let (l1, p) := l0.originate c 0 t pc (if c = 0x08 then target pc else none) true
        (l1, act.map (fun t => (t, Turn.crazed ((cg t).getD p))))
      | _, _ => (l0, act.map (fun t => (t, match cg t with
          | some p => Turn.crazed p
          | none => g pc l t (l0.w.th t))))
    let l2 := turns.foldl (fun l e => l.turn e.1 pc e.2) l1
    (if turns.any (fun e => e.2.derails) || !f.chains then l2.endChain
     else (l2.shiftIdle (turns.map Prod.fst)).nextChain f.h.chain).settle b

/-! ## Warp-level instructions -/

/-- Mark the released threads of the warp as running on. -/
def Lane.unrelease (l : Lane) (ts : List Nat) : Lane :=
  { l with w := { l.w with thr := (List.range 32).map (fun t =>
      let x := l.w.th t
      if ts.contains t then { x with st := .eligible, derailed := false } else x) } }

/-- Move the threads `ts` to `pc`. -/
def Lane.moveTo (l : Lane) (ts : List Nat) (pc : VAddr) : Lane :=
  { l with w := { l.w with thr := (List.range 32).map (fun t =>
      let x := l.w.th t
      if ts.contains t then { x with pc := pc, st := .eligible } else x) } }

/-- The released threads of a guarded warp-level word derail (R399, R404). -/
def Lane.guarded (l : Lane) (size : Nat) (pc : VAddr) (ts : List Nat) : Lane :=
  (l.moveTo ts (pc + BitVec.ofNat 57 size)).derailAll ts pc 0x01 none

/-- The form shared by `rgn`, `commit`, `bar`, `kbar`, `abort`, `replay` and `trap` (R43, R199): a thread that reaches the
instruction parks at convergence; when convergence releases threads there, it executes once, with the released threads as its
active set. `body pc ts l` executes it; its threads still stand at `pc`. With a guard they derail instead (R404). -/
def warpLevel (h : Hdr) (size : Nat) (body : VAddr → List Nat → Lane → Lane) (l : Lane) : Lane :=
  let b := l.w.batch
  let pc := l.w.pc
  let rel := b.filter (fun t => (l.w.th t).st == .released)
  let body := if unguarded h then body else fun pc ts l => l.guarded size pc ts
  if rel.isEmpty then
    let w1 : Warp := { l.w with thr := (List.range 32).map (fun t =>
      let x : Thread := l.w.th t
      if b.contains t then { x with st := .parkedConv false, derailed := false } else x) }
    let l2 := ({ l with w := w1 }.endChain).settle b
    let now := (List.range 32).filter (fun t => (l2.w.th t).st == .released && (l2.w.th t).pc == pc)
    if now.isEmpty then l2 else (body pc now (l2.unrelease now)).settle now
  else (body pc rel (l.endChain.unrelease rel)).settle rel

/-- Park thread `t`, which stays at `pc`. -/
def Lane.parkAt (l : Lane) (t : Nat) (pc : VAddr) (st : TState) : Lane := l.setTh t { l.w.th t with pc := pc, st := st }

/-- Park the threads `ts` at `pc`. -/
def Lane.parkAll (l : Lane) (ts : List Nat) (pc : VAddr) (p : Park) : Lane :=
  ts.foldl (fun l t => l.parkAt t pc (.parkedEvent p)) l

end Sys2Proof.Machine
end

