-- ==== Sys2Proof/Machine/Scratch.lean ====
section
/-! DEFINITION. Scratchpads (R54, R70, R191, R388, R426): words, full/empty granules, and the accesses of a lane to its
own scratchpad and to those of its kiln group; the transaction barriers that lie in them (R203, R204, R262, R436). -/

namespace Sys2Proof.Machine

/-! ## A lane and the machine around it -/

/-- A lane with the machine around it: the workgroup, the warp and the core are those of `l`. -/
structure Ctx where
  s : State
  l : Lane

/-- Change the lane. -/
def Ctx.onL (c : Ctx) (f : Lane → Lane) : Ctx := { c with l := f c.l }

/-- Run an instruction of the lane that reaches the machine around it. -/
def onCtx (s : State) (f : Ctx → Ctx) : Out :=
  match s.lane? with
  | none => .fault .noBatch
  | some l => let c := f ⟨s, l⟩; .next (c.s.putLane c.l)

/-- Act on the lane of a warp, when it is resident. -/
def State.atWarp (s : State) (r : WRef) (f : Ctx → Ctx) : State :=
  match s.laneOf r with
  | none => s
  | some l => let c := f ⟨s, l⟩; c.s.putLane c.l

/-- `Form.run` (Form.lean) for a body that reaches the machine; `wait` holds the instruction back. -/
def Form.runC (f : Form) (wait : Ctx → List Nat → Bool) (body : VAddr → List Nat → Ctx → Ctx) (c : Ctx) : Ctx :=
  let b := c.l.w.batch
  let act := b.filter (fun t => guardHolds f.h (c.l.w.th t))
  let pc := c.l.w.pc
  if !c.l.w.ready f.regs then c
  else
    match (if act.isEmpty then none else f.fault c.l) with
    | some k => c.onL (fun l => ((l.advance b f.size).endChain.derailAll act pc k none).settle b)
    | none =>
      if wait c act then c
      else (body pc act (c.onL (fun l => l.advance b f.size))).onL (fun l => l.endChain.settle b)

/-- A form that reaches the machine. -/
def Form.execC (f : Form) (wait : Ctx → List Nat → Bool) (body : VAddr → List Nat → Ctx → Ctx) (s : State) : Out :=
  onCtx s (f.runC wait body)

/-- A warp-level instruction that reaches the machine (R43, R199), as `warpLevel` (Form.lean); while `wait` holds, the
released threads stay released at it. -/
def warpLevelC (h : Hdr) (size : Nat) (wait : Ctx → List Nat → Bool) (body : VAddr → List Nat → Ctx → Ctx) (c : Ctx) : Ctx :=
  let b := c.l.w.batch
  let pc := c.l.w.pc
  let rel := b.filter (fun t => (c.l.w.th t).st == .released)
  let body := if unguarded h then body else fun pc ts c => c.onL (fun l => l.guarded size pc ts)
  let wait := fun (c : Ctx) (ts : List Nat) => unguarded h && wait c ts
  if rel.isEmpty then
    let w1 : Warp := { c.l.w with thr := (List.range 32).map (fun t =>
      let x : Thread := c.l.w.th t
      if b.contains t then { x with st := .parkedConv false, derailed := false } else x) }
    let l2 := ({ c.l with w := w1 }.endChain).settle b
    let now := (List.range 32).filter (fun t => (l2.w.th t).st == .released && (l2.w.th t).pc == pc)
    if now.isEmpty || wait { c with l := l2 } now then { c with l := l2 }
    else (body pc now { c with l := l2.unrelease now }).onL (fun l => l.settle now)
  else if wait c rel then c
  else (body pc rel (c.onL (fun l => l.endChain.unrelease rel))).onL (fun l => l.settle rel)

/-! ## A scratchpad -/

/-- Word `k`. -/
def Scr.word (x : Scr) (k : Nat) : TWord := Tabs.get x.words ⟨0, false⟩ k

/-- Replace word `k`; a watched word's version moves when it changes (R53). -/
def Scr.putWord (x : Scr) (k : Nat) (v : TWord) : Scr :=
  { x with words := Tabs.set x.words ⟨0, false⟩ k v, bad := x.bad.filter (· != k)
           watch := if x.word k = v then x.watch else Tabs.modify x.watch k (· + 1) }

/-- Write cells at offset `a` (R388). -/
def Scr.writeCells (x : Scr) (a : Nat) (cs : List WCell) : Scr :=
  (cellWords a cs).foldl (fun x k => x.putWord k (mergeWord (x.word k) (cellsIn a cs k))) x

/-- Replace a granule's state. -/
def Scr.setGran (x : Scr) (g : Nat) (v : Gran) : Scr := { x with gran := Tabs.set x.gran .empty g v }

/-- A granule's state. -/
def Scr.granule (x : Scr) (g : Nat) : Gran := Tabs.get x.gran .empty g

/-- Granules that `n` bytes at `a` touch. -/
def granulesOf (a n : Nat) : List Nat := (List.range ((a % 16 + n + 15) / 16)).map (a / 16 + ·)

/-- Set the granules of `n` bytes at `a` to full. A pending-empty one becomes full too, and its region leaves it so at its commit: R191's
table has no row for it (DESIGN CHOICE, log 118). -/
def Scr.fill (x : Scr) (a n : Nat) : Scr := (granulesOf a n).foldl (fun x g => x.setGran g .full) x

/-! ## Accesses of a lane -/

/-- The scratchpad of workgroup `g`, as the lane sees it. -/
def Ctx.scr (c : Ctx) (g : Nat) : Scr :=
  if g = c.l.ref.wg then c.l.wg.scr
  else match c.s.wg? g with
    | some x => x.scr
    | none => ⟨0, [], [], [], []⟩

/-- Replace it. -/
def Ctx.setScr (c : Ctx) (g : Nat) (x : Scr) : Ctx :=
  if g = c.l.ref.wg then { c with l := { c.l with wg := { c.l.wg with scr := x } } }
  else match c.s.wg? g with
    | some w => { c with s := c.s.setWg g { w with scr := x } }
    | none => c

/-- Originate a craze on the lane. -/
def Ctx.originate (c : Ctx) (cause unit t : Nat) (pc : VAddr) (va : Option VAddr) : Ctx × Word :=
  let (l, p) := c.l.originate cause unit t pc va false
  ({ c with l := l }, p)

/-- Thread `t` reads the words `ks`: words with an uncorrectable error give one new craze of cause 0x0A, with the offset of
the first of them (R488), and are written back crazed (R426). -/
def Ctx.scrubScr (c : Ctx) (t : Nat) (pc : VAddr) (g : Nat) (ks : List Nat) : Ctx :=
  let bad := ks.filter ((c.scr g).bad.contains ·)
  if bad.isEmpty then c
  else
    let (c, p) := c.originate 0x0A 0 t pc (some (BitVec.ofNat 57 (4 * bad.headD 0)))
    c.setScr g (bad.foldl (fun x k => x.putWord k ⟨p, true⟩) (c.scr g))

/-- Thread `t` reads `n` bytes of a scratchpad: the words they touch. -/
def Ctx.readScr (c : Ctx) (t : Nat) (pc : VAddr) (a : ScrLoc) (n : Nat) : Ctx × List TWord :=
  let c := c.scrubScr t pc a.wg (wordsOf a.off n)
  (c, (wordsOf a.off n).map (c.scr a.wg).word)

/-- Thread `t` writes cells at a scratchpad address. A write of part of a word with an uncorrectable error finds it: the
word is crazed and takes none of the bytes (R426). -/
def Ctx.writeScr (c : Ctx) (t : Nat) (pc : VAddr) (a : ScrLoc) (cs : List WCell) : Ctx :=
  let part := (cellWords a.off cs).filter (fun k =>
    (c.scr a.wg).bad.contains k && !(List.range 4).all (fun i => (cellsIn a.off cs k).any (fun e => e.1 == i)))
  let c := c.scrubScr t pc a.wg part
  c.setScr a.wg ((c.scr a.wg).writeCells a.off (cs.filter (fun e => !part.contains ((a.off + e.off) / 4))))

/-- Value of `n` ≤ 4 bytes at `a` in the word that holds them (R185). -/
def narrowOf (w : TWord) (a n : Nat) (sx : Bool) : TWord :=
  if w.tag || n == 4 then w
  else
    let v := w.val.toNat / 2 ^ (8 * (a % 4)) % 2 ^ (8 * n)
    ⟨if sx && v.testBit (8 * n - 1) then BitVec.ofNat 32 (v + (2 ^ 32 - 2 ^ (8 * n))) else BitVec.ofNat 32 v, false⟩

/-- The registers a load of `n` bytes at `a` fills, from the words it touches (R185). -/
def loadWords (ws : List TWord) (a n : Nat) (sx : Bool) : List TWord :=
  if n ≤ 4 then (ws.take 1).map (fun w => narrowOf w a n sx) else ws

/-- Write result words to consecutive vector registers; 255 discards. -/
def Thread.setWords (x : Thread) (dst : Nat) (ws : List TWord) : Thread :=
  if dst = 255 then x else ws.zipIdx.foldl (fun x e => x.setV (dst + e.2) e.1) x

/-- A new craze for thread `t` whose only place is register `dst`: made, or counted as discarded (R403). -/
def Lane.craze (l : Lane) (cause unit t : Nat) (pc : VAddr) (va : Option VAddr) (dst n : Nat) : Lane :=
  if dst = 255 then l.discard 1
  else
    let (l, p) := l.originate cause unit t pc va false
    l.setTh t ((l.w.th t).setWords dst (List.replicate n ⟨p, true⟩))

/-! ## Transaction barriers (R203, R204, R262, R436) -/

/-- A transaction barrier's fields. -/
structure TBar where
  phase : Nat
  arrivals : Nat
  sectors : Nat
  crz : Bool
  lost : Bool
  arrReload : Nat
  secReload : Nat
deriving DecidableEq, Repr

/-- The fields of 128 bits; the reserved bits read as zero (R5). -/
def TBar.unpack (v : Nat) : TBar :=
  { phase := field v 0 4, arrivals := field v 4 20, sectors := field v 24 32, crz := v.testBit 56,
    lost := v.testBit 57, arrReload := field v 64 20, secReload := field v 84 32 }

/-- Their 128 bits. -/
def TBar.pack (b : TBar) : Nat :=
  b.phase + b.arrivals * 2 ^ 4 + b.sectors * 2 ^ 24 + b.crz.toNat * 2 ^ 56 + b.lost.toNat * 2 ^ 57 +
  b.arrReload * 2 ^ 64 + b.secReload * 2 ^ 84

/-- The phase advance that ends every update (R203). -/
def TBar.advance (b : TBar) : TBar :=
  if b.arrivals = 0 ∧ b.sectors = 0 then
    { b with phase := (b.phase + 1) % 16, arrivals := b.arrReload, sectors := b.secReload }
  else b

/-- Phase `q` has completed (R204). -/
def TBar.done (b : TBar) (q : Nat) : Bool := let d := (b.phase + 16 - q % 16) % 16; decide (1 ≤ d ∧ d ≤ 8)

/-- `tbinit`. -/
def TBar.init (arr sec : Nat) : TBar :=
  TBar.advance { phase := 0, arrivals := arr, sectors := sec, crz := false, lost := false, arrReload := arr, secReload := sec }

/-- `tbarrive` by `n` (R203, R436). -/
def TBar.arrive (b : TBar) (n : Nat) : TBar :=
  (if n > b.arrivals then { b with arrivals := 0, lost := true } else { b with arrivals := b.arrivals - n }).advance

/-- `tbexpect` of `n` sectors, with an arrival where `arr` (R203, R436). -/
def TBar.expect (b : TBar) (n : Nat) (arr : Bool) : TBar :=
  let b1 := if b.sectors + n ≥ 2 ^ 32 then { b with sectors := 2 ^ 32 - 1, lost := true }
    else { b with sectors := b.sectors + n }
  (if arr then (if b1.arrivals = 0 then { b1 with lost := true } else { b1 with arrivals := b1.arrivals - 1 })
   else b1).advance

/-- One sector counted (R263, R436). -/
def TBar.sector (b : TBar) : TBar :=
  (if b.sectors = 0 then { b with lost := true } else { b with sectors := b.sectors - 1 }).advance

/-- A void count (R436). -/
def TBar.void (b : TBar) : TBar := TBar.advance { b with crz := true, sectors := 0 }

/-- What word `i` of a barrier's granule counts as: a crazed word holds a payload and no fields (R386, R387), so it counts as a
free value (log 18). -/
def barWord (w : TWord) (i : Nat) : Word := if w.tag then Config.crazedBar w.val i else w.val

/-- The barrier at offset `off` of a scratchpad. -/
def Scr.bar (x : Scr) (off : Nat) : TBar :=
  TBar.unpack (leNat ((wordsOf off 16).zipIdx.flatMap (fun k => leBytes 4 (barWord (x.word k.1) k.2).toNat)))

/-- Write a barrier's granule as data; its full/empty bit plays no part (R202). -/
def Scr.setBar (x : Scr) (off : Nat) (b : TBar) : Scr :=
  (List.range 4).foldl (fun x i => x.putWord (off / 4 + i) ⟨BitVec.ofNat 32 (b.pack / 2 ^ (32 * i)), false⟩) x

end Sys2Proof.Machine
end

