-- ==== Sys2Proof/Machine/Address.lean ====
section
/-! DEFINITION. The memory extension word (R180, R182), segment offsets (R181), segment registers (R59, R60) and the
checks of steps 2 to 4 of the access path (R286, R420). -/

namespace Sys2Proof.Machine

/-! ## The extension word (R180) -/

/-- `seg`. -/
def exSeg (e : Ext) : Nat := (e.extractLsb' 61 3).toNat
/-- `scope`. -/
def exScope (e : Ext) : Nat := (e.extractLsb' 58 3).toNat
/-- `ord`. -/
def exOrd (e : Ext) : Nat := (e.extractLsb' 56 2).toNat
/-- `size` code. -/
def exSize (e : Ext) : Nat := (e.extractLsb' 53 3).toNat
/-- `sx`. -/
def exSx (e : Ext) : Bool := e.getLsbD 52
/-- `hint`. -/
def exHint (e : Ext) : Nat := (e.extractLsb' 50 2).toNat
/-- `ish`. -/
def exIsh (e : Ext) : Nat := (e.extractLsb' 48 2).toNat
/-- `aop`. -/
def exAop (e : Ext) : Nat := (e.extractLsb' 40 8).toNat
/-- `off`, sign-extended. -/
def exOff (e : Ext) : DWord := (e.extractLsb' 0 32).signExtend 64
/-- Bytes of the access. -/
def exBytes (e : Ext) : Nat := 2 ^ exSize e

/-- A row of the table of R182. -/
structure MemRow where
  sizes : List Nat
  ords : List Nat
  kinds : List Nat
  /-- Bit of the segment register that permits it: 57 `rd`, 58 `w`, 59 `a`. -/
  perm : Nat
  sx : Bool
  hint : Bool
  ish : Bool
  /-- Codes of `aop` allowed for a size code. -/
  aop : Nat → List Nat

def ldRow : MemRow := ⟨[0, 1, 2, 3, 4], [0, 1], [0, 1, 2, 3, 4], 57, true, true, true, fun _ => [0]⟩
def stRow : MemRow := ⟨[0, 1, 2, 3, 4], [0, 2], [0, 1, 2, 4], 58, false, true, true, fun _ => [0]⟩
def ldfeRow : MemRow := ⟨[2, 3, 4], [0], [1, 2], 57, false, false, true, fun _ => [0]⟩
def prefetchRow : MemRow := ⟨[0], [0], [0, 3], 57, false, false, true, fun _ => [0]⟩

/-- Atomic operations (R194): `.inc` and `.dec` take 4 bytes only. -/
def aopCodes (size : Nat) : List Nat := (List.range 14).filter (fun k => k != 9 && k != 10 || size == 2)

def atomRow : MemRow := ⟨[2, 3], [0, 1, 2, 3], [0, 1, 2], 59, false, false, true, aopCodes⟩
def casRow : MemRow := ⟨[2, 3], [0, 1, 2, 3], [0, 1, 2], 59, false, false, false, fun _ => [0]⟩
def redRow : MemRow := ⟨[2, 3], [0, 2], [0, 1, 2], 59, false, false, true, fun n => (aopCodes n).filter (· != 8)⟩

/-- Does the extension word break R180 or R182 for the row? -/
def MemRow.bad (r : MemRow) (e : Ext) : Bool :=
  decide (4 < exScope e) || !r.ords.contains (exOrd e) || !r.sizes.contains (exSize e) || exHint e == 3 ||
  (exSx e && !r.sx) || (exHint e != 0 && !r.hint) || (exIsh e != 0 && !r.ish) ||
  !(r.aop (exSize e)).contains (exAop e) || e.extractLsb' 32 8 != 0

/-! ## Segment registers (R59) -/

/-- Segment register `i` of a warp. -/
def Warp.seg (w : Warp) (i : Nat) : BitVec 128 := w.sg.getD i 0
/-- `base`. -/
def sgBase (g : BitVec 128) : Nat := (g.extractLsb' 0 57).toNat
/-- `kind`. -/
def sgKind (g : BitVec 128) : Nat := (g.extractLsb' 61 3).toNat
/-- `limit`. -/
def sgLimit (g : BitVec 128) : Nat := (g.extractLsb' 64 57).toNat

/-- Private stride P (R60). -/
def LaunchInfo.prvStride (i : LaunchInfo) : Nat := (i.prvBytes + 15) / 16 * 16

/-- Threads of a workgroup. -/
def LaunchInfo.nthr (i : LaunchInfo) : Nat := i.ntid.foldl (· * ·) 1

/-- The segment offset of thread `t` (R181), from the values of A and B. -/
def segOffset (a64 : Bool) (e : Ext) (a b : DWord) : Nat :=
  ((if a64 then a else (a.setWidth 32).setWidth 64) + ((b.setWidth 32).signExtend 64 <<< exIsh e) + exOff e).toNat

/-- Where an access goes. -/
inductive Where where
  | scr (a : ScrLoc)
  | va (a : Nat)
deriving DecidableEq, Repr

/-- What the checks at the lane give. -/
inductive Chk where
  | ok (w : Where)
  /-- Cause and segment offset. -/
  | fault (cause : Nat) (o : VAddr)
deriving DecidableEq, Repr

/-- The workgroup at kiln position `p` of the lane's kiln group (R286). -/
def Ctx.peer (c : Ctx) (p : Nat) : Option Nat :=
  if c.l.wg.info.kg = 0 then none
  else if p = c.l.wg.info.kpos then some c.l.ref.wg
  else match c.l.wg.kiln[p]? with
    | some g => if (c.s.wg? g).isSome then some g else none
    | none => none

/-- Steps 2 to 4 of R420, and the resolution of R286, for `n` bytes at offset `o` of the segment register value `g`, by thread `t`.
A scratchpad access that a segment register lets past the end of the workgroup's own scratchpad takes the limit's
cause (log 19). -/
def Ctx.checkSeg (c : Ctx) (g : BitVec 128) (t o n : Nat) (perms kinds : List Nat) (align : Bool) : Chk :=
  let kind := sgKind g
  let bad := fun (x : Nat) => Chk.fault x (BitVec.ofNat 57 o)
  let pos := o / 2 ^ 22 % 4
  let off := if kind = 2 then o % 2 ^ 22 else sgBase g + o
  let target : Option Nat := if kind = 1 then some c.l.ref.wg else if kind = 2 then c.peer pos else none
  let beyond := match target with
    | some x => decide ((c.scr x).size < off + n)
    | none => false
  if sgLimit g < o + n - 1 || (kind == 2 && beyond) then bad 0x07
  else if !kinds.contains kind || !perms.all (fun p => g.getLsbD p) || (kind == 2 && target.isNone) then bad 0x05
  else if align && o % n != 0 then bad 0x08
  else if beyond then bad 0x07
  else match target with
    | some x => .ok (.scr ⟨x, off⟩)
    | none =>
      let prv := if kind = 4 then
          (c.l.wg.info.index * c.l.wg.info.nthr + 32 * c.l.ref.warp + t) * c.l.wg.info.prvStride else 0
      .ok (.va ((sgBase g + prv + o) % 2 ^ 57))

/-- The same through segment register `k` of the warp. -/
def Ctx.check (c : Ctx) (k t o n : Nat) (perms kinds : List Nat) (align : Bool) : Chk :=
  c.checkSeg (c.l.w.seg k) t o n perms kinds align

/-- Does segment register `k` name a global or private segment, whose stores are held (R186)? -/
def Lane.heldSeg (l : Lane) (k : Nat) : Bool := let d := sgKind (l.w.seg k); d == 0 || d == 4

end Sys2Proof.Machine
end

