-- ==== Sys2Proof/Machine/Flags.lean ====
section
/-! DEFINITION. The conditions of comparisons (R156) and the integer arithmetic of the widths (R150 to R155). The S4 has
no flags register: a comparison writes a register or a predicate. -/

namespace Sys2Proof.Machine

open Sys2Proof.Num

/-- Width of an integer type in bits. -/
def ityBits : ITy → Nat
  | .n32 | .s32 => 32
  | .n64 | .s64 => 64

/-- Is the type signed? -/
def itySigned : ITy → Bool
  | .s32 | .s64 => true
  | _ => false

/-- Is the operand a pair? -/
def ityWide (t : ITy) : Bool := ityBits t == 64

/-- The operand kind of an integer of 32 or 64 bits. -/
def ikind (wide : Bool) : OKind := if wide then .i64 else .i32

/-- An operand read as an integer of the type (R150). -/
def intOf (t : ITy) (x : DWord) : Int :=
  if itySigned t then sext (ityBits t) x.toNat else (x.toNat % 2 ^ ityBits t : Nat)

/-- The low `w` bits of an integer. -/
def wrapTo (w : Nat) (x : Int) : DWord := BitVec.ofInt 64 (x % 2 ^ w)

/-- `fit` of R150: wrap, or clamp to the range of the type. -/
def fit (t : ITy) (sat : Bool) (x : Int) : DWord :=
  let w := ityBits t
  if sat then
    let lo : Int := if itySigned t then -(2 ^ (w - 1)) else 0
    let hi : Int := if itySigned t then 2 ^ (w - 1) - 1 else 2 ^ w - 1
    wrapTo w (if x < lo then lo else if hi < x then hi else x)
  else wrapTo w x

/-- An integer condition (R156). -/
def icond (c : ICond) (a b : Int) : Bool :=
  match c with
  | .eq => a == b
  | .ne => a != b
  | .lt => decide (a < b)
  | .le => decide (a ≤ b)
  | .gt => decide (b < a)
  | .ge => decide (b ≤ a)

/-- A floating-point condition (R156). -/
def fcond (c : FCond) (a b : X) : Bool :=
  let o := X.ordered a b
  let lt := X.lt a b
  let gt := X.lt b a
  match c with
  | .eq => o && !lt && !gt
  | .ne => !o || lt || gt
  | .lt => lt
  | .le => o && !gt
  | .gt => gt
  | .ge => o && !lt
  | .num => o
  | .nan => !o
  | .ltu => !o || lt
  | .leu => !o || !gt
  | .gtu => !o || gt
  | .geu => !o || !lt

/-- One bit as a result. -/
def boolVal (b : Bool) : DWord := if b then 1 else 0

end Sys2Proof.Machine
end

