-- ==== Sys2Proof/Machine/Float.lean ====
section
/-! DEFINITION. The floating-point and packed instructions, opcodes 0x040-0x054 (R158 to R166). -/

namespace Sys2Proof.Machine

open Sys2Proof.Num

/-! ## Values -/

/-- The format `.f64` selects (R160). -/
def fmtOf (f64 : Bool) : Fmt := if f64 then fp64 else fp32

/-- How its operands are read. -/
def fkind (f64 : Bool) : OKind := if f64 then .f64 else .f32

/-- An operand as an exact value, negated where `n` (R160). -/
def fval (f : Fmt) (n : Bool) (x : DWord) : X := (valueOf x.toNat f).negIf n

/-- Round a result once, then `.sat` (R160). -/
def fround (f : Fmt) (m : Rnd) (sat : Bool) (x : X) : Nat :=
  let c := roundTo x f m
  if sat then sat01 c f else c

/-- Round toward minus infinity, which decides the sign of an exact zero sum (R123). -/
def isRm (r : RMode) : Bool := r == .rm

/-- −0 below +0, otherwise as `X.lt` (R161). -/
def ltTotal (x y : X) : Bool :=
  match x, y with
  | .zero a, .zero b => a && !b
  | _, _ => X.lt x y

/-- `fmin` and `fmax` (R161). -/
def fminmax (big : Bool) (x y : X) : X :=
  if x = .nan then y
  else if y = .nan then x
  else if ltTotal x y != big then x else y

/-- `fclass` (R163). -/
def fclassVal (f : Fmt) (c : Nat) : DWord :=
  let e := field c (f.mb + f.shift) f.eb
  let neg := c.testBit (f.width - 1 + f.shift)
  match valueOf c f with
  | .nan => 256
  | .inf n => if n then 1 else 128
  | .zero n => if n then 8 else 16
  | .fin _ _ => if e = 0 then (if neg then 4 else 32) else (if neg then 2 else 64)

/-- A signed 32-bit scale count, clamped where every FP32 and FP64 value has long overflowed or underflowed. -/
def scaleCount (b : DWord) : Int := max (-8192) (min 8192 (sext 32 b.toNat))

/-! ## Shapes -/

/-- An FP instruction of two operands; `slow64`: its FP64 form has rate 2. -/
def fp2 (h : Hdr) (slow64 f64 : Bool) (d : VDst) (a b : Src) (lit : Word) (f : DWord → DWord → Nat) (s : State) : Out :=
  (mkAlu h (slow64 && f64) (aluVDst d f64) [(a, fkind f64), (b, fkind f64)] lit).exec
    (fun _ v => BitVec.ofNat 64 (f (arg v 0) (arg v 1))) s

/-- An FP function of one operand, rate 2 or 4 (R159). -/
def fp1 (h : Hdr) (f64 : Bool) (d : VDst) (a : Src) (lit : Word) (f : DWord → Nat) (s : State) : Out :=
  (mkAlu h true (aluVDst d f64) [(a, fkind f64)] lit).exec (fun _ v => BitVec.ofNat 64 (f (arg v 0))) s

/-- `fadd` (R160). -/
def execFadd (h : Hdr) (r : RMode) (f64 na nb sat : Bool) (d : VDst) (a b : Src) (lit : Word) (s : State) : Out :=
  let f := fmtOf f64
  fp2 h true f64 d a b lit (fun x y => fround f (.det r) sat (X.add (isRm r) (fval f na x) (fval f nb y))) s

/-- `fmul` (R160). -/
def execFmul (h : Hdr) (r : RMode) (f64 na nb sat : Bool) (d : VDst) (a b : Src) (lit : Word) (s : State) : Out :=
  let f := fmtOf f64
  fp2 h true f64 d a b lit (fun x y => fround f (.det r) sat (X.mul (fval f na x) (fval f nb y))) s

/-- `fma` (R160). -/
def execFma (h : Hdr) (r : RMode) (f64 na nb nc sat : Bool) (d : VDst) (a b c : Src) (lit : Word) (s : State) : Out :=
  let f := fmtOf f64
  (mkAlu h f64 (aluVDst d f64) [(a, fkind f64), (b, fkind f64), (c, fkind f64)] lit).exec
    (fun _ v => BitVec.ofNat 64 (fround f (.det r) sat
      (X.add (isRm r) (X.mul (fval f na (arg v 0)) (fval f nb (arg v 1))) (fval f nc (arg v 2))))) s

/-- `fmin` (R161). -/
def execFmin (h : Hdr) (f64 na nb : Bool) (d : VDst) (a b : Src) (lit : Word) (s : State) : Out :=
  let f := fmtOf f64
  fp2 h false f64 d a b lit (fun x y => roundTo (fminmax false (fval f na x) (fval f nb y)) f rne) s

/-- `fmax` (R161). -/
def execFmax (h : Hdr) (f64 na nb : Bool) (d : VDst) (a b : Src) (lit : Word) (s : State) : Out :=
  let f := fmtOf f64
  fp2 h false f64 d a b lit (fun x y => roundTo (fminmax true (fval f na x) (fval f nb y)) f rne) s

/-- `fcmp` (R156, R161): one 32-bit register. -/
def execFcmp (h : Hdr) (f64 : Bool) (c : FCond) (d : VDst) (a b : Src) (lit : Word) (s : State) : Out :=
  let f := fmtOf f64
  (mkAlu h false (aluVDst d false) [(a, fkind f64), (b, fkind f64)] lit).exec
    (fun _ v => boolVal (fcond c (fval f false (arg v 0)) (fval f false (arg v 1)))) s

/-- `frcp` (R162). -/
def execFrcp (h : Hdr) (r : RMode) (f64 na : Bool) (d : VDst) (a : Src) (lit : Word) (s : State) : Out :=
  let f := fmtOf f64
  fp1 h f64 d a lit (fun x => roundTo (recipX (fval f na x)) f (.det r)) s

/-- `frsq` (R162). -/
def execFrsq (h : Hdr) (r : RMode) (f64 na : Bool) (d : VDst) (a : Src) (lit : Word) (s : State) : Out :=
  let f := fmtOf f64
  fp1 h f64 d a lit (fun x => roundTo (rsqrtX (fval f na x)) f (.det r)) s

/-- `fsqrt` (R162). -/
def execFsqrt (h : Hdr) (r : RMode) (f64 na : Bool) (d : VDst) (a : Src) (lit : Word) (s : State) : Out :=
  let f := fmtOf f64
  fp1 h f64 d a lit (fun x => roundTo (sqrtX (fval f na x)) f (.det r)) s

/-- The free code of a function whose enclosures decide nothing (log 12). -/
def freeCode (k : Nat) (x : DWord) : Nat := (Config.functionCode k (x.setWidth 32)).toNat

/-- `fex2` (R162). -/
def execFex2 (h : Hdr) (na : Bool) (d : VDst) (a : Src) (lit : Word) (s : State) : Out :=
  fp1 h false d a lit (fun x => fex2 (freeCode 0 x) (fval fp32 na x)) s

/-- `flg2` (R162). -/
def execFlg2 (h : Hdr) (na : Bool) (d : VDst) (a : Src) (lit : Word) (s : State) : Out :=
  fp1 h false d a lit (fun x => flg2 (freeCode 1 x) (fval fp32 na x)) s

/-- `fsin` (R162). -/
def execFsin (h : Hdr) (na : Bool) (d : VDst) (a : Src) (lit : Word) (s : State) : Out :=
  fp1 h false d a lit (fun x => ftrig false (freeCode 2 x) (fval fp32 na x)) s

/-- `fcos` (R162). -/
def execFcos (h : Hdr) (na : Bool) (d : VDst) (a : Src) (lit : Word) (s : State) : Out :=
  fp1 h false d a lit (fun x => ftrig true (freeCode 3 x) (fval fp32 na x)) s

/-- `fscale` (R160): B is a signed 32-bit integer. -/
def execFscale (h : Hdr) (r : RMode) (f64 na sat : Bool) (d : VDst) (a b : Src) (lit : Word) (s : State) : Out :=
  let f := fmtOf f64
  (mkAlu h f64 (aluVDst d f64) [(a, fkind f64), (b, .i32)] lit).exec
    (fun _ v => BitVec.ofNat 64 (fround f (.det r) sat ((fval f na (arg v 0)).scale (scaleCount (arg v 1))))) s

/-- `fclass` (R163): one 32-bit register. -/
def execFclass (h : Hdr) (f64 : Bool) (d : VDst) (a : Src) (lit : Word) (s : State) : Out :=
  (mkAlu h false (aluVDst d false) [(a, fkind f64)] lit).exec
    (fun _ v => fclassVal (fmtOf f64) (arg v 0).toNat) s

/-! ## Conversions (R164, R165) -/

/-- The rounding mode with its random number, `x` the rounding operand (R132). -/
def cvRnd (r : CvRound) (x : DWord) : Rnd :=
  match r with
  | .det m => .det m
  | .sr _ => .sr (field x.toNat 0 16)

/-- The rounding operand as a source. -/
def cvSrcs (r : CvRound) : List (Src × OKind) :=
  match r with
  | .det _ => []
  | .sr x => [(x, .i32)]

/-- The formats of `cvtfi` and `cvtif`. -/
def f4Fmt : F4 → Fmt
  | .f32 => fp32
  | .f64 => fp64
  | .f16 => fp16
  | .bf16 => Num.bf16

/-- How a `cvtfi` source is read. -/
def f4Kind : F4 → OKind
  | .f32 => .f32
  | .f64 => .f64
  | .f16 => .f16
  | .bf16 => .bf16

/-- `cvtfi` (R165). -/
def execCvtfi (h : Hdr) (r : CvRound) (dst : ITy) (src : F4) (d : VDst) (a : Src) (lit : Word) (s : State) : Out :=
  (mkAlu h false (aluVDst d (ityWide dst)) ((a, f4Kind src) :: cvSrcs r) lit).exec
    (fun _ v => BitVec.ofNat 64
      (toInt (valueOf (arg v 0).toNat (f4Fmt src)) (ityBits dst) (itySigned dst) (cvRnd r (arg v 1)))) s

/-- `cvtif` (R165). -/
def execCvtif (h : Hdr) (r : CvRound) (src : ITy) (dst : F4) (d : VDst) (a : Src) (lit : Word) (s : State) : Out :=
  (mkAlu h false (aluVDst d (dst == .f64)) ((a, ikind (ityWide src)) :: cvSrcs r) lit).exec
    (fun _ v => BitVec.ofNat 64 (roundTo (ofInt (intOf src (arg v 0))) (f4Fmt dst) (cvRnd r (arg v 1)))) s

/-- `fm` register `k` of a workgroup. -/
def Wg.fmReg (g : Wg) (k : Nat) : TWord := g.fm.getD k ⟨0, false⟩

/-- The workgroup as an issue of this cycle reads its format registers: a write of the same cycle is not seen (R58). -/
def Lane.fmView (l : Lane) : Wg :=
  match l.wg.fmOld with
  | some (c, old) => if c = l.clock then { l.wg with fm := old } else l.wg
  | none => l.wg

/-- Write format register `k` (R58). -/
def Lane.fmWrite (l : Lane) (k : Nat) (x : TWord) : Lane :=
  { l with wg := { l.wg with fm := l.wg.fm.set k x, fmOld := some (l.clock, l.fmView.fm) } }

/-- A `cvtf` format code (R164): `none` where it is unassigned. -/
def cvtfFmt (g : Wg) (c : Nat) : Option Fmt :=
  if c = 0 then some fp32 else if c = 1 then some fp64 else if c = 2 then some tf32
  else if c = 3 then some fp16 else if c = 4 then some Num.bf16
  else if c < 8 then none
  else if fmAssigned (g.fmReg (c - 8)).val then some (fmOf (g.fmReg (c - 8)).val) else none

/-- Payload of the `fm` registers a control word names, in ascending index (R394). -/
def cvtfCraze (g : Wg) (fs fd : Nat) : Option Word :=
  let one := fun (c : Nat) => if 8 ≤ c && (g.fmReg (c - 8)).tag then some (g.fmReg (c - 8)).val else none
  crazeOf [one (min fs fd), one (max fs fd)]

/-- How `cvtf` reads A under source format code `c` (R131, R164). -/
def cvtfKind (c : Nat) : OKind :=
  if c = 1 then .f64 else if c = 3 then .f16 else if c = 4 then .bf16 else if c < 3 then .f32 else .i32

/-- The pair rules under control word `v` (R144). -/
def cvtfPairs (nregs : Nat) (d : VDst) (a : Src) (v : Nat) : Bool :=
  (field v 0 4 != 1 || srcOk nregs 2 a) && (field v 4 4 != 1 || (aluVDst d true).ok nregs)

/-- Does a format code name an unassigned format? A crazed `fm` register names none, and its craze is the result. -/
def cvtfBadFmt (g : Wg) (c : Nat) : Bool :=
  if 8 ≤ c && (g.fmReg (c - 8)).tag then false else (cvtfFmt g c).isNone

/-- The control-word faults of R164. -/
def cvtfFault (g : Wg) (d : VDst) (a : Src) (v : Nat) : Bool :=
  let fs := field v 0 4
  let fd := field v 4 4
  field v 24 8 != 0 || cvtfBadFmt g fs || cvtfBadFmt g fd ||
  (decide (8 ≤ fs) && field v 8 8 == 255) || (decide (8 ≤ fd) && field v 16 8 == 255) ||
  !cvtfPairs g.info.nregs d a v

/-- `cvtf` for one thread with a clean control word `v` that has no fault. -/
def cvtfValue (g : Wg) (r : CvRound) (v : Nat) (x rnd : DWord) : DWord :=
  let fs := field v 0 4
  let fd := field v 4 4
  match cvtfFmt g fs, cvtfFmt g fd with
  | some a, some b =>
    BitVec.ofNat 64 (convert x.toNat a b (cvRnd r rnd) (if 8 ≤ fs then field v 8 8 else 127)
      (if 8 ≤ fd then field v 16 8 else 127))
  | _, _ => 0

/-- One active thread of `cvtf`. -/
def cvtfThread (h : Hdr) (r : CvRound) (d : VDst) (a b : Src) (lit : Word) (pc : VAddr) (l : Lane) (t : Nat) : Lane :=
  let one := aluVDst d false
  let ctl := readSrc l.w (l.w.th t) lit .i32 b
  let kind := match ctl with
    | some (v, none) => cvtfKind (field v.toNat 0 4)
    | _ => .i32
  let al : Alu := { mkAlu h false one ([(a, kind), (b, .i32)] ++ cvSrcs r) lit with pred := none }
  let l := l.scrub t pc al.reads
  let x := l.w.th t
  let bad := match ctl with
    | some (v, none) => cvtfFault l.fmView d a v.toNat
    | _ => false
  let invalid := (al.operands l.w x 0).latch
  -- a new craze: a control-word fault, or an invalid latch that is read
  let (l, p) := if !bad && !invalid then (l, (0 : Word))
    else if al.drops l then (l.discard 1, 0)
    else l.originate (if bad then 0x01 else 0x03) 0 t pc none false
  if bad then l.setTh t (x.putResult one 0 (some p))
  else
    match readSrc l.w x lit .i32 b with
    | none => l.setTh t (x.putResult one 0 (some p))
    | some (_, some q) => l.setTh t (x.putResult one 0 (some q))
    | some (v, none) =>
      let fd := field v.toNat 4 4
      let o := { al with wideCraze := cvtfCraze l.fmView (field v.toNat 0 4) fd }.operands l.w x p
      l.setTh t (x.putResult (aluVDst d (fd == 1)) (cvtfValue l.fmView r v.toNat (arg o.vals 0) (arg o.vals 2)) o.crz)

/-- `cvtf` (R164). A latch as control word is read for each thread, as a vector register is (log 110); where no thread is
active, none derails (R96). -/
def cvtfRun (h : Hdr) (r : CvRound) (d : VDst) (a b : Src) (lit : Word) (l : Lane) : Lane :=
  let bt := l.w.batch
  let act := bt.filter (fun t => guardHolds h (l.w.th t))
  let srcs := [a, b] ++ (cvSrcs r).map Prod.fst
  let size := litSize srcs
  let fixed := match b with
    | .vec _ => true
    | .latch _ => true
    | _ => match readSrc l.w Thread.vacant lit .i32 b with
      | some (v, none) => cvtfPairs l.wg.info.nregs d a v.toNat
      | _ => true
  let n := l.wg.info.nregs
  if !l.w.ready ((aluVDst d true).regs ++ srcRegs 2 a ++ srcRegs 1 b ++ (cvSrcs r).flatMap (fun p => srcRegs 1 p.1)) then l
  else if !act.isEmpty && (!fixed || !(aluVDst d false).ok n || !(srcs.all (srcOk n 1))) then
    ((((l.advance bt size).endChain).derailAll act l.w.pc 0x01 none).settle bt)
  else
    let pc := l.w.pc
    let l1 := (act.foldl (cvtfThread h r d a b lit pc) l).shiftIdle act
    ((l1.advance bt size).nextChain h.chain).settle bt

/-- `cvtf` (R164). -/
def execCvtf (h : Hdr) (r : CvRound) (d : VDst) (a b : Src) (lit : Word) (s : State) : Out :=
  onLane s (cvtfRun h r d a b lit)

/-! ## Packed 16-bit instructions (R166) -/

/-- Format of a half. -/
def hfmt (b : Bool) : Fmt := if b then Num.bf16 else fp16

/-- How a packed operand is read. -/
def hkind (b : Bool) : OKind := if b then .hb16 else .h16

/-- Compute each half of the result. -/
def perHalf (f : (Nat → Nat) → Nat) : DWord :=
  BitVec.ofNat 64 (f (fun x => field x 0 16) + 65536 * f (fun x => field x 16 16))

/-- `hfma2` (R166). -/
def execHfma2 (h : Hdr) (b16 : Bool) (r : RMode) (na nb nc sat : Bool) (d : VDst) (a b c : Src) (lit : Word) (s : State) :
    Out :=
  let f := hfmt b16
  (mkAlu h false (aluVDst d false) [(a, hkind b16), (b, hkind b16), (c, hkind b16)] lit).exec
    (fun _ v => perHalf (fun half =>
      let g := fun (n : Bool) (i : Nat) => (valueOf (half (arg v i).toNat) f).negIf n
      fround f (.det r) sat (X.add (isRm r) (X.mul (g na 0) (g nb 1)) (g nc 2)))) s

/-- `hadd2` (R166). -/
def execHadd2 (h : Hdr) (b16 : Bool) (r : RMode) (na nb sat : Bool) (d : VDst) (a b : Src) (lit : Word) (s : State) : Out :=
  let f := hfmt b16
  (mkAlu h false (aluVDst d false) [(a, hkind b16), (b, hkind b16)] lit).exec
    (fun _ v => perHalf (fun half =>
      let g := fun (n : Bool) (i : Nat) => (valueOf (half (arg v i).toNat) f).negIf n
      fround f (.det r) sat (X.add (isRm r) (g na 0) (g nb 1)))) s

/-- `hmul2` (R166). -/
def execHmul2 (h : Hdr) (b16 : Bool) (r : RMode) (na nb sat : Bool) (d : VDst) (a b : Src) (lit : Word) (s : State) : Out :=
  let f := hfmt b16
  (mkAlu h false (aluVDst d false) [(a, hkind b16), (b, hkind b16)] lit).exec
    (fun _ v => perHalf (fun half =>
      let g := fun (n : Bool) (i : Nat) => (valueOf (half (arg v i).toNat) f).negIf n
      fround f (.det r) sat (X.mul (g na 0) (g nb 1)))) s

end Sys2Proof.Machine
end

