-- ==== Sys2Proof/Machine/MatrixIssue.lean ====
section
/-! DEFINITION. The array instructions at the lane, opcodes 0x180-0x18D (R219, R220, R229 to R248): the checks of
issue, the sources, and the entry of the matrix queue. -/

namespace Sys2Proof.Machine

/-- Does the array accept the source (R219)? -/
def matSrcOk (n : Nat) : Src → Bool
  | .scal i => scalOk i.toNat n
  | .imm _ => true
  | _ => false

/-- A source as the array takes it at issue: value and craze, read once for the warp. -/
def Lane.matRead (l : Lane) (k : OKind) (lit : Word) (x : Src) : DWord × Option Word :=
  (readSrc l.w Thread.vacant lit k x).getD (0, none)

/-- A 32-bit source as a tagged word. -/
def Lane.matWord (l : Lane) (x : Src) : TWord :=
  let (v, c) := l.matRead .i32 0 x
  match c with
  | some p => ⟨p, true⟩
  | none => ⟨v.setWidth 32, false⟩

/-- The fault of a matrix-role opcode known at issue (R40, R404, R407): role, then encoding. -/
def matFault (bad : Lane → Bool) (l : Lane) : Option Nat :=
  if l.w.role != .matrix then some 0x02 else illegal (bad l)

/-- Entries of the matrix queue that have not started. -/
def Wg.queued (g : Wg) : List MEntry := g.mq.filter (fun e => !e.started)

/-- An entry with no sources. -/
def MEntry.bare (i : Instr) : MEntry :=
  { id := 0, ins := i, a := ⟨0, false⟩, b := ⟨0, false⟩, c := ⟨0, false⟩, wide := 0, pc := 0, warp := 0, thread := 0,
    batch := 0, reg := none, sg1 := 0, started := false, head := none, seen := [], out := none,
    chained := none, waitFrom := none, stopped := false, issued := (0, 0), gcrz := none }

/-- Put an entry at the end of the matrix queue. -/
def Wg.enqueue (g : Wg) (e : MEntry) : Wg := { g with mq := g.mq ++ [{ e with id := g.nextM }], nextM := g.nextM + 1 }

/-- A queued opcode: `bad` are its faults of issue, `fill` reads its sources into the entry, and under `park` the active
set waits for it (R219, R220, R248). With 16 entries unstarted the warp waits. -/
def matIssue (h : Hdr) (size : Nat) (bad : Lane → Bool) (park : Bool) (i : Instr) (fill : Lane → MEntry → MEntry)
    (s : State) : Out :=
  { h, size, chains := false, regs := [], fault := matFault bad : Form }.execC
    (fun c act => !act.isEmpty && decide (16 ≤ c.l.wg.queued.length))
    (fun pc act c => match act with
      | [] => c
      | t :: _ => c.onL (fun l =>
          let x : MEntry := MEntry.bare i
          let e : MEntry := fill l { x with pc := pc, warp := l.ref.warp, thread := t, batch := maskOf act,
                                            sg1 := l.w.seg 1, issued := (l.clock, l.w.wslot),
                                            gcrz := crazeOf (act.map (fun t => (l.w.th t).predCraze h.guard)),
                                            reg := if l.w.member t then l.w.region.map (fun r => (l.ref.warp, r.tag)) else .none }
          let l1 : Lane := { l with wg := l.wg.enqueue e }
          if park then l1.parkAll act pc .msoak else l1)) s

/-- No source. -/
def noSrc (_ : Lane) (e : MEntry) : MEntry := e

/-- Sources A, B and C. -/
def abc (a b : Option Src) (c : Option Src) (l : Lane) (e : MEntry) : MEntry :=
  { e with a := (a.map l.matWord).getD ⟨0, false⟩, b := (b.map l.matWord).getD ⟨0, false⟩,
           c := (c.map l.matWord).getD ⟨0, false⟩ }

/-- A source the array refuses. -/
def badSrcs (l : List Src) : Bool := !l.all (matSrcOk 1)

/-- `fmtset` (R230): it waits until the entries before it have started, and writes `fm`. A crazed guard crazes the result
like a uniform form's (R394, log 28). -/
def execFmtset (h : Hdr) (dst : BitVec 8) (a : Src) (lit : Word) (s : State) : Out :=
  { h, size := litSize [a], chains := false, regs := []
    fault := fun _ => illegal (dst.extractLsb' 3 5 != 0 || !(a.isLit || matSrcOk 1 a)) : Form }.execC
    (fun c act => !act.isEmpty && !c.l.wg.queued.isEmpty)
    (fun _ act c => if act.isEmpty then c else c.onL (fun l =>
      let (v, p) := l.matRead .i32 lit a
      let x : TWord := match crazeOf (p :: act.map (fun t => (l.w.th t).predCraze h.guard)) with
        | some p => ⟨p, true⟩
        | none => ⟨v.setWidth 32, false⟩
      l.fmWrite (dst.toNat % 8) x)) s

/-- `mcoef` (R231). -/
def execMcoef (h : Hdr) (dst : BitVec 8) (e : Ext) (s : State) : Out :=
  matIssue h 16 (fun _ => dst.extractLsb' 4 4 != 0) false (.mcoef h dst e) (fun _ x => { x with wide := e }) s

/-- `mcoef.s` (R231): a scalar pair, or an inline integer as an FP64 value. -/
def execMcoefS (h : Hdr) (dst : BitVec 8) (a : Src) (e : Ext) (s : State) : Out :=
  matIssue h 16 (fun _ => dst.extractLsb' 4 4 != 0 || !matSrcOk 2 a) false (.mcoefS h dst a e)
    (fun l x =>
      let (v, p) := l.matRead .f64 0 a
      { x with wide := v, a := match p with
          | some p => ⟨p, true⟩
          | none => ⟨0, false⟩ }) s

/-- `mchain` (R232): a mode other than `.off` needs a kiln group of four. -/
def execMchain (h : Hdr) (m : ChainMode) (s : State) : Out :=
  matIssue h 8 (fun l => m != .off && l.wg.info.kg != 4) false (.mchain h m) noSrc s

/-- `mlds` (R233). -/
def execMlds (h : Hdr) (arv : Bool) (a b : Src) (c : Option Src) (e : Ext) (s : State) : Out :=
  matIssue h 16 (fun _ => badSrcs ([a, b] ++ c.toList)) false (.mlds h arv a b c e) (abc (some a) (some b) c) s

/-- `mswap` (R234). -/
def execMswap (h : Hdr) (s : State) : Out := matIssue h 8 (fun _ => false) false (.mswap h) noSrc s

/-- `mzero` (R235). -/
def execMzero (h : Hdr) (dst : BitVec 8) (n : BitVec 5) (s : State) : Out :=
  matIssue h 8 (fun _ => dst.extractLsb' 5 3 != 0) false (.mzero h dst n) noSrc s

/-- `mma` (R236). -/
def execMma (h : Hdr) (z arv ch : Bool) (a b : Src) (c : Option Src) (e : Ext) (s : State) : Out :=
  matIssue h 16 (fun _ => badSrcs ([a, b] ++ c.toList)) false (.mma h z arv ch a b c e) (abc (some a) (some b) c) s

/-- `mfeed`, shadow form (R237). -/
def execMfeedShadow (h : Hdr) (t : Bool) (e : Ext) (s : State) : Out :=
  matIssue h 16 (fun _ => false) false (.mfeedShadow h t e) noSrc s

/-- `mfeed.st` (R237). -/
def execMfeedStream (h : Hdr) (z : Bool) (e : Ext) (s : State) : Out :=
  matIssue h 16 (fun _ => false) false (.mfeedStream h z e) noSrc s

/-- `mldacc` (R238). -/
def execMldacc (h : Hdr) (arv : Bool) (a b : Src) (e : Ext) (s : State) : Out :=
  matIssue h 16 (fun _ => badSrcs [a, b]) false (.mldacc h arv a b e) (abc (some a) (some b) none) s

/-- `macc` (R239). -/
def execMacc (h : Hdr) (e : Ext) (s : State) : Out := matIssue h 16 (fun _ => false) false (.macc h e) noSrc s

/-- `mstore` of tiles (R240). -/
def execMstore (h : Hdr) (arv : Bool) (a b : Src) (e : Ext) (s : State) : Out :=
  matIssue h 16 (fun _ => badSrcs [a, b]) false (.mstore h arv a b e) (abc (some a) (some b) none) s

/-- `mstore.ss` (R240). -/
def execMstoreSs (h : Hdr) (arv : Bool) (a : Src) (e : Ext) (s : State) : Out :=
  matIssue h 16 (fun _ => badSrcs [a]) false (.mstoreSs h arv a e) (abc (some a) none none) s

/-- `mstore.mc` (R240). -/
def execMstoreMc (h : Hdr) (arv : Bool) (a : Src) (e : Ext) (s : State) : Out :=
  matIssue h 16 (fun _ => badSrcs [a]) false (.mstoreMc h arv a e) (abc (some a) none none) s

/-- `mnorm` (R241). -/
def execMnorm (h : Hdr) (diff rt : Bool) (dst : BitVec 8) (e : Ext) (s : State) : Out :=
  matIssue h 16 (fun _ => dst.extractLsb' 4 4 != 0) false (.mnorm h diff rt dst e) noSrc s

/-- `mpoly` (R242). -/
def execMpoly (h : Hdr) (e : Ext) (s : State) : Out := matIssue h 16 (fun _ => false) false (.mpoly h e) noSrc s

/-- `msoak` (R243, R248): its batch parks. -/
def execMsoak (h : Hdr) (ch : Bool) (e : Ext) (s : State) : Out :=
  matIssue h 16 (fun _ => false) true (.msoak h ch e) noSrc s

end Sys2Proof.Machine
end

