-- ==== Sys2Proof/Machine/Layout.lean ====
section
/-! DEFINITION. Tensor layout records and boxes (R255 to R261): the fields of a record, its validity, where each box
element comes from and where it lands. Positions in a source and in a row are counted in nibbles, so that one formula
serves every element width. -/

namespace Sys2Proof.Machine

/-- A layout record (R255, R256). -/
structure Lay where
  base : Nat
  sbase : Nat
  /-- Box sizes, extents and strides (in 16 bytes) of dimensions 0-4. -/
  box : List Nat
  ext : List Nat
  str : List Nat
  dpitch : Nat
  /-- Elements of a scale block. -/
  blk : Nat
  tr : Bool
  circ : Nat
  ew : Nat
  rank : Nat
  /-- A reserved bit is set. -/
  rsv : Bool

/-- The record in 64 bytes. -/
def Lay.parse (bs : List Byte) : Lay :=
  let f := fun (o n : Nat) => leNat ((bs.drop o).take n)
  let ctl := f 0x10 8
  { base := field (f 0 8) 0 57, sbase := field (f 8 8) 0 57
    box := [field ctl 22 10 + 1, field ctl 32 10 + 1, field ctl 42 7 + 1, field ctl 49 7 + 1, field ctl 56 7 + 1]
    ext := (List.range 5).map (fun i => f (0x18 + 4 * i) 4)
    str := 0 :: (List.range 4).map (fun i => f (0x2C + 4 * i) 4)
    dpitch := field ctl 13 9, blk := if ctl.testBit 12 then 32 else 16, tr := ctl.testBit 11, circ := field ctl 6 5
    ew := field ctl 3 3, rank := field ctl 0 3
    rsv := field (f 0 8) 57 7 != 0 || field (f 8 8) 57 7 != 0 || ctl.testBit 63 || f 0x3C 4 != 0 }

/-- Box size of dimension `i`. -/
def Lay.b (l : Lay) (i : Nat) : Nat := l.box.getD i 1
/-- Extent. -/
def Lay.x (l : Lay) (i : Nat) : Nat := l.ext.getD i 1

/-- Nibbles of an element. -/
def Lay.nib (l : Lay) : Nat := 2 ^ l.ew
/-- Elements of a destination row (R259). -/
def Lay.len (l : Lay) : Nat := if l.tr then l.b 1 else l.b 0
/-- Destination rows. -/
def Lay.rows (l : Lay) : Nat := (if l.tr then l.b 0 else l.b 1) * l.b 2 * l.b 3 * l.b 4
/-- Data bytes of a row, rounded up to 32. -/
def Lay.rowBytes (l : Lay) : Nat := (l.len * l.nib + 63) / 64 * 32
/-- Pitch of the rows. -/
def Lay.pitch (l : Lay) : Nat := if l.dpitch = 0 then l.rowBytes else 32 * l.dpitch
/-- Bytes of the data. -/
def Lay.data (l : Lay) : Nat := l.rows * l.pitch
/-- Scale blocks of a row (R261). -/
def Lay.nb (l : Lay) : Nat := l.len / l.blk
/-- Bytes of the scales, rounded up to 32. -/
def Lay.scales (l : Lay) : Nat := if l.sbase = 0 then 0 else (l.rows * l.nb + 31) / 32 * 32
/-- Sectors of the destination: data, then scales (R263). -/
def Lay.sectors (l : Lay) : Nat := (l.data + l.scales) / 32

/-- Is the record valid for the coordinates `c` (R257)? A base that is no multiple of 16 breaks R255. -/
def Lay.valid (l : Lay) (c : List Int) : Bool :=
  let bd := if l.tr then 1 else 0
  !l.rsv && decide (1 ≤ l.rank ∧ l.rank ≤ 5) && decide (l.ew ≤ 4) && l.ext.all (fun x => decide (1 ≤ x)) && l.base % 16 == 0 &&
  (List.range 5).all (fun i => decide (i < l.rank) ||
    (l.x i == 1 && l.b i == 1 && !l.circ.testBit i && l.str.getD i 0 == 0)) &&
  (l.ew != 0 || (l.b 0 % 2 == 0 && (c.getD 0 0) % 2 == 0 && (!l.tr || l.b 1 % 2 == 0))) &&
  (!l.tr || (decide (2 ≤ l.rank) && decide (l.ew ≤ 3))) &&
  (l.sbase == 0 || (decide (l.ew ≤ 1) && l.x bd % l.blk == 0 && l.b bd % l.blk == 0 && (c.getD bd 0) % (l.blk : Int) == 0)) &&
  (l.dpitch == 0 || decide (l.rowBytes ≤ 32 * l.dpitch)) &&
  decide (l.data + l.scales ≤ 2 ^ 20)

/-- Position x of box index `j` in dimension `i` (R258); `none` where it is out of range. -/
def Lay.pos (l : Lay) (c : List Int) (i j : Nat) : Option Nat :=
  let y : Int := c.getD i 0 + j
  if l.circ.testBit i then some (y % (l.x i : Int)).toNat
  else if 0 ≤ y ∧ y < l.x i then some y.toNat
  else none

/-- Box indices of the element at place `p` of destination row `r` (R259). -/
def Lay.indices (l : Lay) (r p : Nat) : List Nat :=
  let a := if l.tr then l.b 0 else l.b 1
  let hi := [r / a % l.b 2, r / a / l.b 2 % l.b 3, r / a / l.b 2 / l.b 3]
  (if l.tr then [r % a, p] else [p, r % a]) ++ hi

/-- Destination row and place of box indices. -/
def Lay.place (l : Lay) (js : List Nat) : Nat × Nat :=
  let j := fun (i : Nat) => js.getD i 0
  let up := j 2 + l.b 2 * (j 3 + l.b 3 * j 4)
  if l.tr then (j 0 + l.b 0 * up, j 1) else (j 1 + l.b 1 * up, j 0)

/-- The positions of an element in the source; `none` where a dimension is out of range. -/
def Lay.xs (l : Lay) (c : List Int) (js : List Nat) : Option (List Nat) :=
  let v := (List.range 5).map (fun i => l.pos c i (js.getD i 0))
  if v.all Option.isSome then some (v.map (fun x => x.getD 0)) else none

/-- First nibble of an element in the source, from address 0: twice its byte address, plus one for a high nibble. -/
def Lay.nibAt (l : Lay) (xs : List Nat) : Nat :=
  2 * l.base + xs.getD 0 0 * l.nib + (List.range 5).foldl (fun n i => n + 32 * l.str.getD i 0 * xs.getD i 0) 0

/-- Byte address of the scale of the block an element lies in (R261). -/
def Lay.scaleAt (l : Lay) (xs : List Nat) : Nat :=
  let bd := if l.tr then 1 else 0
  let dim := fun (i : Nat) => if i = bd then (l.x i + l.blk - 1) / l.blk else l.x i
  let v := fun (i : Nat) => if i = bd then xs.getD i 0 / l.blk else xs.getD i 0
  l.sbase + v 0 + dim 0 * (v 1 + dim 1 * (v 2 + dim 2 * (v 3 + dim 3 * v 4)))

/-- Where a nibble of the destination comes from. -/
inductive NibSrc where
  /-- Byte address and the high nibble of it. -/
  | at_ (byte : Nat) (hi : Bool)
  | val (v : Nat)
deriving DecidableEq, Repr

/-- The source of nibble `h` of byte `o` of the destination: data, pitch padding and zero fill (R258, R259), or scales
(R261). -/
def Lay.nibble (l : Lay) (c : List Int) (o h : Nat) : NibSrc :=
  if o < l.data then
    let q := 2 * (o % l.pitch) + h
    if q / l.nib < l.len then
      match l.xs c (l.indices (o / l.pitch) (q / l.nib)) with
      | some xs => let n := l.nibAt xs + q % l.nib; .at_ (n / 2) (n % 2 == 1)
      | none => .val 0
    else .val 0
  else
    let k := o - l.data
    if k < l.rows * l.nb then
      match l.xs c (l.indices (k / l.nb) (k % l.nb * l.blk)) with
      | some xs => .at_ (l.scaleAt xs) (h == 1)
      | none => .val (if h = 0 then 0xF else 0x7)
    else .val 0

/-- The least and the greatest position of a dimension that the box reaches. -/
def Lay.reach (l : Lay) (c : List Int) (i : Nat) : Option (Nat × Nat) :=
  ((List.range (l.b i)).filterMap (l.pos c i)).foldl (fun (m : Option (Nat × Nat)) x => match m with
    | none => some (x, x)
    | some (a, b) => some (min a x, max b x)) none

/-- The byte addresses that bound the in-range elements, and those that bound their scales; `none` where the box holds
no element in range. -/
def Lay.span (l : Lay) (c : List Int) : Option (List (Nat × Nat)) :=
  let r := (List.range 5).map (l.reach c)
  if r.all Option.isSome then
    let lo := r.map (fun x => (x.getD (0, 0)).1)
    let hi := r.map (fun x => (x.getD (0, 0)).2)
    some ([(l.nibAt lo / 2, (l.nibAt hi + l.nib - 1) / 2)] ++
      (if l.sbase = 0 then [] else [(l.scaleAt lo, l.scaleAt hi)]))
  else none

/-- Box indices in ascending box order, j0 fastest. -/
def Lay.order (l : Lay) : List (List Nat) :=
  (List.range (l.b 4)).flatMap (fun j4 => (List.range (l.b 3)).flatMap (fun j3 => (List.range (l.b 2)).flatMap (fun j2 =>
    (List.range (l.b 1)).flatMap (fun j1 => (List.range (l.b 0)).map (fun j0 => [j0, j1, j2, j3, j4])))))

/-- Byte address of the first in-range element of the box, or `base` (R275). -/
def Lay.first (l : Lay) (c : List Int) : Nat :=
  let lead := (List.range 5).map (fun i => (List.range (l.b i)).findSome? (l.pos c i))
  if lead.all Option.isSome then l.nibAt (lead.map (fun x => x.getD 0)) / 2 else l.base

end Sys2Proof.Machine
end

