-- ==== Sys2Proof/Machine/Memory.lean ====
section
/-! DEFINITION. Loads, stores, atomics, reductions and fences at the lane, opcodes 0x0C0-0x0C7 (R180 to R198, R407,
R419 to R423). Scratchpad accesses take effect at once; a global access becomes an outstanding access or a held item,
which the events of the memory path move on. -/

namespace Sys2Proof.Machine

open Sys2Proof.Num

/-! ## Operands of one thread -/

/-- What one thread's operands give. -/
structure MemArgs where
  /-- Segment offset. -/
  o : Nat
  /-- Craze of A and B, where they form the address. -/
  addr : Option Word
  /-- The data C, little-endian, and its craze. -/
  data : Nat
  dcrz : Option Word
  /-- The comparison value of `cas` and its craze. -/
  cmp : Nat
  ccrz : Option Word
  guard : Option Word

/-- Operand kind of data of `n` bytes. -/
def dataKind (n : Nat) : OKind := if n ≤ 4 then .i32 else .i64

/-- Operand kind of the data C: a value in FP32 or FP64 for the `aop` codes `.fadd`, `.fmin` and `.fmax` (R89, R194). -/
def cKind (n : Nat) (e : Ext) : OKind :=
  if 11 ≤ exAop e ∧ exAop e ≤ 13 then (if n ≤ 4 then .f32 else .f64) else dataKind n

/-- A 16-byte quad (R183): its value and the payload of its lowest tagged word. -/
def Lane.quad (l : Lane) (t : Nat) (x : Src) : Nat × Option Word :=
  let f := fun (r : Nat → TWord) =>
    let ws := (List.range 4).map r
    (leNat (ws.flatMap (fun w => leBytes 4 w.val.toNat)), crazeOf (ws.map (fun w => if w.tag then some w.val else none)))
  match x with
  | .vec i => if i = 255 then (0, none) else f (fun j => (l.w.th t).vreg (i.toNat + j))
  | .scal i => if i = 63 then (0, none) else f (fun j => l.w.sreg (i.toNat + j))
  | _ => (0, none)

/-- The operands of a memory instruction. -/
structure MemIns where
  a64 : Bool
  a : Src
  /-- Index. -/
  b : Option Src
  /-- Comparison value of `cas`. -/
  cmp : Option Src
  /-- Data. -/
  c : Option Src
  e : Ext

/-- Bytes of the access, 16 for an unassigned code. -/
def MemIns.n (m : MemIns) : Nat := if exSize m.e ≤ 4 then exBytes m.e else 16

/-- Its sources with their register counts. -/
def MemIns.srcs (m : MemIns) : List (Src × Nat) :=
  [(m.a, if m.a64 then 2 else 1)] ++ (m.b.toList.map (fun x => (x, 1))) ++
  ((m.cmp.toList ++ m.c.toList).map (fun x => (x, regsOf m.n)))

/-- Vector registers it reads. -/
def MemIns.regs (m : MemIns) : List (Nat × Nat) := m.srcs.flatMap (fun p => srcRegs p.2 p.1)

/-- A faulty form (R404): extension word or register index. -/
def MemIns.bad (m : MemIns) (r : MemRow) (l : Lane) : Bool :=
  r.bad m.e || !m.srcs.all (fun p => srcOk l.wg.info.nregs p.2 p.1)

/-- Read the operands of thread `t`. -/
def MemIns.args (m : MemIns) (h : Hdr) (pc : VAddr) (disc : Bool) (l : Lane) (t : Nat) : Lane × MemArgs :=
  let quads := m.n = 16
  let ks := [(m.a, if m.a64 then OKind.i64 else .i32)] ++ (m.b.toList.map (fun x => (x, OKind.i32))) ++
    (m.cmp.toList.map (fun x => (x, dataKind m.n))) ++
    (if quads then [] else m.c.toList.map (fun x => (x, cKind m.n m.e)))
  let l := if quads then m.c.toList.foldl (fun l x => l.scrub t pc (srcRegs 4 x)) l else l
  let (l, rs) := l.readAll t pc 0 disc ks none
  let nb := m.b.toList.length
  let va := rs.getD 0 (0, none)
  let vb := if nb = 0 then ((0 : DWord), none) else rs.getD 1 (0, none)
  let vcmp := if m.cmp.isSome then rs.getD (1 + nb) (0, none) else (0, none)
  let vc : Nat × Option Word := match m.c with
    | none => (0, none)
    | some x => if quads then l.quad t x
      else let r := rs.getD (1 + nb + m.cmp.toList.length) (0, none); (r.1.toNat % 2 ^ (8 * m.n), r.2)
  (l, { o := segOffset m.a64 m.e va.1 vb.1, addr := crazeOf [va.2, vb.2], data := vc.1, dcrz := vc.2,
        cmp := vcmp.1.toNat % 2 ^ (8 * m.n), ccrz := vcmp.2, guard := (l.w.th t).predCraze h.guard })

/-! ## Outstanding accesses and held items -/

/-- Take the next place in the warp's program order, and the next number. -/
def Lane.tick (l : Lane) : Lane := { l with w := { l.w with po := l.w.po + 1, nextId := l.w.nextId + 1 } }

/-- Add an outstanding access of thread `t`. -/
def Lane.addAcc (l : Lane) (kind : AccKind) (t : Nat) (pc : VAddr) (va n dst : Nat) (x cmp : DWord) (ord scope : Nat)
    (stage : AccStage) : Lane :=
  let a : Acc := { id := l.w.nextId, kind, thread := t, po := l.w.po, pc, va, n, dst, x, cmp, ord, scope, stage,
                   dpa := 0, gen := 0, key := 0, rmt := false, issued := l.clock }
  { l with w := { l.w with accs := l.w.accs ++ [a] } }.tick

/-- Add a held item of thread `t`. -/
def Lane.addItem (l : Lane) (tag : Nat) (kind : ItemKind) (cells : List WCell) (t : Nat) (pc : VAddr) (va n : Nat) : Lane :=
  let i : Item := { id := l.w.nextId, tag, po := l.w.po, thread := t, kind, cells, va, n, pc, stage := .walk, dpa := 0,
                    gen := 0, key := 0, rmt := false, copy := false, bad := false, sent := false, issued := l.clock, named := t }
  { l with w := { l.w with items := l.w.items ++ [i] } }.tick

/-- Is the access performed, or no access? -/
def Acc.performed (a : Acc) : Bool :=
  match a.kind, a.stage with
  | .fence _, _ => true
  | _, .done _ => true
  | _, _ => false

/-- Is every earlier access that the fence orders performed (R198)? The fence's threads are the mask `x`. -/
def Warp.passed (w : Warp) (f : Acc) (k : FenceKind) : Bool :=
  let th := fun (t : Nat) => f.x.getLsbD t
  let loads := w.accs.all (fun a => a.performed || !th a.thread || decide (f.po ≤ a.po))
  match k with
  | .acq => loads
  | _ => loads && w.implicit.all (fun i => decide (f.po ≤ i.po) ||
      !(w.items.any (fun x => x.tag == i.tag && th x.thread) || i.owner.any th))

/-- Does a fence before program order `po` hold back an access of the warp? `write`: it is a store, reduction or atomic
(R198). -/
def Warp.fenced (w : Warp) (po : Nat) (write : Bool) : Bool :=
  w.accs.any (fun a => match a.kind with
    | .fence k => decide (a.po < po) && (k != .rel || write) && !w.passed a k
    | _ => false)

/-- An earlier acquire of the thread is outstanding (R305). -/
def Warp.acquiring (w : Warp) (t po : Nat) : Bool :=
  w.accs.any (fun a => !a.performed && a.thread == t && decide (a.po < po) && a.ord % 2 == 1)

/-- An earlier access of the thread is not performed yet: a load or an implicit region (R305). -/
def Warp.before (w : Warp) (t po : Nat) : Bool :=
  w.accs.any (fun a => !a.performed && a.thread == t && decide (a.po < po)) ||
  w.implicit.any (fun i => decide (i.po < po) &&
    (i.owner == some t || w.items.any (fun x => x.tag == i.tag && x.thread == t)))

/-- Has the warp no access in flight: every access outside its open region is performed (R200, R201, R204)? -/
def Warp.quiet (w : Warp) : Bool := w.accs.all Acc.performed && w.implicit.isEmpty

/-- Must an access that takes effect at once wait (R198, R305)? -/
def Warp.holdsAt (w : Warp) (act : List Nat) (write rel : Bool) : Bool :=
  w.fenced w.po write || act.any (fun t => w.acquiring t w.po || (rel && w.before t w.po))

/-! ## Sagger space (R47, R206, R423) -/

/-- Units a warp has reserved. -/
def Warp.units (w : Warp) : Nat :=
  (match w.region with
    | some r => r.res
    | none => 0) + (w.implicit.map Implicit.units).sum + (w.rels.map Release.units).sum

/-- Units reserved on core `k` by the workgroups that satisfy `f`, the lane's own view for its workgroup. -/
def Ctx.reserved (c : Ctx) (f : Wg → Bool) : Nat :=
  (c.s.wgs.map (fun e =>
    let g : Wg := if e.1 = c.l.ref.wg then { c.l.wg with warps := c.l.wg.warps.set c.l.ref.warp c.l.w } else e.2
    if g.core = c.l.wg.core && f g then (g.warps.map Warp.units).sum else 0)).sum

/-- Can `u` units be reserved now (R47)? -/
def Ctx.canReserve (c : Ctx) (u : Nat) : Bool :=
  decide (c.reserved (fun _ => true) + u ≤ 512) &&
  c.l.wg.quotas.all (fun q => decide (c.reserved (fun g => g.quotas.any (fun p => p.1 == q.1)) + u ≤ q.2.1))

/-- Can they never be granted, because they exceed the effective sagger quota (R423)? -/
def Wg.never (g : Wg) (u : Nat) : Bool := g.quotas.any (fun q => decide (q.2.1 < u))

/-! ## Loads (R185, R190) -/

/-- Bytes of a memory instruction. -/
abbrev memSize : Nat := 16

/-- Registers of a result of `n` bytes at `dst`. -/
def dstRegs (dst n : Nat) : List (Nat × Nat) := if dst = 255 then [] else [(dst, regsOf n)]

/-- Does thread `t`, a member, mark a granule that it takes as pending (R190, R410)? -/
def Ctx.takeGran (c : Ctx) (t : Nat) (a : ScrLoc) : Ctx :=
  let g := a.off / 16
  match c.l.w.region with
  | some r =>
    if r.members.getLsbD t then
      (c.onL (fun l => { l with w := { l.w with
          region := some { r with pending := r.pending ++ [(t, ⟨a.wg, g⟩)] } } })).setScr a.wg
        ((c.scr a.wg).setGran g (.pending c.l.ref.wg c.l.ref.warp r.tag))
    else c.setScr a.wg ((c.scr a.wg).setGran g .empty)
  | none => c.setScr a.wg ((c.scr a.wg).setGran g .empty)

/-- One thread of `ld`, or of `ldfe` where `fe` (`some true` takes). -/
def loadOne (m : MemIns) (row : MemRow) (h : Hdr) (dst : Nat) (fe : Option Bool) (pc : VAddr) (c : Ctx) (t : Nat) : Ctx :=
  let (l, x) := m.args h pc (dst == 255) c.l t
  let c : Ctx := { c with l := l }
  let n := m.n
  match crazeOf [x.addr, x.guard] with
  | some p => c.onL (fun l => l.setTh t ((l.w.th t).setWords dst (List.replicate (regsOf n) ⟨p, true⟩)))
  | none =>
    match c.check (exSeg m.e) t x.o n [row.perm] row.kinds true with
    | .fault k o => c.onL (fun l => l.craze k 0 t pc (some o) dst (regsOf n))
    | .ok (.va va) => c.onL (fun l =>
        l.addAcc (.load (exSx m.e)) t pc va n dst 0 0 (exOrd m.e) (exScope m.e) .walk)
    | .ok (.scr a) =>
      if fe.isSome && (c.scr a.wg).granule (a.off / 16) != .full then
        c.onL (fun l => l.setTh t { l.w.th t with pc := pc, st := .parkedEvent (.ldfe ⟨a.wg, a.off / 16⟩) })
      else
        let (c, ws) := c.readScr t pc a n
        let c := c.onL (fun l => (l.setTh t ((l.w.th t).setWords dst (loadWords ws a.off n (exSx m.e)))).tick)
        if fe = some true then c.takeGran t a else c

/-- A load form. -/
def loadForm (m : MemIns) (row : MemRow) (h : Hdr) (dst : BitVec 8) : Form :=
  { h, size := memSize, chains := false, regs := dstRegs dst.toNat m.n ++ m.regs
    fault := fun l => illegal (m.bad row l || !vecOk l.wg.info.nregs dst.toNat (regsOf m.n)) }

/-- Does the segment serve at once (scratchpad or peer)? -/
def Ctx.atOnce (c : Ctx) (e : Ext) : Bool := let k := sgKind (c.l.w.seg (exSeg e)); k == 1 || k == 2

/-- `ld` (R185). -/
def execLd (h : Hdr) (a64 : Bool) (dst : BitVec 8) (a b : Src) (e : Ext) (s : State) : Out :=
  let m : MemIns := ⟨a64, a, some b, none, none, e⟩
  (loadForm m ldRow h dst).execC (fun c act => c.atOnce e && c.l.w.holdsAt act false false)
    (fun pc act c => act.foldl (loadOne m ldRow h dst.toNat none pc) c) s

/-- `ldfe` (R190). -/
def execLdfe (h : Hdr) (a64 take : Bool) (dst : BitVec 8) (a b : Src) (e : Ext) (s : State) : Out :=
  let m : MemIns := ⟨a64, a, some b, none, none, e⟩
  (loadForm m ldfeRow h dst).execC (fun c act => c.l.w.holdsAt act false false)
    (fun pc act c => act.foldl (loadOne m ldfeRow h dst.toNat (some take) pc) c) s

/-- `prefetch` (R192): no architectural effect; it ignores every fault of its access (R420). -/
def execPrefetch (h : Hdr) (a64 : Bool) (a b : Src) (e : Ext) (s : State) : Out :=
  let m : MemIns := ⟨a64, a, some b, none, none, e⟩
  { h, size := memSize, chains := false, regs := m.regs, fault := fun l => illegal (m.bad prefetchRow l) : Form }.execC
    (fun _ _ => false) (fun _ _ c => c) s

/-! ## Atomic operations (R194, R195, R502) -/

/-- new := f(old, C) for `aop` code `op` on `n` bytes (R194). -/
def atomNew (op n old x : Nat) : Nat :=
  let w := 8 * n
  let f := fmtOf (n == 8)
  let lt := fun (a b : Nat) => decide (sext w a < sext w b)
  match op with
  | 0 => (old + x) % 2 ^ w
  | 1 => min old x
  | 2 => max old x
  | 3 => if lt x old then x else old
  | 4 => if lt old x then x else old
  | 5 => old &&& x
  | 6 => old ||| x
  | 7 => old ^^^ x
  | 8 => x
  | 9 => if x ≤ old then 0 else old + 1
  | 10 => if old = 0 ∨ x < old then x else old - 1
  | 11 => roundTo (X.add false (valueOf old f) (valueOf x f)) f rne
  | 12 => roundTo (fminmax false (valueOf old f) (valueOf x f)) f rne
  | _ => roundTo (fminmax true (valueOf old f) (valueOf x f)) f rne

/-- What an atomic does to the words it meets: what it stores, and its old value. `op` 255 is `cas`. A crazed target is
never changed, and its payload crazes every word of the old value (R502). -/
def atomStep (op n : Nat) (x cmp : Nat) (ws : List TWord) : Option Nat × List TWord :=
  match crazeOf (ws.map (fun w => if w.tag then some w.val else none)) with
  | some p => (none, List.replicate (regsOf n) ⟨p, true⟩)
  | none =>
    let old := leNat (ws.flatMap (fun w => leBytes 4 w.val.toNat))
    (if op = 255 then (if old = cmp then some x else none) else some (atomNew op n old x), ws)

/-- One thread of `atom` or `cas`. -/
def atomOne (m : MemIns) (row : MemRow) (h : Hdr) (op dst : Nat) (dirty : Bool) (pc : VAddr) (c : Ctx) (t : Nat) : Ctx :=
  let (l, x) := m.args h pc (dst == 255) c.l t
  let c : Ctx := { c with l := l }
  let n := m.n
  match crazeOf [x.addr, x.ccrz, x.dcrz, x.guard] with
  | some p => c.onL (fun l => l.setTh t ((l.w.th t).setWords dst (List.replicate (regsOf n) ⟨p, true⟩)))
  | none =>
    if dirty then c.onL (fun l => l.craze 0x0E 0 t pc (some (BitVec.ofNat 57 x.o)) dst (regsOf n))
    else
      match c.check (exSeg m.e) t x.o n [row.perm] row.kinds true with
      | .fault k o => c.onL (fun l => l.craze k 0 t pc (some o) dst (regsOf n))
      | .ok (.va va) =>
        let trailer := c.l.wg.pair.any (fun p => !p.2)
        c.onL (fun l => l.addAcc (if op = 255 then .cas else .atom op) t pc va n dst (BitVec.ofNat 64 x.data)
          (BitVec.ofNat 64 x.cmp) (exOrd m.e) (exScope m.e) (if trailer then .home else .walk))
      | .ok (.scr a) =>
        let (c, ws) := c.readScr t pc a n
        let (new, old) := atomStep op n x.data x.cmp ws
        let c := match new with
          | some v => c.writeScr t pc a (cellsOf 0 n v none)
          | none => c
        c.onL (fun l => (l.setTh t ((l.w.th t).setWords dst old)).tick)

/-- Does the open region hold a store or reduction (R421)? -/
def Warp.dirty (w : Warp) : Bool :=
  match w.region with
  | some r => w.items.any (fun i => i.tag == r.tag && i.stage != .refused)
  | none => false

/-- `atom` and `cas`: a global one waits for the warp's implicit regions (R193) and, in a leader, for the SCB's queue
(R476). One whose active threads are all outside the open region's members executes, although the region holds stores: R421 speaks of
members alone (DESIGN CHOICE, log 119). -/
def atomExec (m : MemIns) (row : MemRow) (h : Hdr) (op : Nat) (dst : BitVec 8) (s : State) : Out :=
  let global := fun (c : Ctx) => sgKind (c.l.w.seg (exSeg m.e)) == 0
  (loadForm m row h dst).execC
    (fun c act => if global c then
        !c.l.w.implicit.isEmpty || (c.l.wg.pair.any Prod.snd && decide (64 ≤ c.l.wg.pairQ.length))
      else c.l.w.holdsAt act true (2 ≤ exOrd m.e))
    (fun pc act c =>
      let dirty := global c && c.l.w.dirty && act.any c.l.w.member
      act.foldl (atomOne m row h op dst.toNat dirty pc) c) s

/-- `atom` (R194). -/
def execAtom (h : Hdr) (a64 : Bool) (dst : BitVec 8) (a b c : Src) (e : Ext) (s : State) : Out :=
  atomExec ⟨a64, a, some b, none, some c, e⟩ atomRow h (exAop e) dst s

/-- `cas` (R195). -/
def execCas (h : Hdr) (a64 : Bool) (dst : BitVec 8) (a b c : Src) (e : Ext) (s : State) : Out :=
  atomExec ⟨a64, a, none, some b, some c, e⟩ casRow h 255 dst s

/-! ## Stores and reductions (R186, R187, R196) -/

/-- One thread of a scratchpad or peer `st` or `red` (R407). -/
def nearOne (m : MemIns) (row : MemRow) (h : Hdr) (red : Option Nat) (fill : Bool) (pc : VAddr) (c : Ctx) (t : Nat) : Ctx :=
  let (l, x) := m.args h pc false c.l t
  let c : Ctx := { c with l := l }
  let n := m.n
  match x.addr with
  | some p => c.onL (fun l => l.derail t p)
  | none =>
    match c.check (exSeg m.e) t x.o n [row.perm] row.kinds true with
    | .fault k o =>
      let (c, p) := c.originate k 0 t pc (some o)
      c.onL (fun l => l.derail t p)
    | .ok (.va _) => c
    | .ok (.scr a) =>
      let crz := crazeOf [x.dcrz, x.guard]
      let c := match red, crz with
        | none, _ => c.writeScr t pc a (cellsOf 0 n x.data crz)
        | some _, some p => c.writeScr t pc a (cellsOf 0 n 0 (some p))
        | some op, none =>
          let (c, ws) := c.readScr t pc a n
          match (atomStep op n x.data 0 ws).1 with
          | some v => c.writeScr t pc a (cellsOf 0 n v none)
          | none => c
      let c := c.onL Lane.tick
      if fill then c.setScr a.wg ((c.scr a.wg).fill a.off n) else c

/-- One thread of a held `st` or `red` (R408, R419): `imp` is the tag of its implicit region, when it is no member. A member's fault
is the memory path's; crazed data sets its member craze when the item is past its walk. -/
def heldOne (m : MemIns) (row : MemRow) (h : Hdr) (red : Option Nat) (imp : Option Nat) (pc : VAddr) (c : Ctx) (t : Nat) : Ctx :=
  let (l, x) := m.args h pc false c.l t
  let c : Ctx := { c with l := l }
  let n := m.n
  match x.addr with
  | some p => c.onL (fun l => if imp.isNone then l.memberCraze t p true l.clock else l.derail t p)
  | none =>
    match c.check (exSeg m.e) t x.o n [row.perm] row.kinds true with
    | .fault k o =>
      if imp.isNone then c.onL (fun l => l.memberFault t k 1 pc (some o) l.clock)
      else
        let (c, p) := c.originate k 0 t pc (some o)
        c.onL (fun l => l.derail t p)
    | .ok (.scr _) => c
    | .ok (.va va) =>
      let crz := crazeOf [x.dcrz, x.guard]
      let tag := match imp with
        | some k => k
        | none => match c.l.w.region with
          | some r => r.tag
          | none => 0
      match red with
      | some op => c.onL (fun l => l.addItem tag (.red op n (BitVec.ofNat 64 x.data) crz) [] t pc va n)
      | none => c.onL (fun l => l.addItem tag .store (cellsOf 0 n x.data crz) t pc va n)

/-- Open an implicit region of `u` units (R44, R187): its tag. -/
def Lane.implicit (l : Lane) (u : Nat) (rel : Bool) (owner : Option Nat) (pc : VAddr) : Lane × Nat :=
  let i : Implicit := { tag := l.w.nextTag, po := l.w.po, units := u, rel, pc, decided := false, agreed := false, sig := 0, sigSent := false,
                        num := l.w.implicitCount + 1, owner, seq := l.w.rseq }
  ({ l with w := { l.w with implicit := l.w.implicit ++ [i], nextTag := l.w.nextTag + 1,
                            implicitCount := l.w.implicitCount + 1 } }, i.tag)

/-- The held form: threads outside the open region form an implicit region of four units; where these can never be
granted, they derail with cause 0x0D (R423). -/
def heldBody (m : MemIns) (row : MemRow) (h : Hdr) (red : Option Nat) (pc : VAddr) (act : List Nat) (c : Ctx) : Ctx :=
  let outs := act.filter (fun t => !c.l.w.member t)
  let ins := act.filter c.l.w.member
  if outs.isEmpty then ins.foldl (heldOne m row h red none pc) c
  else if c.l.wg.never 4 then
    ins.foldl (heldOne m row h red none pc) (c.onL (fun l => l.derailAll outs pc 0x0D none))
  else
    let (l, tag) := c.l.implicit 4 (exOrd m.e == 2) none pc
    act.foldl (fun c t => heldOne m row h red (if outs.contains t then some tag else none) pc c t) { c with l := l }

/-- Does the instruction hold its data? -/
def MemIns.held (m : MemIns) (c : Ctx) : Bool := c.l.heldSeg (exSeg m.e)

/-- `st` and `red`. A `red` through a private or constant segment, or a `st` through a constant one, meets step 3 of
R420. -/
def storeExec (m : MemIns) (row : MemRow) (h : Hdr) (red : Option Nat) (fill : Bool) (s : State) : Out :=
  { h, size := memSize, chains := false, regs := m.regs
    fault := fun l => illegal (m.bad row l || (fill && l.heldSeg (exSeg m.e))) : Form }.execC
    (fun c act =>
      if m.held c then
        act.any (fun t => !c.l.w.member t) && !c.l.wg.never 4 && !c.canReserve 4
      else c.l.w.holdsAt act true (exOrd m.e == 2))
    (fun pc act c => if m.held c then heldBody m row h red pc act c
      else act.foldl (nearOne m row h red fill pc) c) s

/-- `st` (R186). -/
def execSt (h : Hdr) (a64 fill : Bool) (a b c : Src) (e : Ext) (s : State) : Out :=
  storeExec ⟨a64, a, some b, none, some c, e⟩ stRow h none fill s

/-- `red` (R194, R196). -/
def execRed (h : Hdr) (a64 : Bool) (a b c : Src) (e : Ext) (s : State) : Out :=
  storeExec ⟨a64, a, some b, none, some c, e⟩ redRow h (some (exAop e)) false s

/-! ## Fences (R198) -/

/-- Drop the fences that hold nothing back any more. -/
def Warp.dropFences (w : Warp) : Warp :=
  { w with accs := w.accs.filter (fun a => match a.kind with
      | .fence k => !w.passed a k
      | _ => true) }

/-- `fence` (R198): later accesses wait for the earlier ones of its active threads. A scope is implemented as the widest
one (R303). -/
def execFence (h : Hdr) (sc : Scope) (k : FenceKind) (s : State) : Out :=
  { h, size := 8, chains := false, regs := [], fault := fun _ => none : Form }.execC (fun _ _ => false)
    (fun pc act c => if act.isEmpty then c else c.onL (fun l =>
      let l := l.addAcc (.fence k) 0 pc 0 0 255 ((maskOf act).setWidth 64) 0 0
        (match sc with | .thr => 0 | .wg => 1 | .kln => 2 | .dev => 3 | .fab => 4) .walk
      { l with w := l.w.dropFences })) s

end Sys2Proof.Machine
end

