-- ==== Sys2Proof/Machine/Translate.lean ====
section
/-! DEFINITION. Page tables, the walk and the TLBs (R287 to R292, R296, R353, R360), step 5 of the access path (R420). -/

namespace Sys2Proof.Machine

/-- What an access needs of its page (R287). -/
inductive Need where
  | load | store
  /-- A returning atomic. -/
  | atomic
  /-- A reduction. -/
  | red
  | fetch
deriving DecidableEq, Repr

/-- The permission bit of a page table entry (R289). -/
def Need.bit : Need → Nat
  | .load => 3
  | .store => 4
  | .atomic => 5
  | .red => 5
  | .fetch => 6

/-- A table level (R288): number, low bit of its index, index bits, size of a page it maps. -/
structure Level where
  k : Nat
  shift : Nat
  bits : Nat
  page : Nat

/-- The four levels. -/
def levels : List Level :=
  [⟨0, 39, 18, 0⟩, ⟨1, 26, 13, 2 ^ 26⟩, ⟨2, 21, 5, 2 ^ 21⟩, ⟨3, 12, 9, 2 ^ 12⟩]

/-- What a walk gives. -/
inductive WalkRes where
  /-- The leaf entry and the page size. -/
  | leaf (e : Nat) (size : Nat)
  | fault (cause : Nat)
  /-- A table entry lies in a releasing line: the walk waits (R302). -/
  | wait
deriving DecidableEq, Repr

/-- Is the line of address `a` in the releasing state? -/
def State.isReleasing (s : State) (a : Nat) : Bool := s.releasing.any (fun r => r.line == a / 128)

/-- Bits [51:12] of an entry. -/
def entryPa (e : Nat) : Nat := e / 2 ^ 12 % 2 ^ 40 * 2 ^ 12

/-- Does R296, R346 and R360 assign every byte of a page at `pa`? A page lies in a fabric window exactly when `rmt`. -/
def pageAssigned (pa size : Nat) (rmt : Bool) : Bool :=
  let w := windowOf pa
  if w = 0 then !rmt && decide (pa + size ≤ 0x5000000000)
  else if w = 1 then !rmt
  else decide (16 ≤ w) && rmt && !pa.testBit 39

/-- Does the entry break R289 or R290 at its level, apart from `c64`? -/
def entryBad (l : Level) (e : Nat) : Bool :=
  let leaf := e.testBit 1
  field e 52 4 != 0 || field e 9 3 != 0 || e.testBit 2 || (l.k == 0 && leaf) || (l.k == 3 && !leaf) ||
  (e.testBit 7 && l.k != 3) ||
  (!leaf && (field e 56 8 != 0 || e.testBit 8)) ||
  (!leaf && (windowOf (entryPa e) != 0 && windowOf (entryPa e) != 1 ||
    (windowOf (entryPa e) == 0 && decide (0x5000000000 ≤ entryPa e)))) ||
  (!leaf && l.k == 0 && entryPa e % 65536 != 0)

/-- The walk (R290) from the table at `t`: reads are relaxed device-scope reads under key slot 0 (R354). -/
def State.walkFrom (s : State) (va : Nat) : List Level → Nat → State × WalkRes
  | [], _ => (s, .fault 0x05)
  | l :: ls, t =>
    let a := t + 8 * (va / 2 ^ l.shift % 2 ^ l.bits)
    if s.isReleasing a then (s, .wait)
    else if s.hostDead a then (s, .fault 0x05)
    else
      let (s1, bad) := s.readSectors a 8
      match bad with
      | some c => (s1, .fault c)
      | none =>
        let e := s1.memNat 0 a 8
        -- a crazed table word holds no entry (log 17)
        if (s1.memWords 0 a 8).any (fun w => w.tag) then (s1, .fault 0x05)
        else if !e.testBit 0 then (s1, .fault 0x04)
        else if entryBad l e then (s1, .fault 0x05)
        else if e.testBit 1 then
          let size := if e.testBit 7 then 65536 else l.page
          let base := t + 8 * (va / 2 ^ l.shift % 2 ^ l.bits / 16 * 16)
          let same := !e.testBit 7 || (List.range 16).all (fun i => s1.memNat 0 (base + 8 * i) 8 == e)
          if entryPa e % size != 0 || !same || !pageAssigned (entryPa e) size (e.testBit 8) then (s1, .fault 0x05)
          else (s1, .leaf e size)
        else s1.walkFrom va ls (entryPa e)

/-- May a table lie at `t`: in addressable memory or in the host window, as R289 asks of every table (R17, R296)? -/
def tableAt (t : Nat) : Bool := (windowOf t == 0 && decide (t < 0x5000000000)) || windowOf t == 1

/-- Is it an entry for the page of `va` under the current generation (R291)? -/
def TlbEntry.serves (t : TlbEntry) (s : State) (v : BitVec 8) (va : Nat) : Bool :=
  t.vf == v && t.gen == s.gen v && t.page == va / t.size

/-- The entry that serves an access from `core`: of its first-level TLB, else of its die's last-level TLB (R291). The Stoker and
dispatch have none. -/
def State.tlbFind (s : State) (core : Option Nat) (v : BitVec 8) (va : Nat) : Option TlbEntry :=
  core.bind (fun c => ((Tabs.get s.flt [] c) ++ Tabs.get s.llt [] (c / 32)).find? (fun t => t.serves s v va))

/-- Entries of a first-level TLB, and of a last-level TLB. -/
def fltSize : Nat := 64
/-- Entries of a last-level TLB. -/
def lltSize : Nat := 4096

/-- A TLB of `cap` entries takes an entry; when it is full, the one at `victim` makes room. -/
def tlbAdd (cap victim : Nat) (t : TlbEntry) (l : List TlbEntry) : List TlbEntry :=
  let rest := l.filter (fun x => x != t)
  t :: (if rest.length < cap then rest else rest.eraseIdx (victim % rest.length))

/-- Both TLBs of a core take an entry, each unless its control switches it off (R291, R299). -/
def State.tlbFill (s : State) (core : Option Nat) (t : TlbEntry) : State :=
  match core with
  | none => s
  | some c =>
    let x := s.rd (Reg.xltx (c / 32))
    let victim := Config.tlbVictim s.clock t.vf t.page
    { s with
      flt := if x.getLsbD 0 then s.flt else Tabs.put s.flt c (tlbAdd fltSize victim t (Tabs.get s.flt [] c))
      llt := if x.getLsbD 1 then s.llt else Tabs.put s.llt (c / 32) (tlbAdd lltSize victim t (Tabs.get s.llt [] (c / 32))) }

/-- The TLBs of a die hold nothing while the control switches them off (R299). -/
def State.tlbOff (s : State) (die : Nat) : State :=
  let x := s.rd (Reg.xltx die)
  { s with
    flt := if x.getLsbD 0 then s.flt.filter (fun e => e.1 / 32 != die) else s.flt
    llt := if x.getLsbD 1 then Tabs.del s.llt die else s.llt }

/-- Every entry of a virtual function becomes invalid (R293). -/
def State.tlbClear (s : State) (v : BitVec 8) : State :=
  let keep := fun (l : List TlbEntry) => l.filter (fun t => t.vf != v)
  { s with flt := s.flt.map (fun e => (e.1, keep e.2)), llt := s.llt.map (fun e => (e.1, keep e.2)) }

/-- What a translation gives. -/
inductive Trans where
  /-- Address, generation at the fill, key slot, remote page. -/
  | ok (dpa : Nat) (gen : BitVec 16) (key : BitVec 8) (rmt : Bool)
  | fault (cause : Nat)
  | wait
deriving DecidableEq, Repr

/-- The checks of a leaf (R287, R353, R361, R421): permission, key ownership, atomics to remote and host pages. -/
def State.leafCheck (s : State) (v : BitVec 8) (va : Nat) (need : Need) (e size : Nat) (gen : BitVec 16) : State × Trans :=
  let dpa := entryPa e + va % size
  let key := field e 56 8
  let rmt := e.testBit 8
  if !e.testBit need.bit then (s, .fault 0x05)
  else if key != 0 && !s.ownsKey (s.vfPart v) key then (s.breach (s.vfPart v) 1 dpa, .fault 0x05)
  else if need = .atomic && (rmt || windowOf dpa == 1) then (s, .fault 0x05)
  else if need = .red && windowOf dpa == 1 then (s, .fault 0x05)
  else (s, .ok dpa gen (BitVec.ofNat 8 key) rmt)

/-- Translate for virtual function `v`, for an access from `core` (none: the Stoker or dispatch); `tlb` says whether a TLB entry
serves, when there is one: a TLB may have let it go before it had to (R290, R291). A valid translation fills the TLBs. -/
def State.translate (s : State) (core : Option Nat) (v : BitVec 8) (va : Nat) (need : Need) (tlb : Bool) : State × Trans :=
  let root := s.rd (Reg.vfroot v.toNat)
  let top := field root.toNat 21 31 * 2 ^ 21
  if !root.getLsbD 0 then (s, .fault 0x05)
  else
    match (if tlb then s.tlbFind core v va else none) with
    | some t => (s.tlbFill core t).leafCheck v va need t.leaf.toNat t.size t.gen
    | none =>
      if !tableAt top then (s, .fault 0x05)
      else match s.walkFrom va levels top with
      | (s1, .wait) => (s1, .wait)
      | (s1, .fault c) => (s1, .fault c)
      | (s1, .leaf e size) =>
        let t : TlbEntry := ⟨v, s1.gen v, va / size, size, BitVec.ofNat 64 e⟩
        (s1.tlbFill core t).leafCheck v va need e size t.gen

/-- Generation `a` is older than `b` (R294). -/
def genOlder (a b : BitVec 16) : Bool := let d := (b - a).toNat; decide (1 ≤ d ∧ d ≤ 32767)

end Sys2Proof.Machine
end

