-- ==== Sys2Proof/Machine/Command.lean ====
section
/-! DEFINITION. The geometry of a copy command (R258 to R265, R272), and what it has still to read and to land: its place among
the accesses of its warp (R305, R308). -/

namespace Sys2Proof.Machine

/-! ## The copy extension word (R265) -/

/-- `lseg` of a copy extension word (R265). -/
def cxSeg (e : Ext) : Nat := (e.extractLsb' 61 3).toNat
/-- `fws`. -/
def cxFws (e : Ext) : Nat := (e.extractLsb' 55 6).toNat
/-- Byte offset of the barrier. -/
def cxBar (e : Ext) : Nat := 16 * (e.extractLsb' 37 18).toNat
/-- Byte offset of the scales. -/
def cxSoff (e : Ext) : Nat := 32 * (e.extractLsb' 20 17).toNat
/-- `pm`. -/
def cxPm (e : Ext) : Nat := (e.extractLsb' 16 4).toNat
/-- `gid`. -/
def cxGid (e : Ext) : Nat := (e.extractLsb' 0 8).toNat

/-! ## The geometry of a command -/

/-- Its record. -/
def CpyCmd.lay (k : CpyCmd) : Lay := Lay.parse k.lrec

/-- Its coordinates as integers; a dimension at or above the rank takes 0 (R265). -/
def CpyCmd.cs (k : CpyCmd) : List Int :=
  k.coords.zipIdx.map (fun x => if x.2 < k.lay.rank then x.1.val.toInt else 0)

/-- Sectors of the scratchpad side (R263, R272). -/
def CpyCmd.total (k : CpyCmd) : Nat := if k.op = .lin then k.c.toNat / 32 else k.lay.sectors

/-- Where a nibble of the destination comes from: an offset of the source segment, or a value. -/
def CpyCmd.source (k : CpyCmd) (o h : Nat) : NibSrc :=
  if k.op = .lin then .at_ (k.a.toNat + o) (h == 1) else k.lay.nibble k.cs o h

/-- The sector of the box, data first and scales after them, that is written as the `i`-th: sectors are written in ascending
destination address, so a scale area below the data comes first (R264). -/
def CpyCmd.nth (k : CpyCmd) (i : Nat) : Nat :=
  if k.op = .lin ∨ k.lay.scales = 0 ∨ k.c.toNat ≤ cxSoff k.e then i
  else if 32 * i < k.lay.scales then k.lay.data / 32 + i
  else i - k.lay.scales / 32

/-- Segment offset of the `i`-th sector written. -/
def CpyCmd.dest (k : CpyCmd) (i : Nat) : Nat :=
  let o := 32 * k.nth i
  if k.op = .lin then k.b.toNat + o
  else if o < k.lay.data then k.c.toNat + o
  else cxSoff k.e + (o - k.lay.data)

/-- Source offsets of sector `i` of the box. -/
def sectorOffsets (k : CpyCmd) (i : Nat) : List Nat :=
  ((List.range 64).filterMap (fun n => match k.source (32 * i + n / 2) (n % 2) with
    | .at_ o _ => some o
    | .val _ => none)).eraseDups

/-- The bytes of a record's words. -/
def recBytes (ws : List TWord) : List Byte := ws.flatMap (fun w => leBytes 4 w.val.toNat)

/-! ## What it has still to do (R305, R308) -/

/-- Does the command read global memory: its record, or its source? -/
def CpyCmd.reads (k : CpyCmd) : Bool := k.op != .lin || sgKind k.sgSrc != 1

/-- Sectors of a source in global memory that it has not fetched. -/
def CpyCmd.unfetched (k : CpyCmd) : List Nat :=
  if k.held || sgKind k.sgSrc = 1 then []
  else
    let done := k.recv.foldl (fun m r => max m r.2) 0
    (List.range k.total).filter (fun i => decide (done ≤ i) && (Tabs.find? k.buf (k.nth i)).isNone)

/-- Has it still to read global memory? -/
def CpyCmd.unread (k : CpyCmd) : Bool :=
  match k.stage with
  | .queued => k.reads
  | .shelf => true
  | .running => !k.unfetched.isEmpty

/-- The reads of the warp's commands that have ended are no longer outstanding; fences that waited for them may go. -/
def Lane.endReads (l : Lane) : Lane :=
  { l with w := ({ l.w with accs := l.w.accs.filter (fun a => a.stage != .engine ||
      l.core.cpq.any (fun k => k.wg == l.ref.wg && k.warp == l.ref.warp && k.po == a.po && k.unread)) } : Warp).dropFences }

/-- The virtual address of the command's record, where its segment serves it. -/
def Ctx.recVa (c : Ctx) (k : CpyCmd) : Option Nat :=
  if k.op = .lin then none
  else match c.checkSeg k.sgRec k.thread k.b.toNat 64 [57] [0, 3, 4] true with
    | .ok (.va v) => some v
    | _ => none

/-- The record that the command names, as its words stand now, with no effect of the read; empty where it cannot be read, or is not
known (log 32). -/
def Ctx.peekRec (c : Ctx) (k : CpyCmd) : List Byte :=
  if !k.lrec.isEmpty then k.lrec
  else match c.recVa k with
    | none => []
    | some v => match (c.s.translate none c.l.wg.vf v .load false).2 with
      | .ok a _ key rmt =>
        let ws := c.s.memWords key.toNat a 64
        if rmt || ws.any TWord.tag then [] else recBytes ws
      | _ => []

/-- Byte ranges of virtual addresses that the command has still to read; of one that has not read its record, as the record
stands (log 112). -/
def Ctx.readRanges (c : Ctx) (k : CpyCmd) : List (Nat × Nat) :=
  if !k.unread then []
  else
    let x : CpyCmd := { k with lrec := c.peekRec k }
    (if k.stage = .queued then (c.recVa k).toList.map (fun v => (v, 64)) else []) ++
    (if x.op != .lin && x.lrec.isEmpty then []
     else x.unfetched.flatMap (fun i => (sectorOffsets x (x.nth i)).map (fun o => ((sgBase k.sgSrc + o) % 2 ^ 57, 1))))

/-- Byte ranges of global memory that its lines have still to reach. -/
def Ctx.landRanges (c : Ctx) (k : CpyCmd) : List (Nat × Nat) :=
  if !k.held then []
  else match k.stage with
    | .running => k.lines.flatMap (fun l => l.2.map (fun n => (l.1 + n.off, 1)))
    | _ =>
      if k.op = .lin then [((sgBase k.sgDst + k.b.toNat) % 2 ^ 57, k.c.toNat)]
      else
        let x : CpyCmd := { k with lrec := c.peekRec k }
        if x.lrec.isEmpty then []
        else x.lay.order.flatMap (fun js => (x.lay.xs x.cs js).toList.map (fun xs =>
          ((sgBase k.sgDst + x.lay.nibAt xs / 2) % 2 ^ 57, (x.lay.nib + 1) / 2)))

/-- Ranges of virtual addresses that share a byte. -/
def overlap (a n b k : Nat) : Bool := decide (a < b + k) && decide (b < a + n)

/-- Has a copy command of the warp, earlier than program order `po`, still to read one of the `n` bytes at `va`, or, before a write,
to write one (R305)? A load sees what has landed (R269). -/
def Ctx.copyBefore (c : Ctx) (po va n : Nat) (write : Bool) : Bool :=
  c.l.core.cpq.any (fun k => k.wg == c.l.ref.wg && k.warp == c.l.ref.warp && decide (k.po < po) &&
    (c.readRanges k ++ (if write then c.landRanges k else [])).any (fun r => overlap r.1 r.2 va n))

end Sys2Proof.Machine
end

