-- ==== Sys2Proof/Machine/Region.lean ====
section
/-! DEFINITION. Regions at the lane, opcodes 0x100-0x103 (R205 to R209, R416, R423): opening, the request of a commit,
abort, replay and roll-back (R46, R409). -/

namespace Sys2Proof.Machine

/-! ## What ends with a region -/

/-- Free the lane's craze records that satisfy `f` among those of its warp (R393). -/
def Lane.freeRecords (l : Lane) (f : CrzRec → Bool) : Lane :=
  { l with core := l.core.free (fun r => r.wslot == l.w.wslot && f r) }

/-- A record made inside the region with sequence `q`, by a thread of `m`. -/
def inRegion (q : BitVec 16) (m : BitVec 32) (r : CrzRec) : Bool :=
  r.flags.getLsbD 3 && r.rseq == q && m.getLsbD r.thread

/-- Set the granules that the threads `m` marked to `v`, where they are still marked by the region (R191). -/
def Ctx.granules (c : Ctx) (r : Region) (m : BitVec 32) (v : Gran) : Ctx :=
  (r.pending.filter (fun e => m.getLsbD e.1)).foldl (fun c e =>
    if (c.scr e.2.wg).granule e.2.off = .pending c.l.ref.wg c.l.ref.warp r.tag then
      c.setScr e.2.wg ((c.scr e.2.wg).setGran e.2.off v)
    else c) c

/-- A thread whose `rgn` waited for the close is parked at convergence again (R410). -/
def Thread.reopened (x : Thread) : Thread := if x.st = .parkedEvent .closed then { x with st := .parkedConv false } else x

/-- Close the region `r` (R207, R208): its records are freed, its reservation ends, and a `rgn` that waited for the close
is parked at convergence again (R410). -/
def Lane.closeRegion (l : Lane) (r : Region) : Lane :=
  let l := l.freeRecords (inRegion r.seq (BitVec.allOnes 32))
  { l with w := { l.w with region := none, thr := l.w.thr.map Thread.reopened } }

/-- All 32 threads. -/
abbrev allThreads : BitVec 32 := BitVec.allOnes 32

/-- Threads of `m` that run or wait go on at `pc`. -/
def Lane.sendTo (l : Lane) (m : BitVec 32) (pc : VAddr) : Lane :=
  { l with w := { l.w with thr := (List.range 32).map (fun t =>
      let x : Thread := l.w.th t
      if m.getLsbD t && !x.gone then { x with pc := pc, st := .eligible, derailed := false } else x) } }

/-- Cancel the `cpyst` and `cpylin` commands that land lines in region `tag` of the lane's warp for threads of `m`; their
later lines are discarded (R332; log 20). -/
def Ctx.cancelCopies (c : Ctx) (tag : Nat) (m : BitVec 32) : Ctx :=
  c.onL (fun l => ({ l with core := { l.core with cpq := l.core.cpq.filter (fun k =>
    !(k.wg == l.ref.wg && k.warp == l.ref.warp && k.held && k.member && k.tag == tag && m.getLsbD k.thread)) } } : Lane).endReads)

/-- Abort the region `r` (R208): its held data is discarded and its granules return to full. -/
def Ctx.abortRegion (c : Ctx) (r : Region) : Ctx :=
  let c := (c.granules r allThreads .full).cancelCopies r.tag allThreads
  c.onL (fun l => { l with w := { l.w with items := l.w.items.filter (fun i => i.tag != r.tag || i.sent) } }.closeRegion r)

/-- Roll the members `m` of the open region back (R46, R409): their held data is discarded, their granules return to
full, every member craze and the region craze are cleared, and their records are freed (R393). The program counters are
left to the caller. -/
def Ctx.rollBack (c : Ctx) (r : Region) (m : BitVec 32) : Ctx :=
  let c := (c.granules r m .full).cancelCopies r.tag m
  c.onL (fun l =>
    let l := l.freeRecords (inRegion r.seq m)
    { l with w := { l.w with
        items := l.w.items.filter (fun i => i.tag != r.tag || i.sent || !m.getLsbD i.thread)
        region := some { r with crazes := [], hard := 0, regionCraze := none, first := none, overflow := false, commit := none
                                pending := r.pending.filter (fun e => !m.getLsbD e.1) } } })

/-! ## `rgn` (R205, R423) -/

/-- `res` and `rtgt` of a `rgn` extension word. -/
def rgnRes (e : Ext) : Nat := (e.extractLsb' 32 8).toNat
/-- The recovery target's displacement. -/
def rgnTgt (e : Ext) : Word := e.extractLsb' 0 32

/-- Open a region for the threads `ts`, whose `rgn` stands at `pc` (R205, R42, R393). -/
def Lane.openRegion (l : Lane) (pc : VAddr) (res : Nat) (recovery : VAddr) (ts : BitVec 32) : Lane :=
  let l := l.freeRecords (fun r => !r.flags.getLsbD 3)
  let r : Region := { tag := l.w.nextTag, seq := l.w.rseq + 1, res, openPc := pc + 16, recovery, members := ts,
                      crazes := [], hard := 0, regionCraze := none, first := none, replays := 0, overflow := false, pending := [],
                      commit := none, retryRun := 0, crz14 := false }
  ({ l with w := { l.w with rseq := l.w.rseq + 1, nextTag := l.w.nextTag + 1, region := some r, rgnWait := none } }).sendTo
    ts (pc + 16)

/-- `rgn` (R205, R407, R410, R423). A recovery target that is no multiple of 8 is an unassigned field value (log 21). -/
def execRgn (h : Hdr) (e : Ext) (s : State) : Out :=
  onCtx s (warpLevelC h 16 (fun _ _ => false) (fun pc ts c =>
    let bad := fun (k : Nat) => c.onL (fun l => (l.moveTo ts (pc + 16)).derailAll ts pc k none)
    let res := rgnRes e
    if e.extractLsb' 40 24 != 0 || rgnTgt e % 8 != 0 then bad 0x01
    else if c.l.w.region.isSome then
      if ts.any c.l.w.member then bad 0x01 else c.onL (fun l => l.parkAll ts pc .closed)
    else if c.l.wg.info.sagger < res then bad 0x01
    else if c.l.wg.never res then bad 0x0D
    else if c.canReserve res then c.onL (fun l => l.openRegion pc res (pc + (rgnTgt e).signExtend 57) (maskOf ts))
    else c.onL (fun l => { l with w := { l.w with
        rgnWait := some ⟨pc, res, pc + (rgnTgt e).signExtend 57, maskOf ts⟩ } }.parkAll ts pc .rgn)))

/-! ## `commit`, `abort`, `replay` (R207 to R209, R411, R414, R416) -/

/-- `commit` (R411, R414): released members park until the commit ends; released threads that are no members continue at
once. -/
def execCommit (h : Hdr) (each r keep : Bool) (s : State) : Out :=
  onCtx s (warpLevelC h 8 (fun _ _ => false) (fun pc ts c =>
    let c := c.onL (fun l => l.moveTo ts (pc + 8))
    match c.l.w.region with
    | none => c.onL (fun l => l.derailAll ts pc 0x01 none)
    | some g =>
      let ms := ts.filter c.l.w.member
      if ms.isEmpty then c
      else c.onL (fun l => { l with w := { l.w with
          region := some { g with commit := some ⟨each, r, keep, maskOf ms, pc⟩ } } }.parkAll ms pc
            .commit)))

/-- `abort` (R208, R416): every member continues after it. -/
def execAbort (h : Hdr) (s : State) : Out :=
  onCtx s (warpLevelC h 8 (fun _ _ => false) (fun pc ts c =>
    let c := c.onL (fun l => l.moveTo ts (pc + 8))
    match c.l.w.region with
    | none => c.onL (fun l => l.derailAll ts pc 0x01 none)
    | some g => (c.abortRegion g).onL (fun l => l.sendTo g.members (pc + 8))))

/-- `replay` (R209, R416): every member continues at the region-open address; the replay count stays. -/
def execReplay (h : Hdr) (s : State) : Out :=
  onCtx s (warpLevelC h 8 (fun _ _ => false) (fun pc ts c =>
    let c := c.onL (fun l => l.moveTo ts (pc + 8))
    match c.l.w.region with
    | none => c.onL (fun l => l.derailAll ts pc 0x01 none)
    | some g => (c.rollBack g g.members).onL (fun l => l.sendTo g.members g.openPc)))

end Sys2Proof.Machine
end

