-- ==== Sys2Proof/Machine/Sync.lean ====
section
/-! DEFINITION. Waiting on a word (`waiteq`, R172, R173), warp barriers (R199 to R201, R437, R438) and the instructions of
transaction barriers (R202 to R204). -/

namespace Sys2Proof.Machine

/-! ## `waiteq` (R172, R173) -/

/-- Scope of a `waiteq` extension word. -/
def wqScope (e : Ext) : Nat := (e.extractLsb' 53 3).toNat
/-- Segment register. -/
def wqSeg (e : Ext) : Nat := (e.extractLsb' 50 3).toNat
/-- Byte offset. -/
def wqOff (e : Ext) : DWord := (e.extractLsb' 32 16).signExtend 64
/-- Timeout; 0 is none. -/
def wqTmo (e : Ext) : Nat := (e.extractLsb' 0 32).toNat

/-- Deadline of a park that begins now. -/
def deadlineOf (now tmo : Nat) : Option Nat := if tmo = 0 then none else some (now + tmo)

/-- List a watched scratchpad word. -/
def Scr.watchWord (x : Scr) (k : Nat) : Scr :=
  if (Tabs.find? x.watch k).isSome then x else { x with watch := Tabs.put x.watch k 0 }

/-- One thread of `waiteq`: a crazed guard derails (R395); crazed A or B, and every fault, craze `dst`. -/
def waiteqOne (h : Hdr) (dst : Nat) (a b : Src) (e : Ext) (pc : VAddr) (c : Ctx) (t : Nat) : Ctx :=
  match (c.l.w.th t).predCraze h.guard with
  | some p => c.onL (fun l => l.derail t p)
  | none =>
    let (l, rs) := c.l.readAll t pc 0 (dst == 255) [(a, .i32), (b, .i32)] none
    let c : Ctx := { c with l := l }
    let va := rs.getD 0 (0, none)
    let vb := rs.getD 1 (0, none)
    let cmp : Word := vb.1.setWidth 32
    let o := (((va.1.setWidth 32).setWidth 64) + wqOff e).toNat
    match crazeOf [va.2, vb.2] with
    | some p => c.onL (fun l => l.setTh t ((l.w.th t).setWords dst [⟨p, true⟩]))
    | none =>
      match c.check (wqSeg e) t o 4 [57] [0, 1, 2, 3, 4] true with
      | .fault k x => c.onL (fun l => l.craze k 0 t pc (some x) dst 1)
      | .ok (.va v) =>
        let id := c.l.w.nextId
        c.onL (fun l => (l.addAcc .waiteq t pc v 4 dst (BitVec.ofNat 64 (wqTmo e)) (cmp.setWidth 64) 0 (wqScope e)
          .walk).parkAt t pc (.parkedWord ⟨none, 0, 0, none, dst, some id, v, wqScope e, false⟩))
      | .ok (.scr p) =>
        let (c, ws) := c.readScr t pc p 4
        let w := ws.getD 0 ⟨0, false⟩
        let c := c.onL Lane.tick
        if w.tag || w.val != cmp then c.onL (fun l => l.setTh t ((l.w.th t).setWords dst [w]))
        else
          let c := c.setScr p.wg ((c.scr p.wg).watchWord (p.off / 4))
          let ver := Tabs.get (c.scr p.wg).watch 0 (p.off / 4)
          c.onL (fun l => l.parkAt t pc
            (.parkedWord ⟨some p, 0, ver, deadlineOf c.s.clock (wqTmo e), dst, none, 0, wqScope e, false⟩))

/-- `waiteq` (R172, R173). A latch or an inline floating-point constant as A is read as in any other word: R172 names a register and an
inline integer alone (DESIGN CHOICE, log 116). -/
def execWaiteq (h : Hdr) (dst : BitVec 8) (a b : Src) (e : Ext) (s : State) : Out :=
  { h, size := 16, chains := false, regs := (ADst.vec dst false).regs ++ srcRegs 1 a ++ srcRegs 1 b
    fault := fun l => illegal (e.extractLsb' 56 8 != 0 || e.extractLsb' 48 2 != 0 || decide (4 < wqScope e) ||
      !vecOk l.wg.info.nregs dst.toNat 1 || !srcOk l.wg.info.nregs 1 a || !srcOk l.wg.info.nregs 1 b) : Form }.execC
    (fun c act => c.l.w.holdsAt act false false)
    (fun pc act c => act.foldl (waiteqOne h dst.toNat a b e pc) c) s

/-! ## `bar` and `kbar` (R200, R201) -/

/-- The warps of a workgroup that have exited. -/
def Wg.exitedWarps (g : Wg) : List Nat := (List.range g.warps.length).filter (fun i => (g.warps[i]?).any Warp.exited)

/-- Arrivals of an episode: those made, and the warps that exited since its first arrival without arriving (R200, R438;
log 26). -/
def Wg.arrivals (g : Wg) (e : BarId) : Nat :=
  e.came.length + (g.exitedWarps.filter (fun i => !e.gone.contains i && !e.came.contains i)).length

/-- The episode that an arrival at id `id` joins: the one in progress, or the next one, for which `n` gives the expected count;
the warps of a complete one that still wait are freed (R200, R438). -/
def Wg.episode (g : Wg) (id : Nat) (n : Option Nat) : BarId :=
  let next := fun (freed : List (Nat × BitVec 32)) =>
    (⟨n.getD (g.warps.length - g.exitedWarps.length), [], g.exitedWarps, [], freed⟩ : BarId)
  match Tabs.find? g.bars id with
  | some x => if g.arrivals x < x.expect then x else next (x.freed ++ x.waiting)
  | none => next []

/-- The lane's workgroup with its warp in place. -/
def Lane.whole (l : Lane) : Wg := { l.wg with warps := l.wg.warps.set l.ref.warp l.w }

/-- `bar` (R200, R437, R438): a release, so it waits until every access of the warp outside its open region is performed. -/
def execBar (h : Hdr) (id : BitVec 4) (arrive : Bool) (cnt : Option Src) (s : State) : Out :=
  onCtx s (warpLevelC h 8 (fun c _ => !c.l.w.quiet || !c.l.w.ready (cnt.toList.flatMap (srcRegs 1))) (fun pc ts c =>
    let c := c.onL (fun l => l.moveTo ts (pc + 8))
    let t0 := ts.headD 0
    if cnt.any (fun x => !srcOk c.l.wg.info.nregs 1 x) then c.onL (fun l => l.derailAll ts pc 0x01 none)
    else
      let (c, n, crz) : Ctx × Option Nat × Option Word := match cnt with
        | none => (c, none, none)
        | some x =>
          let (l, v, p) := c.l.readOne t0 pc 0 .i32 false x
          ({ c with l := l }, some v.toNat, p)
      match crz with
      | some p => c.onL (fun l => l.derailWith ts p)
      | none =>
        if n.any (fun k => k == 0 || decide (32 < k)) then c.onL (fun l => l.derailAll ts pc 0x01 none)
        else
          let ep := c.l.whole.episode id.toNat n
          let ep := { ep with came := ep.came ++ [c.l.ref.warp]
                              waiting := if arrive then ep.waiting else ep.waiting ++ [(c.l.ref.warp, maskOf ts)] }
          let c := c.onL (fun l => { l with wg := { l.wg with bars := Tabs.put l.wg.bars id.toNat ep } })
          if arrive then c else c.onL (fun l => l.parkAll ts pc (.bar id.toNat))))

/-- `kbar` (R201): outside a kiln group it derails with cause 0x01 (R407). -/
def execKbar (h : Hdr) (s : State) : Out :=
  onCtx s (warpLevelC h 8 (fun c _ => !c.l.w.quiet) (fun pc ts c =>
    if c.l.wg.info.kg = 0 then c.onL (fun l => (l.moveTo ts (pc + 8)).derailAll ts pc 0x01 none)
    else c.onL (fun l => { l with wg := { l.wg with kbar := l.wg.kbar ++ [(l.ref.warp, maskOf ts)] } }.parkAll ts pc
      .kbar)))

/-! ## Transaction barriers (R202 to R204) -/

/-- A transaction-barrier instruction. -/
structure TbIns where
  h : Hdr
  e : Ext
  a : Src
  b : Src
  c : Option Src
  kinds : List Nat
  perms : List Nat
  /-- A release: it waits for every earlier access of the warp (R204). -/
  rel : Bool
  dst : List (Nat × Nat)
  /-- A `dst` field it may not hold (R169). -/
  badDst : Bool

/-- Does it wait (R198, R204)? -/
def TbIns.waits (i : TbIns) (c : Ctx) (act : List Nat) : Bool :=
  c.l.w.holdsAt act true false || (i.rel && !act.isEmpty && !c.l.w.quiet)

/-- Its form. -/
def TbIns.form (i : TbIns) : Form :=
  { h := i.h, size := 16, chains := false
    regs := i.dst ++ srcRegs 1 i.a ++ srcRegs 1 i.b ++ (i.c.toList.flatMap (srcRegs 1))
    fault := fun l => illegal (i.e.extractLsb' 32 29 != 0 || i.badDst || !(i.dst.all (fun p => vecOk l.wg.info.nregs p.1 1)) ||
      !([i.a, i.b] ++ i.c.toList).all (srcOk l.wg.info.nregs 1)) }

/-- Operands of thread `t`: offset, B, C, and the craze of its sources. -/
def TbIns.args (i : TbIns) (pc : VAddr) (l : Lane) (t : Nat) : Lane × Nat × Nat × Nat × Option Word :=
  let (l, rs) := l.readAll t pc 0 false (([i.a, i.b] ++ i.c.toList).map (fun x => (x, OKind.i32))) none
  let v := fun (k : Nat) => (rs.getD k (0, none)).1
  (l, ((v 0) + exOff i.e).toNat, (v 1).toNat, (v 2).toNat, crazeOf (rs.map Prod.snd))

/-- Run a form whose operands come once for the warp, from its lowest active thread: `crz` acts on a crazed operand or
guard, `go` on a sound barrier. -/
def TbIns.once (i : TbIns) (crz : Word → List Nat → Lane → Lane)
    (go : VAddr → List Nat → ScrLoc → Nat → Nat → Ctx → Ctx) (s : State) : Out :=
  i.form.execC i.waits
    (fun pc act c => match act with
      | [] => c
      | t :: _ =>
        let (l, o, b, k, p) := i.args pc c.l t
        let c : Ctx := { c with l := l }
        match crazeOf (p :: act.map (fun t => (c.l.w.th t).predCraze i.h.guard)) with
        | some p => c.onL (crz p act)
        | none =>
          match c.check (exSeg i.e) t o 16 i.perms i.kinds true with
          | .ok (.scr x) => go pc act x b k (c.scrubScr t pc x.wg (wordsOf x.off 16))
          | .ok (.va _) => c
          | .fault q o => c.onL (fun l => l.derailAll act pc q (some o))) s

/-- Update the barrier at `x`. -/
def Ctx.updBar (c : Ctx) (x : ScrLoc) (f : TBar → TBar) : Ctx :=
  c.setScr x.wg ((c.scr x.wg).setBar x.off (f ((c.scr x.wg).bar x.off)))

/-- A crazed operand derails the active set (R407). -/
def tbDerail (p : Word) (act : List Nat) (l : Lane) : Lane := l.derailWith act p

/-- `tbinit` (R203, R437). -/
def execTbinit (h : Hdr) (a b c : Src) (e : Ext) (s : State) : Out :=
  TbIns.once ⟨h, e, a, b, some c, [1], [59], false, [], false⟩ tbDerail
    (fun pc act x n k c => if n = 0 ∨ 2 ^ 20 ≤ n then c.onL (fun l => l.derailAll act pc 0x01 none)
      else c.updBar x (fun _ => TBar.init n k)) s

/-- The arrival of `tbarrive`: the phase before the update goes to the threads `ts`. -/
def Ctx.arrive (c : Ctx) (x : ScrLoc) (n dst : Nat) (ts : List Nat) : Ctx :=
  let ph := ((c.scr x.wg).bar x.off).phase
  (c.updBar x (fun t => t.arrive n)).onL (fun l =>
    ts.foldl (fun l t => l.setTh t ((l.w.th t).setWords dst [⟨BitVec.ofNat 32 ph, false⟩])) l)

/-- `tbarrive` (R203): under `.thr` each active thread makes its own update, and its own faults (R399). -/
def execTbarrive (h : Hdr) (thr : Bool) (dst : BitVec 8) (a b : Src) (e : Ext) (s : State) : Out :=
  let i : TbIns := ⟨h, e, a, b, none, [1, 2], if dst = 255 then [59] else [59, 57], true, (ADst.vec dst false).regs, false⟩
  if !thr then i.once tbDerail (fun _ act x n _ c => c.arrive x n dst.toNat act) s
  else i.form.execC i.waits
    (fun pc act c => act.foldl (fun c t =>
      let (l, o, b, _, p) := i.args pc c.l t
      let c : Ctx := { c with l := l }
      match crazeOf [p, (c.l.w.th t).predCraze h.guard] with
      | some p => c.onL (fun l => l.derail t p)
      | none =>
        match c.check (exSeg e) t o 16 i.perms i.kinds true with
        | .ok (.scr x) => (c.scrubScr t pc x.wg (wordsOf x.off 16)).arrive x b dst.toNat [t]
        | .ok (.va _) => c
        | .fault q o =>
          let (c, p) := c.originate q 0 t pc (some o)
          c.onL (fun l => l.derail t p)) c) s

/-- `tbexpect` (R203). -/
def execTbexpect (h : Hdr) (arr : Bool) (a b : Src) (e : Ext) (s : State) : Out :=
  TbIns.once ⟨h, e, a, b, none, [1, 2], [59], arr, [], false⟩ tbDerail
    (fun _ _ x n _ c => c.updBar x (fun t => t.expect n arr)) s

/-- `tbwait` (R203, R204): the active threads park until phase q has completed. -/
def execTbwait (h : Hdr) (a b : Src) (e : Ext) (s : State) : Out :=
  TbIns.once ⟨h, e, a, b, none, [1], [57], false, [], false⟩ tbDerail
    (fun pc act x n _ c => if ((c.scr x.wg).bar x.off).done n then c
      else c.onL (fun l => l.parkAll act pc (.tbwait x (BitVec.ofNat 4 n)))) s

/-- `tbtest` (R203, R204): a crazed operand crazes the predicates of the active threads, a crazed guard that of its own thread
(R395, R407); with no sound thread there is no access. -/
def execTbtest (h : Hdr) (dst : BitVec 8) (a b : Src) (e : Ext) (s : State) : Out :=
  let k : BitVec 3 := dst.extractLsb' 0 3
  let i : TbIns := ⟨h, e, a, b, none, [1], [57], false, [], dst.extractLsb' 3 5 != 0⟩
  let put := fun (v : Bool) (p : Option Word) (act : List Nat) (l : Lane) => act.foldl (fun l t =>
    l.setTh t ((l.w.th t).setPred k v (crazeOf [p, (l.w.th t).predCraze h.guard]))) l
  i.form.execC i.waits (fun pc act c => match act with
    | [] => c
    | t :: _ =>
      let (l, o, n, _, p) := i.args pc c.l t
      let c : Ctx := { c with l := l }
      if p.isSome || act.all (fun t => (l.w.th t).predTag h.guard) then c.onL (put false p act)
      else match c.check (exSeg e) t o 16 i.perms i.kinds true with
        | .ok (.scr x) =>
          let c := c.scrubScr t pc x.wg (wordsOf x.off 16)
          c.onL (put (((c.scr x.wg).bar x.off).done n) none act)
        | .ok (.va _) => c
        | .fault q o => c.onL (fun l => l.derailAll act pc q (some o))) s

end Sys2Proof.Machine
end

