-- ==== Sys2Proof/Machine/MemPath.lean ====
section
/-! DEFINITION. The memory path (R420, R424 to R428): the end of a walk, the home slice, the return of data, the push of
held items, and instruction fetch (R406). -/

namespace Sys2Proof.Machine

/-- An event that concerns a warp: `f` acts on its lane; afterwards convergence may release threads (R37). -/
def onWarp (s : State) (r : WRef) (f : Ctx → Ctx) : Out :=
  .next (s.atWarp r (fun c => (f c).onL (fun l => if l.wg.frozen then l else { l with w := l.w.converge })))

/-- A wake of a warp: at a stop point nothing wakes (R330). -/
def onWake (s : State) (r : WRef) (f : Ctx → Ctx) : Out := onWarp s r (fun c => if c.l.wg.frozen then c else f c)

/-! ## Held bytes -/

/-- The ranges of device addresses whose bytes an item holds: its cells, or a reduction's location. -/
def Item.offsets (i : Item) : List Nat :=
  match i.kind with
  | .store => i.cells.map WCell.off
  | .red .. => List.range i.n

/-- Does the item hold a byte of `n` bytes at device address `a`? -/
def Item.meets (i : Item) (a n : Nat) : Bool := i.offsets.any (fun o => decide (a ≤ i.dpa + o ∧ i.dpa + o < a + n))

/-- Is the item in a held entry of its home slice? -/
def Item.atHome (i : Item) : Bool := i.stage == .held

/-- The held stores of the open regions of other warps than `r` and than the warps of workgroup `skip` (R424). Held reductions
are no held bytes: regions that reduce into one word do not race (R300, R381; log 38). -/
def State.warpHeld (s : State) (r : WRef) (skip : Option Nat) (rmt : Bool) : List Item :=
  s.wgs.flatMap (fun e => if some e.1 = skip then [] else e.2.warps.zipIdx.flatMap (fun p =>
    if e.1 = r.wg ∧ p.2 = r.warp then [] else
      let tags := (p.1.region.map Region.tag).toList ++ p.1.rels.map Release.tag
      p.1.items.filter (fun i => tags.contains i.tag && i.kind == .store && i.atHome && i.rmt == rmt)))

/-- The held stores of the open regions of remote nodes that satisfy `f` (R361, R424). -/
def State.remHeld (s : State) (f : RemItem → Bool) : List Item :=
  ((s.remote.filter (fun r => r.racing && f r)).map RemItem.item).filter (fun i => i.kind == .store)

/-- The held stores here that an access of warp `r` races with. -/
def State.otherHeld (s : State) (r : WRef) (skip : Option Nat) : List Item := s.warpHeld r skip false ++ s.remHeld (fun _ => true)

/-- The leader whose held bytes make no race for the lane's accesses (R476). -/
def Lane.leader (l : Lane) : Option Nat := match l.wg.pair with
  | some (g, false) => some g
  | _ => none

/-- Does an access to `n` bytes at device address `a` race (R424)? -/
def Ctx.races (c : Ctx) (a n : Nat) : Bool := (c.s.otherHeld c.l.ref c.l.leader).any (fun i => i.meets a n)

/-- Insert an item by its place in program order. -/
def insertPo (i : Item) : List Item → List Item
  | [] => [i]
  | j :: js => if i.po < j.po then i :: j :: js else j :: insertPo i js

/-- Items in program order. -/
def inOrder (its : List Item) : List Item := its.foldl (fun l i => insertPo i l) []

/-- The bytes the warp itself holds in program order before `po`, applied to the words of `n` bytes at virtual address
`va` and device address `dpa` (R188): stores only (R196), and copy lines that have landed (R269). -/
def Warp.forward (w : Warp) (po va dpa n : Nat) (ws : List TWord) : List TWord :=
  let items := inOrder (w.items.filter (fun i => decide (i.po < po) && i.kind == .store && i.stage != .refused &&
    !(i.copy && (i.stage == .sagger || i.stage == .deferred))))
  items.foldl (fun ws i =>
    let base := if i.stage = .walk then dpa + i.va - va else i.dpa
    let cs := i.cells.map (fun c => (base + c.off, c))
    ws.zipIdx.map (fun e =>
      let k := dpa / 4 + e.2
      let mine := cs.filter (fun c => c.1 / 4 == k && decide (dpa ≤ c.1 ∧ c.1 < dpa + n) &&
        (i.stage != .walk || decide (va ≤ i.va + c.2.off)))
      if mine.isEmpty then e.1 else mergeWord e.1 (mine.map (fun c => (c.1 % 4, c.2.b, c.2.crz))))) ws

/-! ## Sagger space of a region (R206, R269) -/

/-- Lines the item touches. -/
def Item.lines (i : Item) : List Nat := (i.offsets.map (fun o => (i.dpa + o) / 128)).eraseDups

/-- Bytes of sagger space the items of `tag` take, those past their walk (R206, R269). -/
def Warp.saggerUse (w : Warp) (tag : Nat) : Nat :=
  let its := w.items.filter (fun i => i.tag == tag && i.stage != .walk)
  let secs := (its.filter (fun i => i.kind == .store && !i.copy)).flatMap (fun i =>
    i.offsets.map (fun o => (i.dpa + o) / 32))
  64 * secs.eraseDups.length + 16 * (its.filter (fun i => i.kind != .store)).length +
  8 * ((its.filter Item.copy).flatMap Item.lines).eraseDups.length

/-- Held lines of a warp's region or implicit region `tag`. -/
def Warp.heldLines (w : Warp) (tag : Nat) : Nat :=
  ((w.items.filter (fun i => i.tag == tag && i.stage != .walk)).flatMap Item.lines).eraseDups.length

/-- Would the region exceed its reservation or its held-line quota by itself (R422)? -/
def Lane.overflows (l : Lane) (r : Region) : Bool :=
  decide (512 * r.res < l.w.saggerUse r.tag) || l.wg.quotas.any (fun q => decide (q.2.2 < l.w.heldLines r.tag))

/-! ## The end of a walk -/

/-- Is an access of a lower thread of the same instruction still to be performed? A fault waits for it: records are taken in
ascending thread order (R391). -/
def Warp.lowerOut (w : Warp) (a : Acc) : Bool :=
  w.accs.any (fun x => !x.performed && x.pc == a.pc && x.issued == a.issued && decide (x.thread < a.thread))

/-- Give an access of the lane its outcome: the words for its destination. A `waiteq` continues after itself. -/
def Lane.finishAcc (l : Lane) (a : Acc) (f : Lane → Lane) : Lane :=
  let l := f { l with w := { l.w with accs := l.w.accs.filter (fun x => x.id != a.id) } }
  let l := if a.kind = .waiteq then l.sendTo (BitVec.twoPow 32 a.thread) (a.pc + 16) else l
  { l with w := l.w.dropFences }

/-- Change one outstanding access. -/
def Lane.setAcc (l : Lane) (a : Acc) : Lane :=
  { l with w := { l.w with accs := l.w.accs.map (fun x : Acc => if x.id = a.id then a else x) } }

/-- A fault of an outstanding access (R420): its destination is crazed, `unit` 1. -/
def Lane.faultAcc (l : Lane) (a : Acc) (cause : Nat) : Lane :=
  l.finishAcc a (fun l => l.craze cause 1 a.thread a.pc (some (BitVec.ofNat 57 a.va)) a.dst (regsOf a.n))

/-- The fault of an access that the checks of `c` found; `c0` is the state before them, which stays while the fault waits. -/
def Ctx.faultOf (c0 c : Ctx) (a : Acc) (cause : Nat) : Ctx :=
  if c0.l.w.lowerOut a then c0 else c.onL (fun l => l.faultAcc a cause)

/-- What an access needs of its page. -/
def AccKind.need : AccKind → Need
  | .atom _ | .cas => .atomic
  | _ => .load

/-- Replace an item of the warp. -/
def Lane.setItem (l : Lane) (i : Item) : Lane :=
  { l with w := { l.w with items := l.w.items.map (fun x => if x.id = i.id then i else x) } }

/-- Drop an item of the warp. -/
def Lane.dropItem (l : Lane) (i : Item) : Lane :=
  { l with w := { l.w with items := l.w.items.filter (fun x => x.id != i.id) } }

/-- Is the item one of the warp's open region? -/
def Lane.explicit (l : Lane) (i : Item) : Option Region := match l.w.region with
  | some r => if r.tag = i.tag then some r else none
  | none => none

/-- The craze of an item's data. -/
def Item.dataCraze (i : Item) : Option Word :=
  match i.kind with
  | .store => crazeOf (i.cells.map WCell.crz)
  | .red _ _ _ crz => crz

/-- The item is held: crazed data sets its member's craze (R408). -/
def Lane.holdItem (l : Lane) (i : Item) : Lane :=
  match (l.explicit i).isSome, i.dataCraze with
  | true, some p => (l.setItem i).memberCraze i.thread p false i.issued
  | _, _ => l.setItem i

/-- A held item's walk ends (R408, R419, R422). -/
def walkItem (tlb : Bool) (i : Item) (c : Ctx) : Ctx :=
  let va : VAddr := BitVec.ofNat 57 i.va
  if c.l.w.items.any (fun x => x.tag == i.tag && x.stage == .walk && decide (x.po < i.po)) then c
  else
    match c.l.explicit i with
    | some r =>
      if r.overflow then c.onL (fun l => (l.dropItem i).memberFault i.named 0x0D 5 i.pc (some va) i.issued)
      else
        match c.s.translate (some c.l.wg.core) c.l.wg.vf i.va (if i.kind = .store then .store else .red) tlb with
        | (_, .wait) => c
        | (s, .fault k) => { c with s := s }.onL (fun l => (l.dropItem i).memberFault i.named k 1 i.pc (some va) i.issued)
        | (s, .ok dpa gen key rmt) =>
          let i1 : Item := { i with stage := .sagger, dpa, gen, key, rmt }
          let l := c.l.setItem i1
          if l.overflows r then
            { c with s := s }.onL (fun l0 =>
              let l1 : Lane := { l0 with w := { l0.w with region := some { r with overflow := true } } }
              (l1.dropItem i).memberFault i.named 0x0D 5 i.pc (some va) i.issued)
          else ⟨s, c.l.holdItem i1⟩
    | none =>
      match c.s.translate (some c.l.wg.core) c.l.wg.vf i.va (if i.kind = .store then .store else .red) tlb with
      | (_, .wait) => c
      | (s, .fault k) => { c with s := s }.onL (fun l =>
          let (l, p) := (l.dropItem i).originate k 1 i.thread i.pc (some va) false
          l.derail i.thread p)
      | (s, .ok dpa gen key rmt) => ⟨s, c.l.setItem { i with stage := .sagger, dpa, gen, key, rmt }⟩

/-- TLB_WALK_COMPLETE (R287 to R292, R420 step 5): of an outstanding access or of a held item. -/
def execTlbWalkComplete (w : WRef) (acc : Nat) (tlb : Bool) (s : State) : Out :=
  onWarp s w (fun c =>
    match c.l.w.accs.find? (fun a => a.id == acc && a.stage == .walk && !a.performed), c.l.w.items.find? (fun i => i.id == acc && i.stage == .walk) with
    | some a, _ =>
      match c.s.translate (some c.l.wg.core) c.l.wg.vf a.va a.kind.need tlb with
      | (_, .wait) => c
      | (s, .fault k) => c.faultOf { c with s := s } a k
      | (s, .ok dpa gen key rmt) => { c with s := s }.onL (fun l => l.setAcc { a with stage := .home, dpa, gen, key, rmt })
    | none, some i => walkItem tlb i c
    | none, none => c)

/-! ## The home slice -/

/-- Must the access wait for an earlier one (R188, R198, R305)? -/
def Warp.accWaits (w : Warp) (a : Acc) : Bool :=
  w.accs.any (fun x => !x.performed && decide (x.po < a.po) && overlap x.va x.n a.va a.n) ||
  w.acquiring a.thread a.po || w.fenced a.po (a.kind.need == .atomic) ||
  (decide (2 ≤ a.ord) && w.before a.thread a.po)

/-- Is any line of `n` bytes at `a` in the releasing state (R302)? -/
def State.releasingAny (s : State) (a n : Nat) : Bool := s.isReleasing a || s.isReleasing (a + n - 1)

/-- Steps 6, 7 and 9 of R420 for a local access under generation `gen`; `race` is step 8. -/
def Ctx.homeChecks (c : Ctx) (a n : Nat) (gen : BitVec 16) (race : Bool) : Ctx × Option Nat :=
  if genOlder gen (c.s.gen c.l.wg.vf) then (c, some 0x06)
  else if c.s.hostDead a then (c, some 0x05)
  else if hostBase ≤ a then (c, none)
  else if !c.s.colourOk c.l.wg.part (colourOf a) then ({ c with s := c.s.breach c.l.wg.part 0 a }, some 0x05)
  else if c.s.quarantined a then (c, some 0x0B)
  else if race then (c, some 0x0C)
  else
    let (s, k) := c.s.readSectors a n
    ({ c with s := s }, k)

/-- List a watched memory word. -/
def Memory.watchWord (m : Memory) (k : Nat) : Memory :=
  if (Tabs.find? m.watch k).isSome then m else { m with watch := Tabs.put m.watch k 0 }

/-- The access performs on the words `ws` it meets at home. -/
def Ctx.perform (c : Ctx) (a : Acc) (ws : List TWord) : Ctx :=
  match a.kind with
  | .load _ => c.onL (fun l => l.setAcc { a with stage := .done (l.w.forward a.po a.va a.dpa a.n ws) })
  | .fence _ => c
  | .waiteq =>
    let ws := c.l.w.forward a.po a.va a.dpa a.n ws
    let park := fun (ver : Nat) (c : Ctx) =>
      let st : TState := .parkedWord ⟨none, a.dpa, ver, deadlineOf c.s.clock a.x.toNat, a.dst, none, a.va, a.scope, a.rmt⟩
      c.onL (fun l =>
        let l := l.setTh a.thread { l.w.th a.thread with st := st }
        { l with w := { l.w with accs := l.w.accs.filter (fun x => x.id != a.id) } })
    if ws.any (fun x => x.tag || x.val != a.cmp.setWidth 32) then c.onL (fun l => l.setAcc { a with stage := .done ws })
    else if a.rmt then park 0 c
    else
      let m := c.s.mem.watchWord (a.dpa / 4)
      let ver := Tabs.get m.watch 0 (a.dpa / 4)
      park ver { c with s := { c.s with mem := m } }
  | .atom _ | .cas =>
    let op := match a.kind with
      | .atom k => k
      | _ => 255
    let (new, old) := atomStep op a.n a.x.toNat a.cmp.toNat ws
    let c := match new with
      | some v => { c with s := c.s.memWrite a.key.toNat a.dpa (cellsOf 0 a.n v none) }
      | none => c
    c.onL (fun l =>
      let l := l.setAcc { a with stage := .done old }
      if l.wg.pair.any Prod.snd then
        { l with wg := { l.wg with pairQ := l.wg.pairQ ++ [⟨l.ref.warp, a.va, op, a.n, old⟩] } }
      else l)

/-- A trailer's returning atomic takes the leader's queued old value (R476): the first one of its warp (log 24). A
mismatch gives a new craze of cause 0x14; the pair's fate is that of a signature mismatch (R481). -/
def Ctx.trailerAtom (c : Ctx) (a : Acc) (lead : Nat) : Ctx :=
  match c.s.wg? lead with
  | none => c
  | some g =>
    match g.pairQ.find? (fun q => q.warp == c.l.ref.warp) with
    | none => c
    | some q =>
      let op := match a.kind with
        | .atom k => k
        | _ => 255
      if q.va = a.va ∧ q.op = op ∧ q.n = a.n then
        { c with s := c.s.setWg lead { g with pairQ := g.pairQ.erase q } }.onL (fun l => l.setAcc { a with stage := .done q.words })
      else if c.l.w.lowerOut a then c
      else { c with s := { c.s with mismatches := c.s.mismatches ++ [c.l.ref.wg] } }.onL (fun l =>
        l.finishAcc a (fun l => l.craze 0x14 1 a.thread a.pc (some (BitVec.ofNat 57 a.va)) a.dst (regsOf a.n)))

/-- The verdicts that a peer's home slice may give an access (R420, R424): no other one has an effect. -/
def farVerdict (v : Nat) : Bool := v == 0x05 || v == 0x06 || v == 0x09 || v == 0x0A || v == 0x0B || v == 0x0C

/-- HOME_SLICE_ACCESS (R420 steps 6 to 9, R304, R305): the access is performed, or faults, or waits for a line in the
releasing state. A remote page is served by the peer, whose `answer` is the words or the cause of a fault. -/
def execHomeSliceAccess (w : WRef) (acc : Nat) (answer : PeerAnswer) (s : State) : Out :=
  onWarp s w (fun c =>
    match c.l.w.accs.find? (fun a => a.id == acc && a.stage == .home && !a.performed) with
    | none => c
    | some a =>
      if c.l.w.accWaits a || c.copyBefore a.po a.va a.n (a.kind.need == .atomic) then c
      else if a.kind.need = .atomic && c.l.leader.isSome then c.trailerAtom a (c.l.leader.getD 0)
      else if a.rmt then
        match c.s.wayTo a.dpa with
        | .dead => c.faultOf c a 0x05
        | .waits => c
        | .port _ => match answer with
          | .fault k => if farVerdict k.toNat then c.faultOf c a k.toNat else c
          | .words ws => if ws.length = (wordsOf a.dpa a.n).length then c.perform a ws else c
      else if c.s.releasingAny a.dpa a.n then c
      else
        match c.homeChecks a.dpa a.n a.gen (c.races a.dpa a.n) with
        | (d, some k) => c.faultOf d a k
        | (c, none) => c.perform a (c.s.memWords a.key.toNat a.dpa a.n))

/-- LOAD_DATA_RETURN (R185, R189, R197): the data reaches the registers. -/
def execLoadDataReturn (w : WRef) (acc : Nat) (s : State) : Out :=
  onWarp s w (fun c =>
    match c.l.w.accs.find? (fun a => a.id == acc) with
    | none => c
    | some a => match a.stage with
      | .done ws =>
        let sx := match a.kind with
          | .load b => b
          | _ => false
        c.onL (fun l => l.finishAcc a (fun l =>
          l.setTh a.thread ((l.w.th a.thread).setWords a.dst (loadWords ws a.va a.n sx))))
      | _ => c)

/-! ## Pushes of held items (R300, R301, R424, R428) -/

/-- The item with every byte crazed by `p` (R424). -/
def Item.crazed (i : Item) (p : Word) : Item :=
  match i.kind with
  | .store => { i with cells := i.cells.map (fun c => { c with crz := some p }) }
  | .red op n x _ => { i with kind := .red op n x (some p) }

/-- Where a line is held and released: its home slice, or, for the host window, whose writes leave in one order, 128 (R346). -/
def homeOf (a : Nat) : Nat := if windowOf a = 1 then 128 else sliceOf a

/-- Is the line in the releasing state by the region `tag` of warp `w`? -/
def RelLine.isOf (r : RelLine) (w : WRef) (tag : Nat) : Bool := r.src.isNone && r.wg == w.wg && r.warp == w.warp && r.tag == tag

/-- Held entries of slice `k`: one a line and region, from the push to the settle (R301). -/
def State.heldEntries (s : State) (k : Nat) : Nat :=
  (s.wgs.flatMap (fun e => e.2.warps.zipIdx.flatMap (fun p =>
      (p.1.items.filter (fun i => i.atHome && !i.rmt && homeOf i.dpa == k)).flatMap (fun i =>
        i.lines.map (fun x => (⟨x, e.1, p.2, i.tag, none⟩ : RelLine))))) ++
    (s.remote.filter (fun r => sliceOf r.item.dpa == k)).flatMap (fun r =>
      r.item.lines.map (fun x => (⟨x, 0, 0, r.tag, some r.src⟩ : RelLine))) ++
    s.releasing.filter (fun r => homeOf (128 * r.line) == k)).eraseDups.length

/-- Held lines of the workgroups under a DCB (R27, R422), from the push to the settle. -/
def State.linesUnder (s : State) (d : Nat) : Nat :=
  let mine := fun (g : Wg) => g.quotas.any (fun q => q.1 == d)
  (s.wgs.flatMap (fun e => if mine e.2 then e.2.warps.zipIdx.flatMap (fun p =>
      (p.1.items.filter Item.atHome).flatMap (fun i => i.lines.map (fun x => (⟨x, e.1, p.2, i.tag, none⟩ : RelLine)))) else []) ++
    s.releasing.filter (fun r => r.src.isNone && (s.wg? r.wg).any mine)).eraseDups.length

/-- Is there a held entry for the item at its home slices, and room under the held-line quotas (R300, R422)? -/
def Ctx.room (c : Ctx) (i : Item) : Bool :=
  let mine := c.l.w.items.filter (fun x => x.tag == i.tag && x.atHome)
  i.lines.all (fun x =>
    mine.any (fun y => y.lines.contains x) ||
    ((homeOf (128 * x) == 128 || decide (c.s.heldEntries (homeOf (128 * x)) < 2048)) &&
     c.l.wg.quotas.all (fun q => decide (c.s.linesUnder q.1 < q.2.2))))

/-- A later fault of an item (R408, R419): a member's craze, or the record that stands alone, of the sagger or, for a copy
line, of the copy engine. Gives the payload that crazed words take. -/
def Lane.lateFault (l : Lane) (i : Item) (cause : Nat) (data : Bool) : Lane × Word :=
  let va : Option VAddr := some (BitVec.ofNat 57 i.va)
  match l.explicit i with
  | some r =>
    match Tabs.find? r.crazes i.named, data with
    | some _, false => (l.memberCraze i.named 0 true i.issued, 0)
    | _, _ =>
      let (l, p) := l.originate cause 1 i.named i.pc va false
      (l.memberCraze i.named p (!data) i.issued, p)
  | none => l.originate cause (if i.copy then 3 else 5) i.thread i.pc va false

/-- Is a push of a lower thread of the same instruction still out? A verdict that makes a record waits for it (R391). -/
def Warp.lowerPush (w : Warp) (i : Item) : Bool :=
  w.items.any (fun x => x.tag == i.tag && x.pc == i.pc && x.issued == i.issued && decide (x.thread < i.thread) &&
    (x.stage == .sagger || x.stage == .deferred))

/-- The item arrives at its home slice (R424, R428). -/
def Ctx.land (c : Ctx) (i : Item) (verdict : Nat) : Ctx :=
  if verdict ≠ 0 ∧ c.l.w.lowerPush i then c
  else if verdict = 0x0C then c.onL (fun l => let (l, p) := l.lateFault i 0x0C true; l.setItem { i.crazed p with stage := .held })
  else if verdict = 0 then c.onL (fun l => l.setItem { i with stage := .held })
  else c.onL (fun l =>
    let (l, _) := l.lateFault i verdict false
    if (l.explicit i).isSome then l.setItem { i with stage := .refused } else l.dropItem i)

/-- Step 7 of R420 for a push: colour, then quarantine; step 8 is the race. -/
def Ctx.pushVerdict (c : Ctx) (i : Item) : Ctx × Nat :=
  if hostBase ≤ i.dpa then (c, 0)
  else if !c.s.colourOk c.l.wg.part (colourOf i.dpa) then ({ c with s := c.s.breach c.l.wg.part 0 i.dpa }, 0x05)
  else if c.s.quarantined i.dpa then (c, 0x0B)
  else if (c.s.otherHeld c.l.ref c.l.leader).any (fun x => i.offsets.any (fun o => x.meets (i.dpa + o) 1)) then (c, 0x0C)
  else (c, 0)

/-- Push an item: a trailer never pushes (R476); a releasing line waits (R424); without room the push is put off (R300). -/
def pushItem (stage : ItemStage) (item verdict : Nat) (c : Ctx) : Ctx :=
  match c.l.w.items.find? (fun i => i.id == item && i.stage == stage) with
  | none => c
  | some i =>
    if c.l.leader.isSome then c
    else if i.rmt then match c.s.wayTo i.dpa with
      | .dead => c.land i 0x05
      | .waits => c
      | .port _ => c.land i verdict
    else if c.s.releasing.any (fun r => i.lines.contains r.line && !r.isOf c.l.ref i.tag) then c
    else if !c.room i then c.onL (fun l => l.setItem { i with stage := .deferred })
    else
      let (d, v) := c.pushVerdict i
      if v ≠ 0 ∧ c.l.w.lowerPush i then c else d.land i v

/-- HELD_PUSH (R300, R301, R424, R428). -/
def execHeldPush (w : WRef) (item : Nat) (verdict : Byte) (s : State) : Out := onWarp s w (pushItem .sagger item verdict.toNat)

/-- SAGGER_DEFERRED_PUSH (R300). -/
def execSaggerDeferredPush (w : WRef) (item : Nat) (s : State) : Out := onWarp s w (pushItem .deferred item 0)

/-! ## Instruction fetch (R406) -/

/-- The batch cannot be fetched: it derails with one batch record, or exits where it stands at a derail target. -/
def Ctx.fetchFault (c : Ctx) (cause : Nat) : Ctx :=
  let b := c.l.w.batch
  let pc := c.l.w.pc
  let l0 := c.l.endChain
  if b.all (fun t => (c.l.w.th t).derailed) then
    let (l, _) := l0.originate cause 0 (b.headD 0) pc (some pc) true
    let l := b.foldl (fun l t => l.setTh t { l.w.th t with st := .exited }) l
    match l.w.region with
    | none => { c with l := l.settle b }
    | some r =>
      let r1 : Region := { r with members := r.members &&& ~~~maskOf b }
      let l : Lane := { l with w := { l.w with region := some r1 } }
      if r.members != 0 && r1.members == 0 then
        (Ctx.abortRegion { c with l := l } r1).onL (fun l => l.settle b)
      else { c with l := l.settle b }
  else
    { c with l := (l0.derailAll b pc cause (some pc)).settle b }

/-- Fetch the block at the batch's program counter (R406): it is kept, or the batch faults, or the fetch waits. -/
def Ctx.fetch (c : Ctx) (tlb : Bool) (answer : List Byte) : Ctx :=
  let va := c.l.w.pc.toNat / 32 * 32
  let keep := fun (bs : List Byte) (c : Ctx) =>
    c.onL (fun l => { l with w := { l.w with kept := Tabs.put l.w.kept (va / 32) bs } })
  match c.s.translate (some c.l.wg.core) c.l.wg.vf va .fetch tlb with
  | (_, .wait) => c
  | (s, .fault k) => { c with s := s }.fetchFault k
  | (s, .ok a gen key rmt) =>
    let c : Ctx := { c with s := s }
    if rmt then match c.s.wayTo a with
      | .dead => c.fetchFault 0x05
      | .waits => c
      | .port _ => if answer.length = 32 then keep answer c else c
    else if c.s.releasingAny a 32 then c
    else
      match c.homeChecks a 32 gen false with
      | (c, some k) => c.fetchFault k
      | (c, none) => keep ((c.s.memWords key.toNat a 32).flatMap (fun w => leBytes 4 w.val.toNat)) c

/-- INSTRUCTION_FETCH (R406). -/
def execInstructionFetch (w : WRef) (tlb : Bool) (answer : List Byte) (s : State) : Out :=
  onWarp s w (fun c => if c.l.w.batch.isEmpty then c else c.fetch tlb answer)

/-! ## Reservations (R47, R205) -/

/-- RESERVATION_GRANT: a waiting `rgn` opens its region once its units are free. -/
def execReservationGrant (w : WRef) (s : State) : Out :=
  onWake s w (fun c => match c.l.w.rgnWait with
    | none => c
    | some q => if c.canReserve q.res then c.onL (fun l => l.openRegion q.pc q.res q.recovery q.threads) else c)

end Sys2Proof.Machine
end

