-- ==== Sys2Proof/Machine/CopyIssue.lean ====
section
/-! DEFINITION. The copy instructions at the lane, opcodes 0x140-0x146 (R253, R254, R265 to R274, R407): the checks of
issue, the sources, the command in the core's queue; joining and leaving a multicast group. -/

namespace Sys2Proof.Machine

/-! ## Reading a layout record -/

/-- A read of a layout record. -/
inductive RecRead where
  | ok (ws : List TWord)
  | fault (cause va : Nat)
  /-- A line of it is in the releasing state. -/
  | wait

/-- A word from a remote page: the peer's memory is no part of this machine, so it is a free value (log 31). -/
def Ctx.remoteWord (c : Ctx) : Ctx × TWord :=
  ({ c with s := { c.s with freeCtr := c.s.freeCtr + 1 } }, ⟨(Config.freeValue c.s.freeCtr).setWidth 32, false⟩)

/-- Remote words. -/
def Ctx.remoteWords (c : Ctx) (n : Nat) : Ctx × List TWord :=
  (List.range n).foldl (fun r _ => let (c, w) := r.1.remoteWord; (c, r.2 ++ [w])) (c, [])

/-- Read `n` bytes of device memory for an engine, at virtual address `va`: steps 5 to 9 of R420. -/
def Ctx.engineRead (c : Ctx) (va n : Nat) : Ctx × RecRead :=
  match c.s.translate (some c.l.wg.core) c.l.wg.vf va .load true with
  | (_, .wait) => (c, .wait)
  | (s, .fault k) => ({ c with s := s }, .fault k va)
  | (s, .ok a gen key rmt) =>
    let c : Ctx := { c with s := s }
    if rmt then match c.s.wayTo a with
      | .dead => (c, .fault 0x05 va)
      | .waits => (c, .wait)
      | .port _ => let (c, ws) := c.remoteWords (wordsOf a n).length; (c, .ok ws)
    else if c.s.releasingAny a n then (c, .wait)
    else
      match c.homeChecks a n gen (c.races a n) with
      | (c, some k) => (c, .fault k va)
      | (c, none) => (c, .ok (c.s.memWords key.toNat a n))

/-- Read the record at offset `b` of the segment register value `g` (R265, R435). -/
def Ctx.readRec (c : Ctx) (g : BitVec 128) (t b : Nat) : Ctx × RecRead :=
  match c.checkSeg g t b 64 [57] [0, 3, 4] true with
  | .fault k o => (c, .fault k o.toNat)
  | .ok (.scr _) => (c, .fault 0x05 b)
  | .ok (.va v) => c.engineRead v 64

/-! ## Box copies -/

/-- The fault of a copy-role opcode known at issue (R40, R404, R407): role, then encoding. -/
def copyFault (bad : Lane → Bool) (l : Lane) : Option Nat :=
  if l.w.role != .copy then some 0x02 else illegal (bad l)

/-- A box copy as it issues. -/
structure BoxIns where
  h : Hdr
  op : CpyOp
  fe : Bool
  mf : Bool
  nobar : Bool
  a : Src
  b : Src
  c : Src
  e : Ext

/-- The faults of the word itself (R253, R265, R266). -/
def BoxIns.bad (i : BoxIns) : Bool :=
  badSrcs [i.a, i.b, i.c] || i.e.extractLsb' 8 8 != 0 || (if i.mf then !scalOk (cxFws i.e) 2 else cxFws i.e != 0) ||
  (i.op != .peer && cxPm i.e != 0) || (i.op != .grp && cxGid i.e != 0)

/-- The coordinates: a run of scalar registers, as far as `s62`, or an inline integer as c0 (R265). -/
def Lane.coordsOf (l : Lane) (a : Src) : List TWord :=
  match a with
  | .scal k => if k = 63 then List.replicate 5 ⟨0, false⟩
    else ((List.range 5).filter (fun i => decide (k.toNat + i ≤ 62))).map (fun i => l.w.sreg (k.toNat + i))
  | .imm n => ⟨BitVec.ofNat 32 n.toNat, false⟩ :: List.replicate 4 ⟨0, false⟩
  | _ => List.replicate 5 ⟨0, false⟩

/-- Rank of the record that the command names, as its words stand at issue; 1 where it cannot be read (log 32). -/
def Ctx.peekRank (c : Ctx) (k : CpyCmd) : Nat :=
  let r := (Lay.parse (c.peekRec k)).rank
  if 1 ≤ r ∧ r ≤ 5 then r else 1

/-- Does the run of its coordinates pass `s62`, at rank `rank` (R265)? -/
def CpyCmd.runPast (k : CpyCmd) (rank : Nat) : Bool := decide (k.coords.length < rank)

/-- The receivers of a copy into scratchpads: the positions of `pm`, or the own workgroup. -/
def Ctx.receivers (c : Ctx) (op : CpyOp) (pm : Nat) : List (Option Nat) :=
  if op = .peer then ((List.range 4).filter (fun p => pm.testBit p)).map c.peer else [some c.l.ref.wg]

/-- The craze of the guards of the active set. -/
def Lane.guardCraze (l : Lane) (h : Hdr) (act : List Nat) : Option Word :=
  crazeOf (act.map (fun t => (l.w.th t).predCraze h.guard))

/-- The command's global reads, as one access of its issuing thread (R308). -/
def Lane.engineAcc (l : Lane) (k : CpyCmd) : Acc :=
  { id := l.w.nextId, kind := .load false, thread := k.thread, po := k.po, pc := k.pc, va := 0, n := 0, dst := 255, x := 0, cmp := 0
    ord := 0, scope := 3, stage := .engine, dpa := 0, gen := 0, key := 0, rmt := false, issued := l.clock }

/-- Put a command at the end of the core's queue. -/
def Lane.addCmd (l : Lane) (k : CpyCmd) : Lane :=
  let w1 : Warp := if k.reads then { l.w with accs := l.w.accs ++ [l.engineAcc k] } else l.w
  ({ l with core := { l.core with cpq := l.core.cpq ++ [{ k with id := l.core.nextCmd }], nextCmd := l.core.nextCmd + 1 }, w := w1 }).tick

/-- A command of thread `t` with no sources yet. -/
def Lane.bareCmd (l : Lane) (op : CpyOp) (t : Nat) (pc : VAddr) (e : Ext) : CpyCmd :=
  { id := 0, op, wg := l.ref.wg, warp := l.ref.warp, wslot := l.w.wslot, thread := t, pc, po := l.w.po, rseq := l.w.rseq,
    tag := (l.w.region.map Region.tag).getD 0, member := l.w.member t, held := false, fe := false, mf := false,
    nobar := false, e, coords := [], b := 0, bCrz := none, a := 0, c := 0, cBad := false, crz := none, fws := 0, sgRec := 0, sgSrc := 0,
    sgDst := 0, sgBar := l.w.seg 1, stage := .queued, lrec := [], recv := [], buf := [], lines := [], landed := 0,
    causes := [], k := 0, anchor := none, waiting := false }

/-- A held command of a thread outside the open region gets an implicit region, which takes its units at the start
(R187, R269). -/
def Lane.heldCmd (l : Lane) (k : CpyCmd) : Lane :=
  if !k.held || k.member then l.addCmd k
  else
    let (l, tag) := l.implicit 0 false (some k.thread) k.pc
    l.addCmd { k with tag }

/-- One box copy issues (R253, R265). -/
def BoxIns.issue (i : BoxIns) (pc : VAddr) (act : List Nat) (c : Ctx) : Ctx :=
  match act with
  | [] => c
  | t :: _ =>
    let bad := fun (_ : Unit) => c.onL (fun l => l.derailAll act pc 0x01 none)
    let l := c.l
    let (b, bp) := l.matRead .i32 0 i.b
    let (v, vp) := l.matRead .i32 0 i.c
    let fw := if i.mf then l.matRead .i64 0 (.scal (BitVec.ofNat 6 (cxFws i.e))) else (0, none)
    let rs := c.receivers i.op (cxPm i.e)
    let k : CpyCmd := { l.bareCmd i.op t pc i.e with coords := l.coordsOf i.a, b, bCrz := bp, sgRec := l.w.seg (cxSeg i.e) }
    let rank := if bp.isSome then 1 else c.peekRank k
    if i.op = .peer ∧ (l.wg.info.kg = 0 ∨ rs.any Option.isNone) then bad ()
    else if i.op = .grp ∧ (Tabs.find? l.wg.groups (cxGid i.e)).isNone then bad ()
    else if k.runPast rank then bad ()
    else
      let st := i.op = .st
      let n := (Tabs.find? l.wg.groups (cxGid i.e)).getD 0
      let k : CpyCmd := { k with
        held := st, fe := i.fe, mf := i.mf, nobar := i.nobar, c := v, cBad := vp.isSome,
        crz := crazeOf [vp, l.guardCraze i.h act, fw.2], fws := fw.1,
        sgSrc := l.w.seg (if st then 1 else 0), sgDst := l.w.seg (if st then 0 else 1),
        recv := if st then [] else (rs.filterMap id).map (fun g => (g, 0)), k := n }
      let c := if i.op = .grp then c.onL (fun l => { l with wg := { l.wg with
        groups := Tabs.put l.wg.groups (cxGid i.e) (n + 1) } }) else c
      c.onL (fun l => l.heldCmd k)

/-- A box copy: with 32 commands in the core's queue the warp waits (R254). -/
def BoxIns.exec (i : BoxIns) (s : State) : Out :=
  { h := i.h, size := 16, chains := false, regs := [], fault := copyFault (fun _ => i.bad) : Form }.execC
    (fun c act => !act.isEmpty && decide (32 ≤ c.l.core.cpq.length)) i.issue s

/-- `cpyld` (R267, R268). -/
def execCpyld (h : Hdr) (fe mf nobar : Bool) (a b c : Src) (e : Ext) (s : State) : Out :=
  BoxIns.exec ⟨h, .ld, fe, mf, nobar, a, b, c, e⟩ s

/-- `cpyst` (R269). -/
def execCpyst (h : Hdr) (nobar : Bool) (a b c : Src) (e : Ext) (s : State) : Out :=
  BoxIns.exec ⟨h, .st, false, false, nobar, a, b, c, e⟩ s

/-- `cpypeer` (R270). -/
def execCpypeer (h : Hdr) (fe nobar : Bool) (a b c : Src) (e : Ext) (s : State) : Out :=
  BoxIns.exec ⟨h, .peer, fe, false, nobar, a, b, c, e⟩ s

/-- `cpygrp` (R275). -/
def execCpygrp (h : Hdr) (fe nobar : Bool) (a b c : Src) (e : Ext) (s : State) : Out :=
  BoxIns.exec ⟨h, .grp, fe, false, nobar, a, b, c, e⟩ s

/-! ## `cpylin` (R272) -/

/-- `dseg` of a `cpylin` extension word; `sseg` stands where `lseg` does. -/
def cxDseg (e : Ext) : Nat := (e.extractLsb' 58 3).toNat

/-- Are the kinds, source to destination, permitted? -/
def linKinds (sk dk : Nat) : Bool := (dk == 1 && (sk == 0 || sk == 3 || sk == 1)) || (dk == 0 && sk == 1)

/-- `cpylin` (R272, R407). -/
def execCpylin (h : Hdr) (fe nobar : Bool) (a b c : Src) (e : Ext) (s : State) : Out :=
  { h, size := 16, chains := false, regs := []
    fault := copyFault (fun l => !([a, b].all (matSrcOk 2)) || !matSrcOk 1 c || e.extractLsb' 55 3 != 0 ||
      e.extractLsb' 0 37 != 0 || !linKinds (sgKind (l.w.seg (cxSeg e))) (sgKind (l.w.seg (cxDseg e)))) : Form }.execC
    (fun c act => !act.isEmpty && decide (32 ≤ c.l.core.cpq.length))
    (fun pc act x => match act with
      | [] => x
      | t :: _ =>
        let l := x.l
        let (va, pa) := l.matRead .i64 0 a
        let (vb, pb) := l.matRead .i64 0 b
        let (vc, p) := l.matRead .i32 0 c
        let crz := crazeOf [pa, pb, p, l.guardCraze h act]
        let n := vc.toNat
        if crz.isNone ∧ (va.toNat % 32 ≠ 0 ∨ vb.toNat % 32 ≠ 0 ∨ n % 32 ≠ 0) then
          x.onL (fun l => l.derailAll act pc 0x08 none)
        else if crz.isNone ∧ (n = 0 ∨ 2 ^ 20 < n) then x.onL (fun l => l.derailAll act pc 0x01 none)
        else
          let k : CpyCmd := l.bareCmd .lin t pc e
          let held := sgKind (l.w.seg (cxDseg e)) == 0
          let k : CpyCmd := { k with
            held, fe, nobar, a := va, b := vb, c := vc, crz, sgSrc := l.w.seg (cxSeg e), sgDst := l.w.seg (cxDseg e),
            recv := if held then [] else [(l.ref.wg, 0)] }
          x.onL (fun l => l.heldCmd k)) s

/-! ## Groups (R273, R274, R278) -/

/-- Key of a group in the machine's table. -/
def grpKey (part gid : Nat) : Nat := 256 * part + gid

/-- A group. -/
def State.grp (s : State) (part gid : Nat) : Grp := Tabs.get s.groups ⟨0, []⟩ (grpKey part gid)

/-- Replace it. -/
def State.setGrp (s : State) (part gid : Nat) (g : Grp) : State :=
  { s with groups := Tabs.put s.groups (grpKey part gid) g }

/-- Is the copy command `id` of core `c` one of workgroup `wg`? -/
def State.cmdOf (s : State) (c id wg : Nat) : Bool := (s.core c).cpq.any (fun k => k.id == id && k.wg == wg)

/-- An entry whose awaited set is empty releases; one that nobody receives from any more is free (R276). -/
def ShelfEnt.settle (x : ShelfEnt) : Option ShelfEnt :=
  if x.recv.isEmpty then none
  else some (if x.stage = .holding ∧ x.awaited.isEmpty then { x with stage := .releasing } else x)

/-- Withdraw workgroup `wg` from the entries of a group that await it, and cancel its requests that are not delivered
(R278). -/
def State.withdraw (s : State) (part gid wg : Nat) : State :=
  { s with shelf := s.shelf.filterMap (fun x =>
      if x.part = part ∧ x.gid = gid ∧ x.stage ≠ .delivering then
        { x with awaited := x.awaited.filter (· != wg), recv := x.recv.filter (fun r => !s.cmdOf r.1 r.2 wg) }.settle
      else some x) }

/-- Drop the commands of workgroup `wg` whose request to the group is not delivered (R274; log 33). -/
def Core.dropRequests (k : Core) (wg gid : Nat) : Core :=
  { k with cpq := k.cpq.filter (fun x => !(x.wg == wg && x.op == .grp && cxGid x.e == gid && x.stage == .shelf)) }

/-- A workgroup leaves a group: its counts, its membership, its requests. -/
def Ctx.leaveGroup (c : Ctx) (gid : Nat) : Ctx :=
  let g := c.l.ref.wg
  let s := c.s.withdraw c.l.wg.part gid g
  let x := s.grp c.l.wg.part gid
  let s := s.setGrp c.l.wg.part gid { x with members := x.members.filter (fun m => m.wg != g) }
  ⟨s, ({ c.l with wg := { c.l.wg with groups := Tabs.del c.l.wg.groups gid }, core := c.l.core.dropRequests g gid } : Lane).endReads⟩

/-- The sources of a group instruction: a scalar register, an inline integer or the literal (R253). -/
def grpSrcOk (a : Src) : Bool := a.isLit || matSrcOk 1 a

/-- The change occupies the warp until every shelf has seen it (R274). -/
def Lane.grpBusy (l : Lane) (gid : Nat) (hold : Option (BitVec 16)) : Lane :=
  { l with w := { l.w with grp := some (gid, hold) } }

/-- `grpjoin` (R274, R407): a trailer is no member (R476). -/
def execGrpjoin (h : Hdr) (a b : Src) (lit : Word) (s : State) : Out :=
  { h, size := litSize [a, b], chains := false, regs := [], fault := copyFault (fun _ => !grpSrcOk a || !grpSrcOk b) : Form }.execC
    (fun _ _ => false)
    (fun pc act c => if act.isEmpty then c else
      let (va, pa) := c.l.matRead .i32 lit a
      let (vb, pb) := c.l.matRead .i32 lit b
      let gid := va.toNat
      let g := c.l.ref.wg
      let x := c.s.grp c.l.wg.part gid
      let isMember := x.members.any (fun m => m.wg == g)
      let sameCore := x.members.any (fun m => m.wg != g && (c.s.wg? m.wg).any (fun w => w.core == c.l.wg.core))
      match crazeOf [pa, pb, c.l.guardCraze h act] with
      | some p => c.onL (fun l => l.derailWith act p)
      | none =>
        if decide (255 < gid) || decide (65535 < vb.toNat) ||
            (c.l.leader.isNone && !isMember && (decide (32 ≤ x.members.length) || sameCore)) then
          c.onL (fun l => l.derailAll act pc 0x01 none)
        else
          let y : Grp := ⟨vb.toNat, if isMember then x.members else x.members ++ [⟨g, 0, false⟩]⟩
          let c : Ctx := if c.l.leader.isSome then c else { c with s := c.s.setGrp c.l.wg.part gid y }
          c.onL (fun l =>
            let l : Lane := if (Tabs.find? l.wg.groups gid).isSome then l
              else { l with wg := { l.wg with groups := Tabs.put l.wg.groups gid 0 } }
            l.grpBusy gid (some (vb.setWidth 16)))) s

/-- `grpleave` (R274, R407). -/
def execGrpleave (h : Hdr) (a : Src) (lit : Word) (s : State) : Out :=
  { h, size := litSize [a], chains := false, regs := [], fault := copyFault (fun _ => !grpSrcOk a) : Form }.execC
    (fun _ _ => false)
    (fun pc act c => if act.isEmpty then c else
      let (va, pa) := c.l.matRead .i32 lit a
      match crazeOf [pa, c.l.guardCraze h act] with
      | some p => c.onL (fun l => l.derailWith act p)
      | none =>
        if 255 < va.toNat then c.onL (fun l => l.derailAll act pc 0x01 none)
        else (c.leaveGroup va.toNat).onL (fun l => l.grpBusy va.toNat none)) s

/-- GROUP_CHANGE_COMPLETE (R274): every shelf sees the change; the warp is ready again. -/
def execGroupChangeComplete (w : WRef) (s : State) : Out :=
  onWarp s w (fun c => c.onL (fun l => { l with w := { l.w with grp := none } }))

end Sys2Proof.Machine
end

