-- ==== Sys2Proof/Machine/MatrixMath.lean ====
section
/-! DEFINITION. The arithmetic of the matrix array (R131, R136 to R141, R226, R241, R242, R244, R245, R397): elements
with their crazes, packed rows, the accumulation of one output element, norms, polynomials and the soak's recipes. -/

namespace Sys2Proof.Machine

open Sys2Proof.Num

/-! ## Operand formats (R217, R226) -/

/-- An operand format of the array. -/
structure MFmt where
  f : Fmt
  narrow : Bool
  /-- Elements of a scale block, for a narrow format. -/
  block : Nat
deriving DecidableEq, Repr

/-- The format of a code, with the format register's value for a narrow one; `none` where it is unassigned. -/
def mfmt (code : Nat) (fm : Word) : Option MFmt :=
  if code = 0 then some ⟨fp32, false, 0⟩ else if code = 1 then some ⟨fp64, false, 0⟩
  else if code = 2 then some ⟨tf32, false, 0⟩ else if code = 3 then some ⟨fp16, false, 0⟩
  else if code = 4 then some ⟨Num.bf16, false, 0⟩
  else if code < 8 then none
  else if fmAssigned fm then some ⟨fmOf fm, true, blockOf fm⟩ else none

/-- The format register that a code names; a clean 0 where it names none. -/
def Wg.fmUsed (g : Wg) (code : Nat) : TWord := if code < 8 then ⟨0, false⟩ else g.fmReg (code - 8)

/-- The format of a code that names no crazed register. -/
def Wg.fmtOf (g : Wg) (code : Nat) : Option MFmt :=
  if (g.fmUsed code).tag then none else mfmt code (g.fmUsed code).val

/-- Its craze. -/
def Wg.fmCraze (g : Wg) (code : Nat) : Option Word :=
  if (g.fmUsed code).tag then some (g.fmUsed code).val else none

/-- Packing factor (R217). -/
def MFmt.pf (m : MFmt) : Nat :=
  if m.narrow then (if m.f.width = 4 then 64 else 32)
  else if m.f = fp64 then 1 else if m.f = fp32 then 2 else if m.f = tf32 then 8 else 16

/-- Class of an operand format (R226). -/
def MFmt.cls (m : MFmt) : Nat :=
  if m.narrow then 4 else if m.f = fp64 then 0 else if m.f = fp32 then 1 else if m.f = tf32 then 2 else 3

/-- Group size (R136). -/
def MFmt.group (m : MFmt) : Nat :=
  if m.narrow then m.block else if m.f = fp64 then 1 else if m.f = fp32 || m.f = tf32 then 4 else 8

/-- Bytes of `n` packed elements (R131). -/
def MFmt.bytes (m : MFmt) (n : Nat) : Nat :=
  if m.f.width = 4 then n / 2 else if m.f.width ≤ 8 then n else if m.f.width = 16 then 2 * n
  else if m.f.width = 64 then 8 * n else 4 * n

/-- Is the product legal (R226)? -/
def pairLegal (a b : MFmt) (accF64 : Bool) : Bool :=
  a.cls == b.cls && (!a.narrow || (a.block == b.block && a.pf == b.pf)) && ((a.cls == 0) == accF64)

/-- The accumulator format (R57). -/
def faccOf (accF64 : Bool) : Fmt := if accF64 then fp64 else fp32

/-! ## Elements -/

/-- An element: its code, and the payload where it is crazed. -/
abbrev MElt := Nat × Option Word

/-- Bytes with the crazes of the words that hold them, from byte `o` of a list of words. -/
def bytesOf (ws : List TWord) (o n : Nat) : List MElt :=
  ((ws.flatMap (fun w => (List.range 4).map (fun i =>
    ((byteOf w.val i).toNat, if w.tag then some w.val else none)))).drop o).take n

/-- Elements of `k` bytes each from packed bytes. -/
def eltsOf (k : Nat) : Nat → List MElt → List MElt
  | 0, _ => []
  | n + 1, bs =>
    let b := bs.take k
    (leNat (b.map (fun x => BitVec.ofNat 8 x.1)), crazeOf (b.map Prod.snd)) :: eltsOf k n (bs.drop k)

/-- The `n` elements of a format in packed bytes (R131); a TF32 element is read under R124. -/
def MFmt.unpack (m : MFmt) (n : Nat) (bs : List MElt) : List MElt :=
  if m.f.width = 4 then bs.flatMap (fun b => [(b.1 % 16, b.2), (b.1 / 16, b.2)])
  else (eltsOf (m.bytes 1) n bs).map (fun x =>
    (if m.f = tf32 then tf32Of x.1 else x.1 % 2 ^ m.f.width, x.2))

/-- Pairs of 4-bit elements in bytes. -/
def nibbles : List MElt → List MElt
  | a :: b :: t => (a.1 % 16 + 16 * (b.1 % 16), crazeOf [a.2, b.2]) :: nibbles t
  | a :: [] => [a]
  | [] => []

/-- The cells of packed elements (R131, R397). -/
def MFmt.pack (m : MFmt) (l : List MElt) : List WCell :=
  let bs : List MElt := if m.f.width = 4 then nibbles l
    else l.flatMap (fun x => (leBytes (m.bytes 1) x.1).map (fun b => (b.toNat, x.2)))
  bs.zipIdx.map (fun e => ⟨e.2, BitVec.ofNat 8 e.1.1, e.1.2⟩)

/-- A streamed row or a plane column: its elements, and the scales of its blocks. -/
structure MRow where
  el : List MElt
  sc : List MElt
deriving DecidableEq, Repr

/-- A plane column as the array contributes it (R397). -/
def MCol.row (c : MCol) : MRow :=
  ⟨c.el.map (fun x => (x.1.toNat, if x.2 then some c.pay else none)), c.scale.map (fun x => (x.1.toNat, x.2))⟩

/-- A column written from elements (R387, R397). -/
def MRow.col (r : MRow) : MCol :=
  ⟨r.el.map (fun x => (BitVec.ofNat 64 x.1, x.2.isSome)), r.sc.map (fun x => (BitVec.ofNat 8 x.1, x.2)),
   (crazeOf (r.el.map Prod.snd)).getD 0⟩

/-! ## Sums (R136 to R141) -/

/-- `dot_into` (R138): one group for each of the exponents `ss` of the two scales together. -/
def dotInto (facc fa fb : Fmt) (g : Nat) : List Int → List Nat → List Nat → Nat → Nat
  | [], _, _, acc => acc
  | s :: ss, a, b, acc =>
    let p := (a.take g).zipWith (fun x y => X.mul (valueOf x fa) (valueOf y fb)) (b.take g)
    let sum := (exactSum p).scale s
    dotInto facc fa fb g ss (a.drop g) (b.drop g) (roundTo (X.add false (valueOf acc facc) sum) facc rne)

/-- Two lists by turns. -/
def weave {α : Type} : List α → List α → List α
  | a :: as, b :: bs => a :: b :: weave as bs
  | as, [] => as
  | [], bs => bs

/-- The first crazed contribution after the accumulator's (R397): block by block the scales, then the elements. -/
def dotCraze (g : Nat) : List (Option Word × Option Word) → List (Option Word) → List (Option Word) → Option Word
  | [], _, _ => none
  | (p, q) :: ss, a, b =>
    match crazeOf (p :: q :: weave (a.take g) (b.take g)) with
    | some x => some x
    | none => dotCraze g ss (a.drop g) (b.drop g)

/-- One output element from its value `init`, a streamed row and a column (R138, R397). -/
def accumulate (facc : Fmt) (fa fb : MFmt) (init : MElt) (r c : MRow) : MElt :=
  match init.2 with
  | some p => (0, some p)
  | none =>
    let g := fa.group
    let n := r.el.length / g
    let sc := fun (l : List MElt) (j : Nat) => l.getD j (127, none)
    let crazed := (r.el ++ r.sc ++ c.el ++ c.sc).any (fun x => x.2.isSome)
    match (if crazed then dotCraze g ((List.range n).map (fun j => ((sc r.sc j).2, (sc c.sc j).2)))
        (r.el.map Prod.snd) (c.el.map Prod.snd) else none) with
    | some p => (0, some p)
    | none =>
      let e := fun (j : Nat) => (((sc r.sc j).1 : Int) - 127) + (((sc c.sc j).1 : Int) - 127)
      (dotInto facc fa.f fb.f g ((List.range n).map e) (r.el.map Prod.fst) (c.el.map Prod.fst) init.1, none)

/-- Rows against columns, each element from its place in `init`. -/
def accumulateAll (facc : Fmt) (fa fb : MFmt) (init : List (List MElt)) (rows cols : List MRow) : List (List MElt) :=
  init.zipWith (fun ini r => ini.zipWith (fun x c => accumulate facc fa fb x r c) cols) rows

/-! ## Matrices of accumulator elements (R241, R242, R244) -/

/-- A matrix, row by row. -/
abbrev Mat := List (List MElt)

/-- Column `j`. -/
def Mat.col (m : Mat) (j : Nat) : List MElt := m.map (fun r => r.getD j (0, none))

/-- Number of columns. -/
def Mat.width (m : Mat) : Nat := (m.headD []).length

/-- The transpose. -/
def Mat.flip (m : Mat) : Mat := (List.range m.width).map m.col

/-- A matrix of +0.0. -/
def Mat.zeros (r c : Nat) : Mat := List.replicate r (List.replicate c (0, none))

/-- One elementwise function. -/
def Mat.map₂ (f : MElt → MElt → MElt) (p q : Mat) : Mat := p.zipWith (fun r t => r.zipWith f t) q

/-- The elements with their row and column. -/
def Mat.mapIdx (f : Nat → Nat → MElt → MElt) (m : Mat) : Mat :=
  m.zipIdx.map (fun r => r.1.zipIdx.map (fun x => f r.2 x.2 x.1))

/-- Elements rounded into an operand format. -/
def roundElts (facc : Fmt) (fo : MFmt) (l : List MElt) : List MElt :=
  l.map (fun x => (if x.2.isSome then 0 else roundTo (valueOf x.1 facc) fo.f rne, x.2))

/-- A column of a plane fed with `l`: every crazed element contributes the column's payload (R387). -/
def planeCol (facc : Fmt) (fo : MFmt) (l : List MElt) : MRow :=
  let p := crazeOf (l.map Prod.snd)
  ⟨(roundElts facc fo l).map (fun x => (x.1, if x.2.isSome then p else none)), []⟩

/-- `mm` from running values (R244, R140). -/
def Mat.mulInto (facc : Fmt) (fo : MFmt) (init p q : Mat) : Mat :=
  accumulateAll facc fo fo init (p.map (fun r => ⟨roundElts facc fo r, []⟩)) (q.flip.map (planeCol facc fo))

/-- `mm` (R244). -/
def Mat.mul (facc : Fmt) (fo : MFmt) (p q : Mat) : Mat := Mat.mulInto facc fo (Mat.zeros p.length q.width) p q

/-- A coefficient: its exact value and its craze. -/
abbrev Coef := X × Option Word

/-- α x + β y, rounded once; the craze order is α, x, β, y (R397). -/
def combElt (facc : Fmt) (al : Coef) (x : MElt) (be : Coef) (y : MElt) : MElt :=
  match crazeOf [al.2, x.2, be.2, y.2] with
  | some p => (0, some p)
  | none => (roundTo (X.add false (X.mul al.1 (valueOf x.1 facc)) (X.mul be.1 (valueOf y.1 facc))) facc rne, none)

/-- `comb` (R244). -/
def comb (facc : Fmt) (al : Coef) (p : Mat) (be : Coef) (q : Mat) : Mat := Mat.map₂ (fun x y => combElt facc al x be y) p q

/-- x + (c where i = j, else 0), rounded; a crazed x stays. -/
def addDiag (facc : Fmt) (c : X) (m : Mat) : Mat :=
  m.mapIdx (fun i j x => match x.2 with
    | some p => (0, some p)
    | none => (roundTo (X.add false (valueOf x.1 facc) (if i = j then c else .zero false)) facc rne, none))

/-- The result-exponent checks of an instruction that forms several products (R250, R431): which elements of product `n` fail,
by row and column, and the payload they take. -/
structure Check where
  fails : Nat → Nat → Nat → Bool
  p : Word

/-- Product `n` after its checks, and whether a clean element of it failed. -/
def Check.on (k : Check) (n : Nat) (m : Mat) : Mat × Bool :=
  (m.mapIdx (fun i j x => if x.2.isNone && k.fails n i j then (0, some k.p) else x),
   m.zipIdx.any (fun r => r.1.zipIdx.any (fun x => x.1.2.isNone && k.fails n r.2 x.2)))

/-- The steps of `mpoly` below the first (R242): coefficients `c_(d-2)` down to `c_0`; `n` products are done. -/
def polySteps (facc : Fmt) (fo : MFmt) (k : Check) (x : Mat) : Nat → List X → Mat × Bool → Mat × Bool
  | _, [], p => p
  | n, c :: cs, p =>
    let (m, b) := k.on n (Mat.mul facc fo p.1 x)
    polySteps facc fo k x (n + 1) cs (addDiag facc c m, p.2 || b)

/-- p(X) (R242): the coefficients are `c_0` to `c_d`; a crazed one crazes every element (R397). -/
def polyOf (facc : Fmt) (fo : MFmt) (k : Check) (cs : List Coef) (x : Mat) : Mat × Bool :=
  match crazeOf (cs.map Prod.snd) with
  | some p => (x.mapIdx (fun _ _ _ => (0, some p)), false)
  | none =>
    match (cs.map Prod.fst).reverse with
    | [] => (x, false)
    | [c0] => (x.mapIdx (fun i j _ => (roundTo (if i = j then c0 else .zero false) facc rne, none)), false)
    | cd :: ce :: rest =>
      polySteps facc fo k x 0 rest (x.mapIdx (fun i j y => match y.2 with
        | some p => (0, some p)
        | none => (roundTo (X.add false (X.mul cd (valueOf y.1 facc)) (if i = j then ce else .zero false)) facc rne, none)), false)

/-- One row of the norm of R241, from the running sum; the differences are taken exactly. -/
def normRow (facc : Fmt) (s : Nat) (x : List Nat) (y : Option (List Nat)) : Nat :=
  let d := match y with
    | none => x.map (fun a => valueOf a facc)
    | some y => x.zipWith (fun a b => X.add false (valueOf a facc) (valueOf b facc).negate) y
  roundTo (X.add false (valueOf s fp64) (exactSum (d.map (fun e => X.mul e e)))) fp64 rne

/-- The norm of R241 over the rows of a tile run, from a running sum; `ys` are the rows of Y. -/
def normRows (facc : Fmt) : Nat → List (List MElt) → Option (List (List MElt)) → Nat
  | s, [], _ => s
  | s, x :: xs, none => normRows facc (normRow facc s (x.map Prod.fst) none) xs none
  | s, x :: xs, some [] => normRows facc (normRow facc s (x.map Prod.fst) none) xs none
  | s, x :: xs, some (y :: ys) => normRows facc (normRow facc s (x.map Prod.fst) (some (y.map Prod.fst))) xs (some ys)

/-- The first crazed element in R241's order, x before y (R397). -/
def normCraze (xs : List (List MElt)) (ys : Option (List (List MElt))) : Option Word :=
  match ys with
  | none => crazeOf (xs.flatten.map Prod.snd)
  | some ys => crazeOf (weave (xs.flatten.map Prod.snd) (ys.flatten.map Prod.snd))

/-! ## The soak (R244, R245, R249) -/

/-- The rows of a grid of `r` × `c` tiles in the order of its tile run: row i of tile (a, b) is the 32 elements from
column 32 b of row 32 a + i. -/
def runRows (r c : Nat) (m : Mat) : List (List MElt) :=
  (List.range r).flatMap (fun a => (List.range c).flatMap (fun b =>
    ((m.drop (32 * a)).take 32).map (fun row => (row.drop (32 * b)).take 32)))

/-- One position of `.orth` (R245, R249): its part of X, its coefficients a, b, c, and its checks: product 0 is its share of G, 1 is
H, 2 is Y. -/
structure OrthPart where
  x : Mat
  a : Coef
  b : Coef
  c : Coef
  k : Check

/-- `.orth` over the column parts of X at the positions (R245, R249): one part, or four; each position forms H and T from the same
G. The iterate of each, and whether a check of it failed. -/
def orthStep (facc : Fmt) (fo : MFmt) (parts : List OrthPart) : List (Mat × Bool) :=
  let n := match parts with
    | [] => 0
    | p :: _ => p.x.length
  let (g, hits) := parts.foldl (fun r p =>
    let (m, b) := p.k.on 0 (Mat.mulInto facc fo r.1 p.x p.x.flip)
    (m, r.2 ++ [b])) (Mat.zeros n n, ([] : List Bool))
  (parts.zip hits).map (fun q =>
    let p := q.1
    let (h, b1) := p.k.on 1 (Mat.mul facc fo g g)
    let t := comb facc p.b g p.c h
    let (y, b2) := p.k.on 2 (Mat.mul facc fo t p.x)
    (comb facc p.a p.x (.fin 1 0, none) y, q.2 || b1 || b2))

/-- `.inv` (R245): product 0 is P, 1 is Xn. -/
def invStep (facc : Fmt) (fo : MFmt) (k : Check) (a x : Mat) : Mat × Bool :=
  let one := roundTo (.fin 1 0) facc rne
  let i : Mat := x.mapIdx (fun r c _ => (if r = c then one else 0, none))
  let (p, b0) := k.on 0 (Mat.mul facc fo a x)
  let (y, b1) := k.on 1 (Mat.mul facc fo x (comb facc (.fin (-1) 0, none) p (.fin 2 0, none) i))
  (y, b0 || b1)

/-- Is a code finite in its format? -/
def finiteCode (c : Nat) (f : Fmt) : Bool :=
  match valueOf c f with
  | .nan => false
  | .inf _ => false
  | _ => true

end Sys2Proof.Machine
end

