-- ==== Sys2Proof/Machine/MatrixPrep.lean ====
section
/-! DEFINITION. What one array instruction does with the state it finds at its start (R221 to R242, R397, R404, R407,
R431, R439): its start faults, the operands it reads, and what it writes at completion. -/

namespace Sys2Proof.Machine

open Sys2Proof.Num

/-! ## Fields and items -/

/-- Bits of an extension word. -/
def xf (e : Ext) (lo len : Nat) : Nat := (e.extractLsb' lo len).toNat

/-- Nothing is written. -/
def MOut.none : MOut := ⟨[], .none, false, false, .none, [], .none, .none⟩

/-- Does it run on the load unit (R222)? -/
def onLoadUnit : Instr → Bool
  | .mlds .. => true
  | .mfeedShadow .. => true
  | _ => false

/-- Does it stream rows (R223)? -/
def streams : Instr → Bool
  | .mma .. => true
  | .mfeedStream .. => true
  | _ => false

/-- Does it read or write a plane (R218)? -/
def usesPlane : Instr → Bool
  | .mlds .. => true
  | .mswap _ => true
  | .mma .. => true
  | .mfeedShadow .. => true
  | .mfeedStream .. => true
  | .mpoly .. => true
  | .msoak .. => true
  | _ => false

/-- Is it an `msoak`? -/
def isSoak : Instr → Bool
  | .msoak .. => true
  | _ => false

/-- Does it carry `.ch` (R232)? -/
def isChained : Instr → Bool
  | .mma _ _ _ ch .. => ch
  | .msoak _ ch _ => ch
  | _ => false

/-- Rows of a stream: M, first tile, first row (R236, R237). -/
def streamRows : Instr → Nat × Nat × Nat
  | .mma _ _ _ _ _ _ _ e => (8 * (xf e 55 5 + 1), xf e 50 5, 8 * xf e 48 2)
  | .mfeedStream _ _ e => (8 * (xf e 43 5 + 1), xf e 50 5, 8 * xf e 48 2)
  | _ => (0, 0, 0)

/-- Destination tiles of a stream. -/
def streamTiles (i : Instr) : List Nat :=
  let (m, td, rq) := streamRows i
  (List.range ((rq + m + 31) / 32)).map (td + ·)

/-- Tile run. -/
def tileRun (t n : Nat) : List Nat := (List.range n).map (t + ·)

/-- The shape of an `msoak` on one core: row and column tiles (R243, R249). -/
def soakShape (ch : Bool) (e : Ext) : Nat × Nat :=
  (xf e 44 2 + 1, if ch then (xf e 40 4 + 1) / 4 else xf e 40 4 + 1)

/-- Items of R222: tile t is t, the shadow plane 32, `mc` k is 64 + k, `ss` 128, the scratchpad 129. The items an
instruction reads and writes, with `k` the stationary depth of the active plane it finds. -/
def itemsOf (k : Nat) (i : Instr) : List Nat × List Nat :=
  let tiles := fun (t n : Nat) => (tileRun t n).filter (· < 32)
  let mcs := fun (n : Nat) => (List.range n).map (64 + ·)
  match i with
  | .mcoef _ d _ => ([], [64 + d.toNat % 16])
  | .mcoefS _ d _ _ => ([], [64 + d.toNat % 16])
  | .mlds .. => ([129], [32])
  | .mswap _ => ([32], [32])
  | .mzero _ d n => ([], tiles (d.toNat % 32) (n.toNat + 1))
  | .mma _ z .. => ([129] ++ (if z then [] else streamTiles i), streamTiles i)
  | .mfeedShadow _ _ e => (tiles (xf e 55 5) (xf e 36 7), [32])
  | .mfeedStream _ z e =>
    (tiles (xf e 55 5) (((streamRows i).1 + 31) / 32 * (k / 32)) ++ (if z then [] else streamTiles i), streamTiles i)
  | .mldacc _ _ _ _ e => ([129], tiles (xf e 55 5) (xf e 50 5 + 1))
  | .macc _ e =>
    let n := xf e 40 5 + 1
    (tiles (xf e 55 5) n ++ (if xf e 60 4 = 1 then tiles (xf e 50 5) n else []) ++ mcs 16, tiles (xf e 45 5) n)
  | .mstore _ _ _ _ e => (tiles (xf e 55 5) (xf e 50 5 + 1), [129])
  | .mstoreSs .. => ([128], [129])
  | .mstoreMc .. => (mcs 16, [129])
  | .mnorm _ d _ k e =>
    let n := xf e 49 5 + 1
    (tiles (xf e 59 5) n ++ (if d then tiles (xf e 54 5) n else []), [64 + k.toNat % 16])
  | .mpoly _ e => (tiles (xf e 55 5) 1 ++ mcs 16, tiles (xf e 50 5) 1 ++ [32])
  | .msoak _ ch e =>
    let (r, c) := soakShape ch e
    let x := tiles (xf e 51 5) (r * c)
    (x ++ tiles (xf e 46 5) (r * c) ++ mcs 16 ++ [128, 32], x ++ [128, 32])
  | _ => ([], [])

/-- Two instructions conflict (R222). -/
def conflict (x y : List Nat × List Nat) : Bool :=
  x.2.any (fun i => y.1.contains i || y.2.contains i) || x.1.any (fun i => y.2.contains i)

/-! ## Accumulator elements (R57) -/

/-- Element `e` = 32 i + j of tile `k`. -/
def Wg.elem (g : Wg) (k e : Nat) : MElt :=
  let w := fun (n : Nat) => Tabs.get g.acc ⟨0, false⟩ n
  let crz := fun (x : TWord) => if x.tag then some x.val else none
  if g.info.accF64 then
    let lo := w (2048 * k + 2 * e)
    let hi := w (2048 * k + 2 * e + 1)
    (lo.val.toNat + 2 ^ 32 * hi.val.toNat, crazeOf [crz lo, crz hi])
  else let x := w (1024 * k + e); (x.val.toNat, crz x)

/-- The accumulator words that hold an element of this value. -/
def eltWords (f64 : Bool) (k e : Nat) (x : MElt) : List (Nat × TWord) :=
  let w := fun (i : Nat) => match x.2 with
    | some p => TWord.crazed p
    | none => TWord.clean (BitVec.ofNat 32 (x.1 / 2 ^ (32 * i)))
  if f64 then [(2048 * k + 2 * e, w 0), (2048 * k + 2 * e + 1, w 1)] else [(1024 * k + e, w 0)]

/-- Write accumulator words. -/
def Wg.putAcc (g : Wg) (l : List (Nat × TWord)) : Wg :=
  { g with acc := l.foldl (fun t x => Tabs.set t ⟨0, false⟩ x.1 x.2) g.acc
           accBad := g.accBad.filter (fun k => !l.any (fun x => x.1 == k)) }

/-- Values for elements. -/
abbrev Elts := List ((Nat × Nat) × MElt)

/-- Their words. -/
def Elts.words (f64 : Bool) (l : Elts) : List (Nat × TWord) := l.flatMap (fun x => eltWords f64 x.1.1 x.1.2 x.2)

/-- The elements of tiles below `nacc`, all with payload `p`. -/
def crazeTiles (nacc : Nat) (ts : List Nat) (p : Word) : Elts :=
  (ts.filter (· < nacc)).flatMap (fun t => (List.range 1024).map (fun e => ((t, e), ((0 : Nat), some p))))

/-- The row of a run from tile `td`: tile and first element. -/
def runRow (td r : Nat) : Nat × Nat := (td + r / 32, 32 * (r % 32))

/-- Rows of a matrix as elements of the run from `td`, the first at row `rq`, in tiles below `nacc`. -/
def runElts (nacc td rq : Nat) (m : Mat) : Elts :=
  (m.zipIdx.flatMap (fun r => let (t, e) := runRow td (rq + r.2); r.1.zipIdx.map (fun x => ((t, e + x.2), x.1)))).filter
    (fun x => x.1.1 < nacc)

/-- Rows of the run from `td`. -/
def Wg.runMat (g : Wg) (td rq n : Nat) : Mat :=
  (List.range n).map (fun i => let (t, e) := runRow td (rq + i); (List.range 32).map (fun j => g.elem t (e + j)))

/-- The grid of `r` × `c` tiles from `t` (R228). -/
def Wg.grid (g : Wg) (t r c : Nat) : Mat :=
  (List.range (32 * r)).map (fun i => (List.range (32 * c)).map (fun j =>
    g.elem (t + i / 32 * c + j / 32) (32 * (i % 32) + j % 32)))

/-- A grid as elements. -/
def gridElts (nacc t c : Nat) (m : Mat) : Elts :=
  (m.zipIdx.flatMap (fun r => r.1.zipIdx.map (fun x =>
    ((t + r.2 / 32 * c + x.2 / 32, 32 * (r.2 % 32) + x.2 % 32), x.1)))).filter (fun x => x.1.1 < nacc)

/-! ## Reading with the instruction's own crazes -/

/-- Originate a craze for an array instruction (R391, R431): a batch record of unit 2. -/
def Ctx.arrOriginate (c : Ctx) (e : MEntry) (cause : Nat) (va : Option VAddr) : Ctx × Word :=
  let (l, p) := c.l.originate cause 2 e.thread e.pc va true
  ({ c with l := l }, p)

/-- Change the workgroup. -/
def Ctx.onWg (c : Ctx) (f : Wg → Wg) : Ctx := { c with l := { c.l with wg := f c.l.wg } }

/-- The accumulator words of the tiles `ts` are read: each uncorrectable one takes a new 0x0A craze (R426). -/
def Ctx.scrubAcc (c : Ctx) (e : MEntry) (ts : List Nat) : Ctx :=
  let n := if c.l.wg.info.accF64 then 2048 else 1024
  (c.l.wg.accBad.filter (fun k => ts.contains (k / n))).foldl (fun c k =>
    let (c, p) := c.arrOriginate e 0x0A none
    c.onWg (fun g => g.putAcc [(k, ⟨p, true⟩)])) c

/-- The active plane is read: its uncorrectable elements take one new 0x0A craze (R426). -/
def Ctx.scrubPlane (c : Ctx) (e : MEntry) : Ctx :=
  let bad := c.l.wg.planeBad.filter (fun x => !x.1)
  if bad.isEmpty then c
  else
    let (c, p) := c.arrOriginate e 0x0A none
    c.onWg (fun g => { g with
      planeBad := g.planeBad.filter (fun x => x.1)
      active := { g.active with cols := g.active.cols.zipIdx.map (fun q =>
        let ks := (bad.filter (fun x => x.2.1 == q.2)).map (fun x => x.2.2)
        if ks.isEmpty then q.1
        else { q.1 with el := q.1.el.zipIdx.map (fun x => if ks.contains x.2 then (x.1.1, true) else x.1)
                        pay := if q.1.el.any Prod.snd then q.1.pay else p }) } })

/-- Scratchpad offset of `n` bytes at segment offset `o` of `sg1` of the issuing warp (R227). -/
def Ctx.arrAt (c : Ctx) (e : MEntry) (perm o n : Nat) : Option Nat :=
  match c.checkSeg e.sg1 e.thread o n [perm] [1] false with
  | .ok (.scr a) => some a.off
  | _ => none

/-- The scratchpad words `ks` are read: each uncorrectable one takes a new 0x0A craze (R426), whose record holds the word's offset
(R488). -/
def Ctx.scrubWords (c : Ctx) (e : MEntry) (ks : List Nat) : Ctx :=
  let own := c.l.ref.wg
  (ks.filter ((c.scr own).bad.contains ·)).foldl (fun c k =>
    let (c, p) := c.arrOriginate e 0x0A (some (BitVec.ofNat 57 (4 * k)))
    c.setScr own ((c.scr own).putWord k ⟨p, true⟩)) c

/-- Read `n` bytes at scratchpad offset `off`; a word that the instruction has read already keeps the value it had then (R225). -/
def Ctx.arrRead (c : Ctx) (e : MEntry) (off n : Nat) : Ctx × List MElt :=
  let own := c.l.ref.wg
  let c := c.scrubWords e ((wordsOf off n).filter (fun k => (Tabs.find? e.seen k).isNone))
  (c, bytesOf ((wordsOf off n).map (fun k => (Tabs.find? e.seen k).getD ((c.scr own).word k))) (off % 4) n)

/-- Rows in scratchpad (R227): offsets and strides, count, elements of a row. -/
structure MSrc where
  f : MFmt
  o : Nat
  s : Nat
  c : Nat
  ss : Nat
  cnt : Nat
  k : Nat

/-- Bytes of the scales of one row. -/
def MSrc.scales (m : MSrc) : Nat := if m.f.narrow then m.k / m.f.block else 0

/-- Aligned, and within `sg1`: as far as the operands `a`, `b`, `x` of the entry that give the offsets are clean. -/
def MSrc.sound (m : MSrc) (c : Ctx) (e : MEntry) : Bool :=
  (e.a.tag || m.o % 16 == 0) && (e.b.tag || m.s % 16 == 0) &&
  (!m.f.narrow || ((e.c.tag || m.c % 16 == 0) && m.ss % 16 == 0)) &&
  (List.range m.cnt).all (fun i =>
    (e.a.tag || (e.b.tag && i != 0) || (c.arrAt e 57 (m.o + i * m.s) (m.f.bytes m.k)).isSome) &&
    (!m.f.narrow || e.c.tag || (c.arrAt e 57 (m.c + i * m.ss) m.scales).isSome))

/-- Read them, row by row. -/
def MSrc.read (m : MSrc) (c : Ctx) (e : MEntry) : Ctx × List MRow :=
  (List.range m.cnt).foldl (fun (r : Ctx × List MRow) i =>
    let (c1, bs) := r.1.arrRead e ((r.1.arrAt e 57 (m.o + i * m.s) (m.f.bytes m.k)).getD 0) (m.f.bytes m.k)
    let (c2, sc) := if m.f.narrow then
        c1.arrRead e ((c1.arrAt e 57 (m.c + i * m.ss) m.scales).getD 0) m.scales else (c1, [])
    (c2, r.2 ++ [⟨m.f.unpack m.k bs, sc⟩])) (c, [])

/-- Does a clean scale of the rows hold 0xFF (R129)? -/
def badScale (rows : List MRow) : Bool := rows.any (fun r => r.sc.any (fun x => x.2.isNone && x.1 == 255))

/-! ## Start faults -/

/-- Nothing found yet, under the workgroup's chain mode. -/
def Wg.noStart (g : Wg) : MStart := ⟨none, false, none, ⟨0, false⟩, g.chainMode⟩

/-- A new 0x01 craze where no start fault has been found yet and `bad` holds; the barrier update then sets `crz` (R439). -/
def Ctx.startFault (c : Ctx) (e : MEntry) (s : MStart) (bad : Bool) : Ctx × MStart :=
  if !s.fault && bad then
    let (c, p) := c.arrOriginate e 0x01 none
    (c, { s with craze := some p, fault := true, arv := s.arv.map (fun x => (x.1, true)) })
  else (c, s)

/-- The barrier of `.arv` at field `bar` (R225, R439): outside `sg1` it crazes every destination with a new 0x01 craze. -/
def Ctx.start (c : Ctx) (e : MEntry) (bar : Option Nat) : Ctx × MStart :=
  match bar with
  | none => (c, c.l.wg.noStart)
  | some b =>
    match c.arrAt e 59 (16 * b) 16 with
    | some off => (c, { c.l.wg.noStart with arv := some (off, false) })
    | none =>
      let (c, p) := c.arrOriginate e 0x01 none
      (c, { c.l.wg.noStart with craze := some p, fault := true })

/-- The crazed instruction-wide operands, in R397's order, come after the start faults (log 29). -/
def MStart.wide (s : MStart) (ws : List (Option Word)) : MStart :=
  if s.fault then s else { s with craze := crazeOf ws }

/-- Crazes of the scalar sources. -/
def MEntry.srcCrazes (e : MEntry) : List (Option Word) :=
  [e.a, e.b, e.c].map (fun x => if x.tag then some x.val else none)

/-- The barrier field of an `.arv` form. -/
def barField (arv : Bool) (e : Ext) : Option Nat := if arv then some (xf e 12 18) else none

/-- Reserved bits of a form with a barrier field: [11:0], and the field itself without `.arv`. -/
def barBad (arv : Bool) (e : Ext) : Bool := xf e 0 12 != 0 || (!arv && xf e 12 18 != 0)

/-- A shadow plane whose every element is crazed with `p` (R407). A depth of 0 counts as 32 (log 30); the value of a crazed format
register is no format (log 113). -/
def crazedPlane (fmt : Nat) (fm : Word) (unknown : Bool) (k32 : Nat) (p : Word) : Plane :=
  let k := 32 * max k32 1
  { valid := true, fmt, fm := if unknown then 0 else fm, unknown, k, cols := List.replicate 32 ⟨List.replicate k (0, true), [], p⟩ }

/-! ## Streams -/

/-- What a stream finds at its start. -/
structure MIn where
  st : MStart
  fa : Option MFmt
  rows : List MRow

/-- The rows' sources. -/
def streamSrc (e : MEntry) (f : MFmt) (k : Nat) : MSrc :=
  match e.ins with
  | .mma _ _ _ _ _ _ _ x =>
    ⟨f, e.a.val.toNat, e.b.val.toNat, e.c.val.toNat, xf x 32 16, (streamRows e.ins).1, k⟩
  | _ => ⟨f, 0, 0, 0, 0, 0, k⟩

/-- The format of a plane: `none` where it is invalid, unassigned, or not known. -/
def Plane.format (p : Plane) : Option MFmt := if p.valid && !p.unknown then mfmt p.fmt p.fm else none

/-- Is a product of operands of format `fa` with the active plane a start fault (R226, R407)? A format that is not known, because its
register was crazed, faults nothing: the operand's craze is the result. -/
def Wg.badPair (g : Wg) (fa : Option MFmt) (known : Bool) : Bool :=
  !g.active.valid || badScale (g.active.cols.map MCol.row) ||
  (match fa with
    | none => known
    | some f => (!g.active.unknown && (match g.active.format with
      | some fb => !pairLegal f fb g.info.accF64
      | none => true)))

/-- The start of `mma` or `mfeed.st` (R221, R407): what is read then, and the start faults found then; `useA`: the position's own A
operand counts (R232). -/
def Ctx.streamBegin (c : Ctx) (e : MEntry) (useA : Bool) : Ctx × MStart :=
  let c := c.scrubPlane e
  let g := c.l.wg
  let p := g.active
  let (m, td, rq) := streamRows e.ins
  let past := decide (g.info.nacc < td + (rq + m + 31) / 32)
  match e.ins with
  | .mma _ _ arv _ _ _ _ x =>
    let code := xf x 60 4
    let fa := g.fmtOf code
    let (c, st) := c.start e (barField arv x)
    let bad := barBad arv x || xf x 30 2 != 0 || (code < 8 && xf x 32 16 != 0) || past || g.badPair fa (g.fmCraze code).isNone ||
      (match fa with
        | some fa => p.valid && useA && !(streamSrc e fa p.k).sound c e
        | none => false)
    let (c, st) := c.startFault e st bad
    (c, { st.wide ((if useA then e.srcCrazes else []) ++ [g.fmCraze code]) with fm := g.fmUsed code })
  | .mfeedStream _ _ x =>
    let code := xf x 60 4
    let fa := if code < 5 then mfmt code 0 else none
    let ts := xf x 55 5
    let bad := xf x 0 36 != 0 || xf x 36 7 != 0 || past || g.badPair fa true ||
      decide (g.info.nacc < ts + (m + 31) / 32 * (p.k / 32))
    c.startFault e g.noStart bad
  | _ => (c, g.noStart)

/-- The format of the streamed operand, as the start `st` found it. -/
def streamFmt (i : Instr) (st : MStart) : Option MFmt :=
  match i with
  | .mma _ _ _ _ _ _ _ x => mfmt (xf x 60 4) st.fm.val
  | .mfeedStream _ _ x => if xf x 60 4 < 5 then mfmt (xf x 60 4) 0 else none
  | _ => none

/-- The streamed rows of an instruction that started with `st`; a reserved scale among them is a start fault still (R407). -/
def Ctx.streamIn (c : Ctx) (e : MEntry) (st : MStart) (useA : Bool) : Ctx × MIn :=
  let p := c.l.wg.active
  match st.craze, streamFmt e.ins st, useA with
  | none, some f, true =>
    match e.ins with
    | .mfeedStream _ _ x =>
      let (m, _, _) := streamRows e.ins
      let ts := xf x 55 5
      let c := c.scrubAcc e (tileRun ts ((m + 31) / 32 * (p.k / 32)))
      let facc := faccOf c.l.wg.info.accF64
      (c, ⟨st, some f, ((c.l.wg.grid ts ((m + 31) / 32) (p.k / 32)).take m).map (fun r => ⟨roundElts facc f r, []⟩)⟩)
    | _ =>
      let (c, rows) := (streamSrc e f p.k).read c e
      let (c, st) := c.startFault e st (badScale rows)
      (c, ⟨st, some f, rows⟩)
  | _, fa, _ => (c, ⟨st, fa, []⟩)

/-- Does the stream start from +0.0? -/
def streamZero : Instr → Bool
  | .mma _ z .. => z
  | .mfeedStream _ z _ => z
  | _ => false

/-- The values before the first group: the destination's, or +0.0 under `.z`. -/
def Ctx.streamInit (c : Ctx) (e : MEntry) : Ctx × Mat :=
  let (m, td, rq) := streamRows e.ins
  if streamZero e.ins then (c, Mat.zeros m 32)
  else
    let c := c.scrubAcc e (streamTiles e.ins)
    (c, c.l.wg.runMat td rq m)

/-- Every element takes payload `p`, where it is not crazed yet. -/
def Mat.craze (p : Word) (m : Mat) : Mat := m.map (fun r => r.map (fun x => if x.2.isSome then x else (0, some p)))

/-- Elements whose result-exponent check fails (R250, R431): one new 0x0F craze, and the core goes to the head of the
cone sweep (R432). -/
def Ctx.suspects (c : Ctx) (e : MEntry) (m : Elts) : Ctx × Elts :=
  let hit := fun (x : (Nat × Nat) × MElt) => x.2.2.isNone && c.l.wg.suspect.contains x.1
  if m.any hit then
    let (d, p) := c.arrOriginate e 0x0F none
    ({ (d.onWg (fun g => { g with suspect := g.suspect.filter (fun k => !m.any (fun x => x.1 == k)) })) with
        s := d.s.sweepFirst d.l.wg.core },
      m.map (fun x => if hit x then (x.1, ((0 : Nat), some p)) else x))
  else (c, m)

/-- One position's part of a stream over running values. -/
def Ctx.streamStep (c : Ctx) (e : MEntry) (i : MIn) (rows : List MRow) (init : Mat) : Ctx × Mat :=
  let g := c.l.wg
  let (_, td, rq) := streamRows e.ins
  -- a plane of unknown format has no clean element: no number of it enters the sum
  match i.st.craze, i.fa, (if g.active.unknown then i.fa else g.active.format) with
  | some p, _, _ => (c, init.craze p)
  | none, some fa, some fb =>
    let m := accumulateAll (faccOf g.info.accF64) fa fb init rows (g.active.cols.map MCol.row)
    let (c, x) := c.suspects e (runElts 1024 td rq m)
    (c, Mat.mapIdx (fun i j v =>
      let k := runRow td (rq + i)
      match x.find? (fun y => y.1 == (k.1, k.2 + j)) with
      | some y => if y.2.2.isSome then y.2 else v
      | none => v) m)
  | _, _, _ => (c, init)

/-- What a stream writes. A start fault crazes every destination whatever it held (R407). -/
def streamOut (g : Wg) (e : MEntry) (i : MIn) (m : Mat) : MOut :=
  let (n, td, rq) := streamRows e.ins
  let m := match i.st.craze with
    | some p => (Mat.zeros n 32).craze p
    | none => m
  { MOut.none with acc := (runElts g.info.nacc td rq m).words g.info.accF64, arv := i.st.arv }

/-- What an unchained stream that started with `st` writes. -/
def Ctx.endStream (c : Ctx) (e : MEntry) (st : MStart) : Ctx × MOut :=
  let (c, i) := c.streamIn e st true
  match i.st.craze with
  | some _ => (c, streamOut c.l.wg e i [])
  | none =>
    let (c, m) := c.streamInit e
    let (c, m) := c.streamStep e i i.rows m
    (c, streamOut c.l.wg e i m)

/-! ## The other instructions -/

/-- The column runs of an `mlds`. -/
def mldsSrc (e : MEntry) (x : Ext) (f : MFmt) : MSrc :=
  ⟨f, e.a.val.toNat, e.b.val.toNat, e.c.val.toNat, xf x 32 16, 32, 32 * xf x 53 7⟩

/-- `mlds` starts (R233, R407). Under a crazed format register no check rests on the format (log 113). -/
def Ctx.mldsBegin (c : Ctx) (e : MEntry) (arv : Bool) (x : Ext) : Ctx × MStart :=
  let g := c.l.wg
  let code := xf x 60 4
  let k32 := xf x 53 7
  let (c, st) := c.start e (barField arv x)
  let bad := barBad arv x || xf x 48 5 != 0 || xf x 30 2 != 0 || (code < 8 && xf x 32 16 != 0) || k32 == 0 || decide (64 < k32) ||
    (match g.fmtOf code with
      | some f => decide (f.pf < k32) || !(mldsSrc e x f).sound c e
      | none => (g.fmCraze code).isNone)
  let (c, st) := c.startFault e st bad
  (c, { st.wide (e.srcCrazes ++ [g.fmCraze code]) with fm := g.fmUsed code })

/-- `mlds` reads its columns and makes the plane (R233). -/
def Ctx.mldsEnd (c : Ctx) (e : MEntry) (x : Ext) (st : MStart) : Ctx × MOut :=
  let code := xf x 60 4
  let k32 := xf x 53 7
  match st.craze, mfmt code st.fm.val with
  | none, some f =>
    let (c, rows) := (mldsSrc e x f).read c e
    (c, { MOut.none with arv := st.arv
                         plane := some ⟨true, code, st.fm.val, false, 32 * k32, rows.map MRow.col⟩ })
  | p, _ => (c, { MOut.none with plane := some (crazedPlane code st.fm.val st.fm.tag k32 (p.getD 0)), arv := st.arv })

/-- `mfeed`, shadow form (R237). -/
def Ctx.prepFeed (c : Ctx) (e : MEntry) (t : Bool) (x : Ext) : Ctx × MOut :=
  let g := c.l.wg
  let code := xf x 60 4
  let k32 := xf x 36 7
  let ts := xf x 55 5
  let f := if code < 5 then mfmt code 0 else none
  -- FP64 is legal only with FP64 accumulators (log 114)
  let bad := xf x 0 36 != 0 || xf x 43 12 != 0 || k32 == 0 || decide (g.info.nacc < ts + k32) ||
    (match f with
      | some f => decide (f.pf < k32) || (code == 1 && !g.info.accF64)
      | none => true)
  let (c, st) := c.startFault e g.noStart bad
  match st.craze, f with
  | none, some f =>
    let c := c.scrubAcc e (tileRun ts k32)
    let facc := faccOf g.info.accF64
    let col := fun (n : Nat) => (List.range (32 * k32)).map (fun k =>
      c.l.wg.elem (ts + k / 32) (if t then 32 * n + k % 32 else 32 * (k % 32) + n))
    (c, { MOut.none with plane := some ⟨true, code, 0, false, 32 * k32,
            (List.range 32).map (fun n => (MRow.mk (roundElts facc f (col n)) []).col)⟩ })
  | p, _ => (c, { MOut.none with plane := some (crazedPlane code 0 false k32 (p.getD 0)) })

/-- The rows of an `mldacc`. -/
def ldaccSrc (e : MEntry) (x : Ext) (f : MFmt) : MSrc :=
  ⟨f, e.a.val.toNat, e.b.val.toNat, 0, 0, 32 * (xf x 50 5 + 1), 32⟩

/-- The format of an `mldacc`. -/
def ldaccFmt (x : Ext) : Option MFmt := if xf x 60 4 < 5 then mfmt (xf x 60 4) 0 else none

/-- `mldacc` starts (R238, R407). -/
def Ctx.ldaccBegin (c : Ctx) (e : MEntry) (arv : Bool) (x : Ext) : Ctx × MStart :=
  let g := c.l.wg
  let (c, st) := c.start e (barField arv x)
  let bad := barBad arv x || xf x 30 20 != 0 || decide (g.info.nacc < xf x 55 5 + xf x 50 5 + 1) ||
    (match ldaccFmt x with
      | some f => !(ldaccSrc e x f).sound c e
      | none => true)
  let (c, st) := c.startFault e st bad
  (c, st.wide e.srcCrazes)

/-- `mldacc` reads its rows (R238). -/
def Ctx.ldaccEnd (c : Ctx) (e : MEntry) (x : Ext) (st : MStart) : Ctx × MOut :=
  let g := c.l.wg
  let td := xf x 55 5
  match st.craze, ldaccFmt x with
  | none, some f =>
    let (c, rows) := (ldaccSrc e x f).read c e
    let facc := faccOf g.info.accF64
    let m : Mat := rows.map (fun r => r.el.map (fun y => if y.2.isSome then y else (roundTo (valueOf y.1 f.f) facc rne, none)))
    (c, { MOut.none with acc := (runElts g.info.nacc td 0 m).words g.info.accF64, arv := st.arv })
  | p, _ => (c, { MOut.none with
      acc := (crazeTiles g.info.nacc (tileRun td (xf x 50 5 + 1)) (p.getD 0)).words g.info.accF64, arv := st.arv })

/-- An `mc` register as a coefficient. -/
def Wg.coef (g : Wg) (k : Nat) : Coef :=
  let r := g.mc.getD k (0, false)
  (valueOf r.1.toNat fp64, if r.2 then some (r.1.setWidth 32) else none)

/-- `macc` (R239). -/
def Ctx.prepMacc (c : Ctx) (e : MEntry) (x : Ext) : Ctx × MOut :=
  let g := c.l.wg
  let op := xf x 60 4
  let tx := xf x 55 5
  let ty := xf x 50 5
  let td := xf x 45 5
  let n := xf x 40 5 + 1
  let gw := xf x 25 3 + 1
  let fo := if xf x 28 4 < 5 then mfmt (xf x 28 4) 0 else none
  let bad := xf x 0 25 != 0 || decide (3 < op) || (op == 2 && fo.isNone) || decide (g.info.nacc < td + n) ||
    decide (g.info.nacc < tx + n) || (op == 1 && decide (g.info.nacc < ty + n))
  let (c, st) := c.startFault e g.noStart bad
  match st.craze with
  | some p => (c, { MOut.none with acc := (crazeTiles g.info.nacc (tileRun td n) p).words g.info.accF64 })
  | none =>
    let c := c.scrubAcc e (tileRun tx n ++ (if op = 1 then tileRun ty n else []))
    let facc := faccOf g.info.accF64
    let al := g.coef (xf x 36 4)
    let be := g.coef (xf x 32 4)
    let one := fun (q k : Nat) =>
      let v := c.l.wg.elem (tx + q) k
      match op with
      | 0 => match crazeOf [al.2, v.2] with
        | some p => ((0 : Nat), some p)
        | none => (roundTo (X.mul al.1 (valueOf v.1 facc)) facc rne, none)
      | 1 => combElt facc al v be (c.l.wg.elem (ty + q) k)
      | 2 => match v.2, fo with
        | none, some f => (roundTo (valueOf (roundTo (valueOf v.1 facc) f.f rne) f.f) facc rne, none)
        | p, _ => (0, p)
      | _ =>
        let diag := 32 * (q / gw) + k / 32 == 32 * (q % gw) + k % 32
        match crazeOf [al.2, v.2] with
        | some p => (0, some p)
        | none => (roundTo (X.add false (valueOf v.1 facc) (if diag then al.1 else .zero false)) facc rne, none)
    let all : Elts := (List.range n).flatMap (fun q => (List.range 1024).map (fun k => ((td + q, k), one q k)))
    (c, { MOut.none with acc := all.words g.info.accF64 })

/-- The fields of an `mstore`: whether `.arv` is set, and the extension word. -/
def storeExt : Instr → Bool × Ext
  | .mstore _ arv _ _ x => (arv, x)
  | .mstoreSs _ arv _ x => (arv, x)
  | .mstoreMc _ arv _ x => (arv, x)
  | _ => (false, 0)

/-- The format that a tile `mstore` writes in. Under a crazed format register the width of the elements is not known: a free value says
whether two of them share a byte (log 113). -/
def Wg.storeFmt (g : Wg) (code : Nat) : Option MFmt :=
  match g.fmCraze code with
  | some p => mfmt 8 (if Config.crazedFormatIsNarrowest p then 0x04000000 else 0x08000000)
  | none => g.fmtOf code

/-- Start faults of an `mstore` that do not rest on where its bytes lie (R240). -/
def storeBad (g : Wg) (e : MEntry) : Bool :=
  let (arv, x) := storeExt e.ins
  barBad arv x || xf x 30 10 != 0 || (!e.a.tag && e.a.val.toNat % 16 != 0) ||
  (match e.ins with
    | .mstore .. =>
      let code := xf x 60 4
      xf x 48 2 == 3 || (decide (8 ≤ code) && xf x 40 8 == 255) || decide (g.info.nacc < xf x 55 5 + xf x 50 5 + 1) ||
      (!e.b.tag && e.b.val.toNat % 16 != 0) || ((g.fmCraze code).isNone && (g.fmtOf code).isNone)
    | _ => xf x 50 14 != 0)

/-- Rows that `mstore` writes: segment offset and cells. -/
def Wg.storeRows (g : Wg) (e : MEntry) : List (Nat × List WCell) :=
  match e.ins with
  | .mstore _ _ _ _ x =>
    let code := xf x 60 4
    match g.storeFmt code with
    | none => []
    | some f =>
      let sd := if f.narrow then xf x 40 8 else 127
      let facc := faccOf g.info.accF64
      let crz := g.fmCraze code
      (g.runMat (xf x 55 5) 0 (32 * (xf x 50 5 + 1))).zipIdx.map (fun r =>
        (e.a.val.toNat + r.2 * e.b.val.toNat,
         f.pack (r.1.map (fun y => match crazeOf [crz, y.2] with
           | some p => ((0 : Nat), some p)
           | none => (convert y.1 facc f.f rne 127 sd, none)))))
  | .mstoreSs .. => [(e.a.val.toNat, cellsOf 0 16 g.ss.toNat none)]
  | .mstoreMc .. =>
    [(e.a.val.toNat, (List.range 16).flatMap (fun k =>
      let r := g.mc.getD k (0, false)
      if r.2 then cellsOf (8 * k) 8 0 (some (r.1.setWidth 32)) else cellsOf (8 * k) 8 r.1.toNat none))]
  | _ => []

/-- `mstore` (R240, R439): a crazed source writes nothing (log 76); a barrier outside `sg1` crazes what is written. -/
def Ctx.prepStore (c : Ctx) (e : MEntry) : Ctx × MOut :=
  let (arv, x) := storeExt e.ins
  let c := match e.ins with
    | .mstore .. => c.scrubAcc e (tileRun (xf x 55 5) (xf x 50 5 + 1))
    | _ => c
  let (c, st) := c.start e (barField arv x)
  let outside := st.craze
  let g := c.l.wg
  let clean := (crazeOf e.srcCrazes).isNone
  -- of rows at a crazed stride only the first has a known place
  let rows := if storeBad g e || e.a.tag then [] else if clean then g.storeRows e else (g.storeRows e).take 1
  let placed := rows.map (fun r => (c.arrAt e 58 r.1 r.2.length, r.2))
  let bad := storeBad g e || placed.any (fun r => r.1.isNone)
  -- one record for the instruction
  let (c, st) := if st.fault then (c, st) else c.startFault e st bad
  if bad || !clean then (c, { MOut.none with arv := st.arv })
  else
    let out : List (Nat × List WCell) := placed.map (fun r => (r.1.getD 0, match outside with
      | some p => r.2.map (fun w : WCell => { w with crz := some p })
      | none => r.2))
    (c, { MOut.none with arv := st.arv, scr := out })

/-- `mnorm` (R241). -/
def Ctx.prepNorm (c : Ctx) (e : MEntry) (d rt : Bool) (k : Nat) (x : Ext) : Ctx × MOut :=
  let g := c.l.wg
  let tx := xf x 59 5
  let ty := xf x 54 5
  let n := xf x 49 5 + 1
  let bad := xf x 0 49 != 0 || decide (g.info.nacc < tx + n) || (d && decide (g.info.nacc < ty + n))
  let (c, st) := c.startFault e g.noStart bad
  -- a crazed guard comes after the sources (R394, R395)
  match st.craze with
  | some p => (c, { MOut.none with mc := some (k, p.setWidth 64, true) })
  | none =>
    let c := c.scrubAcc e (tileRun tx n ++ (if d then tileRun ty n else []))
    let xs := c.l.wg.runMat tx 0 (32 * n)
    let ys := if d then some (c.l.wg.runMat ty 0 (32 * n)) else none
    match crazeOf [normCraze xs ys, e.gcrz] with
    | some p => (c, { MOut.none with mc := some (k, p.setWidth 64, true) })
    | none =>
      let s := normRows (faccOf g.info.accF64) 0 xs ys
      let s := if rt then roundTo (sqrtX (valueOf s fp64)) fp64 rne else s
      (c, { MOut.none with mc := some (k, BitVec.ofNat 64 s, false) })

/-- The checks of an instruction that forms several products: tile 32 + 16 n + q of `Wg.suspect` stands for elements 1024 q on of its
product `n`, row by row; the elements of the destination grid from tile `td`, `w` tiles wide, are those of its product `last`. -/
def Wg.check (g : Wg) (td last w : Nat) (p : Word) : Check :=
  { p, fails := fun n i j =>
      let e := 32 * w * i + j
      g.suspect.contains (32 + 16 * n + e / 1024, e % 1024) ||
      (n == last && g.suspect.contains (td + i / 32 * w + j / 32, 32 * (i % 32) + j % 32)) }

/-- An instruction of several products runs under its checks (R431): where one fails, one new 0x0F craze, and the core goes to the head
of the cone sweep (R432). -/
def Ctx.checked (c : Ctx) (e : MEntry) (td last w : Nat) (f : Check → Mat × Bool) : Ctx × Mat :=
  let (d, p) := c.arrOriginate e 0x0F none
  let (m, hit) := f (c.l.wg.check td last w p)
  if hit then
    ({ (d.onWg (fun g => { g with suspect := [] })) with s := d.s.sweepFirst d.l.wg.core }, m)
  else (c, m)

/-- `mpoly` (R242). -/
def Ctx.prepPoly (c : Ctx) (e : MEntry) (x : Ext) : Ctx × MOut :=
  let g := c.l.wg
  let code := xf x 60 4
  let tx := xf x 55 5
  let td := xf x 50 5
  let d := xf x 46 4
  let f := if code < 5 then mfmt code 0 else none
  let bad := xf x 0 46 != 0 || f.isNone || (code == 1) != g.info.accF64 || decide (g.info.nacc ≤ tx) ||
    decide (g.info.nacc ≤ td)
  let (c, st) := c.startFault e g.noStart bad
  match st.craze, f with
  | none, some f =>
    let c := c.scrubAcc e [tx]
    let x0 := c.l.wg.grid tx 1 1
    let (c, m) := c.checked e td (d - 2) 1 (fun k => polyOf (faccOf g.info.accF64) f k ((List.range (d + 1)).map g.coef) x0)
    (c, { MOut.none with acc := (gridElts g.info.nacc td 1 m).words g.info.accF64, clear := true })
  | p, _ => (c, { MOut.none with acc := (crazeTiles g.info.nacc [td] (p.getD 0)).words g.info.accF64, clear := true })

/-- Does it read scratchpad (R225)? It is found out when it runs, what it writes when its last read is done. -/
def readsScr : Instr → Bool
  | .mlds .. => true
  | .mma .. => true
  | .mldacc .. => true
  | _ => false

/-- An unchained instruction that reads scratchpad starts. -/
def Ctx.beginRead (c : Ctx) (e : MEntry) : Ctx × MStart :=
  match e.ins with
  | .mlds _ arv _ _ _ x => c.mldsBegin e arv x
  | .mldacc _ arv _ _ x => c.ldaccBegin e arv x
  | _ => c.streamBegin e true

/-- What an unchained instruction that started with `st` writes, once it has read all it reads. -/
def Ctx.endRead (c : Ctx) (e : MEntry) (st : MStart) : Ctx × MOut :=
  match e.ins with
  | .mlds _ _ _ _ _ x => c.mldsEnd e x st
  | .mldacc _ _ _ _ x => c.ldaccEnd e x st
  | _ => c.endStream e st

/-- What an unchained instruction that reads no scratchpad and is no `msoak` does (R221). A crazed guard crazes the coefficient
register that it writes (R395, log 28). -/
def Ctx.prepare (c : Ctx) (e : MEntry) : Ctx × MOut :=
  match e.ins with
  | .mcoef _ d _ => (c, { MOut.none with mc := some (match e.gcrz with
      | some p => (d.toNat % 16, p.setWidth 64, true)
      | none => (d.toNat % 16, e.wide, false)) })
  | .mcoefS _ d _ x =>
    let (c, st) := c.startFault e c.l.wg.noStart (x != 0)
    (c, { MOut.none with mc := some (match (st.wide (e.srcCrazes ++ [e.gcrz])).craze with
      | some p => (d.toNat % 16, p.setWidth 64, true)
      | none => (d.toNat % 16, e.wide, false)) })
  | .mchain _ m => (c, { MOut.none with mode := some (match m with
      | .off => 0
      | .nsplit => 1
      | .ksplit => 2) })
  | .mswap _ => (c, { MOut.none with swap := true })
  | .mzero _ d n =>
    let g := c.l.wg
    let ts := tileRun (d.toNat % 32) (n.toNat + 1)
    let (c, st) := c.startFault e g.noStart (decide (g.info.nacc < d.toNat % 32 + n.toNat + 1))
    let z := fun (x : (Nat × Nat) × MElt) => match st.craze with
      | some p => (x.1, ((0 : Nat), some p))
      | none => (x.1, ((0 : Nat), (none : Option Word)))
    (c, { MOut.none with acc := Elts.words g.info.accF64 ((crazeTiles g.info.nacc ts 0).map z) })
  | .mfeedShadow _ t x => c.prepFeed e t x
  | .mfeedStream .. =>
    let (c, st) := c.streamBegin e true
    c.endStream e st
  | .macc _ x => c.prepMacc e x
  | .mstore .. => c.prepStore e
  | .mstoreSs .. => c.prepStore e
  | .mstoreMc .. => c.prepStore e
  | .mnorm _ d rt k x => c.prepNorm e d rt (k.toNat % 16) x
  | .mpoly _ x => c.prepPoly e x
  | _ => (c, MOut.none)

end Sys2Proof.Machine
end

