-- ==== Sys2Proof/Machine/MatrixArray.lean ====
section
/-! DEFINITION. The events of the matrix array (R218, R221 to R225, R232, R243 to R249, R431 to R434, R439): start,
completion, chained operations, the soak. An instruction takes what it reads of registers, planes and tiles at its start, reads
scratchpad while it runs, and writes at its completion; the start conditions of R222 keep the conflicting ones apart. Cycle counts
are out of the model (log 7). -/

namespace Sys2Proof.Machine

open Sys2Proof.Num

/-- Act on the lane of a warp and answer with a value. -/
def State.ask {α : Type} (s : State) (r : WRef) (d : α) (f : Ctx → Ctx × α) : State × α :=
  match s.laneOf r with
  | none => (s, d)
  | some l => let (c, x) := f ⟨s, l⟩; (c.s.putLane c.l, x)

/-- Entry `id` of a workgroup's matrix queue. -/
def Wg.mEntry (g : Wg) (id : Nat) : Option MEntry := g.mq.find? (fun e => e.id == id)

/-- Replace entry `id`. -/
def Wg.setEntry (g : Wg) (id : Nat) (f : MEntry → MEntry) : Wg :=
  { g with mq := g.mq.map (fun e => if e.id = id then f e else e) }

/-- Change a workgroup. -/
def State.modWg (s : State) (n : Nat) (f : Wg → Wg) : State :=
  match s.wg? n with
  | none => s
  | some g => s.setWg n (f g)

/-- Entries of the workgroup issued before entry `id` and not completed. -/
def Wg.earlier (g : Wg) (id : Nat) : List MEntry := g.mq.filter (fun e => decide (e.id < id) && !e.stopped)

/-- Is the unit that the entry needs free on its core (R222)? The compute unit takes the next instruction while streams
run, and while a soak of another workgroup stands at an iteration boundary (R224). `MTXX` can make the units take turns, and keep a
soak from yielding (R252). -/
def State.unitFree (s : State) (n : Nat) (g : Wg) (e : MEntry) : Bool :=
  let x := s.rd (Reg.mtxx g.core)
  s.wgs.all (fun h => h.2.core != g.core || h.2.mq.all (fun y =>
    !y.started || y.stopped || (onLoadUnit y.ins != onLoadUnit e.ins && !x.getLsbD 1) ||
    streams y.ins || (isSoak y.ins && h.1 != n && !x.getLsbD 0)))

/-- The start conditions of R218, R222 and R330, but for the order among workgroups. -/
def State.mFit (s : State) (n : Nat) (g : Wg) (e : MEntry) : Bool :=
  let before := g.earlier e.id
  let k := if g.active.valid then g.active.k else 0
  let slots := (s.wgs.filter (fun x => x.2.core == g.core && x.2.planeSlot)).length
  let offer := if (s.rd (Reg.mtxx g.core)).getLsbD 2 then 1 else 4
  !e.started && !g.stopping &&
  before.all (fun y => (y.started || onLoadUnit y.ins != onLoadUnit e.ins) &&
    !conflict (itemsOf k y.ins) (itemsOf k e.ins)) &&
  (match e.ins with
    | .mpoly .. => before.isEmpty
    | .msoak .. => before.isEmpty
    | _ => true) &&
  s.unitFree n g e && (!usesPlane e.ins || g.planeSlot || decide (slots < offer))

/-- Entry `x` was issued before entry `y`: ties go by warp slot (R224). -/
def MEntry.before (x y : MEntry) : Bool :=
  decide (x.issued.1 < y.issued.1) || (x.issued.1 == y.issued.1 && decide (x.issued.2 < y.issued.2))

/-- The instructions of other workgroups of the core that wait for the unit of `e` and could start: one that waits for its partners
could not. -/
def State.rivals (s : State) (n : Nat) (g : Wg) (e : MEntry) : List MEntry :=
  s.wgs.flatMap (fun h => if h.1 = n || h.2.core != g.core then [] else
    h.2.mq.filter (fun y => onLoadUnit y.ins == onLoadUnit e.ins && y.chained.isNone && s.mFit h.1 h.2 y))

/-- May the entry start: its conditions hold, and no instruction of another workgroup that was issued earlier could start too
(R224)? -/
def State.mReady (s : State) (n : Nat) (g : Wg) (e : MEntry) : Bool :=
  s.mFit n g e && (s.rivals n g e).all (fun y => !y.before e)

/-- The entry starts: it takes a plane slot where it needs one, and holds what it will write. -/
def Wg.startEntry (g : Wg) (e : MEntry) (o : MOut) : Wg :=
  { g.setEntry e.id (fun x => { x with started := true, out := some o }) with
    planeSlot := g.planeSlot || usesPlane e.ins }

/-- The entry starts, and reads scratchpad while it runs. -/
def Wg.startReader (g : Wg) (e : MEntry) (st : MStart) : Wg :=
  { g.setEntry e.id (fun x => { x with started := true, head := some st }) with
    planeSlot := g.planeSlot || usesPlane e.ins }

/-- What the entry will write is found out. -/
def Wg.putOut (g : Wg) (id : Nat) (o : MOut) : Wg := g.setEntry id (fun x => { x with out := some o })

/-! ## The soak register (R246) -/

/-- `lastres`, `tag`, `recipe`, `status`, `iter`. -/
def ssOf (last tag rcp st iter : Nat) : BitVec 128 :=
  BitVec.ofNat 128 (last * 2 ^ 64 + tag * 2 ^ 48 + rcp * 2 ^ 36 + st * 2 ^ 32 + iter)

/-- A field of `ss`. -/
def ssField (v : BitVec 128) (lo len : Nat) : Nat := (v.extractLsb' lo len).toNat

/-- Set its `status`. -/
def ssStatus (v : BitVec 128) (st : Nat) : BitVec 128 :=
  ssOf (ssField v 64 64) (ssField v 48 16) (ssField v 36 4) st (ssField v 0 16)

/-- The soak stops: the entry waits for the release of its threads, and both planes are invalid (R247, R248). -/
def Wg.stopSoak (g : Wg) (id : Nat) : Wg :=
  { g.setEntry id (fun x => { x with stopped := true, started := true }) with
    active := ⟨false, 0, 0, false, 0, []⟩, shadow := ⟨false, 0, 0, false, 0, []⟩, planeBad := [] }

/-- The soak's fields in its extension word. -/
structure Soak where
  rcp : Nat
  fo : Nat
  tx : Nat
  ta : Nat
  r : Nat
  c : Nat
  ns : Nat
  dlog : Nat
  cap : Nat
  tag : Nat
  ch : Bool

/-- The fields of an `msoak`. -/
def soakOf (ch : Bool) (x : Ext) : Soak :=
  { rcp := xf x 60 4, fo := xf x 56 4, tx := xf x 51 5, ta := xf x 46 5, r := (soakShape ch x).1, c := (soakShape ch x).2,
    ns := xf x 36 4, dlog := xf x 32 4, cap := xf x 24 8, tag := xf x 0 16, ch }

/-- A start fault of R243, R249 or R434. -/
def soakBad (g : Wg) (ch : Bool) (x : Ext) : Bool :=
  let k := soakOf ch x
  let cols := xf x 40 4 + 1
  let need := (if k.rcp = 0 then 2 * k.r * k.r + k.r * k.c else 2 * k.c * k.c) * (if g.info.accF64 then 2 else 1)
  xf x 16 8 != 0 || decide (2 < k.rcp) || decide (4 < k.fo) || (k.fo == 1) != g.info.accF64 ||
  (k.rcp != 1 && k.ta != 0) ||
  (if ch then k.rcp != 0 || cols % 4 != 0 || g.chainMode != 2 else decide (4 < cols)) ||
  (k.rcp != 0 && k.r != k.c) ||
  (if k.rcp = 0 then decide (k.ns = 0 ∨ 5 < k.ns) else if k.rcp = 1 then k.ns != 0 else decide (k.ns = 0 ∨ 14 < k.ns)) ||
  decide (48 < need) || decide (g.info.nacc < k.tx + k.r * k.c) ||
  (k.rcp == 1 && decide (g.info.nacc < k.ta + k.r * k.c))

/-- The extension word of an `msoak`. -/
def soakExt : Instr → Ext
  | .msoak _ _ x => x
  | _ => 0

/-- `msoak` fails at its start (R407): X crazed, `ss` unchanged, the threads released. -/
def Ctx.soakFail (c : Ctx) (e : MEntry) : Ctx :=
  let k := soakOf (isChained e.ins) (soakExt e.ins)
  let (c, p) := c.arrOriginate e 0x01 none
  let g := c.l.wg
  c.onWg (fun _ => ((g.putAcc ((crazeTiles g.info.nacc (tileRun k.tx (k.r * k.c)) p).words g.info.accF64)).setEntry e.id
    (fun x => { x with started := true })).stopSoak e.id)

/-- `msoak` starts (R247): it continues the soak that `ss` names, or begins one. -/
def Wg.soakBegin (g : Wg) (e : MEntry) : Wg :=
  let k := soakOf (isChained e.ins) (soakExt e.ins)
  let go := ssField g.ss 32 4 == 1 && ssField g.ss 48 16 == k.tag && ssField g.ss 36 4 == k.rcp
  { g.startEntry e MOut.none with ss := if go then g.ss else ssOf 0 k.tag k.rcp 1 0 }

/-! ## Chained operations (R232, R434) -/

/-- The instruction at one position of a chained operation. -/
structure Pos where
  n : Nat
  e : MEntry

/-- The lane of its warp. -/
def Pos.ref (p : Pos) : WRef := ⟨p.n, p.e.warp⟩

/-- The waiting instructions of the kiln group of `g` that carry chain count `k`, in position order. -/
def State.chainAt (s : State) (g : Wg) (k : Nat) : List Pos :=
  g.kiln.filterMap (fun n => match s.wg? n with
    | none => none
    | some h => (h.mq.find? (fun e => e.chained == some k && !e.started)).map (Pos.mk n))

/-- One instruction of a failed chained operation (R434): its destinations take a new 0x01 craze of its own core. -/
def Ctx.chainFail (c : Ctx) (e : MEntry) : Ctx :=
  if isSoak e.ins then c.soakFail e
  else
    let bar := match e.ins with
      | .mma _ _ arv _ _ _ _ x => barField arv x
      | _ => none
    let (c, st) := c.start e bar
    let (c, st) := c.startFault e st true
    c.onWg (fun g => g.startEntry e (streamOut g e ⟨st, none, []⟩ []))

/-- The operation of chain count `k` fails: every waiting instruction of it completes crazed, and one that arrives later
fails at once. -/
def State.failChain (s : State) (g : Wg) (k : Nat) : State :=
  let ps := s.chainAt g k
  let s1 := ps.foldl (fun s p => s.atWarp p.ref (fun c => c.chainFail p.e)) s
  g.kiln.foldl (fun s n => s.modWg n (fun h => { h with chainFailed := k :: h.chainFailed.filter (· != k) })) s1

/-- Do the four instructions agree (R232)? -/
def State.chainAgree (s : State) (ps : List Pos) : Bool :=
  let key := fun (p : Pos) =>
    let pl := match s.wg? p.n with
      | some g => (g.active.valid, g.active.k, g.active.fmt, g.active.fm)
      | none => (false, 0, 0, 0)
    match p.e.ins with
    | .mma _ z _ _ _ _ _ x => (0, xf x 60 4, (streamRows p.e.ins).1, z, pl, (0 : Ext))
    | .msoak _ _ x => (1, 0, 0, false, ((false, 0, 0, 0) : Bool × Nat × Nat × Word), x)
    | _ => (2, 0, 0, false, pl, 0)
  match ps with
  | [] => true
  | p :: rest => rest.all (fun q => key q == key p)

/-- The running instructions of the chained operation of `e`, with what their starts found, in position order: none of them has been
found out yet. -/
def State.chainRun (s : State) (g : Wg) (e : MEntry) : List (Pos × MStart) :=
  g.kiln.filterMap (fun n => match s.wg? n with
    | none => none
    | some h => (h.mq.find? (fun x => x.chained == e.chained && x.started && x.out.isNone && !isSoak x.ins)).bind
        (fun x => x.head.map (fun st => (Pos.mk n x, st))))

/-- `mma.ch` under K-split (R232, R140): the running values pass from position 0 to position 3. -/
def State.endKsplit (s : State) (ps : List (Pos × MStart)) : State :=
  match ps with
  | [] => s
  | p0 :: _ =>
    let (s, m0) := s.ask p0.1.ref [] (fun c => c.streamInit p0.1.e)
    let last := ps.length - 1
    (ps.zipIdx.foldl (fun (r : State × Mat) q =>
      let p := q.1.1
      r.1.ask p.ref r.2 (fun c =>
        let (c, i) := c.streamIn p.e q.1.2 true
        let (c, m) := c.streamStep p.e i i.rows r.2
        let o := streamOut c.l.wg p.e i m
        -- a start fault crazes the destinations of its own position too (R407)
        let o := if q.2 = last || i.st.craze.isSome then o else { o with acc := [] }
        (c.onWg (fun g => g.putOut p.e.id o), m))) (s, m0)).1

/-- `mma.ch` under N-split (R232): position 0's rows pass through all four planes. -/
def State.endNsplit (s : State) (ps : List (Pos × MStart)) : State :=
  match ps with
  | [] => s
  | p0 :: rest =>
    let one := fun (s : State) (p : Pos × MStart) (src : Option MIn) =>
      s.ask p.1.ref (⟨p.2, none, []⟩ : MIn) (fun c =>
        let e := p.1.e
        let (c, i) := c.streamIn e p.2 src.isNone
        let i : MIn := match src with
          | none => i
          | some x => { i with fa := x.fa, rows := x.rows, st := { i.st with craze := crazeOf [i.st.craze, x.st.craze] } }
        let (c, m) := match i.st.craze with
          | some _ => (c, [])
          | none =>
            let (c, m) := c.streamInit e
            c.streamStep e i i.rows m
        (c.onWg (fun g => g.putOut e.id (streamOut g e i m)), i))
    let (s, i0) := one s p0 none
    rest.foldl (fun s p => (one s p (some i0)).1) s

/-- The four instructions of a chained operation start (R232). -/
def State.startChain (s : State) (g : Wg) (ps : List Pos) : State :=
  match ps with
  | [] => s
  | p :: _ =>
    if isSoak p.e.ins then ps.foldl (fun s p => s.modWg p.n (fun h => h.soakBegin p.e)) s
    else ps.zipIdx.foldl (fun s q => s.atWarp q.1.ref (fun c =>
      let (c, st) := c.streamBegin q.1.e (g.chainMode != 1 || q.2 == 0)
      c.onWg (fun h => h.startReader q.1.e { st with mode := g.chainMode }))) s

/-- A chained instruction meets its start conditions (R232, R434): it takes its chain count, waits for its partners, and
starts with them. -/
def State.chainArrive (s : State) (n : Nat) (g : Wg) (e : MEntry) : State :=
  let k := e.chained.getD g.chainCount
  let g1 : Wg := if e.chained.isSome then g
    else { g.setEntry e.id (fun x => { x with chained := some k, waitFrom := some s.clock }) with
             chainCount := g.chainCount + 1 }
  let s1 := s.setWg n g1
  let e1 : MEntry := { e with chained := some k }
  let soakMode := isSoak e.ins && soakBad g true (soakExt e.ins)
  if g.chainMode = 0 || soakMode || g.chainFailed.contains k then s1.atWarp ⟨n, e.warp⟩ (fun c => c.chainFail e1)
  else if g.kiln.any (fun m => (s1.wg? m).isNone) then s1.failChain g1 k
  else
    let ps := s1.chainAt g1 k
    if ps.length < 4 then s1
    else if !s1.chainAgree ps then s1.failChain g1 k
    else if ps.all (fun p => match s1.wg? p.n with
        | some h => s1.mFit p.n h p.e
        | none => false) then s1.startChain g1 ps
    else s1

/-! ## Start and completion -/

/-- An array instruction starts (R221, R222); one whose conditions do not hold yet stays. -/
def execMatrixInstructionStart (wg entry : Nat) (s : State) : Out :=
  .next (match s.wg? wg with
    | none => s
    | some g => match g.mEntry entry with
      | none => s
      | some e =>
        if !s.mReady wg g e then s
        else if isChained e.ins then s.chainArrive wg g e
        else if isSoak e.ins then
          (if soakBad g false (soakExt e.ins) then s.atWarp ⟨wg, e.warp⟩ (fun c =>
              (c.onWg (fun h => { h with planeSlot := true })).soakFail e)
           else s.modWg wg (fun h => h.soakBegin e))
        else s.atWarp ⟨wg, e.warp⟩ (fun c =>
          if readsScr e.ins then
            let (c, st) := c.beginRead e
            c.onWg (fun h => h.startReader e st)
          else
            let (c, o) := c.prepare e
            c.onWg (fun h => h.startEntry e o)))

/-- An invalid plane. -/
def Plane.clear : Plane := ⟨false, 0, 0, false, 0, []⟩

/-- What a completed instruction leaves in its workgroup. -/
def Wg.apply (g : Wg) (o : MOut) : Wg :=
  let g1 := if o.acc.isEmpty then g else g.putAcc o.acc
  let g2 : Wg := match o.plane with
    | some p => { g1 with shadow := p, planeBad := g1.planeBad.filter (fun x => !x.1) }
    | none => g1
  let g3 : Wg := if o.swap then { g2 with active := g2.shadow, shadow := g2.active,
                                          planeBad := g2.planeBad.map (fun x => (!x.1, x.2)) } else g2
  let g4 : Wg := if o.clear then { g3 with active := Plane.clear, shadow := Plane.clear, planeBad := [] } else g3
  let g5 : Wg := match o.mc with
    | some m => { g4 with mc := g4.mc.set m.1 m.2 }
    | none => g4
  let g6 : Wg := match o.mode with
    | some m => { g5 with chainMode := m, chainCount := 0, chainFailed := [] }
    | none => g5
  { g6 with scr := o.scr.foldl (fun x r => x.writeCells r.1 r.2) g6.scr }

/-- The `.arv` update (R225, R439): an arrival of 1, which sets `crz` first where a start fault left nothing to do. -/
def Ctx.arvUpdate (c : Ctx) (e : MEntry) (off : Nat) (crz : Bool) : Ctx :=
  let own := c.l.ref.wg
  let c := (c.arrRead e off 16).1
  let b := (c.scr own).bar off
  c.setScr own ((c.scr own).setBar off (TBar.arrive { b with crz := b.crz || crz } 1))

/-- A running instruction that reads scratchpad reads the word `k` (R225): it keeps the value it finds. -/
def State.arrayRead (s : State) (wg entry k : Nat) : State :=
  match (s.wg? wg).bind (fun g => g.mEntry entry) with
  | none => s
  | some e =>
    if !e.started || !readsScr e.ins || e.out.isSome || (Tabs.find? e.seen k).isSome then s
    else s.atWarp ⟨wg, e.warp⟩ (fun c =>
      let c := c.scrubWords e [k]
      let v := (c.scr c.l.ref.wg).word k
      c.onWg (fun g => g.setEntry entry (fun x => { x with seen := Tabs.put x.seen k v })))

/-- The last scratchpad read of a running instruction is done: what it writes is found out. The instructions of a chained operation are
found out together. -/
def State.findOut (s : State) (wg entry : Nat) : State :=
  match s.wg? wg with
  | none => s
  | some g => match g.mEntry entry with
    | none => s
    | some e => match e.head, e.out with
      | some st, none =>
        if isChained e.ins then (if st.mode = 1 then s.endNsplit (s.chainRun g e) else s.endKsplit (s.chainRun g e))
        else s.atWarp ⟨wg, e.warp⟩ (fun c =>
          let (c, o) := c.endRead e st
          c.onWg (fun h => h.putOut entry o))
      | _, _ => s

/-- The barrier update of a reading instruction, once its last read has taken place (R225). After a start fault it waits for the
completion (R439). -/
def State.arrayLastRead (s : State) (wg entry : Nat) : State :=
  let s := s.findOut wg entry
  match (s.wg? wg).bind (fun g => g.mEntry entry) with
  | none => s
  | some e => match e.out with
    | none => s
    | some o => match o.arv, readsScr e.ins with
      | some (off, false), true => s.atWarp ⟨wg, e.warp⟩ (fun c =>
          (c.onWg (fun g => g.putOut entry { o with arv := none })).arvUpdate e off false)
      | _, _ => s

/-- An array instruction completes (R221, R223): its results are written, then its barrier is updated, and its entry
leaves. -/
def execMatrixInstructionComplete (wg entry : Nat) (s : State) : Out :=
  .next (let s := s.findOut wg entry
    match s.wg? wg with
    | none => s
    | some g => match g.mEntry entry with
      | none => s
      | some e => match e.out, isSoak e.ins with
        | some o, false => s.atWarp ⟨wg, e.warp⟩ (fun c =>
            let c := c.onWg (fun h => { h.apply o with mq := h.mq.filter (fun x => x.id != entry) })
            match o.arv with
            | some (off, crz) => c.arvUpdate { e with seen := [] } off crz
            | none => c)
        | _, _ => s)

/-! ## Soak iterations (R245 to R249, R433) -/

/-- One iterate at each position (R245), under the checks of each, and whether a check of it failed. -/
def soakNext (k : Soak) (f : MFmt) (gs : List (Wg × Check)) : List (Mat × Bool) :=
  match gs with
  | [] => []
  | (g, ck) :: _ =>
    let facc := faccOf g.info.accF64
    let x := fun (h : Wg) => h.grid k.tx k.r k.c
    if k.rcp = 0 then
      let q := min (ssField g.ss 0 16) (k.ns - 1)
      orthStep facc f (gs.map (fun h => ⟨x h.1, h.1.coef (3 * q), h.1.coef (3 * q + 1), h.1.coef (3 * q + 2), h.2⟩))
    else if k.rcp = 1 then [invStep facc f ck (g.grid k.ta k.r k.c) (x g)]
    else [polyOf facc f ck ((List.range (k.ns + 1)).map g.coef) (x g)]

/-- The product whose elements are those of the iterate: Y, Xn, or the last step of the polynomial. -/
def Soak.lastProduct (k : Soak) : Nat := if k.rcp = 0 then 2 else if k.rcp = 1 then 1 else k.ns - 2

/-- Does a craze make the iteration's result not finite (R397)? -/
def soakCrazed (k : Soak) (gs : List Wg) (xs : List Mat) : Bool :=
  let any := fun (m : Mat) => m.any (fun r => r.any (fun x => x.2.isSome))
  xs.any any || gs.any (fun g =>
    any (g.grid k.tx k.r k.c) || (k.rcp == 1 && any (g.grid k.ta k.r k.c)) ||
    ((if k.rcp = 0 then let q := min (ssField g.ss 0 16) (k.ns - 1); [3 * q, 3 * q + 1, 3 * q + 2]
      else if k.rcp = 1 then [] else List.range (k.ns + 1)) ++ [15]).any (fun i => (g.coef i).2.isSome))

/-- `ss` after an iteration with residual `r` and norm `x2` (R247), before the iterate is judged `crazed`; the workgroup
of position 3, or the only one, decides. -/
def soakJudge (k : Soak) (g : Wg) (bad : Bool) (r x2 : Nat) : BitVec 128 :=
  let iter := ssField g.ss 0 16 + 1
  let last := ssField g.ss 64 64
  let vr := valueOf r fp64
  let vx := X.mul (g.coef 15).1 (valueOf x2 fp64)
  if bad || !finiteCode r fp64 || !finiteCode x2 fp64 then ssOf last k.tag k.rcp 4 iter
  else if k.dlog != 0 && decide (2 ≤ iter) && X.lt ((valueOf last fp64).scale k.dlog) vr then ssOf last k.tag k.rcp 4 iter
  else ssOf r k.tag k.rcp (if X.ordered vr vx && !X.lt vx vr then 2 else 1) iter

/-- The positions of a soak: the four of its kiln group under `.ch`, else its own workgroup (R249). -/
def State.soakPositions (s : State) (wg : Nat) (g : Wg) (e : MEntry) : List Pos :=
  if isChained e.ins then
    g.kiln.filterMap (fun n => match s.wg? n with
      | none => none
      | some h => (h.mq.find? (fun x => isSoak x.ins && x.started && !x.stopped)).map (Pos.mk n))
  else [⟨wg, e⟩]

/-- The iterates of the positions (R245), each with its failed checks recorded on its own core (R431). -/
def State.soakIterate (s : State) (k : Soak) (f : MFmt) (ps : List Pos) : State × List Mat :=
  let tries := ps.map (fun p => s.ask p.ref (0 : Word) (fun c => c.arrOriginate p.e 0x0F none))
  let gs := ps.filterMap (fun p => s.wg? p.n)
  let xs := soakNext k f (gs.zipIdx.map (fun h => (h.1, h.1.check k.tx k.lastProduct k.c ((tries.map Prod.snd).getD h.2 0))))
  ((ps.zip xs).foldl (fun s q => if q.2.2 then s.atWarp q.1.ref (fun c =>
      let (d, _) := c.arrOriginate q.1.e 0x0F none
      { (d.onWg (fun g => { g with suspect := [] })) with s := d.s.sweepFirst d.l.wg.core }) else s) s, xs.map Prod.fst)

/-- One iteration over the positions `ps` (R247, R433); a soak that is capped reads nothing. -/
def State.soakStep (s : State) (k : Soak) (ps : List Pos) : State :=
  match ps.filterMap (fun p => s.wg? p.n), mfmt k.fo 0 with
  | g :: _, some f =>
    if k.cap ≤ ssField g.ss 0 16 then
      ps.foldl (fun s p => s.modWg p.n (fun h => { h.stopSoak p.e.id with ss := ssStatus h.ss 3 })) s
    else
      let s := ps.foldl (fun s p => s.atWarp p.ref (fun c =>
        c.scrubAcc p.e (tileRun k.tx (k.r * k.c) ++ (if k.rcp = 1 then tileRun k.ta (k.r * k.c) else [])))) s
      let gs := ps.filterMap (fun p => s.wg? p.n)
      let facc := faccOf g.info.accF64
      let (s, xs) := s.soakIterate k f ps
      let old := gs.map (fun h => h.grid k.tx k.r k.c)
      let res := (xs.zip old).foldl (fun n q => normRows facc n (runRows k.r k.c q.1) (some (runRows k.r k.c q.2))) 0
      let x2 := old.foldl (fun n q => normRows facc n (runRows k.r k.c q) none) 0
      let bad := soakCrazed k gs xs || xs.any (fun m => m.any (fun r => r.any (fun x => !finiteCode x.1 facc)))
      let judge := soakJudge k (gs.getLastD g) bad res x2
      let st := ssField judge 32 4
      (ps.zip xs).foldl (fun s q => s.atWarp q.1.ref (fun c =>
        let (c, m) := if st = 4 && q.2.any (fun r => r.any (fun x => x.2.isNone)) then
            let (c, p) := c.arrOriginate q.1.e 0x10 none
            (c, q.2.craze p)
          else (c, q.2)
        c.onWg (fun h =>
          let h1 : Wg := { h.putAcc ((gridElts h.info.nacc k.tx k.c m).words h.info.accF64) with ss := judge }
          if st = 1 then h1 else h1.stopSoak q.1.e.id))) s
  | _, _ => s

/-- Does the soak wait at its iteration boundary (R224)? An instruction of another workgroup runs on the compute unit, or waits for it
and could start: `MTXX` can keep the soak from yielding (R252). -/
def State.soakYields (s : State) (n : Nat) (g : Wg) (e : MEntry) : Bool :=
  s.wgs.any (fun h => h.1 != n && h.2.core == g.core && h.2.mq.any (fun y =>
    y.started && !isSoak y.ins && !onLoadUnit y.ins && !streams y.ins)) ||
  (!(s.rd (Reg.mtxx g.core)).getLsbD 0 && !(s.rivals n g e).isEmpty)

/-- A soak iteration ends in its commit phase, or the cap test stops the soak (R247). At a stop point it is abandoned
and leaves no trace (R248). -/
def execSoakIteration (wg : Nat) (s : State) : Out :=
  .next (match s.wg? wg with
    | none => s
    | some g =>
      if g.frozen then s
      else match g.mq.find? (fun e => isSoak e.ins && e.started && !e.stopped) with
        | none => s
        | some e =>
          let ps := s.soakPositions wg g e
          if isChained e.ins && ps.length != 4 then s
          else if ps.any (fun p => (s.wg? p.n).any (fun h => s.soakYields p.n h p.e)) then s
          else s.soakStep (soakOf (isChained e.ins) (soakExt e.ins)) ps)

/-- The threads of a stopped soak become eligible at `msoak` + 16 (R248). -/
def execSoakRelease (wg : Nat) (s : State) : Out :=
  .next (match s.wg? wg with
    | none => s
    | some g => if g.frozen then s else match g.mq.find? (fun e => isSoak e.ins && e.stopped) with
      | none => s
      | some e => s.atWarp ⟨wg, e.warp⟩ (fun c =>
          (c.onWg (fun h => { h with mq := h.mq.filter (fun x => x.id != e.id) })).onL (fun l =>
            let l1 := (threadsOf e.batch).foldl (fun l t =>
              if (l.w.th t).st == .parkedEvent .msoak then
                l.setTh t { l.w.th t with pc := e.pc + 16, st := .eligible } else l) l
            l1.settle [])))

/-- 65,536 cycles after the first arrival a chained operation without its fourth fails (R434). -/
def execChainPartnerTimeout (wg : Nat) (s : State) : Out :=
  .next (match s.wg? wg with
    | none => s
    | some g => match g.mq.findSome? (fun e => if e.started then none else e.chained) with
      | none => s
      | some k =>
        if (s.chainAt g k).any (fun p => match p.e.waitFrom with
            | some c => decide (c + 65536 ≤ s.clock)
            | none => false) && decide ((s.chainAt g k).length < 4) then s.failChain g k else s)

end Sys2Proof.Machine
end

