-- ==== Sys2Proof/Machine/CopyEngine.lean ====
section
/-! DEFINITION. The copy engine (R253 to R272, R279, R398, R435, R436): the start of a command with its checks, the
write and count of its sectors, the landing of its lines, its completion. -/

namespace Sys2Proof.Machine

/-! ## Commands of a core -/

/-- Replace a command of the lane's core. -/
def Lane.setCmd (l : Lane) (k : CpyCmd) : Lane :=
  { l with core := { l.core with cpq := l.core.cpq.map (fun x => if x.id = k.id then k else x) } }

/-- Remove it. -/
def Lane.dropCmd (l : Lane) (id : Nat) : Lane :=
  { l with core := { l.core with cpq := l.core.cpq.filter (fun x => x.id != id) } }

/-- An event of command `cmd` of core `core`: `f` acts with the lane of the warp that issued it; reads that have ended are no longer
outstanding. -/
def onCmd (core cmd : Nat) (f : CpyCmd → Ctx → Ctx) (s : State) : Out :=
  match (s.core core).cpq.find? (fun k => k.id == cmd) with
  | none => .next s
  | some k => onWarp s ⟨k.wg, k.warp⟩ (fun c => (f k c).onL Lane.endReads)

/-- Are the workgroup's copy commands stopped: at or past the stop point of an exact stop (R330)? -/
def Wg.copyFrozen (g : Wg) : Bool :=
  match g.stop with
  | some p => p.mode == 2 && decide (1 ≤ p.stage)
  | none => false

/-- Is the command's workgroup one whose copy commands are stopped? -/
def State.frozenCmd (s : State) (k : CpyCmd) : Bool := (s.wg? k.wg).any Wg.copyFrozen

/-- Does no command of the workgroup start any more: from the signal of an exact stop on (R279, R330)? -/
def State.heldBack (s : State) (k : CpyCmd) : Bool := (s.wg? k.wg).any (fun g => g.stop.any (fun p => p.mode == 2))

/-- A command of a workgroup that is being saved in region-restart mode and would wait on a granule: it stops there (R332). -/
def State.parkedCmd (s : State) (k : CpyCmd) : Bool :=
  k.waiting && (s.wg? k.wg).any (fun g => g.stop.any (fun p => p.mode == 1 && decide (2 ≤ p.stage)))

/-- May the engine start the command (R254): the commands before it have started, and a running slot is free? -/
def Ctx.mayStart (c : Ctx) (k : CpyCmd) : Bool :=
  let q := c.l.core.cpq
  let running := (q.filter (fun x => x.stage != .queued && !c.s.parkedCmd x)).length
  k.stage == .queued && !c.s.heldBack k &&
  (q.takeWhile (fun x => x.id != k.id)).all (fun x => x.stage != .queued || c.s.heldBack x) &&
  decide (running < if (c.s.rd (Reg.cpyx c.l.wg.core)).getLsbD 2 then 1 else 8)

/-- The record of a fault of the command (R390, R435): unit 3, its issuing thread and program counter. -/
def Ctx.cmdOriginate (c : Ctx) (k : CpyCmd) (cause : Nat) (va : Option VAddr) : Ctx × Word :=
  let here := k.member && (c.l.w.region.any (fun r => r.tag == k.tag))
  let r := c.l.crzRec cause 3 k.thread k.pc va false
  let r : CrzRec := { r with rseq := k.rseq, flags := (r.flags &&& 0x07) ||| (if here then 8 else 0) }
  let (x, p) := c.l.core.record c.l.wg.core r
  ({ c with l := { c.l with core := x } }, p)

/-- The payload of a cause of the command: one record for each distinct cause (R435). -/
def Ctx.cmdFault (c : Ctx) (k : CpyCmd) (cause va : Nat) : Ctx × CpyCmd × Word :=
  match Tabs.find? k.causes cause with
  | some p => (c, k, p)
  | none =>
    let (c, p) := c.cmdOriginate k cause (some (BitVec.ofNat 57 va))
    (c, { k with causes := Tabs.put k.causes cause p }, p)

/-- The barrier's scratchpad offset through `sg1` (R262); `none` where its 16 bytes lie outside. -/
def Ctx.cmdBar (c : Ctx) (k : CpyCmd) : Option Nat :=
  match c.checkSeg k.sgBar k.thread (cxBar k.e) 16 [59] [1] false with
  | .ok (.scr a) => some a.off
  | _ => none

/-- The scratchpad offset of `n` bytes at segment offset `o` of a scratchpad segment register. -/
def Ctx.cmdScr (c : Ctx) (g : BitVec 128) (t perm o n : Nat) : Option Nat :=
  match c.checkSeg g t o n [perm] [1] false with
  | .ok (.scr a) => some a.off
  | _ => none

/-! ## Barriers and sectors -/

/-- Change the barrier at `off` in the scratchpad of workgroup `g`. -/
def Ctx.onBar (c : Ctx) (g off : Nat) (f : TBar → TBar) : Ctx := c.setScr g ((c.scr g).setBar off (f ((c.scr g).bar off)))

/-- Write one sector, set its granules full (R264). -/
def Ctx.putSector (c : Ctx) (g off : Nat) (ws : List TWord) : Ctx :=
  c.setScr g (((c.scr g).writeCells off (cellsOfWords 0 ws)).fill off 32)

/-- Count one sector on the receiver's barrier, in the same update (R263). -/
def Ctx.countSector (c : Ctx) (k : CpyCmd) (g : Nat) : Ctx :=
  if k.nobar then c
  else match c.cmdBar k with
    | some off => c.onBar g off TBar.sector
    | none => c

/-- Must the engine wait before it writes the sector at `off` (R264)? -/
def Ctx.granuleWait (c : Ctx) (k : CpyCmd) (g off : Nat) : Bool :=
  (granulesOf off 32).any (fun i => match (c.scr g).granule i with
    | .pending .. => true
    | .full => k.fe
    | .empty => false)

/-! ## Fetching -/

/-- The word of device memory at word-aligned virtual address `va`. -/
def Ctx.fetchWord (c : Ctx) (va : Nat) : Ctx × Option FWord :=
  match c.engineRead va 4 with
  | (c, .wait) => (c, none)
  | (c, .fault k a) => (c, some (.bad k a))
  | (c, .ok ws) => (c, some (.ok (ws.getD 0 ⟨0, false⟩)))

/-- Fetch the words that hold the bytes at the segment offsets `os`, each word once. -/
def Ctx.fetchBytes (c : Ctx) (k : CpyCmd) (os : List Nat) : Ctx × Option (Tab FWord) :=
  let vas := (os.map (fun o => (sgBase k.sgSrc + o) % 2 ^ 57 / 4)).eraseDups
  vas.foldl (fun (r : Ctx × Option (Tab FWord)) w =>
    match r.2 with
    | none => r
    | some t => match r.1.fetchWord (4 * w) with
      | (c, none) => (c, none)
      | (c, some x) => (c, some (Tabs.put t w x))) (c, some [])

/-- A nibble with what crazes it. -/
structure FNib where
  v : Nat
  bad : Option FWord

/-- A nibble of fetched words. -/
def fetchedNib (k : CpyCmd) (t : Tab FWord) : NibSrc → FNib
  | .val v => ⟨v, none⟩
  | .at_ o hi =>
    let va := (sgBase k.sgSrc + o) % 2 ^ 57
    match Tabs.get t (.ok ⟨0, false⟩) (va / 4) with
    | .ok w => if w.tag then ⟨0, some (.ok w)⟩
      else ⟨(byteOf w.val (va % 4)).toNat / (if hi then 16 else 1) % 16, none⟩
    | b => ⟨0, some b⟩

/-- The words of sector `i` of the box, from the fetched words: the first craze or fault in destination byte order takes the word
(R398). -/
def sectorWords (k : CpyCmd) (t : Tab FWord) (i : Nat) : List FWord :=
  (List.range 8).map (fun j =>
    let ns := (List.range 8).map (fun n => fetchedNib k t (k.source (32 * i + 4 * j + n / 2) (n % 2)))
    match ns.findSome? FNib.bad with
    | some b => b
    | none => .ok ⟨BitVec.ofNat 32 (ns.zipIdx.foldl (fun v x => v + x.1.v * 16 ^ x.2) 0), false⟩)

/-- Fetch sector `i`; `none` while a line of it is in the releasing state. -/
def Ctx.fetchSector (c : Ctx) (k : CpyCmd) (i : Nat) : Ctx × Option (List FWord) :=
  match c.fetchBytes k (sectorOffsets k i) with
  | (c, some t) => (c, some (sectorWords k t i))
  | (c, none) => (c, none)

/-- The words a fetched sector writes: a fault crazes its word with the payload of its cause. -/
def Ctx.landWords (c : Ctx) (k : CpyCmd) (ws : List FWord) : Ctx × CpyCmd × List TWord :=
  ws.foldl (fun (r : Ctx × CpyCmd × List TWord) x => match x with
    | .ok w => (r.1, r.2.1, r.2.2 ++ [w])
    | .bad cause va =>
      let (c, k, p) := r.1.cmdFault r.2.1 cause va
      (c, k, r.2.2 ++ [⟨p, true⟩])) (c, k, [])

/-! ## Scratchpad sources -/

/-- Read the word `w` of the own scratchpad for a command: an uncorrectable word takes a 0x0A craze (R426). -/
def Ctx.cmdScrub (c : Ctx) (k : CpyCmd) (w : Nat) : Ctx × CpyCmd :=
  let g := c.l.ref.wg
  if (c.scr g).bad.contains w then
    let (c, k, p) := c.cmdFault k 0x0A (4 * w)
    (c.setScr g ((c.scr g).putWord w ⟨p, true⟩), k)
  else (c, k)

/-- Prepare the `n` bytes at `off` of the own scratchpad for reading. -/
def Ctx.cmdScrubAll (c : Ctx) (k : CpyCmd) (off n : Nat) : Ctx × CpyCmd :=
  if (c.scr c.l.ref.wg).bad.isEmpty then (c, k)
  else (wordsOf off n).foldl (fun r w => r.1.cmdScrub r.2 w) (c, k)

/-! ## Lines of a held copy (R269) -/

/-- A nibble to store: its place in global memory in nibbles, its value, its craze. -/
structure NibStore where
  n : Nat
  v : Nat
  crz : Option Word

/-- Put a nibble into the bytes gathered so far: the later one remains (R269). -/
def putNib (t : Tab NCell) (x : NibStore) : Tab NCell :=
  let a := x.n / 2
  let o : NCell := Tabs.get t ⟨a % 128, none, none⟩ a
  Tabs.put t a (if x.n % 2 = 0 then { o with lo := some (x.v, x.crz) } else { o with hi := some (x.v, x.crz) })

/-- The nibble `q` (counted from offset 0) of the own scratchpad. -/
def Ctx.scrNib (c : Ctx) (q : Nat) : Nat × Option Word :=
  let w := (c.scr c.l.ref.wg).word (q / 8)
  if w.tag then (0, some w.val) else (w.val.toNat / 16 ^ (q % 8) % 16, none)

/-- The nibbles a held command stores, in ascending box order; `src` is the scratchpad offset of its source. -/
def Ctx.heldNibs (c : Ctx) (k : CpyCmd) (src : Nat) : List NibStore :=
  let base := sgBase k.sgDst
  if k.op = .lin then (List.range (2 * k.c.toNat)).map (fun i =>
    let (v, z) := c.scrNib (2 * src + i)
    ⟨2 * ((base + k.b.toNat) % 2 ^ 57) + i, v, z⟩)
  else
    let l := k.lay
    l.order.flatMap (fun js => match l.xs k.cs js with
      | none => []
      | some xs =>
        let (r, p) := l.place js
        (List.range l.nib).map (fun i =>
          let (v, z) := c.scrNib (2 * (src + r * l.pitch) + p * l.nib + i)
          ⟨2 * base + l.nibAt xs + i, v, z⟩))

/-- Its lines: virtual address, bytes. -/
def Ctx.heldLines (c : Ctx) (k : CpyCmd) (src : Nat) : List (Nat × List NCell) :=
  let t := (c.heldNibs k src).foldl putNib []
  ((t.map (fun e => e.1 / 128)).eraseDups).map (fun x => (128 * x, (t.filter (fun e => e.1 / 128 == x)).map Prod.snd))

/-! ## The checks of a start (R257, R435) -/

/-- What a start finds. -/
inductive StartRes where
  | go (k : CpyCmd)
  /-- It fails with a cause, or is void with a payload. -/
  | fail (cause va : Nat)
  | void (p : Word)
  | wait

/-- Does every range of segment offsets lie within a global or constant segment register with permission `perm`? -/
def rangesIn (g : BitVec 128) (perm : Nat) (rs : List (Nat × Nat)) : Bool :=
  (sgKind g == 0 || sgKind g == 3) && g.getLsbD perm && rs.all (fun r => decide (r.2 ≤ sgLimit g))

/-- Is the scratchpad side of the command inside its segment: data area and scale area (R267, R269)? -/
def Ctx.scrInside (c : Ctx) (k : CpyCmd) : Bool :=
  let perm := if k.held then 57 else 58
  let seg := if k.held then k.sgSrc else k.sgDst
  let l := k.lay
  if k.op = .lin then
    (c.cmdScr seg k.thread perm (if k.held then k.a.toNat else k.b.toNat) k.c.toNat).isSome
  else k.c.toNat % 32 == 0 && (c.cmdScr seg k.thread perm k.c.toNat l.data).isSome &&
    (k.held || l.scales == 0 || (c.cmdScr seg k.thread perm (cxSoff k.e) l.scales).isSome)

/-- Is its other side inside its segment? -/
def Ctx.farInside (c : Ctx) (k : CpyCmd) : Bool :=
  if k.op = .lin then
    if k.held then rangesIn k.sgDst 58 [(k.b.toNat, k.b.toNat + k.c.toNat - 1)]
    else if sgKind k.sgSrc = 1 then (c.cmdScr k.sgSrc k.thread 57 k.a.toNat k.c.toNat).isSome
    else rangesIn k.sgSrc 57 [(k.a.toNat, k.a.toNat + k.c.toNat - 1)]
  else
    let l := k.lay
    let l := if k.held then { l with sbase := 0 } else l
    let g := if k.held then k.sgDst else k.sgSrc
    sgKind g == 0 && rangesIn g (if k.held then 58 else 57) ((l.span k.cs).getD [])

/-- The rank that the command's record gives; 1 where it was not read. -/
def CpyCmd.rankOr (k : CpyCmd) : Nat := if k.lrec.isEmpty then 1 else let r := k.lay.rank; if 1 ≤ r ∧ r ≤ 5 then r else 1

/-- Craze of the scalar sources in R394's order (R435). -/
def CpyCmd.srcCraze (k : CpyCmd) : Option Word :=
  crazeOf ((k.coords.take k.rankOr).map (fun w => if w.tag then some w.val else none) ++ [k.bCrz, k.crz])

/-- The checks of a command's start, after its record was read. -/
def Ctx.startChecks (c : Ctx) (k : CpyCmd) (bad : Bool) : StartRes :=
  let noMat := !c.l.wg.warps.any (fun w => w.role == .matrix)
  match k.srcCraze with
  | some p => .void p
  | none =>
    if k.op ≠ .lin ∧ (bad || !k.lay.valid k.cs) then .fail 0x11 0
    else if k.op ≠ .lin ∧ k.runPast k.lay.rank then .fail 0x01 0
    else if !c.scrInside k || !c.farInside k || (!k.nobar && (cxBar k.e % 16 != 0 || (c.cmdBar k).isNone)) then .fail 0x12 0
    else if k.mf && noMat then .fail 0x01 0
    else .go k

/-- Do earlier accesses of the warp hold the command's reads of the ranges `rs` back (R267, R305, R308)? Its implicit regions, its
fences, acquires of the issuing thread, and accesses and commands that have still to touch one of those bytes. -/
def Ctx.fetchWaits (c : Ctx) (k : CpyCmd) (rs : List (Nat × Nat)) : Bool :=
  c.l.w.implicit.any (fun i => decide (i.po < k.po)) || c.l.w.acquiring k.thread k.po || c.l.w.fenced k.po false ||
  rs.any (fun r => c.l.w.accs.any (fun a => !a.performed && decide (a.po < k.po) && overlap a.va a.n r.1 r.2) ||
    c.copyBefore k.po r.1 r.2 false)

/-- The ranges that sector `i` of the box reads. -/
def CpyCmd.sectorRanges (k : CpyCmd) (i : Nat) : List (Nat × Nat) :=
  (sectorOffsets k i).map (fun o => ((sgBase k.sgSrc + o) % 2 ^ 57, 1))

/-- The start of a command: it reads its record and checks it (R254, R435). -/
def Ctx.startCmd (c : Ctx) (k : CpyCmd) : Ctx × StartRes :=
  if k.op = .lin then (c, c.startChecks k false)
  else
    match k.bCrz with
    | some _ => (c, .void (k.srcCraze.getD 0))
    | none =>
      if c.fetchWaits k ((c.recVa k).toList.map (fun v => (v, 64))) then (c, .wait)
      else match c.readRec k.sgRec k.thread k.b.toNat with
      | (c, .wait) => (c, .wait)
      | (c, .fault cause va) => (c, match k.srcCraze with
          | some p => .void p
          | none => .fail cause va)
      | (c, .ok ws) => (c, c.startChecks { k with lrec := recBytes ws } (ws.any TWord.tag))

/-! ## Failure (R435) -/

/-- The lowest-`wslot` warp of matrix role (R268). -/
def Wg.matrixWarp (g : Wg) : Option Nat :=
  ((g.warps.zipIdx.filter (fun p => p.1.role == .matrix)).foldl (fun (m : Option (Nat × Nat)) p => match m with
    | none => some (p.1.wslot, p.2)
    | some x => if p.1.wslot < x.1 then some (p.1.wslot, p.2) else some x) none).map Prod.snd

/-- Has the region that the command was issued in been rolled back for a save (R332)? Its follow-on is discarded. -/
def Ctx.discarded (c : Ctx) (k : CpyCmd) : Bool := k.member && c.l.wg.stop.any (fun p => p.mode == 1 && decide (2 ≤ p.stage))

/-- Release the follow-on `mma` of a command into the matrix queue (R268): A, the pitch and `soff` × 32 as its sources. -/
def Ctx.release (c : Ctx) (k : CpyCmd) (a : TWord) : Ctx :=
  match c.l.wg.matrixWarp with
  | none => c
  | some i =>
    if c.discarded k then c else
    let clean := fun (n : Nat) => (⟨BitVec.ofNat 32 n, false⟩ : TWord)
    let ins : Instr := .mma ⟨7, false, false⟩ (k.fws.getLsbD 0) (k.fws.getLsbD 1) (k.fws.getLsbD 2) (.imm 0) (.imm 0)
      (some (.imm 0)) (k.fws &&& ~~~7)
    let e := MEntry.bare ins
    let sg1 := ((c.l.wg.warps[i]?).map (fun w => w.seg 1)).getD 0
    let reg := if k.member then some (k.warp, k.tag) else none
    c.onWg (fun g => g.enqueue { e with
      a, b := clean (if k.lrec.isEmpty then 0 else k.lay.pitch), c := clean (cxSoff k.e), pc := k.pc, warp := i, thread := k.thread, sg1, reg
      issued := (c.l.clock, ((c.l.wg.warps[i]?).map Warp.wslot).getD 0) })

/-- Is there room for the follow-on of the command? -/
def Ctx.releaseRoom (c : Ctx) (k : CpyCmd) : Bool := !k.mf || c.discarded k || decide (c.l.wg.queued.length < 16)

/-- The request of a `cpygrp` counts as arrived: n(m) := max(n(m), k + 1) (R275, R276, R441). -/
def State.grpCount (s : State) (part gid wg k : Nat) : State :=
  let x := s.grp part gid
  if x.members.any (fun m => m.wg == wg) then
    s.setGrp part gid { x with members := x.members.map (fun m : GMem => if m.wg = wg then { m with n := max m.n (k + 1) } else m) }
  else s

/-- A command fails with payload `p`: the marker sector in every receiver, the void count, the follow-on with a crazed A
(R435). It is complete. -/
def Ctx.failCmd (c : Ctx) (k : CpyCmd) (p : Word) (cClean : Bool) : Ctx :=
  let marker := !k.held && k.op != .lin && cClean && k.c.toNat % 32 == 0
  let c := match (if marker then c.cmdScr k.sgDst k.thread 58 k.c.toNat 32 else none) with
    | some off => k.recv.foldl (fun c r => c.putSector r.1 off (List.replicate 8 ⟨p, true⟩)) c
    | none => c
  let c := if k.held && k.member && k.tag == (c.l.w.region.map Region.tag).getD 0 then
      c.onL (fun l => l.memberCraze k.thread p true l.clock) else c
  let c := match (if k.nobar || cxBar k.e % 16 != 0 then none else c.cmdBar k) with
    | some off => (if k.held then [c.l.ref.wg] else k.recv.map Prod.fst).foldl (fun c g => c.onBar g off TBar.void) c
    | none => c
  let c := if k.mf then c.release k ⟨p, true⟩ else c
  let c : Ctx := if k.op = .grp then { c with s := c.s.grpCount c.l.wg.part (cxGid k.e) c.l.ref.wg k.k } else c
  c.onL (fun l => l.dropCmd k.id)

/-! ## Start -/

/-- Where the request of a `cpygrp` goes (R275). -/
inductive Anchor where
  | slice (k : Nat)
  /-- To no shelf. -/
  | none_
  /-- A table line is in the releasing state: the start waits. -/
  | wait

/-- The slice of the command's anchor. -/
def Ctx.anchorOf (c : Ctx) (k : CpyCmd) : Ctx × Anchor :=
  if (c.s.rd (Reg.cpyx c.l.wg.core)).getLsbD 3 || c.l.leader.isSome then (c, .none_)
  else
    let va := (sgBase k.sgSrc + k.lay.first k.cs) % 2 ^ 57
    match c.s.translate (some c.l.wg.core) c.l.wg.vf va .load true with
    | (s, .ok a gen _ rmt) =>
      let c : Ctx := { c with s := s }
      if rmt || hostBase ≤ a then (c, .slice (sliceOf a))
      else if genOlder gen (c.s.gen c.l.wg.vf) || c.s.quarantined a then (c, .none_)
      else if !c.s.colourOk c.l.wg.part (colourOf a) then ({ c with s := c.s.breach c.l.wg.part 0 a }, .none_)
      else (c, .slice (sliceOf a))
    | (s, .fault _) => ({ c with s := s }, .none_)
    | (s, .wait) => ({ c with s := s }, .wait)

/-- A sound command into scratchpads begins to run; a `cpygrp` sends its request, or waits in the state `c0`. -/
def Ctx.beginFill (c0 c : Ctx) (k : CpyCmd) : Ctx :=
  if k.op = .grp then
    let (c, a) := c.anchorOf k
    match a with
    | .wait => c0
    | .slice x => c.onL (fun l => l.setCmd { k with stage := .shelf, anchor := some x })
    | .none_ => { c with s := c.s.grpCount c.l.wg.part (cxGid k.e) c.l.ref.wg k.k }.onL (fun l => l.setCmd { k with stage := .running })
  else if k.op = .lin && sgKind k.sgSrc == 1 then
    match c.cmdScr k.sgSrc k.thread 57 k.a.toNat k.c.toNat with
    | none => c
    | some off =>
      let (c, k) := c.cmdScrubAll k off k.c.toNat
      let word := fun (n : Nat) => FWord.ok ((c.scr c.l.ref.wg).word (off / 4 + n))
      c.onL (fun l => l.setCmd { k with
        stage := .running, buf := (List.range k.total).map (fun i => (i, (List.range 8).map (fun j => word (8 * i + j)))) })
  else c.onL (fun l => l.setCmd { k with stage := .running })

/-- Units of an implicit region of `n` lines (R269). -/
def copyUnits (n : Nat) : Nat := min 128 ((8 * n + 511) / 512)

/-- A sound command into global memory begins to run: it reads its source and knows its lines; outside a region its
implicit region reserves its units, or it fails with 0x0D (R423), or it waits. -/
def Ctx.beginHeld (c : Ctx) (k : CpyCmd) (src n : Nat) : Ctx × StartRes :=
  let (c, k) := c.cmdScrubAll k src n
  let lines := c.heldLines k src
  let k : CpyCmd := { k with stage := .running, lines := lines.drop k.landed }
  let u := copyUnits lines.length
  if k.member then (c.onL (fun l => l.setCmd k), .go k)
  else if c.l.wg.never u then (c, .fail 0x0D 0)
  else
    let have_ := ((c.l.w.implicit.find? (fun i => i.tag == k.tag)).map Implicit.units).getD 0
    if have_ = 0 && !c.canReserve u then (c, .wait)
    else (c.onL (fun l => ({ l with w := { l.w with implicit := l.w.implicit.map (fun i : Implicit =>
        if i.tag = k.tag then { i with units := u } else i) } }).setCmd k), .go k)

/-- Is C of a box copy clean, so that a marker may be written (R435)? -/
def CpyCmd.destClean (k : CpyCmd) : Bool := !k.cBad

/-- What follows the checks. -/
def Ctx.startWith (c0 c : Ctx) (k : CpyCmd) : StartRes → Ctx
  | .wait => c0
  | .void p => if c.releaseRoom k then c.failCmd k p k.destClean else c0
  | .fail cause va =>
    if !c.releaseRoom k then c0
    else
      let (c, p) := c.cmdOriginate k cause (if va = 0 then none else some (BitVec.ofNat 57 va))
      c.failCmd k p true
  | .go k =>
    if !k.held then c0.beginFill c k
    else
      let (off, n) := if k.op = .lin then (k.a.toNat, k.c.toNat) else (k.c.toNat, k.lay.data)
      match c.cmdScr k.sgSrc k.thread 57 off n with
      | none => c0
      | some src => match c.beginHeld k src n with
        | (_, .wait) => c0
        | (c, .fail cause _) =>
          let (c, p) := c.cmdOriginate k cause none
          c.failCmd k p true
        | (c, _) => c

/-- COPY_COMMAND_START (R254, R435). -/
def execCopyCommandStart (core cmd : Nat) (s : State) : Out :=
  onCmd core cmd (fun k c =>
    if !c.mayStart k then c
    else
      let (d, r) := c.startCmd k
      let k := match r with
        | .go x => x
        | _ => k
      c.startWith d k r) s

/-! ## Sectors -/

/-- The scratchpad offset of destination sector `i`. -/
def Ctx.sectorAt (c : Ctx) (k : CpyCmd) (i : Nat) : Nat := (c.cmdScr k.sgDst k.thread 58 (k.dest i) 32).getD 0

/-- The first receiver whose next sector may be written. -/
def Ctx.nextRecv (c : Ctx) (k : CpyCmd) : Option (Nat × Nat) :=
  k.recv.find? (fun r => decide (r.2 < k.total) && !c.granuleWait k r.1 (c.sectorAt k r.2))

/-- Sector `i` of the box as fetched words: kept, or fetched now. -/
def Ctx.sectorOf (c : Ctx) (k : CpyCmd) (i : Nat) : Ctx × Option (List FWord) :=
  match Tabs.find? k.buf i with
  | some ws => (c, some ws)
  | none => if c.fetchWaits k (k.sectorRanges i) then (c, none) else c.fetchSector k i

/-- Write and count the next sector of a receiver. -/
def Ctx.writeSector (c : Ctx) (k : CpyCmd) (r : Nat × Nat) : Ctx :=
  let i := k.nth r.2
  match c.sectorOf k i with
  | (_, none) => c
  | (c, some fs) =>
    let (c, k, ws) := c.landWords k fs
    let c := (c.putSector r.1 (c.sectorAt k r.2) ws).countSector k r.1
    let recv := k.recv.map (fun x => if x.1 = r.1 then (x.1, x.2 + 1) else x)
    let done := recv.all (fun x => decide (r.2 < x.2))
    c.onL (fun l => l.setCmd { k with
      recv, buf := if done then Tabs.del k.buf i else if 1 < recv.length then Tabs.put k.buf i fs else k.buf })

/-- Does a receiver of a shelf entry, a core and a command of it, hold the fill back (R308)? -/
def Ctx.recvWaits (c : Ctx) (r : Nat × Nat) (rs : List (Nat × Nat)) : Bool :=
  let s := c.s.putLane c.l
  match (s.core r.1).cpq.find? (fun y => y.id == r.2) with
  | none => false
  | some y => (s.laneOf ⟨y.wg, y.warp⟩).any (fun l => Ctx.fetchWaits ⟨s, l⟩ y rs)

/-- The fill of a shelf entry (R276, R277): one fetch of the box under the first receiver's translation, which every
receiver takes (log 35). It follows every receiver's earlier accesses (R308). -/
def Ctx.shelfFill (c : Ctx) (k : CpyCmd) (x : ShelfEnt) : Ctx :=
  let rs := (List.range k.total).flatMap k.sectorRanges
  if x.recv.any (fun r => c.recvWaits r rs) then c
  else
    let r := (List.range k.total).foldl (fun (r : Ctx × Option (Tab (List FWord))) i => match r.2 with
      | none => r
      | some t => match r.1.fetchSector k i with
        | (c, none) => (c, none)
        | (c, some ws) => (c, some (Tabs.put t i ws))) (c, some [])
    match r with
    | (_, none) => c
    | (c, some t) =>
      let run := fun (core : Nat) (q : List CpyCmd) => q.map (fun y : CpyCmd =>
        if x.recv.contains (core, y.id) then { y with stage := .running, buf := t } else y)
      let own := c.l.wg.core
      let s := (x.recv.map Prod.fst).eraseDups.foldl (fun (s : State) n =>
        if n = own then s else s.setCore n { s.core n with cpq := run n (s.core n).cpq }) c.s
      let s := { s with shelf := s.shelf.map (fun y : ShelfEnt => if y.id = x.id then { y with stage := .delivering } else y) }
      ⟨s, { c.l with core := { c.l.core with cpq := run own c.l.core.cpq } }⟩

/-- COPY_SECTOR_WRITE (R258 to R264, R276). -/
def execCopySectorWrite (core cmd : Nat) (s : State) : Out :=
  onCmd core cmd (fun k c =>
    if k.held || k.waiting || c.s.frozenCmd k then c
    else match k.stage with
      | .queued => c
      | .running => match c.nextRecv k with
        | some r => c.writeSector k r
        | none => if k.recv.all (fun r => decide (k.total ≤ r.2)) then c else c.onL (fun l => l.setCmd { k with waiting := true })
      | .shelf => match c.s.shelf.find? (fun x => x.recv.head? == some (core, cmd) && x.stage == .releasing) with
        | some x => c.shelfFill k x
        | none => c) s

/-- COPY_GRANULE_WAIT_END (R264): a receiver's next sector may be written. -/
def execCopyGranuleWaitEnd (core cmd : Nat) (s : State) : Out :=
  onCmd core cmd (fun k c =>
    if k.waiting && (c.nextRecv k).isSome then c.onL (fun l => l.setCmd { k with waiting := false }) else c) s

/-! ## Lines -/

/-- A byte of a landing line: a nibble that the box does not cover keeps the committed one (log 34). -/
def landCell (s : State) (key dpa : Nat) (rmt : Bool) (x : NCell) : WCell :=
  let old := if rmt then 0 else s.memNat key (dpa + x.off) 1
  let hi := x.hi.getD (old / 16, none)
  let lo := x.lo.getD (old % 16, none)
  ⟨x.off, BitVec.ofNat 8 (hi.1 * 16 + lo.1), crazeOf [lo.2, hi.2]⟩

/-- A line that is not written: one record for each distinct cause of the command, by `unit` for a member, whose member craze it sets,
else by the copy engine (R408, R422, R435). -/
def Ctx.lineFault (c : Ctx) (k : CpyCmd) (cause unit va : Nat) : Ctx :=
  let set := fun (p : Word) (c : Ctx) => if k.member then c.onL (fun l => l.memberCraze k.thread p true l.clock) else c
  match Tabs.find? k.causes cause with
  | some p => set p c
  | none =>
    let a : Option VAddr := some (BitVec.ofNat 57 va)
    let (c, p) := if k.member then let (l, p) := c.l.originate cause unit k.thread k.pc a false; (({ c with l := l } : Ctx), p)
      else c.cmdOriginate k cause a
    set p (c.onL (fun l => l.setCmd { k with causes := Tabs.put k.causes cause p }))

/-- The next line lands (R269): its address is translated and it goes to its home slice as a held item. -/
def Ctx.landLine (c : Ctx) (k : CpyCmd) : Ctx :=
  match k.lines with
  | [] => c
  | (va, cells) :: rest =>
    let k : CpyCmd := { k with lines := rest, landed := k.landed + 1 }
    match c.s.translate (some c.l.wg.core) c.l.wg.vf va .store true with
    | (_, .wait) => c
    | (s, .fault cause) => ({ c with s := s }.onL (fun l => l.setCmd k)).lineFault k cause 1 va
    | (s, .ok dpa gen key rmt) =>
      let c : Ctx := ({ c with s := s } : Ctx).onL (fun l => l.setCmd k)
      let cs := cells.map (landCell s key.toNat dpa rmt)
      let i : Item := { id := c.l.w.nextId, tag := k.tag, po := k.po, thread := k.thread, kind := .store, cells := cs, va,
                        n := 128, pc := k.pc, stage := .sagger, dpa, gen, key, rmt, copy := true, bad := false,
                        sent := false, issued := c.l.clock, named := k.thread }
      let l : Lane := { c.l with w := { c.l.w with items := c.l.w.items ++ [i], nextId := c.l.w.nextId + 1 } }
      match l.explicit i with
      | some r =>
        if r.overflow || l.overflows r then c.lineFault k 0x0D 5 va
        else { c with l := match crazeOf (cs.map WCell.crz) with
          | some p => l.memberCraze k.thread p false l.clock
          | none => l }
      | none => { c with l := l }

/-- CPYST_LINE_LAND (R269, R272). -/
def execCpystLineLand (core cmd : Nat) (s : State) : Out :=
  onCmd core cmd (fun k c =>
    if k.held && k.stage == .running && !c.s.frozenCmd k then c.landLine k else c) s

/-! ## Completion -/

/-- Have the command's lines all landed or been dropped (R269)? -/
def Lane.linesLanded (l : Lane) (k : CpyCmd) : Bool :=
  k.lines.isEmpty && l.w.items.all (fun i => !(i.copy && i.po == k.po) || i.sent || i.stage == .held || i.stage == .refused ||
    (l.leader.isSome && i.stage == .sagger))

/-- COPY_COMMAND_COMPLETE (R254, R268, R269, R276): the last byte is written and counted; a follow-on `mma` is released;
the shelf entry of a fill is free when its last receiver is done. -/
def execCopyCommandComplete (core cmd : Nat) (s : State) : Out :=
  onCmd core cmd (fun k c =>
    let ended := if k.held then c.l.linesLanded k else k.recv.all (fun r => decide (k.total ≤ r.2))
    if k.stage != .running || !ended || !c.releaseRoom k then c
    else
      let c := if k.held then (List.range k.total).foldl (fun c _ => c.countSector k c.l.ref.wg) c else c
      let c := if k.mf then c.release k ⟨k.c.setWidth 32, false⟩ else c
      let s1 := { c.s with shelf := c.s.shelf.filterMap (fun x : ShelfEnt =>
        if x.recv.contains (core, cmd) then
          let y := { x with recv := x.recv.filter (· != (core, cmd)) }
          if y.recv.isEmpty then none else some y
        else some x) }
      { c with s := s1 }.onL (fun l => l.dropCmd cmd)) s

/-! ## The shelf (R275 to R278) -/

/-- Cycles of arithmetic in `n` NoC-and-L2 cycles (R21). -/
def nocCycles (n : Nat) : Nat := (2 * n + 2) / 3

/-- Serve the command by an unshared fetch. -/
def CpyCmd.alone (k : CpyCmd) : CpyCmd := { k with stage := .running, anchor := none }

/-- SHELF_REQUEST (R276): the request reaches its anchor slice and joins an entry, opens one, or is served alone. -/
def execShelfRequest (core cmd : Nat) (s : State) : Out :=
  onCmd core cmd (fun k c => match k.anchor, k.stage with
    | some slice, .shelf =>
      let part := c.l.wg.part
      let gid := cxGid k.e
      let wg := c.l.ref.wg
      let grp := c.s.grp part gid
      let coords := k.cs.map (BitVec.ofInt 32)
      let c : Ctx := { c with s := c.s.grpCount part gid wg k.k }
      let same := fun (x : ShelfEnt) => x.slice == slice && x.part == part && x.gid == gid && x.k == k.k && x.lrec == k.lrec && x.coords == coords
      match c.s.shelf.find? same with
      | some x =>
        if x.stage = .delivering then c.onL (fun l => l.setCmd k.alone)
        else
          let y : ShelfEnt := { x with recv := x.recv ++ [(core, cmd)], awaited := x.awaited.filter (· != wg) }
          let s1 := { c.s with shelf := c.s.shelf.filterMap (fun z => if z.id = x.id then y.settle else some z) }
          { c with s := s1 }.onL (fun l => l.setCmd { k with anchor := none })
      | none =>
        if 64 ≤ (c.s.shelf.filter (fun x => x.slice == slice)).length then c.onL (fun l => l.setCmd k.alone)
        else
          let awaited := (grp.members.filter (fun m => m.wg != wg && !m.suspended && decide (m.n ≤ k.k))).map GMem.wg
          let x : ShelfEnt := { id := c.s.nextShelf, slice, part, gid, k := k.k, lrec := k.lrec, coords, awaited,
                                recv := [(core, cmd)], deadline := c.s.clock + nocCycles (16 * grp.hold)
                                stage := if grp.hold = 0 then .releasing else .holding }
          let s1 := { c.s with shelf := c.s.shelf ++ x.settle.toList, nextShelf := c.s.nextShelf + 1 }
          { c with s := s1 }.onL (fun l => l.setCmd { k with anchor := none })
    | _, _ => c) s

/-- SHELF_TIMER_EXPIRY (R276, R277). -/
def execShelfTimerExpiry (entry : Nat) (s : State) : Out :=
  .next { s with shelf := s.shelf.map (fun x : ShelfEnt =>
    if x.id = entry ∧ x.stage = .holding ∧ x.deadline ≤ s.clock then { x with stage := .releasing } else x) }

end Sys2Proof.Machine
end

