-- ==== Sys2Proof/Machine/Sha3.lean ====
section
/-! DEFINITION. SHA3-512, which R369, R370, R371 and R477 name; the spec gives no definition of it, so it is taken from
FIPS 202 (log 39). -/

namespace Sys2Proof

namespace Sha3

/-- Lane (x, y) of the state, at 5 y + x. -/
def lane (a : List DWord) (x y : Nat) : DWord := a.getD (5 * (y % 5) + x % 5) 0

/-- A state from its lanes. -/
def build (f : Nat → Nat → DWord) : List DWord := (List.range 25).map (fun i => f (i % 5) (i / 5))

/-- Rotation offsets, at 5 y + x. -/
def offsets : List Nat := [0, 1, 62, 28, 27, 36, 44, 6, 55, 20, 3, 10, 43, 25, 39, 41, 45, 15, 21, 8, 18, 2, 61, 56, 14]

/-- Round constants. -/
def consts : List DWord :=
  [0x1, 0x8082, 0x800000000000808A, 0x8000000080008000, 0x808B, 0x80000001, 0x8000000080008081, 0x8000000000008009,
   0x8A, 0x88, 0x80008009, 0x8000000A, 0x8000808B, 0x800000000000008B, 0x8000000000008089, 0x8000000000008003,
   0x8000000000008002, 0x8000000000000080, 0x800A, 0x800000008000000A, 0x8000000080008081, 0x8000000000008080,
   0x80000001, 0x8000000080008008]

/-- The column parities' contribution. -/
def theta (a : List DWord) : List DWord :=
  let c := (List.range 5).map (fun x => lane a x 0 ^^^ lane a x 1 ^^^ lane a x 2 ^^^ lane a x 3 ^^^ lane a x 4)
  let d := (List.range 5).map (fun x => c.getD ((x + 4) % 5) 0 ^^^ (c.getD ((x + 1) % 5) 0).rotateLeft 1)
  build (fun x y => lane a x y ^^^ d.getD x 0)

/-- Rotation and transposition: lane (x, y) goes to (y, 2 x + 3 y). -/
def rhoPi (a : List DWord) : List DWord :=
  -- the lane at (x, y) comes from (x + 3 y, x)
  build (fun x y => let u := (x + 3 * y) % 5; (lane a u x).rotateLeft (offsets.getD (5 * x + u) 0))

/-- The non-linear step. -/
def chi (a : List DWord) : List DWord := build (fun x y => lane a x y ^^^ (~~~(lane a (x + 1) y) &&& lane a (x + 2) y))

/-- One round with its constant. -/
def round (a : List DWord) (rc : DWord) : List DWord :=
  match chi (rhoPi (theta a)) with
  | [] => []
  | x :: r => (x ^^^ rc) :: r

/-- The permutation. -/
def keccak (a : List DWord) : List DWord := consts.foldl round a

/-- Absorb a block of 72 bytes. -/
def absorb (a : List DWord) (b : List Byte) : List DWord :=
  keccak ((List.range 25).map (fun i =>
    a.getD i 0 ^^^ (if i < 9 then BitVec.ofNat 64 (leNat ((b.drop (8 * i)).take 8)) else 0)))

/-- Cut into blocks of 72 bytes; `n` is a bound on their number. -/
def blocks : Nat → List Byte → List (List Byte)
  | 0, _ => []
  | n + 1, b => if b.isEmpty then [] else b.take 72 :: blocks n (b.drop 72)

/-- The message with its padding. -/
def pad (m : List Byte) : List Byte :=
  let n := 72 - m.length % 72
  m ++ (if n = 1 then [0x86] else 0x06 :: List.replicate (n - 2) 0 ++ [0x80])

end Sha3

/-- SHA3-512: 64 bytes. -/
def sha3_512 (m : List Byte) : List Byte :=
  let p := Sha3.pad m
  let a := (Sha3.blocks (p.length / 72) p).foldl Sha3.absorb (List.replicate 25 0)
  (a.take 8).flatMap (fun w => leBytes 8 w.toNat)

end Sys2Proof
end

