-- ==== Sys2Proof/Machine/System.lean ====
section
/-! DEFINITION. Craze inspection, traps to the host, system values and segment registers, opcodes 0x104-0x108 (R210 to
R214). -/

namespace Sys2Proof.Machine

/-! ## `ptest` and `crzread` (R210, R211) -/

/-- `ptest` (R210): a crazed guard crazes the predicate (R395); the source's craze is what it tests. -/
def execPtest (h : Hdr) (clean b64 : Bool) (dst : BitVec 8) (a : Src) (s : State) : Out :=
  let n := if b64 then 2 else 1
  { h, size := 8, chains := false, regs := srcRegs n a
    fault := fun l => illegal (dst.extractLsb' 3 5 != 0 || !srcOk l.wg.info.nregs n a) : Form }.exec
    (fun pc act l => act.foldl (fun l t =>
      let (l, _, p) := l.readOne t pc 0 (if b64 then .i64 else .i32) (dst.extractLsb' 0 3 == 7) a
      let x := l.w.th t
      l.setTh t (x.setPred (dst.extractLsb' 0 3) (p.isSome != clean) (x.predCraze h.guard))) l) s

/-- A field of a craze record (R211, R390). -/
def crzField (k : Nat) (r : CrzRec) : Word :=
  match k with
  | 1 => r.pc.setWidth 32
  | 2 => (r.pc >>> 32).setWidth 32
  | 3 => r.va.setWidth 32
  | 4 => (r.va >>> 32).setWidth 32
  | 5 => BitVec.ofNat 32 (r.wslot % 512 + r.thread % 32 * 65536)
  | 6 => r.rseq.setWidth 32
  | _ => r.stamp.setWidth 32

/-- `crzread` (R211): a free record reads zero (R407). -/
def execCrzread (h : Hdr) (field : BitVec 3) (dst : BitVec 8) (a : Src) (s : State) : Out :=
  { h, size := 8, chains := false, regs := dstRegs dst.toNat 4 ++ srcRegs 1 a
    fault := fun l => illegal (!vecOk l.wg.info.nregs dst.toNat 1 || !srcOk l.wg.info.nregs 1 a) : Form }.execC
    (fun _ _ => false)
    (fun pc act c => act.foldl (fun c t =>
      let (l, _, p) := c.l.readOne t pc 0 .i32 (dst == 255) a
      let c : Ctx := { c with l := l }
      let v : Word := match p with
        | none => 0
        | some q =>
          if field = 0 then BitVec.ofNat 32 (causeOf q)
          else
            let o := (q.toNat / 2 ^ 17) % 128
            let k := if o = c.l.wg.core then c.l.core else c.s.core o
            match Tabs.find? k.crz (q.toNat % 512) with
            | some r => crzField field.toNat r
            | none => 0
      c.onL (fun l => l.setTh t ((l.w.th t).setV1 dst.toNat (v.setWidth 64) ((l.w.th t).predCraze h.guard)))) c) s

/-! ## `trap` (R212, R342) -/

/-- Size code of the service ring of a virtual function (R341). -/
def State.ringLg (s : State) (v : BitVec 8) : Nat := (s.vrd v Reg.srbase).toNat % 16

/-- Is the ring enabled? -/
def State.ringOn (s : State) (v : BitVec 8) : Bool := decide (4 ≤ s.ringLg v ∧ s.ringLg v ≤ 12)

/-- Deliver the 64 result words of a trap to the threads of `m`, which continue after it (R212). -/
def Lane.trapDone (l : Lane) (m : BitVec 32) (pc : VAddr) (dst : Nat) (res : List Word) : Lane :=
  let l := (threadsOf m).foldl (fun l t => l.setTh t ((l.w.th t).setV2 dst (res.getD (2 * t + 1) 0 ++ res.getD (2 * t) 0) none)) l
  { l with w := { l.w with trapWait := none } }.sendTo m (pc + 16)

/-- `trap` (R212, R407): a trailer takes the leader's results in order (R476). -/
def execTrap (h : Hdr) (dst : BitVec 8) (a b k : Src) (code : Word) (s : State) : Out :=
  onCtx s (warpLevelC h 16 (fun c _ => !c.l.w.ready (dstRegs dst.toNat 8 ++ srcRegs 1 a ++ srcRegs 1 b ++ srcRegs 1 k))
    (fun pc ts c =>
      let c := c.onL (fun l => l.moveTo ts (pc + 16))
      let n := c.l.wg.info.nregs
      if !vecOk n dst.toNat 2 || !([a, b, k].all (srcOk n 1)) then c.onL (fun l => l.derailAll ts pc 0x01 none)
      else if !c.s.ringOn c.l.wg.vf then c.onL (fun l => l.derailAll ts pc 0x05 none)
      else
        let (l, vs) := ts.foldl (fun (r : Lane × List (Nat × List (DWord × Option Word))) t =>
          let (l, v) := r.1.readAll t pc 0 false [(a, .i32), (b, .i32), (k, .i32)] none
          (l, r.2 ++ [(t, v)])) (c.l, [])
        let c : Ctx := { c with l := l }
        match crazeOf (vs.flatMap (fun e => e.2.map Prod.snd)) with
        | some p => c.onL (fun l => l.derailWith ts p)
        | none =>
          let args := (List.range 32).flatMap (fun t => match vs.find? (fun e => e.1 == t) with
            | some e => e.2.map (fun x => x.1.setWidth 32)
            | none => [0, 0, 0])
          c.onL (fun l =>
            match l.w.trapQ with
            | r :: q =>
              if l.wg.pair.any (fun p => !p.2) then
                ({ l with w := { l.w with trapQ := q } }).trapDone (maskOf ts) pc dst.toNat r
              else { l with w := { l.w with trapWait := some ⟨none, false, code, pc, maskOf ts, dst.toNat, args, maskOf ts⟩ } }.parkAll
                ts pc .trap
            | [] => { l with w := { l.w with trapWait := some ⟨none, false, code, pc, maskOf ts, dst.toNat, args, maskOf ts⟩ } }.parkAll
                ts pc .trap)))

/-! ## `rdsys` (R61, R213) -/

/-- Linear thread number to a coordinate (R75). -/
def tidOf (ntid : List Nat) (i k : Nat) : Nat :=
  let x := ntid.getD 0 1
  let y := ntid.getD 1 1
  match k with
  | 0 => i % x
  | 1 => i / x % y
  | _ => i / (x * y)

/-- The system value of a code (R61). -/
def Lane.sysval (l : Lane) (code t : Nat) : Nat :=
  let i := l.wg.info
  let p := l.w.first
  match code with
  | 0 | 1 | 2 => tidOf i.ntid (32 * l.ref.warp + t) code
  | 3 | 4 | 5 => i.ntid.getD (code - 3) 0
  | 6 | 7 | 8 => i.gid.getD (code - 6) 0
  | 9 | 10 | 11 => i.ngid.getD (code - 9) 0
  | 12 => p.lane
  | 13 => p.wslot
  | 14 => p.warp
  | 15 => p.kpos
  | 16 => p.kiln
  | 17 => p.core
  | 18 => p.die
  | 19 => l.wg.part
  | 20 => l.wg.vf.toNat
  | 21 => l.clock % 2 ^ 32
  | 22 => l.clock / 2 ^ 32 % 2 ^ 32
  | 23 => l.w.rseq.toNat
  | _ => l.wg.warps.length

/-- `rdsys` (R213); a crazed guard crazes what it writes (R395), to a scalar register that of the lowest such thread (log 111). -/
def execRdsys (h : Hdr) (scalar : Bool) (dst : BitVec 8) (opa : BitVec 10) (s : State) : Out :=
  let code := opa.toNat
  { h, size := 8, chains := false, regs := if scalar then [] else dstRegs dst.toNat 4
    fault := fun l => illegal (decide (0x18 < code) ||
      (if scalar then decide (code ≤ 2) || decide (0x3F < dst.toNat) else !vecOk l.wg.info.nregs dst.toNat 1)) : Form }.exec
    (fun _ act l =>
      if scalar then
        if act.isEmpty then l
        else
          let w := l.w.setSc dst.toNat false (BitVec.ofNat 64 (l.sysval code 0))
            (crazeOf (act.map (fun t => (l.w.th t).predCraze h.guard)))
          { l with w := w }
      else act.foldl (fun l t => l.setTh t ((l.w.th t).setV1 dst.toNat (BitVec.ofNat 64 (l.sysval code t))
        ((l.w.th t).predCraze h.guard))) l) s

/-! ## `segset` (R214) -/

/-- May the source of a `segset` be this one? A scalar pair, or an inline constant (log 22). -/
def segSrcOk : Src → Bool
  | .scal i => scalOk i.toNat 2
  | .imm _ | .fcon _ => true
  | _ => false

/-- Reserved bits and an unassigned kind of a segment register's value (R59). -/
def sgBad (v : BitVec 128) : Bool := v.extractLsb' 121 7 != 0 || v.getLsbD 60 || decide (4 < sgKind v)

/-- `segset` (R214): privileged. -/
def execSegset (h : Hdr) (a b : Src) (e : Ext) (s : State) : Out :=
  { h, size := 16, chains := false, regs := []
    fault := fun l =>
      if e.extractLsb' 3 61 != 0 || !segSrcOk a || !segSrcOk b then some 0x01
      else if !l.wg.priv then some 0x05 else none : Form }.exec
    (fun pc act l => match act with
      | [] => l
      | t :: _ =>
        let (l, rs) := l.readAll t pc 0 false [(a, .i64), (b, .i64)] none
        match crazeOf (rs.map Prod.snd) with
        | some p => l.derailWith act p
        | none =>
          let v : BitVec 128 := (rs.getD 1 (0, none)).1 ++ (rs.getD 0 (0, none)).1
          if sgBad v then l.derailAll act pc 0x01 none
          else { l with w := { l.w with sg := l.w.sg.set (e.extractLsb' 0 3).toNat v } }) s

end Sys2Proof.Machine
end

