-- ==== Sys2Proof/Machine/Commit.lean ====
section
/-! DEFINITION. The commit sequence (R302, R411 to R415), replay and service (R417, R418), the commits of implicit regions
(R419), and the release of held entries (R301, R304). -/

namespace Sys2Proof.Machine

/-! ## What a commit waits for -/

/-- Has every push of the items of `tag` landed? A trailer's items stay in its sagger (R476). -/
def Lane.landed (l : Lane) (tag : Nat) : Bool :=
  l.w.items.all (fun i => i.tag != tag || i.sent || i.stage == .held || i.stage == .refused ||
    (l.leader.isSome && i.stage == .sagger))

/-- Does a copy command still land lines in region `tag`? -/
def Lane.copiesOut (l : Lane) (tag : Nat) : Bool :=
  l.core.cpq.any (fun k => k.wg == l.ref.wg && k.warp == l.ref.warp && k.held && k.tag == tag)

/-- May an explicit commit of the members `m` go on (R305, R411)? -/
def Lane.commitReady (l : Lane) (r : Region) : Bool :=
  l.landed r.tag && !l.copiesOut r.tag &&
  l.w.accs.all (fun a => match a.kind with
    | .fence k => l.w.passed a k
    | _ => a.performed || !r.members.getLsbD a.thread) &&
  l.w.implicit.all (fun i => !(l.w.items.any (fun x => x.tag == i.tag && r.members.getLsbD x.thread) || i.owner.any (fun t => r.members.getLsbD t)))

/-- May an implicit region go on (R198, R305)? Its items' earlier accesses to their locations are performed, earlier
implicit regions that share a byte with it are complete; a release waits for every earlier access of its threads. -/
def Lane.implicitReady (l : Lane) (i : Implicit) : Bool :=
  let its := l.w.items.filter (fun x => x.tag == i.tag)
  l.landed i.tag && !(i.owner.isSome && l.copiesOut i.tag) &&
  !l.w.fenced i.po true &&
  its.all (fun x =>
    l.w.accs.all (fun a => a.performed || decide (x.po < a.po) || !overlap a.va a.n x.va x.n) &&
    !l.w.acquiring x.thread x.po && (!i.rel || !l.w.before x.thread i.po) &&
    l.w.implicit.all (fun j => decide (i.po ≤ j.po) ||
      !l.w.items.any (fun y => y.tag == j.tag && overlap y.va y.n x.va x.n)) &&
    l.w.rels.all (fun j => !l.w.items.any (fun y => y.tag == j.tag && y.sent && overlap y.va y.n x.va x.n)))

/-! ## The check pass (R411) -/

/-- Is the item stale? -/
def Ctx.stale (c : Ctx) (i : Item) : Bool := genOlder i.gen (c.s.gen c.l.wg.vf)

/-- Have the copy commands of the warp that stand before the implicit region's items left their locations (R305)? -/
def Ctx.copiesPassed (c : Ctx) (i : Implicit) : Bool :=
  (c.l.w.items.filter (fun x => x.tag == i.tag)).all (fun x => !c.copyBefore x.po x.va x.n true)

/-- The check pass over the region's items: stale ones and uncorrectable ones set member crazes. -/
def Ctx.checkPass (c : Ctx) (r : Region) : Ctx :=
  (c.l.w.items.filter (fun i => i.tag == r.tag && !i.sent && i.stage != .refused)).foldl (fun c i =>
    let va : Option VAddr := some (BitVec.ofNat 57 i.va)
    if c.stale i then c.onL (fun l => l.memberFault i.thread 0x06 5 i.pc va i.issued)
    else if i.bad then c.onL (fun l => l.memberFault i.thread 0x0A 5 i.pc va i.issued)
    else c) c

/-- The new crazes of cause 0x14 that a mismatch leaves to the next commit (R481). -/
def Ctx.mismatchCrazes (c : Ctx) (r : Region) (pc : VAddr) : Ctx :=
  if !r.crz14 then c
  else
    let c := c.onL (fun l => { l with w := { l.w with region := some { r with crazes := [], regionCraze := none, first := none, crz14 := false } } })
    (threadsOf r.members).foldl (fun c t => c.onL (fun l => l.memberFault t 0x14 5 pc none l.clock)) c

/-- The member-craze set Z (R411, R415). -/
def Region.crazed (r : Region) (keep : Bool) : BitVec 32 :=
  maskOf ((r.crazes.map Prod.fst).filter (fun t => r.members.getLsbD t && (!keep || r.hard.getLsbD t)))

/-! ## Decisions (R414) -/

/-- Cause 0x04, 0x06: serviceable; 0x0A, 0x0F, 0x14: retryable (R389). -/
def retryable (k : Nat) : Bool := k == 0x0A || k == 0x0F || k == 0x14

/-- The record a payload names. -/
def Ctx.recordOf (c : Ctx) (p : Word) : Option CrzRec :=
  let o := p.toNat / 2 ^ 17 % 128
  Tabs.find? (if o = c.l.wg.core then c.l.core else c.s.core o).crz (p.toNat % 512)

/-- Is the commit replayable (R414)? -/
def Ctx.replayable (c : Ctx) (r : Region) (z : BitVec 32) (form : Bool) : Bool :=
  form && decide (r.replays < 3) && (threadsOf z).all (fun t =>
    match Tabs.find? r.crazes t with
    | none => true
    | some p =>
      let k := causeOf p
      (k == 0x04 && (c.recordOf p).isSome && c.s.ringOn c.l.wg.vf) || k == 0x06 || retryable k)

/-- The open region, replaced. -/
def Lane.setRegion (l : Lane) (r : Region) : Lane := { l with w := { l.w with region := some r } }

/-- Is the lane's workgroup one of a pair? -/
def Lane.paired (l : Lane) : Bool := l.wg.pair.isSome

/-- The bytes of a held item in a signature: crazed words enter as their cause byte in their top byte (R477). -/
def Item.sigData (i : Item) : Nat × List Byte :=
  let low := i.va / 4 * 4
  let crz := fun (k : Nat) => match i.kind with
    | .red _ _ _ c => c
    | .store => (i.cells.find? (fun (c : WCell) => (i.va + c.off) / 4 == low / 4 + k && c.crz.isSome)).bind WCell.crz
  let mask := (List.range 33).foldl (fun m k => if (crz k).isSome then m + 2 ^ k else m) 0
  (mask % 2 ^ 32, (List.range i.n).map (fun j => match crz ((i.va + j) / 4 - low / 4) with
    | some p => if (i.va + j) % 4 = 3 then BitVec.ofNat 8 (causeOf p) else 0
    | none => match i.kind with
      | .red _ _ x _ => BitVec.ofNat 8 (x.toNat / 256 ^ j)
      | .store => ((i.cells.find? (fun (c : WCell) => c.off == j)).map WCell.b).getD 0))

/-- The record of a held item in a signature (R477). -/
def Item.sigRecord (i : Item) : List Byte :=
  let (kind, aop) : Nat × Nat := match i.kind with
    | .red op _ _ _ => (1, op)
    | .store => (if i.copy then 2 else 0, 0)
  leBytes 8 (i.va % 2 ^ 57) ++ leBytes 1 kind ++ leBytes 1 aop ++ leBytes 2 i.n ++ leBytes 4 i.sigData.1 ++ i.sigData.2

/-- A signature: bytes 0 to 7 of the digest (R477). -/
def signature (m : List Byte) : DWord := BitVec.ofNat 64 (leNat ((sha3_512 m).take 8))

/-- The message of an explicit region's release of `m` (R477). -/
def Lane.regionMessage (l : Lane) (r : Region) (m : BitVec 32) : List Byte :=
  leBytes 2 r.seq.toNat ++ leBytes 4 m.toNat ++
  (List.range 32).flatMap (fun t => match Tabs.find? r.crazes t with
    | some p => leBytes 4 (causeOf p * 2 ^ 24)
    | none => leBytes 4 0) ++
  (l.w.items.filter (fun i => i.tag == r.tag && !i.sent && m.getLsbD i.thread)).flatMap Item.sigRecord

/-- The message of an implicit region. -/
def Lane.implicitMessage (l : Lane) (num : Word) (tag : Nat) : List Byte :=
  [0xFF, 0xFF] ++ leBytes 4 num.toNat ++ (l.w.items.filter (fun i => i.tag == tag)).flatMap Item.sigRecord

/-- Decide to release the items of `m` (R411, R414): a whole region closes at completion, or the region goes on with the
members outside `m`. A leader's members continue at once, unless the SCB of its die has no room (`full`), and its region
stays reserved until agreement (R478). -/
def Lane.release (l : Lane) (r : Region) (m cont : BitVec 32) (pc : VAddr) (closes full : Bool) (undo : Option CommitReq) : Lane :=
  let leads := l.wg.pair.any Prod.snd
  let rel : Release :=
    { tag := r.tag, set := m, cont := if leads && !full then 0 else cont, pc, closes := closes && !leads, seq := r.seq,
      pending := r.pending.filter (fun e => m.getLsbD e.1), units := if leads && closes then r.res else 0,
      agreed := !l.paired, sig := if l.paired then signature (l.regionMessage r m) else 0, sigSent := false, undo }
  let l := { l with w := { l.w with
      rels := l.w.rels ++ [rel]
      items := l.w.items.map (fun i : Item => if i.tag = r.tag ∧ m.getLsbD i.thread then { i with sent := true } else i) } }
  let r1 := { r with commit := none, pending := r.pending.filter (fun e => !m.getLsbD e.1)
                     members := if closes then r.members else r.members &&& ~~~m }
  let l := l.setRegion r1
  if leads then
    let l := if full then l else l.sendTo cont (pc + 8)
    if closes then { l with w := { l.w with region := none, thr := l.w.thr.map Thread.reopened } } else l
  else l

/-- Park the threads of `m` for service: they stand at the region-open address (R417). -/
def Lane.parkService (l : Lane) (r : Region) (m : BitVec 32) : Lane :=
  (threadsOf m).foldl (fun l t => if (l.w.th t).gone then l else l.parkAt t r.openPc (.parkedEvent .service)) l

/-- A replay of the members `m` for the crazed members `z` among them (R417): roll-back, the replay count, and the service that the
causes in `z` need (R418). -/
def Ctx.replayWith (c : Ctx) (r : Region) (m z : BitVec 32) (pc : VAddr) : Ctx :=
  let crazes := r.crazes.filter (fun e => z.getLsbD e.1)
  let causes := crazes.map (fun e => causeOf e.2)
  let miss := crazes.filter (fun e => causeOf e.2 == 0x04)
  let args := (List.range 32).flatMap (fun t => match miss.find? (fun e => e.1 == t) with
    | some e =>
      let va := (c.recordOf e.2).map CrzRec.va |>.getD 0
      [va.setWidth 32, (va >>> 32).setWidth 32, 0x04]
    | none => [0, 0, 0])
  let run := if causes.all retryable then r.retryRun + 1 else 0
  let c := c.rollBack r m
  c.onL (fun l => match l.w.region with
    | none => l
    | some q =>
      let l := l.setRegion { q with replays := q.replays + 1, retryRun := run }
      let l : Lane := if 2 ≤ run then { l with wg := { l.wg with move := true } } else l
      let w : ReplayWait := ⟨m, causes.contains 0x06 && c.s.genBusy c.l.wg.vf, !miss.isEmpty, crazes⟩
      if w.gen || w.svc then
        let l := l.parkService q m
        { l with w := { l.w with
            replay := some w
            svcWait := if w.svc then some ⟨none, true, 0, pc, maskOf (miss.map Prod.fst), 0, args, m⟩ else none } }
      else l.sendTo m q.openPc)

/-- Has the SCB of the leader's die no free entry (R478)? -/
def Ctx.scbFull (c : Ctx) : Bool :=
  c.l.paired && decide (256 ≤ (c.s.scb.filter (fun e => e.die == c.l.wg.core / 32)).length)

/-- May the leader's warp not send one more signature: `slack` regions await agreement (R478)? -/
def Ctx.slackFull (c : Ctx) : Bool :=
  let slack := (c.s.rd (Reg.prctl (c.l.wg.core / 32))).toNat % 16
  c.l.wg.pair.any Prod.snd && decide (slack ≤ (c.l.w.rels.filter (fun r => !r.agreed)).length +
    (c.l.w.implicit.filter (fun i => i.decided && !i.agreed)).length)

/-- Does the decision for `q` release something? -/
def Ctx.releasing (c : Ctx) (q : CommitReq) (gone : Bool) : Bool :=
  match c.l.w.region with
  | none => false
  | some r => let z := r.crazed q.keep; z == 0 || (!gone && q.each && (r.members &&& ~~~z) != 0)

/-- The decision of R414 for the request `q`. A derail from `commit` leaves the member crazes and the region craze as they
are. -/
def Ctx.decide (c : Ctx) (q : CommitReq) (gone : Bool) : Ctx :=
  match c.l.w.region with
  | none => c
  | some r =>
    let z := r.crazed q.keep
    let full := c.scbFull
    if z = 0 then c.onL (fun l => l.release r r.members q.released q.pc true full (some q))
    else if gone then c.abortRegion r
    else if !q.each then
      if c.replayable r z q.r then c.replayWith r r.members z q.pc
      else c.onL (fun l => (threadsOf q.released).foldl (fun l t => l.divert t (r.regionCraze.getD 0)) (l.setRegion { r with commit := none }))
    else
      let out := r.members &&& ~~~z
      let again := c.replayable r z q.r
      let c := if out = 0 then c.onL (fun l => l.setRegion { r with commit := none })
        else c.onL (fun l => l.release r out (q.released &&& out) q.pc false full (some q))
      if again then
        match c.l.w.region with
        | some r1 => c.replayWith r1 z z q.pc
        | none => c
      else c.onL (fun l => (threadsOf (q.released &&& z)).foldl (fun l t =>
        l.divert t ((Tabs.find? r.crazes t).getD 0)) l)

/-! ## Implicit regions (R419) -/

/-- The check of one item of an implicit region: stale, it is translated and pushed again, or dropped with a record;
uncorrectable, it is held as crazed words. -/
def Ctx.implicitItem (c : Ctx) (i : Item) : Ctx :=
  if c.stale i then
    match c.s.translate (some c.l.wg.core) c.l.wg.vf i.va (if i.kind = .store then .store else .red) true with
    | (_, .wait) => c
    | (s, .fault k) => { c with s := s }.onL (fun l => (l.lateFault i k false).1.dropItem i)
    | (s, .ok dpa gen key rmt) => { c with s := s }.onL (fun l => l.setItem { i with stage := .sagger, dpa, gen, key, rmt })
  else if i.bad then c.onL (fun l =>
    let (l, p) := l.lateFault i 0x0A true
    l.setItem { i.crazed p with bad := false })
  else c

/-- The implicit region `tag` commits as `commit.all` (R187, R419); one that holds nothing ends at once. -/
def Ctx.decideImplicit (c : Ctx) (tag : Nat) : Ctx :=
  let its := c.l.w.items.filter (fun i => i.tag == tag)
  let c := its.foldl Ctx.implicitItem c
  let now := c.l.w.items.filter (fun i => i.tag == tag)
  if now.isEmpty && !c.l.paired then
    c.onL (fun l => { l with w := { l.w with implicit := l.w.implicit.filter (fun i => i.tag != tag) } })
  else if now.any (fun i => c.stale i) || !c.l.landed tag then c
  else c.onL (fun l => { l with w := { l.w with
      implicit := l.w.implicit.map (fun i => if i.tag = tag then
        { i with decided := true, agreed := !l.paired
                 sig := if l.paired then signature (l.implicitMessage i.num tag) else 0 } else i)
      items := l.w.items.map (fun i : Item => if i.tag = tag then { i with sent := true } else i) } })

/-- Does no commit go on any more: the waits of an exact stop are over (R331, R333), or the workgroup is a trailer whose
leader has been discarded (R481)? -/
def Ctx.settled (c : Ctx) : Bool :=
  c.l.wg.stop.any (fun p => p.mode == 2 && Nat.ble 2 p.stage) || c.l.leader.any (fun n => (c.s.wg? n).isNone)

/-- COMMIT_DECIDE (R411, R414, R419): of the open region, when its `commit` waits or every member has exited (R43, R414), or of
an implicit region. -/
def execCommitDecide (w : WRef) (tag : Nat) (s : State) : Out :=
  onWarp s w (fun c =>
    match c.l.w.region.filter (fun r => r.tag == tag), c.l.w.implicit.find? (fun i => i.tag == tag && !i.decided) with
    | some r, _ =>
      let gone := (threadsOf r.members).all (fun t => (c.l.w.th t).gone)
      let q : Option CommitReq := if r.commit.isSome then r.commit
        else if gone && !c.l.w.rels.any (fun x => x.tag == tag) then some ⟨false, false, false, 0, r.openPc⟩ else none
      match q with
      | none => c
      | some q =>
        if !c.l.commitReady r || c.settled then c
        else
          let d := c.checkPass r
          let d := match d.l.w.region with
            | some r1 => d.mismatchCrazes r1 q.pc
            | none => d
          -- a leader's releasing commit beyond the slack parks until the oldest one agrees
          if d.releasing q gone && d.slackFull then c else d.decide q gone
    | none, some i => if c.l.implicitReady i && c.copiesPassed i && !c.slackFull && !c.settled then c.decideImplicit tag else c
    | none, none => c)

/-! ## Release and settle (R301, R302, R304) -/

/-- The cells of a list of stores at their device addresses. -/
def allCells (its : List Item) : List WCell := its.flatMap (fun i => i.cells.map (fun c => ⟨i.dpa + c.off, c.b, c.crz⟩))

/-- Apply one reduction to the committed value (R194, R196, R502). -/
def State.applyRed (s : State) (i : Item) : State :=
  match i.kind with
  | .store => s
  | .red op n x crz =>
    match crz with
    | some p => s.memWrite i.key.toNat i.dpa (cellsOf 0 n 0 (some p))
    | none => match (atomStep op n x.toNat 0 (s.memWords i.key.toNat i.dpa n)).1 with
      | some v => s.memWrite i.key.toNat i.dpa (cellsOf 0 n v none)
      | none => s

/-- Apply the items of one slice: the stores, then the reductions, in program order, each as its own write (R196, R301, R388); stores
that together cover a sector replace what was uncorrectable there (R427). Remote pages are written by the peer; a page quarantined
since the push takes nothing (R428); writes to the host window are dropped while the link is down (R454). -/
def State.applyItems (s : State) (its : List Item) : State :=
  let s := (its.filter (fun i => !i.rmt && s.hostDead i.dpa)).foldl (fun s _ => s.dropHost) s
  let here := inOrder (its.filter (fun i => !i.rmt && !s.quarantined i.dpa && !s.hostDead i.dpa))
  let stores := here.filter (fun i => i.kind == .store)
  let s := stores.foldl (fun s i => s.memWrite i.key.toNat i.dpa i.cells) s
  let cells := allCells (stores.filter (fun i => decide (i.dpa < hostBase)))
  let s := ((cellSectors 0 cells).filter (coversSector 0 cells)).foldl (fun s q => s.healSector q) s
  (here.filter (fun i => i.kind != .store)).foldl State.applyRed s

/-- May the releases of `tag` be sent? -/
def Warp.mayRelease (w : Warp) (tag : Nat) : Bool :=
  w.rels.any (fun r => r.tag == tag && r.agreed) || w.implicit.any (fun i => i.tag == tag && i.decided && i.agreed)

/-- Where an item's release goes: the slice of its first byte (log 25), or the host window, in one order (R346). -/
def Item.slice (i : Item) : Nat := homeOf i.dpa

/-- HELD_RELEASE: the release reaches one slice (R301, R304); towards a peer without a live port it completes here (R457). -/
def execHeldRelease (w : WRef) (tag slice : Nat) (s : State) : Out :=
  onWarp s w (fun c =>
    let its := c.l.w.items.filter (fun i => i.tag == tag && i.sent && i.stage == .held && i.slice == slice)
    let lines := (its.flatMap Item.lines).eraseDups
    if its.isEmpty || !c.l.w.mayRelease tag ||
      c.s.releasing.any (fun r => lines.contains r.line && !r.isOf w tag) ||
      its.any (fun i => i.rmt && c.s.wayTo i.dpa == .waits) then c
    else
      let s0 := (its.filter (fun i => i.rmt && c.s.wayTo i.dpa == .dead)).foldl (fun s i => s.lostRelease i.dpa) c.s
      let s1 := s0.applyItems its
      let s2 := { s1 with releasing := s1.releasing ++ lines.map (fun x => (⟨x, w.wg, w.warp, tag, none⟩ : RelLine)) }
      { c with s := s2 }.onL (fun l => { l with w := { l.w with items := l.w.items.map (fun i : Item =>
        if i.tag = tag ∧ i.sent ∧ i.stage = ItemStage.held ∧ i.slice = slice then { i with stage := .released } else i) } }))

/-- HELD_SETTLE: the settle reaches one slice once the commit is complete (R302). -/
def execHeldSettle (w : WRef) (tag slice : Nat) (s : State) : Out :=
  let busy := match s.warp? w with
    | some (_, x) => x.items.any (fun i => i.tag == tag && i.sent)
    | none => false
  .next (if busy then s
    else { s with releasing := s.releasing.filter (fun r =>
      !(r.isOf w tag && homeOf (128 * r.line) == slice)) })

/-- The end of a release (R207, R414, R191, R393): granules become empty, records are freed, the region closes, and the
threads continue. -/
def Ctx.completeRelease (c : Ctx) (r : Release) : Ctx :=
  let c := c.onL (fun l => { l with w := { l.w with
      rels := l.w.rels.erase r
      items := l.w.items.filter (fun i => !(i.tag == r.tag && i.sent)) } })
  let c := r.pending.foldl (fun (c : Ctx) e =>
    if (c.scr e.2.wg).granule e.2.off = .pending c.l.ref.wg c.l.ref.warp r.tag then
      c.setScr e.2.wg ((c.scr e.2.wg).setGran e.2.off .empty) else c) c
  let c := c.onL (fun l => l.freeRecords (inRegion r.seq r.set))
  let c := match c.l.w.region with
    | some g => if r.closes && g.tag == r.tag then c.onL (fun l => l.closeRegion g) else c
    | none => c
  c.onL (fun l => l.sendTo r.cont (r.pc + 8))

/-- The latest commit stamp of the workgroup (R472). -/
def Ctx.stamped (c : Ctx) : Ctx := c.onL (fun l => { l with wg := { l.wg with stamp := l.clock } })

/-- The completion of a release or of an implicit region of `tag`, where one is complete (R207, R302, R187). A trailer's
ends at agreement (R480). -/
def Ctx.commitComplete (tag : Nat) (c : Ctx) : Ctx :=
  let trails := c.l.leader.isSome
  let done := c.l.w.items.all (fun i => !(i.tag == tag && i.sent) || i.stage == .released || i.stage == .refused || trails)
  if !done then c
  else
    match c.l.w.rels.find? (fun r => r.tag == tag && r.agreed), c.l.w.implicit.find? (fun i => i.tag == tag && i.decided && i.agreed) with
    | some r, _ => let d := c.completeRelease r; if trails then d else d.stamped
    | none, some _ =>
      let d := c.onL (fun l => { l with w := ({ l.w with
        items := l.w.items.filter (fun i => i.tag != tag)
        implicit := l.w.implicit.filter (fun i => i.tag != tag) }).dropFences })
      if trails then d else d.stamped
    | none, none => c

/-- COMMIT_COMPLETE (R207, R302, R187): every slice has acknowledged. -/
def execCommitComplete (w : WRef) (tag : Nat) (s : State) : Out := onWarp s w (Ctx.commitComplete tag)

/-! ## The end of a service (R417, R418) -/

/-- When no wait is left, the members resume at the region-open address (R417). -/
def Lane.endService (l : Lane) : Lane :=
  match l.w.replay, l.w.region with
  | some w, some r => if w.gen || w.svc then l else { l with w := { l.w with replay := none } }.sendTo w.members r.openPc
  | _, _ => l

/-- The host has finished a fault service record: 1 replays the region, anything else refuses service (R418): the members of Z derail
with their member crazes, and the others resume when no other wait is left. -/
def Lane.serviceDone (l : Lane) (ok : Bool) : Lane :=
  match l.w.replay with
  | none => l
  | some w =>
    let l := { l with w := { l.w with svcWait := none } }
    if ok then { l with w := { l.w with replay := some { w with svc := false } } }.endService
    else
      let z := maskOf (w.crazes.map Prod.fst)
      let l := { l with w := { l.w with replay := some { w with svc := false, members := w.members &&& ~~~z, crazes := [] } } }.endService
      w.crazes.foldl (fun l e => if (l.w.th e.1).gone then l else l.derail e.1 e.2) l

end Sys2Proof.Machine
end

