-- ==== Sys2Proof/Machine/Wake.lean ====
section
/-! DEFINITION. The ends of waits: watched words (R50, R53, R173), granules (R190), phases (R204), barriers (R200, R201,
R438), trap records and doorbells (R342, R418). -/

namespace Sys2Proof.Machine

/-! ## Watched words -/

/-- The version of a watched word now. -/
def Ctx.version (c : Ctx) (w : Watch) : Nat :=
  match w.scr with
  | some a => Tabs.get (c.scr a.wg).watch 0 (a.off / 4)
  | none => Tabs.get c.s.mem.watch 0 (w.dpa / 4)

/-- A woken thread reads the word again and continues (R173). -/
def Ctx.wakeWord (c : Ctx) (t : Nat) (w : Watch) : Ctx :=
  let pc := (c.l.w.th t).pc
  let c := c.onL (fun l => l.sendTo (BitVec.twoPow 32 t) (pc + 16))
  match w.scr with
  | some a =>
    let (c, ws) := c.readScr t pc a 4
    c.onL (fun l => l.setTh t ((l.w.th t).setWords w.dst ws))
  | none => c.onL (fun l => l.addAcc (.load false) t pc w.va 4 w.dst 0 0 0 w.scope .walk)

/-- The watch of a thread that is parked on a word it has read. -/
def Warp.watching (w : Warp) (t : Nat) : Option Watch :=
  match (w.th t).st with
  | .parkedWord x => if x.acc.isNone then some x else none
  | _ => none

/-- WAITEQ_WAKE (R53): the watched word has changed; that of a remote page changes when its peer says so. -/
def execWaiteqWake (w : WRef) (thread : Nat) (s : State) : Out :=
  onWake s w (fun c => match c.l.w.watching thread with
    | some x => if !x.rmt && c.version x == x.ver then c else c.wakeWord thread x
    | none => c)

/-- The job of a DCB: the level-3 DCB at or above it. -/
def State.jobOf (s : State) (d : Nat) : Nat := (s.atLevel d 3).getD d

/-- Does the job of `d` have saved workgroups that wait for resources (R50): images that a valid resume bind names? -/
def State.jobSaved (s : State) (d : Nat) : Bool :=
  (s.binds.map Prod.snd ++ s.bindq.map Prod.snd).any (fun b => b.valid && b.imgs.any (fun a =>
    (Tabs.find? s.images a).any (fun x => x.job == s.jobOf d)))

/-- WAITEQ_TIMEOUT (R53), held back by the resume-first rule (R50, R451). -/
def execWaiteqTimeout (w : WRef) (thread : Nat) (s : State) : Out :=
  onWake s w (fun c => match c.l.w.watching thread with
    | some x =>
      if x.deadline.any (fun d => decide (d ≤ c.s.clock)) && !c.s.jobSaved c.l.wg.dcb then c.wakeWord thread x else c
    | none => c)

/-! ## Granules and phases -/

/-- LDFE_WAKE (R190): the granule is full; the thread executes its `ldfe` again. -/
def execLdfeWake (w : WRef) (thread : Nat) (s : State) : Out :=
  onWake s w (fun c => match (c.l.w.th thread).st with
    | .parkedEvent (.ldfe a) =>
      if (c.scr a.wg).granule a.off = .full then c.onL (fun l => l.sendTo (BitVec.twoPow 32 thread) (l.w.th thread).pc) else c
    | _ => c)

/-- TBWAIT_WAKE (R204): the phase has completed. -/
def execTbwaitWake (w : WRef) (thread : Nat) (s : State) : Out :=
  onWake s w (fun c => match (c.l.w.th thread).st with
    | .parkedEvent (.tbwait a q) =>
      if ((c.scr a.wg).bar a.off).done q.toNat then
        c.onL (fun l => l.sendTo (BitVec.twoPow 32 thread) ((l.w.th thread).pc + 16))
      else c
    | _ => c)

/-! ## Warp barriers -/

/-- Threads of `m` that wait in `p` continue after their instruction of `size` bytes. -/
def Warp.letGo (w : Warp) (m : BitVec 32) (p : Park) (size : Nat) : Warp :=
  ({ w with thr := (List.range 32).map (fun t =>
      let x : Thread := w.th t
      if m.getLsbD t && x.st == .parkedEvent p then { x with st := .eligible, pc := x.pc + BitVec.ofNat 57 size } else x) } :
    Warp).converge

/-- BAR_RELEASE (R200): warps of episodes that are complete become eligible: of earlier ones, and of the one whose arrivals have
reached the expected count. -/
def execBarRelease (wg id : Nat) (s : State) : Out :=
  .next (match s.wg? wg with
    | none => s
    | some g => match Tabs.find? g.bars id with
      | none => s
      | some e =>
        let done := decide (e.expect ≤ g.arrivals e)
        let free := e.freed ++ (if done then e.waiting else [])
        if g.frozen || (free.isEmpty && !done) then s
        else s.setWg wg { g with
          bars := if done then Tabs.del g.bars id else Tabs.put g.bars id { e with freed := [] }
          warps := g.warps.zipIdx.map (fun p =>
            free.foldl (fun w x => if x.1 = p.2 then w.letGo x.2 (.bar id) 8 else w) p.1) })

/-- The resident workgroups of a kiln group. -/
def State.group (s : State) (wg : Nat) : List Nat :=
  match s.wg? wg with
  | none => []
  | some g => if g.kiln.isEmpty then [wg] else g.kiln.filter (fun n => (s.wg? n).isSome)

/-- KBAR_RELEASE (R201): every warp still running of the kiln group has arrived. -/
def execKbarRelease (wg : Nat) (s : State) : Out :=
  let gs := s.group wg
  let here := gs.all (fun n => match s.wg? n with
    | none => true
    | some g => g.warps.zipIdx.all (fun p => p.1.exited || g.kbar.any (fun e => e.1 == p.2)))
  let any := gs.any (fun n => (s.wg? n).any (fun g => !g.kbar.isEmpty))
  .next (if !here || !any || gs.any (fun n => (s.wg? n).any Wg.frozen) then s
    else gs.foldl (fun s n => match s.wg? n with
      | none => s
      | some g => s.setWg n { g with
          kbar := []
          warps := g.warps.zipIdx.map (fun p =>
            g.kbar.foldl (fun w x => if x.1 = p.2 then w.letGo x.2 .kbar 8 else w) p.1) }) s)

/-! ## Service records (R212, R342, R418) -/

/-- The 1 KiB record of a trap or fault service (R212, R418). -/
def svcRecord (g : Wg) (w : Warp) (v : SvcWait) (seq : Nat) : List Byte :=
  leBytes 4 v.code.toNat ++ leBytes 2 g.vf.toNat ++ leBytes 1 g.part ++ leBytes 1 g.core ++ leBytes 8 seq ++
  leBytes 8 v.pc.toNat ++ leBytes 4 v.amask.toNat ++ leBytes 2 w.wslot ++ leBytes 1 (if v.isFault then 0 else v.dst) ++
  leBytes 1 (if v.isFault then 1 else 0) ++ leBytes 32 0 ++ v.args.flatMap (fun x => leBytes 4 x.toNat) ++ leBytes 576 0

/-- `prod` and `cons` of a service ring. -/
def State.ringProd (s : State) (v : BitVec 8) : Nat := (s.vrd v Reg.sridx).toNat % 2 ^ 32
/-- Records the host has finished with. -/
def State.ringCons (s : State) (v : BitVec 8) : Nat := (s.vrd v Reg.sridx).toNat / 2 ^ 32

/-- Host address of record `seq`, as a device physical address in the host window (R346). -/
def State.recordAt (s : State) (v : BitVec 8) (seq : Nat) : Nat :=
  hostBase + ((s.vrd v Reg.srbase).toNat / 1024 * 1024 + 1024 * (seq % 2 ^ s.ringLg v)) % 2 ^ 40

/-- The record of a warp that waits for its slot: the trap's first. -/
def Warp.pendingRec (w : Warp) : Option SvcWait :=
  match w.trapWait, w.svcWait with
  | some v, _ => if v.seq.isNone then some v else w.svcWait.filter (fun x => x.seq.isNone)
  | none, some v => if v.seq.isNone then some v else none
  | none, none => none

/-- TRAP_RECORD_WRITE (R342): with room in the ring, the record is written, `prod` rises and vector 0 of the virtual
function is raised. A trailer writes none (R476). -/
def execTrapRecordWrite (w : WRef) (s : State) : Out :=
  onWarp s w (fun c => match c.l.w.pendingRec with
    | none => c
    | some v =>
      let f := c.l.wg.vf
      let prod := c.s.ringProd f
      if c.l.leader.isSome || !c.s.ringOn f || !c.s.hostUp || decide (2 ^ c.s.ringLg f ≤ (prod + 2 ^ 32 - c.s.ringCons f) % 2 ^ 32) then c
      else
        let s1 := c.s.memBytes 0 (c.s.recordAt f prod) (svcRecord c.l.wg c.l.w v prod)
        let s2 := (s1.vwr f Reg.sridx (BitVec.ofNat 64 (c.s.ringCons f * 2 ^ 32 + (prod + 1) % 2 ^ 32))).raise (some f) 0
        let v1 : SvcWait := { v with seq := some prod }
        ⟨s2, { c.l with w := if v.isFault then { c.l.w with svcWait := some v1 } else { c.l.w with trapWait := some v1 } }⟩)

/-- Finish the service of a warp with the record's words. -/
def Lane.finishService (l : Lane) (isFault : Bool) (dn : Nat) (res : List Word) : Lane :=
  if isFault then l.serviceDone (dn == 1)
  else match l.w.trapWait with
    | some v => l.trapDone v.members v.pc v.dst res
    | none => l

/-- What a leader's finished service gives its trailer (R476): at once when it waits, else queued. -/
def State.tellTrailer (s : State) (g : Wg) (warp : Nat) (isFault : Bool) (dn : Nat) (res : List Word) : State :=
  match g.pair with
  | some (tr, true) =>
    s.atWarp ⟨tr, warp⟩ (fun c => c.onL (fun l =>
      if (isFault && l.w.svcWait.isSome) || (!isFault && l.w.trapWait.isSome) then l.finishService isFault dn res
      else if isFault then l else { l with w := { l.w with trapQ := l.w.trapQ ++ [res] } }))
  | _ => s

/-- The host's doorbell for the record `seq` (R342, R418): the device re-reads `done`; 0, or a `seq` no warp waits for,
has no effect. -/
def State.doorbell (s : State) (f : BitVec 8) (seq : Nat) : State :=
  let a := s.recordAt f seq
  let dn := s.memNat 0 (a + 0x2C0) 4
  let res := (List.range 64).map (fun i => BitVec.ofNat 32 (s.memNat 0 (a + 0x1C0 + 4 * i) 4))
  s.wgs.foldl (fun s e =>
    if e.2.vf != f || e.2.frozen then s
    else (List.range e.2.warps.length).foldl (fun s i =>
      match s.warp? ⟨e.1, i⟩ with
      | none => s
      | some (g, w) =>
        let hit := fun (v : Option SvcWait) => v.any (fun x => x.seq == some seq)
        if hit w.trapWait && dn == 1 then
          ((s.atWarp ⟨e.1, i⟩ (fun c => c.onL (fun l =>
            let l := l.finishService false dn res
            { l with w := l.w.converge }))).tellTrailer g i false dn res)
        else if hit w.svcWait && dn != 0 then
          ((s.atWarp ⟨e.1, i⟩ (fun c => c.onL (fun l => l.finishService true dn res))).tellTrailer g i true dn res)
        else s) s) s

/-- A write of `SRDB`: without the TEE attribute, in locked or run, it is an error of the interface (R459), and in error it
has no effect. -/
def State.srdbWrite (s : State) (vf : BitVec 8) (data : DWord) (tee : Bool) : State :=
  if s.tdiLive vf && !tee then s.interfaceError vf 2 Reg.srdb
  else if s.tdi vf == 3 then s else s.doorbell vf data.toNat

/-- SRDB_WRITE (R342). -/
def execSrdbWrite (vf : BitVec 8) (data : DWord) (tee : Bool) (s : State) : Out := .next (s.srdbWrite vf data tee)

end Sys2Proof.Machine
end

