-- ==== Sys2Proof/Machine/Collective.lean ====
section
/-! DEFINITION. Collectives (R280 to R283, R363, R442 to R444): `coll` and `collwait` at the lane, the contributions, the
results, abandonment. -/

namespace Sys2Proof.Machine

open Sys2Proof.Num

/-! ## The extension word (R280) -/

/-- `seg`. -/
def clSeg (e : Ext) : Nat := (e.extractLsb' 61 3).toNat
/-- `op`: 0 all-reduce, 1 reduce-scatter, 2 all-gather, 3 broadcast. -/
def clOp (e : Ext) : Nat := (e.extractLsb' 58 3).toNat
/-- `dt`. -/
def clDt (e : Ext) : Nat := (e.extractLsb' 55 3).toNat
/-- `rop`. -/
def clRop (e : Ext) : Nat := (e.extractLsb' 53 2).toNat
/-- `root`. -/
def clRoot (e : Ext) : Nat := (e.extractLsb' 32 16).toNat
/-- `cid`. -/
def clCid (e : Ext) : Nat := (e.extractLsb' 16 16).toNat

/-- Bytes of an element. -/
def clBytes (e : Ext) : Nat := match clDt e with
  | 0 => 4
  | 1 => 8
  | 2 => 2
  | 3 => 4
  | _ => 8

/-- The faults of the word itself. -/
def clBad (dst : BitVec 8) (a b : Src) (e : Ext) : Bool :=
  decide (3 < clOp e) || decide (4 < clDt e) || decide (2 < clRop e) || (decide (2 ≤ clOp e) && clRop e != 0) ||
  e.extractLsb' 48 5 != 0 || (clOp e != 3 && clRoot e != 0) || e.extractLsb' 0 16 != 0 ||
  decide (0x3F < dst.toNat) || !matSrcOk 2 a || !matSrcOk 1 b

/-! ## Issue -/

/-- Tickets count from 1 and skip 0 (R281). -/
def nextTicket (n : Word) : Word := if n + 1 = 0 then 1 else n + 1

/-- Ticket `a` was issued at or before `b`. -/
def ticketLe (a b : Word) : Bool := decide ((b - a).toNat < 2 ^ 31)

/-- `coll` (R280, R281, R407, R444): with four collectives outstanding the warp waits. A trailer takes part in none
(R476). -/
def execColl (h : Hdr) (dst : BitVec 8) (a b : Src) (e : Ext) (s : State) : Out :=
  { h, size := 16, chains := false, regs := [], fault := copyFault (fun _ => clBad dst a b e) : Form }.execC
    (fun c act => !act.isEmpty && decide (4 ≤ (c.l.w.colls.filter (fun x => !x.done)).length))
    (fun pc act c => match act with
      | [] => c
      | t :: _ =>
        let l := c.l
        let (va, pa) := l.matRead .i64 0 a
        let (vb, pb) := l.matRead .i32 0 b
        let fail := fun (k : Nat) (o : Option VAddr) => c.onL (fun l => l.derailAll act pc k o)
        if act.any l.w.member then fail 0x01 none
        else match crazeOf [pa, pb, l.guardCraze h act] with
          | some p => c.onL (fun l => l.derailWith act p)
          | none =>
            let g := l.w.seg (clSeg e)
            let o := va.toNat
            if vb.toNat = 0 ∨ 2 ^ 28 < vb.toNat then fail 0x01 none
            else match c.checkSeg g t o 1 [57, 58] [0] false with
              | .fault k x => fail k (some x)
              | .ok w =>
                if o % 16 ≠ 0 then fail 0x08 (some (BitVec.ofNat 57 o))
                else
                  let at_ := match w with
                    | .va v => v
                    | .scr _ => 0
                  c.onL (fun l =>
                    let n := nextTicket l.w.collCount
                    let x : CollOut := ⟨n, false, false, none, t, pc, l.w.po, e, at_, sgLimit g + 1 - o, vb.toNat⟩
                    let w1 : Warp := { l.w.setS dst.toNat ⟨n, false⟩ with collCount := n }
                    ({ l with w := if l.leader.isSome then w1 else { w1 with colls := w1.colls ++ [x] } }).tick)) s

/-! ## Waiting (R283) -/

/-- The collectives that a ticket of the lane's warp waits for: the warp's own, or, in a trailer, those of the leader's
warp; and the last ticket issued there (R476). -/
def Ctx.collsOf (c : Ctx) : List CollOut × Word :=
  match c.l.leader with
  | none => (c.l.w.colls, c.l.w.collCount)
  | some g => match c.s.warp? ⟨g, c.l.ref.warp⟩ with
    | some (_, w) => (w.colls, w.collCount)
    | none => ([], c.l.w.collCount)

/-- Has the collective with ticket `t`, and every earlier one of the warp, completed? -/
def Ctx.collDone (c : Ctx) (t : Word) : Bool :=
  let (l, n) := c.collsOf
  ticketLe t n && l.all (fun x => x.done || !ticketLe x.ticket t)

/-- The payload of the first buffer fault of the ticket or an earlier one (R444). -/
def Ctx.collFault (c : Ctx) (t : Word) : Option Word :=
  (c.collsOf.1.filter (fun x => ticketLe x.ticket t)).findSome? CollOut.fault

/-- A thread whose ticket has completed goes on, or derails. -/
def Ctx.collEnd (c : Ctx) (t : Nat) (ticket : Word) (pc : VAddr) : Ctx :=
  c.onL (fun l => match c.collFault ticket with
    | some p => l.derail t p
    | none => l.moveTo [t] pc)

/-- `collwait` (R283, R407). -/
def execCollwait (h : Hdr) (a : Src) (s : State) : Out :=
  { h, size := 8, chains := false, regs := srcRegs 1 a
    fault := fun l => illegal (!srcOk l.wg.info.nregs 1 a) : Form }.execC (fun _ _ => false)
    (fun pc act c =>
      let (l, vs) := act.foldl (fun (r : Lane × List (Nat × Word × Option Word)) t =>
        let (l, v, p) := r.1.readOne t pc 0 .i32 false a
        (l, r.2 ++ [(t, v.setWidth 32, crazeOf [p, (l.w.th t).predCraze h.guard])])) (c.l, [])
      let c : Ctx := { c with l := l }
      let early := fun (v : Word) => v == 0 || !ticketLe v c.l.w.collCount
      let wrong := (vs.filter (fun x => x.2.2.isNone && early x.2.1)).map Prod.fst
      let c := c.onL (fun l => l.derailAll wrong pc 0x01 none)
      vs.foldl (fun c x => match x.2.2 with
        | some p => c.onL (fun l => l.derail x.1 p)
        | none =>
          if early x.2.1 then c
          else if c.collDone x.2.1 then c.collEnd x.1 x.2.1 (pc + 8)
          else c.onL (fun l => l.parkAt x.1 pc (.parkedEvent (.collwait x.2.1)))) c) s

/-- COLLWAIT_WAKE (R283, R444). -/
def execCollwaitWake (w : WRef) (thread : Nat) (s : State) : Out :=
  onWake s w (fun c => match (c.l.w.th thread).st with
    | .parkedEvent (.collwait n) => if c.collDone n then c.collEnd thread n ((c.l.w.th thread).pc + 8) else c
    | _ => c)

/-! ## Communicators (R363, R443) -/

/-- A communicator as the transport finds it: participants, and the ranks of this S4's workgroups of the partition. -/
structure Comm where
  np : Nat
  locals : List (Nat × Nat)
  job : Nat

/-- Read the communicator entry `cid` of partition `p`, under key slot 0; `none` where it is missing or broken. -/
def State.comm (s : State) (p cid : Nat) : Option Comm :=
  let r := s.rd (Reg.cmtbase p)
  let base := field r.toNat 12 40 * 4096
  let lg := field r.toNat 0 5
  if base = 0 ∨ 16 < lg ∨ 2 ^ lg ≤ cid then none
  else
    let a := base + 32 * cid
    let np := s.memNat 0 a 4
    let plist := s.memNat 0 (a + 8) 8
    if np < 2 ∨ 65536 < np ∨ s.memNat 0 (a + 4) 4 ≠ 0 ∨ s.memNat 0 (a + 24) 8 ≠ 0 then none
    else
      let node := field (s.rd Reg.fnode).toNat 0 12
      let ds := (List.range np).map (fun i => s.memNat 0 (plist + 8 * i) 8)
      some ⟨np, (ds.zipIdx.filter (fun d => field d.1 0 12 == node && field d.1 12 5 == p && field d.1 17 15 == 0)).map
        (fun d => (d.2, field d.1 32 32)), s.memNat 0 (a + 16) 8⟩

/-- The rank of workgroup index `i` (R363). -/
def Comm.rank (m : Comm) (i : Nat) : Option Nat := (m.locals.find? (fun x => x.2 == i)).map Prod.fst

/-! ## Reading a contribution (R444) -/

/-- The elements a rank contributes: the first, and how many (R281). -/
def clRead (e : Ext) (count np rank : Nat) : Nat × Nat :=
  match clOp e with
  | 0 => (0, count)
  | 1 => (0, np * count)
  | 2 => (rank * count, count)
  | _ => if rank = clRoot e then (0, count) else (0, 0)

/-- Elements that the operation touches in a participant's buffer. -/
def clRange (e : Ext) (count np : Nat) : Nat := if clOp e = 1 ∨ clOp e = 2 then np * count else count

/-- Elements that it writes there. -/
def clWrites (e : Ext) (count np rank : Nat) : List Nat :=
  match clOp e with
  | 1 => (List.range count).map (rank * count + ·)
  | 2 => List.range (np * count)
  | _ => List.range count

/-- A new craze of the transport: unit 4, the issuing thread (R444). -/
def Ctx.collOriginate (c : Ctx) (x : CollOut) (cause : Nat) (va : Option VAddr) : Ctx × Word :=
  c.originate cause 4 x.thread x.pc va

/-- The payload of a cause, one record for each; the first one also faults the ticket. -/
def Ctx.collCause (c : Ctx) (x : CollOut) (seen : Tab Word) (cause va : Nat) : Ctx × CollOut × Tab Word × Word :=
  match Tabs.find? seen cause with
  | some p => (c, x, seen, p)
  | none =>
    let (c, p) := c.collOriginate x cause (some (BitVec.ofNat 57 va))
    (c, { x with fault := some (x.fault.getD p) }, Tabs.put seen cause p, p)

/-- Read the words of `n` bytes at `va`; `none` while a line is in the releasing state. -/
def Ctx.collWords (c : Ctx) (va n : Nat) : Ctx × Option (Tab FWord) :=
  (wordsOf va n).foldl (fun (r : Ctx × Option (Tab FWord)) w => match r.2 with
    | none => r
    | some t => match r.1.fetchWord (4 * w) with
      | (c, none) => (c, none)
      | (c, some x) => (c, some (Tabs.put t w x))) (c, some [])

/-- An element of read words at `va`, as words with the payload of the first bad one. -/
def collElt (t : Tab TWord) (va n : Nat) : Nat × Option Word :=
  let ws := (wordsOf va n).map (fun k => Tabs.get t ⟨0, false⟩ k)
  match crazeOf (ws.map (fun w => if w.tag then some w.val else none)) with
  | some p => (0, some p)
  | none => (leNat (((ws.flatMap (fun w => leBytes 4 w.val.toNat)).drop (va % 4)).take n), none)

/-- The contribution of a collective: its elements; `none` while it must wait. -/
def Ctx.contribute (c : Ctx) (x : CollOut) (np rank : Nat) : Ctx × CollOut × Option (List (Nat × Option Word)) :=
  let b := clBytes x.e
  let (f, n) := clRead x.e x.count np rank
  if x.room < clRange x.e x.count np * b then
    let (c, x, _, p) := c.collCause x [] 0x07 (x.va + x.room)
    (c, x, some (List.replicate n (0, some p)))
  else
    match c.collWords (x.va + f * b) (n * b) with
    | (c, none) => (c, x, none)
    | (c, some t) =>
      let r := t.foldl (fun (r : Ctx × CollOut × Tab Word × Tab TWord) w => match w.2 with
        | .ok v => (r.1, r.2.1, r.2.2.1, Tabs.put r.2.2.2 w.1 v)
        | .bad cause va =>
          let (c, x, seen, p) := r.1.collCause r.2.1 r.2.2.1 cause va
          (c, x, seen, Tabs.put r.2.2.2 w.1 ⟨p, true⟩)) (c, x, [], [])
      (r.1, r.2.1, some ((List.range n).map (fun i => collElt r.2.2.2 (x.va + (f + i) * b) b)))

/-! ## Results -/

/-- One step of `fold` (R281). -/
def foldStep (dt rop a b : Nat) : Nat :=
  let f := match dt with
    | 0 => fp32
    | 1 => fp64
    | _ => Num.bf16
  let w := if dt = 4 then 64 else 32
  if dt ≤ 2 then match rop with
    | 0 => roundTo (X.add false (valueOf a f) (valueOf b f)) f rne
    | 1 => roundTo (fminmax false (valueOf a f) (valueOf b f)) f rne
    | _ => roundTo (fminmax true (valueOf a f) (valueOf b f)) f rne
  else match rop with
    | 0 => (a + b) % 2 ^ w
    | 1 => if sext w b < sext w a then b else a
    | _ => if sext w a < sext w b then b else a

/-- The fold of one element over the ranks, in ascending order (R281, R398). -/
def foldElts (dt rop : Nat) (l : List (Nat × Option Word)) : Nat × Option Word :=
  match crazeOf (l.map Prod.snd), l with
  | some p, _ => (0, some p)
  | none, [] => (0, none)
  | none, v :: vs => (vs.foldl (fun a x => foldStep dt rop a x.1) v.1, none)

/-- Element `k` of what rank `q` contributes; a rank of another S4 contributes free values (log 36). -/
def CollInst.elt (x : CollInst) (ctr q k : Nat) : Nat × Option Word :=
  match x.parts.find? (fun p => p.rank == q) with
  | some p => p.data.getD k (0, none)
  | none =>
    let b := match x.parts.head? with
      | some p => clBytes p.e
      | none => 4
    ((Config.freeValue (ctr + q * 2 ^ 45 + k)).toNat % 2 ^ (8 * b), none)

/-- The results of a participant: element number and value (R281). -/
def CollInst.results (x : CollInst) (ctr : Nat) (p : CollPart) : List (Nat × (Nat × Option Word)) :=
  let ranks := List.range x.np
  let dt := clDt p.e
  let rop := clRop p.e
  (clWrites p.e p.count x.np p.rank).map (fun k => (k, match clOp p.e with
    | 2 => x.elt ctr (k / p.count) (k % p.count)
    | 3 => x.elt ctr (clRoot p.e) k
    | _ => foldElts dt rop (ranks.map (fun q => x.elt ctr q k))))

/-- The participant's workgroup, resident or saved. -/
def State.anyWg (s : State) (n : Nat) : Option Wg :=
  match s.wg? n with
  | some g => some g
  | none => (s.images.find? (fun e => e.2.id == n)).map (fun e => e.2.g)

/-- Change it. -/
def State.modAny (s : State) (n : Nat) (f : Wg → Wg) : State :=
  { s.modWg n f with images := s.images.map (fun e => if e.2.id = n then (e.1, { e.2 with g := f e.2.g }) else e) }

/-- Cells of result elements at the buffer of `p`, grouped by 128-byte line of virtual address; what passes the segment
limit is left out (R444). -/
def resultLines (p : CollPart) (rs : List (Nat × (Nat × Option Word))) : List (Nat × List WCell) :=
  let b := clBytes p.e
  let cells := (rs.filter (fun r => decide ((r.1 + 1) * b ≤ p.room))).flatMap (fun r =>
    cellsOf (p.va + r.1 * b) b r.2.1 r.2.2)
  ((cells.map (fun c => c.off / 128)).eraseDups).map (fun k =>
    (128 * k, (cells.filter (fun c => c.off / 128 == k)).map (fun c : WCell => { c with off := c.off - 128 * k })))

/-- Write one line of results: steps 5 to 7 of R420. Gives the cause of a line that is skipped; `none` while the walk
waits. A line in the releasing state takes the write at once: no read sees it before its settle (R302). -/
def State.writeLine (s : State) (p : CollPart) (l : Nat × List WCell) : Option (State × Option Nat) :=
  match s.translate none p.vf l.1 .store true with
  | (_, .wait) => none
  | (s, .fault k) => some (s, some k)
  | (s, .ok a _ key rmt) =>
    if rmt then some (s, none)
    else if a < hostBase ∧ !s.colourOk p.part (colourOf a) then some (s.breach p.part 0 a, some 0x05)
    else if a < hostBase ∧ s.quarantined a then some (s, some 0x0B)
    else some (s.memWrite key.toNat a l.2, none)

/-- Change the warp's record of a ticket. -/
def Warp.setColl (w : Warp) (t : Word) (f : CollOut → CollOut) : Warp :=
  { w with colls := (w.colls.map (fun x => if x.ticket = t then f x else x)).filter (fun x => !x.done || x.fault.isSome) }

/-- Change a workgroup's record of a ticket. -/
def Wg.setColl (g : Wg) (w : Nat) (t : Word) (f : CollOut → CollOut) : Wg :=
  { g with warps := g.warps.zipIdx.map (fun p => if p.2 = w then p.1.setColl t f else p.1) }

/-- Record a fault of a participant's buffer on its core, when it is resident: one record for each cause (R444). -/
def State.collReport (s : State) (p : CollPart) (cause va : Nat) : State :=
  s.atWarp ⟨p.wg, p.warp⟩ (fun c =>
    let (c, q) := c.originate cause 4 p.thread p.pc (some (BitVec.ofNat 57 va))
    c.onL (fun l => { l with w := l.w.setColl p.ticket (fun x => { x with fault := some (x.fault.getD q) }) }))

/-- Write the results of a participant and complete its ticket; `none` while a line must wait. -/
def State.deliver (s : State) (p : CollPart) (rs : List (Nat × (Nat × Option Word))) : Option State :=
  let r := (resultLines p rs).foldl (fun (r : Option (State × List (Nat × Nat))) l => match r with
    | none => none
    | some (s, bad) => match s.writeLine p l with
      | none => none
      | some (s, none) => some (s, bad)
      | some (s, some k) => some (s, if bad.any (fun x => x.1 == k) then bad else bad ++ [(k, l.1)])) (some (s, []))
  r.map (fun r =>
    let s1 := r.2.foldl (fun s x => s.collReport p x.1 x.2) r.1
    s1.modAny p.wg (fun g => g.setColl p.warp p.ticket (fun x => { x with done := true })))

/-- Deliver crazed results to a participant (R442): a resident one gets a new 0x13 craze. -/
def State.abandonPart (s : State) (np : Nat) (p : CollPart) : Option State :=
  let crz := fun (s : State) (q : Word) => s.deliver p ((clWrites p.e p.count np p.rank).map (fun k => (k, ((0 : Nat), some q))))
  match s.wg? p.wg with
  | none => crz s 0x13000000
  | some _ =>
    let (s, q) := s.ask ⟨p.wg, p.warp⟩ (0 : Word) (fun c => c.originate 0x13 4 p.thread p.pc none)
    crz s q

/-- Remove an instance, or replace it. -/
def State.setInst (s : State) (x : CollInst) : State :=
  let ended := x.abandoned && x.locals.all (fun r => x.parts.any (fun p => p.rank == r.1))
  { s with colls := if ended then s.colls.filter (fun y => y.id != x.id)
      else s.colls.map (fun y => if y.id = x.id then x else y) }

/-- Abandon an instance (R442): every participant that has contributed completes with crazed results. -/
def State.abandon (s : State) (x : CollInst) : State :=
  match x.parts.foldl (fun (r : Option State) p => r.bind (fun s => s.abandonPart x.np p)) (some s) with
  | none => s.setInst { x with doomed := true }
  | some s1 => s1.setInst { x with abandoned := true, doomed := false }

/-- A contribution disagrees with rank 0's (R442). -/
def CollInst.disagrees (x : CollInst) : Bool :=
  match x.parts.find? (fun p => p.rank == 0) with
  | none => false
  | some z => x.parts.any (fun p => p.count != z.count || p.e.extractLsb' 32 29 != z.e.extractLsb' 32 29)

/-- The collective timeout of rank 0's workgroup (R28, R442); where it is not on this S4, none. -/
def State.instLimit (s : State) (part : Nat) (m : Comm) : Nat :=
  match m.locals.find? (fun x => x.1 == 0) with
  | none => 0
  | some r => match s.wgs.find? (fun e => e.2.part == part && e.2.info.index == r.2 && s.jobOf e.2.dcb == m.job) with
    | some e => s.effCtmo e.2.dcb
    | none => s.effCtmo m.job

/-- The instance that a contribution of `rank` joins: the oldest one of the communicator without it, or a new one. -/
def State.instFor (s : State) (part cid rank : Nat) (m : Comm) : State × CollInst :=
  match s.colls.find? (fun x => x.part == part && x.cid == cid && !x.parts.any (fun p => p.rank == rank)) with
  | some x => (s, x)
  | none =>
    let x : CollInst := ⟨s.nextColl, part, cid, m.np, m.locals, m.job, s.clock, s.instLimit part m, [], false, false⟩
    ({ s with colls := s.colls ++ [x], nextColl := s.nextColl + 1 }, x)

/-- A contribution with its place. -/
def partOf (g : Wg) (ref : WRef) (x : CollOut) (rank : Nat) (data : List (Nat × Option Word)) : CollPart :=
  ⟨rank, ref.wg, ref.warp, x.ticket, g.vf, g.part, x.thread, x.pc, x.e, x.va, x.room, x.count, data⟩

/-- The contribution of the warp's ticket: the state with the lane put back, and what it contributes. -/
def State.readPart (s : State) (w : WRef) (x : CollOut) (np rank : Nat) : State × Option CollPart :=
  s.ask w none (fun c => match c.contribute x np rank with
    | (_, _, none) => (c, none)
    | (c, y, some d) =>
      (c.onL (fun l => { l with w := l.w.setColl x.ticket (fun _ => { y with sent := true }) }),
        some (partOf c.l.wg w y rank d)))

/-- COLL_CONTRIBUTION (R442): the transport reads the contribution of a ticket, once the warp's implicit regions before
it have completed (R281). -/
def execCollContribution (w : WRef) (ticket : Nat) (s : State) : Out :=
  .next (match s.warp? w with
    | none => s
    | some (g, wp) => match wp.colls.find? (fun x => x.ticket.toNat == ticket && !x.sent) with
      | none => s
      | some x =>
        let bad := fun (_ : Unit) =>
          -- no communicator: its own buffer is treated as abandoned; rank 0 of one stands for the unknown rank (log 37)
          match s.abandonPart 1 (partOf g w x 0 []) with
          | some s1 => s1
          | none => s
        if wp.implicit.any (fun i => decide (i.po < x.po)) then s
        else match s.comm g.part (clCid x.e) with
          | none => bad ()
          | some m =>
            if m.job ≠ s.jobOf g.dcb then bad ()
            else match m.rank g.info.index with
              | none => bad ()
              | some r =>
                let (s1, i) := s.instFor g.part (clCid x.e) r m
                match s1.readPart w x m.np r with
                | (_, none) => s
                | (s2, some p) =>
                  let i1 : CollInst := { i with parts := i.parts ++ [p] }
                  if i.abandoned then match s2.abandonPart m.np p with
                    | some s3 => s3.setInst i1
                    | none => s
                  else
                    let s3 := s2.setInst i1
                    if i1.disagrees || (clOp x.e == 3 && decide (m.np ≤ clRoot x.e)) then s3.abandon i1 else s3)

/-- COLL_COMPLETE (R281, R282): every participant has contributed; the results are written to every buffer. -/
def execCollComplete (inst : Nat) (s : State) : Out :=
  .next (match s.colls.find? (fun x => x.id == inst && !x.abandoned) with
    | none => s
    | some x =>
      if x.doomed then s.abandon x
      else if !x.locals.all (fun r => x.parts.any (fun p => p.rank == r.1)) then s
      else
        let ctr := s.freeCtr
        match x.parts.foldl (fun (r : Option State) p => r.bind (fun s => s.deliver p (x.results ctr p)))
          (some { s with freeCtr := s.freeCtr + x.np * 2 ^ 45 }) with
        | none => s
        | some s1 => { s1 with colls := s1.colls.filter (fun y => y.id != inst) })

/-- COLL_TIMEOUT (R442): the timer reaches its limit before every participant has contributed. Where rank 0 is on another
S4, its transport tells this one. -/
def execCollTimeout (inst : Nat) (s : State) : Out :=
  .next (match s.colls.find? (fun x => x.id == inst && !x.abandoned) with
    | none => s
    | some x =>
      let here := x.locals.any (fun r => r.1 == 0)
      let all := decide (x.locals.length = x.np) && x.locals.all (fun r => x.parts.any (fun p => p.rank == r.1))
      if !here || (!all && x.limit != 0 && decide (x.since + x.limit ≤ s.clock)) then s.abandon x else s)

end Sys2Proof.Machine
end

