-- ==== Sys2Proof/Machine/Place.lean ====
section
/-! DEFINITION. Launch records and kernel headers (R71 to R75), the resources of a core (R65 to R70), binds (R320 to R323)
and the placement of a workgroup, kiln group or pair (R26, R76, R77, R317, R475). -/

namespace Sys2Proof.Machine

/-! ## Launch record and kernel header (R71 to R74) -/

/-- A launch record (R73). -/
structure Launch where
  hdrVa : Nat
  pword : DWord
  ngid : List Nat
  ntid : List Nat
  kg : Nat
  lflags : Nat
  constBase : DWord
  constLen : DWord
  prvBase : DWord
  nargs : Nat
  sword : DWord
  args : List Word
  /-- Its reserved fields are zero. -/
  sound : Bool

/-- The launch record at `a`, which the Stoker reads under key slot 0 (R354). -/
def State.launchAt (s : State) (a : Nat) : Launch :=
  let u := fun (o n : Nat) => s.memNat 0 (a + o) n
  let d := fun (o : Nat) => BitVec.ofNat 64 (u o 8)
  { hdrVa := u 0 8 % 2 ^ 57, pword := d 8
    ngid := [u 0x10 4, u 0x14 2, u 0x16 2], ntid := [u 0x18 2, u 0x1A 2, u 0x1C 2]
    kg := u 0x1E 1, lflags := u 0x1F 1, constBase := d 0x20, constLen := d 0x28, prvBase := d 0x30
    nargs := u 0x38 4, sword := d 0x40
    args := (List.range 32).map (fun k => BitVec.ofNat 32 (u (0x80 + 4 * k) 4))
    sound := a % 64 == 0 && decide (u 0 8 < 2 ^ 57) && decide (u 0x1F 1 < 2) && u 0x3C 4 == 0 && u 0x48 56 == 0 &&
      field (u 0x40 8) 32 32 == 0 && field (u 0x40 8) 4 12 == 0 }

/-- Number of threads of a workgroup, of its warps, of workgroups of the grid. -/
def Launch.nthr (l : Launch) : Nat := l.ntid.foldl (· * ·) 1
/-- Warps of a workgroup. -/
def Launch.nw (l : Launch) : Nat := (l.nthr + 31) / 32
/-- Workgroups of the grid. -/
def Launch.n (l : Launch) : Nat := l.ngid.foldl (· * ·) 1

/-! The fields of a kernel header (R71). -/

def Header.sagger (h : Header) : Nat := field h.w0 56 8
def Header.accF64 (h : Header) : Bool := h.w0.testBit 54
def Header.nacc (h : Header) : Nat := field h.w0 48 6
def Header.scrRows (h : Header) : Nat := field h.w0 32 11
def Header.mroles (h : Header) : Nat := field h.w0 27 3
def Header.croles (h : Header) : Nat := field h.w0 24 3
def Header.nregs (h : Header) : Nat := field h.w0 16 8
def Header.ver (h : Header) : Nat := field h.w0 0 16
def Header.vecOff (h : Header) : Nat := field h.w1 0 32
def Header.prvBytes (h : Header) : Nat := field h.w2 0 32
def Header.mcMask (h : Header) : Nat := field h.w3 40 16
def Header.fmMask (h : Header) : Nat := field h.w3 32 8
def Header.preOff (h : Header) : Nat := field h.w3 0 32

/-- Has the virtual function no translation: `VFROOT.en` is 0 (R290)? -/
def State.noRoot (s : State) (v : BitVec 8) : Bool := !(s.rd (Reg.vfroot v.toNat)).getLsbD 0

/-- Eight bytes at a virtual address of virtual function `v`, as the Stoker and dispatch read a header and presets (log 40); of a
virtual function without a translation they are a free value (log 40). -/
def State.vaNat (s : State) (v : BitVec 8) (va : Nat) : State × Option Nat :=
  if s.noRoot v then ({ s with freeCtr := s.freeCtr + 1 }, some (Config.freeValue s.freeCtr).toNat)
  else match s.translate none v (va % 2 ^ 57) .load true with
  | (s, .ok a _ key _) => (s, some (s.memNat key.toNat a 8))
  | (s, _) => (s, none)

/-- Several of them, in order; `none` where one cannot be read. -/
def State.vaNats (s : State) (v : BitVec 8) : List Nat → State × Option (List Nat)
  | [] => (s, some [])
  | a :: as =>
    match s.vaNat v a with
    | (s, none) => (s, none)
    | (s, some x) => match s.vaNats v as with
      | (s, none) => (s, none)
      | (s, some xs) => (s, some (x :: xs))

/-- A header with assigned values in every field and nothing in a reserved one, from twelve values. -/
def freeHeader (f : Nat → Nat) : Header :=
  ⟨f 0 % 129 * 2 ^ 56 + f 1 % 2 * 2 ^ 54 + f 2 % 33 * 2 ^ 48 + f 3 % 1025 * 2 ^ 32 + f 4 % 5 * 2 ^ 27 + f 5 % 5 * 2 ^ 24 +
    (1 + f 6 % 255) * 2 ^ 16 + 1,
   f 7 % 2 ^ 32 * 2 ^ 32 + f 8 % 2 ^ 28 * 16, f 9 % 2 ^ 32, f 10 % 2 ^ 24 * 2 ^ 32 + 8 * (1 + f 11 % (2 ^ 29 - 1)), true⟩

/-- The kernel header of a launch. Of a virtual function without a translation no header can be read, and dispatch still places
its workgroups (R290): the header is a free one (log 40). -/
def State.headerAt (s : State) (v : BitVec 8) (va : Nat) : State × Option Header :=
  if s.noRoot v then
    ({ s with freeCtr := s.freeCtr + 12 }, some (freeHeader (fun k => (Config.freeValue (s.freeCtr + k)).toNat)))
  else match s.vaNats v ((List.range 8).map (fun i => va + 8 * i)) with
  | (s, none) => (s, none)
  | (s, some xs) => (s, some ⟨xs.getD 0 0, xs.getD 1 0, xs.getD 2 0, xs.getD 3 0, (xs.drop 4).all (· == 0)⟩)

/-- The header's fields take assigned values and its reserved fields are zero (R71, R72, R74). -/
def Header.ok (h : Header) : Bool :=
  h.sound && h.ver == 1 && decide (1 ≤ h.nregs) && decide (h.sagger ≤ 128) && decide (h.nacc ≤ 32) &&
  decide (h.scrRows ≤ 1024) && decide (h.mroles ≤ 4) && decide (h.croles ≤ 4) && h.vecOff % 16 == 0 && h.preOff % 8 == 0 &&
  field h.w0 55 1 == 0 && field h.w0 43 5 == 0 && field h.w0 30 2 == 0 && field h.w2 32 32 == 0 && field h.w3 56 8 == 0 &&
  (h.preOff != 0 || (h.mcMask == 0 && h.fmMask == 0))

/-- A launch is well formed (R74). -/
def Launch.ok (l : Launch) (h : Header) : Bool :=
  l.sound && h.ok && l.hdrVa % 64 == 0 && (l.ngid ++ l.ntid).all (fun x => decide (1 ≤ x)) && decide (l.kg ≤ 4) &&
  decide (l.nargs ≤ 32) && decide (l.nthr ≤ 1024) && decide (h.croles + h.mroles ≤ l.nw) &&
  decide (l.n ≤ 2 ^ 32 - 1) && (l.kg == 0 || l.n % l.kg == 0)

/-- The virtual function a DCB lies under (R315), and the partition. -/
def State.vfOf (s : State) (d : Nat) : BitVec 8 := BitVec.ofNat 8 (((s.atLevel d 2).map s.ident).getD 0)
/-- The partition. -/
def State.partOf (s : State) (d : Nat) : Nat := ((s.atLevel d 1).map s.ident).getD 0

/-- The launch at `lrec` under DCB `d` with its header, when both are well formed. A header whose address cannot be translated makes
the launch ill-formed (DESIGN CHOICE, log 40: the spec does not say what it does). -/
def State.launch? (s : State) (lrec d : Nat) : State × Option (Launch × Header) :=
  let l := s.launchAt lrec
  match s.headerAt (s.vfOf d) l.hdrVa with
  | (s, some h) => (s, if l.ok h then some (l, h) else none)
  | (s, none) => (s, none)

/-- The check at the first bind for a node (R405): the launch again, with the header that the submission found where the virtual
function has no translation any more. -/
def State.recheck (s : State) (x : Node) : State × Option (Launch × Header) :=
  if s.noRoot (s.vfOf x.dcb) then
    let l := s.launchAt x.lrec
    (s, if l.ok x.hdr then some (l, x.hdr) else none)
  else s.launch? x.lrec x.dcb

/-- What workgroup `i` carries from its launch (R60, R75). -/
def launchInfo (l : Launch) (h : Header) (i : Nat) : LaunchInfo :=
  let x := l.ngid.getD 0 1
  let y := l.ngid.getD 1 1
  { hdrVa := BitVec.ofNat 57 l.hdrVa, nregs := h.nregs, vecOff := h.vecOff, sagger := h.sagger, nacc := h.nacc
    accF64 := h.accF64, scrRows := h.scrRows, prvBytes := h.prvBytes, croles := h.croles, mroles := h.mroles
    ngid := l.ngid, ntid := l.ntid, gid := [i % x, i / x % y, i / (x * y)], index := i, kg := l.kg
    kpos := if l.kg = 0 then 0 else i % l.kg, paired := l.lflags % 2 == 1, pword := l.pword, constBase := l.constBase
    constLen := l.constLen, prvBase := l.prvBase }

/-! ## The resources of a core (R24, R65 to R70) -/

/-- Granules of a warp's register block (R67). -/
def granules (nregs : Nat) : Nat := ([1, 2, 4, 8, 16, 32].find? (fun g => decide (nregs ≤ 4 * g))).getD 64

/-- Accumulator rows of a workgroup (R70). -/
def LaunchInfo.accRows (i : LaunchInfo) : Nat := if i.accF64 then 2 * i.nacc else i.nacc

/-- Warps of a workgroup. -/
def LaunchInfo.nw (i : LaunchInfo) : Nat := (i.nthr + 31) / 32

/-- A tenant window (R65): first slot or row, and number. -/
structure Window where
  grp : Nat × Nat
  reg : Nat × Nat
  scr : Nat × Nat
  acc : Nat × Nat

/-- The window a `TWIN` value gives. -/
def windowOfTwin (v : DWord) : Window :=
  let f := fun (lo len : Nat) => field v.toNat lo len
  ⟨(f 0 5, f 5 6), (8 * f 11 7, 8 * f 18 8), (8 * f 26 7, 8 * f 33 8), (f 41 10, f 51 11)⟩

/-- The window of partition `p` on core `c`. -/
def State.window (s : State) (c p : Nat) : Window := windowOfTwin (s.rd (Reg.twin c p))

/-- Is the window value empty? -/
def Window.empty (w : Window) : Bool := w.grp.2 == 0 && w.reg.2 == 0 && w.scr.2 == 0 && w.acc.2 == 0

/-- The cores of a partition: those on which its windows are not empty (R65). -/
def State.partCores (s : State) (p : Nat) : List Nat := (List.range 128).filter (fun c => !(s.window c p).empty)

/-- What is reserved on a core: group slots, runs of scratchpad and accumulator rows, register blocks by lane. -/
structure Occ where
  grp : List Nat
  scr : List (Nat × Nat)
  acc : List (Nat × Nat)
  /-- Lane, slot (8: no warp), first row, rows. -/
  warps : List (Nat × Nat × Nat × Nat)

/-- Join. -/
def Occ.join (a b : Occ) : Occ := ⟨a.grp ++ b.grp, a.scr ++ b.scr, a.acc ++ b.acc, a.warps ++ b.warps⟩

/-- What a workgroup reserves. -/
def Wg.occ (g : Wg) : Occ :=
  ⟨[g.slot], [(g.scrBase, g.info.scrRows)], [(g.accBase, g.info.accRows)],
   g.warps.map (fun w => (w.lane, w.slot, w.blk, 8 * granules g.info.nregs))⟩

/-- What a compaction keeps for its bind (R325). -/
def Kept.occ (h : Kept) : Occ := ⟨[], [h.scr], [h.acc], h.blks.map (fun b => (b.1, 8, b.2.1, b.2.2))⟩

/-- Workgroups that hold resources: resident, and those that freed theirs in this cycle (R78). -/
def State.present (s : State) : List Wg := (s.wgs.map Prod.snd) ++ (s.leaving.filter (fun e => e.1 == s.clock)).map Prod.snd

/-- Those on core `c`. -/
def State.onCore (s : State) (c : Nat) : List Wg := s.present.filter (fun g => g.core == c)

/-- What compactions keep on core `c` for binds other than `key` (R325). -/
def State.keptOn (s : State) (c key : Nat) : List Kept :=
  ((s.binds.filter (fun e => e.1 != key)).flatMap (fun e => e.2.hold.toList.flatMap Hold.kept)).filter (fun h => h.core == c)

/-- What is reserved on core `c`, as the bind `key` sees it. -/
def State.occOf (s : State) (c key : Nat) : Occ :=
  ((s.keptOn c key).map Kept.occ ++ (s.onCore c).map Wg.occ).foldl Occ.join ⟨[], [], [], []⟩

/-- Do two ranges share an element? -/
def meets (a b : Nat × Nat) : Bool :=
  decide (0 < a.2) && decide (0 < b.2) && decide (a.1 < b.1 + b.2) && decide (b.1 < a.1 + a.2)

/-- The lowest free run of `n` rows in a window (R70). -/
def freeRun (used : List (Nat × Nat)) (w : Nat × Nat) (n : Nat) : Option Nat :=
  if n = 0 then some w.1
  else ((List.range (w.2 + 1 - n)).map (w.1 + ·)).find? (fun x => used.all (fun u => !meets (x, n) u))

/-- The qualifying block of `rows` rows in a lane's bank (R68): the lowest one, or with `blk_high` the highest. -/
def freeBlk (used : List (Nat × Nat)) (w : Nat × Nat) (rows : Nat) (high : Bool) : Option Nat :=
  let xs := ((List.range (1024 / rows)).map (rows * ·)).filter (fun x => decide (w.1 ≤ x ∧ x + rows ≤ w.1 + w.2))
  (if high then xs.reverse else xs).find? (fun x => used.all (fun u => !meets (x, rows) u))

/-- The lane, slot and block of the next warp (R69). -/
def chooseWarp (o : Occ) (w : Nat × Nat) (rows : Nat) (high pack : Bool) : Option (Nat × Nat × Nat) :=
  let lanes := (List.range 64).filterMap (fun l =>
    let mine := o.warps.filter (fun x => x.1 == l)
    let slots := (mine.map (fun x => x.2.1)).filter (fun x => decide (x < 8))
    match (List.range 8).find? (fun k => !slots.contains k), freeBlk (mine.map (fun x => x.2.2)) w rows high with
    | some k, some b => some (slots.length, l, k, b)
    | _, _ => none)
  let best := lanes.foldl (fun (m : Option (Nat × Nat × Nat × Nat)) x => match m with
    | none => some x
    | some y => if !pack && decide (x.1 < y.1) then some x else some y) none
  best.map Prod.snd

/-- The lanes, slots and blocks of `n` warps, in ascending warp order. -/
def chooseWarps : Nat → Occ → Nat × Nat → Nat → Bool → Bool → Option (List (Nat × Nat × Nat))
  | 0, _, _, _, _, _ => some []
  | n + 1, o, w, rows, high, pack =>
    match chooseWarp o w rows high pack with
    | none => none
    | some x => (chooseWarps n { o with warps := o.warps ++ [(x.1, x.2.1, x.2.2, rows)] } w rows high pack).map (x :: ·)

/-- A place on a core (R76). -/
structure Spot where
  core : Nat
  slot : Nat
  scr : Nat
  acc : Nat
  warps : List (Nat × Nat × Nat)

/-- `place_workgroup` (R76) up to the reservation, for a workgroup of partition `p` on core `c`. -/
def State.spot (s : State) (key p : Nat) (i : LaunchInfo) (c : Nat) : Option Spot :=
  if s.rd (Reg.pword c) != i.pword then none
  else
    let w := s.window c p
    let o := s.occOf c key
    let dspx := s.rd (Reg.dspx (c / 32))
    let slot := ((List.range w.grp.2).map (w.grp.1 + ·)).find? (fun k => decide (k < 32) && !o.grp.contains k)
    match slot, freeRun o.scr w.scr i.scrRows, freeRun o.acc w.acc i.accRows,
        chooseWarps i.nw o w.reg (8 * granules i.nregs) (dspx.getLsbD 1) (dspx.getLsbD 0) with
    | some k, some x, some a, some ws => some ⟨c, k, x, a, ws⟩
    | _, _, _, _ => none

/-! ## Who may stand where -/

/-- Does a kiln group of fewer than four workgroups keep core `c` empty (R26), or has a compaction kept its kiln for another bind
(R452)? -/
def State.kilnBlocked (s : State) (c key : Nat) : Bool :=
  s.present.any (fun g => decide (g.info.kg ≠ 0 ∧ g.core / 4 = c / 4 ∧ g.info.kg ≤ c % 4)) ||
  s.binds.any (fun e => e.1 != key && e.2.kg != 0 && e.2.hold.any (fun h => h.core / 4 == c / 4))

/-- Is core `c` in service: not draining, scanning or retired, and reached by a route (R469, R470, R463)? The bit of any other
core counts as cleared in every `cmask` (log 41). -/
def State.inService (s : State) (c : Nat) : Bool := (s.rd (Reg.csst c)).extractLsb' 0 2 == 0 && !s.lost.contains c

/-- Would `nw` more warps on core `c` keep every share above the bind (R317)? -/
def Bind.shareOk (b : Bind) (s : State) (c nw : Nat) : Bool :=
  b.shares.all (fun e => decide
    ((((s.onCore c).filter (fun g => g.quotas.any (fun q => q.1 == e.1))).map (fun g => g.warps.length)).sum + nw ≤
      512 * e.2 / 256))

/-- A workgroup that a bind places next: its launch data, and its image when it is saved. -/
structure Next where
  info : LaunchInfo
  img : Option Img

/-- Sagger units that an image brings back (R47, R333). -/
def Img.units (x : Img) : Nat := (x.g.warps.map (fun w =>
  (match w.region with
    | some r => r.res
    | none => 0) + (w.implicit.map Implicit.units).sum)).sum

/-- Sagger units that the workgroups on core `c` that satisfy `f` reserve. -/
def State.unitsOn (s : State) (c : Nat) (f : Wg → Bool) : Nat :=
  (((s.onCore c).filter f).map (fun g => (g.warps.map Warp.units).sum)).sum

/-- May a saved workgroup of bind `b` come back on core `c`: no other member of its groups stands there (R278), and its
reservations fit the sagger and the sagger quotas of the bind (R47)? -/
def State.backOn (s : State) (b : Bind) (x : Img) (c : Nat) : Bool :=
  x.g.groups.all (fun e => (s.grp x.g.part e.1).members.all (fun m =>
    m.wg == x.id || !(s.wg? m.wg).any (fun g => g.core == c))) &&
  (x.units == 0 || (decide (s.unitsOn c (fun _ => true) + x.units ≤ 512) &&
    b.quotas.all (fun q => decide (s.unitsOn c (fun g => g.quotas.any (fun p => p.1 == q.1)) + x.units ≤ q.2.1))))

/-- The place of one workgroup of bind `key` on core `c`. -/
def State.placeOn (s : State) (key : Nat) (b : Bind) (p : Nat) (x : Next) (c : Nat) : Option Spot :=
  if s.kilnBlocked c key || !b.shareOk s c x.info.nw || (x.img.any (fun m => !s.backOn b m c)) || !s.inService c then none
  else s.spot key p x.info c

/-- The places of the workgroups `xs` (one, or a kiln group) from core `c` on, each member of a kiln group on the core at its
position: all of them or none (R26). The unused cores of a kiln must be empty. -/
def State.placeAll (s : State) (key : Nat) (b : Bind) (p : Nat) (xs : List Next) (c : Nat) : Option (List Spot) :=
  if b.kg = 0 then match xs with
    | [x] => (s.placeOn key b p x c).map (fun y => [y])
    | _ => none
  else if (List.range 4).any (fun k => decide (b.kg ≤ k) && !(s.onCore (c + k)).isEmpty) then none
  else xs.foldl (fun (r : Option (List Spot)) x => r.bind (fun l =>
    (s.placeOn key b p x (c + x.info.kpos)).map (fun y => l ++ [y]))) (some [])

/-- First cores of the places that a bind allows on die `d`: cores, or kilns all of whose cores it allows; the one that a
compaction has freed for it, where there is one (R325). -/
def Bind.sites (b : Bind) (d : Nat) : List Nat :=
  let all := if b.kg = 0 then ((List.range 32).filter b.cmask.getLsbD).map (32 * d + ·)
    else ((List.range 8).filter (fun k => (List.range 4).all (fun j => b.cmask.getLsbD (4 * k + j)))).map (fun k => 32 * d + 4 * k)
  match b.hold with
  | some h => all.filter (fun c => if b.kg = 0 then c == h.core else c / 4 == h.core / 4)
  | none => all

/-- The sites in the order in which they are tried: those after `x`, then the others (R322, R475). -/
def sitesAfter (l : List Nat) (x : Option Nat) : List Nat :=
  match x with
  | none => l
  | some c => l.filter (fun y => decide (c < y)) ++ l.filter (fun y => decide (y ≤ c))

/-- The places of the next workgroup, kiln group or pair of a bind: the leader's, and the trailer's (R322, R475). -/
def State.planFor (s : State) (d key : Nat) (b : Bind) (p : Nat) (xs : List Next) : Option (List Spot × List Spot) :=
  let sites := b.sites d
  match (sitesAfter sites b.last).findSome? (s.placeAll key b p xs) with
  | none => none
  | some lead =>
    if !b.paired then some (lead, [])
    else
      let c := (lead.head?.map Spot.core).getD 0
      match ((sitesAfter sites (some c)).filter (fun y => y / 4 != c / 4)).findSome? (s.placeAll key b p xs) with
      | none => none
      | some trail => some (lead, trail)

/-! ## Binds (R320 to R323) -/

/-- A bind of a die. -/
def State.bind? (s : State) (d slot : Nat) : Option Bind := Tabs.find? s.binds (256 * d + slot)

/-- Replace it. -/
def State.setBind (s : State) (d slot : Nat) (b : Bind) : State := { s with binds := Tabs.put s.binds (256 * d + slot) b }

/-- The lowest free slot of a die's table. -/
def State.freeSlot (s : State) (d : Nat) : Option Nat :=
  (List.range 256).find? (fun k => (s.bind? d k).isNone)

/-- Write a bind into the lowest free slot of die `d`, or let it wait for one. -/
def State.addBind (s : State) (d : Nat) (b : Bind) : State :=
  match s.freeSlot d with
  | some k => s.setBind d k b
  | none => { s with bindq := s.bindq ++ [(d, b)] }

/-- A bind whose workgroups are all done leaves its slot, which the first bind that waits for one takes. -/
def State.closeBind (s : State) (d slot : Nat) : State :=
  match s.bind? d slot with
  | none => s
  | some b =>
    if b.done < b.count then s
    else
      let s1 := { s with binds := Tabs.del s.binds (256 * d + slot) }
      match s1.bindq.find? (fun e => e.1 == d) with
      | none => s1
      | some e => { s1 with bindq := s1.bindq.erase e }.setBind d slot e.2

/-- `done` of a bind rises (R321). -/
def State.bindDone (s : State) (d slot n : Nat) : State :=
  match s.bind? d slot with
  | none => s
  | some b => (s.setBind d slot { b with done := b.done + n }).closeBind d slot

/-- Workgroups of node `k` that will not complete any more, or have completed. -/
def State.nodeDone (s : State) (k n : Nat) : State :=
  { s with nodes := Tabs.modify s.nodes k (fun x => { x with left := x.left - n }) }

/-- The next workgroups of a bind of new workgroups. -/
def nextNew (l : Launch) (h : Header) (b : Bind) : List Next :=
  (List.range (max 1 b.kg)).map (fun j => ⟨launchInfo l h (b.first + b.placed + j), none⟩)

/-- Do the images at two addresses belong to one saved kiln group (R26)? -/
def State.oneKiln (s : State) (a b : Nat) : Bool :=
  (Tabs.find? s.images a).any (fun x => (Tabs.find? s.images b).any (fun y => x.g.kiln.contains y.id))

/-- The images that a resume bind places next, by address: one, or those of the first saved kiln group, which may have lost members
that completed before it was saved (R26, R38). -/
def State.nextAddrs (s : State) (b : Bind) : List Nat :=
  match b.imgs with
  | [] => []
  | a :: r => a :: r.takeWhile (s.oneKiln a)

/-- The images of the next workgroup or kiln group of a resume bind. -/
def State.nextImgs (s : State) (b : Bind) : List Img := (s.nextAddrs b).filterMap (Tabs.find? s.images)

/-- Dispatch places no workgroup of a virtual function that is locked or in error (R356), and none before bring-up (R377). -/
def State.mayPlace (s : State) (d : Nat) : Bool := s.up && s.tdi (s.vfOf d) != 1 && s.tdi (s.vfOf d) != 3

/-- The plan for a resume bind. -/
def State.planResume (s : State) (d slot : Nat) (b : Bind) : Option (List Spot × List Spot) :=
  let xs := s.nextImgs b
  if !s.mayPlace b.dcb || xs.isEmpty then none
  else s.planFor d (256 * d + slot) b (s.partOf b.dcb) (xs.map (fun x => ⟨x.g.info, some x⟩))

/-- Would the unit of the image at `a` of bind `b`, in table slot `key` of die `d`, fit at core `site` (R50, R323)? A bind of another
die, or one that waits for a slot, is asked as if its mask named the core. -/
def State.savedAt (s : State) (key : Option Nat) (d : Nat) (b : Bind) (site a : Nat) : Bool :=
  let xs := (b.imgs.filter (fun y => y == a || s.oneKiln a y)).filterMap (Tabs.find? s.images)
  let c := if b.kg = 0 then site else site / 4 * 4
  !xs.isEmpty && (d != site / 32 || (b.sites d).contains c) &&
  (s.placeAll (key.getD 1024) b (s.partOf b.dcb) (xs.map (fun y => ⟨y.g.info, some y⟩)) c).isSome

/-- Does a valid resume bind of the job of `dcb` hold a workgroup or kiln group that fits at core `site` (R50, R323)? -/
def State.savedFits (s : State) (dcb site : Nat) : Bool :=
  let mine := fun (b : Bind) => b.valid && b.resume && !b.stop && s.jobOf b.dcb == s.jobOf dcb
  s.binds.any (fun e => mine e.2 && e.2.imgs.any (s.savedAt (some e.1) (e.1 / 256) e.2 site)) ||
  s.bindq.any (fun e => mine e.2 && e.2.imgs.any (s.savedAt none e.1 e.2 site))

/-- The plan for a bind of new workgroups, leaving out the sites that a saved workgroup of its job fits. The launch record is read
and the launch checked at every placement; where the record has gone bad since the first bind, the bind waits (DESIGN CHOICE,
log 40: the spec speaks of the submission and of the first bind alone). -/
def State.planNew (s : State) (d slot : Nat) (b : Bind) : Option (List Spot × List Spot × Launch × Header) :=
  let l := s.launchAt b.lrec
  if !s.mayPlace b.dcb || !l.ok b.hdr then none
  else
    let keep := (List.range 32).foldl (fun m c =>
      if s.savedFits b.dcb (32 * d + c) then m else m ||| BitVec.twoPow 32 c) 0
    let b1 : Bind := { b with cmask := b.cmask &&& keep }
    (s.planFor d (256 * d + slot) b1 (s.partOf b.dcb) (nextNew l b.hdr b)).map (fun p => (p.1, p.2, l, b.hdr))

/-- May dispatch serve the bind? -/
def Bind.open_ (b : Bind) : Bool := b.valid && !b.stop && decide (b.placed < b.count) && b.hold.all (fun h => h.wait.isEmpty)

/-- Is bind `x` served before bind `y` (R322, R325)? A bind for which a compaction has freed its ranges comes first. -/
def servedFirst (x y : Nat × Bind) : Bool :=
  let rank := fun (b : Bind) => if b.hold.isSome then 0 else if b.resume then 1 else 2
  let rx := rank x.2
  let ry := rank y.2
  decide (rx < ry) || (rx == ry && ((rx == 2 && decide (y.2.prio < x.2.prio)) ||
    ((rx != 2 || x.2.prio == y.2.prio) && decide (x.1 < y.1))))

/-- The plan of an open bind, with the launch of new workgroups. -/
def State.plan (s : State) (d slot : Nat) (b : Bind) : Option (List Spot × List Spot × Option (Launch × Header)) :=
  if !b.open_ then none
  else if b.resume then (s.planResume d slot b).map (fun p => (p.1, p.2, none))
  else (s.planNew d slot b).map (fun p => (p.1, p.2.1, some p.2.2))

/-- Does a bind that comes before `slot` on die `d` have a place now? -/
def State.earlierServed (s : State) (d slot : Nat) (b : Bind) : Bool :=
  s.binds.any (fun e => e.1 / 256 == d && e.1 % 256 != slot && servedFirst e (256 * d + slot, b) &&
    (s.plan d (e.1 % 256) e.2).isSome)

/-! ## Initialisation (R54, R60, R77) -/

/-- The segment registers of R60. A limit or base that does not fit its 57 bits is cut modulo 2^57 (DESIGN CHOICE, log 115: the spec
does not say what the fields take then). -/
def launchSegs (i : LaunchInfo) : List (BitVec 128) :=
  let sz := 4096 * i.scrRows
  let p := i.prvStride
  let sg := fun (limit kind perm base : Nat) => BitVec.ofNat 128 (limit % 2 ^ 57 * 2 ^ 64 + kind * 2 ^ 61 + perm * 2 ^ 57 + base % 2 ^ 57)
  [sg (2 ^ 57 - 1) 0 7 0, sg (sz - 1) 1 (if sz = 0 then 0 else 7) 0, sg (2 ^ 24 - 1) 2 (if i.kg = 0 then 0 else 7) 0,
   sg (i.constLen.toNat - 1) 3 (if i.constLen = 0 then 0 else 1) i.constBase.toNat,
   sg (p - 1) 4 (if p = 0 then 0 else 3) i.prvBase.toNat, 0, 0, 0]

/-- The role of warp `w` (R39). -/
def LaunchInfo.role (i : LaunchInfo) (w : Nat) : Role :=
  if w < i.croles then .copy else if w < i.croles + i.mroles then .matrix else .vector

/-- Warp `w` of a new workgroup at lane, slot and block `x`; `lead` is where its leader's warp stands. -/
def launchWarp (i : LaunchInfo) (args : List Word) (core : Nat) (w : Nat) (x lead : Nat × Nat × Nat) : Warp :=
  let n := i.nthr - 32 * w
  let pc := i.hdrVa + 64
  { thr := (List.range 32).map (fun t => if t < n then { Thread.vacant with pc := pc, st := .eligible } else Thread.vacant)
    s := (args.zipIdx.filter (fun a => a.1 != 0)).map (fun a => (a.2, ⟨a.1, false⟩)), sg := launchSegs i
    lane := x.1, slot := x.2.1, blk := x.2.2
    first := ⟨lead.1, lead.1 * 8 + lead.2.1, w, i.kpos, core / 4, core, core / 32⟩
    role := i.role w, chain := 0, rseq := 0, region := none, implicit := [], rels := [], items := [], accs := []
    nextTag := 1, nextId := 1, po := 0, rgnWait := none, trapWait := none, trapQ := [], svcWait := none, replay := none
    discard := 0, implicitCount := 0, collCount := 0, colls := [], grp := none, kept := [], since := none }

/-- What presets a kernel has (R72): `fm` and `mc` values by number. -/
structure Presets where
  fm : Tab Word
  mc : Tab DWord

/-- Dispatch reads the preset entries that the masks select. -/
def State.presets (s : State) (v : BitVec 8) (l : Launch) (h : Header) : State × Option Presets :=
  let a := l.hdrVa + h.preOff
  let fms := (List.range 8).filter h.fmMask.testBit
  let mcs := (List.range 16).filter h.mcMask.testBit
  match s.vaNats v (fms.map (fun k => a + k / 2 * 8)) with
  | (s, none) => (s, none)
  | (s, some xs) => match s.vaNats v (mcs.map (fun k => a + 32 + 8 * k)) with
    | (s, none) => (s, none)
    | (s, some ys) =>
      (s, some ⟨(fms.zip xs).map (fun e => (e.1, BitVec.ofNat 32 (e.2 / 2 ^ (32 * (e.1 % 2))))),
        (mcs.zip ys).map (fun e => (e.1, BitVec.ofNat 64 e.2))⟩)

/-- A new workgroup of bind `b` at a place; `lead` is the leader's place, whose values the trailer reads (R475). -/
def launchWg (s : State) (d slot : Nat) (b : Bind) (l : Launch) (h : Header) (pre : Presets) (i : LaunchInfo) (x lead : Spot) : Wg :=
  { core := x.core, slot := x.slot, scrBase := x.scr, accBase := x.acc, vf := s.vfOf b.dcb, part := s.partOf b.dcb
    priv := b.priv, info := i, die := d, bind := slot, dcb := b.dcb, node := b.node, quotas := b.quotas, prio := b.prio
    warps := (x.warps.zip lead.warps).zipIdx.map (fun e => launchWarp i (l.args.take l.nargs) lead.core e.2 e.1.1 e.1.2)
    scr := ⟨4096 * h.scrRows, [], [], [], []⟩, acc := [], accBad := []
    mc := (List.range 16).map (fun k => (Tabs.get pre.mc 0 k, false))
    fm := (List.range 8).map (fun k => ⟨Tabs.get pre.fm 0 k, false⟩), fmOld := none, ss := 0
    active := Plane.clear, shadow := Plane.clear, chainMode := 0, chainCount := 0, chainFailed := [], mq := [], nextM := 0
    planeSlot := false, planeBad := [], suspect := [], bars := [], kbar := [], groups := [], placed := s.clock, pair := none
    pairQ := [], stop := none, kiln := [], move := false, stamp := 0 }

/-- Put the workgroups `gs` into the machine under the numbers from `s.nextWg`, as a kiln group where `kg` is not 0. -/
def State.addGroup (s : State) (kg : Nat) (gs : List Wg) : State :=
  let ns := (List.range gs.length).map (s.nextWg + ·)
  { s with
    wgs := (ns.zip gs).foldl (fun t e => Tabs.put t e.1 { e.2 with kiln := if kg = 0 then [] else ns }) s.wgs
    nextWg := s.nextWg + gs.length }

/-- Make pairs of two lists of workgroups: leaders and trailers (R475). -/
def State.pairUp (s : State) (leads trails : List Nat) : State :=
  (leads.zip trails).foldl (fun s e =>
    (s.modWg e.1 (fun g => { g with pair := some (e.2, true) })).modWg e.2 (fun g => { g with pair := some (e.1, false) })) s

/-- The bind after it has placed `n` workgroups from core `c` on. -/
def Bind.afterPlace (b : Bind) (c n : Nat) : Bind :=
  { b with placed := b.placed + n, last := some c, frag := [], hold := none, imgs := b.imgs.drop (if b.resume then n else 0) }

/-- PLACE_WORKGROUP (R76, R77, R322): dispatch of die `die` places the next workgroup, kiln group or pair of bind `bind`, the
first of it on logical core `core`, where the spec's order makes it the next one. A preset whose address cannot be translated leaves
it unplaced (DESIGN CHOICE, log 40: the spec is silent). -/
def execPlaceWorkgroup (die bind core : Nat) (s : State) : Out :=
  .next (match s.bind? die bind with
    | none => s
    | some b =>
      if b.resume || s.earlierServed die bind b then s
      else match s.plan die bind b with
        | some (lead, trail, some (l, h)) =>
          if (lead.head?.map Spot.core).getD 128 ≠ core then s
          else match s.presets (s.vfOf b.dcb) l h with
            | (_, none) => s
            | (s2, some pre) =>
              let is := (nextNew l h b).map Next.info
              let mk := fun (xs : List Spot) => (is.zip (xs.zip lead)).map (fun e => launchWg s2 die bind b l h pre e.1 e.2.1 e.2.2)
              let n0 := s2.nextWg
              let s3 := s2.addGroup b.kg (mk lead)
              let n1 := s3.nextWg
              let s4 := if trail.isEmpty then s3 else
                (s3.addGroup b.kg (mk trail)).pairUp ((List.range lead.length).map (n0 + ·)) ((List.range trail.length).map (n1 + ·))
              s4.setBind die bind (b.afterPlace core lead.length)
        | _ => s)

/-! ## Nodes (R318 to R320) -/

/-- Is node `k` one whose subtree may be given binds: no DCB above it is stopped (R328)? -/
def State.nodeOpen (s : State) (x : Node) : Bool := (s.above x.dcb).all (fun d => decide (s.dcbState d < 2))

/-- The entries of a table of `n` entries at `t` that hold anything: those with a listed byte. -/
def State.tableEntries (s : State) (t n : Nat) : List Nat :=
  ((s.mem.bytes.filter (fun c => decide (t ≤ c.1 ∧ c.1 < t + 8 * n))).map (fun c => (c.1 - t) / 8)).eraseDups

/-- Bytes of device memory that the tables from `t` on map. -/
def State.mappedFrom (s : State) : List Level → Nat → Nat
  | [], _ => 0
  | l :: ls, t => ((s.tableEntries t (2 ^ l.bits)).map (fun i =>
    let e := s.memNat 0 (t + 8 * i) 8
    if !e.testBit 0 || entryBad l e then 0
    else if e.testBit 1 then (if windowOf (entryPa e) = 0 then l.page else 0)
    else s.mappedFrom ls (entryPa e))).sum

/-- Bytes of device memory that virtual function `v` maps. -/
def State.mapped (s : State) (v : Nat) : Nat :=
  let root := (s.rd (Reg.vfroot v)).toNat
  if root.testBit 0 then s.mappedFrom levels (field root 21 31 * 2 ^ 21) else 0

/-- The virtual functions whose memory the quota of a DCB bounds: those in its subtree, or the one it lies under. -/
def State.vfsUnder (s : State) (d : Nat) : List Nat :=
  if s.level d < 2 then ((s.dcbs.filter (fun x => s.level x == 2 && s.under x d)).map s.ident).eraseDups else [(s.vfOf d).toNat]

/-- Units of sagger space that the workgroups under a DCB reserve on core `c`. -/
def State.unitsUnder (s : State) (d c : Nat) : Nat :=
  ((s.wgs.filter (fun e => e.2.core == c && e.2.quotas.any (fun q => q.1 == d))).map (fun e => (e.2.warps.map Warp.units).sum)).sum

/-- Do the effective quotas of DCB `x` allow one more bind: is what lies under each DCB above it within that DCB's memory, sagger
and held-line quotas (R28, R320; log 90)? -/
def State.quotasAllow (s : State) (x : Nat) : Bool :=
  (s.above x).all (fun d =>
    decide (((s.vfsUnder d).map s.mapped).sum ≤ 2 ^ 21 * s.effMemq d) && decide (s.linesUnder d ≤ s.effHeldq d) &&
    (List.range 128).all (fun c => decide (s.unitsUnder d c ≤ s.effSagq d)))

/-- May a bind of the node be written on die `d` now? -/
def State.bindable (s : State) (d k : Nat) (x : Node) : Bool :=
  let dies := (x.sword.extractLsb' 0 4).toNat
  x.ready.isSome && s.nodeOpen x && s.up && (!x.begun || (decide (x.given < x.n) && (dies == 0 || dies.testBit d))) &&
  s.binds.all (fun e => !(e.1 / 256 == d && e.2.node == k && !e.2.resume && decide (e.2.placed < e.2.count))) &&
  (s.freeSlot d).isSome && s.quotasAllow x.dcb

/-- Does the Stoker consider node `x` before node `y` (R320)? -/
def State.nodeFirst (s : State) (x y : Node) : Bool :=
  let px := s.effPrio x.dcb
  let py := s.effPrio y.dcb
  decide (py < px) || (px == py && decide (x.ready.getD 0 < y.ready.getD 0))

/-- Effective values that a bind carries from the DCBs above it (R28). -/
def State.bindShares (s : State) (d : Nat) : List (Nat × Nat) := (s.above d).map (fun x => (x, s.effShare x))
/-- Its quotas. -/
def State.bindQuotas (s : State) (d : Nat) : List (Nat × Nat × Nat) := (s.above d).map (fun x => (x, s.effSagq x, s.effHeldq x))

/-- Does the DCB lie in the device DCB's own jobs, so that its binds are privileged (R321)? -/
def State.ownJob (s : State) (d : Nat) : Bool := (s.above d).all (fun x => s.level x != 1 && s.level x != 2)

/-- BIND_WRITE (R320): the shipped firmware writes a bind on die `die` for the lowest chunk of node `node` that is not given
out. At the first one it checks the launch again (R405). -/
def execBindWrite (die node : Nat) (s : State) : Out :=
  .next (match Tabs.find? s.nodes node with
    | none => s
    | some x =>
      if !s.bindable die node x || s.nodes.any (fun e => s.nodeFirst e.2 x && s.bindable die e.1 e.2) then s
      else match (if x.begun then (s, some x) else match s.recheck x with
          | (s, none) => (s, none)
          | (s, some (l, h)) => (s, some { x with hdr := h, n := l.n, kg := l.kg, sword := l.sword, begun := true, left := l.n })) with
        | (s1, none) => { s1 with nodes := Tabs.put s1.nodes node { x with begun := true, n := 0, left := 0 } }
        | (s1, some y) =>
          let dies := (y.sword.extractLsb' 0 4).toNat
          if dies ≠ 0 ∧ !dies.testBit die then { s1 with nodes := Tabs.put s1.nodes node y }
          else
            let n := min (64 * max 1 y.kg) (y.n - y.given)
            let cw := y.sword.extractLsb' 16 16
            let l := s1.launchAt x.lrec
            let b : Bind :=
              { lrec := x.lrec, hdr := y.hdr, dcb := x.dcb, first := y.given, count := n, cmask := BitVec.allOnes 32
                cwait := if cw = 0 then 1024 else cw, valid := true, resume := false, priv := s1.ownJob x.dcb
                paired := l.lflags % 2 == 1, stop := false, prio := s1.effPrio x.dcb, img := 0, placed := 0, done := 0, node
                kg := y.kg, imgs := [], last := none, shares := s1.bindShares x.dcb, quotas := s1.bindQuotas x.dcb
                frag := [], since := s1.clock, hold := none }
            (({ s1 with nodes := Tabs.put s1.nodes node { y with given := y.given + n } }.enforce x.dcb).addBind die b).setDcbState x.dcb 1)

/-- A node's counter is decremented; at zero it is ready (R319). -/
def State.readyNode (s : State) (k : Nat) : State :=
  match Tabs.find? s.nodes k with
  | none => s
  | some x =>
    if x.counter = 0 then s
    else if x.counter = 1 then
      { s with nodes := Tabs.put s.nodes k { x with counter := 0, ready := some s.nextReady }, nextReady := s.nextReady + 1 }
    else { s with nodes := Tabs.put s.nodes k { x with counter := x.counter - 1 } }

/-- NODE_COMPLETE (R319): every workgroup of every bind written for the node has completed. -/
def execNodeComplete (die node : Nat) (s : State) : Out :=
  let k := 65536 * die + node
  .next (match Tabs.find? s.nodes k with
    | none => s
    | some x =>
      if !x.begun || decide (x.given < x.n) || x.left != 0 then s
      else x.succ.foldl (fun s j => s.readyNode j)
        ({ s with nodes := Tabs.del s.nodes k }.setDcbState x.dcb 0))

end Sys2Proof.Machine
end

