-- ==== Sys2Proof/Machine/Channel.lean ====
section
/-! DEFINITION. The mailbox channels of the physical function (R349, R350, R352): the request buffer, the response, the order
of requests that touch one DCB subtree or one core. -/

namespace Sys2Proof.Machine

/-! ## Request and response -/

/-- Byte `i` of the request buffer of channel `ch`. -/
def State.reqByte (s : State) (ch i : Nat) : Nat := field (s.rd (Reg.mbox ch + 0x100 + i / 8 * 8)).toNat (8 * (i % 8)) 8

/-- `n` bytes of the payload from `off`, which starts at byte 8 (R349; log 43). -/
def State.req (s : State) (ch off n : Nat) : Nat :=
  leNat ((List.range n).map (fun i => BitVec.ofNat 8 (s.reqByte ch (8 + off + i))))

/-- The payload bytes themselves. -/
def State.reqBytes (s : State) (ch off n : Nat) : List Byte := (List.range n).map (fun i => BitVec.ofNat 8 (s.reqByte ch (8 + off + i)))

/-- `code` and `len` of a request. -/
def State.reqCode (s : State) (ch : Nat) : Nat := s.reqByte ch 0 + 256 * s.reqByte ch 1
/-- `len`. -/
def State.reqLen (s : State) (ch : Nat) : Nat := s.reqByte ch 2 + 256 * s.reqByte ch 3
/-- Bytes 4 to 7 are reserved. -/
def State.reqSound (s : State) (ch : Nat) : Bool := (List.range 4).all (fun i => s.reqByte ch (4 + i) == 0)

/-- `go`: a request is in service. -/
def State.busyCh (s : State) (ch : Nat) : Bool := (s.rd (Reg.mbox ch)).getLsbD 0

/-- The response of channel `ch` (R350): the tag in bytes 0 and 1, the given bytes from byte 8 on, zeros elsewhere; `status`,
`done` and `go`, and the channel's vector. -/
def State.answer (s : State) (ch status : Nat) (bytes : List Byte) : State :=
  let tag := field (s.rd (Reg.mbox ch)).toNat 32 16
  let all := leBytes 2 tag ++ leBytes 6 0 ++ bytes
  let s1 := (List.range 32).foldl (fun (s : State) i =>
    s.wr (Reg.mbox ch + 0x200 + 8 * i) (BitVec.ofNat 64 (leNat ((all.drop (8 * i)).take 8)))) s
  let s2 := s1.wr (Reg.mbox ch) (BitVec.ofNat 64 (tag * 2 ^ 32 + status % 256 * 2 ^ 16 + 2))
  { s2 with chans := s2.chans.filter (· != ch) }.raise none ch

/-! ## The order of requests (R350, R374) -/

/-- What a request touches: a DCB, a core. -/
structure Touch where
  dcbs : List Nat
  core : Option Nat

/-- What the request of a channel touches. -/
def State.touch (s : State) (ch : Nat) : Touch :=
  match s.reqCode ch with
  | 1 => ⟨[s.req ch 0 8], none⟩
  | 2 => ⟨[s.req ch 0 8, s.req ch 8 8], none⟩
  | 3 => ⟨[s.req ch 0 8], none⟩
  | 4 => ⟨[s.req ch 0 8 % 2 ^ 52], none⟩
  | 5 => ⟨[s.req ch 0 8], none⟩
  | 6 => ⟨[s.req ch 0 8], none⟩
  | 7 => ⟨[], some (s.req ch 0 4)⟩
  | 10 => ⟨[s.req ch 8 8], none⟩
  | 11 => ⟨[s.req ch 8 8], none⟩
  | _ => ⟨[], none⟩

/-- Do two requests touch one DCB subtree or one core? -/
def State.clash (s : State) (x y : Touch) : Bool :=
  x.dcbs.any (fun a => y.dcbs.any (fun b => s.under a b || s.under b a)) || (x.core.isSome && x.core == y.core)

/-- Is the channel's glaze past its staging, so that other requests of the job go on (R374)? -/
def State.pastStaging (s : State) (ch : Nat) : Bool := s.glazes.any (fun g => g.ch == ch && g.write && decide (1 ≤ g.stage))

/-- Does the request of channel `c`, accepted earlier, hold that of `ch` back? -/
def State.holdsBack (s : State) (c ch : Nat) : Bool :=
  s.clash (s.touch c) (s.touch ch) &&
  !(s.pastStaging c && (s.reqCode ch != 10 || s.req c 8 8 != s.req ch 8 8))

/-- Has the request of channel `ch` been served already, but for its response? -/
def State.begun (s : State) (ch : Nat) : Bool := s.stops.any (fun q => q.ch == some ch) || s.glazes.any (fun g => g.ch == ch)

/-- May the request of channel `ch` with this code be served now? -/
def State.served (s : State) (ch code : Nat) : Bool :=
  s.up && s.busyCh ch && s.reqCode ch == code && !s.begun ch && s.chans.contains ch &&
  (s.chans.takeWhile (· != ch)).all (fun c => !s.holdsBack c ch)

/-- Serve a request: a wrong length or a reserved byte that is set is malformed (R352). -/
def State.serve (s : State) (ch code : Nat) (len : State → Nat → Bool) (f : State → State) : State :=
  if !s.served ch code then s
  else if !s.reqSound ch || decide (248 < s.reqLen ch) || !len s (s.reqLen ch) then s.answer ch 0x02 []
  else f s

end Sys2Proof.Machine
end

