-- ==== Sys2Proof/Machine/Discard.lean ====
section
/-! DEFINITION. What the end of a workgroup leaves (R38, R78, R392, R393), the discard of a workgroup and the forced reset of
a domain (R448 to R450, R474). -/

namespace Sys2Proof.Machine

/-! ## A workgroup leaves -/

/-- Free the craze records of the warps of `g` on core `k` (R393). -/
def Core.freeWg (k : Core) (g : Wg) : Core := k.free (fun r => g.warps.any (fun w => w.wslot == r.wslot))

/-- A core whose last resident workgroup has gone frees record 511 (R392). -/
def State.freeOverflow (s : State) (c : Nat) : State :=
  if s.wgs.any (fun e => e.2.core == c) then s
  else s.setCore c { s.core c with crz := Tabs.del (s.core c).crz 511 }

/-- The commands of workgroup `n` leave the queue of its core, and the receivers that are `n` leave every command. -/
def dropCmds (n : Nat) (q : List CpyCmd) : List CpyCmd :=
  (q.filter (fun k => k.wg != n)).map (fun k => { k with recv := k.recv.filter (fun r => r.1 != n) })

/-- Take the commands of `n` out of the shelf (R276). -/
def State.leaveShelf (s : State) (n : Nat) : State :=
  { s with shelf := s.shelf.filterMap (fun x =>
      { x with recv := x.recv.filter (fun r => !s.cmdOf r.1 r.2 n), awaited := x.awaited.filter (· != n) }.settle) }

/-- Workgroup `n` leaves its groups (R274, R278). -/
def State.leaveGroups (s : State) (n : Nat) (g : Wg) : State :=
  g.groups.foldl (fun s e =>
    let s := s.withdraw g.part e.1 n
    let x := s.grp g.part e.1
    s.setGrp g.part e.1 { x with members := x.members.filter (fun m => m.wg != n) }) s

/-- A compaction no longer waits for workgroup `n` (R325). -/
def Bind.released (b : Bind) (n : Nat) : Bind := { b with hold := b.hold.map (fun h => { h with wait := h.wait.filter (· != n) }) }

/-- Workgroup `n` leaves the machine: its commands, its records, its lines in the releasing state, its SCB entries; its
resources are free from the next cycle on (R78). -/
def State.depart (s : State) (n : Nat) (g : Wg) : State :=
  let s := s.leaveShelf n
  let s : State := { s with
    wgs := (Tabs.del s.wgs n).map (fun e => if e.2.pair.any (fun p => p.1 == n) && e.2.pair.any Prod.snd then (e.1, { e.2 with pair := none }) else e)
    cores := s.cores.map (fun e => (e.1, { e.2 with cpq := dropCmds n e.2.cpq }))
    releasing := s.releasing.filter (fun r => r.src.isSome || r.wg != n)
    scb := s.scb.filter (fun e => e.lead != n && e.trail != n)
    mismatches := s.mismatches.filter (· != n)
    binds := s.binds.map (fun e => (e.1, e.2.released n))
    leaving := s.leaving.filter (fun e => e.1 == s.clock) ++ [(s.clock, g)] }
  (s.setCore g.core ((s.core g.core).freeWg g)).freeOverflow g.core

/-- The other workgroups of its kiln group fail the chained operations that wait for it (R434). -/
def State.failWaiting (s : State) (g : Wg) : State :=
  let ks := (g.kiln.flatMap (fun n => match s.wg? n with
    | none => []
    | some h => h.mq.filterMap (fun e => if e.started then none else e.chained))).eraseDups
  ks.foldl (fun s k => s.failChain g k) s

/-! ## Discard (R449) -/

/-- Releases that the workgroup has sent complete, warp by warp and region by region. -/
def State.landSent (s : State) (g : Wg) : State :=
  g.warps.foldl (fun s w =>
    let its := w.items.filter (fun i => i.sent && i.stage == .held && w.mayRelease i.tag)
    ((its.map Item.tag).eraseDups).foldl (fun s t => s.applyItems (its.filter (fun i => i.tag == t))) s) s

/-- The collectives in which the workgroup takes part are abandoned (R442). -/
def State.abandonOf (s : State) (g : Wg) : State :=
  (s.colls.map CollInst.id).foldl (fun s k => match s.colls.find? (fun x => x.id == k && !x.abandoned) with
    | none => s
    | some x =>
      if x.part == g.part && x.job == s.jobOf g.dcb && x.locals.any (fun r => r.2 == g.info.index) then s.abandon x else s) s

/-- Granules that the regions of `n` marked pending-empty return to full (R208). -/
def State.unmark (s : State) (n : Nat) (g : Wg) : State :=
  g.kiln.foldl (fun s m => s.modWg m (fun h => { h with scr := { h.scr with gran := h.scr.gran.map (fun e =>
    match e.2 with
    | .pending k _ _ => if k = n then (e.1, .full) else e
    | _ => e) } })) s

/-- Discard the resident workgroup `n` (R449); `coll` says whether its collectives are abandoned. -/
def State.discard (s : State) (n : Nat) (coll : Bool) : State :=
  match s.wg? n with
  | none => s
  | some g =>
    let s := s.landSent g
    let s := if coll then s.abandonOf g else s
    let s := (s.leaveGroups n g).unmark n g
    match s.wg? n with
    | none => s
    | some h => s.depart n h

/-- Discard the saved workgroup whose image lies at `a`. -/
def State.discardImage (s : State) (a : Nat) : State :=
  match Tabs.find? s.images a with
  | none => s
  | some x =>
    let s := (s.abandonOf x.g).leaveGroups x.id x.g
    { s with images := Tabs.del s.images a }

/-! ## Ends that wait for workgroups -/

/-- Is a workgroup of the subtree of `d` resident? -/
def State.residents (s : State) (d : Nat) : List (Nat × Wg) := s.wgs.filter (fun e => s.under e.2.dcb d)

/-- Does a valid resume bind of the subtree still bring a saved workgroup back? A drain waits for it (R329). -/
def State.comingBack (s : State) (d : Nat) : Bool :=
  (s.binds.map Prod.snd ++ s.bindq.map Prod.snd).any (fun b => b.valid && b.resume && !b.stop && !b.imgs.isEmpty && s.under b.dcb d)

/-- Stops whose subtree holds no workgroup any more end (R329, R335, R450): outcome 0 saved, 1 drained. -/
def State.checkStops (s : State) : State :=
  s.stops.foldl (fun s q =>
    if !(s.residents q.dcb).isEmpty || (q.mode == 0 && s.comingBack q.dcb) then s
    else
      let s : State := { s with stops := s.stops.filter (fun x => x.id != q.id) }
      let s := s.setDcbState q.dcb (if q.mode = 0 then 5 else 3)
      match q.ch with
      | some ch => s.answer ch 0x00 (leBytes 8 (if q.mode = 0 then 1 else 0))
      | none => s) s

/-- Interfaces whose stop waits for their workgroups return to unlocked (R356). -/
def State.checkTdi (s : State) : State :=
  s.tdiStops.foldl (fun s v =>
    if s.wgs.any (fun e => e.2.vf == v) then s
    else { s.setTdi v 0 with tdiStops := s.tdiStops.filter (· != v) }) s

/-- What may end when workgroups have left. -/
def State.afterLeave (s : State) : State := s.checkStops.checkTdi

/-! ## Forced reset (R448 to R450) -/

/-- The reset domain of a DCB (R448). -/
def State.resetDomain (s : State) (d : Nat) : Nat :=
  match (s.above d).find? (fun x => s.level x != 0 && (s.dcb x 0x1D 1).testBit 2 && s.ovr x 6) with
  | some x => x
  | none => (s.atLevel d 1).getD d

/-- Record a forced reset (R450): the domain, the mode first requested, the number of workgroups. -/
def State.logReset (s : State) (top from_ n : Nat) : State :=
  let log := s.rd Reg.frlog
  let s1 := if log.getLsbD 0 then s.wr Reg.frlog (log ||| 2)
    else s.wr Reg.frlog ((log &&& 2) ||| BitVec.ofNat 64 (min n 255 * 2 ^ 56 + top % 2 ^ 52 / 128 * 128 + from_ % 4 * 4 + 1))
  s1.raise none 9

/-- A forced reset of the subtree of `top` (R449); `from_` is the mode first requested. A pair counts as one workgroup. -/
def State.forcedReset (s : State) (top from_ : Nat) : State :=
  let gone := s.residents top
  let imgs := s.images.filter (fun e => s.under e.2.g.dcb top)
  let vfs := (gone.map (fun e => e.2.vf) ++ imgs.map (fun e => e.2.g.vf)).eraseDups
  let count := (gone.filter (fun e => !e.2.pair.any (fun p => !p.2))).length + imgs.length
  let inside := s.dcbs.filter (fun d => s.under d top)
  let hit := s.stops.filter (fun q => s.under q.dcb top)
  let s1 := gone.foldl (fun s e => s.discard e.1 true) s
  let s2 := imgs.foldl (fun s e => s.discardImage e.1) s1
  let out := fun (d : Nat) => !s.under d top
  let s3 : State := { s2 with
    binds := s2.binds.filter (fun e => out e.2.dcb)
    bindq := s2.bindq.filter (fun e => out e.2.dcb)
    nodes := s2.nodes.filter (fun e => out e.2.dcb)
    stops := s2.stops.filter (fun q => out q.dcb)
    taints := s2.taints.filter (fun j => !inside.contains j) }
  let s4 := inside.foldl (fun s d => s.setDcbState d 0) s3
  let s5 := hit.foldl (fun s q => match q.ch with
    | some ch => s.answer ch 0x00 (leBytes 8 2)
    | none => s) (s4.logReset top from_ count)
  (vfs.foldl (fun s v => s.raise (some v) 2) s5).afterLeave

/-- A forced reset of every partition (R463, R466, R467). -/
def State.resetPartitions (s : State) : State :=
  (s.dcbs.filter (fun d => s.level d == 1)).foldl (fun s d => s.forcedReset d (s.effMode d)) s

/-- The forced resets of interfaces that have just moved to error (R460). -/
def State.flushErrs (s : State) : State :=
  let vs := s.errs
  vs.foldl (fun s v => match s.vfDcb v.toNat with
    | some d => s.forcedReset d (s.effMode d)
    | none => s) { s with errs := [] }

end Sys2Proof.Machine
end

