-- ==== Sys2Proof/Machine/Image.lean ====
section
/-! DEFINITION. Context images (R333, R335, R337, R338, R340): their size and place, what a save puts into one, what a
resumption takes from it. -/

namespace Sys2Proof.Machine

/-! ## Size (R337) -/

/-- Padded to 256 bytes. -/
def pad256 (n : Nat) : Nat := (n + 255) / 256 * 256

/-- Bytes of held data: 64 a sector, 16 a reduction, 152 a copy line. What a refused item left is not held (R333, R428). -/
def Warp.heldBytes (w : Warp) : Nat :=
  let its := w.items.filter (fun i => !i.sent && i.stage != .refused)
  let secs := (its.filter (fun i => i.kind == .store && !i.copy)).flatMap (fun i => i.cells.map (fun c => (i.tag, (i.va + c.off) / 32)))
  64 * secs.eraseDups.length + 16 * (its.filter (fun i => i.kind != .store)).length + 152 * (its.filter Item.copy).length

/-- Bytes of a plane: descriptor, elements in its format, scales. -/
def Plane.bytes (p : Plane) : Nat :=
  if !p.valid then 0
  else match p.format with
    | none => 16
    | some f => 16 + 32 * f.bytes p.k + (if f.narrow then 32 * (p.k / f.block) else 0)

/-- The sizes of the eight sections. -/
def Wg.sections (g : Wg) : List Nat :=
  let nw := g.warps.length
  let i := g.info
  [256, pad256 (1024 * nw), pad256 (528 * granules i.nregs * nw), pad256 (4288 * i.scrRows), pad256 (4224 * i.accRows),
   pad256 ((g.warps.map Warp.heldBytes).sum), 16384, pad256 (g.active.bytes + g.shadow.bytes)]

/-- Offsets of sections of the given sizes. -/
def offsets (l : List Nat) : List Nat := (List.range l.length).map (fun k => (l.take k).sum)

/-- The header's bytes. -/
def Wg.imageHeader (g : Wg) (mode : Nat) (pword : DWord) : List Byte :=
  let i := g.info
  let p : Placement := (g.warps.head?.map Warp.first).getD ⟨0, 0, 0, 0, 0, 0, 0⟩
  leBytes 4 0x53344358 ++ leBytes 2 1 ++ leBytes 1 mode ++ leBytes 1 i.kpos ++ leBytes 8 g.sections.sum ++
  leBytes 8 pword.toNat ++ leBytes 8 i.hdrVa.toNat ++ leBytes 4 i.index ++ leBytes 1 g.warps.length ++
  leBytes 1 (granules i.nregs) ++ leBytes 1 (i.nacc + (if i.accF64 then 128 else 0)) ++ leBytes 1 0 ++
  leBytes 2 i.scrRows ++ leBytes 22 0 ++ (offsets g.sections).flatMap (leBytes 4) ++
  leBytes 1 p.core ++ leBytes 1 p.kiln ++ leBytes 1 p.die ++ leBytes 157 0

/-- The key slot of a partition's images (R354). -/
def State.imageKey (s : State) (p : Nat) : Nat := (((List.range 255).map (· + 1)).find? (s.ownsKey p)).getD 0

/-- The save area of a job: its start and end. -/
def State.saveArea (s : State) (j : Nat) : Nat × Nat := (s.dcb j 0x40 8 % 2 ^ 52, s.dcb j 0x40 8 % 2 ^ 52 + s.dcb j 0x48 8)

/-- Rounded up to 4 KiB. -/
def page4k (a : Nat) : Nat := (a + 4095) / 4096 * 4096

/-- Do `n` bytes at `a` lie in addressable memory or in the host window: never in a staging region (R17, R296)? -/
def addressable (a n : Nat) : Bool := decide (a + n ≤ 0x5000000000) || (decide (hostBase ≤ a) && decide (a + n ≤ 2 * hostBase))

/-- The lowest 4 KiB-aligned free place of `n` bytes in the save area of job `j` (log 10). -/
def State.imagePlace (s : State) (j n : Nat) : Option Nat :=
  let (lo, hi) := s.saveArea j
  let used := s.images.map (fun e => (e.1, e.2.size))
  let at_ := (page4k lo :: used.map (fun e => page4k (e.1 + e.2))).filter (fun a =>
    decide (lo ≤ a) && decide (a + n ≤ hi) && addressable a n && used.all (fun e => !meets (a, n) e))
  at_.foldl (fun m a => match m with
    | none => some a
    | some b => some (min a b)) none

/-- Bytes that images of the given sizes take back to back, each aligned to 4 KiB (R321). -/
def backToBack (l : List Nat) : Nat := (l.dropLast.map page4k).sum + l.getLast?.getD 0

/-- Put an image with its bytes at `a`. -/
def State.putImage (s : State) (a : Nat) (x : Img × List Byte) : State :=
  { s.memBytes (s.imageKey x.1.g.part) a x.2 with images := Tabs.put s.images a x.1 }

/-- Put images with their bytes back to back into the save area of job `j` (R321, R335): their addresses; `none` where they find no
room. -/
def State.putImages (s : State) (j : Nat) (xs : List (Img × List Byte)) : Option (State × List Nat) :=
  (s.imagePlace j (backToBack (xs.map (fun e => e.1.size)))).map (fun a =>
    let as := (offsets (xs.map (fun e => page4k e.1.size))).map (a + ·)
    ((as.zip xs).foldl (fun s e => s.putImage e.1 e.2) s, as))

/-! ## The bytes of an image (R337) -/

/-- Padded with zeros to a multiple of 256 bytes. -/
def padded (bs : List Byte) : List Byte := bs ++ List.replicate (pad256 bs.length - bs.length) 0

/-- Fields of `w` bits, the first in the lowest bits. -/
def packBits (w : Nat) (l : List Nat) : Nat := l.foldr (fun x a => x + 2 ^ w * a) 0

/-- The data bytes of words. -/
def wordBytes (ws : List TWord) : List Byte := ws.flatMap (fun x => leBytes 4 x.val.toNat)

/-- Their tags, one bit a word. -/
def wordTags (ws : List TWord) : List Byte := leBytes (ws.length / 8) (packBits 1 (ws.map (fun x => if x.tag then 1 else 0)))

/-- The vector registers of a warp of `n` registers a thread: register k of thread t at 128 k + 4 t. -/
def Warp.vecWords (w : Warp) (n : Nat) : List TWord := (List.range n).flatMap (fun k => w.thr.map (fun x => x.vreg k))

/-- Code of a granule's state. -/
def Gran.code : Gran → Nat
  | .empty => 0
  | .full => 1
  | .pending .. => 2

/-- Words of row `r` of a table of words. -/
def rowOf (t : Tab TWord) (r : Nat) : List TWord := (List.range 1024).map (fun k => Tabs.get t ⟨0, false⟩ (1024 * r + k))

/-- A byte of an image where R337 names what a section holds and not where: the warps, held data, fixed state and planes, by the
section's number and the offset in it (log 10). -/
opaque contextByte : Img → Nat → Nat → Byte

/-- Such a section. -/
def Img.free (x : Img) (k : Nat) : List Byte := (List.range (x.g.sections.getD k 0)).map (contextByte x k)

/-- The bytes of an image. -/
def Img.bytes (x : Img) : List Byte :=
  let g := x.g
  g.imageHeader x.mode x.pword ++ x.free 1 ++
  padded (g.warps.flatMap (fun w => let ws := w.vecWords (4 * granules g.info.nregs); wordBytes ws ++ wordTags ws)) ++
  padded ((List.range g.info.scrRows).flatMap (fun r => wordBytes (rowOf g.scr.words r) ++
    leBytes 64 (packBits 2 ((List.range 256).map (fun k => (Tabs.get g.scr.gran .empty (256 * r + k)).code))) ++ wordTags (rowOf g.scr.words r))) ++
  padded ((List.range g.info.accRows).flatMap (fun r => wordBytes (rowOf g.acc r) ++ wordTags (rowOf g.acc r))) ++
  x.free 5 ++ x.free 6 ++ x.free 7

/-- A table of the words `f` gives for the numbers of a list. -/
def tabOf (f : Nat → TWord) (l : List Nat) : Tab TWord := (l.map (fun k => (k, f k))).filter (fun e => e.2 != ⟨0, false⟩)

/-- Word `k` of words at `o` whose tags lie at `t`; `f` reads bytes. -/
def wordFrom (f : Nat → Nat → Nat) (o t k : Nat) : TWord := ⟨BitVec.ofNat 32 (f (o + 4 * k) 4), (f (t + k / 8) 1).testBit (k % 8)⟩

/-- The image with what its bytes say, as `f` reads them: the header's fields, vector registers, scratchpad and accumulators. -/
def Img.reread (x : Img) (f : Nat → Nat → Nat) : Img :=
  let g := x.g
  let off := fun (k : Nat) => f (0x40 + 4 * k) 4
  let vn := 4 * granules g.info.nregs
  let row := fun (o size tags k : Nat) => wordFrom f (o + size * (k / 1024)) (o + size * (k / 1024) + tags) (k % 1024)
  let gran := fun (k : Nat) => f (off 3 + 4288 * (k / 256) + 4096 + k % 256 / 4) 1 / 4 ^ (k % 4) % 4
  { x with
    mode := f 6 1, size := f 8 8, pword := BitVec.ofNat 64 (f 0x10 8)
    g := { g with
      info := { g.info with hdrVa := BitVec.ofNat 57 (f 0x18 8), index := f 0x20 4, kpos := f 7 1, nacc := f 0x26 1 % 64
                            accF64 := (f 0x26 1).testBit 7, scrRows := f 0x28 2 }
      warps := g.warps.zipIdx.map (fun e =>
        let o := off 2 + 132 * vn * e.2
        { e.1 with
          thr := e.1.thr.zipIdx.map (fun y => { y.1 with v := tabOf (fun k => wordFrom f o (o + 128 * vn) (32 * k + y.2)) (List.range vn) })
          first := { e.1.first with core := f 0x60 1, kiln := f 0x61 1, die := f 0x62 1 } })
      scr := { g.scr with
        words := tabOf (row (off 3) 4288 4160) (List.range (1024 * f 0x28 2))
        gran := (List.range (256 * f 0x28 2)).filterMap (fun k => match gran k, Tabs.get g.scr.gran .full k with
          | 0, _ => none
          | 2, .pending n w t => some (k, .pending n w t)
          | _, _ => some (k, .full)) }
      acc := tabOf (row (off 4) 4224 4096) (List.range (1024 * (f 0x26 1 % 64 * (if (f 0x26 1).testBit 7 then 2 else 1)))) } }

/-- The image at `a`, read again from memory: what a resumption restores (R340). -/
def State.imageIn (s : State) (a : Nat) (x : Img) : Img := x.reread (fun o n => s.memNat (s.imageKey x.g.part) (a + o) n)

/-! ## What an image holds -/

/-- A thread as it is saved (R330): one that waits on a word, a granule, a phase, a ticket or a reservation stands at its
instruction. -/
def Thread.packed (x : Thread) : Thread :=
  match x.st with
  | .parkedWord _ => { x with st := .eligible }
  | .parkedEvent (.ldfe _) => { x with st := .eligible }
  | .parkedEvent (.tbwait ..) => { x with st := .eligible }
  | .parkedEvent (.collwait _) => { x with st := .eligible }
  | .parkedEvent .rgn => { x with st := .eligible }
  | _ => { x with l0 := none, l1 := none, bad := x.bad.filter (fun k => Nat.ble k 255) }

/-- Held data comes back untranslated (R333). -/
def Item.packed (i : Item) : Item := { i with stage := if i.stage = .refused then .refused else .walk, dpa := 0, gen := 0, key := 0, rmt := false }

/-- The thread that the image names for a held item: the lowest one whose bytes the sector holds (R337). -/
def Warp.nameOf (w : Warp) (i : Item) : Nat :=
  if i.kind != .store || i.copy then i.thread
  else (w.items.filter (fun x => x.kind == .store && !x.copy && x.tag == i.tag && x.va / 32 == i.va / 32 && x.stage != .refused)).foldl
    (fun m x => min m x.thread) i.thread

/-- A warp as it is saved. -/
def Warp.packed (w : Warp) : Warp :=
  { w with thr := w.thr.map Thread.packed, items := w.items.map (fun i : Item => { i.packed with named := w.nameOf i }), rgnWait := none, kept := [], since := none, grp := none, chain := 0
           accs := w.accs.map (fun a => if a.performed || a.stage == .engine then a else { a with stage := .walk, dpa := 0, gen := 0, key := 0, rmt := false }) }

/-- A queue entry as it is saved: an interrupted `msoak` starts again (R248); the time a chained instruction has waited is
kept (R434). -/
def MEntry.packed (now : Nat) (e : MEntry) : MEntry :=
  let e1 : MEntry := { e with waitFrom := e.waitFrom.map (fun c => now - c) }
  if isSoak e.ins && !e.stopped then { e1 with started := false, head := none, seen := [], out := none } else e1

/-- A workgroup as it is saved. -/
def Wg.packed (g : Wg) (now : Nat) : Wg :=
  { g with warps := g.warps.map Warp.packed, mq := g.mq.map (MEntry.packed now), planeSlot := false, suspect := [], fmOld := none
           scr := { g.scr with watch := [] }, pair := none, pairQ := [], stop := none, move := false }

/-- A copy command as it is recorded (R279): what is written and counted stays, the rest starts again. -/
def CpyCmd.packed (k : CpyCmd) : CpyCmd :=
  { k with stage := .queued, lrec := [], buf := [], lines := [], causes := [], anchor := none, waiting := false }

/-- Has the command written and counted every sector, and released what follows it, so that nothing of it is recorded (R385)? -/
def CpyCmd.landed? (k : CpyCmd) : Bool := k.stage == .running && !k.held && !k.mf && k.recv.all (fun r => decide (k.total ≤ r.2))

/-- The image of workgroup `n`. -/
def State.imageOf (s : State) (n : Nat) (g : Wg) (mode : Nat) : Img :=
  { id := n, job := s.jobOf g.dcb, g := g.packed s.clock, mode, size := g.sections.sum, pword := s.rd (Reg.pword g.core)
    holds := g.groups.map (fun e => (e.1, (s.grp g.part e.1).hold))
    cmds := ((s.core g.core).cpq.filter (fun k => k.wg == n && !k.landed?)).map CpyCmd.packed }

/-! ## Coming back (R338, R340) -/

/-- The numbers of a workgroup's kiln group in what it holds, through `f`. -/
def Wg.renumber (f : Nat → Nat) (g : Wg) : Wg :=
  { g with
    kiln := g.kiln.map f
    scr := { g.scr with gran := g.scr.gran.map (fun e => match e.2 with
      | .pending k w t => (e.1, .pending (f k) w t)
      | _ => e) }
    warps := g.warps.map (fun w =>
      let loc := fun (e : Nat × ScrLoc) => (e.1, ({ e.2 with wg := f e.2.wg } : ScrLoc))
      { w with region := w.region.map (fun (r : Region) => { r with pending := r.pending.map loc })
               rels := w.rels.map (fun (r : Release) => { r with pending := r.pending.map loc }) }) }

/-- A warp at its new place; one that waited for a generation bump goes on when it is over (R417). -/
def Warp.unpacked (w : Warp) (x : Nat × Nat × Nat) : Warp := { w with lane := x.1, slot := x.2.1, blk := x.2.2 }

/-- The saved workgroup at a place, under bind `slot` of die `d`. -/
def Img.wgAt (x : Img) (now d slot : Nat) (b : Bind) (p : Spot) : Wg :=
  { x.g with
    core := p.core, slot := p.slot, scrBase := p.scr, accBase := p.acc, die := d, bind := slot, quotas := b.quotas
    prio := b.prio, placed := now
    warps := (x.g.warps.zip p.warps).map (fun e => e.1.unpacked e.2)
    mq := x.g.mq.map (fun e => { e with waitFrom := e.waitFrom.map (fun c => now - c) }) }

/-- Enter the workgroup in its groups again (R278): where the group no longer holds it, with n := k, while there is room; else it
is no member any more. -/
def State.rejoin (s : State) (x : Img) (n : Nat) : State :=
  x.g.groups.foldl (fun s e =>
    let y := s.grp x.g.part e.1
    if y.members.any (fun m => m.wg == n) then
      s.setGrp x.g.part e.1 { y with members := y.members.map (fun m : GMem => if m.wg = n then { m with suspended := false } else m) }
    else if 32 ≤ y.members.length then s.modWg n (fun g => { g with groups := Tabs.del g.groups e.1 })
    else s.setGrp x.g.part e.1 ⟨if y.members.isEmpty then Tabs.get x.holds 0 e.1 else y.hold, y.members ++ [⟨n, e.2, false⟩]⟩) s

/-- Put the recorded copy commands back in order, under new numbers (R279). -/
def State.requeue (s : State) (x : Img) (n : Nat) (f : Nat → Nat) (g : Wg) : State :=
  x.cmds.foldl (fun s k =>
    let c := s.core g.core
    let k1 : CpyCmd := { k with id := c.nextCmd, wg := n, wslot := ((g.warps[k.warp]?).map Warp.wslot).getD 0
                                recv := k.recv.map (fun r => (f r.1, r.2)) }
    s.setCore g.core { c with cpq := c.cpq ++ [k1], nextCmd := c.nextCmd + 1 }) s

/-- A record that the host has finished while the workgroup was saved (R338). -/
def State.pollService (s : State) (n w : Nat) : State :=
  match s.warp? ⟨n, w⟩ with
  | none => s
  | some (g, x) =>
    let s := match x.trapWait with
      | some v => match v.seq with
        | some q =>
          let a := s.recordAt g.vf q
          let dn := s.memNat 0 (a + 0x2C0) 4
          if dn = 1 then s.atWarp ⟨n, w⟩ (fun c => c.onL (fun l => l.finishService false dn
            ((List.range 64).map (fun i => BitVec.ofNat 32 (s.memNat 0 (a + 0x1C0 + 4 * i) 4))))) else s
        | none => s
      | none => s
    match x.svcWait with
    | some v => match v.seq with
      | some q =>
        let dn := s.memNat 0 (s.recordAt g.vf q + 0x2C0) 4
        if dn = 0 then s else s.atWarp ⟨n, w⟩ (fun c => c.onL (fun l => l.finishService true dn []))
      | none => s
    | none => s

/-- A bump that ended while the workgroup was saved (R417). -/
def State.pollGen (s : State) (n w : Nat) : State :=
  s.atWarp ⟨n, w⟩ (fun c => match c.l.w.replay with
    | some r => if r.gen && !c.s.genBusy c.l.wg.vf then
        c.onL (fun l => { l with w := { l.w with replay := some { r with gen := false } } }.endService) else c
    | none => c)

/-- What a warp meets when its workgroup is back: service records, the bump, convergence. -/
def State.wakeWarp (s : State) (n w : Nat) : State :=
  ((s.pollService n w).pollGen n w).atWarp ⟨n, w⟩ (fun c => c.onL (fun l => { l with w := l.w.converge }))

/-- The images `xs` come back as workgroups at the places `ps`, with numbers `f` (R340). -/
def State.comeBack (s : State) (d slot : Nat) (b : Bind) (xs : List Img) (ps : List Spot) (f : Nat → Nat) (pairOf : Nat → Option (Nat × Bool)) : State :=
  let s1 := (xs.zip ps).foldl (fun s e =>
    let g := { (e.1.wgAt s.clock d slot b e.2).renumber f with pair := pairOf e.1.id }
    ((s.setWg (f e.1.id) g).requeue e.1 (f e.1.id) f g)) s
  let s2 := (xs.filter (fun x => !(pairOf x.id).any (fun p => !p.2))).foldl (fun s x => s.rejoin x (f x.id)) s1
  xs.foldl (fun s x => (List.range x.g.warps.length).foldl (fun s w => s.wakeWarp (f x.id) w) s) s2

end Sys2Proof.Machine
end

