-- ==== Sys2Proof/Machine/Pair.lean ====
section
/-! DEFINITION. Paired execution at the signature compare buffer (R477 to R482, R498): signatures, agreement, mismatch, and the
retirement of a leader. -/

namespace Sys2Proof.Machine

/-! ## Signatures (R478, R498) -/

/-- A signature that waits to be sent: of an implicit region or not, its number in the key, its tag. -/
structure Sig where
  imp : Bool
  num : Nat
  tag : Nat
  sig : DWord

/-- The oldest signature that the warp has not sent. -/
def Warp.unsent (w : Warp) : Option Sig :=
  let rs := (w.rels.filter (fun r => !r.agreed && !r.sigSent)).map (fun r => (⟨false, r.seq.toNat, r.tag, r.sig⟩ : Sig))
  let is := (w.implicit.filter (fun i => i.decided && !i.agreed && !i.sigSent)).map (fun i => (⟨true, i.num.toNat, i.tag, i.sig⟩ : Sig))
  (rs ++ is).foldl (fun (m : Option Sig) x => match m with
    | none => some x
    | some y => if x.tag < y.tag then some x else some y) none

/-- The first of a list that satisfies `p`, changed by `f`. -/
def changeFirst {α : Type} (p : α → Bool) (f : α → α) : List α → List α
  | [] => []
  | x :: xs => if p x then f x :: xs else x :: changeFirst p f xs

/-- The signature has reached the SCB; the threads of a leader's `commit` that it held back continue (R478). -/
def Lane.sigTaken (l : Lane) (g : Sig) : Lane :=
  if g.imp then { l with w := { l.w with implicit := l.w.implicit.map (fun i : Implicit => if i.tag = g.tag then { i with sigSent := true } else i) } }
  else
    let mine := fun (r : Release) => r.tag == g.tag && !r.agreed && !r.sigSent
    match l.w.rels.find? mine with
    | none => l
    | some r =>
      let l1 : Lane := { l with w := { l.w with rels := changeFirst mine (fun r => { r with sigSent := true, cont := if l.leader.isSome then r.cont else 0 }) l.w.rels } }
      if l.leader.isSome then l1 else l1.sendTo r.cont (r.pc + 8)

/-- An armed injection alters the signature (R498). -/
def State.inject (s : State) (die : Nat) (lead : Bool) (g : Sig) : State × DWord :=
  let p := s.rd (Reg.prx die)
  if p.getLsbD 17 && !g.imp && (p.getLsbD 16 != lead) && p.setWidth 16 == BitVec.ofNat 16 g.num then
    (s.wr (Reg.prx die) (p &&& ~~~0x20000), g.sig ^^^ 1)
  else (s, g.sig)

/-- SCB_SIGNATURE (R478): a warp of a pair sends its oldest signature; it waits while it needs a new entry and none is free. -/
def execScbSignature (w : WRef) (s : State) : Out :=
  .next (match s.warp? w with
    | none => s
    | some (g, x) => match g.pair, x.unsent with
      | some (mate, lead), some q => match s.wg? mate with
        | none => s
        | some h =>
          let ln := if lead then w.wg else mate
          let tn := if lead then mate else w.wg
          let die := (if lead then g.core else h.core) / 32
          let fits := fun (e : ScbEnt) => e.lead == ln && e.trail == tn && e.warp == w.warp && e.imp == q.imp && e.num == q.num &&
            (if lead then e.lsig.isNone else e.tsig.isNone)
          let put := fun (v : DWord) (e : ScbEnt) => if lead then { e with lsig := some v } else { e with tsig := some v }
          if s.scb.any fits then
            let (s1, v) := s.inject die lead q
            { s1 with scb := changeFirst fits (put v) s1.scb }.atWarp w (fun c => c.onL (fun l => l.sigTaken q))
          else if 256 ≤ (s.scb.filter (fun e => e.die == die)).length then s
          else
            let (s1, v) := s.inject die lead q
            { s1 with scb := s1.scb ++ [put v ⟨s1.nextScb, die, ln, tn, w.warp, q.imp, q.num, none, none⟩]
                      nextScb := s1.nextScb + 1 }.atWarp w (fun c => c.onL (fun l => l.sigTaken q))
      | _, _ => s)

/-! ## Agreement (R480) -/

/-- The oldest release or implicit region of the key is agreed. -/
def Warp.agree (w : Warp) (imp : Bool) (num : Nat) : Warp :=
  if imp then { w with implicit := changeFirst (fun (i : Implicit) => i.num.toNat == num && i.decided && !i.agreed) (fun i => { i with agreed := true }) w.implicit }
  else { w with rels := changeFirst (fun (r : Release) => r.seq.toNat == num && !r.agreed) (fun r => { r with agreed := true }) w.rels }

/-- Tags that have been agreed and not completed. -/
def Warp.agreedTags (w : Warp) : List Nat :=
  (w.rels.filter Release.agreed).map Release.tag ++ (w.implicit.filter (fun i => i.decided && i.agreed)).map Implicit.tag

/-- The copies agree: the leader's release may be sent, the trailer closes its region and continues (R480). -/
def State.scbAgree (s : State) (e : ScbEnt) : State :=
  let n := s.rd (Reg.prstat e.die)
  let s1 := s.wr (Reg.prstat e.die) (n &&& 0xFFFFFFFF00000000 ||| (n + 1) &&& 0xFFFFFFFF)
  let s2 : State := { s1 with scb := s1.scb.filter (fun x => x.id != e.id) }
  let s3 := s2.atWarp ⟨e.lead, e.warp⟩ (fun c => c.onL (fun l => { l with w := l.w.agree e.imp e.num }))
  s3.atWarp ⟨e.trail, e.warp⟩ (fun c =>
    let c := c.onL (fun l => { l with w := l.w.agree e.imp e.num })
    (c.l.w.agreedTags.foldl (fun c t => c.commitComplete t) c).onL (fun l => { l with w := l.w.converge }))

/-! ## The retirement of a leader (R481, R482) -/

/-- Do both signatures of an entry stand and agree? -/
def ScbEnt.agrees (e : ScbEnt) : Bool := e.lsig.isSome && e.lsig == e.tsig

/-- A trailer's decisions that are not agreed are taken back: its items are held again, its regions wait at their `commit`. -/
def Warp.takeBack (w : Warp) : Warp :=
  let open_ := w.rels.filter (fun r => !r.agreed)
  let tags := open_.map Release.tag ++ (w.implicit.filter (fun i => i.decided && !i.agreed)).map Implicit.tag
  { w with
    rels := w.rels.filter Release.agreed
    implicit := w.implicit.map (fun i : Implicit => if i.decided && !i.agreed then { i with decided := false, sigSent := false, sig := 0 } else i)
    items := w.items.map (fun i : Item => if tags.contains i.tag then { i with sent := false } else i)
    trapQ := []
    region := w.region.map (fun r => open_.foldl (fun (r : Region) x =>
      if x.tag = r.tag then { r with commit := x.undo, members := r.members ||| x.set, pending := r.pending ++ x.pending } else r) r) }

/-- A trailer that waits at the leader's `trap` or fault service takes over its record (R338). -/
def Warp.takeRecord (w lead : Warp) : Warp :=
  let f := fun (mine theirs : Option SvcWait) => match mine, theirs with
    | some x, some y => if x.seq.isNone && x.pc == y.pc then some { x with seq := y.seq } else some x
    | x, _ => x
  { w with trapWait := f w.trapWait lead.trapWait, svcWait := f w.svcWait lead.svcWait }

/-- One pair: its complete verdicts are given, the leader is discarded, the trailer stands at the last agreed point. -/
def State.retirePair (s : State) (lead trail : Nat) : State :=
  let mine := s.scb.filter (fun e => e.lead == lead && e.trail == trail && e.agrees)
  let s1 := mine.foldl (fun s e => s.scbAgree e) s
  match s1.wg? lead with
  | none => s1
  | some g =>
    let s2 := s1.modWg trail (fun h => { h with warps := (h.warps.zip g.warps).map (fun e => e.1.takeRecord e.2) })
    let s3 := s2.discard lead true
    { s3.modWg trail (fun h => { h with warps := h.warps.map Warp.takeBack }) with
      scb := s3.scb.filter (fun e => e.trail != trail) }

/-- The trailers of a paired workgroup's kiln group, or its own. -/
def State.trailers (s : State) (n : Nat) : List Nat :=
  match s.wg? n with
  | none => []
  | some g => match g.pair with
    | none => s.group n
    | some (m, true) => s.group m
    | some (_, false) => s.group n

/-- Retire the leaders of the unit of workgroup `n`; the workgroups that remain. -/
def State.retire (s : State) (n : Nat) : State × List Nat :=
  let ts := s.trailers n
  (ts.foldl (fun s t => match s.wg? t with
    | some g => match g.pair with
      | some (l, false) => s.retirePair l t
      | _ => s
    | none => s) s, ts)

/-! ## The Stoker's own stops (R325, R417, R469, R481) -/

/-- Stop the unit of workgroup `n` in region-restart mode for the Stoker's own purpose; its resume bind leaves out `avoid`. -/
def State.ownStop (s : State) (n : Nat) (avoid : List Nat) : State :=
  let (s1, ts) := s.retire n
  ts.foldl (fun s t => s.modWg t (fun g => { g with
    move := false
    stop := match g.stop with
      | some p => if p.mode = 0 then some ⟨1, 0, true, avoid⟩ else some { p with avoid := p.avoid ++ avoid }
      | none => some ⟨1, 0, true, avoid⟩ })) s1

/-! ## Mismatch (R481) -/

/-- The cores of a workgroup's unit, or of its kiln group the whole kilns. -/
def State.unitCores (s : State) (n : Nat) : List Nat :=
  match s.wg? n with
  | none => []
  | some g => if g.kiln.isEmpty then [g.core] else (List.range 4).map (g.core / 4 * 4 + ·)

/-- The Stoker acts on a mismatch of the pair: `fail` marks the region of the trailer that did not agree. -/
def State.mismatch (s : State) (lead trail : Nat) (mark : State → State) : State :=
  let die := ((s.wg? lead).map Wg.core).getD 0 / 32
  let n := s.rd (Reg.prstat die)
  let s1 := if n.extractLsb' 32 32 == BitVec.allOnes 32 then s else s.wr (Reg.prstat die) (n + 0x100000000)
  let cs := s1.unitCores lead ++ s1.unitCores trail
  let at_ := [lead, trail].filterMap (fun k => (s1.wg? k).map Wg.core)
  let s2 := at_.foldl (fun s c => s.sweepFirst c) s1
  -- the verdicts that stand are given first; then the leader is gone and the trailer is saved
  mark (s2.ownStop trail cs)

/-- The replay count of the region that did not agree rises; at 3 its next commit crazes every member (R481). -/
def Region.mismatched (r : Region) : Region := if r.replays < 3 then { r with replays := r.replays + 1 } else { r with crz14 := true }

/-- SCB_COMPARE (R479 to R481): the oldest complete entry of a warp is compared. -/
def execScbCompare (die entry : Nat) (s : State) : Out :=
  .next (match s.scb.find? (fun e => e.die == die && e.id == entry) with
    | none => s
    | some e =>
      if e.lsig.isNone || e.tsig.isNone || s.scb.any (fun x => x.lead == e.lead && x.trail == e.trail && x.warp == e.warp && decide (x.id < e.id)) then s
      else if e.agrees then s.scbAgree e
      else
        let s1 : State := { s with scb := s.scb.filter (fun x => x.id != e.id) }
        s1.mismatch e.lead e.trail (fun s =>
          if e.imp then s
          else s.modWg e.trail (fun g => { g with warps := g.warps.zipIdx.map (fun p =>
            if p.2 = e.warp then { p.1 with region := p.1.region.map (fun r => if r.seq.toNat = e.num then r.mismatched else r) } else p.1) })))

/-- Trailers whose queued atomic has met a mismatch (R476, R481). -/
def State.flushMismatches (s : State) : State :=
  let ns := s.mismatches
  ns.foldl (fun s t => match s.wg? t with
    | some g => match g.pair with
      | some (l, false) => if (s.wg? l).isSome then s.mismatch l t id else s
      | _ => s
    | none => s) { s with mismatches := [] }

end Sys2Proof.Machine
end

