-- ==== Sys2Proof/Machine/Stop.lean ====
section
/-! DEFINITION. Stops of workgroups (R328 to R335, R417, R445 to R447): the signal, the stop point, the waits with roll-back
and copy drain, the image, the deadline. -/

namespace Sys2Proof.Machine

/-! ## The signal (R328) -/

/-- The stop request that governs a DCB: the oldest one. -/
def State.stopFor (s : State) (d : Nat) : Option StopReq := s.stops.find? (fun q => s.under d q.dcb)

/-- Put the unit of workgroup `n` under a stop of the request's mode. A stop of the Stoker's own that runs already goes on
in its own mode. -/
def State.signal (s : State) (n mode : Nat) : State :=
  let (s1, ts) := if mode = 0 then (s, s.trailers n ++ (s.trailers n).filterMap (fun t => (s.wg? t).bind (fun g => g.pair.map Prod.fst)))
    else s.retire n
  ts.foldl (fun s t => s.modWg t (fun g => { g with stop := match g.stop with
    | some p => if p.mode = 0 ∧ mode ≠ 0 then some ⟨mode, 0, false, []⟩ else some { p with own := p.own && mode == 0 }
    | none => some ⟨mode, 0, false, []⟩ })) s1

/-- Is `n` the workgroup that a compaction saves next (R325)? -/
def State.nextVictim (s : State) (n : Nat) : Bool :=
  (s.binds.map Prod.snd ++ s.bindq.map Prod.snd).any (fun b => b.hold.any (fun h => h.wait.head? == some n))

/-- The Stoker's own reasons to stop workgroup `wg`: its region has met two retryable replays in a row (R417), or a compaction saves
it next (R325). -/
def State.ownReason (s : State) (wg : Nat) (g : Wg) : State :=
  if g.move then s.ownStop wg [g.core]
  else if s.nextVictim wg && g.stop.all (fun p => p.mode == 0) then s.ownStop wg []
  else s

/-- STOP_SIGNAL: the signal of a stop reaches the core of a workgroup; or the Stoker stops it for a reason of its own. A kiln group
and a pair are one unit. -/
def execStopSignal (wg : Nat) (s : State) : Out :=
  .next (match s.wg? wg with
    | none => s
    | some g =>
      match s.stopFor g.dcb with
      | some q =>
        if g.stop.isNone || g.stop.any (fun p => p.own || (p.mode == 0 && q.mode != 0)) then s.signal wg q.mode
        else s.ownReason wg g
      | none => s.ownReason wg g)

/-! ## The stop point (R330, R445) -/

/-- Has the workgroup reached its stop point? -/
def State.atPoint (s : State) (n : Nat) (g : Wg) : Bool :=
  g.warps.all (fun w => w.chain == 0 && w.grp.isNone) &&
  g.mq.all (fun e => !e.started || isSoak e.ins) &&
  ((g.stop.map StopState.mode).getD 0 != 2 ||
    (s.core g.core).cpq.all (fun k => k.wg != n || k.stage != .running || k.recv.all (fun r => k.recv.all (fun q => r.2 == q.2))))

/-- Shelf requests are cancelled and the workgroup is suspended in its groups (R278). -/
def State.suspend (s : State) (n : Nat) (g : Wg) : State :=
  let s1 := (s.leaveShelf n).setCore g.core { s.core g.core with cpq := (s.core g.core).cpq.map (fun k : CpyCmd =>
    if k.wg = n ∧ k.stage = .shelf then { k with stage := .queued, anchor := none } else k) }
  g.groups.foldl (fun s e =>
    let x := s.grp g.part e.1
    if x.members.any (fun m => m.wg == n) then
      s.setGrp g.part e.1 { x with members := x.members.map (fun m : GMem => if m.wg = n then { m with suspended := true } else m) }
    else s) s1

/-- Is every workgroup of the unit at the given stage of a stop that is no drain? -/
def State.unitAt (s : State) (ns : List Nat) (stage : Nat) : Bool :=
  ns.all (fun n => (s.wg? n).any (fun g => g.stop.any (fun p => p.mode != 0 && p.stage == stage)))

/-- Set the stage of a unit. -/
def State.setStage (s : State) (ns : List Nat) (stage : Nat) : State :=
  ns.foldl (fun s n => s.modWg n (fun g => { g with stop := g.stop.map (fun p => { p with stage }) })) s

/-- STOP_POINT: the last warp and engine of a unit has stopped (R330). -/
def execStopPoint (wg : Nat) (s : State) : Out :=
  .next (let ns := s.group wg
    if !s.unitAt ns 0 || !ns.all (fun n => (s.wg? n).any (s.atPoint n)) then s
    else ns.foldl (fun s n => match s.wg? n with
      | some g => if g.stop.any (fun p => p.mode == 2) then s.suspend n g else s
      | none => s) (s.setStage ns 1))

/-! ## The waits (R331) and the roll-back (R332) -/

/-- Does an implicit region go on with a copy command that is still in its queue? -/
def State.copyOwned (s : State) (n i : Nat) (g : Wg) (x : Implicit) : Bool :=
  x.owner.isSome && (s.core g.core).cpq.any (fun k => k.wg == n && k.warp == i && k.held && k.tag == x.tag)

/-- Are the waits of R331 over for warp `i`? A trailer whose leader is discarded keeps its returning atomics and its implicit
regions: they go into the image (R481). -/
def State.warpSettled (s : State) (n i : Nat) (g : Wg) (w : Warp) : Bool :=
  let orphan := g.pair.isSome
  w.rels.isEmpty &&
  w.accs.all (fun a => match a.kind with
    | .fence _ => true
    | _ => a.stage == .engine || orphan && a.kind.need == .atomic && !a.performed) &&
  w.implicit.all (fun x => orphan || s.copyOwned n i g x) &&
  (orphan || !(w.region.any (fun r => r.commit.isSome) && ((s.laneOf ⟨n, i⟩).any (fun l => w.region.any l.commitReady))))

/-- Is entry `e` one of the rolled-back region `r` of warp `i`? -/
def MEntry.within (e : MEntry) (i : Nat) (r : Region) : Bool := e.reg == some (i, r.tag)

/-- Roll back the open region of a warp for a save (R46, R332, R445): its members stand at the region-open address, but those
that wait for fault service stay parked; queue entries issued inside it are discarded. -/
def State.rollWarp (s : State) (n i : Nat) : State :=
  s.atWarp ⟨n, i⟩ (fun c => match c.l.w.region with
    | none => c
    | some r =>
      let keep := match c.l.w.replay with
        | some q => q.members
        | none => 0
      let c := c.rollBack r r.members
      let c := c.onL (fun l => l.sendTo (r.members &&& ~~~keep) r.openPc)
      let c := c.onL (fun l => { l with w := { l.w with
        rgnWait := none
        trapWait := l.w.trapWait.filter (fun v => v.members &&& r.members == 0) } })
      c.onWg (fun g => { g with mq := g.mq.filter (fun e => !(e.within i r && (!e.started || isSoak e.ins))) }))

/-- STOP_WAITS_DONE (R331, R332). -/
def execStopWaitsDone (wg : Nat) (s : State) : Out :=
  .next (let ns := s.group wg
    if !s.unitAt ns 1 || !ns.all (fun n => (s.wg? n).any (fun g => g.warps.zipIdx.all (fun p => s.warpSettled n p.2 g p.1))) then s
    else
      let s1 := ns.foldl (fun s n => match s.wg? n with
        | some g => if g.stop.any (fun p => p.mode == 1) then (List.range g.warps.length).foldl (fun s i => s.rollWarp n i) s else s
        | none => s) s
      s1.setStage ns 2)

/-! ## The image (R332, R335) -/

/-- Has the copy drain left the command at rest: it waits on a granule, or all its sectors are written and its follow-on finds
no room (R332)? -/
def State.atRest (s : State) (n : Nat) (g : Wg) (k : CpyCmd) : Bool :=
  k.waiting || (k.stage == .running && !k.held && k.mf && decide (16 ≤ g.queued.length) &&
    (s.laneOf ⟨n, k.warp⟩).any (fun l => k.recv.all (fun r => decide ((l.core.cpq.find? (fun x => x.id == k.id)).any (fun x => x.total ≤ r.2)))))

/-- May the image of the workgroup be written? -/
def State.mayWrite (s : State) (n : Nat) (g : Wg) : Bool :=
  g.stop.any (fun p => p.mode == 2) ||
  ((s.core g.core).cpq.all (fun k => k.wg != n || s.atRest n g k) && g.warps.all (fun w => w.implicit.isEmpty || g.pair.isSome))

/-- The bisque table takes a stamp (R472). -/
def State.report (s : State) (job core stamp : Nat) : State :=
  if stamp = 0 then s
  else
    let t := Tabs.get s.bisque [] job
    { s with bisque := Tabs.put s.bisque job (Tabs.put t core (max stamp (Tabs.get t 0 core))) }

/-- A resume bind for the images `as` of units that ran under bind `b`. -/
def State.resumeBind (s : State) (b : Bind) (as : List Nat) (g : Wg) (valid : Bool) (avoid : List Nat) : Bind :=
  { b with
    prio := s.effPrio b.dcb, shares := s.bindShares b.dcb, quotas := s.bindQuotas b.dcb
    count := as.length, cmask := (List.range 32).foldl (fun m c => if avoid.contains (32 * g.die + c) then m &&& ~~~BitVec.twoPow 32 c else m) (BitVec.allOnes 32)
    valid, resume := true, stop := false, img := as.headD 0, placed := 0, done := 0, imgs := as, last := none, frag := []
    since := s.clock, hold := none }

/-- Is `x` the resume bind that is being written for bind `b` (R335)? -/
def Bind.grows (b x : Bind) : Bool := x.resume && !x.valid && x.node == b.node && x.first == b.first && x.placed == 0

/-- The resume bind that is being written for bind `b` on die `d`, in a slot or waiting for one. -/
def State.growing (s : State) (d : Nat) (b : Bind) : Option Bind :=
  ((s.binds.filter (fun e => e.1 / 256 == d)).map Prod.snd ++ (s.bindq.filter (fun e => e.1 == d)).map Prod.snd).find? b.grows

/-- Name the images `as` in the resume bind that is being written for bind `b`, or write one (R335). -/
def State.nameImages (s : State) (b : Bind) (as : List Nat) (g : Wg) (valid : Bool) (avoid : List Nat) : State :=
  let grow := fun (x : Bind) => if b.grows x then { x with count := as.length, img := as.headD 0, imgs := as } else x
  if !valid && (s.growing g.die b).isSome then
    { s with binds := s.binds.map (fun e => if e.1 / 256 = g.die then (e.1, grow e.2) else e)
             bindq := s.bindq.map (fun e => if e.1 = g.die then (e.1, grow e.2) else e) }
  else (s.enforce b.dcb).addBind g.die (s.resumeBind b as g valid avoid)

/-- An image into a list in ascending workgroup index (R322). -/
def insertImg (x : Img) : List Img → List Img
  | [] => [x]
  | y :: r => if x.g.info.index < y.g.info.index then x :: y :: r else y :: insertImg x r

/-- Write the images of the unit `ns`, with those that its resume bind names already, back to back in ascending index (R321, R322);
`none` where the save area is too small. -/
def State.saveUnit (s : State) (ns : List Nat) (b : Bind) (g : Wg) (valid : Bool) (avoid : List Nat) : Option State :=
  let mode := (g.stop.map StopState.mode).getD 1
  let mine := ns.filterMap (fun n => (s.wg? n).map (fun h => s.imageOf n h mode))
  let old := if valid then [] else ((s.growing g.die b).map Bind.imgs).getD []
  let all := mine.foldl (fun l x => insertImg x l) (old.filterMap (Tabs.find? s.images))
  let s1 : State := { s with images := s.images.filter (fun e => !old.contains e.1) }
  (s1.putImages (s.jobOf g.dcb) (all.map (fun x => (x, x.bytes)))).map (fun r =>
    (mine.foldl (fun t x => t.report x.job x.g.core s.clock) r.1).nameImages b r.2 g valid avoid)

/-- SAVE_IMAGE_WRITTEN (R335, R393, R278): the images of a unit are in the save area; its workgroups leave their cores. A save
area that is too small ends in a forced reset (log 42). -/
def execSaveImageWritten (wg : Nat) (s : State) : Out :=
  .next (let ns := s.group wg
    if !s.unitAt ns 2 || !ns.all (fun n => (s.wg? n).any (s.mayWrite n)) then s
    else match s.wg? wg with
      | none => s
      | some g =>
        let p : StopState := g.stop.getD ⟨1, 2, false, []⟩
        let b : Bind := (s.bind? g.die g.bind).getD
          { lrec := 0, hdr := ⟨0, 0, 0, 0, false⟩, dcb := g.dcb, first := g.info.index, count := 0, cmask := 0, cwait := 1024, valid := false
            resume := true, priv := g.priv, paired := g.info.paired, stop := false, prio := g.prio, img := 0, placed := 0, done := 0
            node := g.node, kg := g.info.kg, imgs := [], last := none, shares := [], quotas := g.quotas, frag := [], since := 0, hold := none }
        let stopping := s.stops.any (fun q => q.mode != 0 && s.under g.dcb q.dcb)
        match s.saveUnit ns b g (p.own && !stopping) p.avoid with
        | none => s.forcedReset (s.resetDomain g.dcb) p.mode
        | some s2 =>
          let s3 := ns.foldl (fun s n => match s.wg? n with
            | some h => let s := s.suspend n h
                        s.depart n h
            | none => s) s2
          (s3.bindDone g.die g.bind ns.length).afterLeave)

/-! ## Deadlines (R446, R447) -/

/-- Has a workgroup of the subtree still to reach what the deadline is measured to (R446)? -/
def State.late (s : State) (q : StopReq) : Bool :=
  (s.residents q.dcb).any (fun e => q.mode == 0 || !e.2.stop.any (fun p => p.mode != 0 && decide (1 ≤ p.stage)))

/-- The workgroups that are not saved take region-restart mode (R447). -/
def State.escalate (s : State) (q : StopReq) : State :=
  let s1 : State := { s with stops := s.stops.map (fun x : StopReq => if x.id = q.id then { x with mode := 1, since := s.clock } else x) }
  let s2 : State := { s1 with wgs := s1.wgs.map (fun e =>
    if s1.under e.2.dcb q.dcb then (e.1, { e.2 with stop := match e.2.stop with
      | some p => if p.mode = 0 then none else some { p with mode := 1, stage := min 1 p.stage }
      | none => none }) else e) }
  s2.setDcbState q.dcb 2

/-- STOP_DEADLINE_EXPIRY (R446 to R448): one step along the ladder. -/
def execStopDeadlineExpiry (stop : Nat) (s : State) : Out :=
  .next (match s.stops.find? (fun q => q.id == stop) with
    | none => s
    | some q =>
      if s.clock < q.since + q.deadline || !s.late q then s
      else if (s.rd Reg.stpx).getLsbD 0 || q.mode == 1 then
        (if s.level q.dcb = 0 then s.resetPartitions else s.forcedReset (s.resetDomain q.dcb) q.from_)
      else s.escalate q)

end Sys2Proof.Machine
end

