-- ==== Sys2Proof/Machine/Resume.lean ====
section
/-! DEFINITION. Resumption (R50, R278, R323, R338, R340, R465, R482) and the end of a workgroup (R38, R329, R434, R472). -/

namespace Sys2Proof.Machine

/-! ## The check of an image (R465) -/

/-- Bytes of the image header at `a`, as the Stoker reads them for partition `p`. -/
def State.imageNat (s : State) (p a n : Nat) : Nat := s.memNat (s.imageKey p) a n

/-- Is the image at `a` refused for partition `p`? -/
def State.imageRefused (s : State) (p a : Nat) : Bool :=
  let u := fun (o n : Nat) => s.imageNat p (a + o) n
  (Tabs.find? s.images a).isNone || u 0 4 != 0x53344358 || u 4 2 != 1 || (u 6 1 != 1 && u 6 1 != 2) ||
  (List.range 8).any (fun k => decide (u 8 8 < u (0x40 + 4 * k) 4)) ||
  !(s.partCores p).any (fun c => s.rd (Reg.pword c) == BitVec.ofNat 64 (u 0x10 8))

/-- Discard the next images of a bind: they count as done, and the node does not wait for them (R465). -/
def State.refuseNext (s : State) (d slot : Nat) (b : Bind) : State :=
  let as := s.nextAddrs b
  let s1 := as.foldl (fun s a => s.discardImage a) s
  let b1 : Bind := { b with placed := b.placed + as.length, done := b.done + as.length, imgs := b.imgs.drop as.length }
  (((s1.setBind d slot b1).nodeDone b.node as.length).closeBind d slot).afterLeave

/-! ## Resumption -/

/-- The numbers that the leaders of a pair take: fresh ones, by the trailer's (R482). -/
def leaderNo (next : Nat) (xs : List Img) (n : Nat) : Nat :=
  match xs.findIdx? (fun x => x.id == n) with
  | some k => next + k
  | none => n

/-- What the next images of a bind restore. -/
def State.loaded (s : State) (b : Bind) : List Img :=
  (s.nextAddrs b).filterMap (fun a => (Tabs.find? s.images a).map (s.imageIn a))

/-- Place the saved unit at `lead` and, for a pair, `trail`. -/
def State.resumeAt (s : State) (d slot : Nat) (b : Bind) (xs : List Img) (lead trail : List Spot) : State :=
  let as := s.nextAddrs b
  let s1 : State := { s with images := s.images.filter (fun e => !as.contains e.1) }
  let core := (lead.head?.map Spot.core).getD 0
  let s2 := if trail.isEmpty then s1.comeBack d slot b xs lead id (fun _ => none)
    else
      let f := leaderNo s1.nextWg xs
      let s2 : State := { s1 with nextWg := s1.nextWg + xs.length }
      (s2.comeBack d slot b xs trail id (fun n => some (f n, false))).comeBack d slot b xs lead f (fun n => some (n, true))
  s2.setBind d slot (b.afterPlace core as.length)

/-- RESUME_WORKGROUP (R323, R340): dispatch of die `die` brings back the next workgroup, kiln group or pair of resume bind
`bind`, the first of it on logical core `core`; an image that R465 refuses is discarded. -/
def execResumeWorkgroup (die bind core : Nat) (s : State) : Out :=
  .next (match s.bind? die bind with
    | none => s
    | some b =>
      if !b.resume || !b.open_ || s.earlierServed die bind b then s
      else if (s.nextAddrs b).any (s.imageRefused (s.partOf b.dcb)) then s.refuseNext die bind b
      else match s.planResume die bind b with
        | none => s
        | some (lead, trail) =>
          if (lead.head?.map Spot.core).getD 128 ≠ core then s else s.resumeAt die bind b (s.loaded b) lead trail)

/-! ## Completion (R38) -/

/-- Has every warp exited, and is every commit that they issued complete? -/
def Wg.finished (g : Wg) : Bool :=
  g.warps.all (fun w => w.exited && w.region.isNone && w.rels.isEmpty && w.implicit.isEmpty && w.items.isEmpty)

/-- Does a drain hold its completion back: a copy command or a matrix instruction of it still has to run (R279)? -/
def State.drains (s : State) (n : Nat) (g : Wg) : Bool :=
  g.stop.any (fun p => p.mode == 0) && (!g.mq.isEmpty || (s.core g.core).cpq.any (fun k => k.wg == n))

/-- One copy leaves: its groups, its chained partners, its bisque stamp. -/
def State.finishOne (s : State) (n : Nat) : State :=
  match s.wg? n with
  | none => s
  | some g =>
    let s1 := ((s.leaveGroups n g).report (s.jobOf g.dcb) g.core g.stamp).depart n g
    s1.failWaiting g

/-- WORKGROUP_COMPLETE (R38, R78): the workgroup, with both copies of a pair, frees its resources; its bind and its node count
it. Copy commands that it left behind are dropped, but under a drain, which runs them first (R279, log 44). -/
def execWorkgroupComplete (wg : Nat) (s : State) : Out :=
  .next (match s.wg? wg with
    | none => s
    | some g =>
      let ns := wg :: (g.pair.toList.map Prod.fst)
      if !ns.all (fun n => (s.wg? n).all (fun g => g.finished && !s.drains n g)) || g.stop.any (fun p => p.mode != 0 && decide (1 ≤ p.stage)) then s
      else
        let s1 := ns.foldl (fun s n => s.finishOne n) s
        ((s1.nodeDone g.node 1).bindDone g.die g.bind 1).afterLeave)

end Sys2Proof.Machine
end

