-- ==== Sys2Proof/Machine/Compact.lean ====
section
/-! DEFINITION. Compaction (R49, R324, R325, R452): when a bind waits fragmented, the ranges that are freed for it, the
workgroups that are saved. -/

namespace Sys2Proof.Machine

/-! ## Waiting fragmented (R324) -/

/-- Rows of a window that nothing reserves. -/
def freeRows (used : List (Nat × Nat)) (w : Nat × Nat) : Nat :=
  ((List.range w.2).map (w.1 + ·)).countP (fun r => used.all (fun u => !meets (r, 1) u))

/-- The lanes that `n` warps would take if only the number of free rows counted. -/
def looseLanes : Nat → Occ → Nat × Nat → Nat → Bool → Option (List Nat)
  | 0, _, _, _, _ => some []
  | n + 1, o, w, rows, pack =>
    let lanes := (List.range 64).filterMap (fun l =>
      let mine := o.warps.filter (fun x => x.1 == l)
      let slots := (mine.map (fun x => x.2.1)).filter (fun x => decide (x < 8))
      -- a warp placed in this list reserves rows without a place: first row 1024 and up
      let loose := (mine.filter (fun x => decide (1024 ≤ x.2.2.1))).length
      match (List.range 8).find? (fun k => !slots.contains k) with
      | some k => if (loose + 1) * rows ≤ freeRows (mine.map (fun x => x.2.2)) w then some (slots.length, l, k) else none
      | none => none)
    let best := lanes.foldl (fun (m : Option (Nat × Nat × Nat)) x => match m with
      | none => some x
      | some y => if !pack && decide (x.1 < y.1) then some x else some y) none
    match best with
    | none => none
    | some (_, l, k) => (looseLanes n { o with warps := o.warps ++ [(l, k, 1024, rows)] } w rows pack).map (l :: ·)

/-- The lanes of the next workgroup of bind `key` on core `c`, when it waits fragmented there. -/
def State.fragmented (s : State) (key p : Nat) (i : LaunchInfo) (c : Nat) : Option (List Nat) :=
  let w := s.window c p
  let o := s.occOf c key
  if (s.spot key p i c).isSome || s.rd (Reg.pword c) != i.pword || !s.inService c || s.kilnBlocked c key ||
    !((List.range w.grp.2).any (fun k => decide (w.grp.1 + k < 32) && !o.grp.contains (w.grp.1 + k))) ||
    decide (freeRows o.scr w.scr < i.scrRows) || decide (freeRows o.acc w.acc < i.accRows) then none
  else looseLanes i.nw o w.reg (8 * granules i.nregs) ((s.rd (Reg.dspx (c / 32))).getLsbD 0)

/-- The next workgroup of a bind, or the members of its next kiln group. -/
def State.nextAll (s : State) (b : Bind) : List Next :=
  if b.resume then (s.nextImgs b).map (fun x => ⟨x.g.info, some x⟩)
  else
    let l := s.launchAt b.lrec
    if l.ok b.hdr then nextNew l b.hdr b else []

/-- The members `xs` of a kiln group that wait fragmented on their cores of the kiln of core `c`; `none` where one of them has no place
there for another reason, or where a core that the group leaves unused holds something (R26, R324). -/
def State.fragMembers (s : State) (key p : Nat) (b : Bind) (xs : List Next) (c : Nat) : Option (List (Next × Nat)) :=
  let k := c / 4 * 4
  if (List.range 4).any (fun j => decide (b.kg ≤ j) && !(s.onCore (k + j)).isEmpty) then none
  else
    let all := xs.map (fun x => (x, k + x.info.kpos))
    if all.all (fun e => (s.placeOn key b p e.1 e.2).isSome || (s.fragmented key p e.1.info e.2).isSome) then
      some (all.filter (fun e => (s.placeOn key b p e.1 e.2).isNone))
    else none

/-- The cores on which the next workgroup of a bind waits fragmented: of a kiln group, those of its members (log 96). A saved kiln
group waits under R452. -/
def State.fragCores (s : State) (key : Nat) (b : Bind) : List Nat :=
  let p := s.partOf b.dcb
  let xs := s.nextAll b
  if !b.open_ || !s.mayPlace b.dcb || (b.resume && b.kg != 0) then []
  else if b.kg = 0 then match xs with
    | [x] => (b.sites (key / 256)).filter (fun c => (s.fragmented key p x.info c).isSome)
    | _ => []
  else (b.sites (key / 256)).flatMap (fun c => ((s.fragMembers key p b xs c).getD []).map Prod.snd)

/-- Keep the cycles since which binds wait fragmented: a run that is interrupted starts again (R324). -/
def State.watchFrag (s : State) : State :=
  { s with binds := s.binds.map (fun e =>
      let now := s.fragCores e.1 e.2
      (e.1, { e.2 with frag := now.map (fun c => (c, Tabs.get e.2.frag s.clock c)) })) }

/-! ## The ranges (R325) -/

/-- May the range be freed for a workgroup of job `j` of partition `p`: its occupants belong to the partition and not to the
job? Gives the occupants and the oldest launch among them. -/
def State.evictable (s : State) (p j : Nat) (occ : List (Nat × Wg)) : Option (List Nat × Nat) :=
  if occ.all (fun e => e.2.part == p && s.jobOf e.2.dcb != j) then
    some (occ.map Prod.fst, occ.foldl (fun m e => min m e.2.placed) s.clock)
  else none

/-- The best of some ranges: the latest oldest launch, then the lowest row. -/
def bestRange (l : List (Nat × List Nat × Nat)) : Option (Nat × List Nat) :=
  (l.foldl (fun (m : Option (Nat × List Nat × Nat)) x => match m with
    | none => some x
    | some y => if y.2.2 < x.2.2 then some x else some y) none).map (fun x => (x.1, x.2.1))

/-- The range of `n` rows, at a multiple of `step`, that is freed in a window; `where_` says where a workgroup stands. -/
def State.freeUp (s : State) (c p j : Nat) (w : Nat × Nat) (n step : Nat) (where_ : Wg → List (Nat × Nat)) (taken : List (Nat × Nat)) : Option (Nat × List Nat) :=
  let here := s.wgs.filter (fun e => e.2.core == c)
  bestRange (((List.range (w.2 + 1 - n)).map (w.1 + ·)).filterMap (fun x =>
    if x % step ≠ 0 ∨ taken.any (meets (x, n)) then none
    else (s.evictable p j (here.filter (fun e => (where_ e.2).any (meets (x, n))))).map (fun r => (x, r.1, r.2))))

/-- The ranges that a compaction of core `c` frees for a workgroup, and the workgroups that are saved. -/
def State.compaction (s : State) (key p j : Nat) (i : LaunchInfo) (c : Nat) : Option (Kept × List Nat) :=
  let w := s.window c p
  let o := s.occOf c key
  let rows := 8 * granules i.nregs
  let held := s.keptOn c key
  let run := fun (used : List (Nat × Nat)) (win : Nat × Nat) (n : Nat) (f : Wg → Nat × Nat) (taken : List (Nat × Nat)) =>
    match freeRun used win n with
    | some x => some (x, [])
    | none => s.freeUp c p j win n 1 (fun g => [f g]) taken
  match s.fragmented key p i c, run o.scr w.scr i.scrRows (fun g => (g.scrBase, g.info.scrRows)) (held.map Kept.scr),
      run o.acc w.acc i.accRows (fun g => (g.accBase, g.info.accRows)) (held.map Kept.acc) with
  | some lanes, some (x, vx), some (a, va) =>
    let step := fun (r : Option (List (Nat × Nat × Nat) × List Nat)) (l : Nat) => r.bind (fun r =>
      let mine := (r.1.filter (fun b => b.1 == l)).map Prod.snd
      let used := ((o.warps.filter (fun y => y.1 == l)).map (fun y => y.2.2)) ++ mine
      let high := (s.rd (Reg.dspx (c / 32))).getLsbD 1
      match (freeBlk used w.reg rows high).map (fun x => (x, ([] : List Nat))) <|>
          s.freeUp c p j w.reg rows rows (fun g => (g.warps.filter (fun v => v.lane == l)).map (fun v => (v.blk, 8 * granules g.info.nregs)))
            (mine ++ held.flatMap (fun h => (h.blks.filter (fun y => y.1 == l)).map Prod.snd)) with
      | some (b, vs) => some (r.1 ++ [(l, b, rows)], r.2 ++ vs)
      | none => none)
    (lanes.foldl step (some ([], []))).map (fun r =>
      let vs := (vx ++ va ++ r.2).eraseDups
      (⟨c, (x, i.scrRows), (a, i.accRows), r.1⟩, vs))
  | _, _, _ => none

/-- The workgroups of `vs`, the youngest launch first. -/
def State.youngest (s : State) (vs : List Nat) : List Nat :=
  let at_ := fun (n : Nat) => ((s.wg? n).map Wg.placed).getD 0
  vs.foldl (fun l n => l.takeWhile (fun m => decide (at_ n ≤ at_ m)) ++ n :: l.dropWhile (fun m => decide (at_ n ≤ at_ m))) []

/-- Save the workgroups `vs` for bind `key`, which keeps what they free: one after the other, the youngest first (R325). The signal
that stops each comes as an event of its own. -/
def State.evict (s : State) (key : Nat) (b : Bind) (core : Nat) (kept : List Kept) (vs : List Nat) : State :=
  { s with binds := Tabs.put s.binds key { b with hold := some ⟨core, kept, s.youngest vs⟩, frag := [] } }

/-- What a compaction on `core` is for: the next workgroup there, or the members of the next kiln group that wait fragmented in the
kiln. -/
def State.compactFor (s : State) (key : Nat) (b : Bind) (core : Nat) : List (LaunchInfo × Nat) :=
  if b.kg = 0 then (s.nextAll b).map (fun x => (x.info, core))
  else ((s.fragMembers key (s.partOf b.dcb) b (s.nextAll b) core).getD []).map (fun e => (e.1.info, e.2))

/-- The ranges that are freed for all of them, and the workgroups that are saved; `none` where one finds none. -/
def State.compactAll (s : State) (key p j : Nat) (l : List (LaunchInfo × Nat)) : Option (List Kept × List Nat) :=
  l.foldl (fun r e => r.bind (fun r => (s.compaction key p j e.1 e.2).map (fun x => (r.1 ++ [x.1], r.2 ++ x.2)))) (some ([], []))

/-- COMPACTION_WAIT_EXPIRY (R324, R325): bind `bind` of die `die` has waited fragmented on `core`, the lowest such core, for its
wait. -/
def execCompactionWaitExpiry (die bind core : Nat) (s : State) : Out :=
  .next (match s.bind? die bind with
    | none => s
    | some b =>
      let key := 256 * die + bind
      let ripe := (s.fragCores key b).filter (fun c => match Tabs.find? b.frag c with
        | some t => decide (t + 64 * b.cwait.toNat ≤ s.clock)
        | none => false)
      if ripe.head? ≠ some core ∨ b.hold.isSome then s
      else match s.compactAll key (s.partOf b.dcb) (s.jobOf b.dcb) (s.compactFor key b core) with
        | none => s
        | some (kept, vs) => s.evict key b core kept vs.eraseDups)

/-! ## A kiln for a saved kiln group (R452) -/

/-- The occupants of a kiln that would be saved for a kiln group of bind `key`, when it would fit without them: the oldest
launch among them, and their numbers. -/
def State.kilnVictims (s : State) (key : Nat) (b : Bind) (c : Nat) : Option (Nat × List Nat) :=
  let p := s.partOf b.dcb
  let occ := s.wgs.filter (fun e => e.2.core / 4 == c / 4 && e.2.part == p)
  let bare : State := { s with wgs := s.wgs.filter (fun e => !occ.any (fun x => x.1 == e.1)) }
  match s.evictable p (s.jobOf b.dcb) occ, bare.placeAll key b p ((s.nextImgs b).map (fun x => ⟨x.g.info, some x⟩)) c with
  | some (vs, t), some _ => if vs.isEmpty then none else some (t, vs)
  | _, _ => none

/-- KILN_RESUME_WAIT_EXPIRY (R452): a kiln-group resume bind has waited; `kiln`, the kiln whose blocking occupants have the
latest oldest launch, is compacted for it. -/
def execKilnResumeWaitExpiry (die bind kiln : Nat) (s : State) : Out :=
  .next (match s.bind? die bind with
    | none => s
    | some b =>
      let key := 256 * die + bind
      if !b.resume || b.kg == 0 || !b.open_ || b.hold.isSome || s.clock < b.since + 64 * b.cwait.toNat || (s.planResume die bind b).isSome then s
      else
        let ks := (b.sites die).filterMap (fun c => (s.kilnVictims key b c).map (fun r => (c, r.2, r.1)))
        match bestRange ks with
        | none => s
        | some (c, vs) => if c / 4 ≠ kiln then s else s.evict key b c [] vs)

end Sys2Proof.Machine
end

