-- ==== Sys2Proof/Machine/Control.lean ====
section
/-! DEFINITION. Control flow, opcodes 0x080 and 0x083-0x089 (R86, R170, R171), and what an illegal word does (R103). -/

namespace Sys2Proof.Machine

/-- A control form. -/
def ctl (h : Hdr) (size : Nat) (chains : Bool) (regs : List (Nat × Nat)) (fault : Lane → Option Nat) : Form :=
  { h, size, chains, regs, fault }

/-- No fault. -/
def sound (_ : Lane) : Option Nat := none

/-- `nop` (R86, R170): a crazed guard is ignored (R407). -/
def execNop (h : Hdr) (s : State) : Out := (ctl h 8 true [] sound).exec (fun _ act l =>
  act.foldl (fun l t => l.setTh t ((l.w.th t).shift none)) l) s

/-- Start of the block after `pc` (R85). -/
def nextBlock (pc : VAddr) : VAddr := BitVec.ofNat 57 ((pc.toNat / 32 + 1) * 32)

/-- `nop.skip` (R86): every thread of the batch moves to the next block; latches, chain and yields stay as they are. -/
def execNopSkip (s : State) : Out :=
  onLane s (fun l =>
    let b := l.w.batch
    { l with w := { l.w with thr := (List.range 32).map (fun t =>
        let x := l.w.th t
        if b.contains t then { x with pc := nextBlock l.w.pc } else x) } })

/-- A branch displacement added to the instruction's own address (R170). -/
def branchTarget (pc : VAddr) (off : Word) : VAddr := pc + off.signExtend 57

/-- Is the address a multiple of 8 (R84)? -/
def aligned8 (a : VAddr) : Bool := a.extractLsb' 0 3 == 0

/-- `bra` (R170). -/
def execBra (h : Hdr) (off : Word) (s : State) : Out :=
  onLane s (branch (ctl h 16 true [] (fun l => if aligned8 (branchTarget l.w.pc off) then none else some 0x08))
    (fun pc => some (branchTarget pc off)) (fun pc _ _ x => .go ({ x with pc := branchTarget pc off }.shift none)))

/-- The threads of a `brx` or `ret` read the registers `rs`: a word with an uncorrectable error is crazed (R426). -/
def Lane.scrubTarget (l : Lane) (h : Hdr) (ok : Bool) (rs : List (Nat × Nat)) : Lane :=
  if !ok || !l.w.ready rs then l
  else (l.w.batch.filter (fun t => guardHolds h (l.w.th t) && ((l.w.th t).predCraze h.guard).isNone)).foldl
    (fun l' t => l'.scrub t l.w.pc rs) l

/-- A per-thread target: it must be a multiple of 8 (R399). -/
def goTo (x : Thread) (a : VAddr) : Turn := if aligned8 a then .go ({ x with pc := a }.shift none) else .fault 0x08 (some a)

/-- `brx` (R170): each thread's own target. An invalid latch is a craze, so the thread derails (R407). -/
def execBrx (h : Hdr) (a : Src) (s : State) : Out :=
  onLane s (fun l => branch (ctl h 8 true (srcRegs 1 a) (fun l => illegal (!srcOk l.wg.info.nregs 1 a)))
    (fun _ => none) (fun pc l t x => match readSrc l.w (l.w.th t) 0 .i32 a with
      | none => .fault 0x03 none
      | some (_, some p) => .crazed p
      | some (v, none) => goTo x (branchTarget pc (v.setWidth 32)))
    (l.scrubTarget h (srcOk l.wg.info.nregs 1 a) (srcRegs 1 a)))

/-- `call` (R170): the return address enters a vector pair, its low word the latch (R98). -/
def execCall (h : Hdr) (dst : BitVec 8) (off : Word) (s : State) : Out :=
  onLane s (branch (ctl h 16 true (ADst.vec dst true).regs (fun l =>
      if !(ADst.vec dst true).ok l.wg.info.nregs then some 0x01
      else if aligned8 (branchTarget l.w.pc off) then none else some 0x08))
    (fun pc => some (branchTarget pc off)) (fun pc _ _ x => .go ({ x with pc := branchTarget pc off }.putResult (.vec dst true) ((pc + 16).setWidth 64) none)))

/-- `ret` (R170): bits [56:0] of a pair. -/
def execRet (h : Hdr) (a : Src) (s : State) : Out :=
  onLane s (fun l => branch (ctl h 8 true (srcRegs 2 a) (fun l => illegal (!srcOk l.wg.info.nregs 2 a)))
    (fun _ => none) (fun _ l t x => match readSrc l.w (l.w.th t) 0 .i64 a with
      | none => .fault 0x03 none
      | some (_, some p) => .crazed p
      | some (v, none) => goTo x (v.setWidth 57))
    (l.scrubTarget h (srcOk l.wg.info.nregs 2 a) (srcRegs 2 a)))

/-- `conv` (R37, R170): the active threads park at convergence, at the address of the `conv`. -/
def execConvg (h : Hdr) (s : State) : Out :=
  onLane s (branch (ctl h 8 false [] sound) (fun _ => none) (fun pc _ _ x => .go { x with pc := pc, st := .parkedConv true }))

/-- `yield` (R36, R170). -/
def execYield (h : Hdr) (s : State) : Out :=
  onLane s (branch (ctl h 8 false [] sound) (fun _ => none) (fun _ _ _ x => .go { x with st := .yielded }))

/-- `exit` (R38, R43, R170). -/
def execExit (h : Hdr) (s : State) : Out :=
  onLane s (branch (ctl h 8 false [] sound) (fun _ => none) (fun pc _ _ x => .go { x with pc := pc, st := .exited }))

/-! ## Illegal words -/

/-- How far an illegal word at `pc` moves the program counter (R103): a word of 16 bytes that would cross its block moves it to
the next one, whatever else is wrong with it. -/
def illegalNext (why : Reject) (wide : Bool) (pc : VAddr) : VAddr :=
  match why with
  | .lengthCode => pc + 8
  | _ => if wide && decide (16 < pc.toNat % 32) then nextBlock pc else pc + (if wide then 16 else 8)

/-- An illegal word (R103, R404): no effect but that its whole batch, guard ignored, derails with cause 0x01. -/
def execIllegalEncoding (why : Reject) (wide : Bool) (s : State) : Out :=
  onLane s (fun l =>
    let b := l.w.batch
    let pc := l.w.pc
    let l1 := (l.advance b 0).moveTo b (illegalNext why wide pc)
    ((l1.endChain).derailAll b pc 0x01 none).settle b)

end Sys2Proof.Machine
end

