-- ==== Sys2Proof/Machine/Sweep.lean ====
section
/-! DEFINITION. The cone sweep (R468 to R471), bisque taints (R474), maintenance pauses (R314). -/

namespace Sys2Proof.Machine

/-- The sweep of a die. -/
def State.sweep (s : State) (d : Nat) : Sweep := Tabs.get s.sweeps ⟨0, none⟩ d

/-- Replace it. -/
def State.setSweep (s : State) (d : Nat) (x : Sweep) : State := { s with sweeps := Tabs.set s.sweeps ⟨0, none⟩ d x }

/-- `st` of `CSST`. -/
def State.sweepSt (s : State) (c : Nat) : Nat := (s.rd (Reg.csst c)).toNat % 4

/-- Set `st`; the head bit clears. -/
def State.setSweepSt (s : State) (c st : Nat) : State :=
  { s.wr (Reg.csst c) ((s.rd (Reg.csst c)) &&& ~~~7 ||| BitVec.ofNat 64 st) with sweepHead := s.sweepHead.filter (· != c) }

/-- Begin a pass (R469): the core drains, and every workgroup on it is stopped for the Stoker's own purpose. -/
def State.beginPass (s : State) (c : Nat) : State :=
  let s1 := (s.setSweepSt c 1).setSweep (c / 32) { s.sweep (c / 32) with pass := some (c, false, 0) }
  ((s1.wgs.filter (fun e => e.2.core == c)).map Prod.fst).foldl (fun s n => s.ownStop n [c]) s1

/-- Length of a rotation slot: 2 ms (R21, R468). -/
def slotCycles : Nat := 2400000

/-- CONE_SWEEP_SLOT (R468, R471): the next pass of the die begins: of a core at the head of the rotation, or of the next slot
whose time has come. -/
def execConeSweepSlot (die : Nat) (s : State) : Out :=
  let x := s.sweep die
  .next (if !s.up || x.pass.isSome || (s.rd (Reg.csx die)).getLsbD 1 then s
    else match s.sweepHead.find? (fun c => c / 32 == die) with
      | some c => s.beginPass c
      | none =>
        if s.clock < s.upAt + slotCycles * x.slots then s
        else
          let c := 32 * die + x.slots % 32
          let s1 := s.setSweep die { x with slots := x.slots + 1 }
          if s.sweepSt c = 3 ∨ s.lost.contains c then s1 else s1.beginPass c)

/-- CONE_SWEEP_SCAN_START (R469): the draining core holds no workgroup any more. -/
def execConeSweepScanStart (die : Nat) (s : State) : Out :=
  .next (match (s.sweep die).pass with
    | some (c, false, _) =>
      if s.wgs.any (fun e => e.2.core == c) then s
      else (s.setSweepSt c 2).setSweep die { s.sweep die with pass := some (c, true, s.clock) }
    | _ => s)

/-- Jobs that are tainted when core `c` is retired (R474), by DCB. -/
def State.tainted (s : State) (c : Nat) : List Nat :=
  (s.bisque.filter (fun e => decide (Tabs.get s.passAt 0 c < Tabs.get e.2 0 c))).map Prod.fst

/-- Retire a core (R470, R474). -/
def State.retireCore (s : State) (c patt : Nat) : State :=
  let log := s.rd Reg.cslog
  let js := s.tainted c
  let s1 := s.setSweepSt c 3
  let s2 := if log.getLsbD 0 then s1.wr Reg.cslog (log ||| 2)
    else s1.wr Reg.cslog ((log &&& 2) ||| BitVec.ofNat 64 (s.clock / 65536 % 2 ^ 40 * 2 ^ 24 + c * 2 ^ 8 + patt * 4 + 1))
  let s3 : State := { s2.raise none 9 with taints := s2.taints ++ js.filter (fun j => !s2.taints.contains j) }
  js.foldl (fun s j => s.raise (some (s.vfOf j)) 2) s3

/-- CONE_SWEEP_SCAN_DONE (R470): 720,000 cycles after the pass start every pattern has matched, or one has failed: which one is
a free value (log 45). -/
def execConeSweepScanDone (die : Nat) (bad : Bool) (s : State) : Out :=
  .next (match (s.sweep die).pass with
    | some (c, true, t) =>
      if s.clock < t + 720000 then s
      else
        let s1 := s.setSweep die { s.sweep die with pass := none }
        if bad then
          { s1 with freeCtr := s1.freeCtr + 1 }.retireCore c ((Config.freeValue s1.freeCtr).toNat % 64)
        else
          let n := (s1.rd (Reg.csst c)).toNat / 2 ^ 8 % 65536
          { s1 with passAt := Tabs.put s1.passAt c t }.wr (Reg.csst c) (BitVec.ofNat 64 (t / 65536 % 2 ^ 40 * 2 ^ 24 + min 65535 (n + 1) * 2 ^ 8 +
            (if s1.sweepHead.contains c then 4 else 0)))
    | _ => s)

/-- MAINTENANCE_PAUSE (R314): a memory controller starts a pause, at most once in any 1 ms, and not while the other controller
of its stack is in one, for 10 µs. -/
def execMaintenancePause (ctl : Nat) (s : State) : Out :=
  let last := Tabs.find? s.pauses ctl
  let mate := Tabs.find? s.pauses (if ctl % 2 = 0 then ctl + 1 else ctl - 1)
  .next (if 16 ≤ ctl || last.any (fun t => decide (s.clock < t + 1200000)) || mate.any (fun t => decide (s.clock < t + 12000)) then s
    else { s with pauses := Tabs.put s.pauses ctl s.clock })

end Sys2Proof.Machine
end

