-- ==== Sys2Proof/Machine/Mailbox.lean ====
section
/-! DEFINITION. The requests of the physical function's mailbox that the Stoker and the security controller serve at once
(R350, R352, R405, R461), the mailboxes of the virtual functions (R351, R458), and what a lock freezes (R357). Payload fields
follow one another in the order of R352's table, each aligned to its size (log 43). -/

namespace Sys2Proof.Machine

/-! ## Frozen items (R357, R459) -/

/-- Does an interface of partition `p` hold its items frozen: one that is not unlocked? -/
def State.partFrozen (s : State) (p : Nat) : Bool := allVfs.any (fun v => s.tdi v != 0 && s.vfBound v && s.vfPart v == p)

/-- Is `PWORD` of core `c` frozen? -/
def State.pwordFrozen (s : State) (c : Nat) : Bool := (List.range 20).any (fun p => s.partFrozen p && !(s.window c p).empty)

/-- Is the DCB frozen: the level-1 DCB of a locked interface's partition? -/
def State.dcbFrozen (s : State) (d : Nat) : Bool := s.level d == 1 && s.partFrozen (s.ident d)

/-- Is the interface above a DCB in error (R458)? -/
def State.vfFailed (s : State) (d : Nat) : Bool := (s.atLevel d 2).any (fun x => s.tdi (BitVec.ofNat 8 (s.ident x)) == 3)

/-! ## Well-formed DCBs and nodes (R405) -/

/-- Do the fields of the DCB at `d` take assigned values (R315, R316)? -/
def State.dcbSound (s : State) (d : Nat) : Bool :=
  let u := s.dcb d
  d % 128 == 0 && decide (d < 0x5000000000) && [0, 8, 16, 0x40].all (fun o => decide (u o 8 < 2 ^ 52)) && decide (u 0x18 1 ≤ 5) &&
  (if u 0x18 1 = 1 then decide (u 0x19 1 < 20) else u 0x18 1 == 2 || u 0x19 1 == 0) &&
  decide (u 0x1A 2 < 1024) && decide (u 0x1C 1 < 16) && decide (u 0x1D 1 < 8) && u 0x1D 1 % 4 != 3 && decide (u 0x1F 1 ≤ 5) &&
  decide (u 0x38 2 ≤ 512) && u 0x3A 2 == 0 && u 0x50 48 == 0

/-- A linked DCB that is well formed. -/
def State.named (s : State) (d : Nat) : Bool := s.dcbs.contains d && s.dcbSound d

/-! ## `DCB_WRITE`, `DCB_LINK`, `DCB_UNLINK` -/

/-- Write bytes into a DCB; `state` stays (R315). -/
def State.dcbBytes (s : State) (d off : Nat) (bs : List Byte) : State :=
  bs.zipIdx.foldl (fun s e => if off + e.2 = 0x1F then s else s.dcbPut d (off + e.2) 1 e.1.toNat) s

/-- DCB_WRITE: DCB, offset, count 1 to 64, bytes. A linked DCB must stay well formed. -/
def execDcbWrite (ch : Nat) (s : State) : Out :=
  .next (s.serve ch 1 (fun s n => decide (17 ≤ n) && n == 16 + s.req ch 12 4) (fun s =>
    let d := s.req ch 0 8
    let off := s.req ch 8 4
    let n := s.req ch 12 4
    if n = 0 ∨ 64 < n ∨ 128 < off + n ∨ d % 128 ≠ 0 ∨ 0x5000000000 ≤ d then s.answer ch 0x02 []
    else if s.dcbs.contains d && s.dcbFrozen d then s.answer ch 0x04 []
    else
      let s1 := s.dcbBytes d off (s.reqBytes ch 16 n)
      if s.dcbs.contains d && !s1.dcbSound d then s.answer ch 0x02 [] else s1.answer ch 0x00 []))

/-- The DCBs of a list of siblings and all below them. -/
def State.family (s : State) : Nat → Nat → List Nat
  | 0, _ => []
  | n + 1, d => if d = 0 then [] else d :: (s.family n (s.child d) ++ s.family n (s.sibling d))

/-- DCB_LINK: the child becomes the first one of its parent. -/
def execDcbLink (ch : Nat) (s : State) : Out :=
  .next (s.serve ch 2 (fun _ n => n == 16) (fun s =>
    let p := s.req ch 0 8
    let d := s.req ch 8 8
    if !s.named p || !s.dcbSound d || s.level d != s.level p + 1 then s.answer ch 0x02 []
    else if s.dcbs.contains d then s.answer ch 0x01 []
    else if s.dcbFrozen p then s.answer ch 0x04 []
    else
      let below := s.family 32 (s.child d)
      let s1 := ((s.dcbPut d 0 8 p).dcbPut d 16 8 (s.child p)).dcbPut p 8 8 d
      { s1 with dcbs := s1.dcbs ++ d :: below, inForce := s1.inForce.filter (fun e => !(d :: below).contains e.1) }.answer ch 0x00 []))

/-- The list of siblings from `x` without `d`. -/
def State.unchain (s : State) (p d : Nat) : Nat → Nat → State
  | 0, _ => s
  | n + 1, x =>
    if s.child p = d then s.dcbPut p 8 8 (s.sibling d)
    else if s.sibling x = d then s.dcbPut x 16 8 (s.sibling d) else s.unchain p d n (s.sibling x)

/-- DCB_UNLINK: legal with `state` idle, drained or saved, no child and no bind. -/
def execDcbUnlink (ch : Nat) (s : State) : Out :=
  .next (s.serve ch 3 (fun _ n => n == 8) (fun s =>
    let d := s.req ch 0 8
    if !s.named d then s.answer ch 0x02 []
    else if s.level d = 0 ∨ !([0, 3, 5].contains (s.dcbState d)) ∨ s.child d ≠ 0 ∨
        (s.binds.map Prod.snd ++ s.bindq.map Prod.snd).any (fun b => b.dcb == d) then s.answer ch 0x01 []
    else if s.dcbFrozen d || s.dcbFrozen (s.parent d) then s.answer ch 0x04 []
    else
      let s1 := s.unchain (s.parent d) d s.dcbs.length (s.child (s.parent d))
      { s1.dcbPut d 0 8 0 with dcbs := s1.dcbs.filter (· != d), inForce := s1.inForce.filter (fun e => e.1 != d) }.answer ch 0x00 []))

/-! ## `NODE_SUBMIT` (R318, R319) -/

/-- The successors of the node records from `a` on; `none` where one is malformed. -/
def State.succs (s : State) : Nat → Nat → Option (List Nat)
  | 0, _ => none
  | n + 1, a =>
    let k := s.memNat 0 (a + 0x12) 1
    let es := (List.range k).map (fun i => s.memNat 0 (a + 0x18 + 4 * i) 4)
    let more := s.memNat 0 (a + 0x38) 8
    if 8 < k ∨ a % 64 ≠ 0 ∨ s.memNat 0 (a + 0x13) 5 ≠ 0 ∨ es.any (fun e => decide (2 ^ 18 ≤ e)) ∨ 2 ^ 52 ≤ more then none
    else if more = 0 then some es else (s.succs n more).map (es ++ ·)

/-- The lowest free node index of a die (log 46). -/
def State.freeNode (s : State) (die : Nat) : Option Nat :=
  (List.range 65536).find? (fun k => (Tabs.find? s.nodes (65536 * die + k)).isNone)

/-- NODE_SUBMIT: the record is checked, with its launch (R405), and its counter is loaded. Where the node lives, the response
says (log 46). -/
def execNodeSubmit (ch : Nat) (s : State) : Out :=
  .next (s.serve ch 4 (fun _ n => n == 64) (fun s =>
    let q := s.req ch
    let d := q 0 8
    let k := q 0x12 1
    let es := (List.range k).map (fun i => q (0x18 + 4 * i) 4)
    let more := q 0x38 8
    let rest := if more = 0 then some [] else if 2 ^ 52 ≤ more then none else s.succs 8192 more
    if !s.named d || s.level d != 5 || decide (8 < k) || q 0x13 5 != 0 || es.any (fun e => decide (2 ^ 18 ≤ e)) || decide (2 ^ 52 ≤ q 8 8) then
      s.answer ch 0x02 []
    else match rest with
      | none => s.answer ch 0x02 []
      | some es1 =>
        if s.vfFailed d || s.nodes.any (fun e => e.2.dcb == d) then s.answer ch 0x01 []
        else match s.launch? (q 8 8) d with
          | (s, none) => s.answer ch 0x02 []
          | (s, some (_, h)) =>
            let die := Config.streamDie ((s.atLevel d 4).getD 0) % 4
            match s.freeNode die with
            | none => s.answer ch 0x03 []
            | some i =>
              let np := q 0x10 2
              let x : Node := { dcb := d, lrec := q 8 8, hdr := h, succ := es ++ es1, counter := np
                                ready := if np = 0 then some s.nextReady else none, n := 0, kg := 0, sword := 0, begun := false, given := 0, left := 0 }
              { s with nodes := Tabs.put s.nodes (65536 * die + i) x, nextReady := s.nextReady + 1 }.answer ch 0x00
                (leBytes 8 (65536 * die + i))))

/-! ## `STOP` and `RESUME` (R328, R352) -/

/-- Change every bind, in a slot or waiting for one. -/
def State.mapBinds (s : State) (f : Bind → Bind) : State :=
  { s with binds := s.binds.map (fun e : Nat × Bind => (e.1, f e.2)), bindq := s.bindq.map (fun e : Nat × Bind => (e.1, f e.2)) }

/-- STOP: the Stoker accepts the stop and acts on the binds of the subtree; the response comes when the subtree is saved,
drained or reset. -/
def execStop (ch : Nat) (s : State) : Out :=
  .next (s.serve ch 5 (fun _ n => n == 8) (fun s =>
    let d := s.req ch 0 8
    if !s.named d then s.answer ch 0x02 []
    else if s.vfFailed d || decide (2 ≤ s.dcbState d) then s.answer ch 0x01 []
    else
      let m := if s.effMode d = 3 then 0 else s.effMode d
      let halt := fun (b : Bind) => if !s.under b.dcb d then b
        else if b.placed = 0 then { b with valid := false } else { b with stop := true }
      let q : StopReq := ⟨s.nextStop, d, m, m, some ch, s.clock, s.effDeadline d⟩
      let s1 := s.mapBinds halt
      ({ s1 with stops := s.stops ++ [q], nextStop := s.nextStop + 1 }.setDcbState d (if m = 0 then 4 else 2)).checkStops))

/-- The images of the resume binds of the subtree that R465 refuses, by address. -/
def State.refusals (s : State) (d : Nat) : List Nat :=
  ((s.binds.map Prod.snd ++ s.bindq.map Prod.snd).filter (fun b => b.resume && s.under b.dcb d)).flatMap (fun b =>
    b.imgs.filter (s.imageRefused (s.partOf b.dcb)))

/-- A bind without the images `as`, which count as done; a kiln group that loses one loses all. -/
def State.without (s : State) (b : Bind) (as : List Nat) : Bind × Nat :=
  let keep := b.imgs.filter (fun a => !as.contains a && !as.any (s.oneKiln a))
  let n := b.imgs.length - keep.length
  ({ b with imgs := keep, placed := b.placed + n, done := b.done + n }, n)

/-- Validate a bind of the subtree again, with the effective values of now (R28, R328). -/
def State.revive (s : State) (d : Nat) (b : Bind) : Bind :=
  if !s.under b.dcb d || (s.above b.dcb).any (fun x => x != d && decide (2 ≤ s.dcbState x)) then b
  else { b with valid := true, stop := false, since := s.clock, prio := s.effPrio b.dcb, shares := s.bindShares b.dcb, quotas := s.bindQuotas b.dcb }

/-- Discard the refused images of a subtree (R465). -/
def State.dropRefused (s : State) (d : Nat) (as : List Nat) : State :=
  let hit := fun (b : Bind) => b.resume && s.under b.dcb d
  let mine := (s.binds.map Prod.snd ++ s.bindq.map Prod.snd).filter hit
  let all := mine.flatMap (fun b => b.imgs.filter (fun a => !(s.without b as).1.imgs.contains a))
  let s1 := all.foldl (fun s a => s.discardImage a) s
  let s2 := mine.foldl (fun t b => t.nodeDone b.node (s.without b as).2) s1
  let s3 := s2.mapBinds (fun b => if hit b then (s.without b as).1 else b)
  (s3.binds.map Prod.fst).foldl (fun s k => s.closeBind (k / 256) (k % 256)) s3

/-- RESUME: the binds of the subtree are valid again; an image that R465 refuses is discarded, and the response says so. -/
def execResume (ch : Nat) (s : State) : Out :=
  .next (s.serve ch 6 (fun _ n => n == 8) (fun s =>
    let d := s.req ch 0 8
    if !s.named d then s.answer ch 0x02 []
    else if s.vfFailed d || !([3, 5].contains (s.dcbState d)) then s.answer ch 0x01 []
    else
      let as := s.refusals d
      let s1 := if as.isEmpty then s else s.dropRefused d as
      let mine := (s1.binds.map Prod.snd ++ s1.bindq.map Prod.snd).filter (fun b => s1.under b.dcb d)
      let s2 := (mine.foldl (fun s b => s.enforce b.dcb) (s1.mapBinds (s1.revive d))).setDcbState d 1
      if as.isEmpty then s2.answer ch 0x00 []
      else s2.answer ch 0x05 (leBytes 4 0x16 ++ leBytes 4 as.length ++ leBytes 8 (as.headD 0))))

/-! ## `WINDOW_SET` (R64, R66, R461) -/

/-- Do the windows of a core keep R63, R65 and R66? -/
def windowsOk (pword : DWord) (ts : List DWord) : Bool :=
  let f := fun (v : DWord) (lo len : Nat) => field v.toNat lo len
  let re := f pword 0 8
  let se := f pword 8 8
  let ws := ts.map windowOfTwin
  let apart := fun (l : List (Nat × Nat)) => (l.zipIdx).all (fun a => (l.zipIdx).all (fun b =>
    a.2 == b.2 || a.1.2 == 0 || b.1.2 == 0 || !meets a.1 b.1))
  let inside := fun (r : Nat × Nat) (lo hi : Nat) => r.2 == 0 || (decide (lo ≤ r.1) && decide (r.1 + r.2 ≤ hi))
  f pword 16 16 == 0 && decide (re ≤ 128) && decide (re ≤ se) && decide (se ≤ 128) && ts.all (fun v => f v 62 2 == 0) &&
  ws.all (fun w => decide (w.grp.1 + w.grp.2 ≤ 32) && inside w.reg 0 (8 * re) && inside w.scr (8 * re) (8 * se) && inside w.acc (8 * se) 1024) &&
  apart (ws.map Window.grp) && apart (ws.map Window.reg) && apart (ws.map Window.scr) && apart (ws.map Window.acc)

/-- WINDOW_SET: core, `PWORD`, 20 `TWIN` values; legal only on an empty core. -/
def execWindowSet (ch : Nat) (s : State) : Out :=
  .next (s.serve ch 7 (fun _ n => n == 176) (fun s =>
    let c := s.req ch 0 4
    let pw := BitVec.ofNat 64 (s.req ch 8 8)
    let ts := (List.range 20).map (fun p => BitVec.ofNat 64 (s.req ch (16 + 8 * p) 8))
    if 128 ≤ c ∨ s.req ch 4 4 ≠ 0 ∨ !windowsOk pw ts then s.answer ch 0x02 []
    else if s.wgs.any (fun e => e.2.core == c) || s.images.any (fun e => e.2.g.core == c) then s.answer ch 0x01 []
    else if s.pwordFrozen c || ts.zipIdx.any (fun t => s.partFrozen t.2 && t.1 != s.rd (Reg.twin c t.2)) then s.answer ch 0x04 []
    else (ts.zipIdx.foldl (fun s t => s.wr (Reg.twin c t.2) t.1) (s.wr (Reg.pword c) pw)).answer ch 0x00 []))

/-! ## `KEY_ASSIGN` and `MEASURE` (R353, R355, R370, R461) -/

/-- KEY_ASSIGN: slot, partition, session; the slot takes the tenant's key. -/
def execKeyAssign (ch : Nat) (s : State) : Out :=
  .next (s.serve ch 8 (fun _ n => n == 12) (fun s =>
    let k := s.req ch 0 4
    let p := s.req ch 4 4
    if k = 0 ∨ 256 ≤ k ∨ 20 ≤ p then s.answer ch 0x02 []
    else if (s.rd (Reg.keyown k)).getLsbD 5 && !s.ownsKey p k then s.answer ch 0x01 []
    else if s.partFrozen p then s.answer ch 0x04 []
    else if !Config.sessionStands (s.req ch 8 4) p then s.answer ch 0x01 []
    else
      let s1 := s.wr (Reg.keyown k) (BitVec.ofNat 64 (32 + p))
      { s1 with keyEpoch := Tabs.put s1.keyEpoch k (Tabs.get s1.keyEpoch 0 k + 1) }.answer ch 0x00 []))

/-- `PMEAS` of a partition as 64 bytes. -/
def State.pmeas (s : State) (p : Nat) : List Byte := (List.range 8).flatMap (fun i => leBytes 8 (s.rd (Reg.pmeas p + 8 * i)).toNat)

/-- Set it. -/
def State.setPmeas (s : State) (p : Nat) (bs : List Byte) : State :=
  (List.range 8).foldl (fun s i => s.wr (Reg.pmeas p + 8 * i) (BitVec.ofNat 64 (leNat ((bs.drop (8 * i)).take 8)))) s

/-- Bytes of device memory as the controllers read them, under slot 0. -/
def State.bytes0 (s : State) (a n : Nat) : List Byte := (List.range n).map (fun i => BitVec.ofNat 8 (s.memNat 0 (a + i) 1))

/-- Are `n` bytes at `a` all in one range that R296 or R346 assigns: this S4's memory with its staging regions, the host window, the
fabric windows? -/
def dpaAssigned (a n : Nat) : Bool :=
  decide (a + n ≤ 0x6000000000) || (decide (hostBase ≤ a) && decide (a + n ≤ 2 * hostBase)) ||
  (decide (16 * hostBase ≤ a) && decide (a + n ≤ 2 ^ 52))

/-- Bytes that the security controller reads at a device physical address (R17, R346): those of a fabric window are another node's, and
a free value here (log 49). -/
def State.secBytes (s : State) (a n : Nat) : State × List Byte :=
  if windowOf a < 16 then (s, s.bytes0 a n) else s.freeBytes n

/-- MEASURE: partition, address, length. -/
def execMeasure (ch : Nat) (s : State) : Out :=
  .next (s.serve ch 9 (fun _ n => n == 24) (fun s =>
    let p := s.req ch 0 4
    let a := s.req ch 8 8
    let n := s.req ch 16 8
    if 20 ≤ p ∨ s.req ch 4 4 ≠ 0 then s.answer ch 0x02 []
    else if n = 0 then
      (if s.partFrozen p then s.answer ch 0x01 [] else (s.setPmeas p (List.replicate 64 0)).answer ch 0x00 [])
    else if !dpaAssigned a n then s.answer ch 0x02 []
    else
      let (s, bs) := s.secBytes a n
      (s.setPmeas p (sha3_512 (s.pmeas p ++ sha3_512 bs))).answer ch 0x00 []))

/-- MAILBOX_UNASSIGNED_CODE (R352): status 0x02. -/
def execMailboxUnassignedCode (ch : Nat) (s : State) : Out :=
  .next (let k := s.reqCode ch
    if (k = 0 ∨ 12 ≤ k) ∧ s.busyCh ch && s.chans.contains ch && s.up then s.answer ch 0x02 [] else s)

/-! ## Mailboxes of the virtual functions (R349, R351, R458) -/

/-- Complete the request of a virtual function with a status. -/
def State.vfAnswer (s : State) (v : BitVec 8) (status : Nat) : State :=
  let ctl := (s.vrd v Reg.vmbox).toNat
  let tag := field ctl 32 16
  let r0 := (s.vrd v (Reg.vmbox + 0x200)).toNat
  let s1 := s.vwr v (Reg.vmbox + 0x200) (BitVec.ofNat 64 (setField r0 0 16 tag))
  (s1.vwr v Reg.vmbox (BitVec.ofNat 64 (tag * 2 ^ 32 + status % 256 * 2 ^ 16 + 2))).raise (some v) 1

/-- A write of `MBCTL` by the virtual function. -/
def State.vfSubmit (s : State) (vf : BitVec 8) (data : DWord) (tee : Bool) : State :=
  if s.tdiLive vf && !tee then s.interfaceError vf 2 Reg.vmbox
  else
    let old := s.vrd vf Reg.vmbox
    let keep := if data.getLsbD 1 then old &&& 0xFF0001 else old &&& 0xFF0003
    let s1 := s.vwr vf Reg.vmbox (keep ||| (data &&& 0xFFFF00000000))
    if !data.getLsbD 0 || old.getLsbD 0 then s1
    else if s.tdi vf == 3 then s1.vfAnswer vf 0x04
    else
      let s2 := s1.vwr vf Reg.vmbox (s1.vrd vf Reg.vmbox ||| 1)
      (s2.wr (Reg.vmctl vf.toNat) (s2.rd (Reg.vmctl vf.toNat) ||| 1)).raise none 8

/-- A write of `VMCTL` by the physical function: 1 in `pend` completes a request that waits. -/
def State.vmctlWrite (s : State) (vf : BitVec 8) (data : DWord) : State :=
  let old := s.rd (Reg.vmctl vf.toNat)
  let st := data &&& 0xFF0000
  if data.getLsbD 0 && old.getLsbD 0 then
    (s.wr (Reg.vmctl vf.toNat) st).vfAnswer vf (st.toNat / 65536)
  else s.wr (Reg.vmctl vf.toNat) (st ||| (old &&& 1))

/-- VF_MAILBOX_SUBMIT (R351, R458): the virtual function writes `MBCTL` with `go` set. -/
def execVfMailboxSubmit (vf : BitVec 8) (data : DWord) (tee : Bool) (s : State) : Out := .next (s.ifUp (s.vfSubmit vf data tee))

/-- VMCTL_PEND_WRITE (R351, R458). -/
def execVmctlPendWrite (vf : BitVec 8) (data : DWord) (s : State) : Out := .next (s.ifUp (s.vmctlWrite vf data))

end Sys2Proof.Machine
end

