-- ==== Sys2Proof/Machine/Regs.lean ====
section
/-! DEFINITION. The memory-mapped registers as their readers and writers see them (R5, R7, R347, R348, R357, R459, R460), and
the registers with behaviour of their own: generations (R293, R412), the node number (R359, R377), the quarantine list (R428,
R429), signature injection (R498). -/

namespace Sys2Proof.Machine

/-! ## Reads -/

/-- `MCERR` of a controller (R429). -/
def MemCtl.err (c : MemCtl) : DWord :=
  BitVec.ofNat 64 (c.corr * 2 ^ 32 + c.ovf.toNat * 2 ^ 21 + c.qnew.toNat * 2 ^ 20 + c.pois.length * 2 ^ 10 + c.quar.length)

/-- Entry `k` of its quarantine list as a register (R429). -/
def MemCtl.entry (c : MemCtl) (k : Nat) : DWord :=
  match Tabs.find? c.quar k with
  | none => 0
  | some p => BitVec.ofNat 64 (2 ^ 63 + p * 2 ^ 12)

/-- What a read of the physical function's BAR0 gives (R347); a reserved offset reads 0. -/
def State.readPf (s : State) (off : Nat) : DWord :=
  if off < 32 then hvmapOf (off / 8)
  else if Reg.mcerr 0 ≤ off ∧ off < Reg.mcerr 16 then (s.ctl ((off - Reg.mcerr 0) / 8)).err
  else if Reg.mcq 0 0 ≤ off ∧ off < Reg.mcq 16 0 then (s.ctl ((off - Reg.mcq 0 0) / 256)).entry (off % 256 / 8)
  else if Reg.vmctl 0 ≤ off ∧ off < Reg.vmctl 256 ∧ 0x100 ≤ off % 1024 ∧ off % 1024 < 0x300 then
    s.vrd (BitVec.ofNat 8 ((off - Reg.vmctl 0) / 1024)) (Reg.vmbox + off % 1024)
  else s.rd off

/-- `VFSTAT` (R348). -/
def State.vfstat (s : State) (v : BitVec 8) : DWord := BitVec.ofNat 64 (65536 * s.tdi v + 256 * s.vfPart v + v.toNat)

/-- What a read of virtual function `v`'s BAR0 gives: in error, zero but for `VFSTAT` (R460). -/
def State.readVf (s : State) (v : BitVec 8) (off : Nat) : DWord :=
  if off = Reg.vfstat then s.vfstat v
  else if s.tdi v = 3 ∨ off = Reg.srdb then 0
  else s.vrd v off

/-! ## Registers without behaviour of their own -/

/-- Bits `n` from `lo`. -/
def bitsAt (lo n : Nat) : Nat := (2 ^ n - 1) * 2 ^ lo

/-- A block of registers: first offset, stride, count, and which bits a write sets (RW) or a 1 clears (W1C). -/
structure RegBlock where
  at_ : Nat
  stride : Nat
  count : Nat
  rw : Nat
  w1c : Nat

/-- The registers of the physical function that a write changes by the access codes alone. -/
def regBlocks : List RegBlock :=
  [⟨0x20000, 8, 256, bitsAt 21 31 + 1, 0⟩, ⟨0x21000, 8, 256, 63, 0⟩, ⟨0x22000, 8, 20, bitsAt 12 40 + 31, 0⟩,
   ⟨0x23000, 8, 4080, bitsAt 63 1 + bitsAt 32 12 + bitsAt 0 12, 0⟩, ⟨0x2B000, 16, 1024, bitsAt 0 64, 0⟩,
   ⟨0x2B008, 16, 1024, bitsAt 0 29, 0⟩] ++
  [⟨0x36000, 8, 1, 0, 3⟩, ⟨0x36008, 8, 1, 1, 0⟩, ⟨0x37000, 8, 12, 0, 12⟩, ⟨0x37080, 8, 1, 0, 2⟩, ⟨0x37088, 8, 1, 0, 2⟩,
   ⟨0x37090, 8, 1, 0, 3⟩, ⟨0x37800, 8, 256, 0, 1⟩, ⟨0x38400, 8, 1, 0, 3⟩, ⟨0x38408, 8, 4, 3, 0⟩, ⟨0x38428, 8, 4, 15, 0⟩] ++
  [⟨0x40000, 32, 4, 3, 0⟩, ⟨0x40008, 32, 4, 3, 0⟩, ⟨0x40010, 32, 4, 3, 0⟩, ⟨0x41000, 32, 128, 1, 0⟩,
   ⟨0x41008, 32, 128, 3, 0⟩, ⟨0x41010, 32, 128, 7, 0⟩, ⟨0x41018, 32, 128, 15, 0⟩]

/-- Does the block hold a register at `off`? -/
def RegBlock.has (b : RegBlock) (off : Nat) : Bool :=
  decide (b.at_ ≤ off) && (off - b.at_) % b.stride == 0 && decide ((off - b.at_) / b.stride < b.count)

/-- A register after a write of `data` (R7). -/
def accessed (old data : DWord) (rw w1c : Nat) : DWord :=
  (old &&& ~~~(BitVec.ofNat 64 rw) &&& ~~~(BitVec.ofNat 64 w1c &&& data)) ||| (data &&& BitVec.ofNat 64 rw)

/-- Is the write one of `PRCTL` that is ignored (R482)? -/
def slackIgnored (off : Nat) (data : DWord) : Bool :=
  decide (Reg.prctl 0 ≤ off ∧ off < Reg.prctl 4) && (data.toNat % 16 == 0 || decide (9 ≤ data.toNat % 16))

/-- The virtual functions whose interfaces hold the register at `off` frozen (R357). -/
def State.frozenBy (s : State) (off : Nat) : List (BitVec 8) :=
  let one := fun (v : Nat) => if s.tdi (BitVec.ofNat 8 v) = 0 then [] else [BitVec.ofNat 8 v]
  let all := fun (p : Nat) => allVfs.filter (fun v => s.tdi v != 0 && s.vfBound v && s.vfPart v == p)
  if Reg.vfroot 0 ≤ off ∧ off < Reg.vfroot 256 then one ((off - Reg.vfroot 0) / 8)
  else if Reg.vfpart 0 ≤ off ∧ off < Reg.vfpart 256 then one ((off - Reg.vfpart 0) / 8)
  else if Reg.cmtbase 0 ≤ off ∧ off < Reg.cmtbase 20 then all ((off - Reg.cmtbase 0) / 8)
  else if Reg.fgranta 0 ≤ off ∧ off < Reg.fgranta 1024 then
    let k := (s.rd (off / 16 * 16)).toNat / 16 % 256
    let o := s.rd (Reg.keyown k)
    if o.getLsbD 5 then all (o.toNat % 32) else []
  else []

/-! ## MSI-X (R348; log 16) -/

/-- Unmasked vectors that are pending are sent. -/
def State.sendPending (s : State) (f : Option (BitVec 8)) (v : Nat) : State :=
  match f with
  | none =>
    let p := s.rd Reg.msixPend
    if p.getLsbD v && !(s.rd (Reg.msix + 16 * v + 8)).getLsbD 32 then
      (s.wr Reg.msixPend (p &&& ~~~(BitVec.twoPow 64 v))).raise none v
    else s
  | some n =>
    let p := s.vrd n Reg.vmsixPend
    if p.getLsbD v && !(s.vrd n (Reg.vmsix + 16 * v + 8)).getLsbD 32 then
      (s.vwr n Reg.vmsixPend (p &&& ~~~(BitVec.twoPow 64 v))).raise (some n) v
    else s

/-- The upper half of a table entry after a write: whole, or of its vector control word alone. -/
def msixUpper (old data : DWord) (ctl : Bool) : DWord :=
  if ctl then (old &&& 0xFFFFFFFF) ||| ((data &&& 1) <<< 32) else data &&& 0x1FFFFFFFF

/-- A write to an MSI-X table at byte `o` of it. -/
def State.writeMsix (s : State) (f : Option (BitVec 8)) (o : Nat) (data : DWord) : State :=
  let put := fun (s : State) (k : Nat) (g : DWord → DWord) => match f with
    | none => s.wr (Reg.msix + k) (g (s.rd (Reg.msix + k)))
    | some n => s.vwr n (Reg.vmsix + k) (g (s.vrd n (Reg.vmsix + k)))
  let s1 := if o % 16 = 0 then put s o (fun _ => data)
    else if o % 16 = 8 then put s o (fun d => msixUpper d data false)
    else if o % 16 = 12 then put s (o - 4) (fun d => msixUpper d data true) else s
  s1.sendPending f (o / 16)

/-! ## Generations (R293, R412) -/

/-- Change every warp of a virtual function. -/
def State.mapWarps (s : State) (vf : BitVec 8) (f : Warp → Warp) : State :=
  { s with wgs := s.wgs.map (fun e => if e.2.vf = vf then (e.1, { e.2 with warps := e.2.warps.map f }) else e) }

/-- A generation bump: the generation advances, `busy` is set, TLB entries and kept blocks of the virtual function go. -/
def State.bump (s : State) (vf : BitVec 8) : State :=
  if s.genBusy vf then s
  else
    let s1 := s.wr (Reg.vfgen vf.toNat) (((s.gen vf + 1).setWidth 64) ||| 0x10000)
    (s1.tlbClear vf).mapWarps vf (fun w => { w with kept := [] })

/-- Is a release of the virtual function in flight that was decided under an older generation? -/
def State.oldRelease (s : State) (vf : BitVec 8) : Bool :=
  s.wgs.any (fun e => e.2.vf == vf && e.2.warps.any (fun w => w.items.any (fun i =>
    i.sent && i.stage == .held && genOlder i.gen (s.gen vf))))

/-- `busy` clears; warps that wait for it go on (R417). -/
def State.bumpDone (s : State) (vf : BitVec 8) : State :=
  let s1 := s.wr (Reg.vfgen vf.toNat) ((s.gen vf).setWidth 64)
  (s1.wgs.filter (fun e => e.2.vf == vf && !e.2.frozen)).foldl (fun s e =>
    (List.range e.2.warps.length).foldl (fun s w => (s.pollGen e.1 w).atWarp ⟨e.1, w⟩ (fun c =>
      c.onL (fun l => { l with w := l.w.converge }))) s) s1

/-- VFGEN_WRITE (R293): any value advances the generation; while `busy`, the write is ignored. -/
def execVfgenWrite (vf : BitVec 8) (s : State) : Out := .next (s.bump vf)

/-- GENERATION_BUMP_COMPLETE (R293, R412). -/
def execGenerationBumpComplete (vf : BitVec 8) (s : State) : Out :=
  .next (if !s.genBusy vf || s.oldRelease vf then s else s.bumpDone vf)

/-! ## The node number, the quarantine list, signature injection -/

/-- Change `st` of a fabric port; `down` is set when it leaves the up state (R457). -/
def State.setPort (s : State) (k st : Nat) : State :=
  let v := s.rd (Reg.fpstat k)
  s.wr (Reg.fpstat k) ((v &&& ~~~3) ||| BitVec.ofNat 64 st ||| (if v.toNat % 4 = 2 ∧ st ≠ 2 then 4 else 0))

/-- A write of `FNODE` (R359, R377): a node number lets the ports that are down train, 0 keeps every port down. A failed port
stays failed (R455). -/
def State.writeNode (s : State) (data : DWord) : State :=
  let n := data &&& 0xFFF
  (List.range 12).foldl (fun s k =>
    if s.portSt k = 3 then s
    else if n = 0 then s.setPort k 0
    else if s.portSt k = 0 then s.setPort k 1 else s) (s.wr Reg.fnode n)

/-- A write of a quarantine entry: 1 in `v` releases the page (R429). -/
def State.freeQuar (s : State) (ctl entry : Nat) (data : DWord) : State :=
  if ctl < 16 ∧ data.getLsbD 63 then s.setCtl ctl { s.ctl ctl with quar := Tabs.del (s.ctl ctl).quar entry } else s

/-- A write of `PRX`: ignored while an injection is armed (R498). -/
def State.arm (s : State) (die : Nat) (data : DWord) : State :=
  if (s.rd (Reg.prx die)).getLsbD 17 ∨ 4 ≤ die then s else s.wr (Reg.prx die) (data &&& 0x3FFFF)

/-- FNODE_WRITE (R377). -/
def execFnodeWrite (data : DWord) (s : State) : Out := .next (s.ifUp (s.writeNode data))

/-- MCQ_RELEASE (R429). -/
def execMcqRelease (ctl entry : Nat) (data : DWord) (s : State) : Out := .next (s.ifUp (s.freeQuar ctl entry data))

/-- PRX_WRITE (R498). -/
def execPrxWrite (die : Nat) (data : DWord) (s : State) : Out := .next (s.ifUp (s.arm die data))

/-! ## Writes -/

/-- A write of `MBCTL` of channel `ch` (R349, R350): while `go` reads 1, writes to it are ignored. -/
def State.writeChannel (s : State) (ch : Nat) (data : DWord) : State :=
  let old := s.rd (Reg.mbox ch)
  let v := accessed old data (bitsAt 32 16) 2
  if data.getLsbD 0 && !old.getLsbD 0 then { s.wr (Reg.mbox ch) (v ||| 1) with chans := s.chans ++ [ch] }
  else s.wr (Reg.mbox ch) v

/-- A write to the physical function's BAR0. -/
def State.writePf (s : State) (off : Nat) (data : DWord) : State :=
  if Reg.msix ≤ off ∧ off < Reg.msix + 256 then s.writeMsix none (off - Reg.msix) data
  else if off % 8 ≠ 0 then s
  else if !(s.frozenBy off).isEmpty then (s.frozenBy off).foldl (fun s v => s.interfaceError v 3 off) s
  else if off = Reg.fnode then s.writeNode data
  else if Reg.vfgen 0 ≤ off ∧ off < Reg.vfgen 256 then s.bump (BitVec.ofNat 8 ((off - Reg.vfgen 0) / 8))
  else if Reg.prx 0 ≤ off ∧ off < Reg.prx 4 then s.arm ((off - Reg.prx 0) / 8) data
  else if Reg.mcerr 0 ≤ off ∧ off < Reg.mcerr 16 then
    let c := (off - Reg.mcerr 0) / 8
    let k := s.ctl c
    s.setCtl c { k with qnew := k.qnew && !data.getLsbD 20, ovf := k.ovf && !data.getLsbD 21 }
  else if Reg.mcq 0 0 ≤ off ∧ off < Reg.mcq 16 0 then s.freeQuar ((off - Reg.mcq 0 0) / 256) (off % 256 / 8) data
  else if Reg.mbox 0 ≤ off ∧ off < Reg.mbox 8 then
    let ch := (off - Reg.mbox 0) / 1024
    if off % 1024 = 0 then s.writeChannel ch data
    else if 0x100 ≤ off % 1024 ∧ off % 1024 < 0x200 ∧ !s.busyCh ch then s.wr off data else s
  else if Reg.vmctl 0 ≤ off ∧ off < Reg.vmctl 256 then
    let v := BitVec.ofNat 8 ((off - Reg.vmctl 0) / 1024)
    if off % 1024 = 0 then s.vmctlWrite v data
    else if 0x200 ≤ off % 1024 ∧ off % 1024 < 0x300 then s.vwr v (Reg.vmbox + off % 1024) data else s
  else match regBlocks.find? (fun b => b.has off) with
    | none => s
    | some b =>
      if slackIgnored off data then s
      else
        let s1 := s.wr off (accessed (s.rd off) data b.rw b.w1c)
        if Reg.xltx 0 ≤ off ∧ off < Reg.xltx 4 ∧ off % 32 = Reg.xltx 0 % 32 then s1.tlbOff ((off - Reg.xltx 0) / 32) else s1

/-- A write to virtual function `v`'s BAR0 (R459): without the TEE attribute, or to a frozen item, in locked or run, it is
ignored and the interface moves to error; in error the frozen items stay frozen. -/
def State.writeVf (s : State) (v : BitVec 8) (off : Nat) (tee : Bool) (data : DWord) : State :=
  let table := decide (Reg.vmsix ≤ off ∧ off < Reg.vmsix + 64)
  let item := off == Reg.srbase || (table && off % 16 != 12)
  if s.tdiLive v && !tee then s.interfaceError v 2 off
  else if item && s.tdi v != 0 then s.interfaceError v 1 off
  else if table then s.writeMsix (some v) (off - Reg.vmsix) data
  else if off = Reg.srbase then s.vwr v off (accessed 0 data (bitsAt 10 54 + 15) 0)
  else if off = Reg.sridx then s.vwr v off (accessed (s.vrd v off) data (bitsAt 32 32) 0)
  else if off = Reg.srdb then s.srdbWrite v data tee
  else if off = Reg.vmbox then s.vfSubmit v data tee
  else if Reg.vmbox + 0x100 ≤ off ∧ off < Reg.vmbox + 0x200 ∧ off % 8 = 0 ∧ !(s.vrd v Reg.vmbox).getLsbD 0 then s.vwr v off data
  else s

/-- REGISTER_WRITE (R7): a write to a register, by its access codes; the registers with behaviour of their own act as their own
events do. -/
def execRegisterWrite (r : RegRef) (data : DWord) (s : State) : Out :=
  .next (s.ifUp (match r.vf with
    | none => s.writePf r.off data
    | some v => s.writeVf v r.off r.tee data))

end Sys2Proof.Machine
end

