-- ==== Sys2Proof/Machine/Routes.lean ====
section
/-! DEFINITION. The on-chip network (R11 to R14, R364 to R366) and the recomputation of its routes (R463). Package sites are
numbered 72 die + 8 y + x; the link east of site p is number 2p, the link south of it 2p + 1, bridge b is number 576 + b
(log 48). -/

namespace Sys2Proof.Machine

/-! ## Sites (R12 to R14, R16) -/

/-- Is the router of a site a full router, at a core site? -/
def fullRouter (p : Nat) : Bool := (p % 8 + p % 72 / 8) % 2 == 0

/-- Package site of a logical core. -/
def coreSite (c : Nat) : Nat :=
  let off := (Config.kilnOff (c / 32)).val
  let y := let k := c % 32 / 4; if k < off then k else k + 1
  72 * (c / 32) + 8 * y + 2 * (c % 4) + y % 2

/-- Package site of a logical slice. -/
def sliceSite (k : Nat) : Nat :=
  let i := (sliceSites (k / 32)).getD (k % 32) 0
  let y := i / 4
  72 * (k / 32) + 8 * y + 2 * (i % 4) + (1 - y % 2)

/-! ## Links -/

/-- The die bridges, by the package sites that they join (R11, R364): full routers on the facing edges of dies 0 and 1, 2 and
3, 0 and 2, 1 and 3. -/
def bridges : List (Nat × Nat) :=
  let across := fun (s : Bool) => ((Config.bridgesAcross s).1 :: (Config.bridgesAcross s).2).map (fun e =>
    (144 * s.toNat + 8 * (2 * e.1.val + 1) + 7, 144 * s.toNat + 72 + 8 * (2 * e.2.val)))
  let down := fun (e : Bool) => ((Config.bridgesDown e).1 :: (Config.bridgesDown e).2).map (fun b =>
    (72 * e.toNat + 64 + 2 * b.1.val, 144 + 72 * e.toNat + 2 * b.2.val))
  across false ++ across true ++ down false ++ down true

/-- The links at site `p` in the order north, east, south, west, bridge: direction 0 to 4, number, and the site it leads to. -/
def linksAt (p : Nat) : List (Nat × Nat × Nat) :=
  let x := p % 8
  let y := p % 72 / 8
  (if y = 0 then [] else [(0, 2 * (p - 8) + 1, p - 8)]) ++ (if x = 7 then [] else [(1, 2 * p, p + 1)]) ++
  (if y = 8 then [] else [(2, 2 * p + 1, p + 8)]) ++ (if x = 0 then [] else [(3, 2 * (p - 1), p - 1)]) ++
  bridges.zipIdx.flatMap (fun e =>
    if e.1.1 = p then [(4, 576 + e.2, e.1.2)] else if e.1.2 = p then [(4, 576 + e.2, e.1.1)] else [])

/-- The links at a site that are not marked down. -/
def liveAt (down : List Nat) (p : Nat) : List (Nat × Nat × Nat) := (linksAt p).filter (fun l => !down.contains l.2.1)

/-- Depths in the breadth-first tree from the full router at (0, 0) of die 0 (R365): `n` more layers from a frontier. -/
def depths (down : List Nat) : Nat → Nat → List Nat → Tab Nat → Tab Nat
  | 0, _, _, t => t
  | n + 1, k, frontier, t =>
    let next := ((frontier.flatMap (fun p => (liveAt down p).map (fun l => l.2.2))).filter (fun q => (Tabs.find? t q).isNone)).eraseDups
    depths down n (k + 1) next (next.foldl (fun t q => Tabs.put t q (k + 1)) t)

/-- Depth of every site that a link path reaches. -/
def depthTab (down : List Nat) : Tab Nat := depths down 288 0 [0] [(0, 0)]

/-- Does the link from `p` to `q` lead up: to the lower depth, ties to the lower site (R365)? -/
def leadsUp (t : Tab Nat) (p q : Nat) : Bool :=
  let a := Tabs.get t 288 p
  let b := Tabs.get t 288 q
  decide (b < a) || (a == b && decide (q < p))

/-! ## Legal routes (R365) -/

/-- The end of a partial route: the site, the direction of its last link, and whether it has gone down. -/
structure RouteEnd where
  site : Nat
  dir : Nat
  fell : Bool
deriving DecidableEq

/-- A partial route: its end, and the links it takes, as output directions and link numbers. -/
abbrev Route := RouteEnd × List (Nat × Nat)

/-- How a route goes on from a site with the given arrival, in the order of the output directions; a half router passes flits
straight on. -/
def goOn (down : List Nat) (t : Tab Nat) (site : Nat) (from_ : Option Route) : List Route :=
  (liveAt down site).filterMap (fun l =>
    let up := leadsUp t site l.2.2
    let ok := match from_ with
      | none => true
      | some e => (fullRouter site || e.1.dir == l.1) && !(e.1.fell && up)
    if ok then some (⟨l.2.2, l.1, !up⟩, (from_.elim [] Prod.snd) ++ [(l.1, l.2.1)]) else none)

/-- Of the routes with one end, the first. -/
def firstEach (l : List Route) : List Route := l.foldl (fun r e => if r.any (fun x => x.1 == e.1) then r else r ++ [e]) []

/-- The route from a source to each site (R365): `n` more layers from a frontier that lists, in the order of their output
directions, the least route to each of its ends. -/
def routeLayers (down : List Nat) (t : Tab Nat) : Nat → List Route → List RouteEnd → Tab (List (Nat × Nat)) → Tab (List (Nat × Nat))
  | 0, _, _, r => r
  | n + 1, frontier, seen, r =>
    let r1 := frontier.foldl (fun r e => if (Tabs.find? r e.1.site).isSome then r else Tabs.put r e.1.site e.2) r
    let next := firstEach ((frontier.flatMap (fun e => goOn down t e.1.site (some e))).filter (fun e => !seen.contains e.1))
    if next.isEmpty then r1 else routeLayers down t n next (seen ++ next.map Prod.fst) r1

/-- The route from `p` to every site it has one to: the shortest legal route, ties to the smallest sequence of output
directions (R365). -/
def routesFrom (down : List Nat) (t : Tab Nat) (p : Nat) : Tab (List (Nat × Nat)) :=
  let first := goOn down t p none
  routeLayers down t 2880 first (first.map Prod.fst) [(p, [])]

/-- The output table of the router at site `p`: by destination, the output direction and the link that its route takes first
(R365). -/
def State.outputTable (s : State) (p : Nat) : Tab (Nat × Nat) :=
  (routesFrom s.linksDown (depthTab s.linksDown) p).filterMap (fun e => e.2.head?.map (fun l => (e.1, l)))

/-- Ports that a route of `n` links passes: the output port of each link and the port at which it leaves (log 48). -/
def portsOf (n : Nat) : Nat := n + 1

/-- Does every route between the sites in `a` and those in `b`, both ways, exist and pass at most `k` ports? -/
def within (down : List Nat) (t : Tab Nat) (a b : List Nat) (k : Option Nat) : Bool :=
  let ok := fun (p q : Nat) => match Tabs.find? (routesFrom down t p) q with
    | none => false
    | some r => k.all (fun m => decide (portsOf r.length ≤ m))
  a.all (fun p => b.all (fun q => ok p q && ok q p))

/-- Slices and controllers of a die. -/
def slicesOf (d : Nat) : List Nat := (List.range 32).map (fun i => sliceSite (32 * d + i))
/-- Its four controllers. -/
def ctlsOf (d : Nat) : List Nat := (List.range 4).map (fun i => Config.ctlSite (4 * d + i))

/-- R366 over the links that are not down. -/
def routesAccepted (down : List Nat) : Bool :=
  let t := depthTab down
  within down t ((List.range 128).map coreSite) ((List.range 4).flatMap slicesOf) (some 26) &&
  (List.range 4).all (fun d => within down t (slicesOf d) (ctlsOf d) (some 8))

/-- Has core `c` a route to and from every slice? -/
def coreReached (down : List Nat) (c : Nat) : Bool := within down (depthTab down) [coreSite c] ((List.range 4).flatMap slicesOf) none

/-- Is a slice without a route to and from every core, or a controller without one to and from a slice of its die (R463)? -/
def networkDead (down : List Nat) : Bool :=
  let t := depthTab down
  ((List.range 4).flatMap slicesOf).any (fun k => (List.range 128).all (fun c => !within down t [coreSite c] [k] none)) ||
  (List.range 4).any (fun d => (ctlsOf d).any (fun m => !within down t (slicesOf d) [m] none))

/-! ## Recomputation (R463) -/

/-- LINK_DOWN_MARK (R463): a link is marked down, the Stoker holds issue, drains, and recomputes the routes. -/
def execLinkDownMark (link : Nat) (s : State) : Out :=
  .next (if s.linksDown.contains link || !s.up then s
    else
      let down := s.linksDown ++ [link]
      let v := s.rd Reg.rtstat
      let s1 : State := { s with linksDown := down }
      if networkDead down then (s1.wr Reg.rtstat (v ||| 0xA)).resetPartitions
      else
        let slow : DWord := if routesAccepted down then 0 else 4
        let s2 := s1.wr Reg.rtstat (((v &&& ~~~6) ||| slow ||| 2) + 0x100000000)
        let out := (List.range 128).filter (fun c => !s.lost.contains c && !coreReached down c)
        let s3 : State := { s2 with lost := s2.lost ++ out }
        ((s3.wgs.filter (fun e => out.contains e.2.core)).map fun e => (e.1, e.2.core)).foldl (fun s e => s.ownStop e.1 [e.2]) s3)

end Sys2Proof.Machine
end

