-- ==== Sys2Proof/Machine/Outside.lean ====
section
/-! DEFINITION. What comes from outside: the host's reads and writes of memory (R345), the host link (R454), the fabric ports
(R455 to R457), remote requests (R361, R362), telemetry (R376, R466, R483). -/

namespace Sys2Proof.Machine

/-! ## Host memory accesses (R345, R427) -/

/-- The craze mask of the words of `n` bytes at `a`. -/
def State.crazeMask (s : State) (a n : Nat) : Nat :=
  ((s.memWords 0 a n).zipIdx).foldl (fun m e => if e.1.tag then m + 2 ^ e.2 else m) 0

/-- HOST_MEM_READ (R345): through the home slice, under key slot 0; held bytes read as committed, a releasing line waits for
its settle; a poisoned sector, or a quarantined page (log 49), comes back with the poison indication, and its data is open. -/
def execHostMemRead (addr n : Nat) (s : State) : Out :=
  .next (if !s.up ∨ n = 0 ∨ 64 < addr % 64 + n ∨ memTop < addr + n ∨ s.releasingAny addr n then s
    else
      let (s1, bad) := s.readSectors addr n
      if bad.isSome || s.quarantined addr then
        let (s2, bs) := s1.freeBytes n
        { s2 with reads := s2.reads ++ [⟨addr, bs, 0, true, 0⟩] }
      else
        let bs := (List.range n).map (fun i => BitVec.ofNat 8 (s1.memNat 0 (addr + i) 1))
        { s1 with reads := s1.reads ++ [⟨addr, bs, s1.crazeMask addr n, false, 0⟩] })

/-- Is the byte part of a level-1 DCB that a locked interface freezes (R357)? -/
def State.frozenByte (s : State) (a : Nat) : Bool :=
  s.dcbs.any (fun d => decide (d ≤ a ∧ a < d + 128) && s.level d == 1 && s.dcbFrozen d)

/-- HOST_MEM_WRITE (R345): one write of at most 64 bytes, under key slot 0. An address of the host window stands for the host's
own memory (log 49); bytes of a frozen DCB keep their value (R357). -/
def execHostMemWrite (addr : Nat) (data : List Byte) (s : State) : Out :=
  let n := data.length
  .next (if n = 0 ∨ 64 < addr % 64 + n then s
    else if windowOf addr = 1 then
      { s with mem := s.mem.writeCells addr (data.zipIdx.map (fun e => ⟨e.2, e.1, none⟩)) }
    else if !s.up || memTop < addr + n || s.quarantined addr then s
    else s.memWrite 0 addr ((data.zipIdx.map (fun e => (⟨e.2, e.1, none⟩ : WCell))).filter (fun x => !s.frozenByte (addr + x.off))))

/-! ## The host link (R454) -/

/-- HOST_LINK_DOWN (R454): every interface in locked or run moves to error. -/
def execHostLinkDown (s : State) : Out :=
  .next (if !s.hostUp then s
    else
      let s1 := s.wr Reg.hlstat ((s.rd Reg.hlstat &&& ~~~1) ||| 2)
      allVfs.foldl (fun s v => s.interfaceError v 6 0) s1)

/-- HOST_LINK_UP (R377, R454): the link trains, after step 3 of bring-up. -/
def execHostLinkUp (s : State) : Out := .next (if s.up then s.wr Reg.hlstat (s.rd Reg.hlstat ||| 1) else s)

/-- Does the walk of `va` from the table at `t` read an entry in the host window? -/
def State.walksHost (s : State) (va : Nat) : List Level → Nat → Bool
  | [], _ => false
  | l :: ls, t =>
    let a := t + 8 * (va / 2 ^ l.shift % 2 ^ l.bits)
    let e := s.memNat 0 a 8
    windowOf a == 1 || (e.testBit 0 && !e.testBit 1 && !entryBad l e && s.walksHost va ls (entryPa e))

/-- HOST_COMPLETION_TIMEOUT (R454): a read of the host window by an outstanding access, or by its walk, gets no completion. -/
def execHostCompletionTimeout (w : WRef) (acc : Nat) (s : State) : Out :=
  onWarp s w (fun c => match c.l.w.accs.find? (fun a => a.id == acc && !a.performed) with
    | none => c
    | some a =>
      let hit := match a.stage with
        | .walk => c.s.walksHost a.va levels (field (c.s.rd (Reg.vfroot c.l.wg.vf.toNat)).toNat 21 31 * 2 ^ 21)
        | _ => !a.rmt && windowOf a.dpa == 1
      if hit then c.onL (fun l => l.faultAcc a 0x05) else c)

/-! ## Fabric ports (R455, R456) -/

/-- FLIT_REPLAY_EXHAUSTED (R455): after 8 replays the port retrains. -/
def execFlitReplayExhausted (port : Nat) (s : State) : Out :=
  .next (if 12 ≤ port ∨ s.portSt port ≠ 2 then s
    else
      let v := (s.rd (Reg.fpstat port)).toNat
      (s.wr (Reg.fpstat port) (BitVec.ofNat 64 (setField v 32 32 (min (v / 2 ^ 32 + 8) (2 ^ 32 - 1))))).setPort port 1)

/-- 100 ms (R21, R455). -/
def failWindow : Nat := 120000000

/-- PORT_RETRAIN_DONE (R455): the port is up, or has failed to retrain; three times within 100 ms make it failed. -/
def execPortRetrainDone (port : Nat) (ok : Bool) (s : State) : Out :=
  .next (if 12 ≤ port ∨ s.portSt port ≠ 1 then s
    else if ok then s.setPort port 2
    else
      let fs := (Tabs.get s.portFails [] port).filter (fun t => decide (s.clock ≤ t + failWindow)) ++ [s.clock]
      let s1 : State := { s with portFails := Tabs.put s.portFails port fs }
      if 3 ≤ fs.length then s1.setPort port 3 else s1)

/-- PORT_TAKEN_DOWN (R455): a port that the switch or the peer takes down retrains. -/
def execPortTakenDown (port : Nat) (s : State) : Out :=
  .next (if 12 ≤ port ∨ s.portSt port ≠ 2 then s else s.setPort port 1)

/-! ## Remote requests that do not complete (R457) -/

/-- FABRIC_E2E_TIMEOUT (R457): a load or push is settled as refused; a release completes here, and `lost` says so. -/
def execFabricE2eTimeout (w : WRef) (acc : Nat) (s : State) : Out :=
  onWarp s w (fun c =>
    match c.l.w.accs.find? (fun a => a.id == acc && a.stage == .home && a.rmt), c.l.w.items.find? (fun i => i.id == acc && i.rmt) with
    | some a, _ => c.onL (fun l => l.faultAcc a 0x05)
    | none, some i =>
      match i.stage with
      | .sagger => if c.l.leader.isSome then c else c.land i 0x05
      | .deferred => c.land i 0x05
      | .held => if i.sent && c.l.w.mayRelease i.tag then
          ({ c with s := c.s.lostRelease i.dpa } : Ctx).onL (fun l => l.setItem { i with stage := .released }) else c
      | _ => c
    | none, none => c)

/-- PEER_UNREACHABLE_TIMEOUT (R457): the held entries of a node unreachable for 10 ms go. -/
def execPeerUnreachableTimeout (peer : Nat) (s : State) : Out :=
  .next { s with remote := s.remote.filter (fun r => r.src != peer), releasing := s.releasing.filter (fun r => r.src != some peer) }

/-! ## Requests of remote nodes (R361, R362, R456) -/

/-- A remote request (log 47). -/
structure RemReq where
  /-- 0 load, 1 held store, 2 held reduction, 3 release of a line, 4 discard of a line, 5 settle of a line. -/
  kind : Nat
  /-- The item belongs to an implicit region. -/
  implicit : Bool
  op : Nat
  src : Nat
  dst : Nat
  n : Nat
  seq : Nat
  tag : Nat
  addr : Nat
  /-- Byte mask and craze mask. -/
  bytes : Nat
  crazes : Nat
  data : List Byte

/-- The bytes of a request. -/
def RemReq.of (bs : List Byte) : RemReq :=
  let f := fun (o n : Nat) => leNat ((bs.drop o).take n)
  { kind := f 0 1 % 128, implicit := 128 ≤ f 0 1, op := f 1 1, src := f 2 2, dst := f 4 2, n := f 6 2, seq := f 8 8, tag := f 16 8
    addr := f 24 8, bytes := f 32 16, crazes := f 48 8, data := bs.drop 56 }

/-- Is it a sound request for this node? -/
def RemReq.sound (q : RemReq) (node : Nat) : Bool :=
  decide (q.kind < 6) && decide (1 ≤ q.n) && decide (q.addr % 128 + q.n ≤ 128) && q.dst == node && decide (q.addr < 2 ^ 39) &&
  (q.kind != 2 || q.n == 4 || q.n == 8)

/-- The grant that applies (R362): the key slot, if it permits the access. -/
def State.grant (s : State) (q : RemReq) : Option Nat :=
  let g := (List.range 1024).find? (fun g =>
    let a := (s.rd (Reg.fgranta g)).toNat
    let base := a / 2 ^ 12 % 2 ^ 40 * 4096
    a % 2 == 1 && a / 2 ^ 52 == q.src && decide (base ≤ q.addr ∧ q.addr < base + (s.rd (Reg.fgrantb g)).toNat % 2 ^ 29 * 4096))
  match g with
  | none => none
  | some g =>
    let a := (s.rd (Reg.fgranta g)).toNat
    if a.testBit (if q.kind = 0 then 1 else if q.kind = 1 then 2 else 3) && decide (q.addr + q.n ≤ memTop) then some (a / 16 % 256) else none

/-- Held bytes of open regions, local ones and those of other remote regions, that meet `n` bytes at `a`. -/
def State.remRaces (s : State) (q : RemReq) (bytes : List Nat) : Bool :=
  (s.warpHeld ⟨s.nextWg, 0⟩ none false ++ s.remHeld (fun r => !(r.src == q.src && r.tag == q.tag))).any (fun i =>
    bytes.any (fun o => i.meets (q.addr + o) 1))

/-- The item a push holds. -/
def RemReq.item (q : RemReq) (key : Nat) (crz : Option Word) : Item :=
  let word := fun (i : Nat) => ((q.addr + i) / 4 - q.addr / 4)
  let pay := fun (i : Nat) => BitVec.ofNat 32 (leNat ((q.data.drop (word i * 4 - q.addr % 4)).take 4))
  let at_ := fun (i : Nat) => match crz with
    | some p => some p
    | none => if q.crazes.testBit (word i) then some (pay i) else none
  { id := q.seq, tag := q.tag, po := q.seq, thread := 0
    kind := if q.kind = 1 then .store else .red q.op q.n (BitVec.ofNat 64 (leNat (q.data.take q.n))) (at_ 0)
    cells := if q.kind = 1 then ((List.range q.n).filter (fun i => q.bytes.testBit i)).map (fun i =>
      (⟨i, (q.data[i]?).getD 0, at_ i⟩ : WCell)) else []
    va := q.addr, n := q.n, pc := 0, stage := .held, dpa := q.addr, gen := 0, key := BitVec.ofNat 8 key, rmt := false, copy := false
    bad := false, sent := false, issued := 0, named := 0 }

/-- Answer a remote request. -/
def State.replyTo (s : State) (q : RemReq) (data : List Byte) (mask verdict : Nat) : State :=
  { s with reads := s.reads ++ [⟨q.addr, data, mask, false, verdict⟩] }

/-- A load of a remote node: steps 7 to 9 of R420, without a colour. -/
def State.remLoad (s : State) (q : RemReq) (key : Nat) : State :=
  if s.quarantined q.addr then s.replyTo q [] 0 0x0B
  else if s.remRaces q (List.range q.n) then s.replyTo q [] 0 0x0C
  else match s.readSectors q.addr q.n with
    | (s, some k) => s.replyTo q [] 0 k
    | (s, none) =>
      let ws := s.memWords key q.addr q.n
      s.replyTo q ((List.range q.n).map (fun i => BitVec.ofNat 8 (s.memNat key (q.addr + i) 1)))
        (ws.zipIdx.foldl (fun m e => if e.1.tag then m + 2 ^ e.2 else m) 0) 0

/-- A push of a remote node: it becomes a held entry of the home slice, whose quarantine and race verdicts it takes. -/
def State.remPush (s : State) (q : RemReq) (key : Nat) : State :=
  let hold := fun (s : State) (i : Item) => ({ s with remote := s.remote ++ [(⟨q.src, q.tag, !q.implicit, i⟩ : RemItem)] } : State)
  if s.quarantined q.addr then s.replyTo q [] 0 0x0B
  else if s.remRaces q (q.item key none).offsets then
    -- the record, and with it origin and index of the payload, are the node's own (R386)
    let x := (Config.freeValue s.freeCtr).toNat
    (hold { s with freeCtr := s.freeCtr + 1 } (q.item key (some (payload 0x0C (x / 512) x)))).replyTo q [] 0 0x0C
  else (hold s (q.item key none)).replyTo q [] 0 0

/-- The items of a request's region in its line. -/
def RemReq.mine (q : RemReq) (r : RemItem) : Bool := r.src == q.src && r.tag == q.tag && r.item.dpa / 128 == q.addr / 128

/-- Apply a request whose number is the next one of its source. -/
def State.remApply (s : State) (port : Nat) (q : RemReq) : State :=
  match q.kind with
  | 3 =>
    let its := (s.remote.filter q.mine).map RemItem.item
    { s.applyItems its with
      remote := s.remote.filter (fun r => !q.mine r)
      releasing := s.releasing ++ (its.flatMap Item.lines).eraseDups.map (fun x => (⟨x, 0, 0, q.tag, some q.src⟩ : RelLine)) }
  | 5 => { s with releasing := s.releasing.filter (fun r => !(r.src == some q.src && r.tag == q.tag && r.line == q.addr / 128)) }
  | 4 => { s with remote := s.remote.filter (fun r => !q.mine r) }
  | k => match s.grant q with
    | none =>
      let v := s.rd (Reg.fpstat port)
      (if v.toNat / 65536 % 65536 = 65535 then s else s.wr (Reg.fpstat port) (v + 65536)).replyTo q [] 0 0x05
    | some key => if k = 0 then s.remLoad q key else s.remPush q key

/-- Must the request wait: for a settle of its line, or for a held entry (R300, R302)? -/
def State.remWaits (s : State) (q : RemReq) : Bool :=
  (decide (q.kind < 4) && s.releasingAny q.addr q.n) || ((q.kind == 1 || q.kind == 2) && decide (2048 ≤ s.heldEntries (sliceOf q.addr)))

/-- REMOTE_REQUEST (R361, R362, R456): a request of a remote node arrives at a port. The numbers of a source are applied once, in
order. -/
def execRemoteRequest (port : Nat) (data : List Byte) (s : State) : Out :=
  let q := RemReq.of data
  .next (if 12 ≤ port ∨ s.portSt port ≠ 2 || !q.sound (s.rd Reg.fnode).toNat then s
    else if q.seq ≠ Tabs.get s.remSeq 0 q.src || s.remWaits q then s
    else { s.remApply port q with remSeq := Tabs.put s.remSeq q.src (q.seq + 1) })

/-! ## Telemetry (R376, R466, R483) -/

/-- Power of the package in units of 0.1 W. -/
def State.power (s : State) : Nat := ((List.range 4).map (fun d => (s.rd (Reg.tlm d)).toNat / 2 ^ 48)).sum

/-- TELEMETRY_SAMPLE (R376, R466): power and temperature of a die. A round of samples ends with die 3 (log 50). -/
def execTelemetrySample (die : Nat) (sample : DWord) (s : State) : Out :=
  .next (if 4 ≤ die then s
    else
      let old := s.rd (Reg.tlm die)
      let t := sample.toNat / 2 ^ 36 % 4096
      let s1 := s.wr (Reg.tlm die) ((sample &&& 0xFFFFFFF000000000) ||| (old &&& 0xFFFF0000) ||| BitVec.ofNat 64 ((old.toNat + 1) % 65536))
      let s2 := if 800 ≤ t then s1.raise none 9 else s1
      let s3 : State := if die ≠ 3 then s2 else { s2 with hot := if 18000 < s2.power then s2.hot + 1 else 0 }
      let s4 := if die = 3 ∧ s3.hot = 10 then s3.raise none 9 else s3
      if 880 ≤ t then { s4.resetPartitions with powerOff := true } else s4)

/-- AGEING_READ (R483): the predicted life of a die is a free value; when it first falls below 180 days, the error vector. -/
def execAgeingRead (die : Nat) (s : State) : Out :=
  .next (if 4 ≤ die then s
    else
      let n := (Config.freeValue s.freeCtr).toNat % 65536
      let s1 : State := { s.wr (Reg.tlm die) ((s.rd (Reg.tlm die) &&& ~~~0xFFFF0000) ||| BitVec.ofNat 64 (n * 65536)) with freeCtr := s.freeCtr + 1 }
      if n < 180 ∧ !s.aged.contains die then { s1 with aged := s1.aged ++ [die] }.raise none 9 else s1)

end Sys2Proof.Machine
end

