-- ==== Sys2Proof/Machine/Trust.lean ====
section
/-! DEFINITION. Trusted interfaces (R356, R358) and the SPDM responder of the security controller (R367, R369). -/

namespace Sys2Proof.Machine

/-! ## Interfaces (R356, R358) -/

/-- Does a SPDM secure session stand, in which TDISP messages travel (R356, R367)? -/
def State.secure (s : State) : Bool := s.spdm.stage == 5

/-- LOCK_INTERFACE_REQUEST (R356): a bound, unlocked interface is locked. -/
def execLockInterfaceRequest (vf : BitVec 8) (_data : List Byte) (s : State) : Out :=
  .next (if s.secure ∧ s.tdi vf = 0 ∧ s.vfBound vf then s.setTdi vf 1 else s)

/-- START_INTERFACE_REQUEST (R356): a locked interface runs. -/
def execStartInterfaceRequest (vf : BitVec 8) (_data : List Byte) (s : State) : Out :=
  .next (if s.secure ∧ s.tdi vf = 1 then s.setTdi vf 2 else s)

/-- STOP_INTERFACE_REQUEST (R356, R458): the interface is unlocked once no workgroup of it is resident. -/
def execStopInterfaceRequest (vf : BitVec 8) (s : State) : Out :=
  .next (if !s.secure ∨ s.tdi vf = 0 ∨ s.tdiStops.contains vf then s else { s with tdiStops := s.tdiStops ++ [vf] }.checkTdi)

/-- The device-specific part of the interface report (R358): 112 bytes. -/
def State.interfaceReport (s : State) (vf : BitVec 8) : List Byte :=
  let p := s.vfPart vf
  leBytes 2 vf.toNat ++ leBytes 1 p ++ leBytes 5 0 ++
  leBytes 32 ((List.range 256).foldl (fun m k => if s.ownsKey p k then m + 2 ^ k else m) 0) ++
  leBytes 8 (s.rd (Reg.vfroot vf.toNat)).toNat ++ s.pmeas p

/-- INTERFACE_REPORT (R358): one MMIO range, BAR0 of the virtual function, of 64 KiB, and the device-specific part. -/
def execInterfaceReport (vf : BitVec 8) (s : State) : Out :=
  .next (if s.secure then { s with reports := s.reports ++ [⟨[(vf, 65536)], s.interfaceReport vf⟩] } else s)

/-! ## SPDM (R367, R369) -/

/-- Measurement `k` (R369): 64 bytes, none where the index is unassigned. -/
def State.measurement (s : State) (k : Nat) : List Byte :=
  if 1 ≤ k ∧ k ≤ 4 then (List.range 64).map (Config.measurement k)
  else if k = 5 then (List.range 64).map (Config.routeDigest s.linksDown)
  else if 16 ≤ k ∧ k ≤ 35 then s.pmeas (k - 16) else []

/-- All measurements, in order of their indices. -/
def State.measurements (s : State) : List Byte := (List.range 36).flatMap s.measurement

/-- The responder answers message `code`: with the response to it where the connection has come at least to stage `need` and the
responder accepts it, with an error (code 9) otherwise. The response depends on the messages so far and on the measurements
(log 9). -/
def State.spdmAnswer (s : State) (code need stage : Nat) (first : Bool) (msg : List Byte) : State :=
  let x := s.spdm
  let t := (if first then [] else x.transcript) ++ msg
  if need ≤ x.stage ∧ Config.spdmAccepts code t then
    let all := t ++ s.measurements
    let r := (List.range (Config.spdmLength code all)).map (Config.spdmByte code all)
    { s with spdm := ⟨t ++ r, if first then stage else max x.stage stage, x.out ++ [r]⟩ }
  else
    let r := (List.range (Config.spdmLength 9 t)).map (Config.spdmByte 9 t)
    { s with spdm := { x with out := x.out ++ [r] } }

/-- GET_VERSION (R367): a new connection. -/
def execGetVersion (msg : List Byte) (s : State) : Out := .next (s.spdmAnswer 0 0 1 true msg)
/-- GET_CAPABILITIES (R367). -/
def execGetCapabilities (msg : List Byte) (s : State) : Out := .next (s.spdmAnswer 1 1 2 false msg)
/-- NEGOTIATE_ALGORITHMS (R367). -/
def execNegotiateAlgorithms (msg : List Byte) (s : State) : Out := .next (s.spdmAnswer 2 2 3 false msg)
/-- GET_DIGESTS (R367). -/
def execGetDigests (msg : List Byte) (s : State) : Out := .next (s.spdmAnswer 3 3 3 false msg)
/-- GET_CERTIFICATE (R367). -/
def execGetCertificate (msg : List Byte) (s : State) : Out := .next (s.spdmAnswer 4 3 3 false msg)
/-- CHALLENGE (R367). -/
def execChallenge (msg : List Byte) (s : State) : Out := .next (s.spdmAnswer 5 3 3 false msg)
/-- GET_MEASUREMENTS (R367, R369). -/
def execGetMeasurements (msg : List Byte) (s : State) : Out := .next (s.spdmAnswer 6 3 3 false msg)
/-- KEY_EXCHANGE (R367). -/
def execKeyExchange (msg : List Byte) (s : State) : Out := .next (s.spdmAnswer 7 3 4 false msg)
/-- FINISH (R367). -/
def execFinish (msg : List Byte) (s : State) : Out := .next (s.spdmAnswer 8 4 5 false msg)

end Sys2Proof.Machine
end

