-- ==== Sys2Proof/Machine/Resets.lean ====
section
/-! DEFINITION. The reset levels (R467), bring-up (R315, R377), and errors that strike stored data (R250, R426, R427). -/

namespace Sys2Proof.Machine

/-! ## Function-level resets (R458, R467) -/

/-- The registers of a virtual function that a reset of it clears: the mailbox control, the service ring, MSI-X. -/
def vfCleared (off : Nat) : Bool :=
  off == Reg.vmbox || off == Reg.srbase || off == Reg.sridx || decide (Reg.vmsix ≤ off ∧ off < Reg.vmsix + 64) || off == Reg.vmsixPend

/-- A function-level reset of virtual function `v`: an interface in locked or run moves to error, the subtree is reset, the
mailbox is cancelled, the service ring and MSI-X read their reset values. -/
def State.resetVf (s : State) (v : BitVec 8) : State :=
  let s1 := s.interfaceError v 5 0
  let s2 : State := { s1 with errs := s1.errs.filter (· != v) }
  let s3 := match s2.vfDcb v.toNat with
    | some d => s2.forcedReset d (s2.effMode d)
    | none => s2
  let s4 := s3.wr (Reg.vmctl v.toNat) (s3.rd (Reg.vmctl v.toNat) &&& ~~~1)
  { s4 with vfr := s4.vfr.filter (fun e => e.1 / 65536 != v.toNat || !vfCleared (e.1 % 65536)) }

/-- VF_FUNCTION_LEVEL_RESET (R467, level 1). -/
def execVfFunctionLevelReset (vf : BitVec 8) (s : State) : Out := .next (s.resetVf vf)

/-- The registers of the physical function after its reset: the route status, the cone sweep status, the trained host link and
failed ports stay, as what they tell of does (R455, R467, R470; log 51). -/
def resetPf (pf : Tab DWord) : Tab DWord :=
  pf.filterMap (fun e =>
    if e.1 = Reg.rtstat ∨ (Reg.csst 0 ≤ e.1 ∧ e.1 < Reg.csst 128) then some e
    else if e.1 = Reg.hlstat then (if e.2.getLsbD 0 then some (e.1, 1) else none)
    else if Reg.fpstat 0 ≤ e.1 ∧ e.1 < Reg.fpstat 12 then (if e.2.toNat % 4 = 3 then some (e.1, 3) else none)
    else none)

/-- PF_FUNCTION_LEVEL_RESET (R467, level 2): level 1 for every virtual function, every partition reset, key slots 1 to 255
erased, the registers of the physical function to reset. -/
def execPfFunctionLevelReset (s : State) : Out :=
  let s1 := (allVfs.foldl State.resetVf s).resetPartitions
  .next { s1 with
    pf := resetPf s1.pf
    chans := [], glazes := [], stops := s1.stops.map (fun q => { q with ch := none })
    keyEpoch := (List.range 255).foldl (fun t k => Tabs.put t (k + 1) (Tabs.get t 0 (k + 1) + 1)) s1.keyEpoch
    ctls := s1.ctls.map (fun c => { c with quar := [], corr := 0, qnew := false, ovf := false }) }

/-! ## Package reset (R315, R355, R365, R377) -/

/-- Address of the device DCB: 128-aligned, in addressable memory (log 46). -/
def deviceAt : Nat := 128 * (Config.deviceDcb % 2684354559 + 1)

/-- The device DCB's bytes (R315). -/
def deviceBytes : List Byte :=
  leBytes 28 0 ++ leBytes 1 15 ++ leBytes 11 0 ++ leBytes 8 (2 ^ 64 - 1) ++ leBytes 8 163840 ++ leBytes 2 512 ++
  leBytes 2 0 ++ leBytes 4 262144 ++ leBytes 64 0

/-- The machine after bring-up (R377). Step 1: a firmware image without a valid signature never runs, and nothing follows (log 5).
Step 2: memory is trained and key slots take new keys, so that what stood in memory reads back as bytes unrelated to it. Step 3:
links are tested and routes accepted. The model's own agenda and counter go on. -/
def State.bringUp (s : State) : State :=
  let s0 : State := { State.reset with
    agenda := s.agenda, freeCtr := s.freeCtr, mem := { s.mem with badL2 := [], watch := [] }, keyEpoch := s.keyEpoch }
  if !Config.firmwareSigned then s0
  else
    let s1 : State := { s0 with
      keyEpoch := (List.range 256).foldl (fun t k => Tabs.put t k (Tabs.get t 0 k + 1)) s.keyEpoch, linksDown := Config.failedLinks }
    let s2 := s1.memBytes 0 deviceAt deviceBytes
    if routesAccepted Config.failedLinks then
      { s2.wr Reg.rtstat 0x100000000 with up := true, dcbs := [deviceAt], upAt := 0 }
    else { s2 with dcbs := [deviceAt] }

/-- PACKAGE_RESET (R377, R467, level 3). -/
def execPackageReset (s : State) : Out := .next s.bringUp

/-- POWER_REMOVED (R467, level 4): as level 3. -/
def execPowerRemoved (s : State) : Out := .next s.bringUp

/-! ## Errors in stored data (R250, R426, R427) -/

/-- Change a thread. -/
def State.onThread (s : State) (wg warp thread : Nat) (f : Thread → Thread) : State :=
  match s.warp? ⟨wg, warp⟩ with
  | none => s
  | some (_, w) => if 32 ≤ thread then s else s.setWarp ⟨wg, warp⟩ (w.setTh thread (f (w.th thread)))

/-- The error strikes a word of a list. -/
def strike (l : List Nat) (k : Nat) : List Nat := if l.contains k then l else l ++ [k]

/-- UNCORRECTABLE_ERROR (R426): what is struck, by place (log 52). 0: register or latch (300, 301) `index % 512` of thread
`index / 512 % 32` of warp `index / 2^14 % 64` of workgroup `index / 2^20`; 1: scratchpad word `index % 2^20` of workgroup
`index / 2^20`; 2: accumulator word, likewise; 3: plane element: k, column, shadow or active plane, workgroup; 4: sagger item; 5:
held entry; 6: clean L2 sector; 7: dirty L2 sector; 8: dirty L2 sector at its eviction; 9: HBM sector; 10: a single bit of an HBM
sector, corrected and counted; 11: an accumulator element whose next result-exponent check fails (R250); others: a single bit,
corrected. -/
def execUncorrectableError (place index : Nat) (s : State) : Out :=
  let wg := index / 2 ^ 20
  let low := index % 2 ^ 20
  .next (match place with
    | 0 => s.onThread wg (low / 2 ^ 14) (low / 512 % 32) (fun t =>
        let r := low % 512
        let there := if r = 300 then t.l0.isSome else if r = 301 then t.l1.isSome else Nat.ble r 254
        if there then { t with bad := strike t.bad r } else t)
    | 1 => s.modWg wg (fun g => if 4 * low < g.scr.size then { g with scr := { g.scr with bad := strike g.scr.bad low } } else g)
    | 2 => s.modWg wg (fun g => if low < 1024 * g.info.accRows then { g with accBad := strike g.accBad low } else g)
    | 3 => s.modWg wg (fun g =>
        let sh := low.testBit 19
        let p := if sh then g.shadow else g.active
        let x := (sh, low / 2 ^ 12 % 32, low % 2 ^ 12)
        if p.valid && decide (low % 2 ^ 12 < p.k) && !g.planeBad.contains x then { g with planeBad := g.planeBad ++ [x] } else g)
    | 4 => s.modWg wg (fun g => { g with warps := g.warps.zipIdx.map (fun p =>
        if p.2 = low / 2 ^ 14 then { p.1 with items := p.1.items.map (fun i : Item => if i.id % 2 ^ 14 = low % 2 ^ 14 then { i with bad := true } else i) }
        else p.1) })
    | 7 => if 32 * index < memTop then { s with mem := { s.mem with badL2 := Tabs.set s.mem.badL2 false index true } } else s
    | 8 => if 32 * index < memTop then
        { s with mem := { s.mem with badL2 := Tabs.set s.mem.badL2 false index false } }.enterPoison index else s
    | 9 => if 32 * index < memTop then { s with mem := { s.mem with badHbm := Tabs.set s.mem.badHbm false index true } } else s
    | 10 => if 32 * index < memTop then
        let c := ctlOf (32 * index)
        s.setCtl c { s.ctl c with corr := min (2 ^ 32 - 1) ((s.ctl c).corr + 1) } else s
    | 11 => s.modWg wg (fun g => let x := (low / 1024, low % 1024)
        if g.suspect.contains x then g else { g with suspect := g.suspect ++ [x] })
    | _ => s)

end Sys2Proof.Machine
end

