-- ==== Sys2Proof/Machine/Glaze.lean ====
section
/-! DEFINITION. Glaze images (R371 to R375, R464): staging, the bisque gate (R473), the key service, sealing, signing, the drain,
and restoring. -/

namespace Sys2Proof.Machine

open Sys2Proof.Num

/-! ## Narrowed buffers (R372) -/

/-- The format of narrowed buffers: E4M3, single-NaN, subnormals kept, block 32. -/
def narrowFmt : Fmt := fmOf 0x01077408

/-- ⌊log₂|x|⌋ of a finite non-zero FP32 code (R250). -/
def expOf (c : Nat) : Option Int := match valueOf c fp32 with
  | .fin m e => some ((bitLen m.natAbs : Int) - 1 + e)
  | _ => none

/-- The scale of a block. -/
def blockScale (l : List Nat) : Nat :=
  match (l.filterMap expOf).foldl (fun (m : Option Int) e => match m with
    | none => some e
    | some x => some (max x e)) none with
  | none => 0x7F
  | some e => (max 0 (e + 120)).toNat

/-- The elements of a buffer, in blocks of 32, the last one padded with +0.0. -/
def blocksOf (bs : List Byte) : List (List Nat) :=
  let n := bs.length / 4
  (List.range ((n + 31) / 32)).map (fun b => (List.range 32).map (fun i => leNat ((bs.drop (4 * (32 * b + i))).take 4)))

/-- Narrow a buffer: its codes, then its scales. -/
def narrow (bs : List Byte) : List Byte :=
  let codes := (blocksOf bs).flatMap (fun l => l.map (fun x => BitVec.ofNat 8 (convert x fp32 narrowFmt rne 0x7F (blockScale l))))
  codes.take (bs.length / 4) ++ (blocksOf bs).map (fun l => BitVec.ofNat 8 (blockScale l))

/-- Restore a narrowed buffer of `len` bytes. -/
def widen (len : Nat) (ds : List Byte) : List Byte :=
  let n := len / 4
  (List.range n).flatMap (fun i =>
    leBytes 4 (convert ((ds[i]?).getD 0).toNat narrowFmt fp32 rne ((ds[n + i / 32]?).getD 0).toNat 0x7F))

/-! ## The image (R371, R372) -/

/-- A directory entry. -/
def GSec.entry (x : GSec) : List Byte := leBytes 1 x.kind ++ leBytes 7 0 ++ leBytes 8 x.va ++ leBytes 8 x.len ++ leBytes 8 x.data.length

/-- The payload before encryption. -/
def glazePlain (l : List GSec) : List Byte := padded (l.flatMap GSec.entry) ++ l.flatMap (fun x => padded x.data)

/-- The header: bytes 0x000 to 0x1FF. -/
def glazeHeader (kind part ctr plen pword : Nat) (meas : List Byte) (nsec : Nat) : List Byte :=
  leBytes 4 0x5334475A ++ leBytes 2 1 ++ leBytes 1 kind ++ leBytes 1 part ++ leBytes 8 ctr ++ leBytes 8 plen ++ leBytes 8 pword ++
  meas ++ (List.range 64).map Config.identityDigest ++ leBytes 8 ctr ++ leBytes 4 0 ++ leBytes 4 nsec ++ leBytes 336 0

/-- The image up to the end of the tag. -/
def glazeSealed (head plain : List Byte) (session ctr : Nat) : List Byte :=
  head ++ (List.range (plain.length + 16)).map (Config.sealByte session ctr head plain)

/-- The image with its signature, at the next multiple of 256. -/
def glazeSigned (x : List Byte) : List Byte := padded x ++ (List.range 4627).map (Config.signByte x) ++ List.replicate 237 0

/-! ## Reading a job's content -/

/-- Pages of `n` bytes at virtual address `va` of virtual function `v`: their number, address and key slot; an error names what
stops the walk: `none` where it waits. -/
def State.pagesOf (s : State) (v : BitVec 8) (va n : Nat) (need : Need) : State × Except (Option Nat) (List (Nat × Nat × Nat)) :=
  ((List.range ((va % 4096 + n + 4095) / 4096)).map (va / 4096 + ·)).foldl (fun r k => match r.2 with
    | .error _ => r
    | .ok l => match r.1.translate none v (4096 * k) need true with
      | (s, .ok a _ key rmt) => (s, if rmt then .error (some 0x05) else .ok (l ++ [(k, a, key.toNat)]))
      | (s, .fault c) => (s, .error (some c))
      | (s, .wait) => (s, .error none)) (s, .ok [])

/-- Device address and key slot of a virtual address in those pages. -/
def pageAt (l : List (Nat × Nat × Nat)) (va : Nat) : Nat × Nat :=
  match l.find? (fun e => e.1 == va / 4096) with
  | some (_, a, k) => (a + va % 4096, k)
  | none => (0, 0)

/-- Bytes through those pages. -/
def State.bytesVia (s : State) (l : List (Nat × Nat × Nat)) (va n : Nat) : List Byte :=
  (List.range n).map (fun i => let (a, k) := pageAt l (va + i); BitVec.ofNat 8 (s.memNat k a 1))

/-- The buffers of a checkpoint request: the entries of its directory, up to one whose length is 0 (log 43): kind, address,
length. -/
def State.dirEntries (s : State) (a : Nat) : Nat → List (Nat × Nat × Nat)
  | 0 => []
  | n + 1 =>
    if s.memNat 0 (a + 16) 8 = 0 then []
    else (s.memNat 0 a 1, s.memNat 0 (a + 8) 8, s.memNat 0 (a + 16) 8) :: s.dirEntries (a + 32) n

/-- The saved workgroups of a job in the order of its resume binds (R372). -/
def State.jobImages (s : State) (j : Nat) : List (Nat × Img) :=
  let bs := (s.binds.map Prod.snd ++ s.bindq.map Prod.snd).filter (fun b => b.resume && s.jobOf b.dcb == j)
  (bs.flatMap Bind.imgs).filterMap (fun a => (Tabs.find? s.images a).map (fun x => (a, x)))

/-- What reading the content gives. -/
inductive Content where
  /-- The sections, and the pages they were copied from. -/
  | ok (secs : List GSec) (pages : List Nat)
  | refused
  | waits

/-- The content of a `GLAZE_WRITE` (R372, R373). -/
def State.content (s : State) (kind j dir : Nat) : State × Content :=
  if kind = 1 then
    let xs := s.jobImages j
    if s.dcbState j ≠ 3 || xs.isEmpty || xs.any (fun e => e.2.mode != 2) then (s, .refused)
    else
      let k := s.imageKey (s.partOf j)
      (s, .ok (xs.map (fun e => ⟨2, e.2.g.info.index, e.2.size, (List.range e.2.size).map (fun i => BitVec.ofNat 8 (s.memNat k (e.1 + i) 1)), some e.2⟩))
        (xs.flatMap (fun e => (List.range ((e.2.size + 4095) / 4096)).map (fun i => e.1 / 4096 + i))))
  else if s.dcbState j ≠ 3 ∧ s.dcbState j ≠ 5 then (s, .refused)
  else
    (s.dirEntries dir 65536).foldl (fun r e => match r.2 with
      | .ok secs pages => match r.1.pagesOf (r.1.vfOf j) e.2.1 e.2.2 .load with
        | (s, .ok l) =>
          let bs := s.bytesVia l e.2.1 e.2.2
          (s, .ok (secs ++ [⟨e.1, e.2.1, e.2.2, if e.1 = 1 then narrow bs else bs, none⟩]) (pages ++ l.map (fun p => p.2.1 / 4096)))
        | (s, .error (some _)) => (s, .refused)
        | (s, .error none) => (s, .waits)
      | _ => r) (s, .ok [] [])

/-! ## Staging space (R17, R373) -/

/-- Pages of a list in each stack, by their addresses. -/
def stackPages (ps : List Nat) : List Nat := (List.range 8).map (fun k => (ps.eraseDups.filter (fun p => stackOf (4096 * p) == k)).length)

/-- Pages of an image of `n` bytes in each stack: page j goes to stack j mod 8 (R375). -/
def imagePages (n : Nat) : List Nat := (List.range 8).map (fun k => ((n + 4095) / 4096 + 7 - k) / 8)

/-- Is there room in every staging region, 8 GiB a stack? -/
def State.stagingRoom (s : State) (ps : List Nat) : Bool :=
  (List.range 8).all (fun k => decide ((s.glazes.map (fun g => g.pages.getD k 0)).sum + ps.getD k 0 ≤ 2097152))

/-! ## Requests in progress -/

/-- The request with this number at a stage. -/
def State.glazeAt (s : State) (req stage : Nat) : Option GlazeReq := s.glazes.find? (fun g => g.id == req && g.stage == stage)

/-- Replace a request. -/
def State.setGlaze (s : State) (g : GlazeReq) : State := { s with glazes := s.glazes.map (fun x => if x.id = g.id then g else x) }

/-- A request ends with a response; its staging pages are free. -/
def State.endGlaze (s : State) (g : GlazeReq) (status : Nat) (bytes : List Byte) : State :=
  { s with glazes := s.glazes.filter (fun x => x.id != g.id) }.answer g.ch status bytes

/-- A restore is refused (R464). -/
def State.refuseRestore (s : State) (g : GlazeReq) (why : Nat) : State := s.endGlaze g 0x05 (leBytes 1 why)

/-! ## `GLAZE_WRITE` (R373, R374, R473) -/

/-- Is the job of a request named: a linked, well-formed DCB of level 3? -/
def State.jobNamed (s : State) (j : Nat) : Bool := s.named j && s.level j == 3

/-- GLAZE_WRITE: kind, job DCB, directory, destination, session. -/
def execGlazeWrite (ch : Nat) (s : State) : Out :=
  .next (s.serve ch 10 (fun _ n => n == 36) (fun s =>
    let q := s.req ch
    let kind := q 0 4
    let j := q 8 8
    let dst := q 24 8
    let bad := kind == 0 && (s.dirEntries (q 16 8) 65536).any (fun e => decide (2 ≤ e.1) || (e.1 == 1 && e.2.2 % 4 != 0))
    if 2 ≤ kind || q 4 4 != 0 || !s.jobNamed j || bad || (windowOf dst != 1 && decide (windowOf dst < 16)) || decide (2 ^ 52 ≤ dst) then s.answer ch 0x02 []
    else if s.vfFailed j then s.answer ch 0x01 []
    else match s.content kind j (q 16 8) with
      | (_, .waits) => s
      | (s, .refused) => s.answer ch 0x01 []
      | (s, .ok _ pages) =>
        let ps := stackPages pages
        if !s.stagingRoom ps then s.answer ch 0x03 []
        else
          let g : GlazeReq := { id := s.nextGlaze, ch, write := true, kind, job := j, dir := q 16 8, dst, session := q 32 4, stage := 0
                                pages := ps, secs := [], ctr := 0, image := [] }
          { s with glazes := s.glazes ++ [g], nextGlaze := s.nextGlaze + 1 }))

/-- GLAZE_STAGING_COMPLETE (R374): the content is fixed, and a `RESUME` that waited may go on. -/
def execGlazeStagingComplete (req : Nat) (s : State) : Out :=
  .next (match s.glazeAt req 0 with
    | none => s
    | some g => match s.content g.kind g.job g.dir with
      | (_, .waits) => s
      | (s, .refused) => s.endGlaze g 0x01 []
      | (s, .ok secs _) => s.setGlaze { g with secs, stage := 1 })

/-- The cores that committed the job's content (R472). -/
def State.stamped (s : State) (j : Nat) : Tab Nat := (Tabs.get s.bisque [] j).filter (fun e => decide (1 ≤ e.2))

/-- BISQUE_GATE_OPEN (R473): the gate refuses for a retired core or a taint, waits for a core that has not passed, or opens. -/
def execBisqueGateOpen (req : Nat) (s : State) : Out :=
  .next (match s.glazeAt req 1 with
    | none => s
    | some g =>
      let t := s.stamped g.job
      match t.find? (fun e => s.sweepSt e.1 == 3) with
      | some e => s.endGlaze g 0x01 (leBytes 4 1 ++ leBytes 4 e.1)
      | none =>
        if s.taints.contains g.job then s.endGlaze g 0x01 (leBytes 4 1 ++ leBytes 4 0xFFFFFFFF)
        else if t.all (fun e => decide (e.2 < Tabs.get s.passAt 0 e.1)) then s.setGlaze { g with stage := 2 } else s)

/-- The image of a request, sealed under counter `n` (R371 to R373). -/
def State.sealed (s : State) (g : GlazeReq) (n : Nat) : List Byte :=
  let p := s.partOf g.job
  let plain := glazePlain g.secs
  let pword := ((g.secs.head?.bind GSec.img).map Img.pword).getD 0
  glazeSealed (glazeHeader g.kind p n plain.length pword.toNat (s.pmeas p) g.secs.length) plain g.session n

/-- GLAZE_SIGN_COMPLETE (R373): the signed image drains to its destination, the staging pages are free, and the response carries
the counter and the length. -/
def execGlazeSignComplete (req : Nat) (s : State) : Out :=
  .next (match s.glazeAt req 3 with
    | none => s
    | some g =>
      let image := glazeSigned g.image
      let s1 := if windowOf g.dst = 1 then s.memBytes 0 g.dst image else s
      { s1 with gimages := s1.gimages ++ [(⟨image, g.secs⟩ : GImg)] }.endGlaze g 0x00 (leBytes 8 g.ctr ++ leBytes 8 image.length))

/-! ## `GLAZE_RESTORE` (R375, R464) -/

/-- What the bytes of a section carry where the machine that wrote it was another one, but for what R337 lays out (log 10). -/
opaque contextIn : List Byte → Option Img

/-- A context image in the bytes of a section. -/
def imageFrom (bs : List Byte) : Option Img := (contextIn bs).map (fun x => x.reread (fun o n => leNat ((bs.drop o).take n)))

/-- Field of an image. -/
def gField (im : List Byte) (o n : Nat) : Nat := leNat ((im.drop o).take n)

/-- Check 1: the fixed and reserved fields of the header. -/
def headerSound (im : List Byte) : Bool :=
  gField im 0 4 == 0x5334475A && gField im 4 2 == 1 && decide (gField im 6 1 ≤ 1) && gField im 0x10 8 % 256 == 0 &&
  gField im 0xA0 8 == gField im 8 8 && gField im 0xA8 4 == 0 && gField im 0xB0 336 == 0

/-- End of the tag. -/
def tagEnd (im : List Byte) : Nat := 0x200 + gField im 0x10 8 + 16

/-- Length of an image with its signature. -/
def imageLen (plen : Nat) : Nat := pad256 (0x200 + plen + 16) + 4864

/-- GLAZE_RESTORE: source, job DCB, certificate chain, session. The image is read into staging and its signature, its origin and
the tenant measurement are checked; the chain's first two bytes give its length (log 43). -/
def execGlazeRestore (ch : Nat) (s : State) : Out :=
  .next (s.serve ch 11 (fun _ n => n == 28) (fun s =>
    let q := s.req ch
    let src := q 0 8
    let j := q 8 8
    if !s.jobNamed j || decide (2 ^ 52 ≤ src) || decide (2 ^ 52 ≤ q 16 8) then s.answer ch 0x02 []
    else if s.vfFailed j then s.answer ch 0x01 []
    else
      let (s, head) := s.secBytes src 0x18
      let plen := leNat (head.drop 0x10)
      let ps := imagePages (imageLen plen)
      if !s.stagingRoom ps then s.answer ch 0x03 []
      else
        let (s, body) := s.secBytes (src + 0x18) (imageLen plen - 0x18)
        let im := head ++ body
        let (s, len) := s.secBytes (q 16 8) 2
        let (s, more) := s.secBytes (q 16 8 + 2) (leNat len - 2)
        let chain := (len ++ more).take (leNat len)
        let g : GlazeReq := { id := s.nextGlaze, ch, write := false, kind := gField im 6 1, job := j, dir := 0, dst := 0, session := q 24 4
                              stage := 2, pages := ps, secs := [], ctr := gField im 8 8, image := im }
        let s1 : State := { s with glazes := s.glazes ++ [g], nextGlaze := s.nextGlaze + 1 }
        if !headerSound im then s1.refuseRestore g 1
        else if !Config.chainVerifies chain im then s1.refuseRestore g 2
        else if (List.range 64).map (Config.chainDigest chain) ≠ (im.drop 0x60).take 64 then s1.refuseRestore g 3
        else if s.pmeas (s.partOf j) ≠ (im.drop 0x20).take 64 then s1.refuseRestore g 4
        else s1))

/-- The plaintext of an image: that of an image this machine sealed, or what decryption gives. -/
def State.opened (s : State) (g : GlazeReq) : List Byte :=
  match s.gimages.find? (fun x => x.image == g.image) with
  | some x => glazePlain x.secs
  | none => (List.range (gField g.image 0x10 8)).map
      (Config.openByte g.session g.ctr (g.image.take 0x200) ((g.image.drop 0x200).take (gField g.image 0x10 8 + 16)))

/-- Does the tag agree? -/
def State.tagOk (s : State) (g : GlazeReq) : Bool :=
  s.gimages.any (fun x => x.image == g.image) ||
  Config.tagAgrees g.session g.ctr (g.image.take 0x200) ((g.image.drop 0x200).take (gField g.image 0x10 8 + 16))

/-- The sections that a directory of `n` entries names; `none` where they exceed the payload. -/
def sectionsOf (plain : List Byte) (n : Nat) : Option (List GSec) :=
  let e := fun (k o w : Nat) => gField plain (32 * k + o) w
  let ends := (List.range (n + 1)).map (fun k => pad256 (32 * n) + ((List.range k).map (fun i => pad256 (e i 24 8))).sum)
  if plain.length < ends.getD n 0 then none
  else some ((List.range n).map (fun k =>
    let d := (plain.drop (ends.getD k 0)).take (e k 24 8)
    ⟨e k 0 1, e k 8 8, e k 16 8, d, none⟩))

/-- The context images of the sections, with their bytes; `none` where a section carries none. -/
def State.imagesIn (s : State) (g : GlazeReq) (secs : List GSec) : Option (List (Img × List Byte)) :=
  let own := (s.gimages.find? (fun x => x.image == g.image)).map GImg.secs
  let all := secs.zipIdx.map (fun e => match own with
    | some l => ((l[e.2]?).bind GSec.img).map (fun x => (x, e.1.data))
    | none => (imageFrom e.1.data).map (fun x => (x, e.1.data)))
  if all.all Option.isSome then some (all.filterMap id) else none

/-- A context image for the target job: under new workgroup numbers, of its partition and virtual function (log 10). -/
def Img.retarget (x : Img) (s : State) (j : Nat) (f : Nat → Nat) : Img :=
  let here := s.jobOf x.g.dcb == j && s.dcbs.contains x.g.dcb
  { x with
    id := f x.id, job := j
    g := { x.g.renumber f with dcb := if here then x.g.dcb else j, node := if here then x.g.node else 2 ^ 18, vf := s.vfOf j, part := s.partOf j }
    cmds := x.cmds.map (fun k => { k with wg := f k.wg, recv := k.recv.map (fun r => (f r.1, r.2)) }) }

/-- The resume bind of a unit of restored images. -/
def State.restoredBind (s : State) (as : List (Nat × Img)) : Option (Nat × Bind) :=
  (as.head?).map (fun e =>
    let g := e.2.g
    (g.die, { lrec := 0, hdr := ⟨0, 0, 0, 0, false⟩, dcb := g.dcb, first := g.info.index, count := as.length, cmask := BitVec.allOnes 32, cwait := 1024, valid := false
              resume := true, priv := g.priv, paired := g.info.paired, stop := false, prio := s.effPrio g.dcb, img := e.1, placed := 0, done := 0
              node := g.node, kg := g.info.kg, imgs := as.map Prod.fst, last := none, shares := s.bindShares g.dcb, quotas := s.bindQuotas g.dcb
              frag := [], since := s.clock, hold := none }))

/-- Cut a list of images into units: kiln groups whole. -/
def unitsOf : Nat → List (Img × List Byte) → List (List (Img × List Byte))
  | 0, _ => []
  | n + 1, l => match l with
    | [] => []
    | e :: r =>
      let mate := fun (y : Img × List Byte) => e.1.g.kiln.contains y.1.id
      (e :: r.takeWhile mate) :: unitsOf n (r.dropWhile mate)

/-- Place an exact image (R375 step 5): each unit goes into the save area under a resume bind of its own. -/
def State.placeExact (s : State) (g : GlazeReq) (xs : List (Img × List Byte)) : Option State :=
  let ids := xs.map (fun e => e.1.id)
  let f := fun (n : Nat) => match ids.findIdx? (· == n) with
    | some k => s.nextWg + k
    | none => n
  let ys := xs.map (fun e => (e.1.retarget s g.job f, e.2))
  ((unitsOf ys.length ys).foldl (fun (r : Option State) u => r.bind (fun t => (t.putImages g.job u).map (fun q =>
    match q.1.restoredBind (q.2.zip (u.map Prod.fst)) with
    | some (d, b) => (q.1.enforce b.dcb).addBind d b
    | none => q.1))) (some { s with nextWg := s.nextWg + xs.length })).map (fun t => t.setDcbState g.job 3)

/-- Write the buffers of a checkpoint; `none` where a page of one does not take a write (log 43). -/
def State.placeBuffers (s : State) (g : GlazeReq) (secs : List GSec) : Option State :=
  let v := s.vfOf g.job
  let plan := secs.foldl (fun (r : State × Option (List (GSec × List (Nat × Nat × Nat)))) x => match r.2 with
    | none => r
    | some l => match r.1.pagesOf v x.va x.len .store with
      | (s, .ok ps) => (s, some (l ++ [(x, ps)]))
      | (s, .error _) => (s, none)) (s, some [])
  plan.2.map (fun l => l.foldl (fun s e =>
    let bs := if e.1.kind = 1 then widen e.1.len e.1.data else e.1.data.take e.1.len
    bs.zipIdx.foldl (fun s b => let (a, k) := pageAt e.2 (e.1.va + b.2); s.memBytes k a [b.1]) s) plan.1)

/-- The restore goes on with the key service's counter `n` (R464, checks 5 to 9). -/
def State.restoreWith (s : State) (g : GlazeReq) (n : Nat) : State :=
  let p := s.partOf g.job
  let done := fun (s1 : State) => { s1 with taints := s1.taints.filter (· != g.job) }.endGlaze g 0x00 []
  if n ≠ g.ctr then s.refuseRestore g 5
  else if !s.tagOk g then s.refuseRestore g 7
  else if g.kind = 1 ∧ !(s.partCores p).any (fun c => s.rd (Reg.pword c) == BitVec.ofNat 64 (gField g.image 0x18 8)) then s.refuseRestore g 8
  else match sectionsOf (s.opened g) (gField g.image 0xAC 4) with
    | none => s.refuseRestore g 9
    | some secs =>
      if g.kind = 1 then
        match (s.imagesIn g secs).bind (s.placeExact g) with
        | none => s.refuseRestore g 9
        | some s1 => done s1
      else match s.placeBuffers g secs with
        | none => s.refuseRestore g 9
        | some s1 => done s1

/-- KEY_SERVICE_RESPONSE (R368, R373, R375): in the named session the key service answers with its counter, `key`, and the key that
goes with it, or refuses. -/
def execKeyServiceResponse (req : Nat) (ok : Bool) (key : Nat) (s : State) : Out :=
  .next (match s.glazeAt req 2 with
    | none => s
    | some g =>
      let stands := ok && Config.sessionStands g.session (s.partOf g.job)
      if g.write then
        (if stands then s.setGlaze { g with ctr := key % 2 ^ 64, image := s.sealed g (key % 2 ^ 64), stage := 3 } else s.endGlaze g 0x01 [])
      else if stands then s.restoreWith g (key % 2 ^ 64) else s.refuseRestore g 6)

end Sys2Proof.Machine
end

