-- ==== Sys2Proof/Machine/Integer.lean ====
section
/-! DEFINITION. The integer, logic and address instructions, opcodes 0x001-0x01E (R148 to R157). -/

namespace Sys2Proof.Machine

/-! ## Values (R150 to R155) -/

/-- A 32-bit operand as a number. -/
abbrev lo32 (x : DWord) : Nat := x.toNat % 2 ^ 32

/-- Width of a logic-group form. -/
def logicBits (wide : Bool) : Nat := if wide then 64 else 32

/-- An operand of a logic-group form as a number. -/
def logicOf (wide : Bool) (x : DWord) : Nat := x.toNat % 2 ^ logicBits wide

/-- `shl` (R151). -/
def shlVal (wide : Bool) (a b : DWord) : DWord :=
  BitVec.ofNat 64 (logicOf wide a * 2 ^ min (lo32 b) (logicBits wide) % 2 ^ logicBits wide)

/-- `shr` (R151). -/
def shrVal (wide : Bool) (a b : DWord) : DWord :=
  BitVec.ofNat 64 (logicOf wide a / 2 ^ min (lo32 b) (logicBits wide))

/-- `sra` (R151). -/
def sraVal (wide : Bool) (a b : DWord) : DWord :=
  wrapTo (logicBits wide) (sext (logicBits wide) a.toNat / 2 ^ min (lo32 b) (logicBits wide))

/-- `shf` (R151); `b` is `none` under `.rot`. -/
def shfVal (wrap : Bool) (a : DWord) (b : Option DWord) (c : DWord) : DWord :=
  let av := lo32 a
  let n0 := sext 8 c.toNat
  let n : Int := if wrap then n0 % 32 else max (-32) (min 32 n0)
  match b with
  | none =>
    let k := (n % 32).toNat
    BitVec.ofNat 64 ((av * 2 ^ k + av / 2 ^ (32 - k)) % 2 ^ 32)
  | some b =>
    let bv := lo32 b
    if 0 ≤ n then BitVec.ofNat 64 (av * 2 ^ n.toNat % 2 ^ 32 + bv % 2 ^ n.toNat)
    else
      let m := (-n).toNat
      BitVec.ofNat 64 (av / 2 ^ m + (bv - bv % 2 ^ (32 - m)))

/-- The field of R152: position and length clamped to the width. -/
def fieldSpec (w : Nat) (b : DWord) : Nat × Nat :=
  let p := min (field b.toNat 0 8) w
  (p, min (field b.toNat 8 8) (w - p))

/-- `bfe` (R152). -/
def bfeVal (t : ITy) (a b : DWord) : DWord :=
  let w := ityBits t
  let (p, l) := fieldSpec w b
  let f := a.toNat % 2 ^ w / 2 ^ p % 2 ^ l
  if l = 0 then 0
  else if itySigned t then wrapTo w (sext l f) else BitVec.ofNat 64 f

/-- `bfi` (R152). -/
def bfiVal (wide : Bool) (a b c : DWord) : DWord :=
  let (p, l) := fieldSpec (logicBits wide) c
  BitVec.ofNat 64 (setField (logicOf wide b) p l (logicOf wide a))

/-- `lop3` (R153): C[4 z + a + 2 b] at every bit position. -/
def lop3Val (wide : Bool) (a b c z : DWord) : DWord :=
  let tbl := fun (k : Nat) (m : DWord) => if c.getLsbD k then m else 0
  let term := fun (k : Nat) => tbl k ((if k.testBit 0 then a else ~~~a) &&& (if k.testBit 1 then b else ~~~b) &&&
    (if k.testBit 2 then z else ~~~z))
  let d := term 0 ||| term 1 ||| term 2 ||| term 3 ||| term 4 ||| term 5 ||| term 6 ||| term 7
  if wide then d else d &&& 0xFFFFFFFF

/-- Bits [n-1:0] of a number in reverse order. -/
def revBits : Nat → Nat → Nat
  | 0, _ => 0
  | n + 1, x => (x % 2) * 2 ^ n + revBits n (x / 2)

/-- One step of `prmt` (R154): result byte `i` from selector `s`, `prev` the byte below it. -/
def prmtByte (a b : Nat) (i s prev : Nat) : Nat :=
  let src := fun (j : Nat) => if j < 4 then field a (8 * j) 8 else field b (8 * (j - 4)) 8
  if s < 8 then src s
  else if s = 8 then 0
  else if s = 9 then 255
  else if s = 10 then (if (if i = 0 then src 0 else prev).testBit 7 then 255 else 0)
  else if s = 11 then (if i = 0 then 0 else prev)
  else revBits 8 (src (s - 12))

/-- `prmt` (R154). -/
def prmtVal (a b c : DWord) : DWord :=
  let f := prmtByte (lo32 a) (lo32 b)
  let s := fun (i : Nat) => field c.toNat (4 * i) 4
  let r0 := f 0 (s 0) 0
  let r1 := f 1 (s 1) r0
  let r2 := f 2 (s 2) r1
  let r3 := f 3 (s 3) r2
  BitVec.ofNat 64 (r0 + 256 * (r1 + 256 * (r2 + 256 * r3)))

/-- Number of 1 bits among the low `n`. -/
def popCount : Nat → Nat → Nat
  | 0, _ => 0
  | n + 1, x => x % 2 + popCount n (x / 2)

/-- `lea` (R155). -/
def leaVal (t : ITy) (sh : Nat) (a b : DWord) : DWord :=
  let w := ityBits t
  let b' : Int := if t = .s64 then sext 32 b.toNat else (lo32 b : Nat)
  wrapTo w ((a.toNat % 2 ^ w : Nat) + b' * 2 ^ sh)

/-- Bits and sign of a `cvti` type (R157). -/
def cvTy : CvTy → Nat × Bool
  | .n32 => (32, false)
  | .s32 => (32, true)
  | .n64 => (64, false)
  | .s64 => (64, true)
  | .n8 => (8, false)
  | .s8 => (8, true)
  | .n16 => (16, false)
  | .s16 => (16, true)

/-- Is a `cvti` type a pair? -/
def cvWide (t : CvTy) : Bool := (cvTy t).1 == 64

/-- `cvti` (R157). -/
def cvtiVal (src dst : CvTy) (sat : Bool) (a : DWord) : DWord :=
  let (sw, ss) := cvTy src
  let (dw, ds) := cvTy dst
  let x : Int := if ss then sext sw a.toNat else (a.toNat % 2 ^ sw : Nat)
  let lo : Int := if ds then -(2 ^ (dw - 1)) else 0
  let hi : Int := if ds then 2 ^ (dw - 1) - 1 else 2 ^ dw - 1
  let y := if sat then (if x < lo then lo else if hi < x then hi else x) else x
  let code := (y % 2 ^ dw).toNat
  if ds then wrapTo (if dw = 64 then 64 else 32) (sext dw code) else BitVec.ofNat 64 code

/-! ## Meanings -/

/-- Two sources of the type T, a result of the same width. -/
def arith2 (h : Hdr) (slow : Bool) (t : ITy) (d : Dst) (a b : Src) (lit : Word) (f : Int → Int → DWord) (s : State) : Out :=
  (mkAlu h slow (aluDst d (ityWide t)) [(a, ikind (ityWide t)), (b, ikind (ityWide t))] lit).exec
    (fun _ v => f (intOf t (arg v 0)) (intOf t (arg v 1))) s

/-- Three sources of the type T. -/
def arith3 (h : Hdr) (slow : Bool) (t : ITy) (d : Dst) (a b c : Src) (lit : Word) (f : Int → Int → Int → DWord)
    (s : State) : Out :=
  (mkAlu h slow (aluDst d (ityWide t))
    [(a, ikind (ityWide t)), (b, ikind (ityWide t)), (c, ikind (ityWide t))] lit).exec
    (fun _ v => f (intOf t (arg v 0)) (intOf t (arg v 1)) (intOf t (arg v 2))) s

/-- `iadd` (R150). -/
def execIadd (h : Hdr) (t : ITy) (sat : Bool) (d : Dst) (a b : Src) (lit : Word) (s : State) : Out :=
  arith2 h false t d a b lit (fun x y => fit t sat (x + y)) s

/-- `iadd3` (R150). -/
def execIadd3 (h : Hdr) (t : ITy) (sat : Bool) (d : Dst) (a b c : Src) (lit : Word) (s : State) : Out :=
  arith3 h false t d a b c lit (fun x y z => fit t sat (x + y + z)) s

/-- `isub` (R150). -/
def execIsub (h : Hdr) (t : ITy) (sat : Bool) (d : Dst) (a b : Src) (lit : Word) (s : State) : Out :=
  arith2 h false t d a b lit (fun x y => fit t sat (x - y)) s

/-- `imul` (R150); the 64-bit form has rate 2 (R149). -/
def execImul (h : Hdr) (t : ITy) (d : Dst) (a b : Src) (lit : Word) (s : State) : Out :=
  arith2 h (ityWide t) t d a b lit (fun x y => wrapTo (ityBits t) (x * y)) s

/-- `imulhi` (R150). -/
def execImulhi (h : Hdr) (t : ITy) (d : Dst) (a b : Src) (lit : Word) (s : State) : Out :=
  arith2 h (ityWide t) t d a b lit (fun x y => wrapTo (ityBits t) (x * y / 2 ^ ityBits t)) s

/-- `imad` (R150). -/
def execImad (h : Hdr) (t : ITy) (sat : Bool) (d : Dst) (a b c : Src) (lit : Word) (s : State) : Out :=
  arith3 h (ityWide t) t d a b c lit (fun x y z => fit t sat (x * y + z)) s

/-- `imadw` (R150): 32-bit A and B, a 64-bit C and result; rate 2. -/
def execImadw (h : Hdr) (signed : Bool) (d : Dst) (a b c : Src) (lit : Word) (s : State) : Out :=
  let t : ITy := if signed then .s32 else .n32
  (mkAlu h true (aluDst d true) [(a, .i32), (b, .i32), (c, .i64)] lit).exec
    (fun _ v => wrapTo 64 (intOf t (arg v 0) * intOf t (arg v 1) + (arg v 2).toNat)) s

/-- `iabs` (R150): signed 32 or 64 bits. -/
def execIabs (h : Hdr) (wide sat : Bool) (d : Dst) (a : Src) (lit : Word) (s : State) : Out :=
  let t : ITy := if wide then .s64 else .s32
  (mkAlu h false (aluDst d wide) [(a, ikind wide)] lit).exec (fun _ v => fit t sat (intOf t (arg v 0)).natAbs) s

/-- `imin` (R150). -/
def execImin (h : Hdr) (t : ITy) (d : Dst) (a b : Src) (lit : Word) (s : State) : Out :=
  arith2 h false t d a b lit (fun x y => wrapTo (ityBits t) (min x y)) s

/-- `imax` (R150). -/
def execImax (h : Hdr) (t : ITy) (d : Dst) (a b : Src) (lit : Word) (s : State) : Out :=
  arith2 h false t d a b lit (fun x y => wrapTo (ityBits t) (max x y)) s

/-- `icmp` (R156): writes 1 or 0 to one register. -/
def execIcmp (h : Hdr) (t : ITy) (c : ICond) (d : Dst) (a b : Src) (lit : Word) (s : State) : Out :=
  (mkAlu h false (aluDst d false) [(a, ikind (ityWide t)), (b, ikind (ityWide t))] lit).exec
    (fun _ v => boolVal (icond c (intOf t (arg v 0)) (intOf t (arg v 1)))) s

/-- `sel` (R156): A when the predicate, negated as stated, is true, else B. -/
def execSel (h : Hdr) (wide : Bool) (q : BitVec 3) (nq : Bool) (d : Dst) (a b : Src) (lit : Word) (s : State) : Out :=
  { mkAlu h false (aluDst d wide) [(a, ikind wide), (b, ikind wide)] lit with pred := some (q, nq) }.exec
    (fun _ v => if arg v 2 = 1 then arg v 0 else arg v 1) s

/-- A shift: A of the width, B a 32-bit count. -/
def shift2 (h : Hdr) (wide : Bool) (d : Dst) (a b : Src) (lit : Word) (f : DWord → DWord → DWord) (s : State) : Out :=
  (mkAlu h false (aluDst d wide) [(a, ikind wide), (b, .i32)] lit).exec (fun _ v => f (arg v 0) (arg v 1)) s

/-- `shl` (R151). -/
def execShl (h : Hdr) (wide : Bool) (d : Dst) (a b : Src) (lit : Word) (s : State) : Out :=
  shift2 h wide d a b lit (shlVal wide) s

/-- `shr` (R151). -/
def execShr (h : Hdr) (wide : Bool) (d : Dst) (a b : Src) (lit : Word) (s : State) : Out :=
  shift2 h wide d a b lit (shrVal wide) s

/-- `sra` (R151). -/
def execSra (h : Hdr) (wide : Bool) (d : Dst) (a b : Src) (lit : Word) (s : State) : Out :=
  shift2 h wide d a b lit (sraVal wide) s

/-- `shf` (R151). -/
def execShf (h : Hdr) (wrap : Bool) (d : Dst) (a : Src) (b : Option Src) (c : Src) (lit : Word) (s : State) : Out :=
  match b with
  | none => (mkAlu h false (aluDst d false) [(a, .i32), (c, .i32)] lit).exec
      (fun _ v => shfVal wrap (arg v 0) none (arg v 1)) s
  | some b => (mkAlu h false (aluDst d false) [(a, .i32), (b, .i32), (c, .i32)] lit).exec
      (fun _ v => shfVal wrap (arg v 0) (some (arg v 1)) (arg v 2)) s

/-- Two sources of a logic-group width. -/
def logic2 (h : Hdr) (wide : Bool) (d : Dst) (a b : Src) (lit : Word) (f : DWord → DWord → DWord) (s : State) : Out :=
  (mkAlu h false (aluDst d wide) [(a, ikind wide), (b, ikind wide)] lit).exec (fun _ v => f (arg v 0) (arg v 1)) s

/-- `and` (R149). -/
def execAnd (h : Hdr) (wide : Bool) (d : Dst) (a b : Src) (lit : Word) (s : State) : Out :=
  logic2 h wide d a b lit (· &&& ·) s

/-- `or` (R149). -/
def execOr (h : Hdr) (wide : Bool) (d : Dst) (a b : Src) (lit : Word) (s : State) : Out :=
  logic2 h wide d a b lit (· ||| ·) s

/-- `xor` (R149). -/
def execXor (h : Hdr) (wide : Bool) (d : Dst) (a b : Src) (lit : Word) (s : State) : Out :=
  logic2 h wide d a b lit (· ^^^ ·) s

/-- The destination of `lop3` read as its third input Z (R153): 0 for a latch, `vz` and `sz`. -/
def lop3Z (d : Dst) : Src :=
  match d with
  | .vec i => .vec i
  | .scal i => .scal i
  | .latch => .imm 0

/-- `lop3` (R153). -/
def execLop3 (h : Hdr) (wide : Bool) (d : Dst) (a b c : Src) (lit : Word) (s : State) : Out :=
  { mkAlu h false (aluDst d wide) [(a, ikind wide), (b, ikind wide), (c, .i32), (lop3Z d, ikind wide)] lit with
    size := litSize [a, b, c] }.exec (fun _ v => lop3Val wide (arg v 0) (arg v 1) (arg v 2) (arg v 3)) s

/-- `bfe` (R152). -/
def execBfe (h : Hdr) (t : ITy) (d : Dst) (a b : Src) (lit : Word) (s : State) : Out :=
  (mkAlu h false (aluDst d (ityWide t)) [(a, ikind (ityWide t)), (b, .i32)] lit).exec
    (fun _ v => bfeVal t (arg v 0) (arg v 1)) s

/-- `bfi` (R152). -/
def execBfi (h : Hdr) (wide : Bool) (d : Dst) (a b c : Src) (lit : Word) (s : State) : Out :=
  (mkAlu h false (aluDst d wide) [(a, ikind wide), (b, ikind wide), (c, .i32)] lit).exec
    (fun _ v => bfiVal wide (arg v 0) (arg v 1) (arg v 2)) s

/-- `popc` (R155): one register. -/
def execPopc (h : Hdr) (wide : Bool) (d : Dst) (a : Src) (lit : Word) (s : State) : Out :=
  (mkAlu h false (aluDst d false) [(a, ikind wide)] lit).exec
    (fun _ v => BitVec.ofNat 64 (popCount 64 (logicOf wide (arg v 0)))) s

/-- `clz` (R155): one register. -/
def execClz (h : Hdr) (wide : Bool) (d : Dst) (a : Src) (lit : Word) (s : State) : Out :=
  (mkAlu h false (aluDst d false) [(a, ikind wide)] lit).exec
    (fun _ v => BitVec.ofNat 64 (logicBits wide - Num.bitLen (logicOf wide (arg v 0)))) s

/-- `brev` (R155). -/
def execBrev (h : Hdr) (wide : Bool) (d : Dst) (a : Src) (lit : Word) (s : State) : Out :=
  (mkAlu h false (aluDst d wide) [(a, ikind wide)] lit).exec
    (fun _ v => BitVec.ofNat 64 (revBits (logicBits wide) (logicOf wide (arg v 0)))) s

/-- `prmt` (R154). -/
def execPrmt (h : Hdr) (d : Dst) (a b c : Src) (lit : Word) (s : State) : Out :=
  (mkAlu h false (aluDst d false) [(a, .i32), (b, .i32), (c, .i32)] lit).exec
    (fun _ v => prmtVal (arg v 0) (arg v 1) (arg v 2)) s

/-- `lea` (R155). -/
def execLea (h : Hdr) (t : ITy) (sh : BitVec 5) (d : Dst) (a b : Src) (lit : Word) (s : State) : Out :=
  (mkAlu h false (aluDst d (ityWide t)) [(a, ikind (ityWide t)), (b, .i32)] lit).exec
    (fun _ v => leaVal t sh.toNat (arg v 0) (arg v 1)) s

/-- `mov` (R155). -/
def execMov (h : Hdr) (wide : Bool) (d : Dst) (a : Src) (lit : Word) (s : State) : Out :=
  (mkAlu h false (aluDst d wide) [(a, ikind wide)] lit).exec (fun _ v => arg v 0) s

/-- `movl` (R157): 32 or 64 extension bits; with T = 0 bits [63:32] are reserved (R404). -/
def execMovl (h : Hdr) (wide : Bool) (d : Dst) (e : Ext) (s : State) : Out :=
  { mkAlu h false (aluDst d wide) [] 0 with size := 16, bad := !wide && e.extractLsb' 32 32 != 0 }.exec (fun _ _ => e) s

/-- `cvti` (R157). -/
def execCvti (h : Hdr) (src dst : CvTy) (sat : Bool) (d : Dst) (a : Src) (lit : Word) (s : State) : Out :=
  (mkAlu h false (aluDst d (cvWide dst)) [(a, ikind (cvWide src))] lit).exec
    (fun _ v => cvtiVal src dst sat (arg v 0)) s

end Sys2Proof.Machine
end

