-- ==== Sys2Proof/Machine/Predicate.lean ====
section
/-! DEFINITION. The predicate instructions, opcodes 0x081 and 0x082 (R167 to R169). -/

namespace Sys2Proof.Machine

open Sys2Proof.Num

/-- How `pset` reads its operands. -/
def pcmpKind : PCmp → OKind
  | .int t _ => ikind (ityWide t)
  | .f32 _ => .f32
  | .f64 _ => .f64

/-- The condition of `pset` (R156, R167). -/
def pcmpHolds (k : PCmp) (a b : DWord) : Bool :=
  match k with
  | .int t c => icond c (intOf t a) (intOf t b)
  | .f32 c => fcond c (valueOf a.toNat fp32) (valueOf b.toNat fp32)
  | .f64 c => fcond c (valueOf a.toNat fp64) (valueOf b.toNat fp64)

/-- `pset` (R167). -/
def execPset (h : Hdr) (k : PCmp) (dst : BitVec 8) (a b : Src) (lit : Word) (s : State) : Out :=
  { mkAlu h false (.pred (dst.extractLsb' 0 3)) [(a, pcmpKind k), (b, pcmpKind k)] lit with
    pred := some (dst.extractLsb' 3 3, dst.getLsbD 6), bad := dst.getLsbD 7 }.exec
    (fun _ v => boolVal (pcmpHolds k (arg v 0) (arg v 1) && arg v 2 == 1)) s

/-- `pmov`, mode 0 (R168): value, tag and payload of a predicate. -/
def execPmov (h : Hdr) (ps : BitVec 3) (neg : Bool) (dst : BitVec 8) (s : State) : Out :=
  { mkAlu h false (.pred (dst.extractLsb' 0 3)) [] 0 with
    pred := some (ps, neg), bad := dst.extractLsb' 3 5 != 0 }.exec (fun _ v => arg v 0) s

/-- `pmov.pack` (R168): crazed by the lowest crazed predicate (R407). -/
def execPmovPack (h : Hdr) (dst : BitVec 8) (s : State) : Out :=
  { h, size := 8, chains := true, regs := (ADst.vec dst false).regs,
    fault := fun l => illegal (!(ADst.vec dst false).ok l.wg.info.nregs) : Form }.exec
    (fun _ act l => act.foldl (fun l t =>
      let x := l.w.th t
      l.setTh t (x.putResult (.vec dst false) (x.p.setWidth 64) (if x.pt != 0 then some x.pp else none))) l) s

/-- Write the predicates of a mask from the bits of `v`. -/
def Thread.unpack (x : Thread) (mask : BitVec 8) (v : DWord) (crz : Option Word) : Thread :=
  ((List.range 7).filter (fun k => mask.getLsbD k)).foldl
    (fun x k => x.setPred (BitVec.ofNat 3 k) (v.getLsbD k) crz) x

/-- `pmov.unpack` (R168). -/
def execPmovUnpack (h : Hdr) (dst : BitVec 8) (a : Src) (s : State) : Out :=
  { h, size := 8, chains := true, regs := srcRegs 1 a,
    fault := fun l => illegal (dst.getLsbD 7 || !srcOk l.wg.info.nregs 1 a) : Form }.exec
    (fun pc act l => act.foldl (fun l t =>
      let (l, v, c) := l.readOne t pc 0 .i32 (dst == 0) a
      let x := l.w.th t
      l.setTh t ((x.unpack dst v (crazeOf [c, x.predCraze h.guard])).shift none)) l) s

end Sys2Proof.Machine
end

