-- ==== Sys2Proof/Machine/WarpWide.lean ====
section
/-! DEFINITION. The warp-wide instructions and `rng`, opcodes 0x08B-0x08F (R174 to R178, R396). -/

namespace Sys2Proof.Machine

open Sys2Proof.Num

/-! ## Shared shape -/

/-- What a thread brings to a warp-wide instruction: its number, its sources in order, its guard's craze. -/
structure Share where
  t : Nat
  vals : List (DWord × Option Word)
  guard : Option Word

/-- Value of source `i`. -/
def Share.val (s : Share) (i : Nat) : DWord := (s.vals.getD i (0, none)).1

/-- Craze of source `i`. -/
def Share.crz (s : Share) (i : Nat) : Option Word := (s.vals.getD i (0, none)).2

/-- Read the sources of every active thread, in ascending order. -/
def Lane.shares (l : Lane) (h : Hdr) (pc : VAddr) (lit : Word) (disc : Bool) (srcs : List (Src × OKind)) :
    List Nat → Lane × List Share
  | [] => (l, [])
  | t :: ts =>
    let (l, v) := l.readAll t pc lit disc srcs none
    let g := (l.w.th t).predCraze h.guard
    let (l, r) := l.shares h pc lit disc srcs ts
    (l, ⟨t, v, g⟩ :: r)

/-- The craze of `vote`, `match` and `redw` (R396): that of the lowest thread that has one. -/
def sharedCraze (l : List Share) : Option Word := l.findSome? (fun s => crazeOf [s.crz 0, s.guard])

/-- Give every share's thread its result. -/
def Lane.deal (l : Lane) (d : ADst) (r : List Share) (f : Share → DWord × Option Word) : Lane :=
  r.foldl (fun l s => l.setTh s.t ((l.w.th s.t).putResult d (f s).1 (f s).2)) l

/-- A warp-wide instruction with the sources `srcs`. -/
def wide (h : Hdr) (d : ADst) (srcs : List (Src × OKind)) (lit : Word)
    (f : List Share → Share → DWord × Option Word) (s : State) : Out :=
  { h, size := litSize (srcs.map Prod.fst), chains := true,
    regs := d.regs ++ srcs.flatMap (fun p => srcRegs (if p.2.wide then 2 else 1) p.1),
    fault := fun l => illegal (!d.ok l.wg.info.nregs ||
      !(srcs.all (fun p => srcOk l.wg.info.nregs (if p.2.wide then 2 else 1) p.1))) : Form }.exec
    (fun pc act l =>
      let (l, r) := l.shares h pc lit ((mkAlu h false d [] 0).drops l) srcs act
      l.deal d r (f r)) s

/-! ## `vote` (R174) -/

/-- A vote over the values q′ of the active threads. -/
def voteVal (m : VoteMode) (q : List (Nat × Bool)) : DWord :=
  match m with
  | .any => boolVal (q.any Prod.snd)
  | .all => boolVal (q.all Prod.snd)
  | .eq => boolVal (q.all Prod.snd || q.all (fun e => !e.2))
  | .ballot => (maskOf ((q.filter Prod.snd).map Prod.fst)).setWidth 64

/-- Destination of `vote`: a vector register under `.ballot`, else a predicate. -/
def voteDst (m : VoteMode) (dst : BitVec 8) : ADst :=
  match m with
  | .ballot => .vec dst false
  | _ => .pred (dst.extractLsb' 0 3)

/-- `vote` (R174); the `dst` bits above a predicate must be zero (R169). -/
def execVote (h : Hdr) (m : VoteMode) (q : BitVec 3) (nq : Bool) (dst : BitVec 8) (s : State) : Out :=
  let d := voteDst m dst
  { h, size := 8, chains := true, regs := d.regs,
    fault := fun l => illegal (!d.ok l.wg.info.nregs || (m != .ballot && dst.extractLsb' 3 5 != 0)) : Form }.exec
    (fun _ act l =>
      let v := voteVal m (act.map (fun t => (t, (l.w.th t).pred q != nq)))
      let c := act.findSome? (fun t => crazeOf [(l.w.th t).predCraze q, (l.w.th t).predCraze h.guard])
      act.foldl (fun l t => l.setTh t ((l.w.th t).putResult d v c)) l) s

/-! ## `match` (R175) -/

/-- `match` (R175). -/
def execMatchw (h : Hdr) (b64 : Bool) (d : VDst) (a : Src) (s : State) : Out :=
  wide h (aluVDst d false) [(a, ikind b64)] 0 (fun r =>
    let c := sharedCraze r
    fun x => ((maskOf ((r.filter (fun y => y.val 0 == x.val 0)).map Share.t)).setWidth 64, c)) s

/-! ## `shfl` (R176) -/

/-- The segment width: the largest power of two at most min(max(C, 1), 32). -/
def shflWidth (c : Nat) : Nat := 2 ^ (min (max c 1) 32).log2

/-- The thread that thread `t` reads; `none` where `.clip` keeps its own value. -/
def shflFrom (m : ShflMode) (w t : Nat) (b : DWord) : Option Nat :=
  let r := t % w
  let base := t - r
  match m with
  | .idx => some (base + lo b % w)
  | .rot clip =>
    let u : Int := r + sext 32 b.toNat
    if clip && (decide (u < 0) || decide ((w : Int) ≤ u)) then none else some (base + (u % w).toNat)
  | .bfly => some (base + (r ^^^ lo b) % w)
  | .rev => some (base + (w - 1 - r))
where
  /-- The operand as an unsigned 32-bit number. -/
  lo (b : DWord) : Nat := b.toNat % 2 ^ 32

/-- `shfl` (R176, R396). C is that of the lowest active thread. A crazed B or C gives no number, so the thread that it selects
is a free value; the craze of that thread's A comes first all the same (log 15). -/
def execShfl (h : Hdr) (m : ShflMode) (d : VDst) (a b c : Src) (lit : Word) (s : State) : Out :=
  wide h (aluVDst d false) [(a, .i32), (b, .i32), (c, .i32)] lit (fun r =>
    let (cv, cc) := match r with
      | x :: _ => (x.val 2, x.crz 2)
      | [] => (0, none)
    let w := shflWidth (cv.toNat % 2 ^ 32)
    fun x =>
      let j := match crazeOf [if m = .rev then none else x.crz 1, cc] with
        | some p => Config.shflThread p x.t % 32
        | none => (shflFrom m w x.t (x.val 1)).getD x.t
      let y := (r.find? (fun y => y.t == j)).getD x
      (y.val 0, crazeOf [y.crz 0, x.crz 1, cc, x.guard])) s

/-! ## `redw` (R177) -/

/-- One step of `redw`. -/
def redwStep (op : RedwOp) (x y : DWord) : DWord :=
  let sx := fun (v : DWord) => sext 32 v.toNat
  match op with
  | .add => wrapTo 32 ((x.toNat : Int) + y.toNat)
  | .nmin => if x.toNat ≤ y.toNat then x else y
  | .nmax => if y.toNat ≤ x.toNat then x else y
  | .smin => if sx x ≤ sx y then x else y
  | .smax => if sx y ≤ sx x then x else y
  | .and => x &&& y
  | .or => x ||| y
  | .xor => x ^^^ y
  | .fadd => BitVec.ofNat 64 (roundTo (X.add false (valueOf x.toNat fp32) (valueOf y.toNat fp32)) fp32 rne)
  | .fmin => BitVec.ofNat 64 (roundTo (fminmax false (valueOf x.toNat fp32) (valueOf y.toNat fp32)) fp32 rne)
  | .fmax => BitVec.ofNat 64 (roundTo (fminmax true (valueOf x.toNat fp32) (valueOf y.toNat fp32)) fp32 rne)

/-- What `redw` starts from, and gives for one active thread: an FP32 operation makes the canonical NaN of a NaN there too
(DEDUCED from R122, log 117). -/
def redwFirst (op : RedwOp) (x : DWord) : DWord :=
  match op with
  | .fadd | .fmin | .fmax => BitVec.ofNat 64 (roundTo (valueOf x.toNat fp32) fp32 rne)
  | _ => x

/-- Is A an FP32 operand? -/
def redwKind : RedwOp → OKind
  | .fadd | .fmin | .fmax => .f32
  | _ => .i32

/-- `redw` (R177): the threads in ascending order; one thread alone gives its A, a NaN as the canonical one (log 117). -/
def execRedw (h : Hdr) (op : RedwOp) (d : VDst) (a : Src) (s : State) : Out :=
  wide h (aluVDst d false) [(a, redwKind op)] 0 (fun r =>
    let c := sharedCraze r
    let v := match r with
      | [] => 0
      | x :: xs => xs.foldl (fun acc y => redwStep op acc (y.val 0)) (redwFirst op (x.val 0))
    fun _ => (v, c)) s

/-! ## `rng` (R178) -/

/-- `n` rounds of `rng_word`. -/
def rngRounds : Nat → Nat → Nat → Nat → Nat
  | 0, x, y, _ => x ^^^ y
  | n + 1, x, y, k =>
    let p := x * 0xC4A31B57
    rngRounds n ((p / 2 ^ 32) ^^^ y ^^^ k) (p % 2 ^ 32) ((k + 0x6D2B79F5) % 2 ^ 32)

/-- `rng_word` (R178). -/
def rngWord (c k s : Nat) : Nat := rngRounds 6 c s k

/-- `rng` (R178). -/
def execRng (h : Hdr) (d : VDst) (a b c : Src) (lit : Word) (s : State) : Out :=
  (mkAlu h false (aluVDst d false) [(a, .i32), (b, .i32), (c, .i32)] lit).exec
    (fun _ v => BitVec.ofNat 64 (rngWord ((arg v 0).toNat % 2 ^ 32) ((arg v 1).toNat % 2 ^ 32)
      ((arg v 2).toNat % 2 ^ 32))) s

end Sys2Proof.Machine
end

