-- ==== Sys2Proof/Machine/Dispatch.lean ====
section
/-! DEFINITION. The dispatch: one arm for each instruction and event. -/

namespace Sys2Proof.Machine

/-- The meaning of an instruction or event. -/
def exec (i : Instr) (s : State) : Host.Outcome State Fault Refusal :=
  match i with
  | .iadd h t sat d a b lit => Sys2Proof.Machine.execIadd h t sat d a b lit s
  | .iadd3 h t sat d a b c lit => Sys2Proof.Machine.execIadd3 h t sat d a b c lit s
  | .isub h t sat d a b lit => Sys2Proof.Machine.execIsub h t sat d a b lit s
  | .imul h t d a b lit => Sys2Proof.Machine.execImul h t d a b lit s
  | .imulhi h t d a b lit => Sys2Proof.Machine.execImulhi h t d a b lit s
  | .imad h t sat d a b c lit => Sys2Proof.Machine.execImad h t sat d a b c lit s
  | .imadw h signed d a b c lit => Sys2Proof.Machine.execImadw h signed d a b c lit s
  | .iabs h wide sat d a lit => Sys2Proof.Machine.execIabs h wide sat d a lit s
  | .imin h t d a b lit => Sys2Proof.Machine.execImin h t d a b lit s
  | .imax h t d a b lit => Sys2Proof.Machine.execImax h t d a b lit s
  | .icmp h t c d a b lit => Sys2Proof.Machine.execIcmp h t c d a b lit s
  | .sel h wide q nq d a b lit => Sys2Proof.Machine.execSel h wide q nq d a b lit s
  | .shl h wide d a b lit => Sys2Proof.Machine.execShl h wide d a b lit s
  | .shr h wide d a b lit => Sys2Proof.Machine.execShr h wide d a b lit s
  | .sra h wide d a b lit => Sys2Proof.Machine.execSra h wide d a b lit s
  | .shf h wrap d a b c lit => Sys2Proof.Machine.execShf h wrap d a b c lit s
  | .and h wide d a b lit => Sys2Proof.Machine.execAnd h wide d a b lit s
  | .or h wide d a b lit => Sys2Proof.Machine.execOr h wide d a b lit s
  | .xor h wide d a b lit => Sys2Proof.Machine.execXor h wide d a b lit s
  | .lop3 h wide d a b c lit => Sys2Proof.Machine.execLop3 h wide d a b c lit s
  | .bfe h t d a b lit => Sys2Proof.Machine.execBfe h t d a b lit s
  | .bfi h wide d a b c lit => Sys2Proof.Machine.execBfi h wide d a b c lit s
  | .popc h wide d a lit => Sys2Proof.Machine.execPopc h wide d a lit s
  | .clz h wide d a lit => Sys2Proof.Machine.execClz h wide d a lit s
  | .brev h wide d a lit => Sys2Proof.Machine.execBrev h wide d a lit s
  | .prmt h d a b c lit => Sys2Proof.Machine.execPrmt h d a b c lit s
  | .lea h t sh d a b lit => Sys2Proof.Machine.execLea h t sh d a b lit s
  | .mov h wide d a lit => Sys2Proof.Machine.execMov h wide d a lit s
  | .movl h wide d e => Sys2Proof.Machine.execMovl h wide d e s
  | .cvti h src dst sat d a lit => Sys2Proof.Machine.execCvti h src dst sat d a lit s
  | .fadd h r f64 na nb sat d a b lit => Sys2Proof.Machine.execFadd h r f64 na nb sat d a b lit s
  | .fmul h r f64 na nb sat d a b lit => Sys2Proof.Machine.execFmul h r f64 na nb sat d a b lit s
  | .fma h r f64 na nb nc sat d a b c lit => Sys2Proof.Machine.execFma h r f64 na nb nc sat d a b c lit s
  | .fmin h f64 na nb d a b lit => Sys2Proof.Machine.execFmin h f64 na nb d a b lit s
  | .fmax h f64 na nb d a b lit => Sys2Proof.Machine.execFmax h f64 na nb d a b lit s
  | .fcmp h f64 c d a b lit => Sys2Proof.Machine.execFcmp h f64 c d a b lit s
  | .frcp h r f64 na d a lit => Sys2Proof.Machine.execFrcp h r f64 na d a lit s
  | .frsq h r f64 na d a lit => Sys2Proof.Machine.execFrsq h r f64 na d a lit s
  | .fsqrt h r f64 na d a lit => Sys2Proof.Machine.execFsqrt h r f64 na d a lit s
  | .fex2 h na d a lit => Sys2Proof.Machine.execFex2 h na d a lit s
  | .flg2 h na d a lit => Sys2Proof.Machine.execFlg2 h na d a lit s
  | .fsin h na d a lit => Sys2Proof.Machine.execFsin h na d a lit s
  | .fcos h na d a lit => Sys2Proof.Machine.execFcos h na d a lit s
  | .fscale h r f64 na sat d a b lit => Sys2Proof.Machine.execFscale h r f64 na sat d a b lit s
  | .fclass h f64 d a lit => Sys2Proof.Machine.execFclass h f64 d a lit s
  | .cvtf h r d a b lit => Sys2Proof.Machine.execCvtf h r d a b lit s
  | .cvtfi h r dst src d a lit => Sys2Proof.Machine.execCvtfi h r dst src d a lit s
  | .cvtif h r src dst d a lit => Sys2Proof.Machine.execCvtif h r src dst d a lit s
  | .hfma2 h bf16 r na nb nc sat d a b c lit => Sys2Proof.Machine.execHfma2 h bf16 r na nb nc sat d a b c lit s
  | .hadd2 h bf16 r na nb sat d a b lit => Sys2Proof.Machine.execHadd2 h bf16 r na nb sat d a b lit s
  | .hmul2 h bf16 r na nb sat d a b lit => Sys2Proof.Machine.execHmul2 h bf16 r na nb sat d a b lit s
  | .nop h => Sys2Proof.Machine.execNop h s
  | .nopSkip => Sys2Proof.Machine.execNopSkip s
  | .pset h k dst a b lit => Sys2Proof.Machine.execPset h k dst a b lit s
  | .pmov h ps neg dst => Sys2Proof.Machine.execPmov h ps neg dst s
  | .pmovPack h dst => Sys2Proof.Machine.execPmovPack h dst s
  | .pmovUnpack h dst a => Sys2Proof.Machine.execPmovUnpack h dst a s
  | .bra h off => Sys2Proof.Machine.execBra h off s
  | .brx h a => Sys2Proof.Machine.execBrx h a s
  | .call h dst off => Sys2Proof.Machine.execCall h dst off s
  | .ret h a => Sys2Proof.Machine.execRet h a s
  | .convg h => Sys2Proof.Machine.execConvg h s
  | .yield h => Sys2Proof.Machine.execYield h s
  | .exit h => Sys2Proof.Machine.execExit h s
  | .waiteq h dst a b e => Sys2Proof.Machine.execWaiteq h dst a b e s
  | .vote h m q nq dst => Sys2Proof.Machine.execVote h m q nq dst s
  | .matchw h wide d a => Sys2Proof.Machine.execMatchw h wide d a s
  | .shfl h m d a b c lit => Sys2Proof.Machine.execShfl h m d a b c lit s
  | .redw h op d a => Sys2Proof.Machine.execRedw h op d a s
  | .rng h d a b c lit => Sys2Proof.Machine.execRng h d a b c lit s
  | .ld h a64 dst a b e => Sys2Proof.Machine.execLd h a64 dst a b e s
  | .st h a64 fill a b c e => Sys2Proof.Machine.execSt h a64 fill a b c e s
  | .ldfe h a64 take dst a b e => Sys2Proof.Machine.execLdfe h a64 take dst a b e s
  | .atom h a64 dst a b c e => Sys2Proof.Machine.execAtom h a64 dst a b c e s
  | .cas h a64 dst a b c e => Sys2Proof.Machine.execCas h a64 dst a b c e s
  | .red h a64 a b c e => Sys2Proof.Machine.execRed h a64 a b c e s
  | .fence h sc k => Sys2Proof.Machine.execFence h sc k s
  | .prefetch h a64 a b e => Sys2Proof.Machine.execPrefetch h a64 a b e s
  | .bar h id arrive cnt => Sys2Proof.Machine.execBar h id arrive cnt s
  | .kbar h => Sys2Proof.Machine.execKbar h s
  | .tbinit h a b c e => Sys2Proof.Machine.execTbinit h a b c e s
  | .tbarrive h thr dst a b e => Sys2Proof.Machine.execTbarrive h thr dst a b e s
  | .tbexpect h arr a b e => Sys2Proof.Machine.execTbexpect h arr a b e s
  | .tbwait h a b e => Sys2Proof.Machine.execTbwait h a b e s
  | .tbtest h dst a b e => Sys2Proof.Machine.execTbtest h dst a b e s
  | .rgn h e => Sys2Proof.Machine.execRgn h e s
  | .commit h each r keep => Sys2Proof.Machine.execCommit h each r keep s
  | .abort h => Sys2Proof.Machine.execAbort h s
  | .replay h => Sys2Proof.Machine.execReplay h s
  | .ptest h clean b64 dst a => Sys2Proof.Machine.execPtest h clean b64 dst a s
  | .crzread h field dst a => Sys2Proof.Machine.execCrzread h field dst a s
  | .trap h dst a b c code => Sys2Proof.Machine.execTrap h dst a b c code s
  | .rdsys h scalar dst opa => Sys2Proof.Machine.execRdsys h scalar dst opa s
  | .segset h a b e => Sys2Proof.Machine.execSegset h a b e s
  | .cpyld h fe mf nobar a b c e => Sys2Proof.Machine.execCpyld h fe mf nobar a b c e s
  | .cpyst h nobar a b c e => Sys2Proof.Machine.execCpyst h nobar a b c e s
  | .cpypeer h fe nobar a b c e => Sys2Proof.Machine.execCpypeer h fe nobar a b c e s
  | .cpygrp h fe nobar a b c e => Sys2Proof.Machine.execCpygrp h fe nobar a b c e s
  | .grpjoin h a b lit => Sys2Proof.Machine.execGrpjoin h a b lit s
  | .grpleave h a lit => Sys2Proof.Machine.execGrpleave h a lit s
  | .cpylin h fe nobar a b c e => Sys2Proof.Machine.execCpylin h fe nobar a b c e s
  | .coll h dst a b e => Sys2Proof.Machine.execColl h dst a b e s
  | .collwait h a => Sys2Proof.Machine.execCollwait h a s
  | .fmtset h dst a lit => Sys2Proof.Machine.execFmtset h dst a lit s
  | .mcoef h dst e => Sys2Proof.Machine.execMcoef h dst e s
  | .mcoefS h dst a e => Sys2Proof.Machine.execMcoefS h dst a e s
  | .mchain h m => Sys2Proof.Machine.execMchain h m s
  | .mlds h arv a b c e => Sys2Proof.Machine.execMlds h arv a b c e s
  | .mswap h => Sys2Proof.Machine.execMswap h s
  | .mzero h dst n => Sys2Proof.Machine.execMzero h dst n s
  | .mma h z arv ch a b c e => Sys2Proof.Machine.execMma h z arv ch a b c e s
  | .mfeedShadow h t e => Sys2Proof.Machine.execMfeedShadow h t e s
  | .mfeedStream h z e => Sys2Proof.Machine.execMfeedStream h z e s
  | .mldacc h arv a b e => Sys2Proof.Machine.execMldacc h arv a b e s
  | .macc h e => Sys2Proof.Machine.execMacc h e s
  | .mstore h arv a b e => Sys2Proof.Machine.execMstore h arv a b e s
  | .mstoreSs h arv a e => Sys2Proof.Machine.execMstoreSs h arv a e s
  | .mstoreMc h arv a e => Sys2Proof.Machine.execMstoreMc h arv a e s
  | .mnorm h diff rt dst e => Sys2Proof.Machine.execMnorm h diff rt dst e s
  | .mpoly h e => Sys2Proof.Machine.execMpoly h e s
  | .msoak h ch e => Sys2Proof.Machine.execMsoak h ch e s
  | .illegalEncoding why wide => Sys2Proof.Machine.execIllegalEncoding why wide s
  | .instructionFetch w tlb answer => Sys2Proof.Machine.execInstructionFetch w tlb answer s
  | .reservationGrant w => Sys2Proof.Machine.execReservationGrant w s
  | .tlbWalkComplete w acc tlb => Sys2Proof.Machine.execTlbWalkComplete w acc tlb s
  | .homeSliceAccess w acc answer => Sys2Proof.Machine.execHomeSliceAccess w acc answer s
  | .loadDataReturn w acc => Sys2Proof.Machine.execLoadDataReturn w acc s
  | .heldPush w item verdict => Sys2Proof.Machine.execHeldPush w item verdict s
  | .saggerDeferredPush w item => Sys2Proof.Machine.execSaggerDeferredPush w item s
  | .heldRelease w tag slice => Sys2Proof.Machine.execHeldRelease w tag slice s
  | .heldSettle w tag slice => Sys2Proof.Machine.execHeldSettle w tag slice s
  | .commitDecide w tag => Sys2Proof.Machine.execCommitDecide w tag s
  | .commitComplete w tag => Sys2Proof.Machine.execCommitComplete w tag s
  | .waiteqWake w thread => Sys2Proof.Machine.execWaiteqWake w thread s
  | .waiteqTimeout w thread => Sys2Proof.Machine.execWaiteqTimeout w thread s
  | .ldfeWake w thread => Sys2Proof.Machine.execLdfeWake w thread s
  | .tbwaitWake w thread => Sys2Proof.Machine.execTbwaitWake w thread s
  | .barRelease wg id => Sys2Proof.Machine.execBarRelease wg id s
  | .kbarRelease wg => Sys2Proof.Machine.execKbarRelease wg s
  | .trapRecordWrite w => Sys2Proof.Machine.execTrapRecordWrite w s
  | .matrixInstructionStart wg entry => Sys2Proof.Machine.execMatrixInstructionStart wg entry s
  | .matrixInstructionComplete wg entry => Sys2Proof.Machine.execMatrixInstructionComplete wg entry s
  | .soakIteration wg => Sys2Proof.Machine.execSoakIteration wg s
  | .soakRelease wg => Sys2Proof.Machine.execSoakRelease wg s
  | .chainPartnerTimeout wg => Sys2Proof.Machine.execChainPartnerTimeout wg s
  | .copyCommandStart core cmd => Sys2Proof.Machine.execCopyCommandStart core cmd s
  | .copySectorWrite core cmd => Sys2Proof.Machine.execCopySectorWrite core cmd s
  | .copyGranuleWaitEnd core cmd => Sys2Proof.Machine.execCopyGranuleWaitEnd core cmd s
  | .cpystLineLand core cmd => Sys2Proof.Machine.execCpystLineLand core cmd s
  | .copyCommandComplete core cmd => Sys2Proof.Machine.execCopyCommandComplete core cmd s
  | .groupChangeComplete w => Sys2Proof.Machine.execGroupChangeComplete w s
  | .shelfRequest core cmd => Sys2Proof.Machine.execShelfRequest core cmd s
  | .shelfTimerExpiry entry => Sys2Proof.Machine.execShelfTimerExpiry entry s
  | .collContribution w ticket => Sys2Proof.Machine.execCollContribution w ticket s
  | .collComplete inst => Sys2Proof.Machine.execCollComplete inst s
  | .collTimeout inst => Sys2Proof.Machine.execCollTimeout inst s
  | .collwaitWake w thread => Sys2Proof.Machine.execCollwaitWake w thread s
  | .nodeComplete die node => Sys2Proof.Machine.execNodeComplete die node s
  | .bindWrite die node => Sys2Proof.Machine.execBindWrite die node s
  | .placeWorkgroup die bind core => Sys2Proof.Machine.execPlaceWorkgroup die bind core s
  | .resumeWorkgroup die bind core => Sys2Proof.Machine.execResumeWorkgroup die bind core s
  | .workgroupComplete wg => Sys2Proof.Machine.execWorkgroupComplete wg s
  | .compactionWaitExpiry die bind core => Sys2Proof.Machine.execCompactionWaitExpiry die bind core s
  | .kilnResumeWaitExpiry die bind kiln => Sys2Proof.Machine.execKilnResumeWaitExpiry die bind kiln s
  | .stopSignal wg => Sys2Proof.Machine.execStopSignal wg s
  | .stopPoint wg => Sys2Proof.Machine.execStopPoint wg s
  | .stopWaitsDone wg => Sys2Proof.Machine.execStopWaitsDone wg s
  | .saveImageWritten wg => Sys2Proof.Machine.execSaveImageWritten wg s
  | .stopDeadlineExpiry stop => Sys2Proof.Machine.execStopDeadlineExpiry stop s
  | .scbSignature w => Sys2Proof.Machine.execScbSignature w s
  | .scbCompare die entry => Sys2Proof.Machine.execScbCompare die entry s
  | .coneSweepSlot die => Sys2Proof.Machine.execConeSweepSlot die s
  | .coneSweepScanStart die => Sys2Proof.Machine.execConeSweepScanStart die s
  | .coneSweepScanDone die bad => Sys2Proof.Machine.execConeSweepScanDone die bad s
  | .maintenancePause ctl => Sys2Proof.Machine.execMaintenancePause ctl s
  | .dcbWrite ch => Sys2Proof.Machine.execDcbWrite ch s
  | .dcbLink ch => Sys2Proof.Machine.execDcbLink ch s
  | .dcbUnlink ch => Sys2Proof.Machine.execDcbUnlink ch s
  | .nodeSubmit ch => Sys2Proof.Machine.execNodeSubmit ch s
  | .stop ch => Sys2Proof.Machine.execStop ch s
  | .resume ch => Sys2Proof.Machine.execResume ch s
  | .windowSet ch => Sys2Proof.Machine.execWindowSet ch s
  | .keyAssign ch => Sys2Proof.Machine.execKeyAssign ch s
  | .measure ch => Sys2Proof.Machine.execMeasure ch s
  | .glazeWrite ch => Sys2Proof.Machine.execGlazeWrite ch s
  | .glazeStagingComplete req => Sys2Proof.Machine.execGlazeStagingComplete req s
  | .bisqueGateOpen req => Sys2Proof.Machine.execBisqueGateOpen req s
  | .keyServiceResponse req ok key => Sys2Proof.Machine.execKeyServiceResponse req ok key s
  | .glazeSignComplete req => Sys2Proof.Machine.execGlazeSignComplete req s
  | .glazeRestore ch => Sys2Proof.Machine.execGlazeRestore ch s
  | .mailboxUnassignedCode ch => Sys2Proof.Machine.execMailboxUnassignedCode ch s
  | .vfMailboxSubmit vf data tee => Sys2Proof.Machine.execVfMailboxSubmit vf data tee s
  | .vmctlPendWrite vf data => Sys2Proof.Machine.execVmctlPendWrite vf data s
  | .vfgenWrite vf => Sys2Proof.Machine.execVfgenWrite vf s
  | .generationBumpComplete vf => Sys2Proof.Machine.execGenerationBumpComplete vf s
  | .srdbWrite vf data tee => Sys2Proof.Machine.execSrdbWrite vf data tee s
  | .fnodeWrite data => Sys2Proof.Machine.execFnodeWrite data s
  | .mcqRelease ctl entry data => Sys2Proof.Machine.execMcqRelease ctl entry data s
  | .prxWrite die data => Sys2Proof.Machine.execPrxWrite die data s
  | .registerWrite r data => Sys2Proof.Machine.execRegisterWrite r data s
  | .hostMemRead addr n => Sys2Proof.Machine.execHostMemRead addr n s
  | .hostMemWrite addr data => Sys2Proof.Machine.execHostMemWrite addr data s
  | .remoteRequest port data => Sys2Proof.Machine.execRemoteRequest port data s
  | .hostLinkDown => Sys2Proof.Machine.execHostLinkDown s
  | .hostLinkUp => Sys2Proof.Machine.execHostLinkUp s
  | .hostCompletionTimeout w acc => Sys2Proof.Machine.execHostCompletionTimeout w acc s
  | .flitReplayExhausted port => Sys2Proof.Machine.execFlitReplayExhausted port s
  | .portRetrainDone port ok => Sys2Proof.Machine.execPortRetrainDone port ok s
  | .portTakenDown port => Sys2Proof.Machine.execPortTakenDown port s
  | .fabricE2eTimeout w acc => Sys2Proof.Machine.execFabricE2eTimeout w acc s
  | .peerUnreachableTimeout peer => Sys2Proof.Machine.execPeerUnreachableTimeout peer s
  | .linkDownMark link => Sys2Proof.Machine.execLinkDownMark link s
  | .telemetrySample die sample => Sys2Proof.Machine.execTelemetrySample die sample s
  | .ageingRead die => Sys2Proof.Machine.execAgeingRead die s
  | .lockInterfaceRequest vf data => Sys2Proof.Machine.execLockInterfaceRequest vf data s
  | .startInterfaceRequest vf data => Sys2Proof.Machine.execStartInterfaceRequest vf data s
  | .stopInterfaceRequest vf => Sys2Proof.Machine.execStopInterfaceRequest vf s
  | .interfaceReport vf => Sys2Proof.Machine.execInterfaceReport vf s
  | .getVersion msg => Sys2Proof.Machine.execGetVersion msg s
  | .getCapabilities msg => Sys2Proof.Machine.execGetCapabilities msg s
  | .negotiateAlgorithms msg => Sys2Proof.Machine.execNegotiateAlgorithms msg s
  | .getDigests msg => Sys2Proof.Machine.execGetDigests msg s
  | .getCertificate msg => Sys2Proof.Machine.execGetCertificate msg s
  | .challenge msg => Sys2Proof.Machine.execChallenge msg s
  | .getMeasurements msg => Sys2Proof.Machine.execGetMeasurements msg s
  | .keyExchange msg => Sys2Proof.Machine.execKeyExchange msg s
  | .finish msg => Sys2Proof.Machine.execFinish msg s
  | .vfFunctionLevelReset vf => Sys2Proof.Machine.execVfFunctionLevelReset vf s
  | .pfFunctionLevelReset => Sys2Proof.Machine.execPfFunctionLevelReset s
  | .packageReset => Sys2Proof.Machine.execPackageReset s
  | .powerRemoved => Sys2Proof.Machine.execPowerRemoved s
  | .uncorrectableError place index => Sys2Proof.Machine.execUncorrectableError place index s

end Sys2Proof.Machine
end

