-- ==== Sys2Proof/Decode.lean ====
section
/-! DEFINITION. Decoding (R102): total on any 128 bits, rejecting by the test that fails; and the encoder, written
from the same tables (R81, R105, and the modifier tables of the owning chapters). -/

namespace Sys2Proof

/-! ## Lengths (R80, R105) -/

/-- The lengths the opcode map permits. -/
inductive Lens where
  | l64 | l64or96 | l96 | l128
deriving DecidableEq, Repr

/-- The opcode map (R105): the lengths of an assigned opcode. -/
def lengths (op : Nat) : Option Lens :=
  if op = 0x01D then some .l128
  else if 0x001 ≤ op && op ≤ 0x01E then some .l64or96
  else if 0x040 ≤ op && op ≤ 0x054 then some .l64or96
  else if op = 0x081 || op = 0x08D || op = 0x08F then some .l64or96
  else if op = 0x083 || op = 0x085 || op = 0x106 then some .l96
  else if op = 0x08A then some .l128
  else if 0x080 ≤ op && op ≤ 0x08E then some .l64
  else if op = 0x0C6 || op = 0x0C8 || op = 0x0C9 then some .l64
  else if 0x0C0 ≤ op && op ≤ 0x0CE then some .l128
  else if op = 0x100 || op = 0x108 then some .l128
  else if 0x101 ≤ op && op ≤ 0x107 then some .l64
  else if op = 0x144 || op = 0x145 then some .l64or96
  else if op = 0x148 then some .l64
  else if 0x140 ≤ op && op ≤ 0x147 then some .l128
  else if op = 0x180 then some .l64or96
  else if op = 0x182 || op = 0x184 || op = 0x185 then some .l64
  else if 0x181 ≤ op && op ≤ 0x18D then some .l128
  else none

/-- Is length code `len` among the lengths? -/
def Lens.permits (l : Lens) (len : BitVec 2) : Bool :=
  match l with
  | .l64 => len == 0
  | .l64or96 => len == 0 || len == 1
  | .l96 => len == 1
  | .l128 => len == 2

/-- Bytes an instruction occupies (R80). -/
def sizeOf (len : BitVec 2) : Nat := if len = 0 ∨ len = 3 then 8 else 16

/-! ## Operand fields (R87, R92) -/

/-- A source field. -/
def decSrc (f : BitVec 10) : Option Src :=
  let x := (f.extractLsb' 0 8).toNat
  match (f.extractLsb' 8 2).toNat with
  | 0 => some (.vec (BitVec.ofNat 8 x))
  | 1 => if x ≤ 0x3F then some (.scal (BitVec.ofNat 6 x)) else none
  | 2 => if x = 0 then some (.latch false) else if x = 1 then some (.latch true) else none
  | _ => if x < 0x40 then some (.imm (BitVec.ofNat 6 x)) else if x < 0x60 then some (.fcon (BitVec.ofNat 5 (x - 0x40)))
         else if x = 0xFF then some .lit else none

/-- The field of a source. -/
def encSrc : Src → BitVec 10
  | .vec i => (0#2 ++ i)
  | .scal i => (1#2 ++ (0#2 ++ i))
  | .latch one => (2#2 ++ (0#7 ++ bit1 one))
  | .imm n => (3#2 ++ (0#2 ++ n))
  | .fcon k => (3#2 ++ (2#3 ++ k))
  | .lit => 0x3FF#10

/-- The destination of an opcode of 0x001-0x01E. -/
def decDst (r : Raw) : Dst :=
  if r.wbit then .latch else if r.ubit then .scal (r.dst.setWidth 6) else .vec r.dst

/-- The destination of a form that may not be uniform. -/
def decVDst (r : Raw) : VDst := if r.wbit then .latch else .vec r.dst

/-- The `W`, `U` and `dst` fields of a destination. -/
def encDst : Dst → Bool × Bool × BitVec 8
  | .vec i => (false, false, i)
  | .scal i => (false, true, (0#2 ++ i))
  | .latch => (true, false, 0)

/-- The `W`, `U` and `dst` fields of a vector destination. -/
def encVDst : VDst → Bool × Bool × BitVec 8
  | .vec i => (false, false, i)
  | .latch => (true, false, 0)

/-- The guard and chain bits. -/
def decHdr (r : Raw) : Hdr := ⟨r.guard, r.nbit, r.cbit⟩

/-- The `U` and `W` tests of R102. -/
def gate (r : Raw) (uOk wOk : Bool) : Except Reject Unit :=
  if r.ubit && (!uOk || decide (0x3F < r.dst.toNat)) then .error .uniform
  else if r.wbit && (!wOk || r.ubit) then .error .suppress
  else .ok ()

/-- One source field that is read (R102): selectors a uniform form may not use, and the literal where the opcode's
lengths do not carry one, are refused. -/
def readField (r : Raw) (litOk : Bool) (f : BitVec 10) : Except Reject Src :=
  match decSrc f with
  | none => .error .source
  | some (.vec i) => if r.ubit then .error .source else .ok (.vec i)
  | some (.latch b) => if r.ubit then .error .source else .ok (.latch b)
  | some .lit => if litOk then .ok .lit else .error .source
  | some s => .ok s

/-- The literal agreement of R82, for a "64/96" opcode: length 96 exactly when a field that is read selects it. -/
def litOf (r : Raw) (l : List Src) : Except Reject Word :=
  if (r.len == 1) = l.any Src.isLit then .ok (if r.len = 1 then r.hi.setWidth 32 else 0)
  else .error .literal

/-- One source of a "64/96" opcode, then the literal. -/
def lit1 (r : Raw) (k : Src → Word → Instr) : Except Reject Instr := do
  let a ← readField r true r.opa
  let l ← litOf r [a]
  .ok (k a l)

/-- Two sources of a "64/96" opcode. -/
def lit2 (r : Raw) (k : Src → Src → Word → Instr) : Except Reject Instr := do
  let a ← readField r true r.opa
  let b ← readField r true r.opb
  let l ← litOf r [a, b]
  .ok (k a b l)

/-- Three sources of a "64/96" opcode. -/
def lit3 (r : Raw) (k : Src → Src → Src → Word → Instr) : Except Reject Instr := do
  let a ← readField r true r.opa
  let b ← readField r true r.opb
  let c ← readField r true r.opc
  let l ← litOf r [a, b, c]
  .ok (k a b c l)

/-- Sources A and C of a "64/96" opcode. -/
def litAC (r : Raw) (k : Src → Src → Word → Instr) : Except Reject Instr := do
  let a ← readField r true r.opa
  let c ← readField r true r.opc
  let l ← litOf r [a, c]
  .ok (k a c l)

/-- One source of an opcode without the literal. -/
def src1 (r : Raw) (k : Src → Instr) : Except Reject Instr := do
  let a ← readField r false r.opa
  .ok (k a)

/-- Two sources of an opcode without the literal. -/
def src2 (r : Raw) (k : Src → Src → Instr) : Except Reject Instr := do
  let a ← readField r false r.opa
  let b ← readField r false r.opb
  .ok (k a b)

/-- Three sources of an opcode without the literal. -/
def src3 (r : Raw) (k : Src → Src → Src → Instr) : Except Reject Instr := do
  let a ← readField r false r.opa
  let b ← readField r false r.opb
  let c ← readField r false r.opc
  .ok (k a b c)

/-- A modifier value, or the reason `modifier`. -/
def needMod {α : Type} (o : Option α) : Except Reject α :=
  match o with
  | some x => .ok x
  | none => .error .modifier

/-! ## Modifier codes -/

/-- Two bits as the type field T (R148). -/
def decITy (m : BitVec 2) : ITy :=
  match m.toNat with
  | 0 => .n32
  | 1 => .s32
  | 2 => .n64
  | _ => .s64

/-- The code of T. -/
def encITy : ITy → BitVec 2
  | .n32 => 0
  | .s32 => 1
  | .n64 => 2
  | .s64 => 3

/-- Arithmetic group with `.sat` in bit 2: bits [6:3] zero. -/
def decArithSat (m : BitVec 7) : Option (ITy × Bool) :=
  if m.extractLsb' 3 4 = 0 then some (decITy (m.extractLsb' 0 2), m.getLsbD 2) else none

/-- Its code. -/
def encArithSat (t : ITy) (s : Bool) : BitVec 7 := 0#4 ++ (bit1 s ++ encITy t)

/-- Arithmetic group without `.sat`: bits [6:2] zero. -/
def decArith (m : BitVec 7) : Option ITy :=
  if m.extractLsb' 2 5 = 0 then some (decITy (m.extractLsb' 0 2)) else none

/-- Its code. -/
def encArith (t : ITy) : BitVec 7 := 0#5 ++ encITy t

/-- Logic group (R148): 0 for 32 bits, 2 for 64. -/
def decLogic (m : BitVec 7) : Option Bool :=
  if m = 0 then some false else if m = 2 then some true else none

/-- Its code. -/
def encLogic (wide : Bool) : BitVec 7 := 0#5 ++ (bit1 wide ++ 0#1)

/-- `imadw`: 0 unsigned, 1 signed. -/
def decBit0 (m : BitVec 7) : Option Bool :=
  if m.extractLsb' 1 6 = 0 then some (m.getLsbD 0) else none

/-- Its code. -/
def encBit0 (b : Bool) : BitVec 7 := 0#6 ++ bit1 b

/-- `iabs`: T is 0 or 2, `.sat` in bit 2. -/
def decIabs (m : BitVec 7) : Option (Bool × Bool) :=
  if m.extractLsb' 3 4 = 0 ∧ m.getLsbD 0 = false then some (m.getLsbD 1, m.getLsbD 2) else none

/-- Its code. -/
def encIabs (wide s : Bool) : BitVec 7 := 0#4 ++ (bit1 s ++ (bit1 wide ++ 0#1))

/-- Integer conditions (R156). -/
def decICond (m : BitVec 4) : Option ICond :=
  match m.toNat with
  | 0 => some .eq
  | 1 => some .ne
  | 2 => some .lt
  | 3 => some .le
  | 4 => some .gt
  | 5 => some .ge
  | _ => none

/-- Their codes. -/
def encICond : ICond → BitVec 4
  | .eq => 0
  | .ne => 1
  | .lt => 2
  | .le => 3
  | .gt => 4
  | .ge => 5

/-- Floating-point conditions (R156). -/
def decFCond (m : BitVec 4) : Option FCond :=
  match m.toNat with
  | 0 => some .eq
  | 1 => some .ne
  | 2 => some .lt
  | 3 => some .le
  | 4 => some .gt
  | 5 => some .ge
  | 6 => some .num
  | 7 => some .nan
  | 8 => some .ltu
  | 9 => some .leu
  | 10 => some .gtu
  | 11 => some .geu
  | _ => none

/-- Their codes. -/
def encFCond : FCond → BitVec 4
  | .eq => 0
  | .ne => 1
  | .lt => 2
  | .le => 3
  | .gt => 4
  | .ge => 5
  | .num => 6
  | .nan => 7
  | .ltu => 8
  | .leu => 9
  | .gtu => 10
  | .geu => 11

/-- `icmp`: T in [1:0], the condition in [6:3], bit 2 zero. -/
def decIcmp (m : BitVec 7) : Option (ITy × ICond) :=
  if m.getLsbD 2 = false then (decICond (m.extractLsb' 3 4)).map (fun c => (decITy (m.extractLsb' 0 2), c)) else none

/-- Its code. -/
def encIcmp (t : ITy) (c : ICond) : BitVec 7 := encICond c ++ (0#1 ++ encITy t)

/-- `sel`: T (logic) in [1:0], bit 2 zero, the predicate in [5:3], its negation in [6]. -/
def decSel (m : BitVec 7) : Option (Bool × BitVec 3 × Bool) :=
  if m.getLsbD 2 = false ∧ m.getLsbD 0 = false then some (m.getLsbD 1, m.extractLsb' 3 3, m.getLsbD 6) else none

/-- Its code. -/
def encSel (wide : Bool) (q : BitVec 3) (n : Bool) : BitVec 7 := bit1 n ++ (q ++ (0#1 ++ (bit1 wide ++ 0#1)))

/-- `shf`: bit 0 `.rot`, bit 1 `.wrap`. -/
def decShf (m : BitVec 7) : Option (Bool × Bool) :=
  if m.extractLsb' 2 5 = 0 then some (m.getLsbD 0, m.getLsbD 1) else none

/-- Its code. -/
def encShf (rot wrap : Bool) : BitVec 7 := 0#5 ++ (bit1 wrap ++ bit1 rot)

/-- `lea`: T in [1:0], the shift in [6:2]. -/
def decLea (m : BitVec 7) : Option (ITy × BitVec 5) := some (decITy (m.extractLsb' 0 2), m.extractLsb' 2 5)

/-- Its code. -/
def encLea (t : ITy) (sh : BitVec 5) : BitVec 7 := sh ++ encITy t

/-- Type codes of `cvti` (R157). -/
def decCvTy (m : BitVec 3) : CvTy :=
  match m.toNat with
  | 0 => .n32
  | 1 => .s32
  | 2 => .n64
  | 3 => .s64
  | 4 => .n8
  | 5 => .s8
  | 6 => .n16
  | _ => .s16

/-- Their codes. -/
def encCvTy : CvTy → BitVec 3
  | .n32 => 0
  | .s32 => 1
  | .n64 => 2
  | .s64 => 3
  | .n8 => 4
  | .s8 => 5
  | .n16 => 6
  | .s16 => 7

/-- `cvti`: source [2:0], destination [5:3], `.sat` [6]. -/
def decCvti (m : BitVec 7) : Option (CvTy × CvTy × Bool) :=
  some (decCvTy (m.extractLsb' 0 3), decCvTy (m.extractLsb' 3 3), m.getLsbD 6)

/-- Its code. -/
def encCvti (s d : CvTy) (sat : Bool) : BitVec 7 := bit1 sat ++ (encCvTy d ++ encCvTy s)

/-- Rounding codes 0-3 (R132). -/
def decRM (m : BitVec 2) : RMode :=
  match m.toNat with
  | 0 => .rne
  | 1 => .rz
  | 2 => .rp
  | _ => .rm

/-- Their codes. -/
def encRM : RMode → BitVec 2
  | .rne => 0
  | .rz => 1
  | .rp => 2
  | .rm => 3

/-- The floating-point modifier bits (R158), where the opcode accepts exactly those of `mask` (R159). -/
def decF (mask m : BitVec 7) : Option (RMode × Bool × Bool × Bool × Bool × Bool) :=
  if m &&& ~~~mask = 0 then
    some (decRM (m.extractLsb' 0 2), m.getLsbD 2, m.getLsbD 3, m.getLsbD 4, m.getLsbD 5, m.getLsbD 6)
  else none

/-- Their code. -/
def encF (r : RMode) (f64 na nb nc sat : Bool) : BitVec 7 :=
  bit1 sat ++ (bit1 nc ++ (bit1 nb ++ (bit1 na ++ (bit1 f64 ++ encRM r))))

/-- `fcmp`: [2] `.f64`, [6:3] the condition, [1:0] zero. -/
def decFcmp (m : BitVec 7) : Option (Bool × FCond) :=
  if m.extractLsb' 0 2 = 0 then (decFCond (m.extractLsb' 3 4)).map (fun c => (m.getLsbD 2, c)) else none

/-- Its code. -/
def encFcmp (f64 : Bool) (c : FCond) : BitVec 7 := encFCond c ++ (bit1 f64 ++ 0#2)

/-- Rounding codes 0-4 of a conversion: `none` where unassigned; the second component says SR. -/
def decRC (m : BitVec 3) : Option (RMode × Bool) :=
  match m.toNat with
  | 0 => some (.rne, false)
  | 1 => some (.rz, false)
  | 2 => some (.rp, false)
  | 3 => some (.rm, false)
  | 4 => some (.rne, true)
  | _ => none

/-- The rounding code of a conversion. -/
def encRC : CvRound → BitVec 3
  | .det .rne => 0
  | .det .rz => 1
  | .det .rp => 2
  | .det .rm => 3
  | .sr _ => 4

/-- The four floating-point formats of `cvtfi` and `cvtif` (R165). -/
def decF4 (m : BitVec 2) : F4 :=
  match m.toNat with
  | 0 => .f32
  | 1 => .f64
  | 2 => .f16
  | _ => .bf16

/-- Their codes. -/
def encF4 : F4 → BitVec 2
  | .f32 => 0
  | .f64 => 1
  | .f16 => 2
  | .bf16 => 3

/-- `cvtf`: rounding [2:0], the rest zero. -/
def decCvtf (m : BitVec 7) : Option (RMode × Bool) :=
  if m.extractLsb' 3 4 = 0 then decRC (m.extractLsb' 0 3) else none

/-- `cvtfi` and `cvtif`: rounding [2:0], integer type [4:3], format [6:5]. -/
def decCvtI (m : BitVec 7) : Option ((RMode × Bool) × ITy × F4) :=
  (decRC (m.extractLsb' 0 3)).map (fun r => (r, decITy (m.extractLsb' 3 2), decF4 (m.extractLsb' 5 2)))

/-- The packed forms (R166): [0] `.bf16`, [2:1] rounding, [3] `.na`, [4] `.nb`, [5] `.nc`, [6] `.sat`. -/
def decPacked (ncOk : Bool) (m : BitVec 7) : Option (Bool × RMode × Bool × Bool × Bool × Bool) :=
  if ncOk || !m.getLsbD 5 then
    some (m.getLsbD 0, decRM (m.extractLsb' 1 2), m.getLsbD 3, m.getLsbD 4, m.getLsbD 5, m.getLsbD 6)
  else none

/-- Their code. -/
def encPacked (bf : Bool) (r : RMode) (na nb nc sat : Bool) : BitVec 7 :=
  bit1 sat ++ (bit1 nc ++ (bit1 nb ++ (bit1 na ++ (encRM r ++ bit1 bf))))

/-- `pset`: type [2:0], condition [6:3] (R167). -/
def decPset (m : BitVec 7) : Option PCmp :=
  match (m.extractLsb' 0 3).toNat with
  | 0 => (decICond (m.extractLsb' 3 4)).map (PCmp.int .n32)
  | 1 => (decICond (m.extractLsb' 3 4)).map (PCmp.int .s32)
  | 2 => (decICond (m.extractLsb' 3 4)).map (PCmp.int .n64)
  | 3 => (decICond (m.extractLsb' 3 4)).map (PCmp.int .s64)
  | 4 => (decFCond (m.extractLsb' 3 4)).map PCmp.f32
  | 5 => (decFCond (m.extractLsb' 3 4)).map PCmp.f64
  | _ => none

/-- Its code. -/
def encPset : PCmp → BitVec 7
  | .int t c => encICond c ++ (0#1 ++ encITy t)
  | .f32 c => encFCond c ++ 4#3
  | .f64 c => encFCond c ++ 5#3

/-- `vote`: predicate [2:0], negate [3], mode [5:4], [6] zero (R174). -/
def decVote (m : BitVec 7) : Option (VoteMode × BitVec 3 × Bool) :=
  if m.getLsbD 6 then none
  else
    let v : VoteMode := match (m.extractLsb' 4 2).toNat with
      | 0 => .any
      | 1 => .all
      | 2 => .ballot
      | _ => .eq
    some (v, m.extractLsb' 0 3, m.getLsbD 3)

/-- Its code. -/
def encVote (v : VoteMode) (q : BitVec 3) (n : Bool) : BitVec 7 :=
  let c : BitVec 2 := match v with
    | .any => 0
    | .all => 1
    | .ballot => 2
    | .eq => 3
  0#1 ++ (c ++ (bit1 n ++ q))

/-- `shfl`: mode [1:0], `.clip` [2] with `.rot` only (R176). -/
def decShfl (m : BitVec 7) : Option ShflMode :=
  match m.toNat with
  | 0 => some .idx
  | 1 => some (.rot false)
  | 5 => some (.rot true)
  | 2 => some .bfly
  | 3 => some .rev
  | _ => none

/-- Its code. -/
def encShfl : ShflMode → BitVec 7
  | .idx => 0
  | .rot false => 1
  | .rot true => 5
  | .bfly => 2
  | .rev => 3

/-- `redw` (R177): codes 0-10 in [3:0], the rest zero. -/
def decRedw (m : BitVec 7) : Option RedwOp :=
  match m.toNat with
  | 0 => some .add
  | 1 => some .nmin
  | 2 => some .nmax
  | 3 => some .smin
  | 4 => some .smax
  | 5 => some .and
  | 6 => some .or
  | 7 => some .xor
  | 8 => some .fadd
  | 9 => some .fmin
  | 10 => some .fmax
  | _ => none

/-- Its code. -/
def encRedw : RedwOp → BitVec 7
  | .add => 0
  | .nmin => 1
  | .nmax => 2
  | .smin => 3
  | .smax => 4
  | .and => 5
  | .or => 6
  | .xor => 7
  | .fadd => 8
  | .fmin => 9
  | .fmax => 10

/-- Scopes (R172, R180, R198). -/
def decScope (m : BitVec 3) : Option Scope :=
  match m.toNat with
  | 0 => some .thr
  | 1 => some .wg
  | 2 => some .kln
  | 3 => some .dev
  | 4 => some .fab
  | _ => none

/-- Their codes. -/
def encScope : Scope → BitVec 3
  | .thr => 0
  | .wg => 1
  | .kln => 2
  | .dev => 3
  | .fab => 4

/-- `fence` (R198): scope [2:0], kind [4:3], [6:5] zero. -/
def decFence (m : BitVec 7) : Option (Scope × FenceKind) :=
  match (m.extractLsb' 3 4).toNat with
  | 0 => (decScope (m.extractLsb' 0 3)).map (fun s => (s, .full))
  | 1 => (decScope (m.extractLsb' 0 3)).map (fun s => (s, .acq))
  | 2 => (decScope (m.extractLsb' 0 3)).map (fun s => (s, .rel))
  | _ => none

/-- Its code. -/
def encFence (s : Scope) (k : FenceKind) : BitVec 7 :=
  let c : BitVec 4 := match k with
    | .full => 0
    | .acq => 1
    | .rel => 2
  c ++ encScope s

/-- Mod bits [1:0] free, the rest zero (R182, R210). -/
def decBits2 (m : BitVec 7) : Option (Bool × Bool) :=
  if m.extractLsb' 2 5 = 0 then some (m.getLsbD 0, m.getLsbD 1) else none

/-- Their code. -/
def encBits2 (b0 b1 : Bool) : BitVec 7 := 0#5 ++ (bit1 b1 ++ bit1 b0)

/-- Mod bits [2:0] free where `mask` allows them, the rest zero. -/
def decBits3 (mask m : BitVec 7) : Option (Bool × Bool × Bool) :=
  if m &&& ~~~mask = 0 then some (m.getLsbD 0, m.getLsbD 1, m.getLsbD 2) else none

/-- Their code. -/
def encBits3 (b0 b1 b2 : Bool) : BitVec 7 := 0#4 ++ (bit1 b2 ++ (bit1 b1 ++ bit1 b0))

/-- `bar` (R200): id [3:0], `.arrive` [4], `.cnt` [5], [6] zero. -/
def decBar (m : BitVec 7) : Option (BitVec 4 × Bool × Bool) :=
  if m.getLsbD 6 then none else some (m.extractLsb' 0 4, m.getLsbD 4, m.getLsbD 5)

/-- Its code. -/
def encBar (id : BitVec 4) (arrive cnt : Bool) : BitVec 7 := 0#1 ++ (bit1 cnt ++ (bit1 arrive ++ id))

/-- `crzread` (R211): the field in [2:0], the rest zero. -/
def decLow3 (m : BitVec 7) : Option (BitVec 3) :=
  if m.extractLsb' 3 4 = 0 then some (m.extractLsb' 0 3) else none

/-- Its code. -/
def encLow3 (x : BitVec 3) : BitVec 7 := 0#4 ++ x

/-- `mzero` (R229): n - 1 in [4:0], the rest zero. -/
def decLow5 (m : BitVec 7) : Option (BitVec 5) :=
  if m.extractLsb' 5 2 = 0 then some (m.extractLsb' 0 5) else none

/-- Its code. -/
def encLow5 (x : BitVec 5) : BitVec 7 := 0#2 ++ x

/-- `mchain` (R229): mode 0, 1 or 2. -/
def decMchain (m : BitVec 7) : Option ChainMode :=
  match m.toNat with
  | 0 => some .off
  | 1 => some .nsplit
  | 2 => some .ksplit
  | _ => none

/-- Its code. -/
def encMchain : ChainMode → BitVec 7
  | .off => 0
  | .nsplit => 1
  | .ksplit => 2

/-- `pmov` mode 0 (R168): [1:0] = 0, [2] zero, ps [5:3], negate [6]. -/
def encPmov (ps : BitVec 3) (n : Bool) : BitVec 7 := bit1 n ++ (ps ++ 0#3)

/-- Source C when it is read. -/
def readNarrow (r : Raw) : Except Reject (Option Src) :=
  if narrowExt r.hi then (readField r false r.opc).map some else .ok none

/-- No modifier bit is assigned. -/
def noMod (r : Raw) : Except Reject Unit := if r.mod = 0 then .ok () else .error .modifier

/-! ## The opcodes -/

/-- Opcodes 0x001-0x01E (R149). -/
def decInt (r : Raw) : Except Reject Instr :=
  let h := decHdr r
  let d := decDst r
  match r.opcode.toNat with
  | 0x001 => do let m ← needMod (decArithSat r.mod); gate r true true; lit2 r (.iadd h m.1 m.2 d)
  | 0x002 => do let m ← needMod (decArithSat r.mod); gate r true true; lit3 r (.iadd3 h m.1 m.2 d)
  | 0x003 => do let m ← needMod (decArithSat r.mod); gate r true true; lit2 r (.isub h m.1 m.2 d)
  | 0x004 => do let m ← needMod (decArith r.mod); gate r true true; lit2 r (.imul h m d)
  | 0x005 => do let m ← needMod (decArith r.mod); gate r true true; lit2 r (.imulhi h m d)
  | 0x006 => do let m ← needMod (decArithSat r.mod); gate r true true; lit3 r (.imad h m.1 m.2 d)
  | 0x007 => do let m ← needMod (decBit0 r.mod); gate r true true; lit3 r (.imadw h m d)
  | 0x008 => do let m ← needMod (decIabs r.mod); gate r true true; lit1 r (.iabs h m.1 m.2 d)
  | 0x009 => do let m ← needMod (decArith r.mod); gate r true true; lit2 r (.imin h m d)
  | 0x00A => do let m ← needMod (decArith r.mod); gate r true true; lit2 r (.imax h m d)
  | 0x00B => do let m ← needMod (decIcmp r.mod); gate r true true; lit2 r (.icmp h m.1 m.2 d)
  | 0x00C => do let m ← needMod (decSel r.mod); gate r true true; lit2 r (.sel h m.1 m.2.1 m.2.2 d)
  | 0x00D => do let m ← needMod (decLogic r.mod); gate r true true; lit2 r (.shl h m d)
  | 0x00E => do let m ← needMod (decLogic r.mod); gate r true true; lit2 r (.shr h m d)
  | 0x00F => do let m ← needMod (decLogic r.mod); gate r true true; lit2 r (.sra h m d)
  | 0x010 => do
    let m ← needMod (decShf r.mod)
    gate r true true
    if m.1 then litAC r (fun a c => .shf h m.2 d a none c) else lit3 r (fun a b c => .shf h m.2 d a (some b) c)
  | 0x011 => do let m ← needMod (decLogic r.mod); gate r true true; lit2 r (.and h m d)
  | 0x012 => do let m ← needMod (decLogic r.mod); gate r true true; lit2 r (.or h m d)
  | 0x013 => do let m ← needMod (decLogic r.mod); gate r true true; lit2 r (.xor h m d)
  | 0x014 => do let m ← needMod (decLogic r.mod); gate r true true; lit3 r (.lop3 h m d)
  | 0x015 => do let m ← needMod (decArith r.mod); gate r true true; lit2 r (.bfe h m d)
  | 0x016 => do let m ← needMod (decLogic r.mod); gate r true true; lit3 r (.bfi h m d)
  | 0x017 => do let m ← needMod (decLogic r.mod); gate r true true; lit1 r (.popc h m d)
  | 0x018 => do let m ← needMod (decLogic r.mod); gate r true true; lit1 r (.clz h m d)
  | 0x019 => do let m ← needMod (decLogic r.mod); gate r true true; lit1 r (.brev h m d)
  | 0x01A => do noMod r; gate r true true; lit3 r (.prmt h d)
  | 0x01B => do let m ← needMod (decLea r.mod); gate r true true; lit2 r (.lea h m.1 m.2 d)
  | 0x01C => do let m ← needMod (decLogic r.mod); gate r true true; lit1 r (.mov h m d)
  | 0x01D => do let m ← needMod (decLogic r.mod); gate r true true; .ok (.movl h m d r.hi)
  | 0x01E => do let m ← needMod (decCvti r.mod); gate r true true; lit1 r (.cvti h m.1 m.2.1 m.2.2 d)
  | _ => .error .opcode

/-- The rounding operand of a conversion that is read from field `f` under SR (R164, R165). -/
def readRound (r : Raw) (m : RMode × Bool) (f : BitVec 10) : Except Reject CvRound :=
  if m.2 then (readField r true f).map CvRound.sr else .ok (.det m.1)

/-- The sources of a rounding operand. -/
def CvRound.srcs : CvRound → List Src
  | .det _ => []
  | .sr s => [s]

/-- Opcodes 0x040-0x054 (R159, R166). -/
def decFp (r : Raw) : Except Reject Instr :=
  let h := decHdr r
  let d := decVDst r
  match r.opcode.toNat with
  | 0x040 => do
    let m ← needMod (decF 0b1011111 r.mod)
    gate r false true
    lit2 r (.fadd h m.1 m.2.1 m.2.2.1 m.2.2.2.1 m.2.2.2.2.2 d)
  | 0x041 => do
    let m ← needMod (decF 0b1011111 r.mod)
    gate r false true
    lit2 r (.fmul h m.1 m.2.1 m.2.2.1 m.2.2.2.1 m.2.2.2.2.2 d)
  | 0x042 => do
    let m ← needMod (decF 0b1111111 r.mod)
    gate r false true
    lit3 r (.fma h m.1 m.2.1 m.2.2.1 m.2.2.2.1 m.2.2.2.2.1 m.2.2.2.2.2 d)
  | 0x043 => do
    let m ← needMod (decF 0b0011100 r.mod)
    gate r false true
    lit2 r (.fmin h m.2.1 m.2.2.1 m.2.2.2.1 d)
  | 0x044 => do
    let m ← needMod (decF 0b0011100 r.mod)
    gate r false true
    lit2 r (.fmax h m.2.1 m.2.2.1 m.2.2.2.1 d)
  | 0x045 => do let m ← needMod (decFcmp r.mod); gate r false true; lit2 r (.fcmp h m.1 m.2 d)
  | 0x046 => do
    let m ← needMod (decF 0b0001111 r.mod)
    gate r false true
    lit1 r (.frcp h m.1 m.2.1 m.2.2.1 d)
  | 0x047 => do
    let m ← needMod (decF 0b0001111 r.mod)
    gate r false true
    lit1 r (.frsq h m.1 m.2.1 m.2.2.1 d)
  | 0x048 => do
    let m ← needMod (decF 0b0001111 r.mod)
    gate r false true
    lit1 r (.fsqrt h m.1 m.2.1 m.2.2.1 d)
  | 0x049 => do let m ← needMod (decF 0b0001000 r.mod); gate r false true; lit1 r (.fex2 h m.2.2.1 d)
  | 0x04A => do let m ← needMod (decF 0b0001000 r.mod); gate r false true; lit1 r (.flg2 h m.2.2.1 d)
  | 0x04B => do let m ← needMod (decF 0b0001000 r.mod); gate r false true; lit1 r (.fsin h m.2.2.1 d)
  | 0x04C => do let m ← needMod (decF 0b0001000 r.mod); gate r false true; lit1 r (.fcos h m.2.2.1 d)
  | 0x04D => do
    let m ← needMod (decF 0b1001111 r.mod)
    gate r false true
    lit2 r (.fscale h m.1 m.2.1 m.2.2.1 m.2.2.2.2.2 d)
  | 0x04E => do let m ← needMod (decF 0b0000100 r.mod); gate r false true; lit1 r (.fclass h m.2.1 d)
  | 0x04F => do
    let m ← needMod (decCvtf r.mod)
    gate r false true
    let a ← readField r true r.opa
    let b ← readField r true r.opb
    let k ← readRound r m r.opc
    let l ← litOf r ([a, b] ++ k.srcs)
    .ok (.cvtf h k d a b l)
  | 0x050 => do
    let m ← needMod (decCvtI r.mod)
    gate r false true
    let a ← readField r true r.opa
    let k ← readRound r m.1 r.opb
    let l ← litOf r ([a] ++ k.srcs)
    .ok (.cvtfi h k m.2.1 m.2.2 d a l)
  | 0x051 => do
    let m ← needMod (decCvtI r.mod)
    gate r false true
    let a ← readField r true r.opa
    let k ← readRound r m.1 r.opb
    let l ← litOf r ([a] ++ k.srcs)
    .ok (.cvtif h k m.2.1 m.2.2 d a l)
  | 0x052 => do
    let m ← needMod (decPacked true r.mod)
    gate r false true
    lit3 r (.hfma2 h m.1 m.2.1 m.2.2.1 m.2.2.2.1 m.2.2.2.2.1 m.2.2.2.2.2 d)
  | 0x053 => do
    let m ← needMod (decPacked false r.mod)
    gate r false true
    lit2 r (.hadd2 h m.1 m.2.1 m.2.2.1 m.2.2.2.1 m.2.2.2.2.2 d)
  | 0x054 => do
    let m ← needMod (decPacked false r.mod)
    gate r false true
    lit2 r (.hmul2 h m.1 m.2.1 m.2.2.1 m.2.2.2.1 m.2.2.2.2.2 d)
  | _ => .error .opcode

/-- Opcodes 0x080-0x08F: predicates, control, warp-wide, `rng`. -/
def decCtl (r : Raw) : Except Reject Instr :=
  let h := decHdr r
  match r.opcode.toNat with
  | 0x080 =>
    if r.mod = 1 then .ok .nopSkip
    else do noMod r; gate r false false; .ok (.nop h)
  | 0x081 => do let k ← needMod (decPset r.mod); gate r false false; lit2 r (.pset h k r.dst)
  | 0x082 =>
    if r.mod.extractLsb' 0 3 = 0 then do
      gate r false false
      .ok (.pmov h (r.mod.extractLsb' 3 3) (r.mod.getLsbD 6) r.dst)
    else if r.mod = 1 then do gate r false false; .ok (.pmovPack h r.dst)
    else if r.mod = 2 then do gate r false false; src1 r (.pmovUnpack h r.dst)
    else .error .modifier
  | 0x083 => do noMod r; gate r false false; .ok (.bra h (r.hi.setWidth 32))
  | 0x084 => do noMod r; gate r false false; src1 r (.brx h)
  | 0x085 => do noMod r; gate r false false; .ok (.call h r.dst (r.hi.setWidth 32))
  | 0x086 => do noMod r; gate r false false; src1 r (.ret h)
  | 0x087 => do noMod r; gate r false false; .ok (.convg h)
  | 0x088 => do noMod r; gate r false false; .ok (.yield h)
  | 0x089 => do noMod r; gate r false false; .ok (.exit h)
  | 0x08A => do noMod r; gate r false false; src2 r (fun a b => .waiteq h r.dst a b r.hi)
  | 0x08B => do let m ← needMod (decVote r.mod); gate r false false; .ok (.vote h m.1 m.2.1 m.2.2 r.dst)
  | 0x08C => do let m ← needMod (decLogic r.mod); gate r false true; src1 r (.matchw h m (decVDst r))
  | 0x08D => do let m ← needMod (decShfl r.mod); gate r false true; lit3 r (.shfl h m (decVDst r))
  | 0x08E => do let m ← needMod (decRedw r.mod); gate r false true; src1 r (.redw h m (decVDst r))
  | 0x08F => do noMod r; gate r false true; lit3 r (.rng h (decVDst r))
  | _ => .error .opcode

/-- Opcodes 0x0C0-0x0CE: memory, atomics, barriers. -/
def decMem (r : Raw) : Except Reject Instr :=
  let h := decHdr r
  match r.opcode.toNat with
  | 0x0C0 => do let m ← needMod (decBit0 r.mod); gate r false false; src2 r (fun a b => .ld h m r.dst a b r.hi)
  | 0x0C1 => do
    let m ← needMod (decBits2 r.mod)
    gate r false false
    src3 r (fun a b c => .st h m.1 m.2 a b c r.hi)
  | 0x0C2 => do
    let m ← needMod (decBits2 r.mod)
    gate r false false
    src2 r (fun a b => .ldfe h m.1 m.2 r.dst a b r.hi)
  | 0x0C3 => do let m ← needMod (decBit0 r.mod); gate r false false; src3 r (fun a b c => .atom h m r.dst a b c r.hi)
  | 0x0C4 => do let m ← needMod (decBit0 r.mod); gate r false false; src3 r (fun a b c => .cas h m r.dst a b c r.hi)
  | 0x0C5 => do let m ← needMod (decBit0 r.mod); gate r false false; src3 r (fun a b c => .red h m a b c r.hi)
  | 0x0C6 => do let m ← needMod (decFence r.mod); gate r false false; .ok (.fence h m.1 m.2)
  | 0x0C7 => do let m ← needMod (decBit0 r.mod); gate r false false; src2 r (fun a b => .prefetch h m a b r.hi)
  | 0x0C8 => do
    let m ← needMod (decBar r.mod)
    gate r false false
    if m.2.2 then src1 r (fun a => .bar h m.1 m.2.1 (some a)) else .ok (.bar h m.1 m.2.1 none)
  | 0x0C9 => do noMod r; gate r false false; .ok (.kbar h)
  | 0x0CA => do noMod r; gate r false false; src3 r (fun a b c => .tbinit h a b c r.hi)
  | 0x0CB => do
    let m ← needMod (decBit0 r.mod)
    gate r false false
    src2 r (fun a b => .tbarrive h m r.dst a b r.hi)
  | 0x0CC => do let m ← needMod (decBit0 r.mod); gate r false false; src2 r (fun a b => .tbexpect h m a b r.hi)
  | 0x0CD => do noMod r; gate r false false; src2 r (fun a b => .tbwait h a b r.hi)
  | 0x0CE => do noMod r; gate r false false; src2 r (fun a b => .tbtest h r.dst a b r.hi)
  | _ => .error .opcode

/-- Opcodes 0x100-0x108: regions and system. -/
def decSys (r : Raw) : Except Reject Instr :=
  let h := decHdr r
  match r.opcode.toNat with
  | 0x100 => do noMod r; gate r false false; .ok (.rgn h r.hi)
  | 0x101 => do let m ← needMod (decBits3 7 r.mod); gate r false false; .ok (.commit h m.1 m.2.1 m.2.2)
  | 0x102 => do noMod r; gate r false false; .ok (.abort h)
  | 0x103 => do noMod r; gate r false false; .ok (.replay h)
  | 0x104 => do let m ← needMod (decBits2 r.mod); gate r false false; src1 r (.ptest h m.1 m.2 r.dst)
  | 0x105 => do let m ← needMod (decLow3 r.mod); gate r false false; src1 r (.crzread h m r.dst)
  | 0x106 => do noMod r; gate r false false; src3 r (fun a b c => .trap h r.dst a b c (r.hi.setWidth 32))
  | 0x107 => do let m ← needMod (decBit0 r.mod); gate r false false; .ok (.rdsys h m r.dst r.opa)
  | 0x108 => do noMod r; gate r false false; src2 r (fun a b => .segset h a b r.hi)
  | _ => .error .opcode

/-- Opcodes 0x140-0x148: copy engine, multicast, collectives. -/
def decCopy (r : Raw) : Except Reject Instr :=
  let h := decHdr r
  match r.opcode.toNat with
  | 0x140 => do
    let m ← needMod (decBits3 7 r.mod)
    gate r false false
    src3 r (fun a b c => .cpyld h m.1 m.2.1 m.2.2 a b c r.hi)
  | 0x141 => do
    let m ← needMod (decBits3 4 r.mod)
    gate r false false
    src3 r (fun a b c => .cpyst h m.2.2 a b c r.hi)
  | 0x142 => do
    let m ← needMod (decBits3 5 r.mod)
    gate r false false
    src3 r (fun a b c => .cpypeer h m.1 m.2.2 a b c r.hi)
  | 0x143 => do
    let m ← needMod (decBits3 5 r.mod)
    gate r false false
    src3 r (fun a b c => .cpygrp h m.1 m.2.2 a b c r.hi)
  | 0x144 => do noMod r; gate r false false; lit2 r (.grpjoin h)
  | 0x145 => do noMod r; gate r false false; lit1 r (.grpleave h)
  | 0x146 => do
    let m ← needMod (decBits3 5 r.mod)
    gate r false false
    src3 r (fun a b c => .cpylin h m.1 m.2.2 a b c r.hi)
  | 0x147 => do noMod r; gate r false false; src2 r (fun a b => .coll h r.dst a b r.hi)
  | 0x148 => do noMod r; gate r false false; src1 r (.collwait h)
  | _ => .error .opcode

/-- Opcodes 0x180-0x18D: the matrix array (R229). -/
def decMat (r : Raw) : Except Reject Instr :=
  let h := decHdr r
  match r.opcode.toNat with
  | 0x180 => do noMod r; gate r false false; lit1 r (.fmtset h r.dst)
  | 0x181 => do
    let m ← needMod (decBit0 r.mod)
    gate r false false
    if m then src1 r (fun a => .mcoefS h r.dst a r.hi) else .ok (.mcoef h r.dst r.hi)
  | 0x182 => do let m ← needMod (decMchain r.mod); gate r false false; .ok (.mchain h m)
  | 0x183 => do
    let m ← needMod (decBits3 2 r.mod)
    gate r false false
    let a ← readField r false r.opa
    let b ← readField r false r.opb
    let c ← readNarrow r
    .ok (.mlds h m.2.1 a b c r.hi)
  | 0x184 => do noMod r; gate r false false; .ok (.mswap h)
  | 0x185 => do let m ← needMod (decLow5 r.mod); gate r false false; .ok (.mzero h r.dst m)
  | 0x186 => do
    let m ← needMod (decBits3 7 r.mod)
    gate r false false
    let a ← readField r false r.opa
    let b ← readField r false r.opb
    let c ← readNarrow r
    .ok (.mma h m.1 m.2.1 m.2.2 a b c r.hi)
  | 0x187 => do
    let m ← needMod (decBits3 7 r.mod)
    if m.1 then
      if m.2.1 then .error .modifier else do gate r false false; .ok (.mfeedStream h m.2.2 r.hi)
    else
      if m.2.2 then .error .modifier else do gate r false false; .ok (.mfeedShadow h m.2.1 r.hi)
  | 0x188 => do
    let m ← needMod (decBits3 2 r.mod)
    gate r false false
    src2 r (fun a b => .mldacc h m.2.1 a b r.hi)
  | 0x189 => do noMod r; gate r false false; .ok (.macc h r.hi)
  | 0x18A => do
    let m ← needMod (decBits3 2 r.mod)
    gate r false false
    match (r.hi.extractLsb' 48 2).toNat with
    | 1 => src1 r (fun a => .mstoreSs h m.2.1 a r.hi)
    | 2 => src1 r (fun a => .mstoreMc h m.2.1 a r.hi)
    | _ => src2 r (fun a b => .mstore h m.2.1 a b r.hi)
  | 0x18B => do let m ← needMod (decBits2 r.mod); gate r false false; .ok (.mnorm h m.1 m.2 r.dst r.hi)
  | 0x18C => do noMod r; gate r false false; .ok (.mpoly h r.hi)
  | 0x18D => do let m ← needMod (decBit0 r.mod); gate r false false; .ok (.msoak h m r.hi)
  | _ => .error .opcode

/-- The form tests of R102: modifier, `U`, `W`, sources and literal, in that order. -/
def decForm (r : Raw) : Except Reject Instr :=
  if r.opcode.toNat < 0x40 then decInt r
  else if r.opcode.toNat < 0x80 then decFp r
  else if r.opcode.toNat < 0xC0 then decCtl r
  else if r.opcode.toNat < 0x100 then decMem r
  else if r.opcode.toNat < 0x140 then decSys r
  else if r.opcode.toNat < 0x180 then decCopy r
  else decMat r

/-- `decode` of R102 on the fields of the word at an address that is `off` modulo 32. -/
def decodeRaw (off : Nat) (r : Raw) : Except Reject Instr :=
  if r.len = 3 then .error .lengthCode
  else
    match lengths r.opcode.toNat with
    | none => .error .opcode
    | some l =>
      if !l.permits r.len then .error .length
      else if 32 < off + sizeOf r.len then .error .crossing
      else if r.len = 1 ∧ r.hi.extractLsb' 32 32 ≠ 0 then .error .padding
      else decForm r

/-- `decode` of R102: `off` is the address modulo 32, `w` the bits there. -/
def decode (off : Nat) (w : BitVec 128) : Except Reject Instr := decodeRaw off (Raw.unpack w)

/-! ## Encoding -/

/-- A raw word of 64 or 128 bits, by its length code. -/
def mkRaw (op : BitVec 10) (len : BitVec 2) (h : Hdr) (m : BitVec 7) (d : Bool × Bool × BitVec 8)
    (a b c : BitVec 10) (hi : BitVec 64) : Raw :=
  { len, cbit := h.chain, wbit := d.1, opcode := op, guard := h.guard, nbit := h.neg, dst := d.2.2, ubit := d.2.1,
    opa := a, opb := b, opc := c, mod := m, hi }

/-- The word of a "64/96" opcode: the literal is carried exactly when a source selects it (R82). -/
def mkLit (op : BitVec 10) (h : Hdr) (m : BitVec 7) (d : Bool × Bool × BitVec 8) (a b c : Option Src)
    (lit : Word) : Raw :=
  let l := (a.toList ++ b.toList ++ c.toList).any Src.isLit
  let f := fun (s : Option Src) => match s with
    | some x => encSrc x
    | none => 0
  mkRaw op (if l then 1 else 0) h m d (f a) (f b) (f c) (if l then lit.setWidth 64 else 0)

/-- The word of an opcode without a literal. -/
def mkSrc (op : BitVec 10) (len : BitVec 2) (h : Hdr) (m : BitVec 7) (d : Bool × Bool × BitVec 8) (a b c : Option Src)
    (hi : BitVec 64) : Raw :=
  let f := fun (s : Option Src) => match s with
    | some x => encSrc x
    | none => 0
  mkRaw op len h m d (f a) (f b) (f c) hi

/-- A `dst` field that is no register destination of R92 or that may not be suppressed. -/
def rawDst (x : BitVec 8) : Bool × Bool × BitVec 8 := (false, false, x)

/-- The fields of an instruction's word; `none` for the events, which have no word. -/
def Instr.toRaw : Instr → Option Raw
  | .iadd h t s d a b l => some (mkLit 0x001 h (encArithSat t s) (encDst d) a b none l)
  | .iadd3 h t s d a b c l => some (mkLit 0x002 h (encArithSat t s) (encDst d) a b c l)
  | .isub h t s d a b l => some (mkLit 0x003 h (encArithSat t s) (encDst d) a b none l)
  | .imul h t d a b l => some (mkLit 0x004 h (encArith t) (encDst d) a b none l)
  | .imulhi h t d a b l => some (mkLit 0x005 h (encArith t) (encDst d) a b none l)
  | .imad h t s d a b c l => some (mkLit 0x006 h (encArithSat t s) (encDst d) a b c l)
  | .imadw h s d a b c l => some (mkLit 0x007 h (encBit0 s) (encDst d) a b c l)
  | .iabs h w s d a l => some (mkLit 0x008 h (encIabs w s) (encDst d) a none none l)
  | .imin h t d a b l => some (mkLit 0x009 h (encArith t) (encDst d) a b none l)
  | .imax h t d a b l => some (mkLit 0x00A h (encArith t) (encDst d) a b none l)
  | .icmp h t c d a b l => some (mkLit 0x00B h (encIcmp t c) (encDst d) a b none l)
  | .sel h w q n d a b l => some (mkLit 0x00C h (encSel w q n) (encDst d) a b none l)
  | .shl h w d a b l => some (mkLit 0x00D h (encLogic w) (encDst d) a b none l)
  | .shr h w d a b l => some (mkLit 0x00E h (encLogic w) (encDst d) a b none l)
  | .sra h w d a b l => some (mkLit 0x00F h (encLogic w) (encDst d) a b none l)
  | .shf h w d a b c l => some (mkLit 0x010 h (encShf b.isNone w) (encDst d) a b c l)
  | .and h w d a b l => some (mkLit 0x011 h (encLogic w) (encDst d) a b none l)
  | .or h w d a b l => some (mkLit 0x012 h (encLogic w) (encDst d) a b none l)
  | .xor h w d a b l => some (mkLit 0x013 h (encLogic w) (encDst d) a b none l)
  | .lop3 h w d a b c l => some (mkLit 0x014 h (encLogic w) (encDst d) a b c l)
  | .bfe h t d a b l => some (mkLit 0x015 h (encArith t) (encDst d) a b none l)
  | .bfi h w d a b c l => some (mkLit 0x016 h (encLogic w) (encDst d) a b c l)
  | .popc h w d a l => some (mkLit 0x017 h (encLogic w) (encDst d) a none none l)
  | .clz h w d a l => some (mkLit 0x018 h (encLogic w) (encDst d) a none none l)
  | .brev h w d a l => some (mkLit 0x019 h (encLogic w) (encDst d) a none none l)
  | .prmt h d a b c l => some (mkLit 0x01A h 0 (encDst d) a b c l)
  | .lea h t sh d a b l => some (mkLit 0x01B h (encLea t sh) (encDst d) a b none l)
  | .mov h w d a l => some (mkLit 0x01C h (encLogic w) (encDst d) a none none l)
  | .movl h w d e => some (mkSrc 0x01D 2 h (encLogic w) (encDst d) none none none e)
  | .cvti h s d sat dd a l => some (mkLit 0x01E h (encCvti s d sat) (encDst dd) a none none l)
  | .fadd h r f na nb s d a b l => some (mkLit 0x040 h (encF r f na nb false s) (encVDst d) a b none l)
  | .fmul h r f na nb s d a b l => some (mkLit 0x041 h (encF r f na nb false s) (encVDst d) a b none l)
  | .fma h r f na nb nc s d a b c l => some (mkLit 0x042 h (encF r f na nb nc s) (encVDst d) a b c l)
  | .fmin h f na nb d a b l => some (mkLit 0x043 h (encF .rne f na nb false false) (encVDst d) a b none l)
  | .fmax h f na nb d a b l => some (mkLit 0x044 h (encF .rne f na nb false false) (encVDst d) a b none l)
  | .fcmp h f c d a b l => some (mkLit 0x045 h (encFcmp f c) (encVDst d) a b none l)
  | .frcp h r f na d a l => some (mkLit 0x046 h (encF r f na false false false) (encVDst d) a none none l)
  | .frsq h r f na d a l => some (mkLit 0x047 h (encF r f na false false false) (encVDst d) a none none l)
  | .fsqrt h r f na d a l => some (mkLit 0x048 h (encF r f na false false false) (encVDst d) a none none l)
  | .fex2 h na d a l => some (mkLit 0x049 h (encF .rne false na false false false) (encVDst d) a none none l)
  | .flg2 h na d a l => some (mkLit 0x04A h (encF .rne false na false false false) (encVDst d) a none none l)
  | .fsin h na d a l => some (mkLit 0x04B h (encF .rne false na false false false) (encVDst d) a none none l)
  | .fcos h na d a l => some (mkLit 0x04C h (encF .rne false na false false false) (encVDst d) a none none l)
  | .fscale h r f na s d a b l => some (mkLit 0x04D h (encF r f na false false s) (encVDst d) a b none l)
  | .fclass h f d a l => some (mkLit 0x04E h (encF .rne f false false false false) (encVDst d) a none none l)
  | .cvtf h r d a b l => some (mkLit 0x04F h (0#4 ++ encRC r) (encVDst d) a b r.src? l)
  | .cvtfi h r t f d a l => some (mkLit 0x050 h (encF4 f ++ (encITy t ++ encRC r)) (encVDst d) a r.src? none l)
  | .cvtif h r t f d a l => some (mkLit 0x051 h (encF4 f ++ (encITy t ++ encRC r)) (encVDst d) a r.src? none l)
  | .hfma2 h bf r na nb nc s d a b c l => some (mkLit 0x052 h (encPacked bf r na nb nc s) (encVDst d) a b c l)
  | .hadd2 h bf r na nb s d a b l => some (mkLit 0x053 h (encPacked bf r na nb false s) (encVDst d) a b none l)
  | .hmul2 h bf r na nb s d a b l => some (mkLit 0x054 h (encPacked bf r na nb false s) (encVDst d) a b none l)
  | .nop h => some (mkSrc 0x080 0 h 0 (rawDst 0) none none none 0)
  | .nopSkip => some (mkSrc 0x080 0 ⟨7, false, false⟩ 1 (rawDst 0) none none none 0)
  | .pset h k x a b l => some (mkLit 0x081 h (encPset k) (rawDst x) a b none l)
  | .pmov h p n x => some (mkSrc 0x082 0 h (encPmov p n) (rawDst x) none none none 0)
  | .pmovPack h x => some (mkSrc 0x082 0 h 1 (rawDst x) none none none 0)
  | .pmovUnpack h x a => some (mkSrc 0x082 0 h 2 (rawDst x) a none none 0)
  | .bra h o => some (mkSrc 0x083 1 h 0 (rawDst 0) none none none (o.setWidth 64))
  | .brx h a => some (mkSrc 0x084 0 h 0 (rawDst 0) a none none 0)
  | .call h x o => some (mkSrc 0x085 1 h 0 (rawDst x) none none none (o.setWidth 64))
  | .ret h a => some (mkSrc 0x086 0 h 0 (rawDst 0) a none none 0)
  | .convg h => some (mkSrc 0x087 0 h 0 (rawDst 0) none none none 0)
  | .yield h => some (mkSrc 0x088 0 h 0 (rawDst 0) none none none 0)
  | .exit h => some (mkSrc 0x089 0 h 0 (rawDst 0) none none none 0)
  | .waiteq h x a b e => some (mkSrc 0x08A 2 h 0 (rawDst x) a b none e)
  | .vote h m q n x => some (mkSrc 0x08B 0 h (encVote m q n) (rawDst x) none none none 0)
  | .matchw h w d a => some (mkSrc 0x08C 0 h (encLogic w) (encVDst d) a none none 0)
  | .shfl h m d a b c l => some (mkLit 0x08D h (encShfl m) (encVDst d) a b c l)
  | .redw h o d a => some (mkSrc 0x08E 0 h (encRedw o) (encVDst d) a none none 0)
  | .rng h d a b c l => some (mkLit 0x08F h 0 (encVDst d) a b c l)
  | .ld h m x a b e => some (mkSrc 0x0C0 2 h (encBit0 m) (rawDst x) a b none e)
  | .st h m f a b c e => some (mkSrc 0x0C1 2 h (encBits2 m f) (rawDst 0) a b c e)
  | .ldfe h m t x a b e => some (mkSrc 0x0C2 2 h (encBits2 m t) (rawDst x) a b none e)
  | .atom h m x a b c e => some (mkSrc 0x0C3 2 h (encBit0 m) (rawDst x) a b c e)
  | .cas h m x a b c e => some (mkSrc 0x0C4 2 h (encBit0 m) (rawDst x) a b c e)
  | .red h m a b c e => some (mkSrc 0x0C5 2 h (encBit0 m) (rawDst 0) a b c e)
  | .fence h s k => some (mkSrc 0x0C6 0 h (encFence s k) (rawDst 0) none none none 0)
  | .prefetch h m a b e => some (mkSrc 0x0C7 2 h (encBit0 m) (rawDst 0) a b none e)
  | .bar h i v c => some (mkSrc 0x0C8 0 h (encBar i v c.isSome) (rawDst 0) c none none 0)
  | .kbar h => some (mkSrc 0x0C9 0 h 0 (rawDst 0) none none none 0)
  | .tbinit h a b c e => some (mkSrc 0x0CA 2 h 0 (rawDst 0) a b c e)
  | .tbarrive h t x a b e => some (mkSrc 0x0CB 2 h (encBit0 t) (rawDst x) a b none e)
  | .tbexpect h t a b e => some (mkSrc 0x0CC 2 h (encBit0 t) (rawDst 0) a b none e)
  | .tbwait h a b e => some (mkSrc 0x0CD 2 h 0 (rawDst 0) a b none e)
  | .tbtest h x a b e => some (mkSrc 0x0CE 2 h 0 (rawDst x) a b none e)
  | .rgn h e => some (mkSrc 0x100 2 h 0 (rawDst 0) none none none e)
  | .commit h e r k => some (mkSrc 0x101 0 h (encBits3 e r k) (rawDst 0) none none none 0)
  | .abort h => some (mkSrc 0x102 0 h 0 (rawDst 0) none none none 0)
  | .replay h => some (mkSrc 0x103 0 h 0 (rawDst 0) none none none 0)
  | .ptest h c w x a => some (mkSrc 0x104 0 h (encBits2 c w) (rawDst x) a none none 0)
  | .crzread h f x a => some (mkSrc 0x105 0 h (encLow3 f) (rawDst x) a none none 0)
  | .trap h x a b c k => some (mkSrc 0x106 1 h 0 (rawDst x) a b c (k.setWidth 64))
  | .rdsys h s x a => some (mkRaw 0x107 0 h (encBit0 s) (rawDst x) a 0 0 0)
  | .segset h a b e => some (mkSrc 0x108 2 h 0 (rawDst 0) a b none e)
  | .cpyld h f m n a b c e => some (mkSrc 0x140 2 h (encBits3 f m n) (rawDst 0) a b c e)
  | .cpyst h n a b c e => some (mkSrc 0x141 2 h (encBits3 false false n) (rawDst 0) a b c e)
  | .cpypeer h f n a b c e => some (mkSrc 0x142 2 h (encBits3 f false n) (rawDst 0) a b c e)
  | .cpygrp h f n a b c e => some (mkSrc 0x143 2 h (encBits3 f false n) (rawDst 0) a b c e)
  | .grpjoin h a b l => some (mkLit 0x144 h 0 (rawDst 0) a b none l)
  | .grpleave h a l => some (mkLit 0x145 h 0 (rawDst 0) a none none l)
  | .cpylin h f n a b c e => some (mkSrc 0x146 2 h (encBits3 f false n) (rawDst 0) a b c e)
  | .coll h x a b e => some (mkSrc 0x147 2 h 0 (rawDst x) a b none e)
  | .collwait h a => some (mkSrc 0x148 0 h 0 (rawDst 0) a none none 0)
  | .fmtset h x a l => some (mkLit 0x180 h 0 (rawDst x) a none none l)
  | .mcoef h x e => some (mkSrc 0x181 2 h 0 (rawDst x) none none none e)
  | .mcoefS h x a e => some (mkSrc 0x181 2 h 1 (rawDst x) a none none e)
  | .mchain h m => some (mkSrc 0x182 0 h (encMchain m) (rawDst 0) none none none 0)
  | .mlds h v a b c e => some (mkSrc 0x183 2 h (encBits3 false v false) (rawDst 0) a b c e)
  | .mswap h => some (mkSrc 0x184 0 h 0 (rawDst 0) none none none 0)
  | .mzero h x n => some (mkSrc 0x185 0 h (encLow5 n) (rawDst x) none none none 0)
  | .mma h z v ch a b c e => some (mkSrc 0x186 2 h (encBits3 z v ch) (rawDst 0) a b c e)
  | .mfeedShadow h t e => some (mkSrc 0x187 2 h (encBits3 false t false) (rawDst 0) none none none e)
  | .mfeedStream h z e => some (mkSrc 0x187 2 h (encBits3 true false z) (rawDst 0) none none none e)
  | .mldacc h v a b e => some (mkSrc 0x188 2 h (encBits3 false v false) (rawDst 0) a b none e)
  | .macc h e => some (mkSrc 0x189 2 h 0 (rawDst 0) none none none e)
  | .mstore h v a b e => some (mkSrc 0x18A 2 h (encBits3 false v false) (rawDst 0) a b none e)
  | .mstoreSs h v a e => some (mkSrc 0x18A 2 h (encBits3 false v false) (rawDst 0) a none none e)
  | .mstoreMc h v a e => some (mkSrc 0x18A 2 h (encBits3 false v false) (rawDst 0) a none none e)
  | .mnorm h d t x e => some (mkSrc 0x18B 2 h (encBits2 d t) (rawDst x) none none none e)
  | .mpoly h e => some (mkSrc 0x18C 2 h 0 (rawDst 0) none none none e)
  | .msoak h c e => some (mkSrc 0x18D 2 h (encBit0 c) (rawDst 0) none none none e)
  | _ => none

/-- The words of an instruction: its 128 bits (the upper 64 are zero for a 64-bit word). -/
def encode (i : Instr) : Option (BitVec 128) := i.toRaw.map Raw.pack

/-- Bytes the instruction occupies (R80); the events occupy none. -/
def Instr.size (i : Instr) : Nat :=
  match i.toRaw with
  | some r => sizeOf r.len
  | none => 0

/-! ## The host's view of the decoder -/

/-- What the decoder reads from an instruction whose bits are `w`, numbered from the first word's bit 0, with zeros
above bit `nbits`; the word stands at the start of a fetch block. -/
def decodeTableWord (nbits w : Nat) : Option Instr :=
  match decode 0 (BitVec.ofNat 128 (w % 2 ^ nbits)) with
  | .ok i => some i
  | .error _ => none

end Sys2Proof
end

