-- ==== Sys2Proof/Machine/Issue.lean ====
section
/-! DEFINITION. From a warp to the instruction it issues (R35, R102, R326, R406, R419): the kept block of its program
counter, the word in it, its decoding. -/

namespace Sys2Proof.Machine

/-- Does something hold the warp back from issue: addresses of held data outside the region that are not translated yet
(R419), a group change that has not reached every shelf (R274), or a stop: at its stop point, and from the signal on at every chain
boundary (R330, R100)? -/
def Lane.stalled (l : Lane) : Bool :=
  l.w.items.any (fun i => i.stage == .walk && (l.explicit i).isNone) || l.w.grp.isSome ||
  l.wg.frozen || (l.wg.stopping && l.w.chain == 0)

/-! ## The selection of a warp (R326, R327) -/

/-- A role's place in a tie (R327). -/
def Role.rank : Role → Nat
  | .copy => 0
  | .matrix => 1
  | .vector => 2

/-- Warp `w`, ready since `c`, comes no later than warp `v`, ready since `d`: age, then role unless `tie` turns that off, then slot. -/
def beforeIn (tie : Bool) (w : Warp) (c : Nat) (v : Warp) (d : Nat) : Bool :=
  decide (c < d) || (c == d && ((tie && decide (w.slot ≤ v.slot)) ||
    (!tie && (decide (w.role.rank < v.role.rank) || (w.role.rank == v.role.rank && decide (w.slot ≤ v.slot))))))

/-- The other warps of the lane: their workgroups and themselves. -/
def State.laneMates (s : State) (l : Lane) : List Lane :=
  s.wgs.flatMap (fun e => if e.2.core ≠ l.wg.core then [] else
    (List.range e.2.warps.length).filterMap (fun i =>
      if e.1 = l.ref.wg ∧ i = l.ref.warp then none else (s.laneOf ⟨e.1, i⟩).filter (fun m => m.w.lane == l.w.lane)))

/-- May the lane issue the warp (R33, R327)? No other warp of it has a chain open; the warp goes on with its own chain, or is the
one that the lane selects. -/
def State.selects (s : State) (l : Lane) : Bool :=
  (s.laneMates l).all (fun m => m.w.chain == 0 && (l.w.chain != 0 ||
    match l.w.since, m.w.since with
    | some c, some d => m.w.batch.isEmpty || m.stalled ||
        beforeIn ((s.rd (Reg.schx (l.wg.core / 32))).getLsbD 0) l.w c m.w d
    | _, _ => true)) &&
  (l.w.chain != 0 || l.w.since.isSome)

/-- Place of a record among those of its cycle (R391): the lane, the memory path with the sagger, the matrix array, the copy engine,
the collective transport; then the warp slot. -/
def CrzRec.place (r : CrzRec) : Nat × Nat :=
  (if r.unit = 0 then 0 else if r.unit = 1 ∨ r.unit = 5 then 1 else if r.unit = 2 then 2 else if r.unit = 3 then 3 else 4, r.wslot)

/-- Does the first place come no later than the second? -/
def placeLe (a b : Nat × Nat) : Bool := decide (a.1 < b.1) || (a.1 == b.1 && decide (a.2 ≤ b.2))

/-- Do the records that the table holds of cycle `now` come no later than place `p`? -/
def Core.recordsUpTo (k : Core) (now : Nat) (p : Nat × Nat) : Bool :=
  k.crz.all (fun e => e.1 == 511 || e.2.stamp.toNat != now || placeLe e.2.place p)

/-- Do the records that a step has made, from table `old` to table `new` in cycle `now`, follow those of their cycle (R391)? -/
def Core.recordsFit (old new : Core) (now : Nat) : Bool :=
  new.crz.all (fun e => e.1 == 511 || Tabs.find? old.crz e.1 == some e.2 || old.recordsUpTo now e.2.place)

/-- A step of a unit takes its turn in its cycle: where its records would come before one that is made, it is not taken now (R391). -/
def State.inPlace (s : State) (o : Host.Outcome State Fault Refusal) : Host.Outcome State Fault Refusal :=
  match o with
  | .next t => if t.cores.all (fun e => (s.core e.1).recordsFit e.2 t.clock) then .next t else .next s
  | x => x

/-- May the core issue on this lane now: no lane from it on has issued in this cycle, and no record of the cycle stands that
comes after the lane's (R391)? -/
def State.inTurn (s : State) (l : Lane) : Bool :=
  (match Tabs.find? s.lastIssue l.wg.core with
  | some (c, k) => c != s.clock || decide (k < l.w.lane)
  | none => true) && l.core.recordsUpTo s.clock (0, l.w.wslot)

/-- The warp of `r` becomes ready, from this cycle on, or is ready no more. -/
def State.markReady (s : State) (r : WRef) (on : Bool) : State :=
  match s.laneOf r with
  | none => s
  | some l => s.putLane { l with w := { l.w with
      since := if on && !l.w.batch.isEmpty && !l.stalled then some (l.w.since.getD s.clock) else none } }

/-- The warp of `r` issues: its lane's turn in this cycle is taken, and it loses its place (R327). -/
def State.begin (s : State) (r : WRef) : State :=
  match s.laneOf r with
  | none => { s with cur := some r }
  | some l => { s.putLane { l with w := { l.w with since := none } } with
      cur := some r
      lastIssue := Tabs.put s.lastIssue l.wg.core (s.clock, l.w.lane) }

/-- Would the instruction open a chain of more than one while a load or atomic has still to write a register (R326)? -/
def Lane.opensEarly (l : Lane) (c : Bool) : Bool :=
  l.w.chain == 0 && l.goesOn c && l.w.accs.any (fun a => decide (a.dst < 255) && match a.kind with
    | .load _ | .atom _ | .cas => true
    | .waiteq | .fence _ => false)

/-! ## Fetch and decode -/

/-- The word at offset `off` of a 32-byte block, as 128 bits; the bytes past the block are no part of it (R85). -/
def wordIn (bs : List Byte) (off : Nat) : BitVec 128 := BitVec.ofNat 128 (leNat ((bs.drop off).take 16))

/-- The instruction a word stands for, or the illegal encoding it is (R102, R103). -/
def instrAt (bs : List Byte) (pc : VAddr) : Instr :=
  let off := pc.toNat % 32
  let w := wordIn bs off
  match decode off w with
  | .ok i => i
  | .error e => .illegalEncoding e (sizeOf (w.setWidth 2) == 16)

/-- The instruction at the batch of `r`, from its kept block; `none` where no block is kept, or where the instruction would open a
chain too early. -/
def State.keptInstr (s : State) (r : WRef) : Option (Instr × VAddr) :=
  match s.laneOf r with
  | none => none
  | some l => match Tabs.find? l.w.kept (l.w.pc.toNat / 32) with
    | none => none
    | some bs =>
      if l.opensEarly ((wordIn bs (l.w.pc.toNat % 32)).getLsbD 2) then none else some (instrAt bs l.w.pc, l.w.pc)

/-- Has the lane the block of its batch? -/
def Lane.hasBlock (l : Lane) : Bool := (Tabs.find? l.w.kept (l.w.pc.toNat / 32)).isSome

/-- The state after a fetch, and the instruction the warp issues; `none` where it issues none now. -/
def State.readyInstr (s : State) (r : WRef) : State × Option Instr :=
  match s.laneOf r with
  | none => (s, none)
  | some l =>
    if l.w.batch.isEmpty || l.stalled || !s.selects l || !s.inTurn l then (s, none)
    else if l.hasBlock then (s, (s.keptInstr r).map Prod.fst)
    else
      let s1 := s.atWarp r (fun c => c.fetch true [])
      (s1, (s1.keptInstr r).bind (fun e => if e.2 = l.w.pc then some e.1 else none))

/-- What the Stoker does before a step ends: it resets the subtrees of interfaces that have moved to error (R460), acts on
mismatches (R481), and notes which binds wait fragmented (R324). -/
def State.tidy (s : State) : State := s.flushErrs.flushMismatches.watchFrag

/-- The outcome of a step after that. -/
def tidied : Host.Outcome State Fault Refusal → Host.Outcome State Fault Refusal
  | .next s => .next s.tidy
  | o => o

end Sys2Proof.Machine
end

