-- ==== Sys2Proof/Machine/Load.lean ====
section
/-! DEFINITION. A workgroup of one warp of one thread that stands at an instruction: the program loaded from outside that
`State.withFetchWord` stands for (log 27). -/

namespace Sys2Proof.Machine

/-- A plane that is not valid. -/
def Plane.none : Plane := ⟨false, 0, 0, false, 0, []⟩

/-- Launch data of a workgroup of one thread. -/
def LaunchInfo.one : LaunchInfo :=
  { hdrVa := 0, nregs := 255, vecOff := 0, sagger := 128, nacc := 0, accF64 := false, scrRows := 1, prvBytes := 0,
    croles := 0, mroles := 0, ngid := [1, 1, 1], ntid := [1, 1, 1], gid := [0, 0, 0], index := 0, kg := 0, kpos := 0,
    paired := false, pword := 0, constBase := 0, constLen := 0, prvBase := 0 }

/-- Segment registers of R60 for a scratchpad of 4,096 bytes, no constants and no private memory. -/
def segsOne : List (BitVec 128) :=
  [BitVec.ofNat 128 ((2 ^ 57 - 1) * 2 ^ 64 + 7 * 2 ^ 57), BitVec.ofNat 128 (4095 * 2 ^ 64 + 2 ^ 61 + 7 * 2 ^ 57),
   BitVec.ofNat 128 ((2 ^ 24 - 1) * 2 ^ 64 + 2 * 2 ^ 61), BitVec.ofNat 128 (3 * 2 ^ 61), BitVec.ofNat 128 (4 * 2 ^ 61), 0, 0, 0]

/-- A thread that stands at `pc`. -/
def Thread.at_ (pc : VAddr) : Thread := { Thread.vacant with pc := pc, st := .eligible }

/-- A warp whose only thread stands at `pc`. -/
def Warp.one (pc : VAddr) : Warp :=
  { thr := Thread.at_ pc :: List.replicate 31 Thread.vacant, s := [], sg := segsOne, lane := 0, slot := 0, blk := 0,
    first := ⟨0, 0, 0, 0, 0, 0, 0⟩, role := .vector, chain := 0, rseq := 0, region := .none, implicit := [], rels := [],
    items := [], accs := [], nextTag := 1, nextId := 1, po := 0, rgnWait := .none, trapWait := .none, trapQ := [],
    svcWait := .none, replay := .none, discard := 0, implicitCount := 0, collCount := 0, colls := [], grp := .none,
    kept := [], since := some 0 }

/-- The workgroup, on core 0, of virtual function 0. -/
def Wg.one (pc : VAddr) : Wg :=
  { core := 0, slot := 0, scrBase := 0, accBase := 0, vf := 0, part := 0, priv := false, info := LaunchInfo.one, die := 0,
    bind := 0, dcb := 0, node := 0, quotas := [], prio := 0, warps := [Warp.one pc], scr := ⟨4096, [], [], [], []⟩, acc := [],
    accBad := [], mc := List.replicate 16 (0, false), fm := List.replicate 8 ⟨0, false⟩, fmOld := .none, ss := 0, active := Plane.none,
    shadow := Plane.none, chainMode := 0, chainCount := 0, chainFailed := [], mq := [], nextM := 0, planeSlot := false, planeBad := [], suspect := [],
    bars := [], kbar := [], groups := [], placed := 0, pair := .none, pairQ := [], stop := .none, kiln := [], move := false,
    stamp := 0 }

/-- Where the instruction stands: virtual address 0x40, in a 64 MiB page at device physical address 0x400_0000. -/
def loadVa : VAddr := 0x40
/-- Its device physical address. -/
def loadPa : Nat := 0x4000040

/-- A state in which the only thread of a new workgroup stands at an instruction of the bytes `bs`, translated by an L0
entry and an L1 leaf with `x`, and its warp issues next. -/
def State.placeProgram (s : State) (bs : List Byte) : State :=
  let m := ((s.memPut 0 0x200000 8 0x400001).memPut 0 0x400000 8 0x4000043).memBytes 0 loadPa bs
  let s1 := m.wr (Reg.vfroot 0) 0x200001
  { s1 with
    wgs := Tabs.put s1.wgs s1.nextWg (Wg.one loadVa)
    nextWg := s1.nextWg + 1
    agenda := ⟨0, .issue ⟨s1.nextWg, 0⟩⟩ :: s1.agenda }

end Sys2Proof.Machine
end

