-- ==== Sys2Proof/Machine/Step.lean ====
section
/-! DEFINITION. The step: the next entry of the agenda (log 1), and the placing of one instruction before the fetch. -/

namespace Sys2Proof.Machine

/-- The warp `r` issues: it fetches where no block is kept, decodes, and executes; a warp that cannot issue now leaves
the machine as it is. -/
def issue (s : State) (r : WRef) : Host.Outcome State Fault Refusal :=
  match s.readyInstr r with
  | (s1, none) => .next s1
  | (s1, some i) => exec i (s1.begin r)

/-- One step: the first entry of the agenda, after its cycles have passed; with an empty agenda one cycle passes in which
no agent acts. -/
def step (s : State) : Host.Outcome State Fault Refusal :=
  match s.agenda with
  | [] => .next { s with clock := s.clock + 1 }
  | ⟨dt, a⟩ :: rest =>
    let s1 := { s with agenda := rest, clock := s.clock + dt }
    match a with
    | .issue r => tidied (issue s1 r)
    | .arrayRead n e k => tidied (s1.inPlace (.next (s1.arrayRead n e k)))
    | .arrayLastRead n e => tidied (s1.inPlace (.next (s1.arrayLastRead n e)))
    | .ready r on => tidied (.next (s1.markReady r on))
    | .event i => tidied (s1.inPlace (exec i s1))

/-- The state `s` with an instruction of `nbits` bits `w` stored where the next step fetches (log 27). -/
def State.withFetchWord (s : State) (nbits w : Nat) : State := s.placeProgram (leBytes 16 (w % 2 ^ nbits))

end Sys2Proof.Machine
end

