-- ==== Sys2Proof/WellFormed.lean ====
section
/-! DEFINITION. Which terms of `Instr` are instructions a word can stand for: the sources a form may select (R87,
R93), the literal in its one canonical place (R82), and the sources that an extension field makes a form read. -/

namespace Sys2Proof

/-- A source a uniform form may read (R93). -/
def Src.uniform : Src → Bool
  | .vec _ => false
  | .latch _ => false
  | _ => true

/-- The sources of a form with destination `d`: a uniform form reads no vector register and no latch. -/
def uniOk (d : Dst) (l : List Src) : Bool :=
  match d with
  | .scal _ => l.all Src.uniform
  | _ => true

/-- The literal is zero when no source selects it (R82). -/
def litOk (l : List Src) (lit : Word) : Bool := l.any Src.isLit || lit == 0

/-- No source selects the literal: the opcode's lengths carry none (R82, R83). -/
def noLit (l : List Src) : Bool := l.all (fun s => !s.isLit)

/-- Both tests of an opcode of 0x001-0x01E. -/
def intOk (d : Dst) (l : List Src) (lit : Word) : Bool := uniOk d l && litOk l lit

/-- The instruction has a word: decoding its encoding gives it back. Events have no word and carry no condition. -/
def Instr.wf : Instr → Bool
  | .iadd _ _ _ d a b l => intOk d [a, b] l
  | .iadd3 _ _ _ d a b c l => intOk d [a, b, c] l
  | .isub _ _ _ d a b l => intOk d [a, b] l
  | .imul _ _ d a b l => intOk d [a, b] l
  | .imulhi _ _ d a b l => intOk d [a, b] l
  | .imad _ _ _ d a b c l => intOk d [a, b, c] l
  | .imadw _ _ d a b c l => intOk d [a, b, c] l
  | .iabs _ _ _ d a l => intOk d [a] l
  | .imin _ _ d a b l => intOk d [a, b] l
  | .imax _ _ d a b l => intOk d [a, b] l
  | .icmp _ _ _ d a b l => intOk d [a, b] l
  | .sel _ _ _ _ d a b l => intOk d [a, b] l
  | .shl _ _ d a b l => intOk d [a, b] l
  | .shr _ _ d a b l => intOk d [a, b] l
  | .sra _ _ d a b l => intOk d [a, b] l
  | .shf _ _ d a b c l => intOk d (a :: (b.toList ++ [c])) l
  | .and _ _ d a b l => intOk d [a, b] l
  | .or _ _ d a b l => intOk d [a, b] l
  | .xor _ _ d a b l => intOk d [a, b] l
  | .lop3 _ _ d a b c l => intOk d [a, b, c] l
  | .bfe _ _ d a b l => intOk d [a, b] l
  | .bfi _ _ d a b c l => intOk d [a, b, c] l
  | .popc _ _ d a l => intOk d [a] l
  | .clz _ _ d a l => intOk d [a] l
  | .brev _ _ d a l => intOk d [a] l
  | .prmt _ d a b c l => intOk d [a, b, c] l
  | .lea _ _ _ d a b l => intOk d [a, b] l
  | .mov _ _ d a l => intOk d [a] l
  | .cvti _ _ _ _ d a l => intOk d [a] l
  | .fadd _ _ _ _ _ _ _ a b l => litOk [a, b] l
  | .fmul _ _ _ _ _ _ _ a b l => litOk [a, b] l
  | .fma _ _ _ _ _ _ _ _ a b c l => litOk [a, b, c] l
  | .fmin _ _ _ _ _ a b l => litOk [a, b] l
  | .fmax _ _ _ _ _ a b l => litOk [a, b] l
  | .fcmp _ _ _ _ a b l => litOk [a, b] l
  | .frcp _ _ _ _ _ a l => litOk [a] l
  | .frsq _ _ _ _ _ a l => litOk [a] l
  | .fsqrt _ _ _ _ _ a l => litOk [a] l
  | .fex2 _ _ _ a l => litOk [a] l
  | .flg2 _ _ _ a l => litOk [a] l
  | .fsin _ _ _ a l => litOk [a] l
  | .fcos _ _ _ a l => litOk [a] l
  | .fscale _ _ _ _ _ _ a b l => litOk [a, b] l
  | .fclass _ _ _ a l => litOk [a] l
  | .cvtf _ r _ a b l => litOk ([a, b] ++ r.src?.toList) l
  | .cvtfi _ r _ _ _ a l => litOk ([a] ++ r.src?.toList) l
  | .cvtif _ r _ _ _ a l => litOk ([a] ++ r.src?.toList) l
  | .hfma2 _ _ _ _ _ _ _ _ a b c l => litOk [a, b, c] l
  | .hadd2 _ _ _ _ _ _ _ a b l => litOk [a, b] l
  | .hmul2 _ _ _ _ _ _ _ a b l => litOk [a, b] l
  | .pset _ _ _ a b l => litOk [a, b] l
  | .pmovUnpack _ _ a => noLit [a]
  | .brx _ a => noLit [a]
  | .ret _ a => noLit [a]
  | .waiteq _ _ a b _ => noLit [a, b]
  | .matchw _ _ _ a => noLit [a]
  | .shfl _ _ _ a b c l => litOk [a, b, c] l
  | .redw _ _ _ a => noLit [a]
  | .rng _ _ a b c l => litOk [a, b, c] l
  | .ld _ _ _ a b _ => noLit [a, b]
  | .st _ _ _ a b c _ => noLit [a, b, c]
  | .ldfe _ _ _ _ a b _ => noLit [a, b]
  | .atom _ _ _ a b c _ => noLit [a, b, c]
  | .cas _ _ _ a b c _ => noLit [a, b, c]
  | .red _ _ a b c _ => noLit [a, b, c]
  | .prefetch _ _ a b _ => noLit [a, b]
  | .bar _ _ _ c => noLit c.toList
  | .tbinit _ a b c _ => noLit [a, b, c]
  | .tbarrive _ _ _ a b _ => noLit [a, b]
  | .tbexpect _ _ a b _ => noLit [a, b]
  | .tbwait _ a b _ => noLit [a, b]
  | .tbtest _ _ a b _ => noLit [a, b]
  | .ptest _ _ _ _ a => noLit [a]
  | .crzread _ _ _ a => noLit [a]
  | .trap _ _ a b c _ => noLit [a, b, c]
  | .segset _ a b _ => noLit [a, b]
  | .cpyld _ _ _ _ a b c _ => noLit [a, b, c]
  | .cpyst _ _ a b c _ => noLit [a, b, c]
  | .cpypeer _ _ _ a b c _ => noLit [a, b, c]
  | .cpygrp _ _ _ a b c _ => noLit [a, b, c]
  | .grpjoin _ a b l => litOk [a, b] l
  | .grpleave _ a l => litOk [a] l
  | .cpylin _ _ _ a b c _ => noLit [a, b, c]
  | .coll _ _ a b _ => noLit [a, b]
  | .collwait _ a => noLit [a]
  | .fmtset _ _ a l => litOk [a] l
  | .mcoefS _ _ a _ => noLit [a]
  | .mlds _ _ a b c e => noLit (a :: b :: c.toList) && c.isSome == narrowExt e
  | .mma _ _ _ _ a b c e => noLit (a :: b :: c.toList) && c.isSome == narrowExt e
  | .mldacc _ _ a b _ => noLit [a, b]
  | .mstore _ _ a b e => noLit [a, b] && e.extractLsb' 48 2 != 1 && e.extractLsb' 48 2 != 2
  | .mstoreSs _ _ a e => noLit [a] && e.extractLsb' 48 2 == 1
  | .mstoreMc _ _ a e => noLit [a] && e.extractLsb' 48 2 == 2
  | _ => true

end Sys2Proof
end

