-- ==== Sys2Proof/Safety.lean ====
section
/-! DEFINITION. What a safe run is, and the terms that the statements use: what it means that a thread moved past an
instruction, that a result was written, that nothing else changed, and the operands and results of each instruction. -/

namespace Sys2Proof.Machine

/-- The step answers a next state. -/
def State.runs (s : State) : Prop := ∃ t, step s = .next t

/-- Memory is in canonical form. -/
def State.memOk (s : State) : Prop := s.mem.wf = true

end Sys2Proof.Machine

namespace Sys2Proof.Claims

open Sys2Proof.Machine

/-! ## Words, steps, reset -/

/-- A base word from its fields, in the order of R81. -/
def baseWord (mod opc opb opa : Nat) (u : Nat) (dst n guard opcode w c len : Nat) : Nat :=
  mod * 2 ^ 57 + opc * 2 ^ 47 + opb * 2 ^ 37 + opa * 2 ^ 27 + u * 2 ^ 26 + dst * 2 ^ 18 + n * 2 ^ 17 + guard * 2 ^ 14 + opcode * 2 ^ 4 +
  w * 2 ^ 3 + c * 2 ^ 2 + len

/-- A word with a literal, an opcode immediate or an extension word above it (R80). -/
def wordWith (hi base : Nat) : BitVec 128 := BitVec.ofNat 128 (hi * 2 ^ 64 + base)

/-- Bytes of 32 at `a` of memory under key slot `k`, as a fetch keeps them (R406). -/
def blockAt (s : State) (k a : Nat) : List Byte := (s.memWords k a 32).flatMap (fun w => leBytes 4 w.val.toNat)

/-- The lane with a block kept for its program counter. -/
def keeping (l : Lane) (bs : List Byte) : Lane := { l with w := { l.w with kept := Tabs.put l.w.kept (l.w.pc.toNat / 32) bs } }

/-- The instruction that the bytes of block `bs` at its offset `pc mod 32` stand for; a word that stands for none is the illegal
encoding of its length code (R102, R103). -/
def readsAs (bs : List Byte) (pc : VAddr) (i : Instr) : Prop :=
  decode (pc.toNat % 32) (wordIn bs (pc.toNat % 32)) = .ok i ∨
  ∃ e, decode (pc.toNat % 32) (wordIn bs (pc.toNat % 32)) = .error e ∧
    i = .illegalEncoding e (sizeOf ((wordIn bs (pc.toNat % 32)).setWidth 2) == 16)

/-- The chain-continue bit of the word at `pc` in block `bs` (R81). -/
def chainBit (bs : List Byte) (pc : VAddr) : Bool := (wordIn bs (pc.toNat % 32)).getLsbD 2

/-- The warp may issue now: it has a batch that nothing stalls, its lane selects it, and its lane's turn in this cycle has not passed
(R33, R326, R327, R391). -/
def mayIssue (s : State) (l : Lane) : Prop := l.w.batch ≠ [] ∧ l.stalled = false ∧ s.selects l = true ∧ s.inTurn l = true

/-- The wait of R324 is counted only where it can be one: for a bind that is open, whose function may place, on a core that is in
service and that the bind names, or, for new members of a kiln group, that is one of a kiln that the bind names. -/
def watchSound (s : State) : Prop :=
  ∀ e ∈ s.binds, ∀ c ∈ e.2.frag.map Prod.fst,
    e.2.open_ = true ∧ s.mayPlace e.2.dcb = true ∧ s.inService c = true ∧
    (e.2.kg = 0 → c ∈ e.2.sites (e.1 / 256)) ∧
    (e.2.kg ≠ 0 → e.2.resume = false ∧ ∃ d ∈ e.2.sites (e.1 / 256), ∃ j, c = d / 4 * 4 + j)

end Sys2Proof.Claims

namespace Sys2Proof.Claims

open Sys2Proof.Machine

/-! ## What the statements speak of -/

/-- Registers and predicates of a thread as they were. -/
def kept (x y : Thread) : Prop := y.v = x.v ∧ y.p = x.p ∧ y.pt = x.pt ∧ y.pp = x.pp

/-- A word that holds a result: the payload where it is crazed, else 32 bits of the value from bit `lo` (R386, R387). -/
def wordOf (v : DWord) (c : Option Word) (lo : Nat) : TWord :=
  match c with
  | some p => ⟨p, true⟩
  | none => ⟨(v >>> lo).setWidth 32, false⟩

/-- Thread `y` is `x` with the result `v`, crazed by `c`, in the destination, and nothing else of registers and predicates
changed: `vz` and `p7` discard (R54, R169), a pair takes both words (R143, R387), a latch form writes no register. -/
def written (d : ADst) (v : DWord) (c : Option Word) (x y : Thread) : Prop :=
  match d with
  | .vec i wide =>
    (i ≠ 255 → y.vreg i.toNat = wordOf v c 0 ∧ (wide → i.toNat + 1 ≠ 255 → y.vreg (i.toNat + 1) = wordOf v c 32)) ∧
    (∀ j, j ≠ i.toNat → (wide → j ≠ i.toNat + 1) → y.vreg j = x.vreg j) ∧ (i = 255 → y.v = x.v) ∧
    y.p = x.p ∧ y.pt = x.pt ∧ y.pp = x.pp
  | .pred k =>
    (k ≠ 7 → y.predCraze k = c ∧ (c = none → y.pred k = v.getLsbD 0)) ∧
    (∀ j, j ≠ k → y.pred j = x.pred j ∧ y.predTag j = x.predTag j) ∧ (k = 7 → kept x y) ∧ y.v = x.v
  | _ => kept x y

/-- The machine `t` is `s` but for the warp of the lane `l`, which is `w` now: every other warp, workgroup and core, every
register of the functions and all of memory are as before. -/
structure onlyWarp (s t : State) (l : Lane) (w : Warp) : Prop where
  rest : t = { s with wgs := t.wgs, cores := t.cores }
  bytes : ∀ a, t.mem.byte a = s.mem.byte a
  warp : t.warp? l.ref = some ({ l.wg with warps := l.wg.warps.set l.ref.warp w }, w)
  groups : ∀ n, n ≠ l.ref.wg → t.wg? n = s.wg? n
  cores : ∀ c, t.core c = s.core c

/-- Of the warp, the threads and the length of the chain alone have changed. -/
def onlyThreads (l : Lane) (w : Warp) : Prop := w = { l.w with thr := w.thr, chain := w.chain }

/-- A thread that was not in the batch: a yielded one rejoins (R36), any other is as it was. -/
def bystander (x y : Thread) : Prop :=
  kept x y ∧ y.pc = x.pc ∧ y.st = (if x.st = .yielded then .eligible else x.st)

/-- A thread has moved past an instruction of `n` bytes (R84). -/
def past (n : Nat) (x y : Thread) : Prop := y.pc = x.pc + BitVec.ofNat 57 n ∧ y.st = .eligible

/-- The values of the sources of a thread and the first craze among them (R394), when no source is an invalid latch. -/
def sources (w : Warp) (x : Thread) (lit : Word) (l : List (Src × OKind)) : Option (List DWord × Option Word) :=
  (l.mapM (fun p => readSrc w x lit p.2 p.1)).map (fun r => (r.map Prod.fst, crazeOf (r.map Prod.snd)))

/-- The active set of an instruction with header `h` (R29, R94). -/
def active (l : Lane) (h : Hdr) : List Nat := l.w.batch.filter (fun t => guardHolds h (l.w.th t))

/-- The lane is clear to issue: no outstanding load writes one of the registers `rs`, and no register of an active thread
hides an error (R189, R426). -/
def clear (l : Lane) (h : Hdr) (rs : List (Nat × Nat)) : Prop :=
  l.w.ready rs = true ∧ ∀ t ∈ active l h, (l.w.th t).bad = []

/-! ## Instructions that compute on registers -/

/-- An instruction that computes on registers: its header, its bytes, its destination, its sources with their kinds, its
predicate operand, and its result. -/
structure RegForm where
  h : Hdr
  size : Nat
  dst : ADst
  srcs : List (Src × OKind)
  lit : Word
  pred : Option (BitVec 3 × Bool)
  val : List DWord → DWord

/-- Sources of one kind. -/
def src (k : OKind) (l : List Src) : List (Src × OKind) := l.map (·, k)

/-- A form without a predicate operand, whose size follows from its sources (R80, R82). -/
def RegForm.of (h : Hdr) (dst : ADst) (srcs : List (Src × OKind)) (lit : Word) (val : List DWord → DWord) : RegForm :=
  ⟨h, litSize (srcs.map Prod.fst), dst, srcs, lit, none, val⟩

/-- The instructions 0x001-0x01E (R149): operands and result of each. -/
def intForm : Instr → Option RegForm
  | .iadd h t sat d a b lit => some (.of h (aluDst d (ityWide t)) (src (ikind (ityWide t)) [a, b]) lit
      (fun v => fit t sat (intOf t (arg v 0) + intOf t (arg v 1))))
  | .iadd3 h t sat d a b c lit => some (.of h (aluDst d (ityWide t)) (src (ikind (ityWide t)) [a, b, c]) lit
      (fun v => fit t sat (intOf t (arg v 0) + intOf t (arg v 1) + intOf t (arg v 2))))
  | .isub h t sat d a b lit => some (.of h (aluDst d (ityWide t)) (src (ikind (ityWide t)) [a, b]) lit
      (fun v => fit t sat (intOf t (arg v 0) - intOf t (arg v 1))))
  | .imul h t d a b lit => some (.of h (aluDst d (ityWide t)) (src (ikind (ityWide t)) [a, b]) lit
      (fun v => wrapTo (ityBits t) (intOf t (arg v 0) * intOf t (arg v 1))))
  | .imulhi h t d a b lit => some (.of h (aluDst d (ityWide t)) (src (ikind (ityWide t)) [a, b]) lit
      (fun v => wrapTo (ityBits t) (intOf t (arg v 0) * intOf t (arg v 1) / 2 ^ ityBits t)))
  | .imad h t sat d a b c lit => some (.of h (aluDst d (ityWide t)) (src (ikind (ityWide t)) [a, b, c]) lit
      (fun v => fit t sat (intOf t (arg v 0) * intOf t (arg v 1) + intOf t (arg v 2))))
  | .imadw h sg d a b c lit => some (.of h (aluDst d true) (src .i32 [a, b] ++ src .i64 [c]) lit
      (fun v => wrapTo 64 (intOf (if sg then .s32 else .n32) (arg v 0) * intOf (if sg then .s32 else .n32) (arg v 1) +
        (arg v 2).toNat)))
  | .iabs h wide sat d a lit => some (.of h (aluDst d wide) (src (ikind wide) [a]) lit
      (fun v => fit (if wide then .s64 else .s32) sat (intOf (if wide then .s64 else .s32) (arg v 0)).natAbs))
  | .imin h t d a b lit => some (.of h (aluDst d (ityWide t)) (src (ikind (ityWide t)) [a, b]) lit
      (fun v => wrapTo (ityBits t) (min (intOf t (arg v 0)) (intOf t (arg v 1)))))
  | .imax h t d a b lit => some (.of h (aluDst d (ityWide t)) (src (ikind (ityWide t)) [a, b]) lit
      (fun v => wrapTo (ityBits t) (max (intOf t (arg v 0)) (intOf t (arg v 1)))))
  | .icmp h t c d a b lit => some (.of h (aluDst d false) (src (ikind (ityWide t)) [a, b]) lit
      (fun v => boolVal (icond c (intOf t (arg v 0)) (intOf t (arg v 1)))))
  | .sel h wide q nq d a b lit => some { RegForm.of h (aluDst d wide) (src (ikind wide) [a, b]) lit
      (fun v => if arg v 2 = 1 then arg v 0 else arg v 1) with pred := some (q, nq) }
  | .shl h wide d a b lit => some (.of h (aluDst d wide) (src (ikind wide) [a] ++ src .i32 [b]) lit
      (fun v => shlVal wide (arg v 0) (arg v 1)))
  | .shr h wide d a b lit => some (.of h (aluDst d wide) (src (ikind wide) [a] ++ src .i32 [b]) lit
      (fun v => shrVal wide (arg v 0) (arg v 1)))
  | .sra h wide d a b lit => some (.of h (aluDst d wide) (src (ikind wide) [a] ++ src .i32 [b]) lit
      (fun v => sraVal wide (arg v 0) (arg v 1)))
  | .shf h wrap d a none c lit => some (.of h (aluDst d false) (src .i32 [a, c]) lit
      (fun v => shfVal wrap (arg v 0) none (arg v 1)))
  | .shf h wrap d a (some b) c lit => some (.of h (aluDst d false) (src .i32 [a, b, c]) lit
      (fun v => shfVal wrap (arg v 0) (some (arg v 1)) (arg v 2)))
  | .and h wide d a b lit => some (.of h (aluDst d wide) (src (ikind wide) [a, b]) lit (fun v => arg v 0 &&& arg v 1))
  | .or h wide d a b lit => some (.of h (aluDst d wide) (src (ikind wide) [a, b]) lit (fun v => arg v 0 ||| arg v 1))
  | .xor h wide d a b lit => some (.of h (aluDst d wide) (src (ikind wide) [a, b]) lit (fun v => arg v 0 ^^^ arg v 1))
  | .lop3 h wide d a b c lit => some
      { RegForm.of h (aluDst d wide) (src (ikind wide) [a, b] ++ src .i32 [c] ++ src (ikind wide) [lop3Z d]) lit
          (fun v => lop3Val wide (arg v 0) (arg v 1) (arg v 2) (arg v 3)) with size := litSize [a, b, c] }
  | .bfe h t d a b lit => some (.of h (aluDst d (ityWide t)) (src (ikind (ityWide t)) [a] ++ src .i32 [b]) lit
      (fun v => bfeVal t (arg v 0) (arg v 1)))
  | .bfi h wide d a b c lit => some (.of h (aluDst d wide) (src (ikind wide) [a, b] ++ src .i32 [c]) lit
      (fun v => bfiVal wide (arg v 0) (arg v 1) (arg v 2)))
  | .popc h wide d a lit => some (.of h (aluDst d false) (src (ikind wide) [a]) lit
      (fun v => BitVec.ofNat 64 (popCount 64 (logicOf wide (arg v 0)))))
  | .clz h wide d a lit => some (.of h (aluDst d false) (src (ikind wide) [a]) lit
      (fun v => BitVec.ofNat 64 (logicBits wide - Num.bitLen (logicOf wide (arg v 0)))))
  | .brev h wide d a lit => some (.of h (aluDst d wide) (src (ikind wide) [a]) lit
      (fun v => BitVec.ofNat 64 (revBits (logicBits wide) (logicOf wide (arg v 0)))))
  | .prmt h d a b c lit => some (.of h (aluDst d false) (src .i32 [a, b, c]) lit
      (fun v => prmtVal (arg v 0) (arg v 1) (arg v 2)))
  | .lea h t sh d a b lit => some (.of h (aluDst d (ityWide t)) (src (ikind (ityWide t)) [a] ++ src .i32 [b]) lit
      (fun v => leaVal t sh.toNat (arg v 0) (arg v 1)))
  | .mov h wide d a lit => some (.of h (aluDst d wide) (src (ikind wide) [a]) lit (fun v => arg v 0))
  | .movl h wide d e => some ⟨h, 16, aluDst d wide, [], 0, none, fun _ => e⟩
  | .cvti h x y sat d a lit => some (.of h (aluDst d (cvWide y)) (src (ikind (cvWide x)) [a]) lit
      (fun v => cvtiVal x y sat (arg v 0)))
  | _ => none

/-- The floating-point and packed instructions but `cvtf` (R159, R166), `rng` (R178), `pset` and `pmov` of one predicate
(R167, R168): operands and result of each. -/
def valForm : Instr → Option RegForm
  | .fadd h r f64 na nb sat d a b lit => some (.of h (aluVDst d f64) (src (fkind f64) [a, b]) lit
      (fun v => BitVec.ofNat 64 (fround (fmtOf f64) (.det r) sat
        (Num.X.add (isRm r) (fval (fmtOf f64) na (arg v 0)) (fval (fmtOf f64) nb (arg v 1))))))
  | .fmul h r f64 na nb sat d a b lit => some (.of h (aluVDst d f64) (src (fkind f64) [a, b]) lit
      (fun v => BitVec.ofNat 64 (fround (fmtOf f64) (.det r) sat
        (Num.X.mul (fval (fmtOf f64) na (arg v 0)) (fval (fmtOf f64) nb (arg v 1))))))
  | .fma h r f64 na nb nc sat d a b c lit => some (.of h (aluVDst d f64) (src (fkind f64) [a, b, c]) lit
      (fun v => BitVec.ofNat 64 (fround (fmtOf f64) (.det r) sat (Num.X.add (isRm r)
        (Num.X.mul (fval (fmtOf f64) na (arg v 0)) (fval (fmtOf f64) nb (arg v 1))) (fval (fmtOf f64) nc (arg v 2))))))
  | .fmin h f64 na nb d a b lit => some (.of h (aluVDst d f64) (src (fkind f64) [a, b]) lit
      (fun v => BitVec.ofNat 64 (Num.roundTo (fminmax false (fval (fmtOf f64) na (arg v 0)) (fval (fmtOf f64) nb (arg v 1)))
        (fmtOf f64) Num.rne)))
  | .fmax h f64 na nb d a b lit => some (.of h (aluVDst d f64) (src (fkind f64) [a, b]) lit
      (fun v => BitVec.ofNat 64 (Num.roundTo (fminmax true (fval (fmtOf f64) na (arg v 0)) (fval (fmtOf f64) nb (arg v 1)))
        (fmtOf f64) Num.rne)))
  | .fcmp h f64 c d a b lit => some (.of h (aluVDst d false) (src (fkind f64) [a, b]) lit
      (fun v => boolVal (fcond c (fval (fmtOf f64) false (arg v 0)) (fval (fmtOf f64) false (arg v 1)))))
  | .frcp h r f64 na d a lit => some (.of h (aluVDst d f64) (src (fkind f64) [a]) lit
      (fun v => BitVec.ofNat 64 (Num.roundTo (Num.recipX (fval (fmtOf f64) na (arg v 0))) (fmtOf f64) (.det r))))
  | .frsq h r f64 na d a lit => some (.of h (aluVDst d f64) (src (fkind f64) [a]) lit
      (fun v => BitVec.ofNat 64 (Num.roundTo (Num.rsqrtX (fval (fmtOf f64) na (arg v 0))) (fmtOf f64) (.det r))))
  | .fsqrt h r f64 na d a lit => some (.of h (aluVDst d f64) (src (fkind f64) [a]) lit
      (fun v => BitVec.ofNat 64 (Num.roundTo (Num.sqrtX (fval (fmtOf f64) na (arg v 0))) (fmtOf f64) (.det r))))
  | .fex2 h na d a lit => some (.of h (aluVDst d false) (src .f32 [a]) lit
      (fun v => BitVec.ofNat 64 (Num.fex2 (freeCode 0 (arg v 0)) (fval Num.fp32 na (arg v 0)))))
  | .flg2 h na d a lit => some (.of h (aluVDst d false) (src .f32 [a]) lit
      (fun v => BitVec.ofNat 64 (Num.flg2 (freeCode 1 (arg v 0)) (fval Num.fp32 na (arg v 0)))))
  | .fsin h na d a lit => some (.of h (aluVDst d false) (src .f32 [a]) lit
      (fun v => BitVec.ofNat 64 (Num.ftrig false (freeCode 2 (arg v 0)) (fval Num.fp32 na (arg v 0)))))
  | .fcos h na d a lit => some (.of h (aluVDst d false) (src .f32 [a]) lit
      (fun v => BitVec.ofNat 64 (Num.ftrig true (freeCode 3 (arg v 0)) (fval Num.fp32 na (arg v 0)))))
  | .fscale h r f64 na sat d a b lit => some (.of h (aluVDst d f64) (src (fkind f64) [a] ++ src .i32 [b]) lit
      (fun v => BitVec.ofNat 64 (fround (fmtOf f64) (.det r) sat
        ((fval (fmtOf f64) na (arg v 0)).scale (scaleCount (arg v 1))))))
  | .fclass h f64 d a lit => some (.of h (aluVDst d false) (src (fkind f64) [a]) lit
      (fun v => fclassVal (fmtOf f64) (arg v 0).toNat))
  | .cvtfi h r ty f d a lit => some (.of h (aluVDst d (ityWide ty)) (src (f4Kind f) [a] ++ cvSrcs r) lit
      (fun v => BitVec.ofNat 64 (Num.toInt (Num.valueOf (arg v 0).toNat (f4Fmt f)) (ityBits ty) (itySigned ty)
        (cvRnd r (arg v 1)))))
  | .cvtif h r ty f d a lit => some (.of h (aluVDst d (f == .f64)) (src (ikind (ityWide ty)) [a] ++ cvSrcs r) lit
      (fun v => BitVec.ofNat 64 (Num.roundTo (Num.ofInt (intOf ty (arg v 0))) (f4Fmt f) (cvRnd r (arg v 1)))))
  | .hfma2 h b16 r na nb nc sat d a b c lit => some (.of h (aluVDst d false) (src (hkind b16) [a, b, c]) lit
      (fun v => perHalf (fun half => fround (hfmt b16) (.det r) sat (Num.X.add (isRm r)
        (Num.X.mul ((Num.valueOf (half (arg v 0).toNat) (hfmt b16)).negIf na)
          ((Num.valueOf (half (arg v 1).toNat) (hfmt b16)).negIf nb))
        ((Num.valueOf (half (arg v 2).toNat) (hfmt b16)).negIf nc)))))
  | .hadd2 h b16 r na nb sat d a b lit => some (.of h (aluVDst d false) (src (hkind b16) [a, b]) lit
      (fun v => perHalf (fun half => fround (hfmt b16) (.det r) sat (Num.X.add (isRm r)
        ((Num.valueOf (half (arg v 0).toNat) (hfmt b16)).negIf na)
        ((Num.valueOf (half (arg v 1).toNat) (hfmt b16)).negIf nb)))))
  | .hmul2 h b16 r na nb sat d a b lit => some (.of h (aluVDst d false) (src (hkind b16) [a, b]) lit
      (fun v => perHalf (fun half => fround (hfmt b16) (.det r) sat (Num.X.mul
        ((Num.valueOf (half (arg v 0).toNat) (hfmt b16)).negIf na)
        ((Num.valueOf (half (arg v 1).toNat) (hfmt b16)).negIf nb)))))
  | .rng h d a b c lit => some (.of h (aluVDst d false) (src .i32 [a, b, c]) lit
      (fun v => BitVec.ofNat 64 (rngWord ((arg v 0).toNat % 2 ^ 32) ((arg v 1).toNat % 2 ^ 32) ((arg v 2).toNat % 2 ^ 32))))
  | .pset h k dst a b lit => some
      { RegForm.of h (.pred (dst.extractLsb' 0 3)) (src (pcmpKind k) [a, b]) lit
          (fun v => boolVal (pcmpHolds k (arg v 0) (arg v 1) && arg v 2 == 1)) with
        pred := some (dst.extractLsb' 3 3, dst.getLsbD 6) }
  | .pmov h ps neg dst => some
      { RegForm.of h (.pred (dst.extractLsb' 0 3)) [] 0 (fun v => arg v 0) with pred := some (ps, neg) }
  | _ => none

/-- Registers of a form that exist and are aligned (R55, R144), sources it may name, for the rate-2 and rate-4 forms no chain
(R146), and reserved bits that are zero (R404). -/
def RegForm.sound (r : RegForm) (i : Instr) (l : Lane) : Prop :=
  r.dst.ok l.wg.info.nregs = true ∧ (∀ p ∈ r.srcs, srcOk l.wg.info.nregs (if p.2.wide then 2 else 1) p.1 = true) ∧
  (slow i = true → r.h.chain = false ∧ l.w.chain = 0) ∧ reserved i = false
where
  /-- The forms of rate 2 and 4 (R146, R149, R159). -/
  slow : Instr → Bool
    | .imul _ t _ _ _ _ | .imulhi _ t _ _ _ _ | .imad _ t _ _ _ _ _ _ => ityWide t
    | .imadw .. | .frcp .. | .frsq .. | .fsqrt .. | .fex2 .. | .flg2 .. | .fsin .. | .fcos .. => true
    | .fadd _ _ f64 _ _ _ _ _ _ _ | .fmul _ _ f64 _ _ _ _ _ _ _ | .fma _ _ f64 _ _ _ _ _ _ _ _ _ |
      .fscale _ _ f64 _ _ _ _ _ _ => f64
    | _ => false
  /-- The form sets a reserved bit: the high half of the extension of a 32-bit `movl` (R157), bits of `dst` above the
  predicate numbers of `pset` and `pmov` (R167, R168). -/
  reserved : Instr → Bool
    | .movl _ false _ e => e.extractLsb' 32 32 != 0
    | .pset _ _ dst _ _ _ => dst.getLsbD 7
    | .pmov _ _ _ dst => dst.extractLsb' 3 5 != 0
    | _ => false

/-- The vector registers that a form reads or writes. -/
def RegForm.regs (r : RegForm) : List (Nat × Nat) :=
  r.dst.regs ++ r.srcs.flatMap (fun p => srcRegs (if p.2.wide then 2 else 1) p.1)

/-- Value and craze of thread `x` in a form, from its sources `v`: the predicate operand follows the sources, the guard comes
last (R394). -/
def RegForm.result (r : RegForm) (x : Thread) (v : List DWord × Option Word) : DWord × Option Word :=
  match r.pred with
  | none => (r.val v.1, crazeOf [v.2, x.predCraze r.h.guard])
  | some (k, n) => (r.val (v.1 ++ [if x.pred k != n then 1 else 0]), crazeOf [v.2, x.predCraze k, x.predCraze r.h.guard])

/-- The form writes no scalar register. -/
def RegForm.perThread (r : RegForm) : Prop := ∀ i w, r.dst ≠ .scal i w

/-- A register instruction `i` of the form `r` completes: every active thread takes the result of its own operands, and
nothing else changes but program counters, yields and chains. -/
def RegForm.completes (i : Instr) (r : RegForm) : Prop :=
  ∀ s l, s.lane? = some l → clear l r.h r.regs → r.sound i l → r.perThread →
    (∀ t ∈ active l r.h, (sources l.w (l.w.th t) r.lit r.srcs).isSome) →
    ∃ t w, exec i s = .next t ∧ onlyWarp s t l w ∧ onlyThreads l w ∧
      (∀ k ∈ l.w.batch, past r.size (l.w.th k) (w.th k)) ∧
      (∀ k ∈ active l r.h, ∀ v, sources l.w (l.w.th k) r.lit r.srcs = some v →
        written r.dst (r.result (l.w.th k) v).1 (r.result (l.w.th k) v).2 (l.w.th k) (w.th k)) ∧
      (∀ k ∈ l.w.batch, k ∉ active l r.h → kept (l.w.th k) (w.th k)) ∧
      (∀ k < 32, k ∉ l.w.batch → bystander (l.w.th k) (w.th k))

end Sys2Proof.Claims

namespace Sys2Proof.Claims

open Sys2Proof.Machine

/-! ## Uniform forms (R30) -/

/-- A uniform form: the scalar register of its destination. -/
def RegForm.scalar (r : RegForm) : Option (BitVec 6 × Bool) :=
  match r.dst with
  | .scal i wide => some (i, wide)
  | _ => none

/-- Value and craze of a uniform form whose lowest active thread is `x` and whose batch is `b`: the crazed sources, then the
guards of the batch (R394). -/
def RegForm.uniform (r : RegForm) (l : Lane) (x : Thread) (v : List DWord × Option Word) : DWord × Option Word :=
  let g := l.w.batch.map (fun t => (l.w.th t).predCraze r.h.guard)
  match r.pred with
  | none => (r.val v.1, crazeOf (v.2 :: g))
  | some (k, n) => (r.val (v.1 ++ [if x.pred k != n then 1 else 0]), crazeOf (v.2 :: x.predCraze k :: g))

/-- Of the warp, the threads, the chain and the scalar registers alone have changed. -/
def onlyScalars (l : Lane) (w : Warp) : Prop := w = { l.w with thr := w.thr, chain := w.chain, s := w.s }

/-- The scalar registers of `w` are those of `v` with the result `x` crazed by `c` in register `i`; `sz` discards (R54). -/
def scalarWritten (i : BitVec 6) (wide : Bool) (x : DWord) (c : Option Word) (v w : Warp) : Prop :=
  (i ≠ 63 → w.sreg i.toNat = wordOf x c 0 ∧ (wide → w.sreg (i.toNat + 1) = wordOf x c 32)) ∧
  (∀ j, (i ≠ 63 → j ≠ i.toNat ∧ (wide → j ≠ i.toNat + 1)) → w.sreg j = v.sreg j)

/-! ## Derails (R399 to R402) -/

/-- Where a derail with payload `p` sends thread `k` (R402): the recovery target of the open region for a member, else the
vector of the cause, `none` where the kernel has no vector table. -/
def handler (l : Lane) (k : Nat) (p : Word) : Option VAddr :=
  let table := if l.wg.info.vecOff = 0 then none
    else some (l.wg.info.hdrVa + BitVec.ofNat 57 (l.wg.info.vecOff + 16 * (p.toNat / 2 ^ 24)))
  match l.w.region with
  | some r => if r.members.getLsbD k then some r.recovery else table
  | none => table

/-- Thread `k` has derailed with payload `p`: it stands at the handler, eligible, or has exited where there is none; its
registers and predicates are as they were (R401). -/
def derailed (l : Lane) (k : Nat) (p : Word) (x y : Thread) : Prop :=
  kept x y ∧ match handler l k p with
    | some a => y.pc = a ∧ y.st = .eligible
    | none => y.st = .exited

/-- Of the warp, the threads, the chain and the crazes of the open region alone have changed. -/
def onlyFlow (l : Lane) (w : Warp) : Prop := w = { l.w with thr := w.thr, chain := w.chain, region := w.region }

/-- The open region after the members among `ts` have derailed with `p`: their member crazes are set where none was, the
region craze is that of the first event, of several by one instruction the lowest thread's, and the rest of it is as before
(R402, R408). -/
def crazedBy (ts : List Nat) (p : Word) (l : Lane) (w : Warp) : Prop :=
  match l.w.region, w.region with
  | none, none => True
  | some r, some q => q = { r with crazes := q.crazes, hard := q.hard, regionCraze := q.regionCraze, first := q.first } ∧
      (∀ k < 32, Tabs.find? q.crazes k = if k ∈ ts ∧ r.members.getLsbD k then some ((Tabs.find? r.crazes k).getD p)
        else Tabs.find? r.crazes k) ∧
      q.regionCraze = (if ts.any (fun k => r.members.getLsbD k && r.leads k l.clock) then some p else r.regionCraze)
  | _, _ => False

/-- The machine `t` is `s` but for the warp of lane `l` and, in the craze table of its core, new records. -/
structure onlyLane (s t : State) (l : Lane) (w : Warp) : Prop where
  rest : t = { s with wgs := t.wgs, cores := t.cores }
  bytes : ∀ a, t.mem.byte a = s.mem.byte a
  warp : t.warp? l.ref = some ({ l.wg with warps := l.wg.warps.set l.ref.warp w }, w)
  groups : ∀ n, n ≠ l.ref.wg → t.wg? n = s.wg? n
  cores : ∀ c, c ≠ l.wg.core → t.core c = s.core c

/-- The derail form of R399: the instruction `i` of `n` bytes, whose threads `ts` fault with `cause`, makes one batch record
that names the lowest of them and the instruction, and all of them derail with its payload; the other threads of the batch
move past it. -/
def derailForm (i : Instr) (n cause : Nat) (va : Option VAddr) (ts : List Nat) (s : State) (l : Lane) : Prop :=
  ∃ t w p, exec i s = .next t ∧ onlyLane s t l w ∧ onlyFlow l w ∧
    (∀ k0 ks, ts = k0 :: ks →
      (t.core l.wg.core, p) = (s.core l.wg.core).record l.wg.core (l.crzRec cause 0 k0 l.w.pc va true)) ∧
    (ts = [] → t.core l.wg.core = s.core l.wg.core) ∧
    (∀ k ∈ ts, derailed l k p (l.w.th k) (w.th k)) ∧ crazedBy ts p l w ∧
    (∀ k ∈ l.w.batch, k ∉ ts → past n (l.w.th k) (w.th k) ∧ kept (l.w.th k) (w.th k)) ∧
    (∀ k < 32, k ∉ l.w.batch → (l.w.th k).atConv = false → bystander (l.w.th k) (w.th k))

/-! ## Control flow (R170) -/

/-- Guard, bytes and registers of `bra`, `brx`, `call` and `ret`, and whether the registers that the form names exist. -/
def branchForm (n : Nat) : Instr → Option (Hdr × Nat × List (Nat × Nat) × Bool)
  | .bra h _ => some (h, 16, [], true)
  | .brx h a => some (h, 8, srcRegs 1 a, srcOk n 1 a)
  | .call h d _ => some (h, 16, (ADst.vec d true).regs, vecOk n d.toNat 2)
  | .ret h a => some (h, 8, srcRegs 2 a, srcOk n 2 a)
  | _ => none

/-- No active thread reads one of the registers `rs` of a branch while it hides an error (R426). -/
def targetsSound (l : Lane) (h : Hdr) (rs : List (Nat × Nat)) : Prop :=
  ∀ k ∈ active l h, ∀ x ∈ (l.w.th k).bad, ∀ r ∈ rs, ¬ (r.1 ≤ x ∧ x < r.1 + r.2)

/-- Where a branch at `pc` sends thread `x`, when its source is clean (R170). -/
def branchTo (w : Warp) (pc : VAddr) (x : Thread) : Instr → Option VAddr
  | .bra _ off | .call _ _ off => some (pc + off.signExtend 57)
  | .brx _ a => match readSrc w x 0 .i32 a with
    | some (v, none) => some (pc + (v.setWidth 32).signExtend 57)
    | _ => none
  | .ret _ a => match readSrc w x 0 .i64 a with
    | some (v, none) => some (v.setWidth 57)
    | _ => none
  | _ => none

/-- What a branch at `pc` writes in an active thread: `call` the address after it, in a pair; the others nothing (R170). -/
def linked (i : Instr) (pc : VAddr) (x y : Thread) : Prop :=
  match i with
  | .call _ d _ => written (.vec d true) ((pc + 16).setWidth 64) none x y
  | _ => kept x y

/-- A clean guard in every active thread. -/
def guardsClean (l : Lane) (h : Hdr) : Prop := ∀ k ∈ active l h, (l.w.th k).predCraze h.guard = none

/-- Guard of `conv`, `yield` and `exit`. -/
def waitForm : Instr → Option Hdr
  | .convg h | .yield h | .exit h => some h
  | _ => none

/-- The thread holds no one back and cannot issue: it has exited or its slot is empty (R25, R38). -/
def away (x : Thread) : Prop := x.st = .exited ∨ x.st = .absent

/-- What `conv`, `yield` and `exit` at `pc` make of the active thread `y`, `others` being the other threads of the warp before
it: `conv` parks it until every other thread is away or waits at convergence too, and it continues when all are away; a yielded
thread goes on when no other thread can issue; `exit` ends it (R36 to R38, R170). -/
def waited (i : Instr) (pc : VAddr) (others : List Thread) (y : Thread) : Prop :=
  match i with
  | .convg _ =>
    ((∃ x ∈ others, x.holdsBack = true) → y.pc = pc ∧ y.st = .parkedConv true) ∧
    ((∀ x ∈ others, away x) → y.pc = pc + 8 ∧ y.st = .eligible)
  | .yield _ =>
    y.pc = pc + 8 ∧
    ((∃ x ∈ others, x.runnable = true ∨ x.st = .yielded) → y.st = .yielded) ∧
    ((∀ x ∈ others, x.runnable = false ∧ x.st ≠ .yielded) → y.st = .eligible)
  | _ => y.pc = pc ∧ y.st = .exited

end Sys2Proof.Claims

namespace Sys2Proof.Claims

open Sys2Proof.Machine

/-! ## Packed predicates, conversions by a control word, warp-wide results -/

/-- The latches of a thread after an instruction that honours `C` (R98): its result `r`, if it wrote a register or a latch, is
`l0`, and `l0` is `l1`; a chain that ends leaves both invalid. -/
def shifted (goesOn : Bool) (r : Option TWord) (x y : Thread) : Prop :=
  if goesOn then y.l1 = x.l0 ∧ y.l0 = r else y.l1 = none ∧ y.l0 = none

/-- What a result `v` crazed by `c` puts into `l0`: its low word, but nothing for a predicate (R98). -/
def latched (d : ADst) (v : DWord) (c : Option Word) : Option TWord :=
  match d with
  | .pred _ => none
  | _ => some (wordOf v c 0)

/-- The chain goes on after an instruction with header `h` (R33, R96). -/
def chainsOn (l : Lane) (h : Hdr) : Bool := h.chain && !l.chainOff && decide (l.w.chain + 1 < 4)

/-- An instruction whose results depend on several threads, or on more than its operands: header, bytes, registers it names,
destination. -/
structure OwnForm where
  h : Hdr
  size : Nat
  regs : List (Nat × Nat)
  /-- Its registers exist and are aligned, and its reserved bits are zero (R404). -/
  sound : Bool

/-- An instruction `i` of its own form completes: the batch moves past it, every active thread becomes what `f` says, and
nothing else changes but yields and chains. -/
def OwnForm.completes (i : Instr) (o : OwnForm) (s : State) (l : Lane) (f : Nat → Thread → Prop) : Prop :=
  ∃ t w, exec i s = .next t ∧ onlyWarp s t l w ∧ onlyThreads l w ∧
    (∀ k ∈ l.w.batch, past o.size (l.w.th k) (w.th k)) ∧
    (∀ k ∈ active l o.h, f k (w.th k)) ∧
    (∀ k ∈ l.w.batch, k ∉ active l o.h → kept (l.w.th k) (w.th k)) ∧
    (∀ k < 32, k ∉ l.w.batch → bystander (l.w.th k) (w.th k))

/-- The predicates of thread `y` are those of `x`, but for `p0`-`p6` in `mask`, which take the bits of `v`, crazed by `c`. -/
def unpacked (mask : BitVec 8) (v : DWord) (c : Option Word) (x y : Thread) : Prop :=
  y.v = x.v ∧ ∀ k : BitVec 3, k ≠ 7 →
    if mask.getLsbD k.toNat then y.predCraze k = c ∧ (c = none → y.pred k = v.getLsbD k.toNat)
    else y.pred k = x.pred k ∧ y.predTag k = x.predTag k

/-- Form of the warp-wide instructions (R174 to R177): sources with their kinds, and destination. -/
def crossForm (n : Nat) : Instr → Option (OwnForm × List (Src × OKind) × Word × ADst)
  | .vote h m _ _ dst =>
    let d := if m = .ballot then ADst.vec dst false else .pred (dst.extractLsb' 0 3)
    some (⟨h, 8, d.regs, d.ok n && (m == .ballot || dst.extractLsb' 3 5 == 0)⟩, [], 0, d)
  | .matchw h wide d a => some (of n h (aluVDst d false) [(a, ikind wide)] 0)
  | .shfl h _ d a b c lit => some (of n h (aluVDst d false) (src .i32 [a, b, c]) lit)
  | .redw h op d a => some (of n h (aluVDst d false) [(a, redwKind op)] 0)
  | _ => none
where
  of (n : Nat) (h : Hdr) (d : ADst) (l : List (Src × OKind)) (lit : Word) : OwnForm × List (Src × OKind) × Word × ADst :=
    (⟨h, litSize (l.map Prod.fst), d.regs ++ l.flatMap (fun p => srcRegs (if p.2.wide then 2 else 1) p.1),
      d.ok n && l.all (fun p => srcOk n (if p.2.wide then 2 else 1) p.1)⟩, l, lit, d)

/-- Every active thread can read the source: it is no invalid latch (R98). -/
def readable (l : Lane) (h : Hdr) (lit : Word) (k : OKind) (x : Src) : Prop :=
  ∀ t ∈ active l h, (readSrc l.w (l.w.th t) lit k x).isSome

/-- Of the threads `ts`, bit `t` of a mask for each `t` that satisfies `f`. -/
def maskIs (v : DWord) (ts : List Nat) (f : Nat → Prop) : Prop :=
  ∀ j < 64, (v.getLsbD j = true ↔ j ∈ ts ∧ f j)

/-- The thread that thread `t` reads under `shfl` in segments of `w` threads (R176); `.clip` keeps its own. -/
def shflSource (m : ShflMode) (w t : Nat) (b : DWord) : Nat :=
  let r := t % w
  let base := t - r
  let u : Int := r + sext 32 b.toNat
  match m with
  | .idx => base + b.toNat % 2 ^ 32 % w
  | .rot clip => if clip && (decide (u < 0) || decide ((w : Int) ≤ u)) then t else base + (u % w).toNat
  | .bfly => base + (r ^^^ (b.toNat % 2 ^ 32)) % w
  | .rev => base + (w - 1 - r)

/-- The result `v` crazed by `c` of thread `k` in a warp-wide instruction, `op j` being the value and craze of thread `j`'s
sources and `ts` the active set (R174 to R177, R396). The thread that a crazed B or C of `shfl` selects is a free value (log 15), and
the canonical NaN of one thread's `redw` is the model's reading (log 117). -/
def crossResult (i : Instr) (l : Lane) (ts : List Nat) (op : Nat → Nat → DWord × Option Word) (k : Nat) (v : DWord)
    (c : Option Word) : Prop :=
  match i with
  | .vote h m q n _ =>
    let holds := fun j => (l.w.th j).pred q != n
    c = ts.findSome? (fun j => crazeOf [(l.w.th j).predCraze q, (l.w.th j).predCraze h.guard]) ∧
    match m with
    | .any => v = boolVal (ts.any holds)
    | .all => v = boolVal (ts.all holds)
    | .eq => v = boolVal (ts.all holds || ts.all (fun j => !holds j))
    | .ballot => maskIs v ts (fun j => holds j = true)
  | .matchw h _ _ _ =>
    c = ts.findSome? (fun j => crazeOf [(op j 0).2, (l.w.th j).predCraze h.guard]) ∧
    maskIs v ts (fun j => (op j 0).1 = (op k 0).1)
  | .shfl h m _ _ _ _ _ =>
    let cc := op (ts.headD 0) 2
    let j := match crazeOf [if m = .rev then none else (op k 1).2, cc.2] with
      | some p => Config.shflThread p k % 32
      | none => shflSource m (2 ^ (min (max (cc.1.toNat % 2 ^ 32) 1) 32).log2) k (op k 1).1
    let from_ := (ts.find? (fun t => t == j)).getD k
    v = (op from_ 0).1 ∧ c = crazeOf [(op from_ 0).2, (op k 1).2, cc.2, (l.w.th k).predCraze h.guard]
  | .redw h o _ _ =>
    c = ts.findSome? (fun j => crazeOf [(op j 0).2, (l.w.th j).predCraze h.guard]) ∧
    v = (ts.tail.map (fun j => (op j 0).1)).foldl (redwStep o) (redwFirst o (op (ts.headD 0) 0).1)
  | _ => True

end Sys2Proof.Claims

namespace Sys2Proof.Claims

open Sys2Proof.Machine

/-! ## Accesses to memory (R180 to R198) -/

/-- The scratchpad of workgroup `g`; a group that is not resident has none. -/
def scratch (s : State) (g : Nat) : Scr :=
  match s.wg? g with
  | some x => x.scr
  | none => ⟨0, [], [], [], []⟩

/-- Sources of a memory instruction, but for 16 bytes of data, which a quad of registers holds (R183). -/
def memSources (m : MemIns) : List (Src × OKind) :=
  [(m.a, if m.a64 then OKind.i64 else .i32)] ++ m.b.toList.map (fun x => (x, OKind.i32)) ++
  m.cmp.toList.map (fun x => (x, dataKind m.n)) ++ (if m.n = 16 then [] else m.c.toList.map (fun x => (x, cKind m.n m.e)))

/-- No source of thread `k` is an invalid latch, and none of its registers hides an error. -/
def memClean (m : MemIns) (l : Lane) (k : Nat) : Prop :=
  (l.w.th k).bad = [] ∧ ((memSources m).mapM (fun p => readSrc l.w (l.w.th k) 0 p.2 p.1)).isSome

/-- Operands of thread `k`: segment offset, data, comparison value and their crazes. -/
def memArgs (m : MemIns) (h : Hdr) (l : Lane) (k : Nat) : MemArgs := (m.args h l.w.pc false l k).2

/-- Where the access of thread `k` goes: the checks of R286 and R420 on its segment offset. -/
def memPlace (m : MemIns) (row : MemRow) (h : Hdr) (s : State) (l : Lane) (k : Nat) : Chk :=
  Ctx.check ⟨s, l⟩ (exSeg m.e) k (memArgs m h l k).o m.n [row.perm] row.kinds true

/-- A memory instruction: its operands, its row of R182, its header and its destination (255 where it has none). -/
structure MemForm where
  m : MemIns
  row : MemRow
  h : Hdr
  dst : Nat

/-- The vector registers it names. -/
def MemForm.regs (f : MemForm) : List (Nat × Nat) := dstRegs f.dst f.m.n ++ f.m.regs

/-- Its extension word keeps R180 and R182, and its registers exist and are aligned (R183). -/
def MemForm.sound (f : MemForm) (l : Lane) : Prop :=
  f.m.bad f.row l = false ∧ vecOk l.wg.info.nregs f.dst (regsOf f.m.n) = true

/-- The memory instructions with a result or data. -/
def memForm : Instr → Option MemForm
  | .ld h a64 dst a b e => some ⟨⟨a64, a, some b, none, none, e⟩, ldRow, h, dst.toNat⟩
  | .ldfe h a64 _ dst a b e => some ⟨⟨a64, a, some b, none, none, e⟩, ldfeRow, h, dst.toNat⟩
  | .atom h a64 dst a b c e => some ⟨⟨a64, a, some b, none, some c, e⟩, atomRow, h, dst.toNat⟩
  | .cas h a64 dst a b c e => some ⟨⟨a64, a, none, some b, some c, e⟩, casRow, h, dst.toNat⟩
  | .st h a64 _ a b c e => some ⟨⟨a64, a, some b, none, some c, e⟩, stRow, h, 255⟩
  | .red h a64 a b c e => some ⟨⟨a64, a, some b, none, some c, e⟩, redRow, h, 255⟩
  | .prefetch h a64 a b e => some ⟨⟨a64, a, some b, none, none, e⟩, prefetchRow, h, 255⟩
  | _ => none

/-- Thread `y` is `x` with the words `ws` in the vector registers from `dst` on; 255 discards (R183). -/
def wordsIn (dst : Nat) (ws : List TWord) (x y : Thread) : Prop :=
  y.p = x.p ∧ y.pt = x.pt ∧ y.pp = x.pp ∧
  ∀ j, y.vreg j = if dst ≠ 255 ∧ dst ≤ j ∧ j < dst + ws.length ∧ j ≠ 255 then ws.getD (j - dst) ⟨0, false⟩ else x.vreg j

/-- The words that `n` bytes at `a` touch. -/
def wordsAt (x : Scr) (a n : Nat) : List TWord := (wordsOf a n).map x.word

/-- The machine `t` is `s` but for the scratchpads, and for the warp `w` of lane `l`: memory, the other warps and groups, the cores
and every register of the functions are as before. -/
structure onlyScratch (s t : State) (l : Lane) (w : Warp) : Prop where
  rest : t = { s with wgs := t.wgs, cores := t.cores }
  bytes : ∀ a, t.mem.byte a = s.mem.byte a
  warp : t.warp? l.ref = some ({ l.wg with warps := l.wg.warps.set l.ref.warp w, scr := scratch t l.ref.wg }, w)
  groups : ∀ n, n ≠ l.ref.wg → t.wg? n = (s.wg? n).map (fun g => { g with scr := scratch t n })
  cores : ∀ c, t.core c = s.core c
  sizes : ∀ n, (scratch t n).size = (scratch s n).size

/-- Of the warp, the threads, the chain and the counters of its accesses alone have changed; `n` accesses were made. -/
def onlyCounted (n : Nat) (l : Lane) (w : Warp) : Prop :=
  w = { l.w with thr := w.thr, chain := 0, po := l.w.po + n, nextId := l.w.nextId + n }

/-- Scratchpads after cells are written at a place. -/
def store (m : Nat → Scr) (a : ScrLoc) (cs : List WCell) : Nat → Scr :=
  fun g => if g = a.wg then (m g).writeCells a.off cs else m g

/-- What one atomic of `n` bytes makes of the scratchpads (R194, R195, R502). -/
def atomStore (m : Nat → Scr) (op n : Nat) (a : ScrLoc) (x cmp : Nat) : Nat → Scr :=
  match (atomStep op n x cmp (wordsAt (m a.wg) a.off n)).1 with
  | some v => store m a (cellsOf 0 n v none)
  | none => m

/-- The atomic operation of an instruction; 255 is that of `cas`. -/
def atomOp : Instr → Option Nat
  | .atom _ _ _ _ _ _ e | .red _ _ _ _ _ e => some (exAop e)
  | .cas .. => some 255
  | _ => none

/-- The scratchpads before thread `k`'s turn, the active threads `ts` taking theirs in ascending order. -/
def before (ts : List Nat) (step : (Nat → Scr) → Nat → (Nat → Scr)) (m : Nat → Scr) (k : Nat) : Nat → Scr :=
  (ts.takeWhile (· != k)).foldl step m

end Sys2Proof.Claims

namespace Sys2Proof.Claims

open Sys2Proof.Machine

/-! ## Accesses that leave the core, full/empty loads, fences (R186 to R198) -/

/-- The batch moved past an instruction of `n` bytes, no register and no predicate changed, and the other threads are
bystanders. -/
def moved (n : Nat) (l : Lane) (w : Warp) : Prop :=
  (∀ k ∈ l.w.batch, past n (l.w.th k) (w.th k) ∧ kept (l.w.th k) (w.th k)) ∧
  (∀ k < 32, k ∉ l.w.batch → bystander (l.w.th k) (w.th k))

/-- No operand of thread `k` is crazed. -/
def MemForm.pure (f : MemForm) (l : Lane) (k : Nat) : Prop :=
  memClean f.m l k ∧ (memArgs f.m f.h l k).addr = none ∧ (memArgs f.m f.h l k).dcrz = none ∧
  (memArgs f.m f.h l k).ccrz = none ∧ (memArgs f.m f.h l k).guard = none

/-- The kind of the outstanding access that a load or atomic makes. -/
def farKind : Instr → Option AccKind
  | .ld _ _ _ _ _ e => some (.load (exSx e))
  | .atom _ _ _ _ _ _ e => some (.atom (exAop e))
  | .cas .. => some .cas
  | _ => none

/-- What holds such an instruction back no more: `atom` and `cas` wait for the warp's implicit regions (R193), in a leader for
the SCB's queue (R476), and a member's must not follow a held store of its region (R421). -/
def farClear (i : Instr) (l : Lane) (f : MemForm) : Prop :=
  match i with
  | .ld .. => sgKind (l.w.seg (exSeg f.m.e)) ≠ 1 ∧ sgKind (l.w.seg (exSeg f.m.e)) ≠ 2
  | _ => sgKind (l.w.seg (exSeg f.m.e)) = 0 ∧ l.w.implicit = [] ∧ (l.wg.pair.any Prod.snd = true → l.wg.pairQ.length < 64) ∧
      (l.w.dirty = true → ∀ k ∈ active l f.h, l.w.member k = false)

/-- Where an access starts: its walk; an atomic of a trailer takes the leader's words and starts at home (R476). -/
def farStage (i : Instr) (l : Lane) : AccStage :=
  match i with
  | .ld .. => .walk
  | _ => if l.wg.pair.any (fun p => !p.2) then .home else .walk

/-- The access of thread `k`, the `n`-th of the instruction, to virtual address `va`. -/
def farAcc (i : Instr) (kind : AccKind) (f : MemForm) (l : Lane) (n k va : Nat) : Acc :=
  { id := l.w.nextId + n, kind, thread := k, po := l.w.po + n, pc := l.w.pc, va, n := f.m.n, dst := f.dst,
    x := BitVec.ofNat 64 (memArgs f.m f.h l k).data, cmp := BitVec.ofNat 64 (memArgs f.m f.h l k).cmp,
    ord := exOrd f.m.e, scope := exScope f.m.e, stage := farStage i l, dpa := 0, gen := 0, key := 0, rmt := false,
    issued := l.clock }

/-- The items of the active threads that no open region holds take a region of their own (R187). -/
def outsiders (l : Lane) (h : Hdr) : List Nat := (active l h).filter (fun k => !l.w.member k)

/-- The tag of the region that holds an item of thread `k`: the open one for a member, else the new one. -/
def heldTag (l : Lane) (k : Nat) : Nat :=
  match l.w.region with
  | some r => if r.members.getLsbD k then r.tag else l.w.nextTag
  | none => l.w.nextTag

/-- The item of thread `k`, the `n`-th of a held store or reduction, at virtual address `va` (R186, R196). -/
def heldItem (i : Instr) (f : MemForm) (l : Lane) (n k va : Nat) : Item :=
  let x := memArgs f.m f.h l k
  let crz := crazeOf [x.dcrz, x.guard]
  let (kind, cells) : ItemKind × List WCell := match i with
    | .red _ _ _ _ _ e => (.red (exAop e) f.m.n (BitVec.ofNat 64 x.data) crz, [])
    | _ => (.store, cellsOf 0 f.m.n x.data crz)
  { id := l.w.nextId + n, tag := heldTag l k, po := l.w.po + n, thread := k, kind, cells, va, n := f.m.n, pc := l.w.pc,
    stage := .walk, dpa := 0, gen := 0, key := 0, rmt := false, copy := false, bad := false, sent := false, issued := l.clock,
    named := k }

/-- `st` without `.fill` and `red`: does the instruction release (R187)? -/
def heldForm : Instr → Option Bool
  | .st _ _ fill _ _ _ e => if fill then none else some (exOrd e == 2)
  | .red _ _ _ _ _ e => some (exOrd e == 2)
  | _ => none

/-- The implicit region of four units that holds the items of the outsiders (R187). -/
def heldRegion (l : Lane) (rel : Bool) : Implicit :=
  { tag := l.w.nextTag, po := l.w.po, units := 4, rel, pc := l.w.pc, decided := false, agreed := false, sig := 0,
    sigSent := false, num := l.w.implicitCount + 1, owner := none, seq := l.w.rseq }

/-- What `ldfe.take` leaves in a granule (R190): empty, or pending for a member, whose region decides. -/
def takenGran (l : Lane) (k : Nat) : Gran :=
  match l.w.region with
  | some r => if r.members.getLsbD k then .pending l.ref.wg l.ref.warp r.tag else .empty
  | none => .empty

/-- The fence of the active threads of a `fence` (R198). -/
def fenceAcc (l : Lane) (h : Hdr) (sc : Scope) (k : FenceKind) : Acc :=
  { id := l.w.nextId, kind := .fence k, thread := 0, po := l.w.po, pc := l.w.pc, va := 0, n := 0, dst := 255,
    x := (maskOf (active l h)).setWidth 64, cmp := 0, ord := 0,
    scope := match sc with | .thr => 0 | .wg => 1 | .kln => 2 | .dev => 3 | .fab => 4,
    stage := .walk, dpa := 0, gen := 0, key := 0, rmt := false, issued := l.clock }

/-- The warp with the fence in its program order. -/
def fencing (l : Lane) (h : Hdr) (sc : Scope) (k : FenceKind) : Warp :=
  { l.w with accs := l.w.accs ++ [fenceAcc l h sc k], po := l.w.po + 1, nextId := l.w.nextId + 1 }

/-! ## Waiting on a word, transaction barriers (R172, R173, R202 to R204) -/

/-- Where a `waiteq` looks, with A the value `x`. -/
def wqPlace (s : State) (l : Lane) (k : Nat) (e : Ext) (x : DWord) : Chk :=
  Ctx.check ⟨s, l⟩ (wqSeg e) k (((x.setWidth 32).setWidth 64) + wqOff e).toNat 4 [57] [0, 1, 2, 3, 4] true

/-- A `waiteq` whose word of extension and registers are sound (R172). -/
def wqSound (l : Lane) (dst : BitVec 8) (a b : Src) (e : Ext) : Prop :=
  e.extractLsb' 56 8 = 0 ∧ e.extractLsb' 48 2 = 0 ∧ wqScope e ≤ 4 ∧ vecOk l.wg.info.nregs dst.toNat 1 = true ∧
  srcOk l.wg.info.nregs 1 a = true ∧ srcOk l.wg.info.nregs 1 b = true

/-- Thread `k` of a transaction-barrier instruction reads offset, B and C, and finds at `x` a barrier that it may use; B is `n`, C
is `c`. -/
def tbReads (i : TbIns) (s : State) (l : Lane) (k : Nat) (x : ScrLoc) (n c : Nat) : Prop :=
  (l.w.th k).bad = [] ∧ (scratch s x.wg).bad = [] ∧
  ∃ rs, (([i.a, i.b] ++ i.c.toList).mapM (readSrc l.w (l.w.th k) 0 .i32)) = some rs ∧ crazeOf (rs.map Prod.snd) = none ∧
    n = (rs.getD 1 (0, none)).1.toNat ∧ c = (rs.getD 2 (0, none)).1.toNat ∧
    Ctx.check ⟨s, l⟩ (exSeg i.e) k (((rs.getD 0 (0, none)).1 + exOff i.e).toNat) 16 i.perms i.kinds true = .ok (.scr x)

/-- The barrier of a scratchpad. -/
def barrier (s : State) (x : ScrLoc) : TBar := (scratch s x.wg).bar x.off

/-- The transaction-barrier instructions (R202, R203): operands, permissions, whether they release, destination. -/
def tbForm : Instr → Option TbIns
  | .tbinit h a b c e => some ⟨h, e, a, b, some c, [1], [59], false, [], false⟩
  | .tbarrive h _ dst a b e => some ⟨h, e, a, b, none, [1, 2], if dst = 255 then [59] else [59, 57], true, (ADst.vec dst false).regs, false⟩
  | .tbexpect h arr a b e => some ⟨h, e, a, b, none, [1, 2], [59], arr, [], false⟩
  | .tbwait h a b e => some ⟨h, e, a, b, none, [1], [57], false, [], false⟩
  | .tbtest h dst a b e => some ⟨h, e, a, b, none, [1], [57], false, [], dst.extractLsb' 3 5 != 0⟩
  | _ => none

/-- The form is sound, no register of it awaits a load, no fence holds it back, and where it releases every access of the warp outside
its open region is performed (R202, R204, R305). -/
def tbClear (i : TbIns) (l : Lane) : Prop :=
  i.form.fault l = none ∧ l.w.ready i.form.regs = true ∧ l.w.holdsAt (active l i.h) true false = false ∧
  (i.rel = true → l.w.quiet = true)

/-- The updates that the lowest active thread makes for all, and the counts that `tbinit` may set (R203, R437). -/
def tbOnce (n : Nat) : Instr → Prop
  | .tbinit .. => n ≠ 0 ∧ n < 2 ^ 20
  | .tbarrive _ thr _ _ _ _ => thr = false
  | .tbexpect .. => True
  | _ => False

/-- What one update makes of a barrier (R203). -/
def tbUpdate (n c : Nat) : Instr → TBar → TBar
  | .tbinit .., _ => TBar.init n c
  | .tbarrive .., t => t.arrive n
  | .tbexpect _ arr _ _ _, t => t.expect n arr
  | _, t => t

/-- What an update gives the active threads: `tbarrive` the phase before it (R203). -/
def tbGives (i : Instr) (phase : Nat) (x y : Thread) : Prop :=
  match i with
  | .tbarrive _ _ dst _ _ _ => wordsIn dst.toNat [⟨BitVec.ofNat 32 phase, false⟩] x y
  | _ => kept x y

end Sys2Proof.Claims

namespace Sys2Proof.Claims

open Sys2Proof.Machine

/-! ## Warp-level instructions (R37, R43, R199 to R209, R212) -/

/-- The warp-level instructions: guard and bytes. -/
def warpForm : Instr → Option (Hdr × Nat)
  | .bar h _ _ _ | .kbar h | .commit h _ _ _ | .abort h | .replay h => some (h, 8)
  | .rgn h _ | .trap h _ _ _ _ _ => some (h, 16)
  | _ => none

/-- The threads of the batch that convergence has released at a warp-level instruction: its active set (R43). -/
def released (l : Lane) : List Nat := l.w.batch.filter (fun k => (l.w.th k).st == .released)

/-- Every access of the warp outside its open region is performed: no load or atomic is outstanding, and no implicit region is in
flight (R200, R201, R305). -/
def nothingOut (l : Lane) : Prop := l.w.accs.all Acc.performed = true ∧ l.w.implicit = []

/-- The machine `t` is `s` but for the workgroup of lane `l`, which is `g` now, with the warp `w`. -/
structure onlyGroup (s t : State) (l : Lane) (g : Wg) (w : Warp) : Prop where
  rest : t = { s with wgs := t.wgs, cores := t.cores }
  bytes : ∀ a, t.mem.byte a = s.mem.byte a
  warp : t.warp? l.ref = some ({ g with warps := l.wg.warps.set l.ref.warp w }, w)
  groups : ∀ n, n ≠ l.ref.wg → t.wg? n = s.wg? n
  cores : ∀ c, t.core c = s.core c

/-- The machine `t` is `s` but for the granules that a region marked, for the warp `w` of lane `l`, and, on its core, for craze
records that are free now and copies that are cancelled. -/
structure onlyRegion (s t : State) (l : Lane) (w : Warp) : Prop where
  rest : t = { s with wgs := t.wgs, cores := t.cores }
  bytes : ∀ a, t.mem.byte a = s.mem.byte a
  warp : t.warp? l.ref = some ({ l.wg with warps := l.wg.warps.set l.ref.warp w, scr := scratch t l.ref.wg }, w)
  groups : ∀ n, n ≠ l.ref.wg → t.wg? n = (s.wg? n).map (fun g => { g with scr := scratch t n })
  words : ∀ g j, (scratch t g).word j = (scratch s g).word j
  cores : ∀ c, c ≠ l.wg.core → t.core c = s.core c
  core : t.core l.wg.core = { s.core l.wg.core with crz := (t.core l.wg.core).crz, cpq := (t.core l.wg.core).cpq }

/-- The released threads went on past an instruction of `n` bytes; the other threads are bystanders. -/
def wentOn (n : Nat) (l : Lane) (w : Warp) : Prop :=
  (∀ k ∈ released l, past n (l.w.th k) (w.th k) ∧ kept (l.w.th k) (w.th k)) ∧
  (∀ k < 32, k ∉ released l → bystander (l.w.th k) (w.th k))

/-- The released threads wait at the instruction for `p`; the other threads are bystanders. -/
def waits (p : Park) (l : Lane) (w : Warp) : Prop :=
  (∀ k ∈ released l, kept (l.w.th k) (w.th k) ∧ (w.th k).pc = l.w.pc ∧ (w.th k).st = .parkedEvent p) ∧
  (∀ k < 32, k ∉ released l → bystander (l.w.th k) (w.th k))

/-- Count of a `bar`, when it names one: a clean value from 1 to 32 in a register that exists (R200, R437). -/
def barCount (l : Lane) (k : Nat) (cnt : Option Src) (n : Option Nat) : Prop :=
  match cnt with
  | none => n = none
  | some x => ∃ v, srcOk l.wg.info.nregs 1 x = true ∧ (l.w.th k).bad = [] ∧ readSrc l.w (l.w.th k) 0 .i32 x = some (v, none) ∧
      n = some v.toNat ∧ 1 ≤ v.toNat ∧ v.toNat ≤ 32

/-- The episode of barrier `id` that an arrival joins: the one that is open and not complete, else a new one, for which the warps that
have exited count as arrived; warps of the complete one that still wait are let go (R200, R438). -/
def episode (g : Wg) (id : Nat) (n : Option Nat) : BarId :=
  let fresh := fun freed => (⟨n.getD (g.warps.length - g.exitedWarps.length), [], g.exitedWarps, [], freed⟩ : BarId)
  match Tabs.find? g.bars id with
  | some x => if g.arrivals x < x.expect then x else fresh (x.freed ++ x.waiting)
  | none => fresh []

/-- The episode after warp `i` arrives, with the threads `ts` to go on when it ends, unless it only arrives. -/
def arrived (x : BarId) (i : Nat) (only : Bool) (ts : List Nat) : BarId :=
  { x with came := x.came ++ [i], waiting := if only then x.waiting else x.waiting ++ [(i, maskOf ts)] }

/-- The region that a `rgn` opens for the threads `ts` (R205, R42). -/
def opened (l : Lane) (e : Ext) (ts : List Nat) : Region :=
  { tag := l.w.nextTag, seq := l.w.rseq + 1, res := rgnRes e, openPc := l.w.pc + 16,
    recovery := l.w.pc + (rgnTgt e).signExtend 57, members := maskOf ts, crazes := [], hard := 0, regionCraze := none,
    first := none, replays := 0, overflow := false, pending := [], commit := none, retryRun := 0, crz14 := false }

/-- A `rgn` that may open a region (R205, R407, R423): no reserved bit, an aligned target, none open, and a reservation within the
kernel's sagger and every quota. -/
def rgnSound (l : Lane) (e : Ext) : Prop :=
  e.extractLsb' 40 24 = 0 ∧ rgnTgt e % 8 = 0 ∧ l.w.region = none ∧ rgnRes e ≤ l.wg.info.sagger ∧ l.wg.never (rgnRes e) = false

/-- The granules that the threads `m` of the region `r` marked are full again; all others are as they were (R191, R208, R409). -/
def refilled (s t : State) (l : Lane) (r : Region) (m : BitVec 32) : Prop :=
  ∀ g n, (scratch t g).granule n =
    if (scratch s g).granule n = .pending l.ref.wg l.ref.warp r.tag ∧ r.pending.any (fun e => m.getLsbD e.1 && e.2 == ⟨g, n⟩) then .full
    else (scratch s g).granule n

/-- The records that the members `m` of region `r` made are free, and its copies are cancelled (R208, R393, R332); the other records
and copies of the core stay. -/
def undone (l : Lane) (r : Region) (m : BitVec 32) (k k' : Core) : Prop :=
  k'.crz = k.crz.filter (fun e => e.1 == 511 || !(e.2.wslot == l.w.wslot && inRegion r.seq m e.2)) ∧
  k'.cpq = k.cpq.filter (fun c => !(c.wg == l.ref.wg && c.warp == l.ref.warp && c.held && c.member && c.tag == r.tag && m.getLsbD c.thread))

/-- The outstanding accesses of the warp when its core is `k`: those of copies that are cancelled have ended, and fences that waited for
nothing else go (R198, R308, R332). -/
def readsOver (l : Lane) (k : Core) : List Acc := ({ l with core := k } : Lane).endReads.w.accs

/-- After `abort` and `replay` every member that has not exited stands at `pc`; the released threads that are no members went on past
the instruction; threads that wait for the close of the region wait at convergence again when it `closed`. -/
def sentTo (l : Lane) (r : Region) (pc : VAddr) (closed : Bool) (w : Warp) : Prop :=
  ∀ k < 32, kept (l.w.th k) (w.th k) ∧
    if r.members.getLsbD k = true ∧ (l.w.th k).gone = false then (w.th k).pc = pc ∧ (w.th k).st = .eligible
    else if k ∈ released l then past 8 (l.w.th k) (w.th k)
    else if closed = true ∧ (l.w.th k).st = .parkedEvent .closed then (w.th k).pc = (l.w.th k).pc ∧ (w.th k).st = .parkedConv false
    else bystander (l.w.th k) (w.th k)

/-- The 96 words that a `trap` of the threads `ts` sends, three for each of 32 threads, zero for the others (R212). -/
def trapArgs (ts : List Nat) (v : Nat → List DWord) : List Word :=
  (List.range 32).flatMap (fun t => if ts.contains t then (v t).map (fun x => x.setWidth 32) else [0, 0, 0])

/-! ## Crazes, system values, segments (R210, R211, R213, R214) -/

/-- The word that `crzread` gives for the source craze `p` (R211): zero for a clean source or a free record. -/
def crzWord (s : State) (f : BitVec 3) (p : Option Word) : Word :=
  match p with
  | none => 0
  | some q => if f = 0 then BitVec.ofNat 32 (causeOf q)
    else match Tabs.find? (s.core (q.toNat / 2 ^ 17 % 128)).crz (q.toNat % 512) with
      | some r => crzField f.toNat r
      | none => 0

end Sys2Proof.Claims

namespace Sys2Proof.Claims

open Sys2Proof.Machine

/-! ## The matrix queue (R219, R220, R229 to R248) -/

/-- An opcode that enters the matrix queue: guard, bytes, its sources A, B and C, and whether its fields keep R219 and R404. -/
structure MatForm where
  h : Hdr
  size : Nat
  a : Option Src
  b : Option Src
  c : Option Src
  sound : Bool

/-- A source that the array accepts, when there is one (R219). -/
def matOk (x : Option Src) : Bool := x.all (matSrcOk 1)

/-- The opcodes of the matrix queue; a chain needs a kiln group of four (R232). -/
def matForm (kg : Nat) : Instr → Option MatForm
  | .mcoef h dst _ => some ⟨h, 16, none, none, none, dst.extractLsb' 4 4 == 0⟩
  | .mcoefS h dst a _ => some ⟨h, 16, none, none, none, dst.extractLsb' 4 4 == 0 && matSrcOk 2 a⟩
  | .mchain h m => some ⟨h, 8, none, none, none, m == .off || kg == 4⟩
  | .mlds h _ a b c _ => some ⟨h, 16, some a, some b, c, matOk (some a) && matOk (some b) && matOk c⟩
  | .mswap h => some ⟨h, 8, none, none, none, true⟩
  | .mzero h dst _ => some ⟨h, 8, none, none, none, dst.extractLsb' 5 3 == 0⟩
  | .mma h _ _ _ a b c _ => some ⟨h, 16, some a, some b, c, matOk (some a) && matOk (some b) && matOk c⟩
  | .mfeedShadow h _ _ | .mfeedStream h _ _ | .macc h _ | .mpoly h _ | .msoak h _ _ => some ⟨h, 16, none, none, none, true⟩
  | .mldacc h _ a b _ | .mstore h _ a b _ => some ⟨h, 16, some a, some b, none, matOk (some a) && matOk (some b)⟩
  | .mstoreSs h _ a _ | .mstoreMc h _ a _ => some ⟨h, 16, some a, none, none, matOk (some a)⟩
  | .mnorm h _ _ dst _ => some ⟨h, 16, none, none, none, dst.extractLsb' 4 4 == 0⟩
  | _ => none

/-- The 32-bit word of an operand that is read once for the warp, crazed where its register is. -/
def warpWord (l : Lane) (x : Option Src) : TWord :=
  match x.bind (readSrc l.w Thread.vacant 0 .i32) with
  | some (v, none) => ⟨v.setWidth 32, false⟩
  | some (_, some p) => ⟨p, true⟩
  | none => ⟨0, false⟩

/-- The 64-bit operand of an entry, and the craze of a coefficient from scalar registers (R231). -/
def matWide (l : Lane) : Instr → DWord × Option Word
  | .mcoef _ _ e => (e, none)
  | .mcoefS _ _ a _ => (readSrc l.w Thread.vacant 0 .f64 a).getD (0, none)
  | _ => (0, none)

/-- The entry of the matrix queue that instruction `i` makes: its operands as they are at issue, its warp, the lowest active thread,
its batch and the open region of that thread. -/
def matEntry (i : Instr) (f : MatForm) (l : Lane) : MEntry :=
  let t := (active l f.h).headD 0
  { id := l.wg.nextM, ins := i, a := (match (matWide l i).2 with | some p => ⟨p, true⟩ | none => warpWord l f.a),
    b := warpWord l f.b, c := warpWord l f.c, wide := (matWide l i).1, pc := l.w.pc, warp := l.ref.warp, thread := t,
    batch := maskOf (active l f.h), issued := (l.clock, l.w.wslot),
    gcrz := crazeOf ((active l f.h).map (fun k => (l.w.th k).predCraze f.h.guard)), reg := if l.w.member t then l.w.region.map (fun r => (l.ref.warp, r.tag)) else none,
    sg1 := l.w.seg 1, started := false, head := none, seen := [], out := none, chained := none, waitFrom := none, stopped := false }

/-- How the batch leaves an instruction of the matrix queue: past it, but the active threads of `msoak` wait at it (R248). -/
def leftQueue (i : Instr) (f : MatForm) (l : Lane) (w : Warp) : Prop :=
  match i with
  | .msoak .. =>
    (∀ k ∈ active l f.h, kept (l.w.th k) (w.th k) ∧ (w.th k).pc = l.w.pc ∧ (w.th k).st = .parkedEvent .msoak) ∧
    (∀ k ∈ l.w.batch, k ∉ active l f.h → past 16 (l.w.th k) (w.th k) ∧ kept (l.w.th k) (w.th k)) ∧
    (∀ k < 32, k ∉ l.w.batch → bystander (l.w.th k) (w.th k))
  | _ => moved f.size l w

/-! ## Copies, groups, collectives (R253 to R283) -/

/-- The machine `t` is `s` but for the core of lane `l`, which is `k` now, and its workgroup, which is `g`, with the warp `w`. -/
structure onlyCore (s t : State) (l : Lane) (g : Wg) (w : Warp) (k : Core) : Prop where
  rest : t = { s with wgs := t.wgs, cores := t.cores }
  bytes : ∀ a, t.mem.byte a = s.mem.byte a
  warp : t.warp? l.ref = some ({ g with warps := l.wg.warps.set l.ref.warp w }, w)
  groups : ∀ n, n ≠ l.ref.wg → t.wg? n = s.wg? n
  core : t.core l.wg.core = k
  cores : ∀ c, c ≠ l.wg.core → t.core c = s.core c

/-- The box copies (R265, R267 to R270, R275). -/
def boxForm : Instr → Option BoxIns
  | .cpyld h fe mf nobar a b c e => some ⟨h, .ld, fe, mf, nobar, a, b, c, e⟩
  | .cpyst h nobar a b c e => some ⟨h, .st, false, false, nobar, a, b, c, e⟩
  | .cpypeer h fe nobar a b c e => some ⟨h, .peer, fe, false, nobar, a, b, c, e⟩
  | .cpygrp h fe nobar a b c e => some ⟨h, .grp, fe, false, nobar, a, b, c, e⟩
  | _ => none

/-- An operand that is read once for the warp: value and craze. -/
def warpRead (l : Lane) (k : OKind) (lit : Word) (x : Src) : DWord × Option Word := (readSrc l.w Thread.vacant lit k x).getD (0, none)

/-- The receivers of a box copy into scratchpads (R267, R270). -/
def boxTo (i : BoxIns) (s : State) (l : Lane) : List (Nat × Nat) :=
  match i.op with
  | .st => []
  | .peer => ((List.range 4).filter (fun p => (cxPm i.e).testBit p)).filterMap (fun p => (Ctx.peer ⟨s, l⟩ p).map (fun g => (g, 0)))
  | _ => [(l.ref.wg, 0)]

/-- The first craze among the guards of the active set. -/
def guardsOf (l : Lane) (h : Hdr) : Option Word := crazeOf ((active l h).map (fun t => (l.w.th t).predCraze h.guard))

/-- The command of a box copy. -/
def boxCmd (i : BoxIns) (s : State) (l : Lane) : CpyCmd :=
  let t := (active l i.h).headD 0
  let fw := if i.mf then warpRead l .i64 0 (.scal (BitVec.ofNat 6 (cxFws i.e))) else (0, none)
  let st := i.op == .st
  { id := l.core.nextCmd, op := i.op, wg := l.ref.wg, warp := l.ref.warp, wslot := l.w.wslot, thread := t, pc := l.w.pc, po := l.w.po,
    rseq := l.w.rseq, tag := if st && !l.w.member t then l.w.nextTag else (l.w.region.map Region.tag).getD 0,
    member := l.w.member t, held := st, fe := i.fe, mf := i.mf, nobar := i.nobar, e := i.e, coords := l.coordsOf i.a,
    b := (warpRead l .i32 0 i.b).1, bCrz := (warpRead l .i32 0 i.b).2, a := 0, c := (warpRead l .i32 0 i.c).1,
    cBad := (warpRead l .i32 0 i.c).2.isSome,
    crz := crazeOf [(warpRead l .i32 0 i.c).2, guardsOf l i.h, fw.2], fws := fw.1, sgRec := l.w.seg (cxSeg i.e),
    sgSrc := l.w.seg (if st then 1 else 0), sgDst := l.w.seg (if st then 0 else 1), sgBar := l.w.seg 1, stage := .queued,
    lrec := [], recv := boxTo i s l, buf := [], lines := [], landed := 0, causes := [],
    k := (Tabs.find? l.wg.groups (cxGid i.e)).getD 0, anchor := none, waiting := false }

/-- What a box copy needs to enter the queue (R265, R270, R274, R407): its receivers are there, the workgroup is in the group, and its
coordinates end at `s62`. -/
def boxReady (i : BoxIns) (s : State) (l : Lane) : Prop :=
  i.bad = false ∧
  (i.op = .peer → l.wg.info.kg ≠ 0 ∧ ∀ p < 4, (cxPm i.e).testBit p = true → (Ctx.peer ⟨s, l⟩ p).isSome) ∧
  (i.op = .grp → (Tabs.find? l.wg.groups (cxGid i.e)).isSome) ∧
  (boxCmd i s l).runPast (if (boxCmd i s l).bCrz.isSome then 1 else Ctx.peekRank ⟨s, l⟩ (boxCmd i s l)) = false

/-- The command of a linear copy (R272), from source offset `x` to destination offset `y`, `n` bytes. -/
def linCmd (h : Hdr) (fe nobar : Bool) (e : Ext) (x y n : DWord × Option Word) (l : Lane) : CpyCmd :=
  let t := (active l h).headD 0
  let held := sgKind (l.w.seg (cxDseg e)) == 0
  { id := l.core.nextCmd, op := .lin, wg := l.ref.wg, warp := l.ref.warp, wslot := l.w.wslot, thread := t, pc := l.w.pc, po := l.w.po,
    rseq := l.w.rseq, tag := if held && !l.w.member t then l.w.nextTag else (l.w.region.map Region.tag).getD 0,
    member := l.w.member t, held, fe, mf := false, nobar, e, coords := [], b := y.1, bCrz := none, a := x.1, c := n.1, cBad := false,
    crz := crazeOf [x.2, y.2, n.2, guardsOf l h], fws := 0, sgRec := 0, sgSrc := l.w.seg (cxSeg e), sgDst := l.w.seg (cxDseg e),
    sgBar := l.w.seg 1, stage := .queued, lrec := [], recv := if held then [] else [(l.ref.wg, 0)], buf := [], lines := [],
    landed := 0, causes := [], k := 0, anchor := none, waiting := false }

/-- The warp after a copy command `c` enters the queue: a held copy of a thread outside the open region opens an implicit region
without units (R187, R269), and its reads of global memory stand in the warp's program order as one access (R308). -/
def queuedWarp (c : CpyCmd) (l : Lane) (w : Warp) : Prop :=
  let own := c.held && !c.member
  w = { l.w with thr := w.thr, chain := 0, po := l.w.po + 1, nextId := l.w.nextId + 1,
                 accs := l.w.accs ++ (if c.reads then [l.engineAcc c] else []),
                 implicit := l.w.implicit ++ (if own then [{ heldRegion l false with units := 0, owner := some c.thread }] else []),
                 nextTag := l.w.nextTag + (if own then 1 else 0), implicitCount := l.w.implicitCount + (if own then 1 else 0) }

/-- The core with a command at the end of its queue. -/
def queuedCore (c : CpyCmd) (l : Lane) : Core := { l.core with cpq := l.core.cpq ++ [c], nextCmd := l.core.nextCmd + 1 }

/-- The workgroup after a box copy entered the queue: a `cpygrp` counts in its group (R273). -/
def countedGroup (i : BoxIns) (l : Lane) : Wg :=
  if i.op = .grp then { l.wg with groups := Tabs.put l.wg.groups (cxGid i.e) ((Tabs.find? l.wg.groups (cxGid i.e)).getD 0 + 1) }
  else l.wg

/-- The member list of a group after workgroup `n` joins it. -/
def joined (x : Grp) (n count : Nat) : Grp :=
  ⟨count, if x.members.any (fun m => m.wg == n) then x.members else x.members ++ [⟨n, 0, false⟩]⟩

/-- May workgroup `n` of lane `l` join (R274)? A member may, and a trailer, which is none; a group has at most 32 members, and one of a
core. -/
def mayJoin (s : State) (l : Lane) (x : Grp) : Prop :=
  l.leader.isSome ∨ x.members.any (fun m => m.wg == l.ref.wg) = true ∨
  (x.members.length < 32 ∧ ∀ m ∈ x.members, m.wg ≠ l.ref.wg → ∀ w, s.wg? m.wg = some w → w.core ≠ l.wg.core)

/-- The collective that a `coll` starts (R280, R281), at virtual address `va`. -/
def startedColl (l : Lane) (h : Hdr) (e : Ext) (va o n : Nat) : CollOut :=
  ⟨nextTicket l.w.collCount, false, false, none, (active l h).headD 0, l.w.pc, l.w.po, e, va, sgLimit (l.w.seg (clSeg e)) + 1 - o, n⟩

end Sys2Proof.Claims

namespace Sys2Proof.Claims

open Sys2Proof.Machine

/-! ## Events of a warp -/

/-- A lane after an event: convergence may release threads (R37), but at a stop point nothing moves (R330). -/
def ended (m : Lane) : Lane := if m.wg.frozen then m else { m with w := m.w.converge }

/-- Of the lane, one outstanding access has changed. -/
def accNow (l : Lane) (a : Acc) : Lane := { l with w := { l.w with accs := l.w.accs.map (fun x => if x.id = a.id then a else x) } }

/-- Of the lane, one held item has changed. -/
def itemNow (l : Lane) (i : Item) : Lane := { l with w := { l.w with items := l.w.items.map (fun x => if x.id = i.id then i else x) } }

/-- The access `id` of the lane is at stage `st`. -/
def accAt (l : Lane) (id : Nat) (st : AccStage) (a : Acc) : Prop :=
  l.w.accs.find? (fun x => x.id == id && x.stage == st && !x.performed) = some a

/-- The item `id` of the lane is at stage `st`. -/
def itemAt (l : Lane) (id : Nat) (st : ItemStage) (i : Item) : Prop :=
  l.w.items.find? (fun x => x.id == id && x.stage == st) = some i

/-- The old words of an atomic, and what it stores (R194, R195). -/
def farAtom (s : State) (a : Acc) (op : Nat) : Option Nat × List TWord :=
  atomStep op a.n a.x.toNat a.cmp.toNat (s.memWords a.key.toNat a.dpa a.n)

/-- Memory after an atomic at its home slice. -/
def farStored (s : State) (a : Acc) (op : Nat) : State :=
  match (farAtom s a op).1 with
  | some v => s.memWrite a.key.toNat a.dpa (cellsOf 0 a.n v none)
  | none => s

/-- Does a load extend the sign of what it reads? -/
def accSx : AccKind → Bool
  | .load b => b
  | _ => false

/-- The code of an atomic's operation, 255 for `cas`. -/
def accOp : AccKind → Option Nat
  | .atom k => some k
  | .cas => some 255
  | _ => none

/-- Nothing keeps an item from its home slice (R300, R302, R422, R424, R428): a leader's or lone warp's, not remote, no line of it
releasing for another, room there, and a verdict of no fault. -/
def mayPush (s : State) (l : Lane) (i : Item) : Prop :=
  l.leader = none ∧ i.rmt = false ∧ Ctx.room ⟨s, l⟩ i = true ∧
  s.releasing.any (fun r => i.lines.contains r.line && !r.isOf l.ref i.tag) = false ∧
  (i.dpa < hostBase → s.colourOk l.wg.part (colourOf i.dpa) = true ∧ s.quarantined i.dpa = false ∧
    (s.otherHeld l.ref none).any (fun x => i.offsets.any (fun o => x.meets (i.dpa + o) 1)) = false)

/-- Thread `k` of a lane goes on at `pc`. -/
def resumes (l : Lane) (k : Nat) (pc : VAddr) : Lane :=
  { l with w := { l.w with thr := (List.range 32).map (fun t =>
      if t = k ∧ (l.w.th t).gone = false then { l.w.th t with pc := pc, st := .eligible, derailed := false } else l.w.th t) } }

/-- What a warp has decided to release: the items of `r` for the members `m`, who go on after `pc`; at completion the region
closes (R207, R411, R414). -/
def wholeRelease (r : Region) (q : CommitReq) : Release :=
  { tag := r.tag, set := r.members, cont := q.released, pc := q.pc, closes := true, seq := r.seq,
    pending := r.pending.filter (fun e => r.members.getLsbD e.1), units := 0, agreed := true, sig := 0, sigSent := false, undo := some q }

/-- The bytes of a service record of a `trap` or of a fault service (R212, R418): header, arguments, and room for the answer. -/
def recordOf (l : Lane) (v : SvcWait) (seq : Nat) : List Byte := svcRecord l.wg l.w v seq

/-- There is room in the service ring of function `f`, the ring is on and the host link is up (R341, R342, R454). -/
def ringRoom (s : State) (f : BitVec 8) : Prop :=
  s.ringOn f = true ∧ s.hostUp = true ∧ (s.ringProd f + 2 ^ 32 - s.ringCons f) % 2 ^ 32 < 2 ^ s.ringLg f

/-- The warps of a group after the threads that wait in `p` go on past 8 bytes, those of the warps that `ws` names. -/
def letGo (g : Wg) (ws : List (Nat × BitVec 32)) (p : Park) : List Warp :=
  g.warps.zipIdx.map (fun e => ws.foldl (fun w x => if x.1 = e.2 then w.letGo x.2 p 8 else w) e.1)

end Sys2Proof.Claims

namespace Sys2Proof.Claims

open Sys2Proof.Machine

/-! ## Events of the array, the copy engine, the transport -/

/-- Command `cmd` of core `core`, with the lane of its warp. -/
def cmdAt (s : State) (core cmd : Nat) (k : CpyCmd) (l : Lane) : Prop :=
  (s.core core).cpq.find? (fun x => x.id == cmd) = some k ∧ s.laneOf ⟨k.wg, k.warp⟩ = some l

/-- A workgroup after its entry `e` has completed with the results `o` (R223): they are written and the entry is gone. -/
def completedIn (g : Wg) (e : MEntry) (o : MOut) : Wg := { g.apply o with mq := g.mq.filter (fun x => x.id != e.id) }

/-- The threads of a batch that wait at an `msoak` go on past it (R248). -/
def soakOver (l : Lane) (e : MEntry) : Lane :=
  (threadsOf e.batch).foldl (fun m t =>
    if (m.w.th t).st == .parkedEvent .msoak then m.setTh t { m.w.th t with pc := e.pc + 16, st := .eligible } else m)
    { l with wg := { l.wg with mq := l.wg.mq.filter (fun x => x.id != e.id) } }

/-- The held line that a running command `k` lands next, at address `dpa` (R269, R272). -/
def landedItem (s : State) (l : Lane) (k : CpyCmd) (va : Nat) (cells : List NCell) (dpa : Nat) (gen : BitVec 16) (key : BitVec 8)
    (rmt : Bool) : Item :=
  { id := l.w.nextId, tag := k.tag, po := k.po, thread := k.thread, kind := .store, cells := cells.map (landCell s key.toNat dpa rmt), va,
    n := 128, pc := k.pc, stage := .sagger, dpa, gen, key, rmt, copy := true, bad := false, sent := false, issued := l.clock, named := k.thread }

/-- The entry of the shelf that a request of `k` asks for (R276). -/
def sameBox (l : Lane) (k : CpyCmd) (slice : Nat) (x : ShelfEnt) : Bool :=
  x.slice == slice && x.part == l.wg.part && x.gid == cxGid k.e && x.k == k.k && x.lrec == k.lrec && x.coords == k.cs.map (BitVec.ofInt 32)

/-- Every rank of this S4 has contributed to the collective. -/
def allHere (x : CollInst) : Prop := ∀ r ∈ x.locals, ∃ p ∈ x.parts, p.rank = r.1

/-- Deliver to each participant in order; `none` where a line must wait. -/
def deliverAll (s : State) (f : CollPart → List (Nat × (Nat × Option Word))) (ps : List CollPart) : Option State :=
  ps.foldl (fun (r : Option State) p => r.bind (fun s => s.deliver p (f p))) (some s)

/-! ## Requests of the mailbox -/

/-- The request of channel `ch` is served now: its code, its length, its reserved bytes (R350, R352). -/
def due (s : State) (ch code len : Nat) : Prop := s.served ch code = true ∧ s.reqSound ch = true ∧ s.reqLen ch = len

/-- A `NODE_SUBMIT` whose record is well formed, of one block, for a stream that has no other node of its DCB (R318, R405). -/
def submits (s : State) (ch : Nat) : Prop :=
  s.named (s.req ch 0 8) = true ∧ s.level (s.req ch 0 8) = 5 ∧ s.req ch 0x12 1 ≤ 8 ∧ s.req ch 0x13 5 = 0 ∧
  (∀ i < s.req ch 0x12 1, s.req ch (0x18 + 4 * i) 4 < 2 ^ 18) ∧ s.req ch 8 8 < 2 ^ 52 ∧ s.req ch 0x38 8 = 0 ∧
  s.vfFailed (s.req ch 0 8) = false ∧ (∀ e ∈ s.nodes, e.2.dcb ≠ s.req ch 0 8)

/-- The node that the record makes, with the header `h` of its launch; with no predecessor it is ready at once (R319). -/
def submitted (s : State) (ch n : Nat) (h : Header) : Node :=
  { dcb := s.req ch 0 8, lrec := s.req ch 8 8, hdr := h, succ := (List.range (s.req ch 0x12 1)).map (fun i => s.req ch (0x18 + 4 * i) 4),
    counter := s.req ch 0x10 2, ready := if s.req ch 0x10 2 = 0 then some n else none, n := 0, kg := 0, sword := 0, begun := false,
    given := 0, left := 0 }

/-- What a `STOP` makes of a bind (R328): of its subtree, one that has placed nothing is not valid any more, another one stops. -/
def halted (s : State) (d : Nat) (b : Bind) : Bind :=
  if s.under b.dcb d then (if b.placed = 0 then { b with valid := false } else { b with stop := true }) else b

/-- The mode in which a `STOP` of `d` saves: no preemption drains (R328, R329). -/
def stopMode (s : State) (d : Nat) : Nat := if s.effMode d = 3 then 0 else s.effMode d

/-- The windows that a `WINDOW_SET` asks for. -/
def askedTwins (s : State) (ch : Nat) : List DWord := (List.range 20).map (fun p => BitVec.ofNat 64 (s.req ch (16 + 8 * p) 8))

/-! ## Placement -/

/-- The node when its first bind is written, its launch checked again (R405); a begun one as it is. -/
def begunNode (s : State) (x : Node) : State × Option Node :=
  if x.begun then (s, some x) else match s.recheck x with
    | (s, none) => (s, none)
    | (s, some (l, h)) => (s, some { x with hdr := h, n := l.n, kg := l.kg, sword := l.sword, begun := true, left := l.n })

/-- Workgroups that the next bind of a node takes: a chunk of 64, or of 64 kiln groups (R320). -/
def chunkOf (y : Node) : Nat := min (64 * max 1 y.kg) (y.n - y.given)

/-- The bind of the next chunk of node `k` (R320, R321). -/
def bindOf (s : State) (k : Nat) (x y : Node) : Bind :=
  let cw := y.sword.extractLsb' 16 16
  { lrec := x.lrec, hdr := y.hdr, dcb := x.dcb, first := y.given, count := chunkOf y, cmask := BitVec.allOnes 32,
    cwait := if cw = 0 then 1024 else cw, valid := true, resume := false, priv := s.ownJob x.dcb,
    paired := (s.launchAt x.lrec).lflags % 2 == 1, stop := false, prio := s.effPrio x.dcb, img := 0, placed := 0, done := 0, node := k,
    kg := y.kg, imgs := [], last := none, shares := s.bindShares x.dcb, quotas := s.bindQuotas x.dcb, frag := [], since := s.clock,
    hold := none }

/-- A bind that has waited fragmented on core `c` for its wait (R324). -/
def ripe (s : State) (key : Nat) (b : Bind) (c : Nat) : Prop :=
  ((s.fragCores key b).filter (fun c => match Tabs.find? b.frag c with
    | some t => decide (t + 64 * b.cwait.toNat ≤ s.clock)
    | none => false)).head? = some c

/-! ## Outside -/

/-- A remote request that is the next one of its source, at a port that is up, and need not wait (R361, R362). -/
def arrives (s : State) (port : Nat) (q : RemReq) : Prop :=
  port < 12 ∧ s.portSt port = 2 ∧ q.sound (s.rd Reg.fnode).toNat = true ∧ q.seq = Tabs.get s.remSeq 0 q.src ∧ s.remWaits q = false

/-- `n` bytes of memory as the host reads them. -/
def hostBytes (s : State) (a n : Nat) : List Byte := (List.range n).map (fun i => BitVec.ofNat 8 (s.memNat 0 (a + i) 1))

end Sys2Proof.Claims

namespace Sys2Proof.Claims

open Sys2Proof.Machine

/-! ## Glaze restores, registers, pairs, messages -/

/-- What the security controller reads for a `GLAZE_RESTORE` (R375): the image, by its own length, and the certificate chain. -/
def restoreReads (s : State) (ch : Nat) : State × List Byte × List Byte :=
  let (s1, head) := s.secBytes (s.req ch 0 8) 0x18
  let (s2, body) := s1.secBytes (s.req ch 0 8 + 0x18) (imageLen (leNat (head.drop 0x10)) - 0x18)
  let (s3, len) := s2.secBytes (s.req ch 16 8) 2
  let (s4, more) := s3.secBytes (s.req ch 16 8 + 2) (leNat len - 2)
  (s4, head ++ body, (len ++ more).take (leNat len))

/-- Pages of staging space that the image of a `GLAZE_RESTORE` takes. -/
def restorePages (s : State) (ch : Nat) : List Nat := imagePages (imageLen (leNat ((s.secBytes (s.req ch 0 8) 0x18).2.drop 0x10)))

/-- The request that a `GLAZE_RESTORE` of the image `im` makes (R375). -/
def restoreReq (s : State) (ch : Nat) (im : List Byte) : GlazeReq :=
  { id := s.nextGlaze, ch, write := false, kind := gField im 6 1, job := s.req ch 8 8, dir := 0, dst := 0, session := s.req ch 24 4,
    stage := 2, pages := restorePages s ch, secs := [], ctr := gField im 8 8, image := im }

/-- The first of the checks 1 to 4 that an image fails, in its order, with the certificate chain `chain` (R464). -/
def failsCheck (s : State) (chain : List Byte) (g : GlazeReq) : Option Nat :=
  if headerSound g.image = false then some 1
  else if Config.chainVerifies chain g.image = false then some 2
  else if (List.range 64).map (Config.chainDigest chain) ≠ (g.image.drop 0x60).take 64 then some 3
  else if s.pmeas (s.partOf g.job) ≠ (g.image.drop 0x20).take 64 then some 4 else none

/-- A restore goes on, or is refused for the check that it fails. -/
def goesOn (s : State) (g : GlazeReq) : Option Nat → State
  | none => s
  | some k => s.refuseRestore g k

/-- The subtree of `d` runs again (R328): its binds are valid, and take the effective values of now (R28). -/
def revived (s : State) (d : Nat) : State :=
  (((s.binds.map Prod.snd ++ s.bindq.map Prod.snd).filter (fun b => s.under b.dcb d)).foldl (fun s b => s.enforce b.dcb)
    (s.mapBinds (s.revive d))).setDcbState d 1

/-- Offsets of the physical function whose writes have an effect of their own, beside the access codes of R7. -/
def ownBehaviour (off : Nat) : Prop :=
  (Reg.msix ≤ off ∧ off < Reg.msix + 256) ∨ off = Reg.fnode ∨ (Reg.vfgen 0 ≤ off ∧ off < Reg.vfgen 256) ∨
  (Reg.prx 0 ≤ off ∧ off < Reg.prx 4) ∨ (Reg.mcerr 0 ≤ off ∧ off < Reg.mcerr 16) ∨ (Reg.mcq 0 0 ≤ off ∧ off < Reg.mcq 16 0) ∨
  (Reg.mbox 0 ≤ off ∧ off < Reg.mbox 8) ∨ (Reg.vmctl 0 ≤ off ∧ off < Reg.vmctl 256) ∨
  (Reg.xltx 0 ≤ off ∧ off < Reg.xltx 4 ∧ off % 32 = Reg.xltx 0 % 32)

/-- Does entry `e` wait for the signature `q` of warp `i` of the pair `ln`, `tn`, from the leader or the trailer (R478)? -/
def awaitsSig (ln tn i : Nat) (lead : Bool) (q : Sig) (e : ScbEnt) : Bool :=
  e.lead == ln && e.trail == tn && e.warp == i && e.imp == q.imp && e.num == q.num && (if lead then e.lsig.isNone else e.tsig.isNone)

/-- The entry with a signature. -/
def signedBy (lead : Bool) (v : DWord) (e : ScbEnt) : ScbEnt := if lead then { e with lsig := some v } else { e with tsig := some v }

/-- The oldest complete entry of its warp (R479). -/
def mayCompare (s : State) (e : ScbEnt) : Prop :=
  s.scb.find? (fun x => x.die == e.die && x.id == e.id) = some e ∧ e.lsig.isSome ∧ e.tsig.isSome ∧
  (∀ x ∈ s.scb, x.lead = e.lead → x.trail = e.trail → x.warp = e.warp → e.id ≤ x.id)

/-- The region of the trailer that did not agree counts a mismatch (R481). -/
def markTrailer (e : ScbEnt) (s : State) : State :=
  if e.imp then s
  else s.modWg e.trail (fun g => { g with warps := g.warps.zipIdx.map (fun p =>
    if p.2 = e.warp then { p.1 with region := p.1.region.map (fun r => if r.seq.toNat = e.num then r.mismatched else r) } else p.1) })

/-- The messages of the responder (R367): code, stage that the connection must have reached, stage that the message leads to, and whether it
starts a connection. -/
def spdmForm : Instr → Option (Nat × Nat × Nat × Bool × List Byte)
  | .getVersion m => some (0, 0, 1, true, m)
  | .getCapabilities m => some (1, 1, 2, false, m)
  | .negotiateAlgorithms m => some (2, 2, 3, false, m)
  | .getDigests m => some (3, 3, 3, false, m)
  | .getCertificate m => some (4, 3, 3, false, m)
  | .challenge m => some (5, 3, 3, false, m)
  | .getMeasurements m => some (6, 3, 3, false, m)
  | .keyExchange m => some (7, 3, 4, false, m)
  | .finish m => some (8, 4, 5, false, m)
  | _ => none

/-- A response of the responder after the messages `t` (the model's free bytes, log 9). -/
def spdmReply (code : Nat) (t : List Byte) : List Byte := (List.range (Config.spdmLength code t)).map (Config.spdmByte code t)

/-- The failed trainings of a port in the last 100 ms, with the one of now (R455). -/
def recentFails (s : State) (port : Nat) : List Nat :=
  (Tabs.get s.portFails [] port).filter (fun t => decide (s.clock ≤ t + failWindow)) ++ [s.clock]

/-- `TLM` of a die after a sample (R376): power and temperature from the sample, the count of samples rises, the life stays. -/
def sampled (s : State) (die : Nat) (x : DWord) : DWord :=
  (x &&& 0xFFFFFFF000000000) ||| (s.rd (Reg.tlm die) &&& 0xFFFF0000) ||| BitVec.ofNat 64 (((s.rd (Reg.tlm die)).toNat + 1) % 65536)

end Sys2Proof.Claims
end

