-- ==== Sys2Proof/Certificates/Slice0/Obligations.lean ====
section
/-! DEFINITION. The statements about the model. -/

open Sys2Proof Sys2Proof.Machine Sys2Proof.Claims

/-- R33, R35, R84, R102, R103, R326, R327, R391, R406, log 1: a step takes the first entry of the agenda after its cycles. Where a warp
issues whose batch can, which its lane selects and whose turn in the cycle it is, it executes what the bytes at the program counter
stand for, in the kept block or in one that it fetches; a word that would open a chain while a load is outstanding waits; else nothing
issues. An event and a read of the array run in their turn, and a warp is marked ready. What the Stoker does at once follows. With an
empty agenda one cycle passes. -/
def Obligations.StepRunsDecoded : Prop :=
  (∀ (s : State), s.agenda = [] → step s = .next { s with clock := s.clock + 1 }) ∧
  (∀ (s : State) dt i rest, s.agenda = ⟨dt, .event i⟩ :: rest →
    let s1 : State := { s with agenda := rest, clock := s.clock + dt }
    step s = tidied (s1.inPlace (exec i s1))) ∧
  (∀ (s : State) dt n e k rest, s.agenda = ⟨dt, .arrayRead n e k⟩ :: rest →
    let s1 : State := { s with agenda := rest, clock := s.clock + dt }
    step s = tidied (s1.inPlace (.next (s1.arrayRead n e k)))) ∧
  (∀ (s : State) dt n e rest, s.agenda = ⟨dt, .arrayLastRead n e⟩ :: rest →
    let s1 : State := { s with agenda := rest, clock := s.clock + dt }
    step s = tidied (s1.inPlace (.next (s1.arrayLastRead n e)))) ∧
  (∀ (s : State) dt r on rest, s.agenda = ⟨dt, .ready r on⟩ :: rest →
    step s = .next (State.markReady { s with agenda := rest, clock := s.clock + dt } r on).tidy) ∧
  (∀ (s : State) dt r rest, s.agenda = ⟨dt, .issue r⟩ :: rest →
    let s1 : State := { s with agenda := rest, clock := s.clock + dt }
    (∀ l, s1.laneOf r = some l → ¬ mayIssue s1 l → step s = .next s1.tidy) ∧
    (∀ l bs, s1.laneOf r = some l → mayIssue s1 l → Tabs.find? l.w.kept (l.w.pc.toNat / 32) = some bs → l.opensEarly (chainBit bs l.w.pc) = true →
      step s = .next s1.tidy) ∧
    (∀ l bs i, s1.laneOf r = some l → mayIssue s1 l → Tabs.find? l.w.kept (l.w.pc.toNat / 32) = some bs → l.opensEarly (chainBit bs l.w.pc) = false →
      readsAs bs l.w.pc i → step s = tidied (exec i (s1.begin r))) ∧
    (∀ l s2 a gen key i, s1.laneOf r = some l → mayIssue s1 l → Tabs.find? l.w.kept (l.w.pc.toNat / 32) = none →
      s1.translate (some l.wg.core) l.wg.vf (l.w.pc.toNat / 32 * 32) .fetch true = (s2, .ok a gen key false) → s2.releasingAny a 32 = false →
      Ctx.homeChecks ⟨s2, l⟩ a 32 gen false = (⟨s2, l⟩, none) → l.opensEarly (chainBit (blockAt s2 key.toNat a) l.w.pc) = false →
      readsAs (blockAt s2 key.toNat a) l.w.pc i →
      step s = tidied (exec i ((s2.putLane (keeping l (blockAt s2 key.toNat a))).begin r))))

/-- R80 to R83, R86, R149, R159, R167, R170, R182, R205, R241, R266: words of the spec's layout decode to the instructions that they stand
for. -/
def Obligations.DecodedWords : Prop :=
  decode 0 (wordWith 0 (baseWord 1 0 0x300 0x001 0 0x02 0 7 0x001 0 0 0)) = .ok (.iadd ⟨7, false, false⟩ .s32 false (.vec 2) (.vec 1) (.imm 0) 0) ∧
  decode 8 (wordWith 0x40490FDB (baseWord 0x0B 0 0x3FF 0x002 0 0x05 1 1 0x041 0 1 1)) =
    .ok (.fmul ⟨1, true, true⟩ .rm false true false false (.vec 5) (.vec 2) .lit 0x40490FDB) ∧
  decode 24 (wordWith 0 (baseWord 0x11 0 0x305 0x002 0 0x39 0 7 0x081 0 0 0)) =
    .ok (.pset ⟨7, false, false⟩ (.int .s32 .lt) 0x39 (.vec 2) (.imm 5) 0) ∧
  decode 16 (wordWith 0xFFFFFFE0 (baseWord 0 0 0 0 0 0 0 1 0x083 0 0 1)) = .ok (.bra ⟨1, false, false⟩ 0xFFFFFFE0) ∧
  decode 0 (wordWith 0x0D40000000000040 (baseWord 1 0 0x300 0x004 0 0x06 0 7 0x0C0 0 0 2)) =
    .ok (.ld ⟨7, false, false⟩ true 6 (.vec 4) (.imm 0) 0x0D40000000000040) ∧
  decode 0 (wordWith 0 (baseWord 7 0 0 0 0 0 0 7 0x101 0 0 0)) = .ok (.commit ⟨7, false, false⟩ true true true) ∧
  decode 8 (wordWith 0x6500400000000000 (baseWord 2 0x102 0x103 0x108 0 0 0 1 0x140 0 0 2)) =
    .ok (.cpyld ⟨1, false, false⟩ false true false (.scal 8) (.scal 3) (.scal 2) 0x6500400000000000) ∧
  decode 16 (wordWith 0x4380000000300000 (baseWord 1 0 0x305 0x104 0 0 0 7 0x186 0 0 2)) =
    .ok (.mma ⟨7, false, false⟩ true false false (.scal 4) (.imm 5) none 0x4380000000300000) ∧
  decode 0 (wordWith 0 0) = .error .opcode ∧ decode 24 (wordWith 0 (baseWord 0 0 0 0 0 0 0 7 0x083 0 0 1)) = .error .crossing

/-- R80 to R83, R102: every well-formed instruction, encoded and placed where it does not cross a block, decodes to itself, with every
operand at every value that its encoding admits. -/
def Obligations.DecodeEncode : Prop :=
  ∀ (i : Instr) (w : BitVec 128) (off : Nat), i.wf = true → encode i = some w → off + i.size ≤ 32 → decode off w = .ok i

/-- R377, R482, R370, R10 and logs 16 and 27 for what the spec leaves open: after package reset nothing runs, no workgroup may be placed,
memory and every table list nothing, no register of a function is written, and the measurements are zero. -/
def Obligations.ResetState : Prop :=
  let s := State.reset
  s.clock = 0 ∧ s.up = false ∧ (∀ d, s.mayPlace d = false) ∧ s.wgs = [] ∧ s.binds = [] ∧ s.nodes = [] ∧ s.agenda = [] ∧ s.flt = [] ∧ s.llt = [] ∧
  (∀ d, d < 4 → s.rd (Reg.prctl d) = 1) ∧ (∀ d, d < 4 → s.rd (Reg.tlm d) = 0) ∧ (∀ c p, c < 128 → p < 16 → s.rd (Reg.twin c p) = 0) ∧
  (∀ v : BitVec 8, s.tdi v = 0) ∧ (∀ p, p < 16 → s.pmeas p = List.replicate 64 0) ∧ s.mem = ⟨[], [], [], [], [], []⟩ ∧
  (∀ e, step s = .next e → e.wgs = [])

/-- The invariant of `StepKeepsWatch` holds after reset. -/
def Obligations.WatchAtReset : Prop := watchSound State.reset

/-- R324, R356, R377, R452, R469, R470: after every step the Stoker counts the wait of a fragmented bind only where one can be, whatever the
step did: a bind that is not open any more, a function that is locked, a core that left service ends the count. -/
def Obligations.StepKeepsWatch : Prop := ∀ s t, step s = .next t → watchSound s → watchSound t

/-- R149 to R157, R394, R84: an integer, logic or address instruction with a vector register or latch as destination. -/
def Obligations.IntegerResult : Prop := ∀ i r, intForm i = some r → r.completes i

/-- R160 to R168, R178, R394: a floating-point, packed, `rng` or predicate-writing instruction. -/
def Obligations.ValueResult : Prop := ∀ i r, valForm i = some r → r.completes i

/-- R30, R149, R394: a uniform integer instruction executes once, on scalar registers, when its active set is not empty; every thread of the
batch moves past it (log 64), and the predicate of `sel` is that of the lowest active thread (log 14). -/
def Obligations.UniformResult : Prop :=
  ∀ i r j wide, intForm i = some r → r.scalar = some (j, wide) →
  ∀ s l, s.lane? = some l → l.w.ready r.regs = true → r.sound i l →
    ∃ t w, exec i s = .next t ∧ onlyWarp s t l w ∧ onlyScalars l w ∧
      (active l r.h = [] → w.s = l.w.s) ∧
      (∀ k ks v, active l r.h = k :: ks → sources l.w (l.w.th k) r.lit r.srcs = some v →
        scalarWritten j wide (r.uniform l (l.w.th k) v).1 (r.uniform l (l.w.th k) v).2 l.w w) ∧
      (∀ k ∈ l.w.batch, past r.size (l.w.th k) (w.th k) ∧ kept (l.w.th k) (w.th k)) ∧
      (∀ k < 32, k ∉ l.w.batch → bystander (l.w.th k) (w.th k))

/-- R399, R401, R402, R404, R146: a register instruction that names a register the kernel has not declared or a misaligned pair, whose rate
form stands in a chain, or whose reserved bits are set, takes the derail form with cause 0x01. R103, R404: a word that decodes to no
instruction derails its whole batch with cause 0x01, whatever its guard field holds. R395, R401: a crazed guard derails its thread at
`bra`, `brx`, `call`, `ret`, `conv`, `yield` and `exit`, with the guard's payload and without a record. -/
def Obligations.DerailForms : Prop :=
  (∀ i r, (intForm i = some r ∨ valForm i = some r) → ∀ s l, s.lane? = some l → l.w.ready r.regs = true → ¬ r.sound i l →
    derailForm i r.size 0x01 none (active l r.h) s l) ∧
  (∀ why wide s l, s.lane? = some l → derailForm (.illegalEncoding why wide) 0 0x01 none l.w.batch s l) ∧
  (∀ i s l h, s.lane? = some l → ((∃ n rs ok, branchForm l.wg.info.nregs i = some (h, n, rs, ok) ∧ l.w.ready rs = true) ∨
      waitForm i = some h) →
    (∀ k ∈ active l h, ((l.w.th k).predCraze h.guard).isSome) →
    ∃ t w, exec i s = .next t ∧ onlyWarp s t l w ∧ onlyFlow l w ∧
      (∀ k ∈ active l h, ∀ p, (l.w.th k).predCraze h.guard = some p → derailed l k p (l.w.th k) (w.th k) ∧
        (∀ r, l.w.region = some r → r.members.getLsbD k = true →
          (w.region.map (fun q => Tabs.find? q.crazes k)) = some (some ((Tabs.find? r.crazes k).getD p)))) ∧
      (∀ k ∈ l.w.batch, k ∉ active l h → kept (l.w.th k) (w.th k)) ∧
      (∀ k < 32, k ∉ l.w.batch → (l.w.th k).atConv = false → bystander (l.w.th k) (w.th k)))

/-- R170, R84: `bra`, `brx`, `call` and `ret` send every active thread to its target, and `call` writes the address after it; the others
move past. -/
def Obligations.BranchResult : Prop :=
  ∀ i s l h n rs ok, s.lane? = some l → branchForm l.wg.info.nregs i = some (h, n, rs, ok) →
    l.w.ready rs = true → guardsClean l h → targetsSound l h rs → ok = true →
    (∀ k ∈ active l h, ∃ a, branchTo l.w l.w.pc (l.w.th k) i = some a ∧ aligned8 a = true) →
    ∃ t w, exec i s = .next t ∧ onlyWarp s t l w ∧ onlyThreads l w ∧
      (∀ k ∈ active l h, ∀ a, branchTo l.w l.w.pc (l.w.th k) i = some a →
        (w.th k).pc = a ∧ (w.th k).st = .eligible ∧
        linked i l.w.pc (l.w.th k) (w.th k)) ∧
      (∀ k ∈ l.w.batch, k ∉ active l h → past n (l.w.th k) (w.th k) ∧ kept (l.w.th k) (w.th k)) ∧
      (∀ k < 32, k ∉ l.w.batch → bystander (l.w.th k) (w.th k))

/-- R36 to R38, R170: `conv` parks the active threads at convergence, where they stay while another thread of the warp is not away, and
continue after it when all others are; `yield` makes them yield while another thread can issue, and they go on otherwise; `exit` ends
them. -/
def Obligations.WaitResult : Prop :=
  ∀ i s l h, s.lane? = some l → waitForm i = some h → guardsClean l h →
    ∃ t w, exec i s = .next t ∧ onlyWarp s t l w ∧ onlyThreads l w ∧
      (∀ k ∈ active l h, kept (l.w.th k) (w.th k)) ∧
      (∀ k ∈ active l h, waited i l.w.pc (((List.range 32).filter (fun j => j ∉ active l h)).map l.w.th) (w.th k)) ∧
      (∀ k ∈ l.w.batch, k ∉ active l h → past 8 (l.w.th k) (w.th k) ∧ kept (l.w.th k) (w.th k)) ∧
      (∀ k < 32, k ∉ l.w.batch → (l.w.th k).atConv = false → bystander (l.w.th k) (w.th k))

/-- R86, R98, R170: `nop` moves the batch past it, counts as an instruction of its chain and writes nothing; `nop.skip`, whatever its guard,
`C`, `W`, `dst`, `U` and source fields hold, moves every thread of the batch to the next block, and neither chain nor latches change. -/
def Obligations.NopResult : Prop :=
  (∀ s l, s.lane? = some l →
    (∀ h, ∃ t w, exec (.nop h) s = .next t ∧ onlyWarp s t l w ∧ onlyThreads l w ∧
      w.chain = (if chainsOn l h then l.w.chain + 1 else 0) ∧
      (∀ k < 32, shifted (chainsOn l h) none (l.w.th k) (w.th k)) ∧
      (∀ k ∈ l.w.batch, past 8 (l.w.th k) (w.th k) ∧ kept (l.w.th k) (w.th k)) ∧
      (∀ k < 32, k ∉ l.w.batch → bystander (l.w.th k) (w.th k))) ∧
    (∃ t w, exec .nopSkip s = .next t ∧ onlyWarp s t l w ∧ w = { l.w with thr := w.thr } ∧
      (∀ k ∈ l.w.batch, w.th k = { l.w.th k with pc := BitVec.ofNat 57 ((l.w.pc.toNat / 32 + 1) * 32) }) ∧
      (∀ k < 32, k ∉ l.w.batch → w.th k = l.w.th k))) ∧
  (∀ (r : Raw) off, r.len = 0 → r.opcode = 0x080 → off + 8 ≤ 32 →
    (r.mod = 1 → decodeRaw off r = .ok .nopSkip) ∧ (r.mod ≠ 0 → r.mod ≠ 1 → decodeRaw off r = .error .modifier)) ∧
  decode 0 (wordWith 0 0x020000000001C800) = .ok .nopSkip

/-- R33, R96, R98: after an instruction that computes on registers the latches shift: `l1` takes `l0`, `l0` the low word of the result; in a
chain that ends both are invalid. -/
def Obligations.LatchesShift : Prop :=
  ∀ i r, (intForm i = some r ∨ valForm i = some r) →
  ∀ s l, s.lane? = some l → clear l r.h r.regs → r.sound i l → r.perThread →
    (∀ t ∈ active l r.h, (sources l.w (l.w.th t) r.lit r.srcs).isSome) →
    ∃ t g w, exec i s = .next t ∧ t.warp? l.ref = some (g, w) ∧
      w.chain = (if chainsOn l r.h then l.w.chain + 1 else 0) ∧
      (∀ k ∈ active l r.h, ∀ v, sources l.w (l.w.th k) r.lit r.srcs = some v →
        shifted (chainsOn l r.h) (latched r.dst (r.result (l.w.th k) v).1 (r.result (l.w.th k) v).2)
          (l.w.th k) (w.th k)) ∧
      (∀ k < 32, k ∉ active l r.h → shifted (chainsOn l r.h) none (l.w.th k) (w.th k))

/-- R168: `pmov` writes a predicate, negated where it says so, to another; `pmov.pack` gathers `p0` to `p6`, crazed by the predicate payload
where one is crazed; `pmov.unpack` spreads the bits of its source to the predicates of its mask; mode 3 is no instruction. -/
def Obligations.PackResult : Prop :=
  (∀ s l h dst, s.lane? = some l →
    (∀ ps n, clear l h [] → dst.extractLsb' 3 5 = 0 →
      OwnForm.completes (.pmov h ps n dst) ⟨h, 8, [], true⟩ s l (fun k y =>
        written (.pred (dst.extractLsb' 0 3)) (boolVal ((l.w.th k).pred ps != n))
          (crazeOf [(l.w.th k).predCraze ps, (l.w.th k).predCraze h.guard]) (l.w.th k) y)) ∧
    (l.w.ready (ADst.vec dst false).regs = true → vecOk l.wg.info.nregs dst.toNat 1 = true →
      OwnForm.completes (.pmovPack h dst) ⟨h, 8, (ADst.vec dst false).regs, true⟩ s l (fun k y =>
        written (.vec dst false) ((l.w.th k).p.setWidth 64) (if (l.w.th k).pt = 0 then none else some (l.w.th k).pp)
          (l.w.th k) y)) ∧
    (∀ a, clear l h (srcRegs 1 a) → srcOk l.wg.info.nregs 1 a = true → dst.getLsbD 7 = false →
      (∀ k ∈ active l h, (readSrc l.w (l.w.th k) 0 .i32 a).isSome) →
      OwnForm.completes (.pmovUnpack h dst a) ⟨h, 8, srcRegs 1 a, true⟩ s l (fun k y =>
        ∀ v c, readSrc l.w (l.w.th k) 0 .i32 a = some (v, c) →
          unpacked dst v (crazeOf [c, (l.w.th k).predCraze h.guard]) (l.w.th k) y))) ∧
  (∀ (r : Raw) off, r.opcode = 0x082 → r.mod.extractLsb' 0 2 = 3 → ∃ e, decodeRaw off r = .error e)

/-- R174 to R177, R396: `vote`, `match`, `shfl` and `redw` give every active thread its result from the sources of the active set; the
thread that a crazed B or C of `shfl` selects is a free value (log 15). -/
def Obligations.CrossResult : Prop :=
  ∀ i s l o srcs lit d, s.lane? = some l → crossForm l.wg.info.nregs i = some (o, srcs, lit, d) →
    clear l o.h o.regs → o.sound = true →
    ∀ op : Nat → List (DWord × Option Word),
      (∀ k ∈ active l o.h, srcs.mapM (fun p => readSrc l.w (l.w.th k) lit p.2 p.1) = some (op k)) →
      o.completes i s l (fun k y => ∃ v c,
        crossResult i l (active l o.h) (fun j n => (op j).getD n (0, none)) k v c ∧ written d v c (l.w.th k) y)

/-- R174 to R177, R94, R144, R189, R404: `vote`, `match`, `shfl` and `redw` complete on every active set: with registers that exist, with no
outstanding load of one, no hidden error and no invalid latch, the batch goes on, a `.ballot`, `match`, `shfl` or `redw` writes one
register, another `vote` one predicate of the active threads, and nothing else changes but yields and chains. -/
def Obligations.CrossCompletes : Prop :=
  ∀ s l h, s.lane? = some l →
    (∀ m q n (dst : BitVec 8), m ≠ .ballot → dst.extractLsb' 3 5 = 0 → clear l h [] →
      OwnForm.completes (.vote h m q n dst) ⟨h, 8, [], true⟩ s l (fun k y => ∃ v c,
        written (.pred (dst.extractLsb' 0 3)) v c (l.w.th k) y)) ∧
    (∀ q n (dst : BitVec 8), vecOk l.wg.info.nregs dst.toNat 1 = true → clear l h (ADst.vec dst false).regs →
      OwnForm.completes (.vote h .ballot q n dst) ⟨h, 8, [], true⟩ s l (fun k y => ∃ v c, written (.vec dst false) v c (l.w.th k) y)) ∧
    (∀ wide d a, (aluVDst d false).ok l.wg.info.nregs = true → srcOk l.wg.info.nregs (if wide then 2 else 1) a = true →
      clear l h ((aluVDst d false).regs ++ srcRegs (if wide then 2 else 1) a) → readable l h 0 (ikind wide) a →
      OwnForm.completes (.matchw h wide d a) ⟨h, litSize [a], [], true⟩ s l (fun k y => ∃ v c, written (aluVDst d false) v c (l.w.th k) y)) ∧
    (∀ m d a b c lit, (aluVDst d false).ok l.wg.info.nregs = true → [a, b, c].all (srcOk l.wg.info.nregs 1) = true →
      clear l h ((aluVDst d false).regs ++ [a, b, c].flatMap (srcRegs 1)) →
      readable l h lit .i32 a → readable l h lit .i32 b → readable l h lit .i32 c →
      OwnForm.completes (.shfl h m d a b c lit) ⟨h, litSize [a, b, c], [], true⟩ s l (fun k y => ∃ v p,
        written (aluVDst d false) v p (l.w.th k) y)) ∧
    (∀ op d a, (aluVDst d false).ok l.wg.info.nregs = true → srcOk l.wg.info.nregs 1 a = true →
      clear l h ((aluVDst d false).regs ++ srcRegs 1 a) → readable l h 0 (redwKind op) a →
      OwnForm.completes (.redw h op d a) ⟨h, litSize [a], [], true⟩ s l (fun k y => ∃ v c, written (aluVDst d false) v c (l.w.th k) y))

/-- R164, R134, R144, R394: `cvtf` converts from the format `a` to the format `b` that its clean control word names, with the scales of the
word where the format is in a format register, which an issue sees as it was before this cycle (R58), and writes the one register of
`dst`, or the pair for FP64. -/
def Obligations.ConvertResult : Prop :=
  ∀ s l h r d a b lit, s.lane? = some l →
    clear l h ((aluVDst d true).regs ++ srcRegs 2 a ++ srcRegs 1 b ++ (cvSrcs r).flatMap (fun p => srcRegs 1 p.1)) →
    (aluVDst d false).ok l.wg.info.nregs = true → ([a, b] ++ (cvSrcs r).map Prod.fst).all (srcOk l.wg.info.nregs 1) = true →
    ∀ (word : Nat → Nat) (fa fb : Nat → Num.Fmt) (v : Nat → List DWord × Option Word),
      (∀ k ∈ active l h, ∃ x, readSrc l.w (l.w.th k) lit .i32 b = some (x, none) ∧ word k = x.toNat ∧
        cvtfFault l.fmView d a (word k) = false ∧ cvtfFmt l.fmView (field (word k) 0 4) = some (fa k) ∧
        cvtfFmt l.fmView (field (word k) 4 4) = some (fb k) ∧
        sources l.w (l.w.th k) lit ([(a, cvtfKind (field (word k) 0 4)), (b, .i32)] ++ cvSrcs r) = some (v k)) →
      OwnForm.completes (.cvtf h r d a b lit) ⟨h, litSize ([a, b] ++ (cvSrcs r).map Prod.fst), [], true⟩ s l (fun k y =>
        written (aluVDst d (field (word k) 4 4 == 1))
          (BitVec.ofNat 64 (Num.convert (arg (v k).1 0).toNat (fa k) (fb k) (cvRnd r (arg (v k).1 2))
            (if 8 ≤ field (word k) 0 4 then field (word k) 8 8 else 127)
            (if 8 ≤ field (word k) 4 4 then field (word k) 16 8 else 127)))
          (crazeOf [(v k).2, (l.w.th k).predCraze h.guard, cvtfCraze l.fmView (field (word k) 0 4) (field (word k) 4 4)]) (l.w.th k) y)

/-- R185, R188: `ld` from a scratchpad, the own or a peer's, gives every active thread the words at its address, a narrow load its bytes
extended; no memory changes. -/
def Obligations.ScratchLoad : Prop :=
  ∀ s l h a64 dst a b e f, s.lane? = some l → memForm (.ld h a64 dst a b e) = some f → f.sound l →
    l.w.ready f.regs = true → l.w.holdsAt (active l h) false false = false →
    ∀ place : Nat → ScrLoc, (∀ k ∈ active l h, memClean f.m l k ∧ (memArgs f.m h l k).addr = none ∧
      (memArgs f.m h l k).guard = none ∧ memPlace f.m f.row h s l k = .ok (.scr (place k)) ∧
      (scratch s (place k).wg).bad = []) →
    ∃ t w, exec (.ld h a64 dst a b e) s = .next t ∧ onlyWarp s t l w ∧ onlyCounted (active l h).length l w ∧
      (∀ k ∈ l.w.batch, past 16 (l.w.th k) (w.th k)) ∧
      (∀ k ∈ active l h, wordsIn f.dst (loadWords (wordsAt (scratch s (place k).wg) (place k).off f.m.n) (place k).off f.m.n (exSx e))
        (l.w.th k) (w.th k)) ∧
      (∀ k ∈ l.w.batch, k ∉ active l h → kept (l.w.th k) (w.th k)) ∧
      (∀ k < 32, k ∉ l.w.batch → bystander (l.w.th k) (w.th k))

/-- R186, R191: `st` to a scratchpad, the own or a peer's, writes the data of the active threads in ascending order at their addresses, and
`.fill` sets the granules it touches to full; no register changes. -/
def Obligations.ScratchStore : Prop :=
  ∀ s l h a64 fill a b c e f, s.lane? = some l → memForm (.st h a64 fill a b c e) = some f → f.sound l →
    l.w.ready f.regs = true → l.heldSeg (exSeg e) = false → l.w.holdsAt (active l h) true (exOrd e == 2) = false →
    ∀ place : Nat → ScrLoc, (∀ k ∈ active l h, memClean f.m l k ∧ (memArgs f.m h l k).addr = none ∧
      memPlace f.m f.row h s l k = .ok (.scr (place k)) ∧ (scratch s (place k).wg).bad = []) →
    let cells := fun k => cellsOf 0 f.m.n (memArgs f.m h l k).data
      (crazeOf [(memArgs f.m h l k).dcrz, (memArgs f.m h l k).guard])
    ∃ t w, exec (.st h a64 fill a b c e) s = .next t ∧ onlyScratch s t l w ∧ onlyCounted (active l h).length l w ∧
      (∀ g j, (scratch t g).word j = ((active l h).foldl (fun m k => store m (place k) (cells k)) (scratch s) g).word j) ∧
      (∀ g j, (∀ k ∈ active l h, (place k).wg = g → j ∉ wordsOf (place k).off f.m.n) →
        (scratch t g).word j = (scratch s g).word j) ∧
      (∀ g n, (scratch t g).granule n = if fill = true ∧ ∃ k ∈ active l h, (place k).wg = g ∧ n ∈ granulesOf (place k).off f.m.n
        then .full else (scratch s g).granule n) ∧
      (∀ k ∈ l.w.batch, past 16 (l.w.th k) (w.th k) ∧ kept (l.w.th k) (w.th k)) ∧
      (∀ k < 32, k ∉ l.w.batch → bystander (l.w.th k) (w.th k))

/-- R194 to R196, R502: `atom`, `cas` and `red` on a scratchpad take their turns in ascending order of threads: each reads the words, stores
the new value unless the target is crazed or a `cas` does not match, and `atom` and `cas` return the old words. -/
def Obligations.ScratchAtomic : Prop :=
  ∀ i s l f op, s.lane? = some l → memForm i = some f → atomOp i = some op → f.sound l →
    l.w.ready f.regs = true → (sgKind (l.w.seg (exSeg f.m.e)) = 1 ∨ sgKind (l.w.seg (exSeg f.m.e)) = 2) →
    l.w.holdsAt (active l f.h) true (2 ≤ exOrd f.m.e) = false →
    ∀ place : Nat → ScrLoc, (∀ k ∈ active l f.h, memClean f.m l k ∧ (memArgs f.m f.h l k).addr = none ∧
      (memArgs f.m f.h l k).dcrz = none ∧ (memArgs f.m f.h l k).ccrz = none ∧ (memArgs f.m f.h l k).guard = none ∧
      memPlace f.m f.row f.h s l k = .ok (.scr (place k)) ∧ (scratch s (place k).wg).bad = []) →
    let turn := fun m k => atomStore m op f.m.n (place k) (memArgs f.m f.h l k).data (memArgs f.m f.h l k).cmp
    let old := fun k => (atomStep op f.m.n (memArgs f.m f.h l k).data (memArgs f.m f.h l k).cmp
      (wordsAt (before (active l f.h) turn (scratch s) k (place k).wg) (place k).off f.m.n)).2
    ∃ t w, exec i s = .next t ∧ onlyScratch s t l w ∧ onlyCounted (active l f.h).length l w ∧
      (∀ g j, (scratch t g).word j = ((active l f.h).foldl turn (scratch s) g).word j) ∧
      (∀ g j, (∀ k ∈ active l f.h, (place k).wg = g → j ∉ wordsOf (place k).off f.m.n) →
        (scratch t g).word j = (scratch s g).word j) ∧
      (∀ g n, (scratch t g).granule n = (scratch s g).granule n) ∧
      (∀ k ∈ l.w.batch, past 16 (l.w.th k) (w.th k)) ∧
      (∀ k ∈ active l f.h, wordsIn f.dst (old k) (l.w.th k) (w.th k)) ∧
      (∀ k ∈ l.w.batch, k ∉ active l f.h → kept (l.w.th k) (w.th k)) ∧
      (∀ k < 32, k ∉ l.w.batch → bystander (l.w.th k) (w.th k))

/-- R188, R193, R194, R305: `ld`, `atom` and `cas` through a global segment, and `ld` through a constant or private one, make one
outstanding access for each active thread, in ascending order and in program order; no register changes yet. -/
def Obligations.FarAccess : Prop :=
  ∀ i s l f kind, s.lane? = some l → memForm i = some f → farKind i = some kind → f.sound l → l.w.ready f.regs = true →
    farClear i l f → ∀ place : Nat → Nat, (∀ k ∈ active l f.h, f.pure l k ∧ memPlace f.m f.row f.h s l k = .ok (.va (place k))) →
    ∃ t w, exec i s = .next t ∧ onlyWarp s t l w ∧ moved 16 l w ∧
      w = { l.w with thr := w.thr, chain := 0, po := l.w.po + (active l f.h).length, nextId := l.w.nextId + (active l f.h).length,
                     accs := l.w.accs ++ (active l f.h).zipIdx.map (fun p => farAcc i kind f l p.2 p.1 (place p.1)) }

/-- R186, R187, R196: `st` and `red` through a global or private segment hold one item for each active thread, in ascending order: a
member's in the open region, the others' in one implicit region of four units; memory does not change. -/
def Obligations.HeldStore : Prop :=
  ∀ i s l f rel, s.lane? = some l → memForm i = some f → heldForm i = some rel → f.sound l → l.w.ready f.regs = true →
    l.heldSeg (exSeg f.m.e) = true → (outsiders l f.h ≠ [] → Ctx.canReserve ⟨s, l⟩ 4 = true) →
    ∀ place : Nat → Nat, (∀ k ∈ active l f.h, memClean f.m l k ∧ (memArgs f.m f.h l k).addr = none ∧
      memPlace f.m f.row f.h s l k = .ok (.va (place k))) →
    ∃ t w, exec i s = .next t ∧ onlyWarp s t l w ∧ moved 16 l w ∧
      w = { l.w with thr := w.thr, chain := 0, po := l.w.po + (active l f.h).length, nextId := l.w.nextId + (active l f.h).length,
                     items := l.w.items ++ (active l f.h).zipIdx.map (fun p => heldItem i f l p.2 p.1 (place p.1)),
                     implicit := l.w.implicit ++ (if outsiders l f.h = [] then [] else [heldRegion l rel]),
                     nextTag := l.w.nextTag + (if outsiders l f.h = [] then 0 else 1),
                     implicitCount := l.w.implicitCount + (if outsiders l f.h = [] then 0 else 1) }

/-- R190, R410: `ldfe` on full granules gives every active thread its words; with `.take` the granules become empty, or pending for members,
whose region lists them. -/
def Obligations.FullLoad : Prop :=
  ∀ s l h a64 take dst a b e f, s.lane? = some l → memForm (.ldfe h a64 take dst a b e) = some f → f.sound l →
    l.w.ready f.regs = true → l.w.holdsAt (active l h) false false = false →
    ∀ place : Nat → ScrLoc, (∀ k ∈ active l h, f.pure l k ∧ memPlace f.m f.row f.h s l k = .ok (.scr (place k)) ∧
      (scratch s (place k).wg).bad = [] ∧ (scratch s (place k).wg).granule ((place k).off / 16) = .full) →
    (take = true → ∀ j ∈ active l h, ∀ k ∈ active l h, j ≠ k →
      ((place j).wg, (place j).off / 16) ≠ ((place k).wg, (place k).off / 16)) →
    ∃ t w, exec (.ldfe h a64 take dst a b e) s = .next t ∧ onlyScratch s t l w ∧
      w = { l.w with thr := w.thr, chain := 0, po := l.w.po + (active l h).length, nextId := l.w.nextId + (active l h).length,
                     region := l.w.region.map (fun r => { r with pending := r.pending ++ (if take then
                       (((active l h).filter l.w.member).map (fun k => (k, (⟨(place k).wg, (place k).off / 16⟩ : ScrLoc)))) else []) }) } ∧
      (∀ g j, (scratch t g).word j = (scratch s g).word j) ∧
      (∀ k ∈ active l h, take = true → (scratch t (place k).wg).granule ((place k).off / 16) = takenGran l k) ∧
      (∀ g n, (take = false ∨ ∀ k ∈ active l h, (place k).wg = g → (place k).off / 16 ≠ n) →
        (scratch t g).granule n = (scratch s g).granule n) ∧
      (∀ k ∈ l.w.batch, past 16 (l.w.th k) (w.th k)) ∧
      (∀ k ∈ active l h, wordsIn f.dst (loadWords (wordsAt (scratch s (place k).wg) (place k).off f.m.n) (place k).off f.m.n false)
        (l.w.th k) (w.th k)) ∧
      (∀ k ∈ l.w.batch, k ∉ active l h → kept (l.w.th k) (w.th k)) ∧
      (∀ k < 32, k ∉ l.w.batch → bystander (l.w.th k) (w.th k))

/-- R192, R420: `prefetch` has no effect but to move the batch past it, whatever its operands hold. R198: `fence` stands in the warp's
program order until every access that it orders is performed; an inactive one does nothing. -/
def Obligations.PrefetchAndFence : Prop :=
  (∀ s l h a64 a b e f, s.lane? = some l → memForm (.prefetch h a64 a b e) = some f → f.m.bad f.row l = false →
    l.w.ready f.m.regs = true →
    ∃ t w, exec (.prefetch h a64 a b e) s = .next t ∧ onlyWarp s t l w ∧ onlyThreads l w ∧ moved 16 l w) ∧
  (∀ s l h sc k, s.lane? = some l →
    ∃ t w, exec (.fence h sc k) s = .next t ∧ onlyWarp s t l w ∧ moved 8 l w ∧
      (active l h = [] → onlyThreads l w) ∧
      (active l h ≠ [] → w = { fencing l h sc k with thr := w.thr, chain := 0, accs := w.accs } ∧
        ∀ a, a ∈ w.accs ↔ (a ∈ l.w.accs ∨ a = fenceAcc l h sc k) ∧ ∀ f, a.kind = .fence f → (fencing l h sc k).passed a f = false))

/-- R172, R173: `waiteq` on a scratchpad word that is crazed or differs from B gives the word at once. R172, R173, R53: `waiteq` on a
scratchpad word that equals B parks its thread at the instruction, with the version of the word, which is watched from now on, and its
deadline. -/
def Obligations.WaitWord : Prop :=
  (∀ s l h dst a b e, s.lane? = some l → l.w.ready ((ADst.vec dst false).regs ++ srcRegs 1 a ++ srcRegs 1 b) = true →
    wqSound l dst a b e → l.w.holdsAt (active l h) false false = false →
    ∀ (x y : Nat → DWord) (place : Nat → ScrLoc), (∀ k ∈ active l h, (l.w.th k).predCraze h.guard = none ∧ (l.w.th k).bad = [] ∧
      readSrc l.w (l.w.th k) 0 .i32 a = some (x k, none) ∧ readSrc l.w (l.w.th k) 0 .i32 b = some (y k, none) ∧
      wqPlace s l k e (x k) = .ok (.scr (place k)) ∧ (scratch s (place k).wg).bad = [] ∧
      (let v := (scratch s (place k).wg).word ((place k).off / 4); v.tag = true ∨ v.val ≠ (y k).setWidth 32)) →
    ∃ t w, exec (.waiteq h dst a b e) s = .next t ∧ onlyWarp s t l w ∧ onlyCounted (active l h).length l w ∧
      (∀ k ∈ l.w.batch, past 16 (l.w.th k) (w.th k)) ∧
      (∀ k ∈ active l h, wordsIn dst.toNat [(scratch s (place k).wg).word ((place k).off / 4)] (l.w.th k) (w.th k)) ∧
      (∀ k ∈ l.w.batch, k ∉ active l h → kept (l.w.th k) (w.th k)) ∧
      (∀ k < 32, k ∉ l.w.batch → bystander (l.w.th k) (w.th k))) ∧
  (∀ s l h dst a b e, s.lane? = some l → l.w.ready ((ADst.vec dst false).regs ++ srcRegs 1 a ++ srcRegs 1 b) = true →
    wqSound l dst a b e → l.w.holdsAt (active l h) false false = false →
    ∀ (x y : Nat → DWord) (place : Nat → ScrLoc), (∀ k ∈ active l h, (l.w.th k).predCraze h.guard = none ∧ (l.w.th k).bad = [] ∧
      readSrc l.w (l.w.th k) 0 .i32 a = some (x k, none) ∧ readSrc l.w (l.w.th k) 0 .i32 b = some (y k, none) ∧
      wqPlace s l k e (x k) = .ok (.scr (place k)) ∧ (scratch s (place k).wg).bad = [] ∧
      (scratch s (place k).wg).word ((place k).off / 4) = ⟨(y k).setWidth 32, false⟩) →
    ∃ t w, exec (.waiteq h dst a b e) s = .next t ∧ onlyScratch s t l w ∧ onlyCounted (active l h).length l w ∧
      (∀ g j, (scratch t g).word j = (scratch s g).word j ∧ (scratch t g).granule j = (scratch s g).granule j) ∧
      (∀ k ∈ active l h, kept (l.w.th k) (w.th k) ∧ (w.th k).pc = l.w.pc ∧
        (Tabs.find? (scratch t (place k).wg).watch ((place k).off / 4)).isSome ∧
        (w.th k).st = .parkedWord ⟨some (place k), 0, Tabs.get (scratch t (place k).wg).watch 0 ((place k).off / 4),
          deadlineOf s.clock (wqTmo e), dst.toNat, none, 0, wqScope e, false⟩) ∧
      (∀ k ∈ l.w.batch, k ∉ active l h → past 16 (l.w.th k) (w.th k) ∧ kept (l.w.th k) (w.th k)) ∧
      (∀ k < 32, k ∉ l.w.batch → (l.w.th k).atConv = false → bystander (l.w.th k) (w.th k)))

/-- R202, R203: `tbinit`, `tbarrive` and `tbexpect` update the barrier once, with the operands of the lowest active thread; `tbarrive` gives
every active thread the phase before its update. R203: `tbarrive.thr` makes one arrival for each active thread, in ascending order, and
gives each the phase before its own. -/
def Obligations.BarrierUpdates : Prop :=
  (∀ i s l b k ks x n c, s.lane? = some l → tbForm i = some b → tbOnce n i →
    tbClear b l → active l b.h = k :: ks → (∀ j ∈ active l b.h, (l.w.th j).predCraze b.h.guard = none) →
    tbReads b s l k x n c →
    ∃ t w, exec i s = .next t ∧ onlyScratch s t l w ∧ w = { l.w with thr := w.thr, chain := 0 } ∧
      barrier t x = tbUpdate n c i (barrier s x) ∧
      (∀ g j, (g ≠ x.wg ∨ j ∉ wordsOf x.off 16) → (scratch t g).word j = (scratch s g).word j) ∧
      (∀ g j, (scratch t g).granule j = (scratch s g).granule j) ∧
      (∀ j ∈ l.w.batch, past 16 (l.w.th j) (w.th j)) ∧
      (∀ j ∈ active l b.h, tbGives i (barrier s x).phase (l.w.th j) (w.th j)) ∧
      (∀ j ∈ l.w.batch, j ∉ active l b.h → kept (l.w.th j) (w.th j)) ∧
      (∀ j < 32, j ∉ l.w.batch → bystander (l.w.th j) (w.th j))) ∧
  (∀ s l h dst a b e bi x, s.lane? = some l → tbForm (.tbarrive h true dst a b e) = some bi →
    tbClear bi l → ∀ n : Nat → Nat,
    (∀ k ∈ active l h, (l.w.th k).predCraze h.guard = none ∧ ∃ c, tbReads bi s l k x (n k) c) →
    let bar := fun k => ((active l h).takeWhile (· != k)).foldl (fun t j => TBar.arrive t (n j)) (barrier s x)
    ∃ t w, exec (.tbarrive h true dst a b e) s = .next t ∧ onlyScratch s t l w ∧ w = { l.w with thr := w.thr, chain := 0 } ∧
      barrier t x = (active l h).foldl (fun t j => TBar.arrive t (n j)) (barrier s x) ∧
      (∀ g j, (g ≠ x.wg ∨ j ∉ wordsOf x.off 16) → (scratch t g).word j = (scratch s g).word j) ∧
      (∀ g j, (scratch t g).granule j = (scratch s g).granule j) ∧
      (∀ j ∈ l.w.batch, past 16 (l.w.th j) (w.th j)) ∧
      (∀ j ∈ active l h, wordsIn dst.toNat [⟨BitVec.ofNat 32 (bar j).phase, false⟩] (l.w.th j) (w.th j)) ∧
      (∀ j ∈ l.w.batch, j ∉ active l h → kept (l.w.th j) (w.th j)) ∧
      (∀ j < 32, j ∉ l.w.batch → bystander (l.w.th j) (w.th j)))

/-- R203, R204: `tbwait` lets the batch pass when phase q of the barrier is complete and parks its active threads at the instruction
otherwise; `tbtest` writes to its predicate whether the phase is complete. -/
def Obligations.BarrierAwaits : Prop :=
  ∀ i s l b k ks x n c, s.lane? = some l → tbForm i = some b → tbClear b l → active l b.h = k :: ks →
    (∀ j ∈ active l b.h, (l.w.th j).predCraze b.h.guard = none) → tbReads b s l k x n c →
    (∀ h a o e, i = .tbwait h a o e → (barrier s x).done n = true →
      ∃ t w, exec i s = .next t ∧ onlyWarp s t l w ∧ onlyThreads l w ∧ moved 16 l w) ∧
    (∀ h a o e, i = .tbwait h a o e → (barrier s x).done n = false →
      ∃ t w, exec i s = .next t ∧ onlyWarp s t l w ∧ onlyThreads l w ∧
        (∀ j ∈ active l h, kept (l.w.th j) (w.th j) ∧ (w.th j).pc = l.w.pc ∧
          (w.th j).st = .parkedEvent (.tbwait x (BitVec.ofNat 4 n))) ∧
        (∀ j ∈ l.w.batch, j ∉ active l h → past 16 (l.w.th j) (w.th j) ∧ kept (l.w.th j) (w.th j)) ∧
        (∀ j < 32, j ∉ l.w.batch → (l.w.th j).atConv = false → bystander (l.w.th j) (w.th j))) ∧
    (∀ h dst a o e, i = .tbtest h dst a o e →
      ∃ t w, exec i s = .next t ∧ onlyWarp s t l w ∧ onlyThreads l w ∧
        (∀ j ∈ l.w.batch, past 16 (l.w.th j) (w.th j)) ∧
        (∀ j ∈ active l h, written (.pred (dst.extractLsb' 0 3)) (boolVal ((barrier s x).done n)) none (l.w.th j) (w.th j)) ∧
        (∀ j ∈ l.w.batch, j ∉ active l h → kept (l.w.th j) (w.th j)) ∧
        (∀ j < 32, j ∉ l.w.batch → bystander (l.w.th j) (w.th j)))

/-- R37, R43, R199: threads that reach a warp-level instruction park there at convergence while another thread of the warp holds convergence
back, with a guard or without. R94, R199, R399, R404: the threads that convergence has released at a warp-level instruction with a guard
derail with one batch record of cause 0x01. -/
def Obligations.WarpLevelForms : Prop :=
  (∀ i s l h n, s.lane? = some l → warpForm i = some (h, n) → released l = [] →
    (∃ k < 32, k ∉ l.w.batch ∧ (l.w.th k).holdsBack = true) →
    ∃ t w, exec i s = .next t ∧ onlyWarp s t l w ∧ onlyThreads l w ∧
      (∀ k ∈ l.w.batch, kept (l.w.th k) (w.th k) ∧ (w.th k).pc = l.w.pc ∧ (w.th k).st = .parkedConv false) ∧
      (∀ k < 32, k ∉ l.w.batch → bystander (l.w.th k) (w.th k))) ∧
  (∀ i s l h n, s.lane? = some l → warpForm i = some (h, n) → unguarded h = false → released l ≠ [] →
    ∃ t w p, exec i s = .next t ∧ onlyLane s t l w ∧ onlyFlow l w ∧
      (t.core l.wg.core, p) = (s.core l.wg.core).record l.wg.core (l.crzRec 0x01 0 ((released l).headD 0) l.w.pc none true) ∧
      (∀ k ∈ released l, derailed l k p (l.w.th k) (w.th k)) ∧ crazedBy (released l) p l w ∧
      (∀ k < 32, k ∉ released l → (l.w.th k).atConv = false → bystander (l.w.th k) (w.th k)))

/-- R200, R437, R438: the released threads of a warp arrive once at barrier `id`; with `.arrive` they go on, else they wait. R201: in a kiln
group the released threads of a warp arrive at its barrier and wait. -/
def Obligations.BarriersReached : Prop :=
  (∀ s l h id only cnt n, s.lane? = some l → unguarded h = true → released l ≠ [] → nothingOut l →
    l.w.ready (cnt.toList.flatMap (srcRegs 1)) = true → barCount l ((released l).headD 0) cnt n →
    let g := { l.wg with bars := Tabs.put l.wg.bars id.toNat (arrived (episode l.whole id.toNat n) l.ref.warp only (released l)) }
    ∃ t w, exec (.bar h id only cnt) s = .next t ∧ onlyGroup s t l g w ∧ onlyThreads l w ∧
      (if only then wentOn 8 l w else waits (.bar id.toNat) l w)) ∧
  (∀ s l h, s.lane? = some l → unguarded h = true → released l ≠ [] → nothingOut l → l.wg.info.kg ≠ 0 →
    ∃ t w, exec (.kbar h) s = .next t ∧
      onlyGroup s t l { l.wg with kbar := l.wg.kbar ++ [(l.ref.warp, maskOf (released l))] } w ∧ onlyThreads l w ∧ waits .kbar l w)

/-- R205, R42, R393: `rgn` opens a region for the released threads when its reservation can be granted: they go on, and the warp's records
made outside regions are free; it waits otherwise. R410: a `rgn` for threads that are no members, while a region is open, waits for its
close. -/
def Obligations.RegionOpens : Prop :=
  (∀ s l h e, s.lane? = some l → unguarded h = true → released l ≠ [] → rgnSound l e →
    (Ctx.canReserve ⟨s, l⟩ (rgnRes e) = true →
      ∃ t w, exec (.rgn h e) s = .next t ∧ onlyLane s t l w ∧ wentOn 16 l w ∧
        (t.core l.wg.core) = { s.core l.wg.core with
          crz := (s.core l.wg.core).crz.filter (fun r => r.1 == 511 || !(r.2.wslot == l.w.wslot && !r.2.flags.getLsbD 3)) } ∧
        w = { l.w with thr := w.thr, chain := 0, rseq := l.w.rseq + 1, nextTag := l.w.nextTag + 1,
                       region := some (opened l e (released l)), rgnWait := none }) ∧
    (Ctx.canReserve ⟨s, l⟩ (rgnRes e) = false →
      ∃ t w, exec (.rgn h e) s = .next t ∧ onlyWarp s t l w ∧ waits .rgn l w ∧
        w = { l.w with thr := w.thr, chain := 0,
                       rgnWait := some ⟨l.w.pc, rgnRes e, l.w.pc + (rgnTgt e).signExtend 57, maskOf (released l)⟩ })) ∧
  (∀ s l h e, s.lane? = some l → unguarded h = true → released l ≠ [] → e.extractLsb' 40 24 = 0 → rgnTgt e % 8 = 0 →
    l.w.region.isSome → (∀ k ∈ released l, l.w.member k = false) →
    ∃ t w, exec (.rgn h e) s = .next t ∧ onlyWarp s t l w ∧ onlyThreads l w ∧
      (∀ k ∈ released l, kept (l.w.th k) (w.th k) ∧ (w.th k).pc = l.w.pc ∧ (w.th k).st = .parkedEvent .closed) ∧
      (∀ k < 32, k ∉ released l → (l.w.th k).atConv = false → bystander (l.w.th k) (w.th k)))

/-- R411, R414: `commit` parks the released members until the commit ends, with its form and its address in the region; released threads
that are no members go on. -/
def Obligations.CommitParks : Prop :=
  ∀ s l h each r keep g, s.lane? = some l → unguarded h = true → released l ≠ [] → l.w.region = some g →
    let ms := (released l).filter l.w.member
    ∃ t w, exec (.commit h each r keep) s = .next t ∧ onlyWarp s t l w ∧
      w = { l.w with thr := w.thr, chain := 0,
                     region := if ms = [] then l.w.region else some { g with commit := some ⟨each, r, keep, maskOf ms, l.w.pc⟩ } } ∧
      (∀ k ∈ ms, kept (l.w.th k) (w.th k) ∧ (w.th k).pc = l.w.pc ∧ (w.th k).st = .parkedEvent .commit) ∧
      (∀ k ∈ released l, k ∉ ms → past 8 (l.w.th k) (w.th k) ∧ kept (l.w.th k) (w.th k)) ∧
      (∀ k < 32, k ∉ released l → bystander (l.w.th k) (w.th k))

/-- R208, R416: `abort` discards what the region holds and closes it; every member goes on after the `abort`. R209, R409, R416: `replay`
rolls every member back to the region-open address: held data, granules, crazes and records of the region go, its replay count stays.
R207 to R209, R404: `commit`, `abort` and `replay` with no region open make one batch record of cause 0x01. -/
def Obligations.AbortAndReplay : Prop :=
  (∀ s l h g, s.lane? = some l → unguarded h = true → released l ≠ [] → l.w.region = some g →
    ∃ t w, exec (.abort h) s = .next t ∧ onlyRegion s t l w ∧ refilled s t l g allThreads ∧
      undone l g allThreads (s.core l.wg.core) (t.core l.wg.core) ∧
      w = { l.w with thr := w.thr, chain := 0, region := none, items := l.w.items.filter (fun i => i.tag != g.tag || i.sent),
                     accs := readsOver l (t.core l.wg.core) } ∧
      sentTo l g (l.w.pc + 8) true w) ∧
  (∀ s l h g, s.lane? = some l → unguarded h = true → released l ≠ [] → l.w.region = some g →
    ∃ t w, exec (.replay h) s = .next t ∧ onlyRegion s t l w ∧ refilled s t l g g.members ∧
      undone l g g.members (s.core l.wg.core) (t.core l.wg.core) ∧
      w = { l.w with thr := w.thr, chain := 0,
                     items := l.w.items.filter (fun i => i.tag != g.tag || i.sent || !g.members.getLsbD i.thread),
                     accs := readsOver l (t.core l.wg.core),
                     region := some { g with crazes := [], hard := 0, regionCraze := none, first := none, overflow := false, commit := none,
                                             pending := g.pending.filter (fun e => !g.members.getLsbD e.1) } } ∧
      sentTo l g g.openPc false w) ∧
  (∀ i s l h, s.lane? = some l → ((∃ e r k, i = .commit h e r k) ∨ i = .abort h ∨ i = .replay h) → unguarded h = true →
    released l ≠ [] → l.w.region = none →
    ∃ t w p, exec i s = .next t ∧ onlyLane s t l w ∧ onlyThreads l w ∧
      (t.core l.wg.core, p) = (s.core l.wg.core).record l.wg.core (l.crzRec 0x01 0 ((released l).headD 0) l.w.pc none true) ∧
      (∀ k ∈ released l, derailed l k p (l.w.th k) (w.th k)) ∧
      (∀ k < 32, k ∉ released l → (l.w.th k).atConv = false → bystander (l.w.th k) (w.th k)))

/-- R212, R341: `trap` sends its code and the operands of the released threads, which wait for the answer of the host. -/
def Obligations.TrapWaits : Prop :=
  ∀ s l h dst a b k code, s.lane? = some l → unguarded h = true → released l ≠ [] →
    l.w.ready (dstRegs dst.toNat 8 ++ srcRegs 1 a ++ srcRegs 1 b ++ srcRegs 1 k) = true →
    vecOk l.wg.info.nregs dst.toNat 2 = true → [a, b, k].all (srcOk l.wg.info.nregs 1) = true → s.ringOn l.wg.vf = true →
    l.w.trapQ = [] → ∀ v : Nat → List DWord,
    (∀ j ∈ released l, (l.w.th j).bad = [] ∧
      [a, b, k].mapM (readSrc l.w (l.w.th j) 0 .i32) = some ((v j).map (fun x => (x, none)))) →
    ∃ t w, exec (.trap h dst a b k code) s = .next t ∧ onlyWarp s t l w ∧ waits .trap l w ∧
      w = { l.w with thr := w.thr, chain := 0, trapWait := some ⟨none, false, code, l.w.pc, maskOf (released l), dst.toNat,
        trapArgs (released l) v, maskOf (released l)⟩ }

/-- R210, R211, R213: `ptest` writes whether its source is crazed, `crzread` a field of the record that its source's payload names, and
`rdsys` a system value of each active thread. R213, R214: `rdsys.s` writes a system value of the warp to a scalar register, crazed where
a guard is (log 111); `segset`, in a privileged kernel, the segment register of its extension word, from the operands of the lowest
active thread. R214, R404: `segset` outside a privileged kernel takes the derail form with cause 0x05. -/
def Obligations.SystemValues : Prop :=
  (∀ s l h dst, s.lane? = some l →
    (∀ clean b64 a, clear l h (srcRegs (if b64 then 2 else 1) a) → dst.extractLsb' 3 5 = 0 →
      srcOk l.wg.info.nregs (if b64 then 2 else 1) a = true → ∀ v : Nat → DWord × Option Word,
      (∀ k ∈ active l h, readSrc l.w (l.w.th k) 0 (if b64 then .i64 else .i32) a = some (v k)) →
      OwnForm.completes (.ptest h clean b64 dst a) ⟨h, 8, srcRegs (if b64 then 2 else 1) a, true⟩ s l (fun k y =>
        written (.pred (dst.extractLsb' 0 3)) (boolVal ((v k).2.isSome != clean)) ((l.w.th k).predCraze h.guard) (l.w.th k) y)) ∧
    (∀ f a, clear l h (dstRegs dst.toNat 4 ++ srcRegs 1 a) → vecOk l.wg.info.nregs dst.toNat 1 = true →
      srcOk l.wg.info.nregs 1 a = true → ∀ v : Nat → DWord × Option Word,
      (∀ k ∈ active l h, readSrc l.w (l.w.th k) 0 .i32 a = some (v k)) →
      OwnForm.completes (.crzread h f dst a) ⟨h, 8, dstRegs dst.toNat 4 ++ srcRegs 1 a, true⟩ s l (fun k y =>
        written (.vec dst false) ((crzWord s f (v k).2).setWidth 64) ((l.w.th k).predCraze h.guard) (l.w.th k) y)) ∧
    (∀ code : BitVec 10, l.w.ready (dstRegs dst.toNat 4) = true → code.toNat ≤ 0x18 → vecOk l.wg.info.nregs dst.toNat 1 = true →
      OwnForm.completes (.rdsys h false dst code) ⟨h, 8, dstRegs dst.toNat 4, true⟩ s l (fun k y =>
        written (.vec dst false) (BitVec.ofNat 64 (l.sysval code.toNat k)) ((l.w.th k).predCraze h.guard) (l.w.th k) y))) ∧
  (∀ s l h k ks, s.lane? = some l → active l h = k :: ks →
    (∀ (dst : BitVec 8) (code : BitVec 10), 3 ≤ code.toNat → code.toNat ≤ 0x18 → dst.toNat ≤ 0x3F →
      ∃ t w, exec (.rdsys h true dst code) s = .next t ∧ onlyWarp s t l w ∧ onlyScalars l w ∧ moved 8 l w ∧
        scalarWritten (dst.setWidth 6) false (BitVec.ofNat 64 (l.sysval code.toNat 0))
          (crazeOf ((active l h).map (fun t => (l.w.th t).predCraze h.guard))) l.w w) ∧
    (∀ a b (e : Ext) x y, e.extractLsb' 3 61 = 0 → segSrcOk a = true → segSrcOk b = true → l.wg.priv = true →
      readSrc l.w (l.w.th k) 0 .i64 a = some (x, none) → readSrc l.w (l.w.th k) 0 .i64 b = some (y, none) → (l.w.th k).bad = [] →
      sgBad (y ++ x) = false →
      ∃ t w, exec (.segset h a b e) s = .next t ∧ onlyWarp s t l w ∧ moved 16 l w ∧
        w = { l.w with thr := w.thr, chain := 0, sg := l.w.sg.set (e.extractLsb' 0 3).toNat (y ++ x) })) ∧
  (∀ s l h a b (e : Ext), s.lane? = some l → e.extractLsb' 3 61 = 0 → segSrcOk a = true → segSrcOk b = true → l.wg.priv = false →
    derailForm (.segset h a b e) 16 0x05 none (active l h) s l)

/-- R219, R220, R229 to R243: an array instruction of the matrix role enters the queue with its operands, when an entry is free; without
active threads it does nothing. R219: with 16 entries unstarted the warp waits at an array instruction: nothing changes but that it is
asked again. R40, R404: an opcode of the matrix queue outside the matrix role takes the derail form with cause 0x02. -/
def Obligations.MatrixIssue : Prop :=
  (∀ i s l f, s.lane? = some l → matForm l.wg.info.kg i = some f → f.sound = true → l.w.role = .matrix →
    (active l f.h ≠ [] → l.wg.queued.length < 16 →
      ∃ t w, exec i s = .next t ∧
        onlyGroup s t l { l.wg with mq := l.wg.mq ++ [matEntry i f l], nextM := l.wg.nextM + 1 } w ∧ onlyThreads l w ∧
        leftQueue i f l w) ∧
    (active l f.h = [] → ∃ t w, exec i s = .next t ∧ onlyWarp s t l w ∧ onlyThreads l w ∧ moved f.size l w)) ∧
  (∀ i s l f, s.lane? = some l → matForm l.wg.info.kg i = some f → f.sound = true → l.w.role = .matrix →
    active l f.h ≠ [] → 16 ≤ l.wg.queued.length →
    ∃ t, exec i s = .next t ∧ onlyWarp s t l l.w) ∧
  (∀ i s l f, s.lane? = some l → matForm l.wg.info.kg i = some f → l.w.role ≠ .matrix →
    derailForm i f.size 0x02 none (active l f.h) s l)

/-- R230, R394: `fmtset` writes a format register of the workgroup when every entry of the matrix queue has started. -/
def Obligations.FormatSet : Prop :=
  ∀ s l h (dst : BitVec 8) a lit, s.lane? = some l → dst.extractLsb' 3 5 = 0 → (a.isLit || matSrcOk 1 a) = true → active l h ≠ [] →
    l.wg.queued = [] →
    let v := warpRead l .i32 lit a
    let x : TWord := match crazeOf [v.2, guardsOf l h] with | some p => ⟨p, true⟩ | none => ⟨v.1.setWidth 32, false⟩
    ∃ t w, exec (.fmtset h dst a lit) s = .next t ∧ onlyGroup s t l { l.wg with fm := l.wg.fm.set dst.toNat x, fmOld := some (l.clock, l.fmView.fm) } w ∧
      onlyThreads l w ∧ moved (litSize [a]) l w

/-- R254, R265 to R270, R275: a box copy of the copy role enters its core's queue with its operands, when one of the 32 places is free; no
memory changes. R272: `cpylin` enters its core's queue, when its segments are of permitted kinds and its clean operands are multiples of
32 and its count from 32 to 2^20. -/
def Obligations.CopyQueued : Prop :=
  (∀ i s l b, s.lane? = some l → boxForm i = some b → l.w.role = .copy → boxReady b s l → active l b.h ≠ [] →
    l.core.cpq.length < 32 →
    ∃ t w, exec i s = .next t ∧ onlyCore s t l (countedGroup b l) w (queuedCore (boxCmd b s l) l) ∧
      queuedWarp (boxCmd b s l) l w ∧ moved 16 l w) ∧
  (∀ s l h fe nobar a b c e, s.lane? = some l → l.w.role = .copy → [a, b].all (matSrcOk 2) = true → matSrcOk 1 c = true →
    e.extractLsb' 55 3 = 0 → e.extractLsb' 0 37 = 0 → linKinds (sgKind (l.w.seg (cxSeg e))) (sgKind (l.w.seg (cxDseg e))) = true →
    active l h ≠ [] → l.core.cpq.length < 32 →
    let x := warpRead l .i64 0 a
    let y := warpRead l .i64 0 b
    let n := warpRead l .i32 0 c
    (crazeOf [x.2, y.2, n.2, guardsOf l h] = none →
      x.1.toNat % 32 = 0 ∧ y.1.toNat % 32 = 0 ∧ n.1.toNat % 32 = 0 ∧ n.1.toNat ≠ 0 ∧ n.1.toNat ≤ 2 ^ 20) →
    ∃ t w, exec (.cpylin h fe nobar a b c e) s = .next t ∧
      onlyCore s t l l.wg w (queuedCore (linCmd h fe nobar e x y n l) l) ∧ queuedWarp (linCmd h fe nobar e x y n l) l w ∧ moved 16 l w)

/-- R273, R274: `grpjoin` makes the workgroup a member of group A with expected count B, and `grpleave` takes it out; the warp issues
nothing until every shelf has seen the change. -/
def Obligations.GroupChange : Prop :=
  ∀ s l h a lit, s.lane? = some l → l.w.role = .copy → active l h ≠ [] → grpSrcOk a = true → guardsOf l h = none →
    (warpRead l .i32 lit a).2 = none → (warpRead l .i32 lit a).1.toNat ≤ 255 →
    let gid := (warpRead l .i32 lit a).1.toNat
    (∀ b, grpSrcOk b = true → (warpRead l .i32 lit b).2 = none → (warpRead l .i32 lit b).1.toNat ≤ 65535 →
      mayJoin s l (s.grp l.wg.part gid) →
      let n := (warpRead l .i32 lit b).1
      ∃ t w, ∃ g : Wg, exec (.grpjoin h a b lit) s = .next t ∧ t = { s with wgs := t.wgs, cores := t.cores, groups := t.groups } ∧
        t.warp? l.ref = some ({ g with warps := l.wg.warps.set l.ref.warp w }, w) ∧
        g = { l.wg with groups := g.groups } ∧ (Tabs.find? g.groups gid) = some ((Tabs.find? l.wg.groups gid).getD 0) ∧
        (∀ j, j ≠ gid → Tabs.find? g.groups j = Tabs.find? l.wg.groups j) ∧
        (∀ m, m ≠ l.ref.wg → t.wg? m = s.wg? m) ∧ (∀ c, t.core c = s.core c) ∧
        (t.grp l.wg.part gid = if l.leader.isSome then s.grp l.wg.part gid else joined (s.grp l.wg.part gid) l.ref.wg n.toNat) ∧
        w = { l.w with thr := w.thr, chain := 0, grp := some (gid, some (n.setWidth 16)) } ∧ moved (litSize [a, b]) l w) ∧
    (∃ t w, ∃ g : Wg, exec (.grpleave h a lit) s = .next t ∧
        t = { s with wgs := t.wgs, cores := t.cores, groups := t.groups, shelf := t.shelf } ∧
        t.warp? l.ref = some ({ g with warps := l.wg.warps.set l.ref.warp w }, w) ∧ g = { l.wg with groups := g.groups } ∧
        Tabs.find? g.groups gid = none ∧ (∀ j, j ≠ gid → Tabs.find? g.groups j = Tabs.find? l.wg.groups j) ∧
        (∀ m, m ≠ l.ref.wg → t.wg? m = s.wg? m) ∧
        t.grp l.wg.part gid = { s.grp l.wg.part gid with members := (s.grp l.wg.part gid).members.filter (fun m => m.wg != l.ref.wg) } ∧
        t.core l.wg.core = (s.core l.wg.core).dropRequests l.ref.wg gid ∧ (∀ c, c ≠ l.wg.core → t.core c = s.core c) ∧
        w = { l.w with thr := w.thr, chain := 0, accs := readsOver l (t.core l.wg.core), grp := some (gid, none) } ∧ moved (litSize [a]) l w)

/-- R280, R281, R444: `coll` takes the next ticket of the warp into a scalar register and starts one collective, when fewer than four are
outstanding; a trailer starts none. R283: `collwait` lets a thread pass whose ticket and every earlier one of the warp are complete
without a fault, and parks it at the instruction when they are not. -/
def Obligations.CollectiveIssue : Prop :=
  (∀ s l h dst a b e va, s.lane? = some l → l.w.role = .copy → clBad dst a b e = false → active l h ≠ [] →
    (l.w.colls.filter (fun x => !x.done)).length < 4 → (∀ k ∈ active l h, l.w.member k = false) → guardsOf l h = none →
    let o := warpRead l .i64 0 a
    let n := warpRead l .i32 0 b
    o.2 = none → n.2 = none → 1 ≤ n.1.toNat → n.1.toNat ≤ 2 ^ 28 → o.1.toNat % 16 = 0 →
    Ctx.checkSeg ⟨s, l⟩ (l.w.seg (clSeg e)) ((active l h).headD 0) o.1.toNat 1 [57, 58] [0] false = .ok (.va va) →
    ∃ t w, exec (.coll h dst a b e) s = .next t ∧ onlyWarp s t l w ∧ moved 16 l w ∧
      scalarWritten (dst.setWidth 6) false ((nextTicket l.w.collCount).setWidth 64) none l.w w ∧
      w = { l.w with thr := w.thr, chain := 0, s := w.s, po := l.w.po + 1, nextId := l.w.nextId + 1, collCount := nextTicket l.w.collCount,
                     colls := if l.leader.isSome then l.w.colls else l.w.colls ++ [startedColl l h e va o.1.toNat n.1.toNat] }) ∧
  (∀ s l h a, s.lane? = some l → l.w.ready (srcRegs 1 a) = true → srcOk l.wg.info.nregs 1 a = true → guardsClean l h →
    ∀ v : Nat → DWord, (∀ k ∈ active l h, (l.w.th k).bad = [] ∧ readSrc l.w (l.w.th k) 0 .i32 a = some (v k, none) ∧
      (v k).setWidth 32 ≠ (0 : Word) ∧ ticketLe ((v k).setWidth 32) l.w.collCount = true ∧ Ctx.collFault ⟨s, l⟩ ((v k).setWidth 32) = none) →
    ∃ t w, exec (.collwait h a) s = .next t ∧ onlyWarp s t l w ∧ onlyThreads l w ∧
      (∀ k ∈ active l h, kept (l.w.th k) (w.th k) ∧ (if Ctx.collDone ⟨s, l⟩ ((v k).setWidth 32) then past 8 (l.w.th k) (w.th k)
        else (w.th k).pc = l.w.pc ∧ (w.th k).st = .parkedEvent (.collwait ((v k).setWidth 32)))) ∧
      (∀ k ∈ l.w.batch, k ∉ active l h → past 8 (l.w.th k) (w.th k) ∧ kept (l.w.th k) (w.th k)) ∧
      (∀ k < 32, k ∉ l.w.batch → bystander (l.w.th k) (w.th k)))

/-- R291, R287: a translation that an entry of the core's first-level TLB or of its die's last-level TLB serves, under the current
generation, gives its page's address, when the page permits the access and the partition owns its key slot; only the TLBs change. -/
def Obligations.TlbHit : Prop :=
  ∀ (s : State) core v va need (t : TlbEntry), (s.rd (Reg.vfroot v.toNat)).getLsbD 0 = true → s.tlbFind (some core) v va = some t →
    t.leaf.toNat.testBit need.bit = true → (field t.leaf.toNat 56 8 = 0 ∨ s.ownsKey (s.vfPart v) (field t.leaf.toNat 56 8) = true) →
    (need = .atomic → t.leaf.toNat.testBit 8 = false ∧ windowOf (entryPa t.leaf.toNat + va % t.size) ≠ 1) →
    (need = .red → windowOf (entryPa t.leaf.toNat + va % t.size) ≠ 1) →
    s.translate (some core) v va need true = (s.tlbFill (some core) t, .ok (entryPa t.leaf.toNat + va % t.size) t.gen (BitVec.ofNat 8 (field t.leaf.toNat 56 8))
      (t.leaf.toNat.testBit 8))

/-- R287 to R292, R420: at the end of its walk an access goes to its home slice with its address, generation and key slot; a held item goes
to the sagger. R188, R194, R195, R304, R420: an access that nothing holds back and that passes the checks of its home slice is
performed: a load takes the words of memory under what its own warp holds, an atomic the old words, storing its result. R185, R189,
R197: the data of a performed access reaches its registers, and the access is over. R406: a fetched block is kept for its address, and
its bytes are those of memory under the page's key. -/
def Obligations.AccessEvents : Prop :=
  (∀ s r l id tlb s' dpa gen key rmt, s.laneOf r = some l →
    (∀ a, accAt l id .walk a → s.translate (some l.wg.core) l.wg.vf a.va a.kind.need tlb = (s', .ok dpa gen key rmt) →
      exec (.tlbWalkComplete r id tlb) s = .next (s'.putLane (ended (accNow l { a with stage := .home, dpa, gen, key, rmt })))) ∧
    (∀ i, (∀ a, ¬ accAt l id .walk a) → itemAt l id .walk i → l.explicit i = none →
      l.w.items.any (fun x => x.tag == i.tag && x.stage == .walk && decide (x.po < i.po)) = false →
      s.translate (some l.wg.core) l.wg.vf i.va (if i.kind = .store then .store else .red) tlb = (s', .ok dpa gen key rmt) →
      exec (.tlbWalkComplete r id tlb) s = .next (s'.putLane (ended (itemNow l { i with stage := .sagger, dpa, gen, key, rmt }))))) ∧
  (∀ s r l id answer a s', s.laneOf r = some l → accAt l id .home a → l.w.accWaits a = false →
    Ctx.copyBefore ⟨s, l⟩ a.po a.va a.n (a.kind.need == .atomic) = false → a.rmt = false → s.releasingAny a.dpa a.n = false →
    Ctx.homeChecks ⟨s, l⟩ a.dpa a.n a.gen (Ctx.races ⟨s, l⟩ a.dpa a.n) = (⟨s', l⟩, none) →
    (∀ sx, a.kind = .load sx → exec (.homeSliceAccess r id answer) s = .next (s'.putLane (ended (accNow l
      { a with stage := .done (l.w.forward a.po a.va a.dpa a.n (s'.memWords a.key.toNat a.dpa a.n)) })))) ∧
    (∀ op, accOp a.kind = some op → l.wg.pair = none →
      exec (.homeSliceAccess r id answer) s = .next ((farStored s' a op).putLane (ended (accNow l { a with stage := .done (farAtom s' a op).2 }))))) ∧
  (∀ s r l id a ws, s.laneOf r = some l → l.w.accs.find? (fun x => x.id == id) = some a → a.stage = .done ws → a.kind ≠ .waiteq →
    let w := { l.w with accs := l.w.accs.filter (fun x => x.id != a.id) }
    exec (.loadDataReturn r id) s = .next (s.putLane (ended { l with w :=
      (w.setTh a.thread ((l.w.th a.thread).setWords a.dst (loadWords ws a.va a.n (accSx a.kind)))).dropFences }))) ∧
  (∀ s r l tlb answer s' dpa gen key, s.laneOf r = some l → l.w.batch ≠ [] →
    let va := l.w.pc.toNat / 32 * 32
    s.translate (some l.wg.core) l.wg.vf va .fetch tlb = (s', .ok dpa gen key false) → s'.releasingAny dpa 32 = false →
    Ctx.homeChecks ⟨s', l⟩ dpa 32 gen false = (⟨s', l⟩, none) →
    exec (.instructionFetch r tlb answer) s = .next (s'.putLane (ended { l with w := { l.w with
      kept := Tabs.put l.w.kept (va / 32) ((s'.memWords key.toNat dpa 32).flatMap (fun w => leBytes 4 w.val.toNat)) } })))

/-- R300, R301: a held item that nothing keeps back is held at its home slice. R301, R302: the items of a release that go to one slice take
effect there, and their lines are releasing until the settle. R302: the settle of a commit whose items have all arrived ends the
releasing state of its lines in one slice. -/
def Obligations.HeldDataEvents : Prop :=
  (∀ s r l id i, s.laneOf r = some l → mayPush s l i →
    (∀ v, itemAt l id .sagger i → exec (.heldPush r id v) s = .next (s.putLane (ended (itemNow l { i with stage := .held })))) ∧
    (itemAt l id .deferred i → exec (.saggerDeferredPush r id) s = .next (s.putLane (ended (itemNow l { i with stage := .held }))))) ∧
  (∀ s r l tag slice, s.laneOf r = some l →
    let its := l.w.items.filter (fun i => i.tag == tag && i.sent && i.stage == .held && i.slice == slice)
    let lines := (its.flatMap Item.lines).eraseDups
    its ≠ [] → (∀ i ∈ its, i.rmt = false) → l.w.mayRelease tag = true →
    s.releasing.any (fun x => lines.contains x.line && !x.isOf r tag) = false →
    let u := s.applyItems its
    exec (.heldRelease r tag slice) s = .next ({ u with releasing := u.releasing ++ lines.map (fun x => (⟨x, r.wg, r.warp, tag, none⟩ : RelLine)) }.putLane
      (ended { l with w := { l.w with items := l.w.items.map (fun i : Item =>
        if i.tag = tag ∧ i.sent ∧ i.stage = ItemStage.held ∧ i.slice = slice then { i with stage := .released } else i) } }))) ∧
  (∀ s r tag slice, (∀ g w, s.warp? r = some (g, w) → w.items.any (fun i => i.tag == tag && i.sent) = false) →
    exec (.heldSettle r tag slice) s = .next { s with releasing := s.releasing.filter (fun x =>
      !(x.isOf r tag && homeOf (128 * x.line) == slice)) })

/-- R207, R411, R414: a `commit` that may go on and finds no craze releases the whole region: its items are on their way, and the region
closes when they have arrived. R187, R302, R472: an implicit region is over when every slice has acknowledged its items, and the commit
stamp of its workgroup is the present time. -/
def Obligations.CommitEvents : Prop :=
  (∀ s r l g q, s.laneOf r = some l → l.wg.pair = none → l.w.region = some g → g.commit = some q → l.commitReady g = true →
    Ctx.settled ⟨s, l⟩ = false → g.crz14 = false → g.crazed q.keep = 0 →
    Ctx.checkPass ⟨s, l⟩ g = ⟨s, l⟩ →
    exec (.commitDecide r g.tag) s = .next (s.putLane (ended { l with w := { l.w with
      rels := l.w.rels ++ [wholeRelease g q],
      items := l.w.items.map (fun i => if i.tag = g.tag ∧ g.members.getLsbD i.thread then { i with sent := true } else i),
      region := some { g with commit := none, pending := g.pending.filter (fun e => !g.members.getLsbD e.1) } } }))) ∧
  (∀ s r l tag, s.laneOf r = some l → l.leader = none →
    (∀ i ∈ l.w.items, i.tag = tag → i.sent = true → i.stage = .released ∨ i.stage = .refused) →
    l.w.rels.find? (fun x => x.tag == tag && x.agreed) = none →
    (l.w.implicit.find? (fun i => i.tag == tag && i.decided && i.agreed)).isSome →
    exec (.commitComplete r tag) s = .next (s.putLane (ended { l with wg := { l.wg with stamp := l.clock }, w := { l.w with
      items := l.w.items.filter (fun i => i.tag != tag), implicit := l.w.implicit.filter (fun i => i.tag != tag) }.dropFences })))

/-- R47, R205: a waiting `rgn` opens its region when its units are free. R53, R173, R451: a thread that watches a scratchpad word goes on
with the word when it has changed, or at its deadline when the job has no saved workgroup to resume. R190, R204: a thread that waits for
a granule executes its `ldfe` again when the granule is full; one that waits for a phase goes on when it is complete. R200, R201, R438:
a barrier whose arrivals have reached its count lets its waiting threads go on, those of an episode that ended before go on by
themselves, and a kiln-group barrier those of every workgroup of the group when each warp that still runs has arrived. -/
def Obligations.WaitsEnd : Prop :=
  (∀ s r l q, s.laneOf r = some l → l.wg.frozen = false → l.w.rgnWait = some q → Ctx.canReserve ⟨s, l⟩ q.res = true →
    exec (.reservationGrant r) s = .next (s.putLane (ended (l.openRegion q.pc q.res q.recovery q.threads))) ∧
    (l.openRegion q.pc q.res q.recovery q.threads).w.region = some {
      tag := l.w.nextTag, seq := l.w.rseq + 1, res := q.res, openPc := q.pc + 16, recovery := q.recovery, members := q.threads,
      crazes := [], hard := 0, regionCraze := none, first := none, replays := 0, overflow := false, pending := [], commit := none, retryRun := 0,
      crz14 := false }) ∧
  (∀ s r l k x a, s.laneOf r = some l → l.wg.frozen = false → k < 32 → l.w.watching k = some x → x.scr = some a →
    (scratch s a.wg).bad = [] →
    let m := resumes l k ((l.w.th k).pc + 16)
    let t := s.putLane (ended (m.setTh k ((m.w.th k).setWords x.dst (wordsAt (scratch s a.wg) a.off 4))))
    (Tabs.get (scratch s a.wg).watch 0 (a.off / 4) ≠ x.ver → exec (.waiteqWake r k) s = .next t) ∧
    (∀ d, x.deadline = some d → d ≤ s.clock → s.jobSaved l.wg.dcb = false → exec (.waiteqTimeout r k) s = .next t)) ∧
  (∀ s r l k, s.laneOf r = some l → l.wg.frozen = false → k < 32 →
    (∀ a, (l.w.th k).st = .parkedEvent (.ldfe a) → (scratch s a.wg).granule a.off = .full →
      exec (.ldfeWake r k) s = .next (s.putLane (ended (resumes l k (l.w.th k).pc)))) ∧
    (∀ a q, (l.w.th k).st = .parkedEvent (.tbwait a q) → ((scratch s a.wg).bar a.off).done q.toNat = true →
      exec (.tbwaitWake r k) s = .next (s.putLane (ended (resumes l k ((l.w.th k).pc + 16)))))) ∧
  ((∀ s n id g e, s.wg? n = some g → g.frozen = false → Tabs.find? g.bars id = some e → e.expect ≤ g.arrivals e →
    exec (.barRelease n id) s = .next (s.setWg n { g with bars := Tabs.del g.bars id, warps := letGo g (e.freed ++ e.waiting) (.bar id) })) ∧
  (∀ s n id g e, s.wg? n = some g → g.frozen = false → Tabs.find? g.bars id = some e → g.arrivals e < e.expect → e.freed ≠ [] →
    exec (.barRelease n id) s = .next (s.setWg n { g with bars := Tabs.put g.bars id { e with freed := [] }, warps := letGo g e.freed (.bar id) })) ∧
  (∀ s n g, s.wg? n = some g → g.frozen = false → g.kiln = [] → g.kbar ≠ [] →
    g.warps.zipIdx.all (fun p => p.1.exited || g.kbar.any (fun e => e.1 == p.2)) = true →
    exec (.kbarRelease n) s = .next (s.setWg n { g with kbar := [], warps := letGo g g.kbar .kbar })))

/-- R342, R418, R348: with room in the ring the record of a waiting `trap` or fault service is written to host memory, the producer index
rises and vector 0 of the virtual function is raised. R342, R459: a doorbell of the host is looked up among the waits of the function;
in a locked or running interface one without the TEE attribute is an error of the interface instead. -/
def Obligations.ServiceEvents : Prop :=
  (∀ s r l v, s.laneOf r = some l → l.leader = none → l.w.pendingRec = some v → ringRoom s l.wg.vf →
    let f := l.wg.vf
    let p := s.ringProd f
    let s1 := s.memBytes 0 (s.recordAt f p) (recordOf l v p)
    let s2 := (s1.vwr f Reg.sridx (BitVec.ofNat 64 (s.ringCons f * 2 ^ 32 + (p + 1) % 2 ^ 32))).raise (some f) 0
    exec (.trapRecordWrite r) s = .next (s2.putLane (ended { l with w :=
      if v.isFault then { l.w with svcWait := some { v with seq := some p } } else { l.w with trapWait := some { v with seq := some p } } }))) ∧
  (∀ (s : State) vf data tee,
    (s.tdiLive vf = true → tee = false → exec (.srdbWrite vf data tee) s = .next (s.interfaceError vf 2 Reg.srdb)) ∧
    ((s.tdiLive vf = false ∨ tee = true) → s.tdi vf ≠ 3 → exec (.srdbWrite vf data tee) s = .next (s.doorbell vf data.toNat)) ∧
    ((s.tdiLive vf = false ∨ tee = true) → s.tdi vf = 3 → exec (.srdbWrite vf data tee) s = .next s))

/-- R221 to R225, R245 to R248, R434: an array instruction whose conditions hold starts, with the results that it will write, or with its
scratchpad reads still to come, a soak with its status; at completion the results are written and its entry leaves; a soak that need not
yield iterates; a stopped one lets its threads go on; a chained operation without its fourth fails after 65,536 cycles. -/
def Obligations.MatrixEvents : Prop :=
  ∀ s n g, s.wg? n = some g →
    (∀ e l, g.mEntry e.id = some e → s.mReady n g e = true → isChained e.ins = false → isSoak e.ins = false →
      s.laneOf ⟨n, e.warp⟩ = some l →
      (readsScr e.ins = false → exec (.matrixInstructionStart n e.id) s = .next ((Ctx.prepare ⟨s, l⟩ e).1.s.putLane { (Ctx.prepare ⟨s, l⟩ e).1.l with
        wg := (Ctx.prepare ⟨s, l⟩ e).1.l.wg.startEntry e (Ctx.prepare ⟨s, l⟩ e).2 })) ∧
      (readsScr e.ins = true → exec (.matrixInstructionStart n e.id) s = .next ((Ctx.beginRead ⟨s, l⟩ e).1.s.putLane { (Ctx.beginRead ⟨s, l⟩ e).1.l with
        wg := (Ctx.beginRead ⟨s, l⟩ e).1.l.wg.startReader e (Ctx.beginRead ⟨s, l⟩ e).2 }))) ∧
    (∀ e, g.mEntry e.id = some e → s.mReady n g e = true → isChained e.ins = false → isSoak e.ins = true →
      soakBad g false (soakExt e.ins) = false → exec (.matrixInstructionStart n e.id) s = .next (s.setWg n (g.soakBegin e))) ∧
    (∀ e o l, g.mEntry e.id = some e → isSoak e.ins = false → e.out = some o → o.arv = none → s.laneOf ⟨n, e.warp⟩ = some l →
      exec (.matrixInstructionComplete n e.id) s = .next (s.putLane { l with wg := completedIn g e o })) ∧
    (∀ e, g.frozen = false → g.mq.find? (fun x => isSoak x.ins && x.started && !x.stopped) = some e → isChained e.ins = false →
      s.soakYields n g e = false → exec (.soakIteration n) s = .next (s.soakStep (soakOf false (soakExt e.ins)) [(⟨n, e⟩ : Pos)])) ∧
    (∀ e l, g.frozen = false → g.mq.find? (fun x => isSoak x.ins && x.stopped) = some e → s.laneOf ⟨n, e.warp⟩ = some l →
      exec (.soakRelease n) s = .next (s.putLane ((soakOver l e).settle []))) ∧
    (∀ k p c, g.mq.findSome? (fun e => if e.started then none else e.chained) = some k → p ∈ s.chainAt g k → p.e.waitFrom = some c →
      c + 65536 ≤ s.clock → (s.chainAt g k).length < 4 → exec (.chainPartnerTimeout n) s = .next (s.failChain g k))

/-- R254, R258, R264, R269, R274, R276, R277: a copy command that may start and is sound runs; it writes and counts one sector, or waits for
a granule and goes on when it is empty; one into memory lands its lines as held items; with its last byte it leaves the queue. A request
joins the entry of the shelf that waits for its box; a full slice serves it alone; an entry releases at its deadline. -/
def Obligations.CopyEvents : Prop :=
  (∀ (s : State) core cmd k l, cmdAt s core cmd k l →
    (∀ d k', Ctx.mayStart ⟨s, l⟩ k = true → Ctx.startCmd ⟨s, l⟩ k = (d, .go k') → k'.held = false → k'.op ≠ .grp → k'.op ≠ .lin →
      exec (.copyCommandStart core cmd) s = .next (d.s.putLane (ended (d.l.setCmd { k' with stage := .running }).endReads))) ∧
    (k.held = false → k.waiting = false → s.frozenCmd k = false → k.stage = .running →
      (∀ r, Ctx.nextRecv ⟨s, l⟩ k = some r → exec (.copySectorWrite core cmd) s =
        .next ((Ctx.writeSector ⟨s, l⟩ k r).s.putLane (ended (Ctx.writeSector ⟨s, l⟩ k r).l.endReads))) ∧
      (Ctx.nextRecv ⟨s, l⟩ k = none → (∃ r ∈ k.recv, r.2 < k.total) →
        exec (.copySectorWrite core cmd) s = .next (s.putLane (ended (l.setCmd { k with waiting := true }).endReads)))) ∧
    (k.waiting = true → (Ctx.nextRecv ⟨s, l⟩ k).isSome →
      exec (.copyGranuleWaitEnd core cmd) s = .next (s.putLane (ended (l.setCmd { k with waiting := false }).endReads))) ∧
    (∀ va cells rest s' dpa gen key rmt, k.held = true → k.stage = .running → s.frozenCmd k = false → k.lines = (va, cells) :: rest →
      s.translate (some l.wg.core) l.wg.vf va .store true = (s', .ok dpa gen key rmt) → k.member = false → (∀ r, l.w.region = some r → r.tag ≠ k.tag) →
      exec (.cpystLineLand core cmd) s = .next (s'.putLane (ended
        ({ l.setCmd { k with lines := rest, landed := k.landed + 1 } with
          w := { l.w with items := l.w.items ++ [landedItem s' l k va cells dpa gen key rmt], nextId := l.w.nextId + 1 } } : Lane).endReads))) ∧
    (k.stage = .running → k.held = false → k.mf = false → (∀ r ∈ k.recv, k.total ≤ r.2) → s.shelf = [] →
      exec (.copyCommandComplete core cmd) s = .next (s.putLane (ended (l.dropCmd cmd).endReads))) ∧
    (∀ slice, k.anchor = some slice → k.stage = .shelf →
      let s1 := s.grpCount l.wg.part (cxGid k.e) k.wg k.k
      (∀ x, s1.shelf.find? (sameBox l k slice) = some x → x.stage ≠ .delivering →
        exec (.shelfRequest core cmd) s = .next ({ s1 with shelf := s1.shelf.filterMap (fun z : ShelfEnt => if z.id = x.id then
          ShelfEnt.settle { x with recv := x.recv ++ [(core, cmd)], awaited := x.awaited.filter (· != k.wg) } else some z) }.putLane
            (ended (l.setCmd { k with anchor := none }).endReads))) ∧
      (s1.shelf.find? (sameBox l k slice) = none → 64 ≤ (s1.shelf.filter (fun x => x.slice == slice)).length →
        exec (.shelfRequest core cmd) s = .next (s1.putLane (ended (l.setCmd { k with stage := .running, anchor := none }).endReads))))) ∧
  (∀ (s : State) id, exec (.shelfTimerExpiry id) s = .next { s with shelf := s.shelf.map (fun x : ShelfEnt =>
    if x.id = id ∧ x.stage = .holding ∧ x.deadline ≤ s.clock then { x with stage := .releasing } else x) }) ∧
  (∀ (s : State) r l, s.laneOf r = some l → exec (.groupChangeComplete r) s = .next (s.putLane (ended { l with w := { l.w with grp := none } })))

/-- R281 to R283, R442, R444: the transport reads a contribution, which joins its instance; when every participant has contributed the
results are written and the instance is over; at its limit the instance is abandoned; a thread whose ticket has completed without a
fault goes on. -/
def Obligations.CollectiveEvents : Prop :=
  (∀ (s : State) r t g w x m k s1 i s2 p, s.warp? r = some (g, w) → w.colls.find? (fun x => x.ticket.toNat == t && !x.sent) = some x →
    (∀ j ∈ w.implicit, x.po ≤ j.po) → s.comm g.part (clCid x.e) = some m → m.job = s.jobOf g.dcb → m.rank g.info.index = some k →
    s.instFor g.part (clCid x.e) k m = (s1, i) → s1.readPart r x m.np k = (s2, some p) → i.abandoned = false →
    CollInst.disagrees { i with parts := i.parts ++ [p] } = false → (clOp x.e = 3 → clRoot x.e < m.np) →
    exec (.collContribution r t) s = .next (s2.setInst { i with parts := i.parts ++ [p] })) ∧
  (∀ (s : State) n x s1, s.colls.find? (fun x => x.id == n && !x.abandoned) = some x → x.doomed = false → allHere x →
    deliverAll { s with freeCtr := s.freeCtr + x.np * 2 ^ 45 } (x.results s.freeCtr) x.parts = some s1 →
    exec (.collComplete n) s = .next { s1 with colls := s1.colls.filter (fun y => y.id != n) }) ∧
  (∀ (s : State) n x, s.colls.find? (fun x => x.id == n && !x.abandoned) = some x → (∃ r ∈ x.locals, r.1 = 0) →
    (x.locals.length ≠ x.np ∨ ¬ allHere x) → x.limit ≠ 0 → x.since + x.limit ≤ s.clock →
    exec (.collTimeout n) s = .next (s.abandon x)) ∧
  (∀ (s : State) r l k t, s.laneOf r = some l → l.wg.frozen = false → k < 32 → (l.w.th k).st = .parkedEvent (.collwait t) →
    Ctx.collDone ⟨s, l⟩ t = true → Ctx.collFault ⟨s, l⟩ t = none →
    exec (.collwaitWake r k) s = .next (s.putLane (ended (l.moveTo [k] ((l.w.th k).pc + 8)))))

/-- R319 to R325, R340, R405, R452: the firmware writes the bind of a node's next chunk; dispatch places its next workgroup, or brings a
saved one back, where the plan puts it; a workgroup that has ended frees what it held and is counted; a node all of whose workgroups
have ended decrements its successors; a bind that waits too long has its core, or its kiln, compacted. -/
def Obligations.PlacementEvents : Prop :=
  (∀ (s : State) d k x s1 y, Tabs.find? s.nodes k = some x → s.bindable d k x = true →
    (∀ e ∈ s.nodes, s.nodeFirst e.2 x = true → s.bindable d e.1 e.2 = false) → begunNode s x = (s1, some y) →
    (y.sword.extractLsb' 0 4 = 0 ∨ (y.sword.extractLsb' 0 4).toNat.testBit d = true) →
    exec (.bindWrite d k) s = .next ((({ s1 with nodes := Tabs.put s1.nodes k { y with given := y.given + chunkOf y } }.enforce x.dcb).addBind d
      (bindOf s1 k x y)).setDcbState x.dcb 1)) ∧
  (∀ (s : State) d slot core b lead l h s2 pre, s.bind? d slot = some b → b.resume = false → s.earlierServed d slot b = false →
    s.plan d slot b = some (lead, [], some (l, h)) → lead.head?.map Spot.core = some core →
    s.presets (s.vfOf b.dcb) l h = (s2, some pre) →
    exec (.placeWorkgroup d slot core) s = .next ((s2.addGroup b.kg ((((nextNew l h b).map Next.info).zip (lead.zip lead)).map
      (fun e => launchWg s2 d slot b l h pre e.1 e.2.1 e.2.2))).setBind d slot (b.afterPlace core lead.length))) ∧
  (∀ (s : State) d slot core b lead trail, s.bind? d slot = some b → b.resume = true → b.open_ = true → s.earlierServed d slot b = false →
    (∀ a ∈ s.nextAddrs b, s.imageRefused (s.partOf b.dcb) a = false) → s.planResume d slot b = some (lead, trail) →
    lead.head?.map Spot.core = some core →
    exec (.resumeWorkgroup d slot core) s = .next (s.resumeAt d slot b (s.loaded b) lead trail)) ∧
  (∀ (s : State) n g, s.wg? n = some g → g.pair = none → g.finished = true → s.drains n g = false →
    g.stop.any (fun p => p.mode != 0 && decide (1 ≤ p.stage)) = false →
    exec (.workgroupComplete n) s = .next ((((s.finishOne n).nodeDone g.node 1).bindDone g.die g.bind 1).afterLeave)) ∧
  (∀ (s : State) d n x, Tabs.find? s.nodes (65536 * d + n) = some x → x.begun = true → x.n ≤ x.given → x.left = 0 →
    exec (.nodeComplete d n) s = .next (x.succ.foldl (fun s j => s.readyNode j)
      ({ s with nodes := Tabs.del s.nodes (65536 * d + n) }.setDcbState x.dcb 0))) ∧
  (∀ (s : State) d slot core b kept vs, s.bind? d slot = some b → ripe s (256 * d + slot) b core → b.hold = none →
    s.compactAll (256 * d + slot) (s.partOf b.dcb) (s.jobOf b.dcb) (s.compactFor (256 * d + slot) b core) = some (kept, vs) →
    exec (.compactionWaitExpiry d slot core) s = .next (s.evict (256 * d + slot) b core kept vs.eraseDups)) ∧
  (∀ (s : State) d slot kiln b c vs, s.bind? d slot = some b → b.resume = true → b.kg ≠ 0 → b.open_ = true → b.hold = none →
    b.since + 64 * b.cwait.toNat ≤ s.clock → s.planResume d slot b = none →
    bestRange ((b.sites d).filterMap (fun c => (s.kilnVictims (256 * d + slot) b c).map (fun r => (c, r.2, r.1)))) = some (c, vs) →
    c / 4 = kiln →
    exec (.kilnResumeWaitExpiry d slot kiln) s = .next (s.evict (256 * d + slot) b c [] vs))

/-- R325, R328 to R335, R417, R445 to R448: the signal of a stop reaches a workgroup, or the Stoker stops it for a reason of its own; its
unit reaches the stop point when every warp and engine has stopped; when its waits are over it is rolled back or left as it is; its
image is written and it leaves its core; past the deadline the stop takes the next step of the ladder. -/
def Obligations.StopEvents : Prop :=
  (∀ (s : State) n g q, s.wg? n = some g → s.stopFor g.dcb = some q → g.stop = none → exec (.stopSignal n) s = .next (s.signal n q.mode)) ∧
  (∀ (s : State) n g, s.wg? n = some g → s.stopFor g.dcb = none → g.move = true → exec (.stopSignal n) s = .next (s.ownStop n [g.core])) ∧
  (∀ (s : State) n g, s.wg? n = some g → s.stopFor g.dcb = none → g.move = false → s.nextVictim n = true → g.stop = none →
    exec (.stopSignal n) s = .next (s.ownStop n [])) ∧
  (∀ (s : State) n g, s.wg? n = some g → g.kiln = [] → s.unitAt [n] 0 = true → s.atPoint n g = true → g.stop.any (fun p => p.mode == 2) = false →
    exec (.stopPoint n) s = .next (s.setStage [n] 1)) ∧
  (∀ (s : State) n g, s.wg? n = some g → g.kiln = [] → s.unitAt [n] 1 = true →
    (∀ p ∈ g.warps.zipIdx, s.warpSettled n p.2 g p.1 = true) →
    (g.stop.any (fun p => p.mode == 1) = true → exec (.stopWaitsDone n) s =
      .next (((List.range g.warps.length).foldl (fun s i => s.rollWarp n i) s).setStage [n] 2)) ∧
    (g.stop.any (fun p => p.mode == 1) = false → exec (.stopWaitsDone n) s = .next (s.setStage [n] 2))) ∧
  (∀ (s : State) n g b s2 h, s.wg? n = some g → g.kiln = [] → s.unitAt [n] 2 = true → s.mayWrite n g = true →
    s.bind? g.die g.bind = some b →
    let p := g.stop.getD ⟨1, 2, false, []⟩
    s.saveUnit [n] b g (p.own && !s.stops.any (fun q => q.mode != 0 && s.under g.dcb q.dcb)) p.avoid = some s2 →
    s2.wg? n = some h →
    exec (.saveImageWritten n) s = .next ((((s2.suspend n h).depart n h).bindDone g.die g.bind 1).afterLeave)) ∧
  (∀ (s : State) n q, s.stops.find? (fun q => q.id == n) = some q → q.since + q.deadline ≤ s.clock → s.late q = true →
    ((s.rd Reg.stpx).getLsbD 0 = false → q.mode ≠ 1 → exec (.stopDeadlineExpiry n) s = .next (s.escalate q)) ∧
    (q.mode = 1 → s.level q.dcb ≠ 0 → exec (.stopDeadlineExpiry n) s = .next (s.forcedReset (s.resetDomain q.dcb) q.from_)) ∧
    (q.mode = 1 → s.level q.dcb = 0 → exec (.stopDeadlineExpiry n) s = .next s.resetPartitions))

/-- R315, R318, R319, R328, R350, R352 to R355, R405, R461: a well-formed request that may be served has its effect and is answered with
status 0; a `STOP` is accepted, and answered later; a key is assigned where the session stands (the model's open value, log 9); a code
that is not assigned is answered with status 2. -/
def Obligations.MailboxRequests : Prop :=
  ∀ (s : State) (ch : Nat),
    (let d := s.req ch 0 8; let off := s.req ch 8 4; let n := s.req ch 12 4;
      due s ch 1 (16 + n) → 1 ≤ n → n ≤ 64 → off + n ≤ 128 → d % 128 = 0 → d < 0x5000000000 →
      (s.dcbs.contains d = false ∨ (s.dcbFrozen d = false ∧ (s.dcbBytes d off (s.reqBytes ch 16 n)).dcbSound d = true)) →
      exec (.dcbWrite ch) s = .next ((s.dcbBytes d off (s.reqBytes ch 16 n)).answer ch 0x00 [])) ∧
    (let p := s.req ch 0 8; let d := s.req ch 8 8;
      due s ch 2 16 → s.named p = true → s.dcbSound d = true → s.level d = s.level p + 1 → s.dcbs.contains d = false → s.dcbFrozen p = false →
      let below := s.family 32 (s.child d)
      let s1 := ((s.dcbPut d 0 8 p).dcbPut d 16 8 (s.child p)).dcbPut p 8 8 d
      exec (.dcbLink ch) s = .next ({ s1 with
        dcbs := s1.dcbs ++ d :: below, inForce := s1.inForce.filter (fun e => !(d :: below).contains e.1) }.answer ch 0x00 [])) ∧
    (let d := s.req ch 0 8;
      due s ch 3 8 → s.named d = true → s.level d ≠ 0 → [0, 3, 5].contains (s.dcbState d) = true → s.child d = 0 →
      (∀ b ∈ s.binds.map Prod.snd ++ s.bindq.map Prod.snd, b.dcb ≠ d) → s.dcbFrozen d = false → s.dcbFrozen (s.parent d) = false →
      let s1 := s.unchain (s.parent d) d s.dcbs.length (s.child (s.parent d))
      exec (.dcbUnlink ch) s = .next ({ s1.dcbPut d 0 8 0 with
        dcbs := s1.dcbs.filter (· != d), inForce := s1.inForce.filter (fun e => e.1 != d) }.answer ch 0x00 [])) ∧
    (∀ s1 l h i, due s ch 4 64 → submits s ch → s.launch? (s.req ch 8 8) (s.req ch 0 8) = (s1, some (l, h)) →
      s1.freeNode (Config.streamDie ((s1.atLevel (s.req ch 0 8) 4).getD 0) % 4) = some i →
      let k := 65536 * (Config.streamDie ((s1.atLevel (s.req ch 0 8) 4).getD 0) % 4) + i
      exec (.nodeSubmit ch) s = .next ({ s1 with nodes := Tabs.put s1.nodes k (submitted s ch s1.nextReady h), nextReady := s1.nextReady + 1 }.answer
        ch 0x00 (leBytes 8 k))) ∧
    (let d := s.req ch 0 8; let m := stopMode s d;
      due s ch 5 8 → s.named d = true → s.vfFailed d = false → s.dcbState d < 2 →
      exec (.stop ch) s = .next (({ s.mapBinds (halted s d) with
        stops := s.stops ++ [(⟨s.nextStop, d, m, m, some ch, s.clock, s.effDeadline d⟩ : StopReq)], nextStop := s.nextStop + 1 }.setDcbState d
          (if m = 0 then 4 else 2)).checkStops)) ∧
    (let d := s.req ch 0 8;
      due s ch 6 8 → s.named d = true → s.vfFailed d = false → [3, 5].contains (s.dcbState d) = true →
      (s.refusals d = [] → exec (.resume ch) s = .next ((revived s d).answer ch 0x00 [])) ∧
      (∀ a as, s.refusals d = a :: as → exec (.resume ch) s = .next ((revived (s.dropRefused d (a :: as)) d).answer ch 0x05 (leBytes 4 0x16 ++ leBytes 4 (as.length + 1) ++ leBytes 8 a)))) ∧
    (let c := s.req ch 0 4; let pw := BitVec.ofNat 64 (s.req ch 8 8); let ts := askedTwins s ch;
      due s ch 7 176 → c < 128 → s.req ch 4 4 = 0 → windowsOk pw ts = true → (∀ e ∈ s.wgs, e.2.core ≠ c) → (∀ e ∈ s.images, e.2.g.core ≠ c) →
      s.pwordFrozen c = false → (∀ e ∈ ts.zipIdx, s.partFrozen e.2 = true → e.1 = s.rd (Reg.twin c e.2)) →
      exec (.windowSet ch) s = .next ((ts.zipIdx.foldl (fun s t => s.wr (Reg.twin c t.2) t.1) (s.wr (Reg.pword c) pw)).answer ch 0x00 [])) ∧
    (let k := s.req ch 0 4; let p := s.req ch 4 4;
      due s ch 8 12 → 1 ≤ k → k < 256 → p < 20 → ((s.rd (Reg.keyown k)).getLsbD 5 = false ∨ s.ownsKey p k = true) → s.partFrozen p = false →
      let s1 := s.wr (Reg.keyown k) (BitVec.ofNat 64 (32 + p))
      exec (.keyAssign ch) s = .next (if Config.sessionStands (s.req ch 8 4) p then
        { s1 with keyEpoch := Tabs.put s1.keyEpoch k (Tabs.get s1.keyEpoch 0 k + 1) }.answer ch 0x00 [] else s.answer ch 0x01 [])) ∧
    (let p := s.req ch 0 4; let a := s.req ch 8 8; let n := s.req ch 16 8;
      due s ch 9 24 → p < 20 → s.req ch 4 4 = 0 →
      let r := s.secBytes a n
      (n ≠ 0 → dpaAssigned a n = true →
        exec (.measure ch) s = .next ((r.1.setPmeas p (sha3_512 (r.1.pmeas p ++ sha3_512 r.2))).answer ch 0x00 [])) ∧
      (n = 0 → s.partFrozen p = false → exec (.measure ch) s = .next ((s.setPmeas p (List.replicate 64 0)).answer ch 0x00 []))) ∧
    ((s.reqCode ch = 0 ∨ 12 ≤ s.reqCode ch) → s.busyCh ch = true → s.chans.contains ch = true → s.up = true →
      exec (.mailboxUnassignedCode ch) s = .next (s.answer ch 0x02 []))

/-- R373 to R375, R464, R472, R473: a `GLAZE_WRITE` takes staging space; its content is fixed; the gate opens when every core that committed
has passed its sweep since, and refuses for one that is retired and for a taint; the key service's answer seals the image, or ends the
request; the signed image goes to its destination. A `GLAZE_RESTORE` whose image passes the first four checks waits for the key service,
whose answer completes or refuses it. What the service and the certificates say are open values of the model (log 9). -/
def Obligations.GlazeRequests : Prop :=
  ∀ (s : State),
    (∀ ch s1 secs pages, let q := s.req ch; due s ch 10 36 → q 0 4 < 2 → q 4 4 = 0 → s.jobNamed (q 8 8) = true →
      (q 0 4 = 0 → ∀ e ∈ s.dirEntries (q 16 8) 65536, e.1 = 0 ∨ (e.1 = 1 ∧ e.2.2 % 4 = 0)) →
      (windowOf (q 24 8) = 1 ∨ 16 ≤ windowOf (q 24 8)) → q 24 8 < 2 ^ 52 → s.vfFailed (q 8 8) = false →
      s.content (q 0 4) (q 8 8) (q 16 8) = (s1, .ok secs pages) → s1.stagingRoom (stackPages pages) = true →
      exec (.glazeWrite ch) s = .next { s1 with nextGlaze := s1.nextGlaze + 1, glazes := s1.glazes ++ [(
        { id := s1.nextGlaze, ch, write := true, kind := q 0 4, job := q 8 8, dir := q 16 8, dst := q 24 8, session := q 32 4, stage := 0,
          pages := stackPages pages, secs := [], ctr := 0, image := [] } : GlazeReq)] }) ∧
    (∀ n g s1 secs pages, s.glazeAt n 0 = some g → s.content g.kind g.job g.dir = (s1, .ok secs pages) →
      exec (.glazeStagingComplete n) s = .next (s1.setGlaze { g with secs, stage := 1 })) ∧
    (∀ n g, s.glazeAt n 1 = some g →
      (∀ e ∈ s.stamped g.job, s.sweepSt e.1 ≠ 3 ∧ e.2 < Tabs.get s.passAt 0 e.1) → s.taints.contains g.job = false →
      exec (.bisqueGateOpen n) s = .next (s.setGlaze { g with stage := 2 })) ∧
    (∀ n g, s.glazeAt n 1 = some g →
      (∀ e, (s.stamped g.job).find? (fun e => s.sweepSt e.1 == 3) = some e →
        exec (.bisqueGateOpen n) s = .next (s.endGlaze g 0x01 (leBytes 4 1 ++ leBytes 4 e.1))) ∧
      ((∀ e ∈ s.stamped g.job, s.sweepSt e.1 ≠ 3) → s.taints.contains g.job = true →
        exec (.bisqueGateOpen n) s = .next (s.endGlaze g 0x01 (leBytes 4 1 ++ leBytes 4 0xFFFFFFFF)))) ∧
    (∀ n g ok key, s.glazeAt n 2 = some g →
      let stands := ok && Config.sessionStands g.session (s.partOf g.job)
      (g.write = true → exec (.keyServiceResponse n ok key) s = .next (if stands then
        s.setGlaze { g with ctr := key % 2 ^ 64, image := s.sealed g (key % 2 ^ 64), stage := 3 } else s.endGlaze g 0x01 [])) ∧
      (g.write = false → exec (.keyServiceResponse n ok key) s = .next (if stands then
        s.restoreWith g (key % 2 ^ 64) else s.refuseRestore g 6))) ∧
    (∀ n g, s.glazeAt n 3 = some g →
      let image := glazeSigned g.image
      let s1 := if windowOf g.dst = 1 then s.memBytes 0 g.dst image else s
      exec (.glazeSignComplete n) s = .next ({ s1 with gimages := s1.gimages ++ [(⟨image, g.secs⟩ : GImg)] }.endGlaze g 0x00
        (leBytes 8 g.ctr ++ leBytes 8 image.length))) ∧
    (∀ ch, let q := s.req ch; let r := restoreReads s ch; let g := restoreReq s ch r.2.1;
      due s ch 11 28 → s.jobNamed (q 8 8) = true → q 0 8 < 2 ^ 52 → q 16 8 < 2 ^ 52 → s.vfFailed (q 8 8) = false → s.stagingRoom g.pages = true →
      exec (.glazeRestore ch) s = .next (goesOn { r.1 with glazes := r.1.glazes ++ [g], nextGlaze := r.1.nextGlaze + 1 } g
        (failsCheck r.1 r.2.2 g)))

/-- R7, R293, R351, R359, R412, R417, R428, R429, R455, R458, R459, R482, R498: a write to a register of the physical function sets its
writable bits and clears those that a 1 clears; the registers with an effect of their own have it: a request of a virtual function's
mailbox and its completion, a new generation and the end of the wait for the old one, the node number and the fabric ports, the release
of a quarantined page, an injection. Before bring-up is over no register takes a write (R377). -/
def Obligations.RegisterWrites : Prop :=
  (∀ (s : State) r data, s.up = false → exec (.registerWrite r data) s = .next s) ∧
  ∀ (s : State) (data : DWord), s.up = true →
    (∀ off b, off % 8 = 0 → ¬ ownBehaviour off → s.frozenBy off = [] → regBlocks.find? (fun b => b.has off) = some b →
      slackIgnored off data = false →
      exec (.registerWrite ⟨none, off, false⟩ data) s = .next (s.wr off (accessed (s.rd off) data b.rw b.w1c))) ∧
    (∀ off v vs, off % 8 = 0 → ¬ ownBehaviour off → s.frozenBy off = v :: vs →
      exec (.registerWrite ⟨none, off, false⟩ data) s = .next ((v :: vs).foldl (fun s v => s.interfaceError v 3 off) s)) ∧
    (∀ vf tee, (s.tdiLive vf = false ∨ tee = true) →
      exec (.registerWrite ⟨some vf, Reg.sridx, tee⟩ data) s = .next (s.vwr vf Reg.sridx (accessed (s.vrd vf Reg.sridx) data (bitsAt 32 32) 0))) ∧
    (∀ vf tee, s.tdiLive vf = true → tee = false →
      exec (.registerWrite ⟨some vf, Reg.sridx, tee⟩ data) s = .next (s.interfaceError vf 2 Reg.sridx)) ∧
    (∀ vf tee, (s.tdiLive vf = false ∨ tee = true) → s.tdi vf ≠ 3 → data.getLsbD 0 = true → (s.vrd vf Reg.vmbox).getLsbD 0 = false →
      let old := s.vrd vf Reg.vmbox
      let s1 := s.vwr vf Reg.vmbox ((if data.getLsbD 1 then old &&& 0xFF0001 else old &&& 0xFF0003) ||| (data &&& 0xFFFF00000000))
      let s2 := s1.vwr vf Reg.vmbox (s1.vrd vf Reg.vmbox ||| 1)
      exec (.vfMailboxSubmit vf data tee) s = .next ((s2.wr (Reg.vmctl vf.toNat) (s2.rd (Reg.vmctl vf.toNat) ||| 1)).raise none 8)) ∧
    (∀ vf, data.getLsbD 0 = true → (s.rd (Reg.vmctl vf.toNat)).getLsbD 0 = true →
      let st := data &&& 0xFF0000
      exec (.vmctlPendWrite vf data) s = .next ((s.wr (Reg.vmctl vf.toNat) st).vfAnswer vf (st.toNat / 65536))) ∧
    (∀ vf, (s.genBusy vf = true → exec (.vfgenWrite vf) s = .next s) ∧
      (s.genBusy vf = false → let s1 := s.wr (Reg.vfgen vf.toNat) (((s.gen vf + 1).setWidth 64) ||| 0x10000)
        exec (.vfgenWrite vf) s = .next ((s1.tlbClear vf).mapWarps vf (fun w => { w with kept := [] })))) ∧
    (∀ vf, s.genBusy vf = true → s.oldRelease vf = false → exec (.generationBumpComplete vf) s = .next (s.bumpDone vf)) ∧
    (∃ t, exec (.fnodeWrite data) s = .next t ∧ t = { s with pf := t.pf } ∧ t.rd Reg.fnode = data &&& 0xFFF ∧
      (∀ k < 12, t.portSt k = if s.portSt k = 3 then 3 else if data &&& 0xFFF = 0 then 0 else if s.portSt k = 0 then 1 else s.portSt k) ∧
      (∀ o, o ≠ Reg.fnode → (∀ k < 12, o ≠ Reg.fpstat k) → t.rd o = s.rd o)) ∧
    (∀ c k, (c < 16 → data.getLsbD 63 = true →
        exec (.mcqRelease c k data) s = .next (s.setCtl c { s.ctl c with quar := Tabs.del (s.ctl c).quar k })) ∧
      (data.getLsbD 63 = false → exec (.mcqRelease c k data) s = .next s)) ∧
    (∀ die, die < 4 → ((s.rd (Reg.prx die)).getLsbD 17 = false → exec (.prxWrite die data) s = .next (s.wr (Reg.prx die) (data &&& 0x3FFFF))) ∧
      ((s.rd (Reg.prx die)).getLsbD 17 = true → exec (.prxWrite die data) s = .next s))

/-- R314, R468 to R471, R478 to R481: a signature of a pair joins its entry or makes one; the oldest complete entry is compared, and its
warps go on or the trailer takes the leader's place; the sweep of a die takes the core at the head of the rotation, or of the next slot,
drains it, scans it, and passes or retires it; a memory controller pauses at most once in a millisecond. -/
def Obligations.PairAndSweepEvents : Prop :=
  (∀ (s : State) r g w mate lead q h s1 v, s.warp? r = some (g, w) → g.pair = some (mate, lead) → w.unsent = some q → s.wg? mate = some h →
    let ln := if lead then r.wg else mate
    let tn := if lead then mate else r.wg
    let die := (if lead then g.core else h.core) / 32
    s.inject die lead q = (s1, v) →
    (s.scb.any (awaitsSig ln tn r.warp lead q) = true → exec (.scbSignature r) s =
      .next ({ s1 with scb := changeFirst (awaitsSig ln tn r.warp lead q) (signedBy lead v) s1.scb }.atWarp r (fun c => c.onL (fun l => l.sigTaken q)))) ∧
    (s.scb.any (awaitsSig ln tn r.warp lead q) = false → (s.scb.filter (fun e => e.die == die)).length < 256 → exec (.scbSignature r) s =
      .next ({ s1 with scb := s1.scb ++ [signedBy lead v ⟨s1.nextScb, die, ln, tn, r.warp, q.imp, q.num, none, none⟩], nextScb := s1.nextScb + 1 }.atWarp r
        (fun c => c.onL (fun l => l.sigTaken q))))) ∧
  (∀ (s : State) e, mayCompare s e →
    (e.lsig = e.tsig → exec (.scbCompare e.die e.id) s = .next (s.scbAgree e)) ∧
    (e.lsig ≠ e.tsig → exec (.scbCompare e.die e.id) s =
      .next (({ s with scb := s.scb.filter (fun x => x.id != e.id) } : State).mismatch e.lead e.trail (markTrailer e)))) ∧
  (∀ (s : State) d, s.up = true → (s.sweep d).pass = none → (s.rd (Reg.csx d)).getLsbD 1 = false →
    (∀ c, s.sweepHead.find? (fun c => c / 32 == d) = some c → exec (.coneSweepSlot d) s = .next (s.beginPass c)) ∧
    (s.sweepHead.find? (fun c => c / 32 == d) = none → s.upAt + slotCycles * (s.sweep d).slots ≤ s.clock →
      let c := 32 * d + (s.sweep d).slots % 32
      s.sweepSt c ≠ 3 → c ∉ s.lost →
      exec (.coneSweepSlot d) s = .next ((s.setSweep d { s.sweep d with slots := (s.sweep d).slots + 1 }).beginPass c))) ∧
  (∀ (s : State) d c t, (s.sweep d).pass = some (c, false, t) → (∀ e ∈ s.wgs, e.2.core ≠ c) →
    exec (.coneSweepScanStart d) s = .next ((s.setSweepSt c 2).setSweep d { s.sweep d with pass := some (c, true, s.clock) })) ∧
  (∀ (s : State) d c t, (s.sweep d).pass = some (c, true, t) → t + 720000 ≤ s.clock →
    let s1 := s.setSweep d { s.sweep d with pass := none }
    (exec (.coneSweepScanDone d true) s = .next ({ s1 with freeCtr := s1.freeCtr + 1 }.retireCore c ((Config.freeValue s1.freeCtr).toNat % 64))) ∧
    (exec (.coneSweepScanDone d false) s = .next ({ s1 with passAt := Tabs.put s1.passAt c t }.wr (Reg.csst c) (BitVec.ofNat 64
      (t / 65536 % 2 ^ 40 * 2 ^ 24 + min 65535 ((s1.rd (Reg.csst c)).toNat / 2 ^ 8 % 65536 + 1) * 2 ^ 8 + (if s1.sweepHead.contains c then 4 else 0)))))) ∧
  (∀ (s : State) c, c < 16 → (∀ t, Tabs.find? s.pauses c = some t → t + 1200000 ≤ s.clock) →
    (∀ t, Tabs.find? s.pauses (if c % 2 = 0 then c + 1 else c - 1) = some t → t + 12000 ≤ s.clock) →
    exec (.maintenancePause c) s = .next { s with pauses := Tabs.put s.pauses c s.clock })

/-- R345, R361, R362, R454 to R457, R463: the host reads and writes memory under slot 0; a remote request is applied once, in its order; the
host link goes down, with every locked or running interface, and comes up; a port retrains, comes up, or fails at the third time in 100
ms; a read of the host, and a request of a fabric window, that get no answer are settled as refused; a node that is away loses its held
entries; a link is marked down and the routes are computed again, and a core without one is lost. R376, R466, R483: a sample of a die
changes its power, its temperature and its count; a die at 88 °C takes the package down; the life that a die predicts is a free value of
the model (log 50), and the error vector is raised when it first falls below 180 days. -/
def Obligations.OutsideEvents : Prop :=
  (∀ (s : State),
    (∀ a n s1, s.up = true → 1 ≤ n → a % 64 + n ≤ 64 → a + n ≤ memTop → s.releasingAny a n = false → s.readSectors a n = (s1, none) → s.quarantined a = false →
      exec (.hostMemRead a n) s = .next { s1 with reads := s1.reads ++ [(⟨a, hostBytes s1 a n, s1.crazeMask a n, false, 0⟩ : ReadOut)] }) ∧
    (∀ a data, s.up = true → data ≠ [] → a % 64 + data.length ≤ 64 → windowOf a ≠ 1 → a + data.length ≤ memTop → s.quarantined a = false →
      (∀ k < data.length, s.frozenByte (a + k) = false) →
      exec (.hostMemWrite a data) s = .next (s.memBytes 0 a data)) ∧
    (∀ port data, arrives s port (RemReq.of data) →
      exec (.remoteRequest port data) s = .next { s.remApply port (RemReq.of data) with
        remSeq := Tabs.put s.remSeq (RemReq.of data).src ((RemReq.of data).seq + 1) }) ∧
    (s.hostUp = true → exec .hostLinkDown s = .next (allVfs.foldl (fun s v => s.interfaceError v 6 0)
      (s.wr Reg.hlstat ((s.rd Reg.hlstat &&& ~~~1) ||| 2)))) ∧
    (s.up = true → exec .hostLinkUp s = .next (s.wr Reg.hlstat (s.rd Reg.hlstat ||| 1))) ∧
    (∀ r l id a, s.laneOf r = some l → l.w.accs.find? (fun a => a.id == id && !a.performed) = some a → a.stage ≠ .walk → a.rmt = false →
      windowOf a.dpa = 1 → exec (.hostCompletionTimeout r id) s = .next (s.putLane (ended (l.faultAcc a 0x05)))) ∧
    (∀ k, k < 12 → s.portSt k = 2 →
      exec (.flitReplayExhausted k) s = .next ((s.wr (Reg.fpstat k) (BitVec.ofNat 64 (setField (s.rd (Reg.fpstat k)).toNat 32 32
        (min ((s.rd (Reg.fpstat k)).toNat / 2 ^ 32 + 8) (2 ^ 32 - 1))))).setPort k 1) ∧
      exec (.portTakenDown k) s = .next (s.setPort k 1)) ∧
    (∀ k, k < 12 → s.portSt k = 1 →
      exec (.portRetrainDone k true) s = .next (s.setPort k 2) ∧
      exec (.portRetrainDone k false) s = .next (if 3 ≤ (recentFails s k).length
        then { s with portFails := Tabs.put s.portFails k (recentFails s k) }.setPort k 3
        else { s with portFails := Tabs.put s.portFails k (recentFails s k) })) ∧
    (∀ r l id a, s.laneOf r = some l → l.w.accs.find? (fun a => a.id == id && a.stage == .home && a.rmt) = some a →
      exec (.fabricE2eTimeout r id) s = .next (s.putLane (ended (l.faultAcc a 0x05)))) ∧
    (∀ r l id i, s.laneOf r = some l → l.w.accs.find? (fun a => a.id == id && a.stage == .home && a.rmt) = none →
      l.w.items.find? (fun i => i.id == id && i.rmt) = some i → i.stage = .held → i.sent = true → l.w.mayRelease i.tag = true →
      exec (.fabricE2eTimeout r id) s = .next ((s.lostRelease i.dpa).putLane (ended (l.setItem { i with stage := .released })))) ∧
    (∀ p, exec (.peerUnreachableTimeout p) s = .next { s with
      remote := s.remote.filter (fun r => r.src != p), releasing := s.releasing.filter (fun r => r.src != some p) }) ∧
    (∀ k, k ∉ s.linksDown → s.up = true →
      let down := s.linksDown ++ [k]
      (networkDead down = true → exec (.linkDownMark k) s =
        .next ((({ s with linksDown := down } : State).wr Reg.rtstat (s.rd Reg.rtstat ||| 0xA)).resetPartitions)) ∧
      (networkDead down = false → (∀ e ∈ s.wgs, e.2.core ∈ s.lost ∨ coreReached down e.2.core = true) → exec (.linkDownMark k) s =
        .next (({ s with linksDown := down, lost := s.lost ++ (List.range 128).filter (fun c => !s.lost.contains c && !coreReached down c) } : State).wr
          Reg.rtstat (((s.rd Reg.rtstat &&& ~~~6) ||| (if routesAccepted down then 0 else 4) ||| 2) + 0x100000000))))) ∧
  (∀ (s : State) die (x : DWord), die < 4 →
    (x.toNat / 2 ^ 36 % 4096 < 800 → die ≠ 3 → exec (.telemetrySample die x) s = .next (s.wr (Reg.tlm die) (sampled s die x))) ∧
    (x.toNat / 2 ^ 36 % 4096 < 800 → die = 3 → (s.wr (Reg.tlm 3) (sampled s 3 x)).power ≤ 18000 →
      exec (.telemetrySample die x) s = .next { s.wr (Reg.tlm 3) (sampled s 3 x) with hot := 0 }) ∧
    (880 ≤ x.toNat / 2 ^ 36 % 4096 → die ≠ 3 → exec (.telemetrySample die x) s =
      .next { ((s.wr (Reg.tlm die) (sampled s die x)).raise none 9).resetPartitions with powerOff := true }) ∧
    (let n := (Config.freeValue s.freeCtr).toNat % 65536
     let s1 : State := { s.wr (Reg.tlm die) ((s.rd (Reg.tlm die) &&& ~~~0xFFFF0000) ||| BitVec.ofNat 64 (n * 65536)) with freeCtr := s.freeCtr + 1 }
     exec (.ageingRead die) s = .next (if n < 180 ∧ !s.aged.contains die then { s1 with aged := s1.aged ++ [die] }.raise none 9 else s1)))

/-- R356, R358, R367, R369, R458: a bound, unlocked interface is locked, a locked one runs, and one that is not unlocked is unlocked when no
workgroup of it is resident, all of them over a secure session; the report, with its one MMIO range; the responder answers each message
after those before it with what the model leaves open (log 9), when the connection has come far enough and it accepts, and with an error
otherwise. -/
def Obligations.TrustEvents : Prop :=
  ∀ (s : State),
    (∀ vf bs, s.secure = true → s.tdi vf = 0 → s.vfBound vf = true → exec (.lockInterfaceRequest vf bs) s = .next (s.setTdi vf 1)) ∧
    (∀ vf bs, s.secure = true → s.tdi vf = 1 → exec (.startInterfaceRequest vf bs) s = .next (s.setTdi vf 2)) ∧
    (∀ vf, s.secure = true → s.tdi vf ≠ 0 → s.tdiStops = [] →
      ((∀ e ∈ s.wgs, e.2.vf ≠ vf) → exec (.stopInterfaceRequest vf) s = .next { s.setTdi vf 0 with tdiStops := [] }) ∧
      ((∃ e ∈ s.wgs, e.2.vf = vf) → exec (.stopInterfaceRequest vf) s = .next { s with tdiStops := [vf] })) ∧
    (∀ vf, s.secure = true → exec (.interfaceReport vf) s = .next { s with reports := s.reports ++ [⟨[(vf, 65536)], s.interfaceReport vf⟩] }) ∧
    (∀ vf bs, s.secure = false → exec (.lockInterfaceRequest vf bs) s = .next s ∧ exec (.startInterfaceRequest vf bs) s = .next s ∧
      exec (.stopInterfaceRequest vf) s = .next s ∧ exec (.interfaceReport vf) s = .next s) ∧
    (∀ i code need stage first msg, spdmForm i = some (code, need, stage, first, msg) →
      let t := (if first then [] else s.spdm.transcript) ++ msg
      let r := spdmReply code (t ++ s.measurements)
      (need ≤ s.spdm.stage ∧ Config.spdmAccepts code t →
        exec i s = .next { s with spdm := ⟨t ++ r, if first then stage else max s.spdm.stage stage, s.spdm.out ++ [r]⟩ }) ∧
      (¬ (need ≤ s.spdm.stage ∧ Config.spdmAccepts code t) → exec i s = .next { s with spdm := { s.spdm with out := s.spdm.out ++ [spdmReply 9 t] } }))

/-- R250, R377, R426, R427, R467: the four levels of reset; an error that strikes a register or a scratchpad word marks it, one in a dirty
L2 or an HBM sector marks the sector, a single bit of an HBM sector is corrected and counted. -/
def Obligations.ResetsAndErrors : Prop :=
  ∀ (s : State),
    (∀ vf, exec (.vfFunctionLevelReset vf) s = .next (s.resetVf vf)) ∧
    (let u := (allVfs.foldl State.resetVf s).resetPartitions;
      exec .pfFunctionLevelReset s = .next { u with
        pf := resetPf u.pf, chans := [], glazes := [], stops := u.stops.map (fun q => { q with ch := none }),
        keyEpoch := (List.range 255).foldl (fun t k => Tabs.put t (k + 1) (Tabs.get t 0 (k + 1) + 1)) u.keyEpoch,
        ctls := u.ctls.map (fun c => { c with quar := [], corr := 0, qnew := false, ovf := false }) }) ∧
    (∀ i, i = .packageReset ∨ i = .powerRemoved → exec i s = .next s.bringUp) ∧
    s.bringUp.wgs = [] ∧ s.bringUp.clock = 0 ∧ s.bringUp.nodes = [] ∧ s.bringUp.binds = [] ∧
    (Config.firmwareSigned = true → s.bringUp.dcbs = [deviceAt]) ∧ (Config.firmwareSigned = false → s.bringUp.up = false) ∧
    (∀ n w k r g x, s.warp? ⟨n, w⟩ = some (g, x) → w < 64 → k < 32 → r ≤ 254 → r ∉ (x.th k).bad →
      exec (.uncorrectableError 0 (n * 2 ^ 20 + w * 2 ^ 14 + k * 2 ^ 9 + r)) s =
        .next (s.setWarp ⟨n, w⟩ (x.setTh k { x.th k with bad := (x.th k).bad ++ [r] }))) ∧
    (∀ n k g, s.wg? n = some g → k < 2 ^ 20 → 4 * k < g.scr.size → k ∉ g.scr.bad →
      exec (.uncorrectableError 1 (n * 2 ^ 20 + k)) s = .next (s.setWg n { g with scr := { g.scr with bad := g.scr.bad ++ [k] } })) ∧
    (∀ k, 32 * k < memTop →
      exec (.uncorrectableError 7 k) s = .next { s with mem := { s.mem with badL2 := Tabs.set s.mem.badL2 false k true } } ∧
      exec (.uncorrectableError 9 k) s = .next { s with mem := { s.mem with badHbm := Tabs.set s.mem.badHbm false k true } } ∧
      exec (.uncorrectableError 10 k) s = .next (s.setCtl (ctlOf (32 * k))
        { s.ctl (ctlOf (32 * k)) with corr := min (2 ^ 32 - 1) ((s.ctl (ctlOf (32 * k))).corr + 1) }))
end

