-- ==== Sys2Proof/Laws/Tab.lean ====
section
/-! SUPPORT. The laws of sparse tables: what a key reads as after a write, and that every operation keeps the canonical
form. -/

namespace Sys2Proof.Tabs

variable {α : Type}

@[simp] theorem find?_nil (k : Nat) : find? ([] : Tab α) k = none := rfl

@[simp] theorem get_nil (d : α) (k : Nat) : get ([] : Tab α) d k = d := rfl

@[simp] theorem find?_put_same (t : Tab α) (k : Nat) (x : α) : find? (put t k x) k = some x := by
  induction t with
  | nil => simp [put, find?]
  | cons e t ih =>
    obtain ⟨j, y⟩ := e
    unfold put
    split
    · simp [find?]
    · split
      · simp [find?]
      · next h => simp [find?, h, ih]

@[simp] theorem find?_put_other (t : Tab α) {k j : Nat} (x : α) (h : j ≠ k) : find? (put t k x) j = find? t j := by
  induction t with
  | nil => simp [put, find?, h.symm]
  | cons e t ih =>
    obtain ⟨i, y⟩ := e
    unfold put
    split
    · simp [find?, h.symm]
    · split
      · next hi => subst hi; simp [find?, h.symm]
      · simp [find?, ih]

@[simp] theorem find?_del_same (t : Tab α) (k : Nat) : find? (del t k) k = none := by
  induction t with
  | nil => rfl
  | cons e t ih =>
    obtain ⟨i, y⟩ := e
    unfold del
    split
    · exact ih
    · next h => simp [find?, h, ih]

@[simp] theorem find?_del_other (t : Tab α) {k j : Nat} (h : j ≠ k) : find? (del t k) j = find? t j := by
  induction t with
  | nil => rfl
  | cons e t ih =>
    obtain ⟨i, y⟩ := e
    unfold del
    split
    · next hi => subst hi; simp [find?, h.symm, ih]
    · simp [find?, ih]

@[simp] theorem get_put_same (t : Tab α) (d : α) (k : Nat) (x : α) : get (put t k x) d k = x := by simp [get]

@[simp] theorem get_put_other (t : Tab α) (d : α) {k j : Nat} (x : α) (h : j ≠ k) :
    get (put t k x) d j = get t d j := by simp [get, h]

/-- A read after a write of the same key gives the value written. -/
@[simp] theorem get_set_same [DecidableEq α] (t : Tab α) (d : α) (k : Nat) (x : α) : get (set t d k x) d k = x := by
  unfold set
  split
  · next h => simp [get, h]
  · simp

@[simp] theorem find?_set_other [DecidableEq α] (t : Tab α) (d : α) {k j : Nat} (x : α) (h : j ≠ k) :
    find? (set t d k x) j = find? t j := by
  unfold set
  split
  · simp [h]
  · simp [h]

/-- A write leaves every other key alone. -/
@[simp] theorem get_set_other [DecidableEq α] (t : Tab α) (d : α) {k j : Nat} (x : α) (h : j ≠ k) :
    get (set t d k x) d j = get t d j := by
  unfold set
  split
  · simp [get, h]
  · simp [h]

/-! ## The canonical form -/

theorem sortedFrom_mono : ∀ (t : Tab α) {m n : Nat}, m ≤ n → sortedFrom n t = true → sortedFrom m t = true
  | [], _, _, _, _ => rfl
  | (j, _) :: t, m, n, h, hs => by
    simp only [sortedFrom, Bool.and_eq_true, decide_eq_true_eq] at hs ⊢
    exact ⟨le_trans h hs.1, hs.2⟩

theorem sortedFrom_put : ∀ (t : Tab α) (n k : Nat) (x : α), n ≤ k → sortedFrom n t = true → sortedFrom n (put t k x) = true
  | [], n, k, x, h, _ => by simp [put, sortedFrom, h]
  | (j, y) :: t, n, k, x, h, hs => by
    simp only [sortedFrom, Bool.and_eq_true, decide_eq_true_eq] at hs
    unfold put
    split
    · next hk => simp [sortedFrom, h, Nat.succ_le_of_lt hk, hs.2]
    · split
      · next hk => subst hk; simp [sortedFrom, h, hs.2]
      · next h1 h2 =>
        have : j + 1 ≤ k := by omega
        simp [sortedFrom, hs.1, sortedFrom_put t (j + 1) k x this hs.2]

theorem sortedFrom_del : ∀ (t : Tab α) (n k : Nat), sortedFrom n t = true → sortedFrom n (del t k) = true
  | [], _, _, _ => rfl
  | (j, y) :: t, n, k, hs => by
    simp only [sortedFrom, Bool.and_eq_true, decide_eq_true_eq] at hs
    unfold del
    split
    · exact sortedFrom_mono _ (by omega) (sortedFrom_del t (j + 1) k hs.2)
    · simp [sortedFrom, hs.1, sortedFrom_del t (j + 1) k hs.2]

theorem mem_put : ∀ (t : Tab α) (k : Nat) (x : α) (e : Nat × α), e ∈ put t k x → e = (k, x) ∨ e ∈ t
  | [], k, x, e, h => by simp [put] at h; exact .inl h
  | (j, y) :: t, k, x, e, h => by
    unfold put at h
    split at h
    · simpa using h
    · split at h
      · rcases List.mem_cons.mp h with h | h
        · exact .inl h
        · exact .inr (List.mem_cons_of_mem _ h)
      · rcases List.mem_cons.mp h with h | h
        · exact .inr (h ▸ List.mem_cons_self)
        · exact (mem_put t k x e h).imp_right (List.mem_cons_of_mem _)

theorem mem_del : ∀ (t : Tab α) (k : Nat) (e : Nat × α), e ∈ del t k → e ∈ t
  | [], _, _, h => h
  | (j, y) :: t, k, e, h => by
    unfold del at h
    split at h
    · exact List.mem_cons_of_mem _ (mem_del t k e h)
    · rcases List.mem_cons.mp h with h | h
      · exact h ▸ List.mem_cons_self
      · exact List.mem_cons_of_mem _ (mem_del t k e h)

/-- A write keeps the canonical form. -/
theorem canon_set [DecidableEq α] (t : Tab α) (d : α) (k : Nat) (x : α) (h : canon d t = true) :
    canon d (set t d k x) = true := by
  simp only [canon, Bool.and_eq_true, List.all_eq_true, decide_eq_true_eq] at h ⊢
  unfold set
  split
  · exact ⟨sortedFrom_del t 0 k h.1, fun e he => h.2 e (mem_del t k e he)⟩
  · next hx =>
    refine ⟨sortedFrom_put t 0 k x (Nat.zero_le k) h.1, fun e he => ?_⟩
    rcases mem_put t k x e he with rfl | he
    · exact hx
    · exact h.2 e he

end Sys2Proof.Tabs
end

