-- ==== Sys2Proof/Laws/Lane.lean ====
section
/-! SUPPORT. What the named operations of a lane do to its threads, and that they leave the workgroup and the rest of the
machine alone. -/

namespace Sys2Proof.Machine

/-! ## Reading threads -/

theorem th_mk (w : Warp) (f : Nat → Thread) {t : Nat} (h : t < 32) :
    ({ w with thr := (List.range 32).map f } : Warp).th t = f t := by
  simp [Warp.th, h]

@[simp] theorem setTh_same (w : Warp) (x : Thread) {t : Nat} (h : t < 32) : (w.setTh t x).th t = x := by
  simp [Warp.setTh, Warp.th, h]

@[simp] theorem setTh_other (w : Warp) (x : Thread) {t u : Nat} (h : u < 32) (hu : u ≠ t) :
    (w.setTh t x).th u = w.th u := by
  simp only [Warp.setTh]; rw [th_mk w _ h]; simp [hu]

theorem batch_lt {w : Warp} {t : Nat} (h : t ∈ w.batch) : t < 32 := by
  unfold Warp.batch at h
  split at h
  · cases h
  · simp only [List.mem_filter, List.mem_range] at h; exact h.1

theorem batch_nodup (w : Warp) : w.batch.Nodup := by
  unfold Warp.batch
  split
  · exact List.nodup_nil
  · exact List.Nodup.filter _ List.nodup_range

theorem batch_runnable {w : Warp} {t : Nat} (h : t ∈ w.batch) : (w.th t).runnable = true ∧ (w.th t).pc = w.pc := by
  unfold Warp.batch at h
  split at h
  · cases h
  · next p hp =>
    simp only [List.mem_filter, List.mem_range, Bool.and_eq_true, beq_iff_eq] at h
    exact ⟨h.2.1, by rw [h.2.2, Warp.pc, hp]; rfl⟩

/-! ## The parts of a lane that the operations leave alone -/

section frame
variable (l : Lane)

@[simp] theorem lane_setTh_ref (t : Nat) (x : Thread) : (l.setTh t x).ref = l.ref := rfl
@[simp] theorem lane_setTh_wg (t : Nat) (x : Thread) : (l.setTh t x).wg = l.wg := rfl
@[simp] theorem lane_setTh_core (t : Nat) (x : Thread) : (l.setTh t x).core = l.core := rfl
@[simp] theorem lane_setTh_th (t : Nat) (x : Thread) : (l.setTh t x).w = l.w.setTh t x := rfl

@[simp] theorem advance_ref (ts : List Nat) (n : Nat) : (l.advance ts n).ref = l.ref := rfl
@[simp] theorem advance_wg (ts : List Nat) (n : Nat) : (l.advance ts n).wg = l.wg := rfl
@[simp] theorem advance_core (ts : List Nat) (n : Nat) : (l.advance ts n).core = l.core := rfl
@[simp] theorem settle_ref (ts : List Nat) : (l.settle ts).ref = l.ref := rfl
@[simp] theorem settle_wg (ts : List Nat) : (l.settle ts).wg = l.wg := rfl
@[simp] theorem settle_core (ts : List Nat) : (l.settle ts).core = l.core := rfl
@[simp] theorem endChain_ref : l.endChain.ref = l.ref := rfl
@[simp] theorem endChain_wg : l.endChain.wg = l.wg := rfl
@[simp] theorem endChain_core : l.endChain.core = l.core := rfl
@[simp] theorem shiftIdle_ref (ts : List Nat) : (l.shiftIdle ts).ref = l.ref := rfl
@[simp] theorem shiftIdle_wg (ts : List Nat) : (l.shiftIdle ts).wg = l.wg := rfl
@[simp] theorem shiftIdle_core (ts : List Nat) : (l.shiftIdle ts).core = l.core := rfl
@[simp] theorem moveTo_ref (ts : List Nat) (a : VAddr) : (l.moveTo ts a).ref = l.ref := rfl
@[simp] theorem moveTo_wg (ts : List Nat) (a : VAddr) : (l.moveTo ts a).wg = l.wg := rfl
@[simp] theorem discard_ref (n : Nat) : (l.discard n).ref = l.ref := rfl
@[simp] theorem discard_wg (n : Nat) : (l.discard n).wg = l.wg := rfl
@[simp] theorem discard_th (n t : Nat) : (l.discard n).w.th t = l.w.th t := rfl
@[simp] theorem unrelease_ref (ts : List Nat) : (l.unrelease ts).ref = l.ref := rfl
@[simp] theorem unrelease_wg (ts : List Nat) : (l.unrelease ts).wg = l.wg := rfl
@[simp] theorem parkAt_ref (t : Nat) (a : VAddr) (x : TState) : (l.parkAt t a x).ref = l.ref := rfl
@[simp] theorem parkAt_wg (t : Nat) (a : VAddr) (x : TState) : (l.parkAt t a x).wg = l.wg := rfl

@[simp] theorem nextChain_ref (c : Bool) : (l.nextChain c).ref = l.ref := by unfold Lane.nextChain; split <;> rfl
@[simp] theorem nextChain_wg (c : Bool) : (l.nextChain c).wg = l.wg := by unfold Lane.nextChain; split <;> rfl
@[simp] theorem nextChain_core (c : Bool) : (l.nextChain c).core = l.core := by unfold Lane.nextChain; split <;> rfl

@[simp] theorem memberCraze_ref (t : Nat) (p : Word) (b : Bool) (c : Nat) : (l.memberCraze t p b c).ref = l.ref := by
  unfold Lane.memberCraze; split <;> [rfl; (split <;> rfl)]
@[simp] theorem memberCraze_wg (t : Nat) (p : Word) (b : Bool) (c : Nat) : (l.memberCraze t p b c).wg = l.wg := by
  unfold Lane.memberCraze; split <;> [rfl; (split <;> rfl)]
@[simp] theorem memberCraze_core (t : Nat) (p : Word) (b : Bool) (c : Nat) : (l.memberCraze t p b c).core = l.core := by
  unfold Lane.memberCraze; split <;> [rfl; (split <;> rfl)]
@[simp] theorem memberCraze_th (t u : Nat) (p : Word) (b : Bool) (c : Nat) : (l.memberCraze t p b c).w.th u = l.w.th u := by
  unfold Lane.memberCraze; split <;> [rfl; (split <;> rfl)]

@[simp] theorem divert_ref (t : Nat) (p : Word) : (l.divert t p).ref = l.ref := rfl
@[simp] theorem divert_wg (t : Nat) (p : Word) : (l.divert t p).wg = l.wg := rfl
@[simp] theorem divert_core (t : Nat) (p : Word) : (l.divert t p).core = l.core := rfl

@[simp] theorem derail_ref (t : Nat) (p : Word) : (l.derail t p).ref = l.ref := by simp [Lane.derail]
@[simp] theorem derail_wg (t : Nat) (p : Word) : (l.derail t p).wg = l.wg := by simp [Lane.derail]
@[simp] theorem derail_core (t : Nat) (p : Word) : (l.derail t p).core = l.core := by simp [Lane.derail]

@[simp] theorem derailWith_ref (ts : List Nat) (p : Word) : (l.derailWith ts p).ref = l.ref := by
  unfold Lane.derailWith; induction ts generalizing l with
  | nil => rfl
  | cons t ts ih => simp [ih]
@[simp] theorem derailWith_wg (ts : List Nat) (p : Word) : (l.derailWith ts p).wg = l.wg := by
  unfold Lane.derailWith; induction ts generalizing l with
  | nil => rfl
  | cons t ts ih => simp [ih]
@[simp] theorem derailWith_core (ts : List Nat) (p : Word) : (l.derailWith ts p).core = l.core := by
  unfold Lane.derailWith; induction ts generalizing l with
  | nil => rfl
  | cons t ts ih => simp [ih]

@[simp] theorem originate_ref (c u t : Nat) (a : VAddr) (v : Option VAddr) (b : Bool) :
    (l.originate c u t a v b).1.ref = l.ref := rfl
@[simp] theorem originate_wg (c u t : Nat) (a : VAddr) (v : Option VAddr) (b : Bool) :
    (l.originate c u t a v b).1.wg = l.wg := rfl
@[simp] theorem originate_clock (c u t : Nat) (a : VAddr) (v : Option VAddr) (b : Bool) :
    (l.originate c u t a v b).1.clock = l.clock := rfl
@[simp] theorem originate_w (c u t : Nat) (a : VAddr) (v : Option VAddr) (b : Bool) :
    (l.originate c u t a v b).1.w = l.w := rfl

@[simp] theorem derailAll_ref (ts : List Nat) (a : VAddr) (c : Nat) (v : Option VAddr) :
    (l.derailAll ts a c v).ref = l.ref := by unfold Lane.derailAll; split <;> simp
@[simp] theorem derailAll_wg (ts : List Nat) (a : VAddr) (c : Nat) (v : Option VAddr) :
    (l.derailAll ts a c v).wg = l.wg := by unfold Lane.derailAll; split <;> simp

end frame

/-! ## What the operations do to the threads -/

theorem advance_th (l : Lane) (ts : List Nat) (n : Nat) {t : Nat} (h : t < 32) :
    (l.advance ts n).w.th t = if ts.contains t then
      { l.w.th t with pc := (l.w.th t).pc + BitVec.ofNat 57 n, st := .eligible, derailed := false } else l.w.th t := by
  simp only [Lane.advance]; exact th_mk _ _ h

theorem shiftIdle_th (l : Lane) (act : List Nat) {t : Nat} (h : t < 32) :
    (l.shiftIdle act).w.th t = if act.contains t then l.w.th t else (l.w.th t).shift none := by
  simp only [Lane.shiftIdle]; exact th_mk _ _ h

theorem endChain_th (l : Lane) (t : Nat) :
    l.endChain.w.th t = if t < l.w.thr.length then
      { l.w.th t with l0 := none, l1 := none, bad := (l.w.th t).bad.filter (fun k => Nat.ble k 255) } else l.w.th t := by
  simp only [Lane.endChain, Warp.th, List.getD_eq_getElem?_getD, List.getElem?_map]
  by_cases h : t < l.w.thr.length
  · simp [h]
  · simp [h]

/-- The registers, predicates, place and state of a thread, without its latches. -/
structure Thread.SameButLatches (x y : Thread) : Prop where
  pc : x.pc = y.pc
  st : x.st = y.st
  v : x.v = y.v
  p : x.p = y.p
  pt : x.pt = y.pt
  pp : x.pp = y.pp
  derailed : x.derailed = y.derailed

theorem Thread.SameButLatches.refl (x : Thread) : x.SameButLatches x := ⟨rfl, rfl, rfl, rfl, rfl, rfl, rfl⟩

theorem Thread.SameButLatches.trans {x y z : Thread} (h : x.SameButLatches y) (k : y.SameButLatches z) : x.SameButLatches z :=
  ⟨h.pc.trans k.pc, h.st.trans k.st, h.v.trans k.v, h.p.trans k.p, h.pt.trans k.pt, h.pp.trans k.pp,
   h.derailed.trans k.derailed⟩

theorem endChain_same (l : Lane) (t : Nat) : (l.endChain.w.th t).SameButLatches (l.w.th t) := by
  rw [endChain_th]; split <;> exact ⟨rfl, rfl, rfl, rfl, rfl, rfl, rfl⟩

theorem nextChain_same (l : Lane) (c : Bool) (t : Nat) : ((l.nextChain c).w.th t).SameButLatches (l.w.th t) := by
  unfold Lane.nextChain; split
  · exact .refl _
  · exact endChain_same l t

theorem shift_same (x : Thread) (r : Option TWord) : (x.shift r).SameButLatches x := ⟨rfl, rfl, rfl, rfl, rfl, rfl, rfl⟩

theorem shiftIdle_same (l : Lane) (act : List Nat) {t : Nat} (h : t < 32) :
    ((l.shiftIdle act).w.th t).SameButLatches (l.w.th t) := by
  rw [shiftIdle_th l act h]; split
  · exact .refl _
  · exact shift_same _ _

/-- A warp with a runnable thread releases nothing at convergence. -/
theorem converge_of_runnable (w : Warp) (h : w.thr.any Thread.runnable = true) : w.converge = w := by
  unfold Warp.converge
  rw [if_pos]
  rw [List.any_eq_true] at h ⊢
  obtain ⟨x, hx, hr⟩ := h
  refine ⟨x, hx, ?_⟩
  simp only [Thread.runnable, Bool.or_eq_true, beq_iff_eq] at hr
  rcases hr with hr | hr <;> simp [Thread.holdsBack, hr]

/-- After an instruction whose batch is `b` and which leaves a thread of `b` eligible, the threads of `b` that are not
yielded stay as they are. -/
theorem settle_th (l : Lane) (b : List Nat) {t u : Nat} (hu : u < 32)
    (hb : t < 32) (he : (l.w.th t).st = .eligible) :
    (l.settle b).w.th u = if (l.w.th u).st = .yielded ∧ u ∉ b then { l.w.th u with st := .eligible } else l.w.th u := by
  unfold Lane.settle
  have hany : (l.w.unyield b).thr.any Thread.runnable = true ∧
      (l.w.unyield b) = { l.w with thr := (List.range 32).map (fun t =>
        if (l.w.th t).st == .yielded && !b.contains t then { l.w.th t with st := .eligible } else l.w.th t) } := by
    have h1 : ({ l.w with thr := (List.range 32).map (fun t =>
        if (l.w.th t).st == .yielded && !b.contains t then { l.w.th t with st := .eligible } else l.w.th t) } : Warp).thr.any
          Thread.runnable = true := by
      rw [List.any_eq_true]
      refine ⟨_, List.mem_map.mpr ⟨t, List.mem_range.mpr hb, rfl⟩, ?_⟩
      simp [he, Thread.runnable]
    unfold Warp.unyield
    simp only [h1, if_true]
    exact ⟨trivial, trivial⟩
  simp only
  rw [converge_of_runnable _ hany.1, hany.2, th_mk _ _ hu]
  simp [Bool.and_eq_true]

/-! ## Operations that move threads and chains alone -/

/-- `m` differs from `l` in the threads of the warp and the length of its chain alone. -/
structure Lane.SameButFlow (m l : Lane) : Prop where
  lane : m = { l with w := m.w }
  warp : m.w = { l.w with thr := m.w.thr, chain := m.w.chain }

namespace Lane.SameButFlow

theorem refl (l : Lane) : l.SameButFlow l := ⟨rfl, rfl⟩

theorem trans {a b c : Lane} (h : a.SameButFlow b) (k : b.SameButFlow c) : a.SameButFlow c :=
  ⟨by rw [h.lane, k.lane], by rw [h.warp, k.warp]⟩

theorem ref {m l : Lane} (h : m.SameButFlow l) : m.ref = l.ref := by rw [h.lane]
theorem wg {m l : Lane} (h : m.SameButFlow l) : m.wg = l.wg := by rw [h.lane]
theorem core {m l : Lane} (h : m.SameButFlow l) : m.core = l.core := by rw [h.lane]
theorem clock {m l : Lane} (h : m.SameButFlow l) : m.clock = l.clock := by rw [h.lane]
theorem chainOff {m l : Lane} (h : m.SameButFlow l) : m.chainOff = l.chainOff := by rw [h.lane]
theorem scalars {m l : Lane} (h : m.SameButFlow l) : m.w.s = l.w.s := by rw [h.warp]
theorem region {m l : Lane} (h : m.SameButFlow l) : m.w.region = l.w.region := by rw [h.warp]

theorem setTh (l : Lane) (t : Nat) (x : Thread) : (l.setTh t x).SameButFlow l := ⟨rfl, rfl⟩
theorem advance (l : Lane) (ts : List Nat) (n : Nat) : (l.advance ts n).SameButFlow l := ⟨rfl, rfl⟩
theorem moveTo (l : Lane) (ts : List Nat) (a : VAddr) : (l.moveTo ts a).SameButFlow l := ⟨rfl, rfl⟩
theorem unrelease (l : Lane) (ts : List Nat) : (l.unrelease ts).SameButFlow l := ⟨rfl, rfl⟩
theorem parkAt (l : Lane) (t : Nat) (a : VAddr) (x : TState) : (l.parkAt t a x).SameButFlow l := ⟨rfl, rfl⟩
theorem shiftIdle (l : Lane) (act : List Nat) : (l.shiftIdle act).SameButFlow l := ⟨rfl, rfl⟩
theorem endChain (l : Lane) : l.endChain.SameButFlow l := ⟨rfl, rfl⟩
theorem nextChain (l : Lane) (c : Bool) : (l.nextChain c).SameButFlow l := by
  unfold Lane.nextChain; split
  · exact ⟨rfl, rfl⟩
  · exact endChain l
theorem divert (l : Lane) (t : Nat) (p : Word) : (l.divert t p).SameButFlow l := ⟨rfl, rfl⟩

theorem unyield_thr (w : Warp) (b : List Nat) : ∃ x, w.unyield b = { w with thr := x } := by
  simp only [Warp.unyield]; split <;> exact ⟨_, rfl⟩

theorem converge_thr (w : Warp) : ∃ x, w.converge = { w with thr := x } := by
  unfold Warp.converge; split
  · exact ⟨_, rfl⟩
  · split <;> exact ⟨_, rfl⟩

theorem settle (l : Lane) (b : List Nat) : (l.settle b).SameButFlow l := by
  obtain ⟨x, hx⟩ := unyield_thr l.w b
  obtain ⟨y, hy⟩ := converge_thr { l.w with thr := x }
  unfold Lane.settle
  rw [hx, hy]
  exact ⟨rfl, rfl⟩

theorem parkAll (l : Lane) (ts : List Nat) (a : VAddr) (p : Park) : (l.parkAll ts a p).SameButFlow l := by
  unfold Lane.parkAll; induction ts generalizing l with
  | nil => exact .refl l
  | cons t ts ih => exact (ih _).trans (parkAt l t a _)

end Lane.SameButFlow

end Sys2Proof.Machine
end

