-- ==== Sys2Proof/Laws/Alu.lean ====
section
/-! SUPPORT. What an instruction that computes on registers does to the threads of its warp: one lemma for the shape that
all of them share. -/

namespace Sys2Proof.Machine

open Sys2Proof.Claims

theorem scrub_nothing (l : Lane) (t : Nat) (pc : VAddr) (rs : List (Nat × Nat)) (h : (l.w.th t).bad = []) :
    l.scrub t pc rs = l := by simp [Lane.scrub, h]

theorem readSrc_sameScalars {v w : Warp} (h : v.s = w.s) (x : Thread) (lit : Word) (k : OKind) (a : Src) :
    readSrc v x lit k a = readSrc w x lit k a := by
  cases a <;> simp [readSrc, Warp.sreg, h]

theorem operands_sameScalars {v w : Warp} (h : v.s = w.s) (a : Alu) (x : Thread) (p : Word) :
    a.operands v x p = a.operands w x p := by
  simp only [Alu.operands, fun k b => readSrc_sameScalars h x a.lit k b]

/-- One active thread whose sources are readable: its result is written. -/
theorem alu_thread (a : Alu) (f : Thread → List DWord → DWord) (pc : VAddr) (l : Lane) (t : Nat)
    (hb : (l.w.th t).bad = []) (hr : (a.operands l.w (l.w.th t) 0).latch = false) :
    a.thread f pc l t = l.setTh t ((l.w.th t).putResult a.dst (f (l.w.th t) (a.operands l.w (l.w.th t) 0).vals)
      (a.operands l.w (l.w.th t) 0).crz) := by
  unfold Alu.thread
  simp only [scrub_nothing _ _ _ _ hb, hr, Bool.false_eq_true, if_false]

/-- The whole active set: each active thread takes its own result, the others stay as they are. -/
theorem alu_threads (a : Alu) (f : Thread → List DWord → DWord) (pc : VAddr) :
    ∀ (ts : List Nat) (l : Lane), ts.Nodup → (∀ t ∈ ts, t < 32) → (∀ t ∈ ts, (l.w.th t).bad = []) →
      (∀ t ∈ ts, (a.operands l.w (l.w.th t) 0).latch = false) →
      (ts.foldl (a.thread f pc) l).SameButFlow l ∧
      ∀ u < 32, (ts.foldl (a.thread f pc) l).w.th u =
        if u ∈ ts then (l.w.th u).putResult a.dst (f (l.w.th u) (a.operands l.w (l.w.th u) 0).vals)
          (a.operands l.w (l.w.th u) 0).crz else l.w.th u
  | [], l, _, _, _, _ => ⟨.refl l, fun u _ => by simp⟩
  | t :: ts, l, hn, hlt, hb, hr => by
    rw [List.nodup_cons] at hn
    have ht : t < 32 := hlt t List.mem_cons_self
    rw [List.foldl_cons, alu_thread a f pc l t (hb t List.mem_cons_self) (hr t List.mem_cons_self)]
    generalize hy : (l.w.th t).putResult a.dst _ _ = y
    have hs : (l.setTh t y).w.s = l.w.s := rfl
    have hth : ∀ u ∈ ts, (l.setTh t y).w.th u = l.w.th u := fun u hu => by
      have hne : u ≠ t := fun e => hn.1 (e ▸ hu)
      simpa using setTh_other l.w y (hlt u (List.mem_cons_of_mem _ hu)) hne
    obtain ⟨h1, h2⟩ := alu_threads a f pc ts (l.setTh t y) hn.2 (fun u hu => hlt u (List.mem_cons_of_mem _ hu))
      (fun u hu => by rw [hth u hu]; exact hb u (List.mem_cons_of_mem _ hu))
      (fun u hu => by rw [hth u hu, operands_sameScalars hs]; exact hr u (List.mem_cons_of_mem _ hu))
    refine ⟨h1.trans (.setTh l t y), fun u hu => ?_⟩
    rw [h2 u hu]
    by_cases hut : u = t
    · subst hut
      rw [if_neg hn.1, if_pos List.mem_cons_self, lane_setTh_th, setTh_same l.w y ht, hy]
    · by_cases hm : u ∈ ts
      · rw [if_pos hm, if_pos (List.mem_cons_of_mem _ hm), hth u hm, operands_sameScalars hs]
      · rw [if_neg hm, if_neg (by simp [hut, hm]), lane_setTh_th, setTh_other l.w y hu hut]

/-- What a register instruction leaves of thread `x`, before chains and yields: the result of an active thread, then
the program counter past the instruction. -/
def Alu.after (a : Alu) (f : Thread → List DWord → DWord) (w : Warp) (active : Bool) (x : Thread) : Thread :=
  let y := if active then x.putResult a.dst (f x (a.operands w x 0).vals) (a.operands w x 0).crz else x
  { y with pc := y.pc + BitVec.ofNat 57 a.size, st := .eligible, derailed := false }

theorem putResult_pc (x : Thread) (d : ADst) (v : DWord) (c : Option Word) : (x.putResult d v c).pc = x.pc := by
  unfold Thread.putResult
  split
  · simp only [Thread.shift]; split
    · unfold Thread.setV2; split <;> [rfl; (split <;> simp [Thread.setV] <;> split <;> (try split) <;> rfl)]
    · unfold Thread.setV1 Thread.setV; split <;> rfl
  · rfl
  · simp only [Thread.shift]; unfold Thread.setPred; split <;> [rfl; (split <;> rfl)]
  · rfl

theorem active_batch {l : Lane} {h : Hdr} {t : Nat} (ht : t ∈ active l h) : t ∈ l.w.batch := (List.mem_filter.mp ht).1

theorem active_nodup (l : Lane) (h : Hdr) : (active l h).Nodup := (batch_nodup l.w).filter _

/-- A register instruction whose form is sound, that no load holds back, and whose sources are readable: every thread of
the batch moves past it, and every active one takes its result. -/
theorem alu_run (a : Alu) (f : Thread → List DWord → DWord) (l : Lane)
    (hd : ∀ i w, a.dst ≠ .scal i w)
    (hready : l.w.ready (a.dst.regs ++ a.reads) = true) (hf : a.faulty l = false)
    (hb : ∀ t ∈ active l a.h, (l.w.th t).bad = [])
    (hr : ∀ t ∈ active l a.h, (a.operands l.w (l.w.th t) 0).latch = false)
    (hne : l.w.batch ≠ []) :
    (a.run f l).SameButFlow l ∧
    ∀ u < 32, ((a.run f l).w.th u).SameButLatches
      (if u ∈ l.w.batch then a.after f l.w (decide (u ∈ active l a.h)) (l.w.th u)
       else if (l.w.th u).st = .yielded then { l.w.th u with st := .eligible } else l.w.th u) := by
  obtain ⟨t0, ht0⟩ := List.exists_mem_of_ne_nil _ hne
  have hfold := alu_threads a f l.w.pc (active l a.h) l (active_nodup l a.h)
    (fun t ht => batch_lt (active_batch ht)) hb hr
  obtain ⟨hsame, hth⟩ := hfold
  have hrun : a.run f l = ((((active l a.h).foldl (a.thread f l.w.pc) l).shiftIdle (active l a.h)).advance l.w.batch a.size
      |>.nextChain a.h.chain).settle l.w.batch := by
    unfold Alu.run active
    simp only [hready, hf, Bool.not_true, Bool.and_false, Bool.false_eq_true, if_false]
  rw [hrun]
  generalize hl0 : (active l a.h).foldl (a.thread f l.w.pc) l = l0 at hsame hth ⊢
  refine ⟨(Lane.SameButFlow.settle _ _).trans ((Lane.SameButFlow.nextChain _ _).trans
    ((Lane.SameButFlow.advance _ _ _).trans ((Lane.SameButFlow.shiftIdle _ _).trans hsame))), fun u hu => ?_⟩
  generalize hl2 : ((l0.shiftIdle (active l a.h)).advance l.w.batch a.size).nextChain a.h.chain = l2
  have key : ∀ u < 32, (l2.w.th u).SameButLatches
      (if u ∈ l.w.batch then a.after f l.w (decide (u ∈ active l a.h)) (l.w.th u) else l.w.th u) := by
    intro u hu
    rw [← hl2]
    refine (nextChain_same _ _ u).trans ?_
    rw [advance_th _ _ _ hu]
    have hs := shiftIdle_same l0 (active l a.h) hu
    rw [hth u hu] at hs
    by_cases hm : u ∈ l.w.batch
    · simp only [List.contains_eq_mem, hm, decide_true, if_true, Alu.after]
      by_cases ha : u ∈ active l a.h
      · simp only [ha, if_true, decide_true] at hs ⊢
        exact ⟨by simp [hs.pc], rfl, hs.v, hs.p, hs.pt, hs.pp, rfl⟩
      · simp only [ha, if_false, decide_false] at hs ⊢
        exact ⟨by simp [hs.pc], rfl, hs.v, hs.p, hs.pt, hs.pp, rfl⟩
    · have ha : u ∉ active l a.h := fun h => hm (active_batch h)
      simp only [List.contains_eq_mem, hm, decide_false, if_false, ha] at hs ⊢
      exact hs
  have ht0' := batch_lt ht0
  have hst0 : (l2.w.th t0).st = .eligible := by
    rw [(key t0 ht0').st]; simp [ht0, Alu.after]
  rw [settle_th l2 l.w.batch hu ht0' hst0]
  have hk := key u hu
  by_cases hm : u ∈ l.w.batch
  · simp only [hm, not_true, and_false, if_false, if_true] at hk ⊢
    exact hk
  · simp only [hm, not_false_eq_true, and_true, if_false] at hk ⊢
    rw [hk.st]
    split
    · exact ⟨hk.pc, rfl, hk.v, hk.p, hk.pt, hk.pp, hk.derailed⟩
    · exact hk

end Sys2Proof.Machine
end

