-- ==== Sys2Proof/Laws/State.lean ====
section
/-! SUPPORT. The laws of the state: one lemma per field per update, and what is found after an update. -/

namespace Sys2Proof.Machine

/-! ## `wr` -/

section
variable (s : State) (o : Nat) (v : DWord)
@[simp] theorem wr_agenda : (s.wr o v).agenda = s.agenda := rfl
@[simp] theorem wr_cur : (s.wr o v).cur = s.cur := rfl
@[simp] theorem wr_lastIssue : (s.wr o v).lastIssue = s.lastIssue := rfl
@[simp] theorem wr_freeCtr : (s.wr o v).freeCtr = s.freeCtr := rfl
@[simp] theorem wr_clock : (s.wr o v).clock = s.clock := rfl
@[simp] theorem wr_mem : (s.wr o v).mem = s.mem := rfl
@[simp] theorem wr_keyEpoch : (s.wr o v).keyEpoch = s.keyEpoch := rfl
@[simp] theorem wr_ctls : (s.wr o v).ctls = s.ctls := rfl
@[simp] theorem wr_cores : (s.wr o v).cores = s.cores := rfl
@[simp] theorem wr_wgs : (s.wr o v).wgs = s.wgs := rfl
@[simp] theorem wr_nextWg : (s.wr o v).nextWg = s.nextWg := rfl
@[simp] theorem wr_releasing : (s.wr o v).releasing = s.releasing := rfl
@[simp] theorem wr_flt : (s.wr o v).flt = s.flt := rfl
@[simp] theorem wr_llt : (s.wr o v).llt = s.llt := rfl
@[simp] theorem wr_vfr : (s.wr o v).vfr = s.vfr := rfl
@[simp] theorem wr_irqs : (s.wr o v).irqs = s.irqs := rfl
@[simp] theorem wr_dcbs : (s.wr o v).dcbs = s.dcbs := rfl
@[simp] theorem wr_inForce : (s.wr o v).inForce = s.inForce := rfl
@[simp] theorem wr_errs : (s.wr o v).errs = s.errs := rfl
@[simp] theorem wr_images : (s.wr o v).images = s.images := rfl
@[simp] theorem wr_mismatches : (s.wr o v).mismatches = s.mismatches := rfl
@[simp] theorem wr_groups : (s.wr o v).groups = s.groups := rfl
@[simp] theorem wr_shelf : (s.wr o v).shelf = s.shelf := rfl
@[simp] theorem wr_nextShelf : (s.wr o v).nextShelf = s.nextShelf := rfl
@[simp] theorem wr_colls : (s.wr o v).colls = s.colls := rfl
@[simp] theorem wr_nextColl : (s.wr o v).nextColl = s.nextColl := rfl
@[simp] theorem wr_sweepHead : (s.wr o v).sweepHead = s.sweepHead := rfl
@[simp] theorem wr_up : (s.wr o v).up = s.up := rfl
@[simp] theorem wr_nodes : (s.wr o v).nodes = s.nodes := rfl
@[simp] theorem wr_nextReady : (s.wr o v).nextReady = s.nextReady := rfl
@[simp] theorem wr_binds : (s.wr o v).binds = s.binds := rfl
@[simp] theorem wr_bindq : (s.wr o v).bindq = s.bindq := rfl
@[simp] theorem wr_leaving : (s.wr o v).leaving = s.leaving := rfl
@[simp] theorem wr_stops : (s.wr o v).stops = s.stops := rfl
@[simp] theorem wr_nextStop : (s.wr o v).nextStop = s.nextStop := rfl
@[simp] theorem wr_chans : (s.wr o v).chans = s.chans := rfl
@[simp] theorem wr_scb : (s.wr o v).scb = s.scb := rfl
@[simp] theorem wr_nextScb : (s.wr o v).nextScb = s.nextScb := rfl
@[simp] theorem wr_sweeps : (s.wr o v).sweeps = s.sweeps := rfl
@[simp] theorem wr_upAt : (s.wr o v).upAt = s.upAt := rfl
@[simp] theorem wr_passAt : (s.wr o v).passAt = s.passAt := rfl
@[simp] theorem wr_lost : (s.wr o v).lost = s.lost := rfl
@[simp] theorem wr_bisque : (s.wr o v).bisque = s.bisque := rfl
@[simp] theorem wr_taints : (s.wr o v).taints = s.taints := rfl
@[simp] theorem wr_glazes : (s.wr o v).glazes = s.glazes := rfl
@[simp] theorem wr_nextGlaze : (s.wr o v).nextGlaze = s.nextGlaze := rfl
@[simp] theorem wr_gimages : (s.wr o v).gimages = s.gimages := rfl
@[simp] theorem wr_spdm : (s.wr o v).spdm = s.spdm := rfl
@[simp] theorem wr_tdiStops : (s.wr o v).tdiStops = s.tdiStops := rfl
@[simp] theorem wr_reports : (s.wr o v).reports = s.reports := rfl
@[simp] theorem wr_reads : (s.wr o v).reads = s.reads := rfl
@[simp] theorem wr_remote : (s.wr o v).remote = s.remote := rfl
@[simp] theorem wr_remSeq : (s.wr o v).remSeq = s.remSeq := rfl
@[simp] theorem wr_portFails : (s.wr o v).portFails = s.portFails := rfl
@[simp] theorem wr_linksDown : (s.wr o v).linksDown = s.linksDown := rfl
@[simp] theorem wr_pauses : (s.wr o v).pauses = s.pauses := rfl
@[simp] theorem wr_hot : (s.wr o v).hot = s.hot := rfl
@[simp] theorem wr_aged : (s.wr o v).aged = s.aged := rfl
@[simp] theorem wr_powerOff : (s.wr o v).powerOff = s.powerOff := rfl
end

/-! ## `vwr` -/

section
variable (s : State) (n : BitVec 8) (o : Nat) (v : DWord)
@[simp] theorem vwr_agenda : (s.vwr n o v).agenda = s.agenda := rfl
@[simp] theorem vwr_cur : (s.vwr n o v).cur = s.cur := rfl
@[simp] theorem vwr_lastIssue : (s.vwr n o v).lastIssue = s.lastIssue := rfl
@[simp] theorem vwr_freeCtr : (s.vwr n o v).freeCtr = s.freeCtr := rfl
@[simp] theorem vwr_clock : (s.vwr n o v).clock = s.clock := rfl
@[simp] theorem vwr_mem : (s.vwr n o v).mem = s.mem := rfl
@[simp] theorem vwr_keyEpoch : (s.vwr n o v).keyEpoch = s.keyEpoch := rfl
@[simp] theorem vwr_ctls : (s.vwr n o v).ctls = s.ctls := rfl
@[simp] theorem vwr_cores : (s.vwr n o v).cores = s.cores := rfl
@[simp] theorem vwr_wgs : (s.vwr n o v).wgs = s.wgs := rfl
@[simp] theorem vwr_nextWg : (s.vwr n o v).nextWg = s.nextWg := rfl
@[simp] theorem vwr_releasing : (s.vwr n o v).releasing = s.releasing := rfl
@[simp] theorem vwr_flt : (s.vwr n o v).flt = s.flt := rfl
@[simp] theorem vwr_llt : (s.vwr n o v).llt = s.llt := rfl
@[simp] theorem vwr_pf : (s.vwr n o v).pf = s.pf := rfl
@[simp] theorem vwr_irqs : (s.vwr n o v).irqs = s.irqs := rfl
@[simp] theorem vwr_dcbs : (s.vwr n o v).dcbs = s.dcbs := rfl
@[simp] theorem vwr_inForce : (s.vwr n o v).inForce = s.inForce := rfl
@[simp] theorem vwr_errs : (s.vwr n o v).errs = s.errs := rfl
@[simp] theorem vwr_images : (s.vwr n o v).images = s.images := rfl
@[simp] theorem vwr_mismatches : (s.vwr n o v).mismatches = s.mismatches := rfl
@[simp] theorem vwr_groups : (s.vwr n o v).groups = s.groups := rfl
@[simp] theorem vwr_shelf : (s.vwr n o v).shelf = s.shelf := rfl
@[simp] theorem vwr_nextShelf : (s.vwr n o v).nextShelf = s.nextShelf := rfl
@[simp] theorem vwr_colls : (s.vwr n o v).colls = s.colls := rfl
@[simp] theorem vwr_nextColl : (s.vwr n o v).nextColl = s.nextColl := rfl
@[simp] theorem vwr_sweepHead : (s.vwr n o v).sweepHead = s.sweepHead := rfl
@[simp] theorem vwr_up : (s.vwr n o v).up = s.up := rfl
@[simp] theorem vwr_nodes : (s.vwr n o v).nodes = s.nodes := rfl
@[simp] theorem vwr_nextReady : (s.vwr n o v).nextReady = s.nextReady := rfl
@[simp] theorem vwr_binds : (s.vwr n o v).binds = s.binds := rfl
@[simp] theorem vwr_bindq : (s.vwr n o v).bindq = s.bindq := rfl
@[simp] theorem vwr_leaving : (s.vwr n o v).leaving = s.leaving := rfl
@[simp] theorem vwr_stops : (s.vwr n o v).stops = s.stops := rfl
@[simp] theorem vwr_nextStop : (s.vwr n o v).nextStop = s.nextStop := rfl
@[simp] theorem vwr_chans : (s.vwr n o v).chans = s.chans := rfl
@[simp] theorem vwr_scb : (s.vwr n o v).scb = s.scb := rfl
@[simp] theorem vwr_nextScb : (s.vwr n o v).nextScb = s.nextScb := rfl
@[simp] theorem vwr_sweeps : (s.vwr n o v).sweeps = s.sweeps := rfl
@[simp] theorem vwr_upAt : (s.vwr n o v).upAt = s.upAt := rfl
@[simp] theorem vwr_passAt : (s.vwr n o v).passAt = s.passAt := rfl
@[simp] theorem vwr_lost : (s.vwr n o v).lost = s.lost := rfl
@[simp] theorem vwr_bisque : (s.vwr n o v).bisque = s.bisque := rfl
@[simp] theorem vwr_taints : (s.vwr n o v).taints = s.taints := rfl
@[simp] theorem vwr_glazes : (s.vwr n o v).glazes = s.glazes := rfl
@[simp] theorem vwr_nextGlaze : (s.vwr n o v).nextGlaze = s.nextGlaze := rfl
@[simp] theorem vwr_gimages : (s.vwr n o v).gimages = s.gimages := rfl
@[simp] theorem vwr_spdm : (s.vwr n o v).spdm = s.spdm := rfl
@[simp] theorem vwr_tdiStops : (s.vwr n o v).tdiStops = s.tdiStops := rfl
@[simp] theorem vwr_reports : (s.vwr n o v).reports = s.reports := rfl
@[simp] theorem vwr_reads : (s.vwr n o v).reads = s.reads := rfl
@[simp] theorem vwr_remote : (s.vwr n o v).remote = s.remote := rfl
@[simp] theorem vwr_remSeq : (s.vwr n o v).remSeq = s.remSeq := rfl
@[simp] theorem vwr_portFails : (s.vwr n o v).portFails = s.portFails := rfl
@[simp] theorem vwr_linksDown : (s.vwr n o v).linksDown = s.linksDown := rfl
@[simp] theorem vwr_pauses : (s.vwr n o v).pauses = s.pauses := rfl
@[simp] theorem vwr_hot : (s.vwr n o v).hot = s.hot := rfl
@[simp] theorem vwr_aged : (s.vwr n o v).aged = s.aged := rfl
@[simp] theorem vwr_powerOff : (s.vwr n o v).powerOff = s.powerOff := rfl
end

/-! ## `setCore` -/

section
variable (s : State) (c : Nat) (k : Core)
@[simp] theorem setCore_agenda : (s.setCore c k).agenda = s.agenda := rfl
@[simp] theorem setCore_cur : (s.setCore c k).cur = s.cur := rfl
@[simp] theorem setCore_lastIssue : (s.setCore c k).lastIssue = s.lastIssue := rfl
@[simp] theorem setCore_freeCtr : (s.setCore c k).freeCtr = s.freeCtr := rfl
@[simp] theorem setCore_clock : (s.setCore c k).clock = s.clock := rfl
@[simp] theorem setCore_mem : (s.setCore c k).mem = s.mem := rfl
@[simp] theorem setCore_keyEpoch : (s.setCore c k).keyEpoch = s.keyEpoch := rfl
@[simp] theorem setCore_ctls : (s.setCore c k).ctls = s.ctls := rfl
@[simp] theorem setCore_wgs : (s.setCore c k).wgs = s.wgs := rfl
@[simp] theorem setCore_nextWg : (s.setCore c k).nextWg = s.nextWg := rfl
@[simp] theorem setCore_releasing : (s.setCore c k).releasing = s.releasing := rfl
@[simp] theorem setCore_flt : (s.setCore c k).flt = s.flt := rfl
@[simp] theorem setCore_llt : (s.setCore c k).llt = s.llt := rfl
@[simp] theorem setCore_pf : (s.setCore c k).pf = s.pf := rfl
@[simp] theorem setCore_vfr : (s.setCore c k).vfr = s.vfr := rfl
@[simp] theorem setCore_irqs : (s.setCore c k).irqs = s.irqs := rfl
@[simp] theorem setCore_dcbs : (s.setCore c k).dcbs = s.dcbs := rfl
@[simp] theorem setCore_inForce : (s.setCore c k).inForce = s.inForce := rfl
@[simp] theorem setCore_errs : (s.setCore c k).errs = s.errs := rfl
@[simp] theorem setCore_images : (s.setCore c k).images = s.images := rfl
@[simp] theorem setCore_mismatches : (s.setCore c k).mismatches = s.mismatches := rfl
@[simp] theorem setCore_groups : (s.setCore c k).groups = s.groups := rfl
@[simp] theorem setCore_shelf : (s.setCore c k).shelf = s.shelf := rfl
@[simp] theorem setCore_nextShelf : (s.setCore c k).nextShelf = s.nextShelf := rfl
@[simp] theorem setCore_colls : (s.setCore c k).colls = s.colls := rfl
@[simp] theorem setCore_nextColl : (s.setCore c k).nextColl = s.nextColl := rfl
@[simp] theorem setCore_sweepHead : (s.setCore c k).sweepHead = s.sweepHead := rfl
@[simp] theorem setCore_up : (s.setCore c k).up = s.up := rfl
@[simp] theorem setCore_nodes : (s.setCore c k).nodes = s.nodes := rfl
@[simp] theorem setCore_nextReady : (s.setCore c k).nextReady = s.nextReady := rfl
@[simp] theorem setCore_binds : (s.setCore c k).binds = s.binds := rfl
@[simp] theorem setCore_bindq : (s.setCore c k).bindq = s.bindq := rfl
@[simp] theorem setCore_leaving : (s.setCore c k).leaving = s.leaving := rfl
@[simp] theorem setCore_stops : (s.setCore c k).stops = s.stops := rfl
@[simp] theorem setCore_nextStop : (s.setCore c k).nextStop = s.nextStop := rfl
@[simp] theorem setCore_chans : (s.setCore c k).chans = s.chans := rfl
@[simp] theorem setCore_scb : (s.setCore c k).scb = s.scb := rfl
@[simp] theorem setCore_nextScb : (s.setCore c k).nextScb = s.nextScb := rfl
@[simp] theorem setCore_sweeps : (s.setCore c k).sweeps = s.sweeps := rfl
@[simp] theorem setCore_upAt : (s.setCore c k).upAt = s.upAt := rfl
@[simp] theorem setCore_passAt : (s.setCore c k).passAt = s.passAt := rfl
@[simp] theorem setCore_lost : (s.setCore c k).lost = s.lost := rfl
@[simp] theorem setCore_bisque : (s.setCore c k).bisque = s.bisque := rfl
@[simp] theorem setCore_taints : (s.setCore c k).taints = s.taints := rfl
@[simp] theorem setCore_glazes : (s.setCore c k).glazes = s.glazes := rfl
@[simp] theorem setCore_nextGlaze : (s.setCore c k).nextGlaze = s.nextGlaze := rfl
@[simp] theorem setCore_gimages : (s.setCore c k).gimages = s.gimages := rfl
@[simp] theorem setCore_spdm : (s.setCore c k).spdm = s.spdm := rfl
@[simp] theorem setCore_tdiStops : (s.setCore c k).tdiStops = s.tdiStops := rfl
@[simp] theorem setCore_reports : (s.setCore c k).reports = s.reports := rfl
@[simp] theorem setCore_reads : (s.setCore c k).reads = s.reads := rfl
@[simp] theorem setCore_remote : (s.setCore c k).remote = s.remote := rfl
@[simp] theorem setCore_remSeq : (s.setCore c k).remSeq = s.remSeq := rfl
@[simp] theorem setCore_portFails : (s.setCore c k).portFails = s.portFails := rfl
@[simp] theorem setCore_linksDown : (s.setCore c k).linksDown = s.linksDown := rfl
@[simp] theorem setCore_pauses : (s.setCore c k).pauses = s.pauses := rfl
@[simp] theorem setCore_hot : (s.setCore c k).hot = s.hot := rfl
@[simp] theorem setCore_aged : (s.setCore c k).aged = s.aged := rfl
@[simp] theorem setCore_powerOff : (s.setCore c k).powerOff = s.powerOff := rfl
end

/-! ## `setWg` -/

section
variable (s : State) (n : Nat) (g : Wg)
@[simp] theorem setWg_agenda : (s.setWg n g).agenda = s.agenda := rfl
@[simp] theorem setWg_cur : (s.setWg n g).cur = s.cur := rfl
@[simp] theorem setWg_lastIssue : (s.setWg n g).lastIssue = s.lastIssue := rfl
@[simp] theorem setWg_freeCtr : (s.setWg n g).freeCtr = s.freeCtr := rfl
@[simp] theorem setWg_clock : (s.setWg n g).clock = s.clock := rfl
@[simp] theorem setWg_mem : (s.setWg n g).mem = s.mem := rfl
@[simp] theorem setWg_keyEpoch : (s.setWg n g).keyEpoch = s.keyEpoch := rfl
@[simp] theorem setWg_ctls : (s.setWg n g).ctls = s.ctls := rfl
@[simp] theorem setWg_cores : (s.setWg n g).cores = s.cores := rfl
@[simp] theorem setWg_nextWg : (s.setWg n g).nextWg = s.nextWg := rfl
@[simp] theorem setWg_releasing : (s.setWg n g).releasing = s.releasing := rfl
@[simp] theorem setWg_flt : (s.setWg n g).flt = s.flt := rfl
@[simp] theorem setWg_llt : (s.setWg n g).llt = s.llt := rfl
@[simp] theorem setWg_pf : (s.setWg n g).pf = s.pf := rfl
@[simp] theorem setWg_vfr : (s.setWg n g).vfr = s.vfr := rfl
@[simp] theorem setWg_irqs : (s.setWg n g).irqs = s.irqs := rfl
@[simp] theorem setWg_dcbs : (s.setWg n g).dcbs = s.dcbs := rfl
@[simp] theorem setWg_inForce : (s.setWg n g).inForce = s.inForce := rfl
@[simp] theorem setWg_errs : (s.setWg n g).errs = s.errs := rfl
@[simp] theorem setWg_images : (s.setWg n g).images = s.images := rfl
@[simp] theorem setWg_mismatches : (s.setWg n g).mismatches = s.mismatches := rfl
@[simp] theorem setWg_groups : (s.setWg n g).groups = s.groups := rfl
@[simp] theorem setWg_shelf : (s.setWg n g).shelf = s.shelf := rfl
@[simp] theorem setWg_nextShelf : (s.setWg n g).nextShelf = s.nextShelf := rfl
@[simp] theorem setWg_colls : (s.setWg n g).colls = s.colls := rfl
@[simp] theorem setWg_nextColl : (s.setWg n g).nextColl = s.nextColl := rfl
@[simp] theorem setWg_sweepHead : (s.setWg n g).sweepHead = s.sweepHead := rfl
@[simp] theorem setWg_up : (s.setWg n g).up = s.up := rfl
@[simp] theorem setWg_nodes : (s.setWg n g).nodes = s.nodes := rfl
@[simp] theorem setWg_nextReady : (s.setWg n g).nextReady = s.nextReady := rfl
@[simp] theorem setWg_binds : (s.setWg n g).binds = s.binds := rfl
@[simp] theorem setWg_bindq : (s.setWg n g).bindq = s.bindq := rfl
@[simp] theorem setWg_leaving : (s.setWg n g).leaving = s.leaving := rfl
@[simp] theorem setWg_stops : (s.setWg n g).stops = s.stops := rfl
@[simp] theorem setWg_nextStop : (s.setWg n g).nextStop = s.nextStop := rfl
@[simp] theorem setWg_chans : (s.setWg n g).chans = s.chans := rfl
@[simp] theorem setWg_scb : (s.setWg n g).scb = s.scb := rfl
@[simp] theorem setWg_nextScb : (s.setWg n g).nextScb = s.nextScb := rfl
@[simp] theorem setWg_sweeps : (s.setWg n g).sweeps = s.sweeps := rfl
@[simp] theorem setWg_upAt : (s.setWg n g).upAt = s.upAt := rfl
@[simp] theorem setWg_passAt : (s.setWg n g).passAt = s.passAt := rfl
@[simp] theorem setWg_lost : (s.setWg n g).lost = s.lost := rfl
@[simp] theorem setWg_bisque : (s.setWg n g).bisque = s.bisque := rfl
@[simp] theorem setWg_taints : (s.setWg n g).taints = s.taints := rfl
@[simp] theorem setWg_glazes : (s.setWg n g).glazes = s.glazes := rfl
@[simp] theorem setWg_nextGlaze : (s.setWg n g).nextGlaze = s.nextGlaze := rfl
@[simp] theorem setWg_gimages : (s.setWg n g).gimages = s.gimages := rfl
@[simp] theorem setWg_spdm : (s.setWg n g).spdm = s.spdm := rfl
@[simp] theorem setWg_tdiStops : (s.setWg n g).tdiStops = s.tdiStops := rfl
@[simp] theorem setWg_reports : (s.setWg n g).reports = s.reports := rfl
@[simp] theorem setWg_reads : (s.setWg n g).reads = s.reads := rfl
@[simp] theorem setWg_remote : (s.setWg n g).remote = s.remote := rfl
@[simp] theorem setWg_remSeq : (s.setWg n g).remSeq = s.remSeq := rfl
@[simp] theorem setWg_portFails : (s.setWg n g).portFails = s.portFails := rfl
@[simp] theorem setWg_linksDown : (s.setWg n g).linksDown = s.linksDown := rfl
@[simp] theorem setWg_pauses : (s.setWg n g).pauses = s.pauses := rfl
@[simp] theorem setWg_hot : (s.setWg n g).hot = s.hot := rfl
@[simp] theorem setWg_aged : (s.setWg n g).aged = s.aged := rfl
@[simp] theorem setWg_powerOff : (s.setWg n g).powerOff = s.powerOff := rfl
end

/-! ## `putLane` -/

section
variable (s : State) (l : Lane)
@[simp] theorem putLane_agenda : (s.putLane l).agenda = s.agenda := rfl
@[simp] theorem putLane_cur : (s.putLane l).cur = s.cur := rfl
@[simp] theorem putLane_lastIssue : (s.putLane l).lastIssue = s.lastIssue := rfl
@[simp] theorem putLane_freeCtr : (s.putLane l).freeCtr = s.freeCtr := rfl
@[simp] theorem putLane_clock : (s.putLane l).clock = s.clock := rfl
@[simp] theorem putLane_mem : (s.putLane l).mem = s.mem := rfl
@[simp] theorem putLane_keyEpoch : (s.putLane l).keyEpoch = s.keyEpoch := rfl
@[simp] theorem putLane_ctls : (s.putLane l).ctls = s.ctls := rfl
@[simp] theorem putLane_nextWg : (s.putLane l).nextWg = s.nextWg := rfl
@[simp] theorem putLane_releasing : (s.putLane l).releasing = s.releasing := rfl
@[simp] theorem putLane_flt : (s.putLane l).flt = s.flt := rfl
@[simp] theorem putLane_llt : (s.putLane l).llt = s.llt := rfl
@[simp] theorem putLane_pf : (s.putLane l).pf = s.pf := rfl
@[simp] theorem putLane_vfr : (s.putLane l).vfr = s.vfr := rfl
@[simp] theorem putLane_irqs : (s.putLane l).irqs = s.irqs := rfl
@[simp] theorem putLane_dcbs : (s.putLane l).dcbs = s.dcbs := rfl
@[simp] theorem putLane_inForce : (s.putLane l).inForce = s.inForce := rfl
@[simp] theorem putLane_errs : (s.putLane l).errs = s.errs := rfl
@[simp] theorem putLane_images : (s.putLane l).images = s.images := rfl
@[simp] theorem putLane_mismatches : (s.putLane l).mismatches = s.mismatches := rfl
@[simp] theorem putLane_groups : (s.putLane l).groups = s.groups := rfl
@[simp] theorem putLane_shelf : (s.putLane l).shelf = s.shelf := rfl
@[simp] theorem putLane_nextShelf : (s.putLane l).nextShelf = s.nextShelf := rfl
@[simp] theorem putLane_colls : (s.putLane l).colls = s.colls := rfl
@[simp] theorem putLane_nextColl : (s.putLane l).nextColl = s.nextColl := rfl
@[simp] theorem putLane_sweepHead : (s.putLane l).sweepHead = s.sweepHead := rfl
@[simp] theorem putLane_up : (s.putLane l).up = s.up := rfl
@[simp] theorem putLane_nodes : (s.putLane l).nodes = s.nodes := rfl
@[simp] theorem putLane_nextReady : (s.putLane l).nextReady = s.nextReady := rfl
@[simp] theorem putLane_binds : (s.putLane l).binds = s.binds := rfl
@[simp] theorem putLane_bindq : (s.putLane l).bindq = s.bindq := rfl
@[simp] theorem putLane_leaving : (s.putLane l).leaving = s.leaving := rfl
@[simp] theorem putLane_stops : (s.putLane l).stops = s.stops := rfl
@[simp] theorem putLane_nextStop : (s.putLane l).nextStop = s.nextStop := rfl
@[simp] theorem putLane_chans : (s.putLane l).chans = s.chans := rfl
@[simp] theorem putLane_scb : (s.putLane l).scb = s.scb := rfl
@[simp] theorem putLane_nextScb : (s.putLane l).nextScb = s.nextScb := rfl
@[simp] theorem putLane_sweeps : (s.putLane l).sweeps = s.sweeps := rfl
@[simp] theorem putLane_upAt : (s.putLane l).upAt = s.upAt := rfl
@[simp] theorem putLane_passAt : (s.putLane l).passAt = s.passAt := rfl
@[simp] theorem putLane_lost : (s.putLane l).lost = s.lost := rfl
@[simp] theorem putLane_bisque : (s.putLane l).bisque = s.bisque := rfl
@[simp] theorem putLane_taints : (s.putLane l).taints = s.taints := rfl
@[simp] theorem putLane_glazes : (s.putLane l).glazes = s.glazes := rfl
@[simp] theorem putLane_nextGlaze : (s.putLane l).nextGlaze = s.nextGlaze := rfl
@[simp] theorem putLane_gimages : (s.putLane l).gimages = s.gimages := rfl
@[simp] theorem putLane_spdm : (s.putLane l).spdm = s.spdm := rfl
@[simp] theorem putLane_tdiStops : (s.putLane l).tdiStops = s.tdiStops := rfl
@[simp] theorem putLane_reports : (s.putLane l).reports = s.reports := rfl
@[simp] theorem putLane_reads : (s.putLane l).reads = s.reads := rfl
@[simp] theorem putLane_remote : (s.putLane l).remote = s.remote := rfl
@[simp] theorem putLane_remSeq : (s.putLane l).remSeq = s.remSeq := rfl
@[simp] theorem putLane_portFails : (s.putLane l).portFails = s.portFails := rfl
@[simp] theorem putLane_linksDown : (s.putLane l).linksDown = s.linksDown := rfl
@[simp] theorem putLane_pauses : (s.putLane l).pauses = s.pauses := rfl
@[simp] theorem putLane_hot : (s.putLane l).hot = s.hot := rfl
@[simp] theorem putLane_aged : (s.putLane l).aged = s.aged := rfl
@[simp] theorem putLane_powerOff : (s.putLane l).powerOff = s.powerOff := rfl
end

/-! ## Registers -/

@[simp] theorem rd_wr_same (s : State) (o : Nat) (v : DWord) : (s.wr o v).rd o = v := by simp [State.rd, State.wr]

@[simp] theorem rd_wr_other (s : State) (v : DWord) {o p : Nat} (h : p ≠ o) : (s.wr o v).rd p = s.rd p := by
  simp [State.rd, State.wr, Tabs.get, h]

@[simp] theorem vrd_vwr_same (s : State) (n : BitVec 8) (o : Nat) (v : DWord) : (s.vwr n o v).vrd n o = v := by
  simp [State.vrd, State.vwr]

@[simp] theorem vrd_vwr_other (s : State) {n m : BitVec 8} {o p : Nat} (v : DWord)
    (h : 65536 * m.toNat + p ≠ 65536 * n.toNat + o) : (s.vwr n o v).vrd m p = s.vrd m p := by
  simp [State.vrd, State.vwr, Tabs.get, h]

@[simp] theorem vrd_wr (s : State) (n : BitVec 8) (o p : Nat) (v : DWord) : (s.wr o v).vrd n p = s.vrd n p := rfl

@[simp] theorem rd_vwr (s : State) (n : BitVec 8) (o p : Nat) (v : DWord) : (s.vwr n o v).rd p = s.rd p := rfl

@[simp] theorem rd_putLane (s : State) (l : Lane) (o : Nat) : (s.putLane l).rd o = s.rd o := rfl

@[simp] theorem vrd_putLane (s : State) (l : Lane) (n : BitVec 8) (o : Nat) : (s.putLane l).vrd n o = s.vrd n o := rfl

/-! ## Cores, workgroups and warps -/

@[simp] theorem core_setCore_same (s : State) (c : Nat) (k : Core) : (s.setCore c k).core c = k := by
  simp [State.core, State.setCore]

@[simp] theorem core_setCore_other (s : State) (k : Core) {c d : Nat} (h : d ≠ c) : (s.setCore c k).core d = s.core d := by
  simp [State.core, State.setCore, h]

@[simp] theorem wg?_setWg_same (s : State) (n : Nat) (g : Wg) : (s.setWg n g).wg? n = some g := by
  simp [State.wg?, State.setWg]

@[simp] theorem wg?_setWg_other (s : State) (g : Wg) {n m : Nat} (h : m ≠ n) : (s.setWg n g).wg? m = s.wg? m := by
  simp [State.wg?, State.setWg, h]

@[simp] theorem wg?_wr (s : State) (o : Nat) (v : DWord) (n : Nat) : (s.wr o v).wg? n = s.wg? n := rfl

@[simp] theorem core_wr (s : State) (o : Nat) (v : DWord) (c : Nat) : (s.wr o v).core c = s.core c := rfl

@[simp] theorem core_putLane_same (s : State) (l : Lane) : (s.putLane l).core l.wg.core = l.core := by
  simp [State.core, State.putLane]

@[simp] theorem core_putLane_other (s : State) (l : Lane) {c : Nat} (h : c ≠ l.wg.core) :
    (s.putLane l).core c = s.core c := by simp [State.core, State.putLane, h]

@[simp] theorem wg?_putLane_same (s : State) (l : Lane) :
    (s.putLane l).wg? l.ref.wg = some { l.wg with warps := l.wg.warps.set l.ref.warp l.w } := by
  simp [State.wg?, State.putLane]

@[simp] theorem wg?_putLane_other (s : State) (l : Lane) {n : Nat} (h : n ≠ l.ref.wg) :
    (s.putLane l).wg? n = s.wg? n := by simp [State.wg?, State.putLane, h]

/-- What the lane of a warp is made of. -/
theorem laneOf_some {s : State} {r : WRef} {l : Lane} (h : s.laneOf r = some l) :
    l.ref = r ∧ s.wg? r.wg = some l.wg ∧ l.wg.warps[r.warp]? = some l.w ∧ l.core = s.core l.wg.core ∧ l.clock = s.clock := by
  unfold State.laneOf State.warp? at h
  split at h
  · cases h
  · next g w hw =>
    split at hw
    · cases hw
    · next g' hg =>
      split at hw
      · cases hw
      · next w' hw' =>
        simp only [Option.some.injEq, Prod.mk.injEq] at hw
        obtain ⟨rfl, rfl⟩ := hw
        cases h
        exact ⟨rfl, hg, hw', rfl, rfl⟩

/-- The lane that issues. -/
theorem lane?_some {s : State} {l : Lane} (h : s.lane? = some l) :
    s.cur = some l.ref ∧ s.laneOf l.ref = some l ∧ l.w.batch ≠ [] := by
  unfold State.lane? at h
  split at h
  · cases h
  · next r hr =>
    split at h
    · cases h
    · next l' hl =>
      split at h
      · cases h
      · next hb =>
        simp only [Option.some.injEq] at h
        subst h
        obtain ⟨rfl, -⟩ := laneOf_some hl
        exact ⟨hr, hl, by simpa using hb⟩

/-- The warp that is found after a lane was put back. -/
theorem warp?_putLane {s : State} {l m : Lane} (h : s.laneOf l.ref = some l) (hr : m.ref = l.ref) (hg : m.wg = l.wg) :
    (s.putLane m).warp? l.ref = some ({ l.wg with warps := l.wg.warps.set l.ref.warp m.w }, m.w) := by
  obtain ⟨-, -, hw, -, -⟩ := laneOf_some h
  have hlt : l.ref.warp < l.wg.warps.length := (List.getElem?_eq_some_iff.mp hw).1
  simp only [State.warp?, ← hr, wg?_putLane_same]
  simp [hr, hg, hlt]

end Sys2Proof.Machine
end

