-- ==== Sys2Proof/Laws/Forms.lean ====
section
/-! SUPPORT. From the operations of a lane to the terms of the statements: what a written result reads as, and that every
register form completes. -/

namespace Sys2Proof.Machine

open Sys2Proof.Claims

theorem crazeOf_cons (x : Option Word) (l : List (Option Word)) : crazeOf (x :: l) = match x with | some p => some p | none => crazeOf l := by
  cases x <;> simp [crazeOf]

theorem crazeOf_append (a b : List (Option Word)) : crazeOf (a ++ b) = crazeOf (crazeOf a :: b) := by
  induction a with
  | nil => simp [crazeOf]
  | cons x a ih => cases x with
    | none => simpa [crazeOf] using ih
    | some p => simp [crazeOf]

theorem mapM_isSome {α β} (f : α → Option β) : ∀ l : List α, (l.mapM f).isSome = !(l.map f).any Option.isNone
  | [] => rfl
  | a :: l => by
    have := mapM_isSome f l
    cases h : f a with
    | none => simp [List.mapM_cons, h]
    | some x =>
      cases h2 : l.mapM f with
      | none => simp [List.mapM_cons, h, h2] at this ⊢; exact this
      | some y => simp [List.mapM_cons, h, h2] at this ⊢; exact this

theorem mapM_some {α β} (f : α → Option β) : ∀ (l : List α) (r : List β), l.mapM f = some r → l.map f = r.map some
  | [], r, h => by simp at h; subst h; rfl
  | a :: l, r, h => by
    cases ha : f a with
    | none => simp [List.mapM_cons, ha] at h
    | some x =>
      cases hl : l.mapM f with
      | none => simp [List.mapM_cons, ha, hl] at h
      | some y =>
        simp [List.mapM_cons, ha, hl] at h
        subst h
        simp [ha, mapM_some f l y hl]

theorem operands_of_sources (a : Alu) (w : Warp) (x : Thread) (v : List DWord × Option Word)
    (h : sources w x a.lit a.srcs = some v) :
    (a.operands w x 0).latch = false ∧
    (a.operands w x 0).vals = v.1 ++ (match a.pred with | some (k, n) => [if x.pred k != n then (1 : DWord) else 0] | none => []) ∧
    (a.operands w x 0).crz = crazeOf (v.2 :: ((match a.pred with | some (k, _) => [x.predCraze k] | none => []) ++ [x.predCraze a.h.guard, a.wideCraze])) := by
  unfold sources at h
  cases hr : a.srcs.mapM (fun p => readSrc w x a.lit p.2 p.1) with
  | none => simp [hr] at h
  | some r =>
    simp [hr] at h
    subst h
    have hm := mapM_some _ _ _ hr
    have hl : (a.srcs.map (fun p => readSrc w x a.lit p.2 p.1)).any Option.isNone = false := by
      rw [hm]; simp
    unfold Alu.operands
    simp only [hm]
    refine ⟨by simp, ?_, ?_⟩
    · cases a.pred with
      | none => simp [Function.comp_def]
      | some q => simp [Function.comp_def]
    · rw [List.append_assoc, crazeOf_append]
      congr 1
      congr 1
      · simp [Function.comp_def]
      · cases a.pred <;> rfl

theorem vreg_setV (x : Thread) (i j : Nat) (y : TWord) (hi : i ≠ 255) :
    (x.setV i y).vreg j = if j = i then y else x.vreg j := by
  unfold Thread.setV Thread.vreg
  rw [if_neg hi]
  by_cases h : j = i
  · subst h; simp [hi]
  · by_cases h2 : j = 255
    · simp [h2, Ne.symm hi]
    · simp [h2, h]

theorem bit_or (m : BitVec 7) (k j : BitVec 3) (hk : k ≠ 7) :
    (m ||| BitVec.twoPow 7 k.toNat).getLsbD j.toNat = (m.getLsbD j.toNat || decide (j = k)) := by
  have h7 : k.toNat < 7 := by
    have := k.isLt; have h : k.toNat ≠ 7 := fun h => hk (BitVec.eq_of_toNat_eq h); omega
  simp only [BitVec.getLsbD_or, BitVec.getLsbD_twoPow]
  congr 1
  have e : (j = k) = (k.toNat = j.toNat) := propext ⟨fun h => h ▸ rfl, fun h => (BitVec.eq_of_toNat_eq h).symm⟩
  simp only [e]
  by_cases h : k.toNat = j.toNat <;> simp [h]
  omega

theorem bit_andNot (m : BitVec 7) (k j : BitVec 3) :
    (m &&& ~~~BitVec.twoPow 7 k.toNat).getLsbD j.toNat = (m.getLsbD j.toNat && !decide (j = k)) := by
  simp only [BitVec.getLsbD_and, BitVec.getLsbD_not, BitVec.getLsbD_twoPow]
  have e : (j = k) = (k.toNat = j.toNat) := propext ⟨fun h => h ▸ rfl, fun h => (BitVec.eq_of_toNat_eq h).symm⟩
  simp only [e]
  by_cases h7 : j.toNat < 7
  · by_cases h : k.toNat = j.toNat <;> simp [h, h7]
  · simp [BitVec.getLsbD_of_ge m j.toNat (by omega)]

theorem pred_setPred (x : Thread) (k j : BitVec 3) (v : Bool) (c : Option Word) (hk : k ≠ 7) :
    ((x.setPred k v c).predTag j = if j = k then c.isSome else x.predTag j) ∧
    ((x.setPred k v c).pred j = if j = k ∧ c = none then v else x.pred j) ∧
    (x.setPred k v c).pp = c.getD x.pp ∧ (x.setPred k v c).v = x.v := by
  unfold Thread.setPred
  rw [if_neg hk]
  cases c with
  | none =>
    refine ⟨?_, ?_, rfl, rfl⟩
    · simp only [Thread.predTag, bit_andNot]
      by_cases h : j = k <;> simp [h]
    · simp only [Thread.pred]
      cases v
      · simp only [Bool.false_eq_true, if_false, bit_andNot]
        by_cases h : j = k
        · subst h; simpa using hk
        · simp [h]
      · simp only [if_true, bit_or _ _ _ hk]
        by_cases h : j = k <;> simp [h]
  | some p =>
    refine ⟨?_, ?_, rfl, rfl⟩
    · simp only [Thread.predTag, bit_or _ _ _ hk]
      by_cases h : j = k
      · subst h; simpa using hk
      · simp [h]
    · simp [Thread.pred]

theorem written_kept {d : ADst} {v : DWord} {c : Option Word} {x y z : Thread} (h : kept z y) (hw : written d v c x z) :
    written d v c x y := by
  obtain ⟨h1, h2, h3, h4⟩ := h
  have e1 : ∀ i, y.vreg i = z.vreg i := fun i => by simp [Thread.vreg, h1]
  have e2 : ∀ i, y.pred i = z.pred i := fun i => by simp [Thread.pred, h2]
  have e3 : ∀ i, y.predTag i = z.predTag i := fun i => by simp [Thread.predTag, h3]
  have e4 : ∀ i, y.predCraze i = z.predCraze i := fun i => by simp [Thread.predCraze, e3, h4]
  cases d <;> simpa only [written, kept, e1, e2, e3, e4, h1, h2, h3, h4] using hw

theorem kept_same {y z : Thread} (h : y.SameButLatches z) : kept z y := ⟨h.v, h.p, h.pt, h.pp⟩

theorem crazeOf_snoc_none (l : List (Option Word)) : crazeOf (l ++ [none]) = crazeOf l := by
  induction l with
  | nil => rfl
  | cons x l ih => cases x <;> simpa [crazeOf] using ih

theorem written_putResult (d : ADst) (hd : ∀ i w, d ≠ .scal i w) (v : DWord) (c : Option Word) (x : Thread) :
    written d v c x (x.putResult d v c) := by
  cases d with
  | scal i w => exact absurd rfl (hd i w)
  | latch => exact ⟨rfl, rfl, rfl, rfl⟩
  | pred k =>
    have hp : ∀ j, (x.putResult (.pred k) v c).pred j = (x.setPred k (v.getLsbD 0) c).pred j := fun _ => rfl
    have ht : ∀ j, (x.putResult (.pred k) v c).predTag j = (x.setPred k (v.getLsbD 0) c).predTag j := fun _ => rfl
    have hc : ∀ j, (x.putResult (.pred k) v c).predCraze j = (x.setPred k (v.getLsbD 0) c).predCraze j := fun _ => rfl
    by_cases hk : k = 7
    · have e : x.setPred k (v.getLsbD 0) c = x := by simp [Thread.setPred, hk]
      refine ⟨fun h => absurd hk h, fun j _ => ?_, fun _ => ?_, ?_⟩
      · rw [hp, ht, e]; exact ⟨rfl, rfl⟩
      · simp only [kept, Thread.putResult, e, Thread.shift]; trivial
      · simp only [Thread.putResult, e, Thread.shift]
    · have h := fun j => pred_setPred x k j (v.getLsbD 0) c hk
      refine ⟨fun _ => ⟨?_, fun hn => ?_⟩, fun j hj => ?_, fun h7 => absurd h7 hk, ?_⟩
      · rw [hc, Thread.predCraze, (h k).1, (h k).2.2.1]
        cases c <;> simp
      · rw [hp, (h k).2.1, if_pos ⟨rfl, hn⟩]
      · rw [hp, ht, (h j).1, (h j).2.1]; simp [hj]
      · simpa [Thread.putResult, Thread.shift] using (h k).2.2.2
  | vec i wide =>
    have hreg : ∀ j, (x.putResult (.vec i wide) v c).vreg j =
      (if wide then x.setV2 i.toNat v c else x.setV1 i.toNat v c).vreg j := fun _ => rfl
    have hw1 : ∀ n, x.setV1 n v c = x.setV n (wordOf v c 0) := fun n => by
      cases c <;> simp [Thread.setV1, wordOf]
    have hw2 : ∀ n, n ≠ 255 → x.setV2 n v c = (x.setV n (wordOf v c 0)).setV (n + 1) (wordOf v c 32) := fun n hn => by
      cases c <;> simp [Thread.setV2, wordOf, hn]
    have hpres : (x.putResult (.vec i wide) v c).p = x.p ∧ (x.putResult (.vec i wide) v c).pt = x.pt ∧
        (x.putResult (.vec i wide) v c).pp = x.pp := by
      have hs : ∀ (z : Thread) n y, (z.setV n y).p = z.p ∧ (z.setV n y).pt = z.pt ∧ (z.setV n y).pp = z.pp := fun z n y => by
        unfold Thread.setV; split <;> exact ⟨rfl, rfl, rfl⟩
      cases wide
      · simpa [Thread.putResult, Thread.shift, hw1] using hs x _ _
      · by_cases h : i.toNat = 255
        · simp [Thread.putResult, Thread.shift, Thread.setV2, h]
        · have a := hs x i.toNat (wordOf v c 0)
          have b := hs (x.setV i.toNat (wordOf v c 0)) (i.toNat + 1) (wordOf v c 32)
          simp [Thread.putResult, Thread.shift, hw2 _ h, a, b]
    refine ⟨fun hi => ?_, fun j hj hj2 => ?_, fun hi => ?_, hpres⟩
    · have hi' : i.toNat ≠ 255 := fun h => hi (BitVec.eq_of_toNat_eq h)
      rw [hreg]
      cases wide
      · simp [hw1, vreg_setV _ _ _ _ hi']
      · simp only [if_true, hw2 _ hi', hreg]
        refine ⟨?_, fun _ h => ?_⟩
        · by_cases h1 : i.toNat + 1 = 255
          · simp [Thread.setV, h1, hi', Thread.vreg]
          · rw [vreg_setV _ _ _ _ h1, if_neg (by omega), vreg_setV _ _ _ _ hi', if_pos rfl]
        · rw [vreg_setV _ _ _ _ h, if_pos rfl]
    · rw [hreg]
      by_cases hi' : i.toNat = 255
      · cases wide <;> simp [Thread.setV1, Thread.setV2, Thread.setV, hi']
      · cases wide
        · simp [hw1, vreg_setV _ _ _ _ hi', hj]
        · simp only [if_true, hw2 _ hi']
          have hj2 := hj2 rfl
          by_cases h1 : i.toNat + 1 = 255
          · have e : ∀ z : Thread, z.setV (i.toNat + 1) (wordOf v c 32) = z := fun z => by simp [Thread.setV, h1]
            rw [e, vreg_setV _ _ _ _ hi', if_neg hj]
          · rw [vreg_setV _ _ _ _ h1, if_neg hj2, vreg_setV _ _ _ _ hi', if_neg hj]
    · subst hi
      cases wide <;> simp [Thread.putResult, Thread.shift, Thread.setV1, Thread.setV2, Thread.setV]

theorem kept_of_same {x y z : Thread} (h : y.SameButLatches z) (hz : kept x z) : kept x y :=
  ⟨h.v.trans hz.1, h.p.trans hz.2.1, h.pt.trans hz.2.2.1, h.pp.trans hz.2.2.2⟩

theorem putLane_onlyWarp {s : State} {l m : Lane} (h : s.lane? = some l) (hm : m.SameButFlow l) : onlyWarp s (s.putLane m) l m.w := by
  obtain ⟨hc, hl, hb⟩ := lane?_some h
  obtain ⟨-, hg, hw, hk, -⟩ := laneOf_some hl
  refine ⟨rfl, fun a => rfl, warp?_putLane hl hm.ref hm.wg, fun n hn => ?_, fun c => ?_⟩
  · exact wg?_putLane_other s m (by rw [hm.ref]; exact hn)
  · by_cases e : c = l.wg.core
    · subst e
      have := core_putLane_same s m
      rw [hm.wg, hm.core, hk] at this
      exact this
    · exact core_putLane_other s m (by rw [hm.wg]; exact e)

theorem regForm_completes (i : Instr) (r : RegForm) (a : Alu) (f : Thread → List DWord → DWord)
    (he : ∀ s, exec i s = a.exec f s) (h1 : a.h = r.h) (h2 : a.size = r.size) (h3 : a.dst = r.dst) (h4 : a.srcs = r.srcs)
    (h5 : a.lit = r.lit) (h6 : a.pred = r.pred) (h7 : a.wideCraze = none) (h8 : ∀ x v, f x v = r.val v)
    (h9 : ∀ l, r.sound i l → a.bad = false ∧ (a.slow = true → RegForm.sound.slow i = true)) : r.completes i := by
  intro s l hl hclear hs hp hsrc
  obtain ⟨hready, hbad⟩ := hclear
  obtain ⟨-, -, hne⟩ := lane?_some hl
  obtain ⟨hs1, hs2, hs3, -⟩ := id hs
  obtain ⟨hb, hslow⟩ := h9 l hs
  have hf : a.faulty l = false := by
    unfold Alu.faulty
    simp only [hb, h3, hs1, h4, Bool.false_or, Bool.not_true, Bool.or_false, Bool.or_eq_false_iff, Bool.not_eq_false',
      List.all_eq_true]
    refine ⟨?_, hs2⟩
    cases hsl : a.slow with
    | false => rfl
    | true =>
      obtain ⟨c1, c2⟩ := hs3 (hslow hsl)
      simp [h1, c1, c2]
  have hlat : ∀ t ∈ active l a.h, (a.operands l.w (l.w.th t) 0).latch = false := by
    intro t ht
    obtain ⟨v, hv⟩ := Option.isSome_iff_exists.mp (hsrc t (h1 ▸ ht))
    exact (operands_of_sources a l.w _ v (by rw [h5, h4]; exact hv)).1
  obtain ⟨hflow, hth⟩ := alu_run a f l (fun i w => by rw [h3]; exact hp i w)
    (by rw [h3]; simpa [RegForm.regs, Alu.reads, h4] using hready) hf (by rw [h1]; exact hbad) hlat hne
  refine ⟨s.putLane (a.run f l), (a.run f l).w, ?_, putLane_onlyWarp hl hflow, hflow.warp, ?_, ?_, ?_, ?_⟩
  · rw [he]; simp [Alu.exec, onLane, hl]
  · intro k hk
    have := hth k (batch_lt hk)
    rw [if_pos hk] at this
    refine ⟨?_, by rw [this.st]; rfl⟩
    rw [this.pc, ← h2]
    simp only [Alu.after]
    split <;> simp [putResult_pc]
  · intro k hk v hv
    have hkb := active_batch hk
    have := hth k (batch_lt hkb)
    rw [if_pos hkb, h1, decide_eq_true hk] at this
    obtain ⟨-, hvals, hcrz⟩ := operands_of_sources a l.w (l.w.th k) v (by rw [h5, h4]; exact hv)
    have key : r.result (l.w.th k) v = (f (l.w.th k) (a.operands l.w (l.w.th k) 0).vals, (a.operands l.w (l.w.th k) 0).crz) := by
      rw [h8, hvals, hcrz, h1, h6, h7]
      unfold RegForm.result
      cases r.pred with
      | none =>
        simp only [List.append_nil]
        exact congrArg (Prod.mk _) (crazeOf_snoc_none [v.2, (l.w.th k).predCraze r.h.guard]).symm
      | some q => exact congrArg (Prod.mk _) (crazeOf_snoc_none [v.2, (l.w.th k).predCraze q.1, (l.w.th k).predCraze r.h.guard]).symm
    rw [key]
    refine written_kept (kept_same this) ?_
    have hw := written_putResult r.dst hp (f (l.w.th k) (a.operands l.w (l.w.th k) 0).vals) (a.operands l.w (l.w.th k) 0).crz (l.w.th k)
    rw [← h3] at hw ⊢
    exact written_kept ⟨rfl, rfl, rfl, rfl⟩ hw
  · intro k hk hna
    have := hth k (batch_lt hk)
    rw [if_pos hk, h1, decide_eq_false hna] at this
    exact kept_of_same this ⟨rfl, rfl, rfl, rfl⟩
  · intro k hk hnb
    have := hth k hk
    rw [if_neg hnb] at this
    by_cases hy : (l.w.th k).st = .yielded
    · rw [if_pos hy] at this
      exact ⟨kept_of_same this ⟨rfl, rfl, rfl, rfl⟩, this.pc, by rw [if_pos hy]; exact this.st⟩
    · rw [if_neg hy] at this
      exact ⟨kept_of_same this ⟨rfl, rfl, rfl, rfl⟩, this.pc, by rw [if_neg hy]; exact this.st⟩

end Sys2Proof.Machine
end

