-- ==== Sys2Proof/Laws/Flow.lean ====
section
/-! SUPPORT. Yields, convergence, derails and branches: what each does to the threads of a warp. -/

namespace Sys2Proof.Machine

open Sys2Proof.Claims

/-! ## What follows an instruction -/

theorem unyield_th (w : Warp) (b : List Nat) {u : Nat} (hu : u < 32) (h : (w.th u).st ≠ .yielded) :
    (w.unyield b).th u = w.th u := by
  have h1 : ({ w with thr := (List.range 32).map (fun t =>
        if (w.th t).st == .yielded && !b.contains t then { w.th t with st := .eligible } else w.th t) } : Warp).th u = w.th u := by
    rw [th_mk w _ hu]; simp [h]
  simp only [Warp.unyield]
  split
  · exact h1
  · rw [th_mk _ _ hu, h1]; simp [h]

theorem unyield_length (w : Warp) (b : List Nat) : (w.unyield b).thr.length = 32 := by
  simp only [Warp.unyield]; split <;> simp

theorem converge_th (w : Warp) (u : Nat) (h : (w.th u).atConv = false) : w.converge.th u = w.th u := by
  unfold Warp.converge
  split
  · rfl
  · split
    · rfl
    · simp only [Warp.th, List.getD_eq_getElem?_getD, List.getElem?_map] at h ⊢
      cases hx : w.thr[u]? with
      | none => simp
      | some x =>
        simp only [hx, Option.map_some, Option.getD_some] at h ⊢
        split
        · cases hs : x.st <;> simp [hs, Thread.atConv] at h ⊢
        · rfl

/-- A thread that neither yielded nor waits at convergence is left alone. -/
theorem settle_th_of (l : Lane) (b : List Nat) {u : Nat} (hu : u < 32) (h : (l.w.th u).st ≠ .yielded)
    (hc : (l.w.th u).atConv = false) : (l.settle b).w.th u = l.w.th u := by
  show (l.w.unyield b).converge.th u = _
  rw [converge_th _ _ (by rw [unyield_th l.w b hu h]; exact hc), unyield_th l.w b hu h]

/-! ## Derails -/

theorem setTh_th (l : Lane) (t : Nat) (x : Thread) {u : Nat} (hu : u < 32) :
    (l.setTh t x).w.th u = if u = t then x else l.w.th u := by
  by_cases h : u = t
  · subst h; rw [if_pos rfl]; exact setTh_same l.w x hu
  · rw [if_neg h]; exact setTh_other l.w x hu h

/-- The members and the recovery target, and with them the handler, are what a member craze leaves alone. -/
theorem memberCraze_target (l : Lane) (t u : Nat) (p q : Word) (b : Bool) (c : Nat) :
    (l.memberCraze t p b c).derailTarget u q = l.derailTarget u q := by
  unfold Lane.memberCraze
  split
  · rfl
  · next r hr =>
    split
    · simp only [Lane.derailTarget, hr, Region.setCraze]
    · rfl

theorem derail_target (l : Lane) (t u : Nat) (p q : Word) : (l.derail t p).derailTarget u q = l.derailTarget u q := by
  unfold Lane.derail; rw [memberCraze_target]; rfl

/-- What a derail with payload `p` makes of thread `t`. -/
def Lane.diverted (l : Lane) (t : Nat) (p : Word) : Thread :=
  match l.derailTarget t p with
  | some a => { l.w.th t with pc := a, st := .eligible, derailed := true }
  | none => { l.w.th t with st := .exited }

theorem derail_th (l : Lane) (t : Nat) (p : Word) {u : Nat} (hu : u < 32) :
    (l.derail t p).w.th u = if u = t then l.diverted t p else l.w.th u := by
  unfold Lane.derail
  rw [memberCraze_th]
  exact setTh_th l t _ hu

theorem derailWith_th (p : Word) : ∀ (ts : List Nat) (l : Lane), ts.Nodup → ∀ u < 32,
    (l.derailWith ts p).w.th u = if u ∈ ts then l.diverted u p else l.w.th u
  | [], l, _, u, _ => by simp [Lane.derailWith]
  | t :: ts, l, hn, u, hu => by
    rw [List.nodup_cons] at hn
    have : l.derailWith (t :: ts) p = (l.derail t p).derailWith ts p := rfl
    rw [this, derailWith_th p ts _ hn.2 u hu, derail_th l t p hu]
    by_cases h : u = t
    · subst h; rw [if_neg hn.1, if_pos rfl, if_pos List.mem_cons_self]
    · by_cases hm : u ∈ ts
      · rw [if_pos hm, if_pos (List.mem_cons_of_mem _ hm)]
        simp only [Lane.diverted, derail_target, derail_th l t p hu, if_neg h]
      · rw [if_neg hm, if_neg h, if_neg (by simp [h, hm])]

/-- What follows an instruction leaves a thread outside its batch, but for a yield that ends (R36) and convergence. -/
theorem settle_bystander (l : Lane) (b : List Nat) {u : Nat} (hu : u < 32) (hb : u ∉ b) (hc : (l.w.th u).atConv = false) :
    (l.settle b).w.th u = if (l.w.th u).st = .yielded then { l.w.th u with st := .eligible } else l.w.th u := by
  by_cases h : (l.w.th u).st = .yielded
  · rw [if_pos h]
    have key : (l.w.unyield b).th u = { l.w.th u with st := .eligible } := by
      have h1 : ({ l.w with thr := (List.range 32).map (fun t =>
        if (l.w.th t).st == .yielded && !b.contains t then { l.w.th t with st := .eligible } else l.w.th t) } : Warp).th u =
          { l.w.th u with st := .eligible } := by
        rw [th_mk l.w _ hu]; simp [h, hb]
      simp only [Warp.unyield]
      split
      · exact h1
      · rw [th_mk _ _ hu, h1]; simp
    show (l.w.unyield b).converge.th u = _
    rw [converge_th _ _ (by rw [key]; rfl), key]
  · rw [if_neg h, settle_th_of l b hu h hc]

/-! ## The open region under derails -/

theorem derail_region (l : Lane) (t : Nat) (p : Word) :
    (l.derail t p).w.region = l.w.region.map (fun r => if r.members.getLsbD t then r.setCraze t p true l.clock else r) := by
  unfold Lane.derail Lane.memberCraze
  have h : (l.divert t p).w.region = l.w.region := rfl
  rw [h]
  cases hr : l.w.region with
  | none => simp [h, hr]
  | some r => simp only [Option.map_some]; split <;> simp_all

theorem derailWith_region (p : Word) : ∀ (ts : List Nat) (l : Lane),
    (l.derailWith ts p).w.region =
      l.w.region.map (fun r => ts.foldl (fun r t => if r.members.getLsbD t then r.setCraze t p true l.clock else r) r)
  | [], l => by simp [Lane.derailWith]
  | t :: ts, l => by
    have : l.derailWith (t :: ts) p = (l.derail t p).derailWith ts p := rfl
    have hck : (l.derail t p).clock = l.clock := by
      unfold Lane.derail Lane.memberCraze; split <;> [rfl; (split <;> rfl)]
    rw [this, derailWith_region p ts, derail_region, hck]
    cases l.w.region <;> rfl

theorem derail_flow (l : Lane) (t : Nat) (p : Word) :
    (l.derail t p).w = { l.w with thr := (l.derail t p).w.thr, region := (l.derail t p).w.region } := by
  unfold Lane.derail Lane.memberCraze
  split
  · rfl
  · split <;> rfl

theorem derailWith_flow (p : Word) : ∀ (ts : List Nat) (l : Lane),
    (l.derailWith ts p).w = { l.w with thr := (l.derailWith ts p).w.thr, region := (l.derailWith ts p).w.region }
  | [], l => rfl
  | t :: ts, l => by
    have : l.derailWith (t :: ts) p = (l.derail t p).derailWith ts p := rfl
    rw [this, derailWith_flow p ts, derail_flow]

theorem crazed_members (p : Word) (c : Nat) : ∀ (ts : List Nat) (r : Region),
    let q := ts.foldl (fun r t => if r.members.getLsbD t then r.setCraze t p true c else r) r
    q = { r with crazes := q.crazes, hard := q.hard, regionCraze := q.regionCraze, first := q.first } ∧
    (∀ k, Tabs.find? q.crazes k = if k ∈ ts ∧ r.members.getLsbD k then some ((Tabs.find? r.crazes k).getD p)
      else Tabs.find? r.crazes k) ∧
    q.regionCraze = (if ts.any (fun k => r.members.getLsbD k && r.leads k c) then some p else r.regionCraze)
  | [], r => by simp
  | t :: ts, r => by
    simp only [List.foldl_cons]
    by_cases ht : r.members.getLsbD t
    · simp only [ht, if_true]
      have hm : (r.setCraze t p true c).members = r.members := rfl
      have hc : ∀ k, Tabs.find? (r.setCraze t p true c).crazes k = if k = t then some ((Tabs.find? r.crazes t).getD p)
          else Tabs.find? r.crazes k := fun k => by
        unfold Region.setCraze
        cases hf : Tabs.find? r.crazes t with
        | some q => by_cases hk : k = t <;> simp_all
        | none =>
          by_cases hk : k = t
          · subst hk; simp
          · simp [Tabs.find?_put_other _ _ hk, hk]
      obtain ⟨h1, h4, h5⟩ := crazed_members p c ts (r.setCraze t p true c)
      refine ⟨h1.trans rfl, fun k => ?_, ?_⟩
      · rw [h4 k, hm, hc k]
        by_cases hk : k = t
        · subst hk; simp [ht]
        · simp [hk]
      · rw [h5, hm]
        by_cases hl : r.leads t c
        · have hr : (r.setCraze t p true c).regionCraze = some p := by simp [Region.setCraze, hl]
          simp [hr, ht, hl]
        · have hr : (r.setCraze t p true c).regionCraze = r.regionCraze := by simp [Region.setCraze, hl]
          have hf : (r.setCraze t p true c).first = r.first := by simp [Region.setCraze, hl]
          have hq : ∀ k, (r.setCraze t p true c).leads k c = r.leads k c := fun k => by
            unfold Region.leads
            rw [hr, hf, hc k]
            by_cases hk : k = t
            · subst hk
              simp only [Region.leads, Bool.or_eq_true, not_or, Bool.not_eq_true] at hl
              simp [hl.1, hl.2]
            · rw [if_neg hk]
          simp [hr, hq, hl]
    · simp only [ht, Bool.false_eq_true, if_false]
      obtain ⟨h1, h4, h5⟩ := crazed_members p c ts r
      refine ⟨h1, fun k => ?_, by rw [h5]; simp [ht]⟩
      rw [h4 k]
      by_cases hk : k = t
      · subst hk; simp [ht]
      · simp [hk]

theorem originate_th (l : Lane) (c u t : Nat) (a : VAddr) (v : Option VAddr) (b : Bool) (k : Nat) :
    (l.originate c u t a v b).1.w.th k = l.w.th k := rfl

theorem diverted_st (l : Lane) (t : Nat) (p : Word) :
    (l.diverted t p).st ≠ .yielded ∧ (l.diverted t p).atConv = false ∧ kept (l.w.th t) (l.diverted t p) := by
  unfold Lane.diverted; split <;> refine ⟨?_, ?_, rfl, rfl, rfl, rfl⟩ <;> simp [Thread.atConv]

/-! ## Turns of a branch -/

/-- The threads after the turns of a branch that all go on. -/
theorem turns_go (pc : VAddr) (F : Nat → Thread) : ∀ (ts : List Nat) (l : Lane), ts.Nodup →
    ((ts.map (fun t => (t, Turn.go (F t)))).foldl (fun l e => l.turn e.1 pc e.2) l).SameButFlow l ∧
    ∀ u < 32, ((ts.map (fun t => (t, Turn.go (F t)))).foldl (fun l e => l.turn e.1 pc e.2) l).w.th u =
      if u ∈ ts then F u else l.w.th u
  | [], l, _ => ⟨.refl l, fun u _ => by simp⟩
  | t :: ts, l, hn => by
    rw [List.nodup_cons] at hn
    obtain ⟨h1, h2⟩ := turns_go pc F ts (l.setTh t (F t)) hn.2
    refine ⟨h1.trans (.setTh l t _), fun u hu => ?_⟩
    have : ((t :: ts).map (fun t => (t, Turn.go (F t)))).foldl (fun l e => l.turn e.1 pc e.2) l =
      (ts.map (fun t => (t, Turn.go (F t)))).foldl (fun l e => l.turn e.1 pc e.2) (l.setTh t (F t)) := rfl
    rw [this, h2 u hu, setTh_th l t _ hu]
    by_cases h : u = t
    · subst h; rw [if_neg hn.1, if_pos rfl, if_pos List.mem_cons_self]
    · by_cases hm : u ∈ ts <;> simp [hm, h]

/-- A branch without a fault, whose guards are clean and whose every turn goes on: before yields and convergence. -/
def branchGo (f : Form) (F : Nat → Thread) (l : Lane) (pc : VAddr) (act : List Nat) : Lane :=
  let l2 := (act.map (fun t => (t, Turn.go (F t)))).foldl (fun l e => l.turn e.1 pc e.2) (l.advance l.w.batch f.size)
  if f.chains then (l2.shiftIdle act).nextChain f.h.chain else l2.endChain

theorem branch_go (f : Form) (target : VAddr → Option VAddr) (g : VAddr → Lane → Nat → Thread → Turn) (F : Nat → Thread)
    (l : Lane) (hr : l.w.ready f.regs = true) (hf : active l f.h ≠ [] → f.fault l = none)
    (hc : ∀ t ∈ active l f.h, (l.w.th t).predCraze f.h.guard = none)
    (hg : ∀ t ∈ active l f.h, g l.w.pc l t ((l.advance l.w.batch f.size).w.th t) = .go (F t)) :
    branch f target g l = (branchGo f F l l.w.pc (active l f.h)).settle l.w.batch := by
  have hmap : (active l f.h).map (fun t => (t, match (l.w.th t).predCraze f.h.guard with
      | some p => Turn.crazed p
      | none => g l.w.pc l t ((l.advance l.w.batch f.size).w.th t))) = (active l f.h).map (fun t => (t, Turn.go (F t))) :=
    List.map_congr_left (fun t ht => by rw [hc t ht, hg t ht])
  have hd : ((active l f.h).map (fun t => (t, Turn.go (F t)))).any (fun e => e.2.derails) = false := by
    simp [Turn.derails]
  by_cases he : active l f.h = []
  · unfold active at hmap hd he
    unfold branch branchGo active
    simp only [hr, Bool.not_true, Bool.false_eq_true, if_false, he, List.filter_nil]
    cases f.fault l <;> simp <;> (cases f.chains <;> simp)
  · have hf := hf he
    unfold active at hmap hd
    unfold branch branchGo active
    simp only [hr, hf, Bool.not_true, Bool.false_eq_true, if_false]
    erw [hmap]
    simp only [hd, Bool.false_or, List.map_map]
    cases f.chains <;> simp [Function.comp_def]

theorem branchGo_flow (f : Form) (F : Nat → Thread) (l : Lane) (pc : VAddr) (h : Hdr) :
    (branchGo f F l pc (active l h)).SameButFlow l ∧
    ∀ u < 32, ((branchGo f F l pc (active l h)).w.th u).SameButLatches
      (if u ∈ active l h then F u else (l.advance l.w.batch f.size).w.th u) := by
  obtain ⟨h1, h2⟩ := turns_go pc F (active l h) (l.advance l.w.batch f.size) (active_nodup l h)
  unfold branchGo
  generalize ((active l h).map (fun t => (t, Turn.go (F t)))).foldl (fun l e => l.turn e.1 pc e.2)
    (l.advance l.w.batch f.size) = m at h1 h2
  have h3 := h1.trans (.advance l l.w.batch f.size)
  simp only
  split
  · refine ⟨(Lane.SameButFlow.nextChain _ _).trans ((Lane.SameButFlow.shiftIdle _ _).trans h3), fun u hu => ?_⟩
    exact (nextChain_same _ _ u).trans ((shiftIdle_same m _ hu).trans (by rw [h2 u hu]; exact .refl _))
  · refine ⟨(Lane.SameButFlow.endChain _).trans h3, fun u hu => ?_⟩
    exact (endChain_same _ u).trans (by rw [h2 u hu]; exact .refl _)

end Sys2Proof.Machine
end

