-- ==== Sys2Proof/Laws/Derail.lean ====
section
/-! SUPPORT. The derail form (R399, R401, R402): what the threads, the open region and the craze table are after it. -/

namespace Sys2Proof.Machine

open Sys2Proof.Claims

theorem putLane_onlyLane {s : State} {l m : Lane} (h : s.lane? = some l) (hr : m.ref = l.ref) (hg : m.wg = l.wg) :
    onlyLane s (s.putLane m) l m.w := by
  obtain ⟨-, hl, -⟩ := lane?_some h
  refine ⟨rfl, fun a => rfl, warp?_putLane hl hr hg, fun n hn => ?_, fun c hc => ?_⟩
  · exact wg?_putLane_other s m (by rw [hr]; exact hn)
  · exact core_putLane_other s m (by rw [hg]; exact hc)

/-- The target of a derail in the words of the statements. -/
theorem derailTarget_handler {l m : Lane} (hg : m.wg = l.wg) (hr : m.w.region = l.w.region) (k : Nat) (p : Word) :
    m.derailTarget k p = handler l k p := by
  unfold Lane.derailTarget handler
  rw [hg, hr]
  cases l.w.region <;> rfl

theorem diverted_derailed {l m : Lane} {k : Nat} {p : Word} (hg : m.wg = l.wg) (hr : m.w.region = l.w.region)
    (hk : kept (l.w.th k) (m.w.th k)) : derailed l k p (l.w.th k) (m.diverted k p) := by
  unfold derailed Lane.diverted
  rw [derailTarget_handler hg hr]
  obtain ⟨h1, h2, h3, h4⟩ := hk
  cases handler l k p with
  | none => exact ⟨⟨h1, h2, h3, h4⟩, rfl⟩
  | some a => exact ⟨⟨h1, h2, h3, h4⟩, rfl, rfl⟩

theorem crazedBy_of {l : Lane} {w : Warp} {ts : List Nat} {p : Word}
    (h : w.region = l.w.region.map (fun r => ts.foldl (fun r t => if r.members.getLsbD t then r.setCraze t p true l.clock else r) r)) :
    crazedBy ts p l w := by
  unfold crazedBy
  rw [h]
  cases l.w.region with
  | none => trivial
  | some r =>
    obtain ⟨h1, h4, h5⟩ := crazed_members p l.clock ts r
    exact ⟨h1, fun k _ => h4 k, h5⟩

/-- An instruction that ends in the derail form. `m` is the lane before it: the threads of the batch have moved. -/
theorem derailForm_of {i : Instr} {n cause : Nat} {va : Option VAddr} {ts : List Nat} {s : State} {l m : Lane}
    (hl : s.lane? = some l) (he : exec i s = .next (s.putLane ((m.derailAll ts l.w.pc cause va).settle l.w.batch)))
    (hm : m.SameButFlow l) (hn : ts.Nodup) (hsub : ∀ k ∈ ts, k ∈ l.w.batch)
    (hts : ∀ k ∈ ts, kept (l.w.th k) (m.w.th k))
    (hbat : ∀ k ∈ l.w.batch, k ∉ ts → past n (l.w.th k) (m.w.th k) ∧ kept (l.w.th k) (m.w.th k))
    (hout : ∀ k < 32, k ∉ l.w.batch → (m.w.th k).SameButLatches (l.w.th k)) :
    derailForm i n cause va ts s l := by
  have hcore : m.core = s.core l.wg.core := by
    obtain ⟨-, hl', -⟩ := lane?_some hl
    obtain ⟨-, -, -, hk, -⟩ := laneOf_some hl'
    rw [hm.core, hk]
  -- the lane after the derails, with its payload
  obtain ⟨d, p, hd, hdr, hdg, hfl, hdc, hdc0, hth, hreg⟩ : ∃ (d : Lane) (p : Word), m.derailAll ts l.w.pc cause va = d ∧ d.ref = l.ref ∧
      d.wg = l.wg ∧ onlyFlow l d.w ∧ (∀ k0 ks, ts = k0 :: ks →
        (d.core, p) = (s.core l.wg.core).record l.wg.core (l.crzRec cause 0 k0 l.w.pc va true)) ∧
      (ts = [] → d.core = s.core l.wg.core) ∧
      (∀ u < 32, d.w.th u = if u ∈ ts then m.diverted u p else m.w.th u) ∧
      d.w.region = l.w.region.map
        (fun r => ts.foldl (fun r t => if r.members.getLsbD t then r.setCraze t p true l.clock else r) r) := by
    refine ⟨_, match ts with
      | [] => 0
      | t :: _ => (m.originate cause 0 t l.w.pc va true).2, rfl, by simp [hm.ref], by simp [hm.wg], ?_, ?_, ?_, ?_, ?_⟩
    · unfold Lane.derailAll
      split
      · unfold onlyFlow; rw [hm.warp]
      · unfold onlyFlow
        simp only
        rw [derailWith_flow, originate_w, hm.warp]
    · rintro k0 ks rfl
      simp only [Lane.derailAll, derailWith_core, Lane.originate, hcore, hm.wg]
      have : m.crzRec cause 0 k0 l.w.pc va true = l.crzRec cause 0 k0 l.w.pc va true := by
        unfold Lane.crzRec
        have e1 : m.w.member k0 = l.w.member k0 := by simp [Warp.member, hm.region]
        rw [e1, hm.clock, hm.warp]
        rfl
      rw [this]
    · rintro rfl; exact hcore
    · intro u hu
      cases ts with
      | nil => simp [Lane.derailAll]
      | cons t ts =>
        simp only [Lane.derailAll]
        exact derailWith_th _ (t :: ts) _ hn u hu
    · cases ts with
      | nil => simp [Lane.derailAll, hm.region]
      | cons t ts =>
        simp only [Lane.derailAll]
        rw [derailWith_region, originate_w, hm.region, originate_clock, hm.clock]
  rw [hd] at he
  have hset := Lane.SameButFlow.settle d l.w.batch
  refine ⟨_, (d.settle l.w.batch).w, p, he, putLane_onlyLane hl (hset.ref.trans hdr) (hset.wg.trans hdg), ?_, ?_, ?_, ?_, ?_, ?_, ?_⟩
  · unfold onlyFlow at hfl ⊢; rw [hset.warp, hfl]
  · intro k0 ks h
    rw [← hdc k0 ks h]
    have := core_putLane_same s (d.settle l.w.batch)
    rw [hset.wg, hdg, hset.core] at this
    rw [this]
  · intro h
    have := core_putLane_same s (d.settle l.w.batch)
    rw [hset.wg, hdg, hset.core] at this
    rw [this, hdc0 h]
  · intro k hk
    have hk32 := batch_lt (hsub k hk)
    obtain ⟨h1, h2, -⟩ := diverted_st m k p
    have e : d.w.th k = m.diverted k p := by rw [hth k hk32, if_pos hk]
    rw [settle_th_of d _ hk32 (by rw [e]; exact h1) (by rw [e]; exact h2), e]
    exact diverted_derailed hm.wg hm.region (hts k hk)
  · exact crazedBy_of (by rw [hset.region, hreg])
  · intro k hk hnk
    have hk32 := batch_lt hk
    have e : d.w.th k = m.w.th k := by rw [hth k hk32, if_neg hnk]
    obtain ⟨h1, h2⟩ := hbat k hk hnk
    rw [settle_th_of d _ hk32 (by rw [e, h1.2]; simp) (by rw [e]; simp [Thread.atConv, h1.2]), e]
    exact ⟨h1, h2⟩
  · intro k hk hnb hc
    have hnk : k ∉ ts := fun h => hnb (hsub k h)
    have e : d.w.th k = m.w.th k := by rw [hth k hk, if_neg hnk]
    have hs := hout k hk hnb
    rw [settle_bystander d _ hk hnb (by rw [e]; simpa only [Thread.atConv, hs.st] using hc), e, hs.st]
    by_cases hy : (l.w.th k).st = .yielded
    · rw [if_pos hy]
      exact ⟨⟨hs.v, hs.p, hs.pt, hs.pp⟩, hs.pc, (if_pos hy).symm⟩
    · rw [if_neg hy]
      exact ⟨⟨hs.v, hs.p, hs.pt, hs.pp⟩, hs.pc, hs.st.trans (if_neg hy).symm⟩

/-- A register instruction is faulty just where its form is not sound. -/
theorem faulty_iff (i : Instr) (r : RegForm) (a : Alu) (l : Lane) (h1 : a.h = r.h) (h3 : a.dst = r.dst) (h4 : a.srcs = r.srcs)
    (h5 : a.bad = RegForm.sound.reserved i) (h6 : a.slow = RegForm.sound.slow i) : a.faulty l = true ↔ ¬ r.sound i l := by
  unfold Alu.faulty RegForm.sound
  rw [h3, h4, h5, h6, h1]
  cases RegForm.sound.reserved i <;> cases RegForm.sound.slow i <;> cases r.h.chain <;>
    cases ADst.ok l.wg.info.nregs r.dst <;> simp [Nat.pos_iff_ne_zero] <;> grind

theorem regForm_derails (i : Instr) (r : RegForm) (a : Alu) (f : Thread → List DWord → DWord)
    (he : ∀ s, exec i s = a.exec f s) (h1 : a.h = r.h) (h2 : a.size = r.size) (h3 : a.dst = r.dst) (h4 : a.srcs = r.srcs)
    (h5 : a.bad = RegForm.sound.reserved i) (h6 : a.slow = RegForm.sound.slow i)
    (s : State) (l : Lane) (hl : s.lane? = some l) (hr : l.w.ready r.regs = true) (hs : ¬ r.sound i l) :
    derailForm i r.size 0x01 none (active l r.h) s l := by
  have hf := (faulty_iff i r a l h1 h3 h4 h5 h6).mpr hs
  have hr' : l.w.ready (a.dst.regs ++ a.reads) = true := by
    rw [h3]; simpa [RegForm.regs, Alu.reads, h4] using hr
  -- the lane before the derails: with no active thread nothing derails, and a chain goes on (R96)
  obtain ⟨m, hm, hflow, hth⟩ : ∃ m : Lane, a.run f l = (m.derailAll (active l r.h) l.w.pc 0x01 none).settle l.w.batch ∧
      m.SameButFlow l ∧ ∀ k < 32, (m.w.th k).SameButLatches ((l.advance l.w.batch a.size).w.th k) := by
    by_cases hact : active l r.h = []
    · refine ⟨((l.shiftIdle []).advance l.w.batch a.size).nextChain r.h.chain, ?_,
        (Lane.SameButFlow.nextChain _ _).trans ((Lane.SameButFlow.advance _ _ _).trans (.shiftIdle l [])), fun k hk => ?_⟩
      · have hact' : l.w.batch.filter (fun t => guardHolds r.h (l.w.th t)) = [] := hact
        simp only [Alu.run, hr', h1, hact', hact, Lane.derailAll]
        cases a.dst <;> simp [Alu.uniform]
      · refine (nextChain_same _ _ k).trans ?_
        rw [advance_th _ _ _ hk, advance_th _ _ _ hk]
        have h0 := shiftIdle_same l [] hk
        split
        · exact ⟨congrArg (· + _) h0.pc, rfl, h0.v, h0.p, h0.pt, h0.pp, rfl⟩
        · exact h0
    · refine ⟨(l.advance l.w.batch a.size).endChain, ?_, (Lane.SameButFlow.endChain _).trans (.advance l _ _),
        fun k _ => endChain_same _ k⟩
      have hne : (active l r.h).isEmpty = false := by simpa using hact
      unfold active at hne
      simp only [Alu.run, hr', h1, hne, hf, active]
      rfl
  refine derailForm_of (m := m) hl (by rw [he]; simp only [Alu.exec, onLane, hl, hm]) hflow (active_nodup l r.h)
    (fun k hk => active_batch hk) ?_ ?_ ?_
  · intro k hk
    have hb := active_batch hk
    refine kept_of_same (hth k (batch_lt hb)) ?_
    rw [advance_th l _ _ (batch_lt hb)]
    split <;> exact ⟨rfl, rfl, rfl, rfl⟩
  · intro k hk _
    have hs := hth k (batch_lt hk)
    have ha := advance_th l l.w.batch a.size (batch_lt hk)
    rw [if_pos (by simpa using hk)] at ha
    rw [ha] at hs
    exact ⟨⟨by rw [hs.pc, h2], hs.st⟩, ⟨hs.v, hs.p, hs.pt, hs.pp⟩⟩
  · intro k hk hnb
    have ha := advance_th l l.w.batch a.size hk
    rw [if_neg (by simpa using hnb)] at ha
    exact ha ▸ hth k hk

end Sys2Proof.Machine
end

