-- ==== Sys2Proof/Laws/Uniform.lean ====
section
/-! SUPPORT. The uniform forms (R30): what they write and what they leave. -/

namespace Sys2Proof.Machine

open Sys2Proof.Claims

theorem sreg_setS (w : Warp) (i j : Nat) (x : TWord) (hi : i ≠ 63) :
    (w.setS i x).sreg j = if j = i then x else w.sreg j := by
  unfold Warp.setS Warp.sreg
  rw [if_neg hi]
  by_cases h : j = i
  · subst h; simp [hi]
  · by_cases h2 : j = 63
    · simp [h2, Ne.symm hi]
    · simp [h2, h]

theorem setS_only (w : Warp) (i : Nat) (x : TWord) : ∃ y, w.setS i x = { w with s := y } := by
  unfold Warp.setS; split <;> exact ⟨_, rfl⟩

theorem setSc_only (w : Warp) (i : Nat) (wide : Bool) (v : DWord) (c : Option Word) :
    ∃ y, w.setSc i wide v c = { w with s := y } := by
  unfold Warp.setSc
  split
  · exact ⟨_, rfl⟩
  · simp only
    obtain ⟨y, hy⟩ := setS_only w i (match c with | some p => (⟨p, true⟩ : TWord) | none => ⟨v.setWidth 32, false⟩)
    erw [hy]
    split
    · exact setS_only { w with s := y } (i + 1) _
    · exact ⟨y, rfl⟩

theorem setSc_written (w : Warp) (i : BitVec 6) (wide : Bool) (v : DWord) (c : Option Word)
    (hpair : i ≠ 63 → wide = true → i.toNat + 1 ≠ 63) :
    scalarWritten i wide v c w (w.setSc i.toNat wide v c) := by
  by_cases hi : i = 63
  · subst hi
    exact ⟨fun h => absurd rfl h, fun j _ => by simp [Warp.setSc]⟩
  · have hn : i.toNat ≠ 63 := fun h => hi (BitVec.eq_of_toNat_eq h)
    have e : w.setSc i.toNat wide v c =
        (if wide then (w.setS i.toNat (wordOf v c 0)).setS (i.toNat + 1) (wordOf v c 32) else w.setS i.toNat (wordOf v c 0)) := by
      unfold Warp.setSc
      rw [if_neg hn]
      cases c <;> simp [wordOf]
    rw [e]
    cases wide with
    | false =>
      refine ⟨fun _ => ⟨by simp [sreg_setS _ _ _ _ hn], fun h => by cases h⟩, fun j hj => ?_⟩
      simp [sreg_setS _ _ _ _ hn, (hj hi).1]
    | true =>
      have hp := hpair hi rfl
      refine ⟨fun _ => ⟨?_, fun _ => ?_⟩, fun j hj => ?_⟩
      · simp [sreg_setS _ _ _ _ hp, sreg_setS _ _ _ _ hn]
      · simp [sreg_setS _ _ _ _ hp]
      · obtain ⟨h1, h2⟩ := hj hi
        simp [sreg_setS _ _ _ _ hp, sreg_setS _ _ _ _ hn, h1, h2 rfl]

/-- A lane whose threads were shifted, advanced and settled: what each thread is then. -/
theorem finish_th (l : Lane) (n : Nat) (c : Bool) (hne : l.w.batch ≠ []) :
    let m := (((l.shiftIdle []).advance l.w.batch n).nextChain c).settle l.w.batch
    (∀ k ∈ l.w.batch, past n (l.w.th k) (m.w.th k) ∧ kept (l.w.th k) (m.w.th k)) ∧
    (∀ k < 32, k ∉ l.w.batch → bystander (l.w.th k) (m.w.th k)) := by
  intro m
  obtain ⟨t0, ht0⟩ := List.exists_mem_of_ne_nil _ hne
  have key : ∀ k < 32, ((((l.shiftIdle []).advance l.w.batch n).nextChain c).w.th k).SameButLatches
      (if k ∈ l.w.batch then { l.w.th k with pc := (l.w.th k).pc + BitVec.ofNat 57 n, st := .eligible, derailed := false }
       else l.w.th k) := by
    intro k hk
    refine (nextChain_same _ _ k).trans ?_
    rw [advance_th _ _ _ hk, shiftIdle_th _ _ hk]
    by_cases h : k ∈ l.w.batch <;> simp [h] <;> exact ⟨rfl, rfl, rfl, rfl, rfl, rfl, rfl⟩
  have h0 : ((((l.shiftIdle []).advance l.w.batch n).nextChain c).w.th t0).st = .eligible := by
    rw [(key t0 (batch_lt ht0)).st, if_pos ht0]
  refine ⟨fun k hk => ?_, fun k hk hb => ?_⟩
  · have h := key k (batch_lt hk)
    rw [if_pos hk] at h
    have e : m.w.th k = (((l.shiftIdle []).advance l.w.batch n).nextChain c).w.th k := by
      rw [settle_th _ _ (batch_lt hk) (batch_lt ht0) h0, if_neg (by simp [hk])]
    rw [e]
    exact ⟨⟨h.pc, h.st⟩, ⟨h.v, h.p, h.pt, h.pp⟩⟩
  · have h := key k hk
    rw [if_neg hb] at h
    have e := settle_th (((l.shiftIdle []).advance l.w.batch n).nextChain c) l.w.batch hk (batch_lt ht0) h0
    show bystander _ (Warp.th (Lane.settle _ _).w k)
    rw [e, h.st]
    by_cases hy : (l.w.th k).st = .yielded
    · rw [if_pos ⟨hy, hb⟩]
      exact ⟨⟨h.v, h.p, h.pt, h.pp⟩, h.pc, (if_pos hy).symm⟩
    · rw [if_neg (fun h => hy h.1)]
      exact ⟨⟨h.v, h.p, h.pt, h.pp⟩, h.pc, h.st.trans (if_neg hy).symm⟩

theorem uniform_result (r : RegForm) (a : Alu) (f : Thread → List DWord → DWord) (l : Lane) (h1 : a.h = r.h) (h4 : a.srcs = r.srcs)
    (h5 : a.lit = r.lit) (h6 : a.pred = r.pred) (h7 : a.wideCraze = none) (h8 : ∀ x v, f x v = r.val v)
    (k : Nat) (v : List DWord × Option Word) (hv : sources l.w (l.w.th k) r.lit r.srcs = some v) :
    r.uniform l (l.w.th k) v =
      (f (l.w.th k) (Alu.operands { a with h := ⟨7, false, false⟩ } l.w (l.w.th k) 0).vals,
       crazeOf ((Alu.operands { a with h := ⟨7, false, false⟩ } l.w (l.w.th k) 0).crz ::
         l.w.batch.map (fun t => (l.w.th t).predCraze a.h.guard))) := by
  obtain ⟨-, hvals, hcrz⟩ := operands_of_sources { a with h := ⟨7, false, false⟩ } l.w (l.w.th k) v (by
    show sources _ _ a.lit a.srcs = _; rw [h5, h4]; exact hv)
  have h77 : ∀ x : Thread, x.predCraze 7 = none := fun x => by simp [Thread.predCraze, Thread.predTag]
  rw [hvals, hcrz, h8]
  show _ = (_, crazeOf (crazeOf (v.2 :: ((match a.pred with
    | some (k_1, _) => [(l.w.th k).predCraze k_1]
    | none => []) ++ [(l.w.th k).predCraze 7, a.wideCraze])) :: _))
  rw [h77, h7, h6, h1]
  unfold RegForm.uniform
  rw [← crazeOf_append]
  have drop : ∀ (l g : List (Option Word)), crazeOf (l ++ none :: none :: g) = crazeOf (l ++ g) := by
    intro l g
    rw [crazeOf_append, crazeOf_append l g, crazeOf_cons, crazeOf_cons _ g]
    cases crazeOf l <;> simp [crazeOf_cons]
  cases r.pred with
  | none =>
    simp only [List.append_nil, List.nil_append]
    exact congrArg (Prod.mk _) (drop [v.2] _).symm
  | some q =>
    exact congrArg (Prod.mk _) (drop [v.2, (l.w.th k).predCraze q.1] _).symm

theorem uniform_completes (i : Instr) (r : RegForm) (a : Alu) (f : Thread → List DWord → DWord) (j i' : BitVec 6) (wide w' : Bool)
    (he : ∀ s, exec i s = a.exec f s) (h1 : a.h = r.h) (h2 : a.size = r.size) (h3 : a.dst = r.dst) (h4 : a.srcs = r.srcs)
    (h5 : a.lit = r.lit) (h6 : a.pred = r.pred) (h7 : a.wideCraze = none) (h8 : ∀ x v, f x v = r.val v)
    (hd : r.dst = .scal i' w') (hj : i' = j) (hw : w' = wide)
    (s : State) (l : Lane) (hl : s.lane? = some l) (hr : l.w.ready r.regs = true) (hf : a.faulty l = false)
    (hok : r.dst.ok l.wg.info.nregs = true) :
    ∃ t w, exec i s = .next t ∧ onlyWarp s t l w ∧ onlyScalars l w ∧
      (active l r.h = [] → w.s = l.w.s) ∧
      (∀ k ks v, active l r.h = k :: ks → sources l.w (l.w.th k) r.lit r.srcs = some v →
        scalarWritten j wide (r.uniform l (l.w.th k) v).1 (r.uniform l (l.w.th k) v).2 l.w w) ∧
      (∀ k ∈ l.w.batch, past r.size (l.w.th k) (w.th k) ∧ kept (l.w.th k) (w.th k)) ∧
      (∀ k < 32, k ∉ l.w.batch → bystander (l.w.th k) (w.th k)) := by
  subst hj hw
  obtain ⟨-, -, hne⟩ := lane?_some hl
  -- the lane after the scalar write
  generalize hu : a.uniform f l l.w.batch (active l r.h) i' w' = u
  have hu1 : ∃ y, u = { l with w := { l.w with s := y } } := by
    rw [← hu]; unfold Alu.uniform
    split
    · exact ⟨l.w.s, rfl⟩
    · next t ts hts =>
      simp only
      generalize f (l.w.th t) _ = x1
      generalize crazeOf _ = x2
      obtain ⟨y, hy⟩ := setSc_only l.w i'.toNat w' x1 x2
      exact ⟨y, by rw [hy]⟩
  obtain ⟨y, hy⟩ := hu1
  have hth : ∀ k, u.w.th k = l.w.th k := fun k => by rw [hy]; rfl
  have hb : u.w.batch = l.w.batch := by rw [hy]; rfl
  have hrun : a.run f l = (((u.shiftIdle []).advance u.w.batch r.size).nextChain r.h.chain).settle u.w.batch := by
    have hr' : l.w.ready ((ADst.scal i' w').regs ++ a.reads) = true := by
      rw [← hd]; simpa [RegForm.regs, Alu.reads, h4] using hr
    unfold Alu.run
    simp only [h3, hd, hr', hf, Bool.not_true, h1, h2, hb]
    rw [← hu]; simp [active]
  have hflow : (a.run f l).SameButFlow u := by
    rw [hrun]
    exact (Lane.SameButFlow.settle _ _).trans ((Lane.SameButFlow.nextChain _ _).trans
      ((Lane.SameButFlow.advance _ _ _).trans (.shiftIdle _ _)))
  have hfin := finish_th u r.size r.h.chain (by rw [hb]; exact hne)
  rw [← hrun] at hfin
  simp only [hth, hb] at hfin
  obtain ⟨hcur, hlane, -⟩ := lane?_some hl
  refine ⟨s.putLane (a.run f l), (a.run f l).w, by rw [he]; simp [Alu.exec, onLane, hl], ?_, ?_, ?_, ?_, hfin.1, hfin.2⟩
  · obtain ⟨-, hg, hw, hk, -⟩ := laneOf_some hlane
    have e1 : (a.run f l).ref = l.ref := by rw [hflow.ref, hy]
    have e2 : (a.run f l).wg = l.wg := by rw [hflow.wg, hy]
    have e3 : (a.run f l).core = l.core := by rw [hflow.core, hy]
    refine ⟨rfl, fun a => rfl, warp?_putLane hlane e1 e2, fun n hn => ?_, fun c => ?_⟩
    · exact wg?_putLane_other s _ (by rw [e1]; exact hn)
    · by_cases e : c = l.wg.core
      · subst e
        have := core_putLane_same s (a.run f l)
        rw [e2, e3, hk] at this
        exact this
      · exact core_putLane_other s _ (by rw [e2]; exact e)
  · have := hflow.warp
    unfold onlyScalars
    rw [this, hy]
  · intro h
    rw [hflow.scalars, ← hu, h]; rfl
  · intro k ks v hk hv
    have hkey := uniform_result r a f l h1 h4 h5 h6 h7 h8 k v hv
    rw [hkey]
    have hw2 : u.w = l.w.setSc i'.toNat w' (f (l.w.th k) (Alu.operands { a with h := ⟨7, false, false⟩ } l.w (l.w.th k) 0).vals)
        (crazeOf ((Alu.operands { a with h := ⟨7, false, false⟩ } l.w (l.w.th k) 0).crz ::
          l.w.batch.map (fun t => (l.w.th t).predCraze a.h.guard))) := by
      rw [← hu, hk]; rfl
    have hs := setSc_written l.w i' w' (f (l.w.th k) (Alu.operands { a with h := ⟨7, false, false⟩ } l.w (l.w.th k) 0).vals)
        (crazeOf ((Alu.operands { a with h := ⟨7, false, false⟩ } l.w (l.w.th k) 0).crz ::
          l.w.batch.map (fun t => (l.w.th t).predCraze a.h.guard))) (fun hi hwd h63 => by
      rw [hd] at hok
      subst hwd
      have : i'.toNat ≠ 63 := fun h => hi (BitVec.eq_of_toNat_eq h)
      simp [ADst.ok, scalOk, this] at hok
      omega)
    rw [← hw2] at hs
    have e : ∀ n, (a.run f l).w.sreg n = u.w.sreg n := fun n => by
      unfold Warp.sreg; rw [hflow.scalars]
    simpa only [scalarWritten, e] using hs

end Sys2Proof.Machine
end

