-- ==== Sys2Proof/Laws/Control.lean ====
section
/-! SUPPORT. Branches, waits and yields at the end of an instruction (R36, R37, R170), and derails of several threads
each with its own payload (R395). -/

namespace Sys2Proof.Machine

open Sys2Proof.Claims

theorem mem_spread {r : Nat} {rs : List (Nat × Nat)} (h : r ∈ spread rs) : ∃ p ∈ rs, p.1 ≤ r ∧ r < p.1 + p.2 := by
  simp only [spread, List.mem_flatMap, List.mem_map, List.mem_range] at h
  grind

/-- Registers that hide no error are read as they are (R426). -/
theorem scrub_sound (l : Lane) (t : Nat) (pc : VAddr) (rs : List (Nat × Nat))
    (h : ∀ x ∈ (l.w.th t).bad, ∀ r ∈ rs, ¬ (r.1 ≤ x ∧ x < r.1 + r.2)) : l.scrub t pc rs = l := by
  unfold Lane.scrub
  split
  · rfl
  · have : ∀ ks : List Nat, (∀ k ∈ ks, k ∉ (l.w.th t).bad) → ks.foldl (fun l r => if (l.w.th t).bad.contains r then
        (l.originate 0x0A 0 t pc none false).1.setTh t (((l.originate 0x0A 0 t pc none false).1.w.th t).setBad r (l.originate 0x0A 0 t pc none false).2) else l) l = l := by
      intro ks
      induction ks with
      | nil => intro _; rfl
      | cons k ks ih =>
        intro hk
        rw [List.foldl_cons, if_neg (by simpa using hk k (List.mem_cons_self ..))]
        exact ih (fun j hj => hk j (List.mem_cons_of_mem _ hj))
    refine this _ (fun k hk hb => ?_)
    obtain ⟨p, hp, hr⟩ := mem_spread hk
    exact h k hb p hp hr

theorem scrubTarget_sound (l : Lane) (h : Hdr) (ok : Bool) (rs : List (Nat × Nat)) (hs : targetsSound l h rs) : l.scrubTarget h ok rs = l := by
  unfold Lane.scrubTarget
  split
  · rfl
  · have : ∀ ts : List Nat, (∀ t ∈ ts, t ∈ active l h) → ts.foldl (fun l' t => l'.scrub t l.w.pc rs) l = l := by
      intro ts
      induction ts with
      | nil => intro _; rfl
      | cons t ts ih =>
        intro ht
        rw [List.foldl_cons, scrub_sound _ _ _ _ (hs t (ht t (List.mem_cons_self ..)))]
        exact ih (fun j hj => ht j (List.mem_cons_of_mem _ hj))
    refine this _ (fun t ht => ?_)
    have := List.mem_filter.mp ht
    exact List.mem_filter.mpr ⟨this.1, (Bool.and_eq_true _ _).mp this.2 |>.1⟩

theorem advance_active {l : Lane} {h : Hdr} {n k : Nat} (hk : k ∈ active l h) :
    (l.advance l.w.batch n).w.th k = { l.w.th k with pc := (l.w.th k).pc + BitVec.ofNat 57 n, st := .eligible, derailed := false } := by
  have hb := active_batch hk
  rw [advance_th l _ _ (batch_lt hb), if_pos (by simpa using hb)]

theorem branch_done (i : Instr) (f : Form) (target : VAddr → Option VAddr) (g : VAddr → Lane → Nat → Thread → Turn) (F : Nat → Thread)
    (s : State) (l : Lane) (hl : s.lane? = some l) (he : exec i s = onLane s (branch f target g))
    (hr : l.w.ready f.regs = true) (hf : active l f.h ≠ [] → f.fault l = none)
    (hc : ∀ t ∈ active l f.h, (l.w.th t).predCraze f.h.guard = none)
    (hg : ∀ t ∈ active l f.h, g l.w.pc l t ((l.advance l.w.batch f.size).w.th t) = .go (F t))
    (hF : ∀ t ∈ active l f.h, (F t).st = .eligible) :
    ∃ t w, exec i s = .next t ∧ onlyWarp s t l w ∧ onlyThreads l w ∧
      (∀ k ∈ active l f.h, (w.th k).SameButLatches (F k)) ∧
      (∀ k ∈ l.w.batch, k ∉ active l f.h → past f.size (l.w.th k) (w.th k) ∧ kept (l.w.th k) (w.th k)) ∧
      (∀ k < 32, k ∉ l.w.batch → bystander (l.w.th k) (w.th k)) := by
  obtain ⟨hflow, hth⟩ := branchGo_flow f F l l.w.pc f.h
  have hgo := branch_go f target g F l hr hf hc hg
  obtain ⟨-, -, hne⟩ := lane?_some hl
  obtain ⟨t0, ht0⟩ := List.exists_mem_of_ne_nil _ hne
  generalize branchGo f F l l.w.pc (active l f.h) = m at hflow hth hgo
  have hadv : ∀ k ∈ l.w.batch, k ∉ active l f.h → (m.w.th k).SameButLatches
      { l.w.th k with pc := (l.w.th k).pc + BitVec.ofNat 57 f.size, st := .eligible, derailed := false } := by
    intro k hk hn
    have h := hth k (batch_lt hk)
    rw [if_neg hn, advance_th l _ _ (batch_lt hk), if_pos (by simpa using hk)] at h
    exact h
  have hst0 : (m.w.th t0).st = .eligible := by
    by_cases h : t0 ∈ active l f.h
    · have := hth t0 (batch_lt ht0)
      rw [if_pos h] at this
      rw [this.st, hF t0 h]
    · exact (hadv t0 ht0 h).st
  have hs : ∀ u < 32, (m.settle l.w.batch).w.th u =
      if (m.w.th u).st = .yielded ∧ u ∉ l.w.batch then { m.w.th u with st := .eligible } else m.w.th u :=
    fun u hu => settle_th m l.w.batch hu (batch_lt ht0) hst0
  have hfl := (Lane.SameButFlow.settle m l.w.batch).trans hflow
  refine ⟨s.putLane (m.settle l.w.batch), (m.settle l.w.batch).w, ?_, putLane_onlyWarp hl hfl, hfl.warp, ?_, ?_, ?_⟩
  · rw [he]; simp only [onLane, hl, hgo]
  · intro k hk
    have hb := active_batch hk
    have h := hth k (batch_lt hb)
    rw [if_pos hk] at h
    rw [hs k (batch_lt hb), if_neg (fun h => h.2 hb)]
    exact h
  · intro k hk hn
    rw [hs k (batch_lt hk), if_neg (fun h => h.2 hk)]
    have h := hadv k hk hn
    exact ⟨⟨h.pc, h.st⟩, ⟨h.v, h.p, h.pt, h.pp⟩⟩
  · intro k hk hn
    have h := hth k hk
    rw [if_neg (fun h => hn (active_batch h)), advance_th l _ _ hk, if_neg (by simpa using hn)] at h
    rw [hs k hk, h.st]
    by_cases hy : (l.w.th k).st = .yielded
    · rw [if_pos ⟨hy, hn⟩]
      exact ⟨⟨h.v, h.p, h.pt, h.pp⟩, h.pc, (if_pos hy).symm⟩
    · rw [if_neg (fun h => hy h.1)]
      exact ⟨⟨h.v, h.p, h.pt, h.pp⟩, h.pc, h.st.trans (if_neg hy).symm⟩

theorem putResult_st (x : Thread) (d : ADst) (v : DWord) (c : Option Word) : (x.putResult d v c).st = x.st := by
  unfold Thread.putResult
  split
  · simp only [Thread.shift]; split
    · unfold Thread.setV2; split <;> [rfl; (split <;> simp [Thread.setV] <;> split <;> (try split) <;> rfl)]
    · unfold Thread.setV1 Thread.setV; split <;> rfl
  · rfl
  · simp only [Thread.shift]; unfold Thread.setPred; split <;> [rfl; (split <;> rfl)]
  · rfl

theorem written_of_same {d : ADst} {v : DWord} {c : Option Word} {x y z : Thread} (h : kept x z) (hw : written d v c z y) :
    written d v c x y := by
  obtain ⟨h1, h2, h3, h4⟩ := h
  have e1 : ∀ i, x.vreg i = z.vreg i := fun i => by simp [Thread.vreg, h1]
  have e2 : ∀ i, x.pred i = z.pred i := fun i => by simp [Thread.pred, h2]
  have e3 : ∀ i, x.predTag i = z.predTag i := fun i => by simp [Thread.predTag, h3]
  cases d <;> simp only [written, kept, e1, e2, e3] at hw ⊢ <;> simpa only [h1, h2, h3, h4] using hw

theorem foldl_setTh (F : Thread → Thread) : ∀ (ts : List Nat) (l : Lane), ts.Nodup →
    (ts.foldl (fun l t => l.setTh t (F (l.w.th t))) l).SameButFlow l ∧
    ∀ u < 32, (ts.foldl (fun l t => l.setTh t (F (l.w.th t))) l).w.th u = if u ∈ ts then F (l.w.th u) else l.w.th u
  | [], l, _ => ⟨.refl l, fun u _ => by simp⟩
  | t :: ts, l, hn => by
    rw [List.nodup_cons] at hn
    obtain ⟨h1, h2⟩ := foldl_setTh F ts (l.setTh t (F (l.w.th t))) hn.2
    refine ⟨h1.trans (.setTh l t _), fun u hu => ?_⟩
    rw [List.foldl_cons, h2 u hu, setTh_th l t _ hu]
    by_cases h : u = t
    · subst h; rw [if_neg hn.1, if_pos rfl, if_pos List.mem_cons_self]
    · by_cases hm : u ∈ ts <;> simp [hm, h]

theorem nothing_ready (w : Warp) : w.ready [] = true := by simp [Warp.ready]

theorem any_th (w : Warp) (h : w.thr.length = 32) (f : Thread → Bool) :
    w.thr.any f = true ↔ ∃ u < 32, f (w.th u) = true := by
  rw [List.any_eq_true]
  constructor
  · rintro ⟨x, hx, hf⟩
    obtain ⟨u, hu, rfl⟩ := List.getElem_of_mem hx
    exact ⟨u, by omega, by simpa [Warp.th, hu] using hf⟩
  · rintro ⟨u, hu, hf⟩
    have hu' : u < w.thr.length := by omega
    exact ⟨w.thr[u], List.getElem_mem hu', by simpa [Warp.th, hu'] using hf⟩

theorem unyield_first (w : Warp) (b : List Nat) {u : Nat} (hu : u < 32) :
    ({ w with thr := (List.range 32).map (fun t =>
        if (w.th t).st == .yielded && !b.contains t then { w.th t with st := .eligible } else w.th t) } : Warp).th u =
      if (w.th u).st = .yielded ∧ u ∉ b then { w.th u with st := .eligible } else w.th u := by
  rw [th_mk w _ hu]; simp [Bool.and_eq_true]

/-- The yields that end after an instruction (R36), thread by thread. -/
theorem unyield_cases (w : Warp) (b : List Nat) :
    ((∃ v < 32, (w.th v).runnable = true ∨ ((w.th v).st = .yielded ∧ v ∉ b)) ∧
      ∀ u < 32, (w.unyield b).th u = if (w.th u).st = .yielded ∧ u ∉ b then { w.th u with st := .eligible } else w.th u) ∨
    ((∀ v < 32, (w.th v).runnable = false ∧ ((w.th v).st = .yielded → v ∈ b)) ∧
      ∀ u < 32, (w.unyield b).th u = if (w.th u).st = .yielded then { w.th u with st := .eligible } else w.th u) := by
  have hany := any_th ({ w with thr := (List.range 32).map (fun t =>
        if (w.th t).st == .yielded && !b.contains t then { w.th t with st := .eligible } else w.th t) } : Warp) (by simp) Thread.runnable
  have hf := fun (u : Nat) (hu : u < 32) => unyield_first w b hu
  have hrun : ∀ u < 32, (({ w with thr := (List.range 32).map (fun t =>
        if (w.th t).st == .yielded && !b.contains t then { w.th t with st := .eligible } else w.th t) } : Warp).th u).runnable = true ↔
        ((w.th u).runnable = true ∨ ((w.th u).st = .yielded ∧ u ∉ b)) := by
    intro u hu
    rw [hf u hu]
    split
    · next h => simp [Thread.runnable, h.1, h.2]
    · next h => simp [h]
  by_cases h : ({ w with thr := (List.range 32).map (fun t =>
        if (w.th t).st == .yielded && !b.contains t then { w.th t with st := .eligible } else w.th t) } : Warp).thr.any Thread.runnable = true
  · left
    obtain ⟨v, hv, hr⟩ := hany.mp h
    refine ⟨⟨v, hv, (hrun v hv).mp hr⟩, fun u hu => ?_⟩
    simp only [Warp.unyield, h, if_true]
    exact hf u hu
  · right
    refine ⟨fun v hv => ?_, fun u hu => ?_⟩
    · have : ¬ ((w.th v).runnable = true ∨ ((w.th v).st = .yielded ∧ v ∉ b)) := fun hc => h (hany.mpr ⟨v, hv, (hrun v hv).mpr hc⟩)
      rw [not_or, Bool.not_eq_true] at this
      exact ⟨this.1, fun hy => by by_contra hb; exact this.2 ⟨hy, hb⟩⟩
    · simp only [Warp.unyield, h]
      erw [th_mk _ _ hu, hf u hu]
      by_cases hy : (w.th u).st = .yielded
      · by_cases hb : u ∈ b <;> simp [hy, hb]
      · simp [hy]

theorem converge_stays (w : Warp) (hl : w.thr.length = 32) (h : ∃ u < 32, (w.th u).holdsBack = true) : w.converge = w := by
  unfold Warp.converge; rw [if_pos ((any_th w hl _).mpr h)]

theorem lowest_const (w : Warp) (f : Thread → Bool) (p : VAddr) (h : ∀ x ∈ w.thr, f x = true → x.pc = p)
    (he : ∃ x ∈ w.thr, f x = true) : w.lowest f = some p := by
  unfold Warp.lowest
  have key : ∀ (l : List Thread) (m : Option VAddr), (∀ x ∈ l, x.pc = p) → (m = none ∨ m = some p) → (l ≠ [] ∨ m = some p) →
      l.foldl (fun m t => match m with
        | none => some t.pc
        | some p => if t.pc < p then some t.pc else some p) m = some p := by
    intro l
    induction l with
    | nil => intro m _ _ h; simpa using h
    | cons x l ih =>
      intro m hx hm _
      rw [List.foldl_cons]
      have hp := hx x List.mem_cons_self
      refine ih _ (fun y hy => hx y (List.mem_cons_of_mem _ hy)) ?_ ?_ <;> right <;> rcases hm with rfl | rfl <;> simp [hp]
  refine key _ none (fun x hx => ?_) (.inl rfl) (.inl ?_)
  · rw [List.mem_filter] at hx; exact h x hx.1 hx.2
  · obtain ⟨x, hx, hf⟩ := he
    exact List.ne_nil_of_mem (List.mem_filter.mpr ⟨hx, hf⟩)

theorem derails_th (P : Nat → Word) : ∀ (ts : List Nat) (l : Lane), ts.Nodup →
    (∀ u < 32, (ts.foldl (fun l t => l.derail t (P t)) l).w.th u = if u ∈ ts then l.diverted u (P u) else l.w.th u) ∧
    (ts.foldl (fun l t => l.derail t (P t)) l).ref = l.ref ∧ (ts.foldl (fun l t => l.derail t (P t)) l).wg = l.wg ∧
    (ts.foldl (fun l t => l.derail t (P t)) l).core = l.core ∧
    (ts.foldl (fun l t => l.derail t (P t)) l).w = { l.w with thr := (ts.foldl (fun l t => l.derail t (P t)) l).w.thr, region := (ts.foldl (fun l t => l.derail t (P t)) l).w.region } ∧
    ∀ r, l.w.region = some r → ∃ q, (ts.foldl (fun l t => l.derail t (P t)) l).w.region = some q ∧ q.members = r.members ∧
      (∀ k, k ∉ ts → Tabs.find? q.crazes k = Tabs.find? r.crazes k) ∧
      (∀ k ∈ ts, r.members.getLsbD k = true → Tabs.find? q.crazes k = some ((Tabs.find? r.crazes k).getD (P k)))
  | [], l, _ => ⟨fun u _ => by simp, rfl, rfl, rfl, rfl, fun r hr => ⟨r, hr, rfl, fun k _ => rfl, fun k hk => absurd hk (by simp)⟩⟩
  | t :: ts, l, hn => by
    rw [List.nodup_cons] at hn
    obtain ⟨h1, h2, h3, h4, h5, h6⟩ := derails_th P ts (l.derail t (P t)) hn.2
    rw [List.foldl_cons]
    refine ⟨fun u hu => ?_, by rw [h2]; simp, by rw [h3]; simp, by rw [h4]; simp, ?_, fun r hr => ?_⟩
    · rw [h1 u hu, derail_th l t _ hu]
      by_cases h : u = t
      · subst h; rw [if_neg hn.1, if_pos rfl, if_pos List.mem_cons_self]
      · by_cases hm : u ∈ ts
        · rw [if_pos hm, if_pos (List.mem_cons_of_mem _ hm)]
          simp only [Lane.diverted, derail_target, derail_th l t _ hu, if_neg h]
        · rw [if_neg hm, if_neg h, if_neg (by simp [h, hm])]
    · refine h5.trans ?_
      rw [derail_flow]
    · have hd := derail_region l t (P t)
      rw [hr, Option.map_some] at hd
      obtain ⟨q, q1, q2, q3, q4⟩ := h6 _ hd
      have hm : (if r.members.getLsbD t = true then r.setCraze t (P t) true l.clock else r).members = r.members := by split <;> rfl
      have hc : ∀ k, Tabs.find? (if r.members.getLsbD t = true then r.setCraze t (P t) true l.clock else r).crazes k =
          if k = t ∧ r.members.getLsbD t = true then some ((Tabs.find? r.crazes t).getD (P t)) else Tabs.find? r.crazes k := by
        intro k
        have := (crazed_members (P t) l.clock [t] r).2.1 k
        simp only [List.foldl_cons, List.foldl_nil, List.mem_singleton] at this
        rw [this]
        by_cases hk : k = t
        · subst hk; rfl
        · simp [hk]
      refine ⟨q, q1, q2.trans hm, fun k hk => ?_, fun k hk hmk => ?_⟩
      · rw [q3 k (fun h => hk (List.mem_cons_of_mem _ h)), hc k, if_neg (fun h => hk (by simp [h.1]))]
      · by_cases hkt : k = t
        · subst hkt
          rw [q3 k hn.1, hc k, if_pos ⟨rfl, hmk⟩]
        · have hk' : k ∈ ts := (List.mem_cons.mp hk).resolve_left hkt
          rw [q4 k hk' (by rw [hm]; exact hmk), hc k, if_neg (fun h => hkt h.1)]

theorem branch_crazed (i : Instr) (f : Form) (target : VAddr → Option VAddr) (g : VAddr → Lane → Nat → Thread → Turn)
    (s : State) (l : Lane) (hl : s.lane? = some l) (he : exec i s = onLane s (branch f target g))
    (hr : l.w.ready f.regs = true) (hc : ∀ k ∈ active l f.h, ((l.w.th k).predCraze f.h.guard).isSome) :
    ∃ t w, exec i s = .next t ∧ onlyWarp s t l w ∧ onlyFlow l w ∧
      (∀ k ∈ active l f.h, ∀ p, (l.w.th k).predCraze f.h.guard = some p → derailed l k p (l.w.th k) (w.th k) ∧
        (∀ r, l.w.region = some r → r.members.getLsbD k = true →
          (w.region.map (fun q => Tabs.find? q.crazes k)) = some (some ((Tabs.find? r.crazes k).getD p)))) ∧
      (∀ k ∈ l.w.batch, k ∉ active l f.h → kept (l.w.th k) (w.th k)) ∧
      (∀ k < 32, k ∉ l.w.batch → (l.w.th k).atConv = false → bystander (l.w.th k) (w.th k)) := by
  let P : Nat → Word := fun k => ((l.w.th k).predCraze f.h.guard).getD 0
  obtain ⟨h1, h2, h3, h4, h5, h6⟩ := derails_th P (active l f.h) (l.advance l.w.batch f.size) (active_nodup l f.h)
  generalize hd : (active l f.h).foldl (fun l t => l.derail t (P t)) (l.advance l.w.batch f.size) = d at h1 h2 h3 h4 h5 h6
  -- the instruction
  obtain ⟨e, hex, hee⟩ : ∃ e : Lane, branch f target g l = e.settle l.w.batch ∧ e.SameButFlow d ∧
      ∀ u < 32, (e.w.th u).SameButLatches (d.w.th u) := by
    have hclean : (active l f.h).filter (fun t => ((l.w.th t).predCraze f.h.guard).isNone) = [] := by
      rw [List.filter_eq_nil_iff]
      intro k hk
      obtain ⟨p, hp⟩ := Option.isSome_iff_exists.mp (hc k hk)
      simp [hp]
    have hmap : (active l f.h).map (fun t => (t, match (l.w.th t).predCraze f.h.guard with
        | some p => Turn.crazed p
        | none => g l.w.pc l t ((l.advance l.w.batch f.size).w.th t))) = (active l f.h).map (fun t => (t, Turn.crazed (P t))) :=
      List.map_congr_left (fun t ht => by
        obtain ⟨p, hp⟩ := Option.isSome_iff_exists.mp (hc t ht)
        simp [hp, P])
    have hfold : ((active l f.h).map (fun t => (t, Turn.crazed (P t)))).foldl (fun m e => m.turn e.1 l.w.pc e.2) (l.advance l.w.batch f.size) = d := by
      rw [List.foldl_map, ← hd]; rfl
    have hany : ((active l f.h).map (fun t => (t, Turn.crazed (P t)))).any (fun e => e.2.derails) = !(active l f.h).isEmpty := by
      cases active l f.h <;> simp [Turn.derails]
    refine ⟨if !(active l f.h).isEmpty || !f.chains then d.endChain else (d.shiftIdle (active l f.h)).nextChain f.h.chain, ?_, ?_, ?_⟩
    · unfold active at hclean hmap hfold hany ⊢
      unfold branch
      simp only [hr, Bool.not_true, Bool.false_eq_true, if_false, hclean]
      cases f.fault l <;> (simp only; erw [hmap]; simp only [hany, List.map_map]; erw [hfold]; simp [Function.comp_def])
    · split
      · exact .endChain _
      · exact (Lane.SameButFlow.nextChain _ _).trans (.shiftIdle _ _)
    · intro u hu
      split
      · exact endChain_same _ _
      · exact (nextChain_same _ _ _).trans (shiftIdle_same _ _ hu)
  have hfl := (Lane.SameButFlow.settle e l.w.batch).trans hee.1
  have hst : ∀ u < 32, u ∈ active l f.h → ((e.w.th u).st ≠ .yielded ∧ (e.w.th u).atConv = false) := by
    intro u hu ha
    have a := (hee.2 u hu).st
    rw [h1 u hu, if_pos ha] at a
    obtain ⟨b1, b2, -⟩ := diverted_st (l.advance l.w.batch f.size) u (P u)
    exact ⟨by rw [a]; exact b1, by simpa only [Thread.atConv, a] using b2⟩
  have hreg : (e.settle l.w.batch).w.region = d.w.region := hfl.region
  refine ⟨s.putLane (e.settle l.w.batch), (e.settle l.w.batch).w, by rw [he]; simp only [onLane, hl, hex], ?_, ?_, ?_, ?_, ?_⟩
  · obtain ⟨-, hl2, -⟩ := lane?_some hl
    obtain ⟨-, -, -, hk, -⟩ := laneOf_some hl2
    have e1 : (e.settle l.w.batch).ref = l.ref := hfl.ref.trans h2
    have e2 : (e.settle l.w.batch).wg = l.wg := hfl.wg.trans h3
    have e3 : (e.settle l.w.batch).core = l.core := hfl.core.trans h4
    refine ⟨rfl, fun a => rfl, warp?_putLane hl2 e1 e2, fun n hn => wg?_putLane_other s _ (by rw [e1]; exact hn), fun c => ?_⟩
    by_cases ec : c = l.wg.core
    · subst ec
      have := core_putLane_same s (e.settle l.w.batch)
      rw [e2, e3, hk] at this
      exact this
    · exact core_putLane_other s _ (by rw [e2]; exact ec)
  · unfold onlyFlow; rw [hfl.warp, h5]; rfl
  · intro k hk p hp
    have hk32 := batch_lt (active_batch hk)
    obtain ⟨y1, y2⟩ := hst k hk32 hk
    have hPk : P k = p := by simp [P, hp]
    refine ⟨?_, fun r hr hm => ?_⟩
    · rw [settle_th_of e _ hk32 y1 y2]
      have a := hee.2 k hk32
      rw [h1 k hk32, if_pos hk, hPk] at a
      have b : derailed l k p (l.w.th k) ((l.advance l.w.batch f.size).diverted k p) :=
        diverted_derailed rfl rfl (by rw [advance_th _ _ _ hk32]; split <;> exact ⟨rfl, rfl, rfl, rfl⟩)
      unfold derailed at b ⊢
      refine ⟨kept_of_same a b.1, ?_⟩
      have b2 := b.2
      revert b2
      cases handler l k p with
      | none => intro b2; exact a.st.trans b2
      | some x => intro b2; exact ⟨a.pc.trans b2.1, a.st.trans b2.2⟩
    · obtain ⟨q, q1, q2, -, q4⟩ := h6 r hr
      rw [hreg, q1, Option.map_some, q4 k hk hm, hPk]
  · intro k hk hn
    have a := hee.2 k (batch_lt hk)
    rw [h1 k (batch_lt hk), if_neg hn, advance_th _ _ _ (batch_lt hk), if_pos (by simpa using hk)] at a
    rw [settle_th_of e _ (batch_lt hk) (by rw [a.st]; simp) (by simp [Thread.atConv, a.st])]
    exact ⟨a.v, a.p, a.pt, a.pp⟩
  · intro k hk hn hcv
    have a := hee.2 k hk
    rw [h1 k hk, if_neg (fun h => hn (active_batch h)), advance_th _ _ _ hk, if_neg (by simpa using hn)] at a
    rw [settle_bystander e _ hk hn (by simpa only [Thread.atConv, a.st] using hcv), a.st]
    by_cases hy : (l.w.th k).st = .yielded
    · rw [if_pos hy]
      exact ⟨⟨a.v, a.p, a.pt, a.pp⟩, a.pc, (if_pos hy).symm⟩
    · rw [if_neg hy]
      exact ⟨⟨a.v, a.p, a.pt, a.pp⟩, a.pc, a.st.trans (if_neg hy).symm⟩

end Sys2Proof.Machine
end

