-- ==== Sys2Proof/Laws/Latch.lean ====
section
/-! SUPPORT. What an instruction that honours `C` leaves in the latches (R98). -/

namespace Sys2Proof.Machine

open Sys2Proof.Claims

/-- Two threads hold the same latches. -/
def Thread.SameLatches (x y : Thread) : Prop := x.l0 = y.l0 ∧ x.l1 = y.l1

theorem unyield_latches (w : Warp) (b : List Nat) {u : Nat} (hu : u < 32) : ((w.unyield b).th u).SameLatches (w.th u) := by
  rcases unyield_cases w b with ⟨-, h⟩ | ⟨-, h⟩ <;> rw [h u hu] <;> split <;> exact ⟨rfl, rfl⟩

theorem converge_latches (w : Warp) (u : Nat) : (w.converge.th u).SameLatches (w.th u) := by
  unfold Warp.converge
  split
  · exact ⟨rfl, rfl⟩
  · split
    · exact ⟨rfl, rfl⟩
    · simp only [Warp.th, List.getD_eq_getElem?_getD, List.getElem?_map]
      cases w.thr[u]? with
      | none => exact ⟨rfl, rfl⟩
      | some x =>
        simp only [Option.map_some, Option.getD_some]
        split
        · split <;> exact ⟨rfl, rfl⟩
        · exact ⟨rfl, rfl⟩

theorem settle_latches (l : Lane) (b : List Nat) {u : Nat} (hu : u < 32) : ((l.settle b).w.th u).SameLatches (l.w.th u) := by
  have h1 := converge_latches (l.w.unyield b) u
  have h2 := unyield_latches l.w b hu
  exact ⟨h1.1.trans h2.1, h1.2.trans h2.2⟩

theorem settle_chain (l : Lane) (b : List Nat) : (l.settle b).w.chain = l.w.chain := by
  obtain ⟨x, hx⟩ := Lane.SameButFlow.unyield_thr l.w b
  obtain ⟨y, hy⟩ := Lane.SameButFlow.converge_thr { l.w with thr := x }
  unfold Lane.settle
  rw [hx, hy]

theorem nextChain_shifted (m l : Lane) (h : Hdr) (hc : m.w.chain = l.w.chain) (ho : m.chainOff = l.chainOff)
    (hlen : m.w.thr.length = 32) :
    (m.nextChain h.chain).w.chain = (if chainsOn l h then l.w.chain + 1 else 0) ∧
    ∀ u < 32, ∀ r x, (m.w.th u).l1 = Thread.l0 x → (m.w.th u).l0 = r →
      shifted (chainsOn l h) r x ((m.nextChain h.chain).w.th u) := by
  unfold Lane.nextChain Lane.goesOn chainsOn shifted
  rw [hc, ho]
  split
  · exact ⟨rfl, fun u hu r x h1 h0 => ⟨h1, h0⟩⟩
  · refine ⟨rfl, fun u hu r x h1 h0 => ?_⟩
    rw [endChain_th, if_pos (by omega)]
    exact ⟨rfl, rfl⟩

theorem putResult_latches (x : Thread) (d : ADst) (v : DWord) (c : Option Word) (hd : ∀ i w, d ≠ .scal i w) :
    (x.putResult d v c).l1 = x.l0 ∧
    (x.putResult d v c).l0 = latched d v c := by
  have hs : ∀ (z : Thread) n y, (z.setV n y).l0 = z.l0 := fun z n y => by unfold Thread.setV; split <;> rfl
  have hl : latchOf v c = wordOf v c 0 := by cases c <;> simp [latchOf, wordOf]
  cases d with
  | scal i w => exact absurd rfl (hd i w)
  | latch => exact ⟨rfl, by simp only [Thread.putResult, Thread.shift, hl, latched]⟩
  | vec i wide =>
    refine ⟨?_, by simp only [Thread.putResult, Thread.shift, hl, latched]⟩
    simp only [Thread.putResult, Thread.shift]
    cases wide
    · simp only [Bool.false_eq_true, if_false, Thread.setV1, hs]
    · simp only [if_true, Thread.setV2]
      split
      · rfl
      · split <;> simp only [hs]
  | pred k =>
    refine ⟨?_, rfl⟩
    simp only [Thread.putResult, Thread.shift, Thread.setPred]
    split
    · rfl
    · split <;> rfl

theorem alu_threads_chain (a : Alu) (f : Thread → List DWord → DWord) (pc : VAddr) :
    ∀ (ts : List Nat) (l : Lane), ts.Nodup → (∀ t ∈ ts, t < 32) → (∀ t ∈ ts, (l.w.th t).bad = []) →
      (∀ t ∈ ts, (a.operands l.w (l.w.th t) 0).latch = false) → (ts.foldl (a.thread f pc) l).w.chain = l.w.chain
  | [], l, _, _, _, _ => rfl
  | t :: ts, l, hn, hlt, hb, hr => by
    rw [List.nodup_cons] at hn
    rw [List.foldl_cons, alu_thread a f pc l t (hb t List.mem_cons_self) (hr t List.mem_cons_self)]
    generalize (l.w.th t).putResult a.dst _ _ = y
    have hth : ∀ u ∈ ts, (l.setTh t y).w.th u = l.w.th u := fun u hu => by
      have hne : u ≠ t := fun e => hn.1 (e ▸ hu)
      simpa using setTh_other l.w y (hlt u (List.mem_cons_of_mem _ hu)) hne
    exact (alu_threads_chain a f pc ts (l.setTh t y) hn.2 (fun u hu => hlt u (List.mem_cons_of_mem _ hu))
      (fun u hu => by rw [hth u hu]; exact hb u (List.mem_cons_of_mem _ hu))
      (fun u hu => by
        rw [hth u hu, operands_sameScalars (show (l.setTh t y).w.s = l.w.s from rfl)]; exact hr u (List.mem_cons_of_mem _ hu))).trans rfl

/-- The result of a form in the words of the statements. -/
theorem form_result (r : RegForm) (a : Alu) (f : Thread → List DWord → DWord) (l : Lane) (h1 : a.h = r.h) (h4 : a.srcs = r.srcs)
    (h5 : a.lit = r.lit) (h6 : a.pred = r.pred) (h7 : a.wideCraze = none) (h8 : ∀ x v, f x v = r.val v)
    (k : Nat) (v : List DWord × Option Word) (hv : sources l.w (l.w.th k) r.lit r.srcs = some v) :
    r.result (l.w.th k) v = (f (l.w.th k) (a.operands l.w (l.w.th k) 0).vals, (a.operands l.w (l.w.th k) 0).crz) := by
  obtain ⟨-, hvals, hcrz⟩ := operands_of_sources a l.w (l.w.th k) v (by rw [h5, h4]; exact hv)
  rw [h8, hvals, hcrz, h1, h6, h7]
  unfold RegForm.result
  cases r.pred with
  | none =>
    simp only [List.append_nil]
    exact congrArg (Prod.mk _) (crazeOf_snoc_none [v.2, (l.w.th k).predCraze r.h.guard]).symm
  | some q => exact congrArg (Prod.mk _) (crazeOf_snoc_none [v.2, (l.w.th k).predCraze q.1, (l.w.th k).predCraze r.h.guard]).symm

theorem regForm_latches (i : Instr) (r : RegForm) (a : Alu) (f : Thread → List DWord → DWord)
    (he : ∀ s, exec i s = a.exec f s) (h1 : a.h = r.h) (h2 : a.size = r.size) (h3 : a.dst = r.dst) (h4 : a.srcs = r.srcs)
    (h5 : a.lit = r.lit) (h6 : a.pred = r.pred) (h7 : a.wideCraze = none) (h8 : ∀ x v, f x v = r.val v)
    (h9 : a.bad = RegForm.sound.reserved i) (h10 : a.slow = RegForm.sound.slow i)
    (s : State) (l : Lane) (hl : s.lane? = some l) (hclear : clear l r.h r.regs) (hs : r.sound i l) (hp : r.perThread)
    (hsrc : ∀ t ∈ active l r.h, (sources l.w (l.w.th t) r.lit r.srcs).isSome) :
    ∃ t g w, exec i s = .next t ∧ t.warp? l.ref = some (g, w) ∧
      w.chain = (if chainsOn l r.h then l.w.chain + 1 else 0) ∧
      (∀ k ∈ active l r.h, ∀ v, sources l.w (l.w.th k) r.lit r.srcs = some v →
        shifted (chainsOn l r.h) (latched r.dst (r.result (l.w.th k) v).1 (r.result (l.w.th k) v).2) (l.w.th k) (w.th k)) ∧
      (∀ k < 32, k ∉ active l r.h → shifted (chainsOn l r.h) none (l.w.th k) (w.th k)) := by
  obtain ⟨hready, hbad⟩ := hclear
  have hf : a.faulty l = false := by
    have := faulty_iff i r a l h1 h3 h4 h9 h10
    cases h : a.faulty l with
    | false => rfl
    | true => exact absurd hs (this.mp h)
  have hlat : ∀ t ∈ active l a.h, (a.operands l.w (l.w.th t) 0).latch = false := by
    intro t ht
    obtain ⟨v, hv⟩ := Option.isSome_iff_exists.mp (hsrc t (h1 ▸ ht))
    exact (operands_of_sources a l.w _ v (by rw [h5, h4]; exact hv)).1
  obtain ⟨hsame, hth⟩ := alu_threads a f l.w.pc (active l a.h) l (active_nodup l a.h)
    (fun t ht => batch_lt (active_batch ht)) (by rw [h1]; exact hbad) hlat
  have hrun : a.run f l = ((((active l a.h).foldl (a.thread f l.w.pc) l).shiftIdle (active l a.h)).advance l.w.batch a.size
      |>.nextChain a.h.chain).settle l.w.batch := by
    have hready' : l.w.ready (a.dst.regs ++ a.reads) = true := by
      rw [h3]; simpa [RegForm.regs, Alu.reads, h4] using hready
    unfold Alu.run active
    simp only [hready', hf, Bool.not_true, Bool.and_false, Bool.false_eq_true, if_false]
    cases hdst : a.dst with
    | scal i w => exact absurd (h3 ▸ hdst) (hp i w)
    | vec i w => rfl
    | latch => rfl
    | pred k => rfl
  have hch := alu_threads_chain a f l.w.pc (active l a.h) l (active_nodup l a.h)
    (fun t ht => batch_lt (active_batch ht)) (by rw [h1]; exact hbad) hlat
  generalize (active l a.h).foldl (a.thread f l.w.pc) l = l0 at hsame hth hrun hch
  generalize hm : (l0.shiftIdle (active l a.h)).advance l.w.batch a.size = m at hrun
  have hl1 : m.SameButFlow l := by
    rw [← hm]; exact (Lane.SameButFlow.advance _ _ _).trans ((Lane.SameButFlow.shiftIdle _ _).trans hsame)
  obtain ⟨n1, n2⟩ := nextChain_shifted m l a.h (by rw [← hm]; exact hch) hl1.chainOff (by rw [← hm]; simp [Lane.advance])
  have hlm : ∀ u < 32, (m.w.th u).SameLatches ((l0.shiftIdle (active l a.h)).w.th u) := by
    intro u hu
    rw [← hm, advance_th _ _ _ hu]
    split <;> exact ⟨rfl, rfl⟩
  have hfl := (Lane.SameButFlow.settle (m.nextChain a.h.chain) l.w.batch).trans ((Lane.SameButFlow.nextChain _ _).trans hl1)
  obtain ⟨-, hlane, -⟩ := lane?_some hl
  have shift_same : ∀ {r x y z}, shifted (chainsOn l a.h) r x y → z.SameLatches y → shifted (chainsOn l a.h) r x z := by
    intro r x y z hy hz
    unfold shifted at hy ⊢
    rw [hz.1, hz.2]; exact hy
  refine ⟨s.putLane (a.run f l), { l.wg with warps := l.wg.warps.set l.ref.warp (a.run f l).w }, (a.run f l).w,
    by rw [he]; simp [Alu.exec, onLane, hl], ?_, ?_, ?_, ?_⟩
  · exact warp?_putLane hlane (by rw [hrun]; exact hfl.ref) (by rw [hrun]; exact hfl.wg)
  · rw [hrun, settle_chain, n1, h1]
  · intro k hk v hv
    have hk' : k ∈ active l a.h := h1 ▸ hk
    have hk32 := batch_lt (active_batch hk)
    obtain ⟨p1, p0⟩ := putResult_latches (l.w.th k) r.dst (r.result (l.w.th k) v).1 (r.result (l.w.th k) v).2 hp
    have hkey := form_result r a f l h1 h4 h5 h6 h7 h8 k v hv
    have e : (l0.shiftIdle (active l a.h)).w.th k = (l.w.th k).putResult r.dst (r.result (l.w.th k) v).1 (r.result (l.w.th k) v).2 := by
      rw [shiftIdle_th _ _ hk32, if_pos (by simpa using hk'), hth k hk32, if_pos hk', hkey, h3]
    rw [← h1, hrun]
    refine shift_same (n2 k hk32 _ _ ?_ ?_) (settle_latches _ _ hk32)
    · rw [(hlm k hk32).2, e]; exact p1
    · rw [(hlm k hk32).1, e]; exact p0
  · intro k hk hn
    have hn' : k ∉ active l a.h := h1 ▸ hn
    have e : (l0.shiftIdle (active l a.h)).w.th k = (l.w.th k).shift none := by
      rw [shiftIdle_th _ _ hk, if_neg (by simpa using hn'), hth k hk, if_neg hn']
    rw [← h1, hrun]
    refine shift_same (n2 k hk _ _ ?_ ?_) (settle_latches _ _ hk)
    · rw [(hlm k hk).2, e]; rfl
    · rw [(hlm k hk).1, e]; rfl

end Sys2Proof.Machine
end

