-- ==== Sys2Proof/Laws/Body.lean ====
section
/-! SUPPORT. Instructions with a body of their own over the active set: what their threads become, and reads of operands that
find no invalid latch and no hidden error. -/

namespace Sys2Proof.Machine

open Sys2Proof.Claims

/-- A form without a fault whose body gives thread `u` of the active set the registers of `F u`. -/
theorem form_done (i : Instr) (f : Form) (body : VAddr → List Nat → Lane → Lane) (F : Nat → Thread) (s : State) (l : Lane)
    (hl : s.lane? = some l) (he : exec i s = f.exec body s) (hr : l.w.ready f.regs = true) (hf : f.fault l = none)
    (hb : (body l.w.pc (active l f.h) (l.advance l.w.batch f.size)).SameButFlow l)
    (hth : ∀ u < 32, (body l.w.pc (active l f.h) (l.advance l.w.batch f.size)).w.th u =
      if u ∈ active l f.h then F u else (l.advance l.w.batch f.size).w.th u)
    (hF : ∀ u ∈ active l f.h, (F u).pc = (l.w.th u).pc + BitVec.ofNat 57 f.size ∧ (F u).st = .eligible) :
    ∃ t w, exec i s = .next t ∧ onlyWarp s t l w ∧ onlyThreads l w ∧
      (∀ k ∈ l.w.batch, past f.size (l.w.th k) (w.th k)) ∧
      (∀ k ∈ active l f.h, kept (F k) (w.th k)) ∧
      (∀ k ∈ l.w.batch, k ∉ active l f.h → kept (l.w.th k) (w.th k)) ∧
      (∀ k < 32, k ∉ l.w.batch → bystander (l.w.th k) (w.th k)) := by
  obtain ⟨-, -, hne⟩ := lane?_some hl
  obtain ⟨t0, ht0⟩ := List.exists_mem_of_ne_nil _ hne
  generalize hm1 : body l.w.pc (active l f.h) (l.advance l.w.batch f.size) = m1 at hb hth
  obtain ⟨m, hm, hms, hmth⟩ : ∃ m : Lane, f.run body l = m.settle l.w.batch ∧ m.SameButFlow l ∧
      ∀ u < 32, (m.w.th u).SameButLatches (m1.w.th u) := by
    refine ⟨if f.chains then (m1.shiftIdle (active l f.h)).nextChain f.h.chain else m1.endChain, ?_, ?_, ?_⟩
    · unfold Form.run
      simp only [hr, hf, Bool.not_true, ite_self, Bool.false_eq_true, if_false]
      rw [← hm1]; rfl
    · split
      · exact (Lane.SameButFlow.nextChain _ _).trans ((Lane.SameButFlow.shiftIdle _ _).trans hb)
      · exact (Lane.SameButFlow.endChain _).trans hb
    · intro u hu
      split
      · exact (nextChain_same _ _ u).trans (shiftIdle_same _ _ hu)
      · exact endChain_same _ u
  have hbat : ∀ k ∈ l.w.batch, (m.w.th k).pc = (l.w.th k).pc + BitVec.ofNat 57 f.size ∧ (m.w.th k).st = .eligible := by
    intro k hk
    have h := hmth k (batch_lt hk)
    rw [hth k (batch_lt hk)] at h
    by_cases ha : k ∈ active l f.h
    · rw [if_pos ha] at h
      exact ⟨h.pc.trans (hF k ha).1, h.st.trans (hF k ha).2⟩
    · rw [if_neg ha, advance_th _ _ _ (batch_lt hk), if_pos (by simpa using hk)] at h
      exact ⟨h.pc, h.st⟩
  have hset : ∀ u < 32, (m.settle l.w.batch).w.th u =
      if (m.w.th u).st = .yielded ∧ u ∉ l.w.batch then { m.w.th u with st := .eligible } else m.w.th u :=
    fun u hu => settle_th m _ hu (batch_lt ht0) (hbat t0 ht0).2
  have hfl := (Lane.SameButFlow.settle m l.w.batch).trans hms
  refine ⟨s.putLane (m.settle l.w.batch), (m.settle l.w.batch).w, ?_, putLane_onlyWarp hl hfl, hfl.warp, ?_, ?_, ?_, ?_⟩
  · rw [he]; simp only [Form.exec, onLane, hl, hm]
  · intro k hk
    rw [hset k (batch_lt hk), if_neg (fun h => h.2 hk)]
    exact hbat k hk
  · intro k hk
    have hkb := active_batch hk
    have h := hmth k (batch_lt hkb)
    rw [hth k (batch_lt hkb), if_pos hk] at h
    rw [hset k (batch_lt hkb), if_neg (fun h => h.2 hkb)]
    exact kept_same h
  · intro k hk hn
    have h := hmth k (batch_lt hk)
    rw [hth k (batch_lt hk), if_neg hn, advance_th _ _ _ (batch_lt hk), if_pos (by simpa using hk)] at h
    rw [hset k (batch_lt hk), if_neg (fun h => h.2 hk)]
    exact ⟨h.v, h.p, h.pt, h.pp⟩
  · intro k hk hn
    have h := hmth k hk
    rw [hth k hk, if_neg (fun h => hn (active_batch h)), advance_th _ _ _ hk, if_neg (by simpa using hn)] at h
    rw [hset k hk, h.st]
    by_cases hy : (l.w.th k).st = .yielded
    · rw [if_pos ⟨hy, hn⟩]
      exact ⟨⟨h.v, h.p, h.pt, h.pp⟩, h.pc, (if_pos hy).symm⟩
    · rw [if_neg (fun h => hy h.1)]
      exact ⟨⟨h.v, h.p, h.pt, h.pp⟩, h.pc, h.st.trans (if_neg hy).symm⟩

/-- An instruction that ends as those on registers do: latches shift, the batch advances, the chain goes on or ends. -/
theorem finish_done (i : Instr) (h : Hdr) (n : Nat) (F : Nat → Thread) (s : State) (l m : Lane)
    (hl : s.lane? = some l)
    (he : exec i s = .next (s.putLane ((((m.shiftIdle (active l h)).advance l.w.batch n).nextChain h.chain).settle l.w.batch)))
    (hm : m.SameButFlow l) (hth : ∀ u < 32, m.w.th u = if u ∈ active l h then F u else l.w.th u)
    (hF : ∀ u ∈ active l h, (F u).pc = (l.w.th u).pc) :
    ∃ t w, exec i s = .next t ∧ onlyWarp s t l w ∧ onlyThreads l w ∧
      (∀ k ∈ l.w.batch, past n (l.w.th k) (w.th k)) ∧
      (∀ k ∈ active l h, kept (F k) (w.th k)) ∧
      (∀ k ∈ l.w.batch, k ∉ active l h → kept (l.w.th k) (w.th k)) ∧
      (∀ k < 32, k ∉ l.w.batch → bystander (l.w.th k) (w.th k)) := by
  obtain ⟨-, -, hne⟩ := lane?_some hl
  obtain ⟨t0, ht0⟩ := List.exists_mem_of_ne_nil _ hne
  obtain ⟨p, hp⟩ : ∃ p, ((m.shiftIdle (active l h)).advance l.w.batch n).nextChain h.chain = p := ⟨_, rfl⟩
  rw [hp] at he
  have hps : p.SameButFlow l := by
    rw [← hp]
    exact (Lane.SameButFlow.nextChain _ _).trans ((Lane.SameButFlow.advance _ _ _).trans ((Lane.SameButFlow.shiftIdle _ _).trans hm))
  have key : ∀ u < 32, (p.w.th u).SameButLatches (if u ∈ l.w.batch then
      { (if u ∈ active l h then F u else l.w.th u) with pc := (l.w.th u).pc + BitVec.ofNat 57 n, st := .eligible, derailed := false }
      else l.w.th u) := by
    intro u hu
    rw [← hp]
    refine (nextChain_same _ _ u).trans ?_
    rw [advance_th _ _ _ hu]
    have hs := shiftIdle_same m (active l h) hu
    rw [hth u hu] at hs
    by_cases hb : u ∈ l.w.batch
    · rw [if_pos (by simpa using hb), if_pos hb]
      refine ⟨?_, rfl, hs.v, hs.p, hs.pt, hs.pp, rfl⟩
      show ((m.shiftIdle (active l h)).w.th u).pc + _ = _
      rw [hs.pc]
      split
      · next ha => rw [hF u ha]
      · rfl
    · rw [if_neg (by simpa using hb), if_neg hb]
      rwa [if_neg (fun ha => hb (active_batch ha))] at hs
  have hst0 : (p.w.th t0).st = .eligible := by
    have := key t0 (batch_lt ht0)
    rw [if_pos ht0] at this
    exact this.st
  have hset : ∀ u < 32, (p.settle l.w.batch).w.th u =
      if (p.w.th u).st = .yielded ∧ u ∉ l.w.batch then { p.w.th u with st := .eligible } else p.w.th u :=
    fun u hu => settle_th p _ hu (batch_lt ht0) hst0
  have hfl := (Lane.SameButFlow.settle p l.w.batch).trans hps
  refine ⟨_, (p.settle l.w.batch).w, he, putLane_onlyWarp hl hfl, hfl.warp, ?_, ?_, ?_, ?_⟩
  · intro k hk
    have h := key k (batch_lt hk)
    rw [if_pos hk] at h
    rw [hset k (batch_lt hk), if_neg (fun h => h.2 hk)]
    exact ⟨h.pc, h.st⟩
  · intro k hk
    have hkb := active_batch hk
    have h := key k (batch_lt hkb)
    rw [if_pos hkb] at h
    rw [hset k (batch_lt hkb), if_neg (fun h => h.2 hkb)]
    simp only [if_pos hk] at h
    exact ⟨h.v, h.p, h.pt, h.pp⟩
  · intro k hk hn
    have h := key k (batch_lt hk)
    rw [if_pos hk] at h
    rw [hset k (batch_lt hk), if_neg (fun h => h.2 hk)]
    simp only [if_neg hn] at h
    exact ⟨h.v, h.p, h.pt, h.pp⟩
  · intro k hk hn
    have h := key k hk
    rw [if_neg hn] at h
    rw [hset k hk, h.st]
    by_cases hy : (l.w.th k).st = .yielded
    · rw [if_pos ⟨hy, hn⟩]
      exact ⟨⟨h.v, h.p, h.pt, h.pp⟩, h.pc, (if_pos hy).symm⟩
    · rw [if_neg (fun h => hy h.1)]
      exact ⟨⟨h.v, h.p, h.pt, h.pp⟩, h.pc, h.st.trans (if_neg hy).symm⟩

/-! ## Reading operands -/

theorem readSrc_moved (w v : Warp) (x y : Thread) (hs : v.s = w.s) (h1 : y.v = x.v) (h2 : y.l0 = x.l0) (h3 : y.l1 = x.l1) (lit : Word)
    (k : OKind) (a : Src) : readSrc v y lit k a = readSrc w x lit k a := by
  cases a <;> simp [readSrc, Warp.sreg, Thread.vreg, hs, h1, h2, h3]

/-- Reading one source that is no invalid latch and hides no error. -/
theorem readOne_clean (l : Lane) (t : Nat) (pc : VAddr) (lit : Word) (k : OKind) (disc : Bool) (a : Src) (v : DWord) (c : Option Word)
    (hb : (l.w.th t).bad = []) (h : readSrc l.w (l.w.th t) lit k a = some (v, c)) :
    l.readOne t pc lit k disc a = (l, v, c) := by
  unfold Lane.readOne
  simp only [scrub_nothing _ _ _ _ hb, h]

theorem readAll_clean (l : Lane) (t : Nat) (pc : VAddr) (lit : Word) (disc : Bool) (hb : (l.w.th t).bad = []) :
    ∀ (xs : List (Src × OKind)) (r : List (DWord × Option Word)) (fresh : Option Word),
      xs.mapM (fun p => readSrc l.w (l.w.th t) lit p.2 p.1) = some r → l.readAll t pc lit disc xs fresh = (l, r)
  | [], r, fresh, h => by simp at h; subst h; simp [Lane.readAll]
  | (a, k) :: xs, r, fresh, h => by
    cases ha : readSrc l.w (l.w.th t) lit k a with
    | none => simp [List.mapM_cons, ha] at h
    | some x =>
      cases hx : xs.mapM (fun p => readSrc l.w (l.w.th t) lit p.2 p.1) with
      | none => simp [List.mapM_cons, ha, hx] at h
      | some y =>
        simp [List.mapM_cons, ha, hx] at h
        subst h
        unfold Lane.readAll
        simp only [scrub_nothing _ _ _ _ hb, ha, readAll_clean l t pc lit disc hb xs y fresh hx]

/-- A fold over threads whose every step writes the thread it is at. -/
theorem foldl_each (step : Lane → Nat → Lane) (G : Nat → Thread) (l0 : Lane) : ∀ (ts : List Nat) (l : Lane), ts.Nodup →
    (∀ t ∈ ts, t < 32) → l.SameButFlow l0 → (∀ t ∈ ts, l.w.th t = l0.w.th t) →
    (∀ (m : Lane) (t : Nat), t ∈ ts → m.SameButFlow l0 → m.w.th t = l0.w.th t → step m t = m.setTh t (G t)) →
    (ts.foldl step l).SameButFlow l0 ∧ ∀ u < 32, (ts.foldl step l).w.th u = if u ∈ ts then G u else l.w.th u
  | [], l, _, _, hl, _, _ => ⟨hl, fun u _ => by simp⟩
  | t :: ts, l, hn, hlt, hl, hth, hst => by
    rw [List.nodup_cons] at hn
    rw [List.foldl_cons, hst l t List.mem_cons_self hl (hth t List.mem_cons_self)]
    obtain ⟨h1, h2⟩ := foldl_each step G l0 ts (l.setTh t (G t)) hn.2 (fun u hu => hlt u (List.mem_cons_of_mem _ hu))
      ((Lane.SameButFlow.setTh l t _).trans hl)
      (fun u hu => by
        rw [setTh_th l t _ (hlt u (List.mem_cons_of_mem _ hu)), if_neg (fun e : u = t => hn.1 (e ▸ hu))]
        exact hth u (List.mem_cons_of_mem _ hu))
      (fun m u hu => hst m u (List.mem_cons_of_mem _ hu))
    refine ⟨h1, fun u hu => ?_⟩
    rw [h2 u hu, setTh_th l t _ hu]
    by_cases h : u = t
    · subst h; rw [if_neg hn.1, if_pos rfl, if_pos List.mem_cons_self]
    · by_cases hm : u ∈ ts <;> simp [hm, h]

theorem setPred_seven (x : Thread) (v : Bool) (c : Option Word) : x.setPred 7 v c = x := by simp [Thread.setPred]

/-- Predicates after `pmov.unpack`. -/
theorem unpack_preds (v : DWord) (c : Option Word) : ∀ (ks : List Nat) (x : Thread), (∀ k ∈ ks, k < 7) →
    let y := ks.foldl (fun x k => x.setPred (BitVec.ofNat 3 k) (v.getLsbD k) c) x
    y.v = x.v ∧ y.pc = x.pc ∧ y.st = x.st ∧
    ∀ k : BitVec 3, k ≠ 7 →
      if k.toNat ∈ ks then y.predCraze k = c ∧ (c = none → y.pred k = v.getLsbD k.toNat)
      else y.pred k = x.pred k ∧ y.predTag k = x.predTag k
  | [], x, _ => ⟨rfl, rfl, rfl, fun k _ => by simp⟩
  | n :: ks, x, hlt => by
    simp only [List.foldl_cons]
    have hn : n < 7 := hlt n List.mem_cons_self
    have h7 : (BitVec.ofNat 3 n) ≠ 7 := fun h => by
      have := congrArg BitVec.toNat h
      simp at this; omega
    obtain ⟨h1, h2, h3, h4⟩ := unpack_preds v c ks (x.setPred (BitVec.ofNat 3 n) (v.getLsbD n) c) (fun k hk => hlt k (List.mem_cons_of_mem _ hk))
    have hs : (x.setPred (BitVec.ofNat 3 n) (v.getLsbD n) c).pc = x.pc ∧ (x.setPred (BitVec.ofNat 3 n) (v.getLsbD n) c).st = x.st := by
      unfold Thread.setPred; rw [if_neg h7]; cases c <;> exact ⟨rfl, rfl⟩
    refine ⟨h1.trans (pred_setPred x _ 0 _ c h7).2.2.2, h2.trans hs.1, h3.trans hs.2, fun k hk => ?_⟩
    have hp := pred_setPred x (BitVec.ofNat 3 n) k (v.getLsbD n) c h7
    have hkn : k = BitVec.ofNat 3 n ↔ k.toNat = n := by
      constructor
      · rintro rfl; simp; omega
      · intro h; apply BitVec.eq_of_toNat_eq; simp [h]; omega
    have hy := h4 k hk
    by_cases hm : k.toNat ∈ ks
    · rw [if_pos hm] at hy
      rw [if_pos (List.mem_cons_of_mem _ hm)]; exact hy
    · rw [if_neg hm] at hy
      by_cases e : k.toNat = n
      · rw [if_pos (by simp [e])]
        have ek := hkn.mpr e
        refine ⟨?_, fun hc => ?_⟩
        · unfold Thread.predCraze
          rw [hy.2, hp.1, if_pos ek]
          cases c with
          | none => rfl
          | some p =>
            simp only [Option.isSome_some, if_true]
            have key : ∀ (ks : List Nat) (z : Thread), z.pp = p →
                (ks.foldl (fun x k => x.setPred (BitVec.ofNat 3 k) (v.getLsbD k) (some p)) z).pp = p := by
              intro ks
              induction ks with
              | nil => intro z hz; exact hz
              | cons a ks ih =>
                intro z hz
                refine ih _ ?_
                show (z.setPred (BitVec.ofNat 3 a) (v.getLsbD a) (some p)).pp = p
                unfold Thread.setPred; split
                · exact hz
                · rfl
            exact congrArg some (key ks _ (by rw [hp.2.2.1]; rfl))
        · rw [hy.1, hp.2.1, if_pos ⟨ek, hc⟩, e]
      · rw [if_neg (by simp [e, hm])]
        have ek : k ≠ BitVec.ofNat 3 n := fun h => e (hkn.mp h)
        refine ⟨?_, ?_⟩
        · rw [hy.1, hp.2.1, if_neg (fun h => ek h.1)]
        · rw [hy.2, hp.1, if_neg ek]

/-! ## Warp-wide instructions -/

theorem maskOf_bit (ts : List Nat) (j : Nat) (h : ∀ t ∈ ts, t < 32) : (maskOf ts).getLsbD j = true ↔ j ∈ ts := by
  have key : ∀ (ts : List Nat) (m : BitVec 32), (∀ t ∈ ts, t < 32) →
      ((ts.foldl (fun m t => m ||| BitVec.twoPow 32 t) m).getLsbD j = true ↔ m.getLsbD j = true ∨ j ∈ ts) := by
    intro ts
    induction ts with
    | nil => intro m _; simp
    | cons t ts ih =>
      intro m h
      rw [List.foldl_cons, ih _ (fun u hu => h u (List.mem_cons_of_mem _ hu))]
      have ht := h t List.mem_cons_self
      simp only [BitVec.getLsbD_or, BitVec.getLsbD_twoPow, Bool.or_eq_true, Bool.and_eq_true, decide_eq_true_eq, List.mem_cons]
      constructor
      · rintro ((h | ⟨_, h⟩) | h) <;> simp [h]
      · rintro (h | h | h)
        · simp [h]
        · subst h; simp [ht]
        · simp [h]
  simpa [maskOf] using key ts 0 h

/-- What every thread brings, when its sources are readable. -/
theorem shares_clean (l : Lane) (h : Hdr) (pc : VAddr) (lit : Word) (disc : Bool) (srcs : List (Src × OKind))
    (op : Nat → List (DWord × Option Word)) : ∀ ts : List Nat, (∀ t ∈ ts, (l.w.th t).bad = []) →
      (∀ t ∈ ts, srcs.mapM (fun p => readSrc l.w (l.w.th t) lit p.2 p.1) = some (op t)) →
      l.shares h pc lit disc srcs ts = (l, ts.map (fun t => ⟨t, op t, (l.w.th t).predCraze h.guard⟩))
  | [], _, _ => rfl
  | t :: ts, hb, ho => by
    unfold Lane.shares
    simp only [readAll_clean l t pc lit disc (hb t List.mem_cons_self) srcs (op t) none (ho t List.mem_cons_self),
      shares_clean l h pc lit disc srcs op ts (fun u hu => hb u (List.mem_cons_of_mem _ hu)) (fun u hu => ho u (List.mem_cons_of_mem _ hu)),
      List.map_cons]

/-- A warp-wide instruction whose sources are readable gives every active thread its result. -/
theorem wide_done (i : Instr) (h : Hdr) (d : ADst) (srcs : List (Src × OKind)) (lit : Word)
    (f : List Share → Share → DWord × Option Word) (s : State) (l : Lane) (op : Nat → List (DWord × Option Word))
    (hl : s.lane? = some l) (he : exec i s = wide h d srcs lit f s) (hd : ∀ i w, d ≠ .scal i w)
    (hr : l.w.ready (d.regs ++ srcs.flatMap (fun p => srcRegs (if p.2.wide then 2 else 1) p.1)) = true)
    (hb : ∀ t ∈ active l h, (l.w.th t).bad = [])
    (hok : (d.ok l.wg.info.nregs && srcs.all (fun p => srcOk l.wg.info.nregs (if p.2.wide then 2 else 1) p.1)) = true)
    (ho : ∀ k ∈ active l h, srcs.mapM (fun p => readSrc l.w (l.w.th k) lit p.2 p.1) = some (op k)) :
    ∃ t w, exec i s = .next t ∧ onlyWarp s t l w ∧ onlyThreads l w ∧
      (∀ k ∈ l.w.batch, past (litSize (srcs.map Prod.fst)) (l.w.th k) (w.th k)) ∧
      (∀ k ∈ active l h,
        let r := f ((active l h).map (fun t => ⟨t, op t, (l.w.th t).predCraze h.guard⟩)) ⟨k, op k, (l.w.th k).predCraze h.guard⟩
        written d r.1 r.2 (l.w.th k) (w.th k)) ∧
      (∀ k ∈ l.w.batch, k ∉ active l h → kept (l.w.th k) (w.th k)) ∧
      (∀ k < 32, k ∉ l.w.batch → bystander (l.w.th k) (w.th k)) := by
  rw [Bool.and_eq_true] at hok
  generalize hn : litSize (srcs.map Prod.fst) = n at *
  have adv : ∀ u ∈ active l h, (l.advance l.w.batch n).w.th u =
      { l.w.th u with pc := (l.w.th u).pc + BitVec.ofNat 57 n, st := .eligible, derailed := false } := fun u hu => advance_active hu
  have hsh := shares_clean (l.advance l.w.batch n) h l.w.pc lit ((mkAlu h false d [] 0).drops (l.advance l.w.batch n)) srcs op (active l h)
    (fun t ht => by rw [adv t ht]; exact hb t ht)
    (fun t ht => by
      have e : (fun p : Src × OKind => readSrc (l.advance l.w.batch n).w ((l.advance l.w.batch n).w.th t) lit p.2 p.1) =
          fun p => readSrc l.w (l.w.th t) lit p.2 p.1 := by
        funext p
        refine readSrc_moved _ _ _ _ rfl ?_ ?_ ?_ _ _ _ <;> rw [adv t ht]
      rw [e]; exact ho t ht)
  have hg : ∀ t ∈ active l h, ((l.advance l.w.batch n).w.th t).predCraze h.guard = (l.w.th t).predCraze h.guard :=
    fun t ht => by rw [adv t ht]; rfl
  rw [List.map_congr_left (g := fun t => (⟨t, op t, (l.w.th t).predCraze h.guard⟩ : Share)) (fun t ht => by rw [hg t ht])] at hsh
  generalize hR : (active l h).map (fun t => (⟨t, op t, (l.w.th t).predCraze h.guard⟩ : Share)) = R at hsh
  obtain ⟨G, hG⟩ : ∃ G : Nat → DWord × Option Word, ∀ t, G t = f R ⟨t, op t, (l.w.th t).predCraze h.guard⟩ := ⟨_, fun _ => rfl⟩
  let F := fun u => ((l.advance l.w.batch n).w.th u).putResult d (G u).1 (G u).2
  have hstep := foldl_each (fun m t => m.setTh t ((m.w.th t).putResult d (G t).1 (G t).2)) F (l.advance l.w.batch n)
    (active l h) (l.advance l.w.batch n) (active_nodup l h) (fun t ht => batch_lt (active_batch ht)) (.refl _) (fun _ _ => rfl)
    (fun m t _ _ hmt => by show m.setTh t _ = m.setTh t _; rw [hmt])
  have hbody : (fun (pc : VAddr) (act : List Nat) (l : Lane) =>
      let (l, r) := l.shares h pc lit ((mkAlu h false d [] 0).drops l) srcs act
      l.deal d r (f r)) l.w.pc (active l h) (l.advance l.w.batch n) =
      (active l h).foldl (fun m t => m.setTh t ((m.w.th t).putResult d (G t).1 (G t).2)) (l.advance l.w.batch n) := by
    simp only [hsh, Lane.deal, hG]
    rw [← hR, List.foldl_map]
  obtain ⟨t, w, e1, e2, e3, e4, e5, e6, e7⟩ := form_done i ⟨h, n, true,
      d.regs ++ srcs.flatMap (fun p => srcRegs (if p.2.wide then 2 else 1) p.1), fun l => illegal (!d.ok l.wg.info.nregs ||
      !(srcs.all (fun p => srcOk l.wg.info.nregs (if p.2.wide then 2 else 1) p.1)))⟩ (fun pc act l =>
      let (l, r) := l.shares h pc lit ((mkAlu h false d [] 0).drops l) srcs act
      l.deal d r (f r)) F s l hl (by rw [he, ← hn]; rfl) hr (by simp [illegal, hok.1, hok.2])
      (by
        have := hstep.1.trans (.advance l l.w.batch n)
        rw [← hbody] at this; exact this) (by
        have := hstep.2
        rw [← hbody] at this; exact this)
      (fun u hu => by simp only [F]; rw [putResult_pc, putResult_st, adv u hu]; exact ⟨rfl, rfl⟩)
  simp only [← hG]
  refine ⟨t, w, e1, e2, e3, e4, fun k hk => ?_, e6, e7⟩
  refine written_kept (e5 k hk) ?_
  simp only [F]
  rw [adv k hk]
  exact written_of_same ⟨rfl, rfl, rfl, rfl⟩ (written_putResult d hd _ _ _)

end Sys2Proof.Machine
end

