-- ==== Sys2Proof/Laws/Access.lean ====
section
/-! SUPPORT. Accesses of a lane to scratchpads: reading operands, the checks of a place, and what one access of one thread does. -/

namespace Sys2Proof.Machine

open Sys2Proof.Claims

/-- Two threads hold the same registers, latches and predicates. -/
structure Thread.SameData (x y : Thread) : Prop where
  v : x.v = y.v
  p : x.p = y.p
  pt : x.pt = y.pt
  pp : x.pp = y.pp
  l0 : x.l0 = y.l0
  l1 : x.l1 = y.l1
  bad : x.bad = y.bad

theorem Thread.SameData.refl (x : Thread) : x.SameData x := ⟨rfl, rfl, rfl, rfl, rfl, rfl, rfl⟩

theorem advance_data (l : Lane) (ts : List Nat) (n : Nat) {u : Nat} (hu : u < 32) :
    ((l.advance ts n).w.th u).SameData (l.w.th u) := by
  rw [advance_th _ _ _ hu]; split <;> exact ⟨rfl, rfl, rfl, rfl, rfl, rfl, rfl⟩

theorem foldl_scrub_clean (pc : VAddr) (t : Nat) : ∀ (xs : List Src) (l : Lane), (l.w.th t).bad = [] →
    xs.foldl (fun l x => l.scrub t pc (srcRegs 4 x)) l = l
  | [], _, _ => rfl
  | x :: xs, l, h => by rw [List.foldl_cons, scrub_nothing _ _ _ _ h]; exact foldl_scrub_clean pc t xs l h

theorem quad_moved (l m : Lane) (t : Nat) (x : Src) (hs : m.w.s = l.w.s) (hv : (m.w.th t).v = (l.w.th t).v) :
    m.quad t x = l.quad t x := by
  cases x <;> simp [Lane.quad, Thread.vreg, Warp.sreg, hs, hv]

/-- The operands of a memory instruction, read where no source is an invalid latch or hides an error, on a lane that holds
the thread's data. -/
theorem args_moved (m : MemIns) (h : Hdr) (pc : VAddr) (disc : Bool) (l c : Lane) (t : Nat) (hs : c.w.s = l.w.s)
    (hd : (c.w.th t).SameData (l.w.th t)) (hc : memClean m l t) : m.args h pc disc c t = (c, memArgs m h l t) := by
  obtain ⟨hb, hr⟩ := hc
  obtain ⟨rs, hrs⟩ := Option.isSome_iff_exists.mp hr
  have hb' : (c.w.th t).bad = [] := hd.bad.trans hb
  have mv : ∀ k a, readSrc c.w (c.w.th t) 0 k a = readSrc l.w (l.w.th t) 0 k a := fun k a =>
    readSrc_moved _ _ _ _ hs hd.v hd.l0 hd.l1 _ _ _
  have key : ∀ (d : Lane) (pc : VAddr) (disc : Bool), (d.w.th t).bad = [] → (∀ k a, readSrc d.w (d.w.th t) 0 k a = readSrc l.w (l.w.th t) 0 k a) →
      d.w.s = l.w.s → (d.w.th t).SameData (l.w.th t) → m.args h pc disc d t = (d, (m.args h pc disc d t).2) ∧
      (m.args h pc disc d t).2 =
        (let nb := m.b.toList.length
         let va := rs.getD 0 (0, none)
         let vb := if nb = 0 then ((0 : DWord), none) else rs.getD 1 (0, none)
         let vcmp := if m.cmp.isSome then rs.getD (1 + nb) (0, none) else (0, none)
         let vc : Nat × Option Word := match m.c with
           | none => (0, none)
           | some x => if m.n = 16 then l.quad t x
             else let r := rs.getD (1 + nb + m.cmp.toList.length) (0, none); (r.1.toNat % 2 ^ (8 * m.n), r.2)
         { o := segOffset m.a64 m.e va.1 vb.1, addr := crazeOf [va.2, vb.2], data := vc.1, dcrz := vc.2,
           cmp := vcmp.1.toNat % 2 ^ (8 * m.n), ccrz := vcmp.2, guard := (l.w.th t).predCraze h.guard }) := by
    intro d pc disc hb hm hs hd
    have hra := readAll_clean d t pc 0 disc hb (memSources m) rs none (by simp only [hm]; exact hrs)
    have hg : (d.w.th t).predCraze h.guard = (l.w.th t).predCraze h.guard := by
      simp only [Thread.predCraze, Thread.predTag, hd.pt, hd.pp]; rfl
    have hq : ∀ x, d.quad t x = l.quad t x := fun x => quad_moved l d t x hs hd.v
    have hsc : (if m.n = 16 then m.c.toList.foldl (fun l x => l.scrub t pc (srcRegs 4 x)) d else d) = d := by
      split
      · exact foldl_scrub_clean pc t _ d hb
      · rfl
    unfold memSources at hra
    constructor
    · unfold MemIns.args
      simp only [hsc, hra]
    · unfold MemIns.args
      simp only [hsc, hra, hg]
      cases m.c <;> simp only [hq]
  obtain ⟨k1, k2⟩ := key c pc disc hb' mv hs hd
  obtain ⟨-, k3⟩ := key l l.w.pc false hb (fun _ _ => rfl) rfl (.refl _)
  rw [k1, k2]
  unfold memArgs
  rw [k3]

/-- What follows the body of an instruction that reaches the machine. -/
theorem runC_done (i : Instr) (f : Form) (wait : Ctx → List Nat → Bool) (body : VAddr → List Nat → Ctx → Ctx) (F : Nat → Thread)
    (s : State) (l : Lane) (c : Ctx) (hl : s.lane? = some l) (he : exec i s = f.execC wait body s)
    (hr : l.w.ready f.regs = true) (hf : f.fault l = none) (hw : wait ⟨s, l⟩ (active l f.h) = false)
    (hc : body l.w.pc (active l f.h) ⟨s, l.advance l.w.batch f.size⟩ = c)
    (hth : ∀ u < 32, c.l.w.th u = if u ∈ active l f.h then F u else (l.advance l.w.batch f.size).w.th u)
    (hF : ∀ u ∈ active l f.h, (F u).pc = (l.w.th u).pc + BitVec.ofNat 57 f.size ∧ (F u).st = .eligible) :
    ∃ m : Lane, exec i s = .next (c.s.putLane m) ∧ m = { c.l with w := m.w } ∧ m.w = { c.l.w with thr := m.w.thr, chain := 0 } ∧
      (∀ k ∈ l.w.batch, past f.size (l.w.th k) (m.w.th k)) ∧
      (∀ k ∈ active l f.h, kept (F k) (m.w.th k)) ∧
      (∀ k ∈ l.w.batch, k ∉ active l f.h → kept (l.w.th k) (m.w.th k)) ∧
      (∀ k < 32, k ∉ l.w.batch → bystander (l.w.th k) (m.w.th k)) := by
  obtain ⟨-, -, hne⟩ := lane?_some hl
  obtain ⟨t0, ht0⟩ := List.exists_mem_of_ne_nil _ hne
  have hth' : ∀ u < 32, (c.l.endChain.w.th u).SameButLatches
      (if u ∈ active l f.h then F u else (l.advance l.w.batch f.size).w.th u) := fun u hu => hth u hu ▸ endChain_same c.l u
  have hbat : ∀ k ∈ l.w.batch, (c.l.endChain.w.th k).pc = (l.w.th k).pc + BitVec.ofNat 57 f.size ∧ (c.l.endChain.w.th k).st = .eligible := by
    intro k hk
    have h := hth' k (batch_lt hk)
    by_cases ha : k ∈ active l f.h
    · rw [if_pos ha] at h
      exact ⟨h.pc.trans (hF k ha).1, h.st.trans (hF k ha).2⟩
    · rw [if_neg ha, advance_th _ _ _ (batch_lt hk), if_pos (by simpa using hk)] at h
      exact ⟨h.pc, h.st⟩
  have hset : ∀ u < 32, (c.l.endChain.settle l.w.batch).w.th u =
      if (c.l.endChain.w.th u).st = .yielded ∧ u ∉ l.w.batch then { c.l.endChain.w.th u with st := .eligible } else c.l.endChain.w.th u :=
    fun u hu => settle_th _ _ hu (batch_lt ht0) (hbat t0 ht0).2
  refine ⟨c.l.endChain.settle l.w.batch, ?_, rfl, ?_, ?_, ?_, ?_, ?_⟩
  · rw [he]
    simp only [Form.execC, onCtx, hl, Form.runC, hr, hf, Bool.not_true, Bool.false_eq_true, if_false]
    have hw' := hw
    have hc' := hc
    unfold active at hw' hc'
    simp only [hw', ite_self, Bool.false_eq_true, if_false]
    unfold Ctx.onL
    simp only [hc']
  · have h := (Lane.SameButFlow.settle c.l.endChain l.w.batch).warp
    rw [h]
    have hch : (c.l.endChain.settle l.w.batch).w.chain = 0 := settle_chain _ _
    rw [hch]
    rfl
  · intro k hk
    rw [hset k (batch_lt hk), if_neg (fun h => h.2 hk)]
    exact hbat k hk
  · intro k hk
    have hkb := active_batch hk
    have h := hth' k (batch_lt hkb)
    rw [if_pos hk] at h
    rw [hset k (batch_lt hkb), if_neg (fun h => h.2 hkb)]
    exact kept_same h
  · intro k hk hn
    have h := hth' k (batch_lt hk)
    rw [if_neg hn, advance_th _ _ _ (batch_lt hk), if_pos (by simpa using hk)] at h
    rw [hset k (batch_lt hk), if_neg (fun h => h.2 hk)]
    exact ⟨h.v, h.p, h.pt, h.pp⟩
  · intro k hk hn
    have h := hth' k hk
    rw [if_neg (fun h => hn (active_batch h)), advance_th _ _ _ hk, if_neg (by simpa using hn)] at h
    rw [hset k hk, h.st]
    by_cases hy : (l.w.th k).st = .yielded
    · rw [if_pos ⟨hy, hn⟩]
      exact ⟨⟨h.v, h.p, h.pt, h.pp⟩, h.pc, (if_pos hy).symm⟩
    · rw [if_neg (fun h => hy h.1)]
      exact ⟨⟨h.v, h.p, h.pt, h.pp⟩, h.pc, h.st.trans (if_neg hy).symm⟩

/-! ## Places -/

/-- Two views of the machine that the checks of an access cannot tell apart. -/
structure Ctx.Alike (c d : Ctx) : Prop where
  ref : c.l.ref = d.l.ref
  sg : c.l.w.sg = d.l.w.sg
  info : c.l.wg.info = d.l.wg.info
  kiln : c.l.wg.kiln = d.l.wg.kiln
  groups : ∀ g, (c.s.wg? g).isSome = (d.s.wg? g).isSome
  sizes : ∀ g, (c.scr g).size = (d.scr g).size

theorem check_alike {c d : Ctx} (h : c.Alike d) (k t o n : Nat) (perms kinds : List Nat) (al : Bool) :
    c.check k t o n perms kinds al = d.check k t o n perms kinds al := by
  have hp : ∀ p, c.peer p = d.peer p := fun p => by
    simp only [Ctx.peer, h.ref, h.info, h.kiln, h.groups]
  have hs : c.l.w.seg k = d.l.w.seg k := by simp only [Warp.seg, h.sg]
  simp only [Ctx.check, Ctx.checkSeg, hs, hp, h.ref, h.info, h.sizes]

theorem scr_scratch {s : State} {l : Lane} (h : s.wg? l.ref.wg = some l.wg) (g : Nat) : Ctx.scr ⟨s, l⟩ g = scratch s g := by
  unfold Ctx.scr scratch
  split
  · next e => subst e; rw [h]
  · rfl

/-- A lane that differs in threads and counters alone looks the same to the checks. -/
theorem counted_alike (s : State) (l : Lane) (n : Nat) (ts : List Nat) (d : Ctx) (hs : d.s = s)
    (hl : d.l = { l.advance ts n with w := { (l.advance ts n).w with thr := d.l.w.thr, po := d.l.w.po, nextId := d.l.w.nextId } }) :
    d.Alike ⟨s, l⟩ := by
  obtain ⟨ds, dl⟩ := d
  subst hs
  constructor
  · rw [hl]; rfl
  · rw [hl]; rfl
  · rw [hl]; rfl
  · rw [hl]; rfl
  · intro g; rfl
  · intro g; unfold Ctx.scr; rw [hl]; rfl

theorem lane?_wg {s : State} {l : Lane} (h : s.lane? = some l) : s.wg? l.ref.wg = some l.wg ∧ l.core = s.core l.wg.core := by
  obtain ⟨-, hl, -⟩ := lane?_some h
  obtain ⟨-, hg, -, hk, -⟩ := laneOf_some hl
  exact ⟨hg, hk⟩

/-- A lane put back whose warp alone differs. -/
theorem putLane_only {s : State} {l m : Lane} (h : s.lane? = some l) (hr : m.ref = l.ref) (hg : m.wg = l.wg) (hc : m.core = l.core) :
    onlyWarp s (s.putLane m) l m.w := by
  obtain ⟨-, hl, -⟩ := lane?_some h
  obtain ⟨-, -, -, hk, -⟩ := laneOf_some hl
  refine ⟨rfl, fun a => rfl, warp?_putLane hl hr hg, fun n hn => ?_, fun c => ?_⟩
  · exact wg?_putLane_other s m (by rw [hr]; exact hn)
  · by_cases e : c = l.wg.core
    · subst e
      have := core_putLane_same s m
      rw [hg, hc, hk] at this
      exact this
    · exact core_putLane_other s m (by rw [hg]; exact e)

/-! ## One access at a scratchpad -/

theorem readScr_clean (c : Ctx) (t : Nat) (pc : VAddr) (a : ScrLoc) (n : Nat) (hb : (c.scr a.wg).bad = []) :
    c.readScr t pc a n = (c, wordsAt (c.scr a.wg) a.off n) := by
  unfold Ctx.readScr Ctx.scrubScr wordsAt
  simp [hb]

theorem loadOne_clean (m : MemIns) (row : MemRow) (h : Hdr) (dst : Nat) (pc : VAddr) (l : Lane) (c : Ctx) (t : Nat) (a : ScrLoc)
    (ha : m.args h pc (dst == 255) c.l t = (c.l, memArgs m h l t))
    (h1 : (memArgs m h l t).addr = none) (h2 : (memArgs m h l t).guard = none)
    (hp : c.check (exSeg m.e) t (memArgs m h l t).o m.n [row.perm] row.kinds true = .ok (.scr a)) (hb : (c.scr a.wg).bad = []) :
    loadOne m row h dst none pc c t =
      { c with l := (c.l.setTh t ((c.l.w.th t).setWords dst (loadWords (wordsAt (c.scr a.wg) a.off m.n) a.off m.n (exSx m.e)))).tick } := by
  unfold loadOne
  simp only [ha, h1, h2]
  have hcz : crazeOf [none, (none : Option Word)] = none := rfl
  simp only [hcz, hp, Option.isSome_none, Bool.false_and, Bool.false_eq_true, if_false, readScr_clean c t pc a m.n hb]
  rfl

/-- A fold over threads that leaves the machine, writes the thread it is at, and counts. -/
theorem foldl_counted (step : Ctx → Nat → Ctx) (G : Nat → Thread) (s : State) (l0 : Lane) : ∀ (ts : List Nat) (c : Ctx), ts.Nodup →
    (∀ t ∈ ts, t < 32) → c.s = s → c.l = { l0 with w := { l0.w with thr := c.l.w.thr, po := c.l.w.po, nextId := c.l.w.nextId } } →
    (∀ t ∈ ts, c.l.w.th t = l0.w.th t) →
    (∀ (d : Ctx) (t : Nat), t ∈ ts → d.s = s →
      d.l = { l0 with w := { l0.w with thr := d.l.w.thr, po := d.l.w.po, nextId := d.l.w.nextId } } → d.l.w.th t = l0.w.th t →
      step d t = { d with l := (d.l.setTh t (G t)).tick }) →
    (ts.foldl step c).s = s ∧ (ts.foldl step c).l =
      { l0 with w := { l0.w with thr := (ts.foldl step c).l.w.thr, po := c.l.w.po + ts.length, nextId := c.l.w.nextId + ts.length } } ∧
    ∀ u < 32, (ts.foldl step c).l.w.th u = if u ∈ ts then G u else c.l.w.th u
  | [], c, _, _, hs, hl, _, _ => ⟨hs, hl, fun u _ => by simp⟩
  | t :: ts, c, hn, hlt, hs, hl, hth, hst => by
    rw [List.nodup_cons] at hn
    rw [List.foldl_cons, hst c t List.mem_cons_self hs hl (hth t List.mem_cons_self)]
    have hth2 : ∀ u < 32, ((c.l.setTh t (G t)).tick).w.th u = if u = t then G t else c.l.w.th u := fun u hu => setTh_th c.l t (G t) hu
    obtain ⟨h1, h2, h3⟩ := foldl_counted step G s l0 ts { c with l := (c.l.setTh t (G t)).tick } hn.2
      (fun u hu => hlt u (List.mem_cons_of_mem _ hu)) hs (by
        show (c.l.setTh t (G t)).tick = _
        generalize hw : (c.l.setTh t (G t)).tick = d
        have : d = { c.l with w := { c.l.w with thr := d.w.thr, po := d.w.po, nextId := d.w.nextId } } := by rw [← hw]; rfl
        exact this.trans (by rw [hl]))
      (fun u hu => by
        rw [hth2 u (hlt u (List.mem_cons_of_mem _ hu)), if_neg (fun e : u = t => hn.1 (e ▸ hu))]
        exact hth u (List.mem_cons_of_mem _ hu))
      (fun d u hu => hst d u (List.mem_cons_of_mem _ hu))
    refine ⟨h1, h2.trans ?_, fun u hu => ?_⟩
    · show _ = _
      simp only [Lane.tick, Lane.setTh, Warp.setTh, List.length_cons, Nat.add_assoc, Nat.add_comm 1]
    · rw [h3 u hu, hth2 u hu]
      by_cases e : u = t
      · subst e; rw [if_neg hn.1, if_pos rfl, if_pos List.mem_cons_self]
      · by_cases hm : u ∈ ts <;> simp [hm, e]

theorem setWords_in (x : Thread) (dst : Nat) (ws : List TWord) : wordsIn dst ws x (x.setWords dst ws) ∧
    (x.setWords dst ws).pc = x.pc ∧ (x.setWords dst ws).st = x.st := by
  unfold Thread.setWords
  by_cases h : dst = 255
  · rw [if_pos h]
    exact ⟨⟨rfl, rfl, rfl, fun j => by simp [h]⟩, rfl, rfl⟩
  · rw [if_neg h]
    have key : ∀ (ws : List TWord) (n : Nat) (x : Thread),
        let y := (ws.zipIdx n).foldl (fun x e => x.setV (dst + e.2) e.1) x
        y.p = x.p ∧ y.pt = x.pt ∧ y.pp = x.pp ∧ y.pc = x.pc ∧ y.st = x.st ∧
        ∀ j, y.vreg j = if dst + n ≤ j ∧ j < dst + n + ws.length ∧ j ≠ 255 then ws.getD (j - dst - n) ⟨0, false⟩ else x.vreg j := by
      intro ws
      induction ws with
      | nil => intro n x; exact ⟨rfl, rfl, rfl, rfl, rfl, fun j => by rw [if_neg (by simp only [List.length_nil]; omega)]; rfl⟩
      | cons w ws ih =>
        intro n x
        simp only [List.zipIdx_cons, List.foldl_cons]
        obtain ⟨h1, h2, h3, h4, h5, h6⟩ := ih (n + 1) (x.setV (dst + n) w)
        have hsv : ∀ i y, (x.setV i y).p = x.p ∧ (x.setV i y).pt = x.pt ∧ (x.setV i y).pp = x.pp ∧ (x.setV i y).pc = x.pc ∧ (x.setV i y).st = x.st := by
          intro i y; unfold Thread.setV; split <;> exact ⟨rfl, rfl, rfl, rfl, rfl⟩
        obtain ⟨g1, g2, g3, g4, g5⟩ := hsv (dst + n) w
        refine ⟨h1.trans g1, h2.trans g2, h3.trans g3, h4.trans g4, h5.trans g5, fun j => ?_⟩
        rw [h6 j]
        have hv : (x.setV (dst + n) w).vreg j = if j = dst + n ∧ j ≠ 255 then w else x.vreg j := by
          by_cases hd : dst + n = 255
          · unfold Thread.setV; rw [if_pos hd]
            split
            · next hj => omega
            · rfl
          · rw [vreg_setV _ _ _ _ hd]
            by_cases hj : j = dst + n
            · subst hj; simp [hd]
            · simp [hj]
        by_cases hA : dst + (n + 1) ≤ j ∧ j < dst + (n + 1) + ws.length ∧ j ≠ 255
        · rw [if_pos hA, if_pos (by simp only [List.length_cons]; omega)]
          have : j - dst - n = (j - dst - (n + 1)) + 1 := by omega
          rw [this]; rfl
        · rw [if_neg hA, hv]
          by_cases hB : j = dst + n ∧ j ≠ 255
          · rw [if_pos hB, if_pos (by simp only [List.length_cons]; omega)]
            have : j - dst - n = 0 := by omega
            rw [this]; rfl
          · rw [if_neg hB, if_neg (by simp only [List.length_cons]; omega)]
    obtain ⟨h1, h2, h3, h4, h5, h6⟩ := key ws 0 x
    refine ⟨⟨h1, h2, h3, fun j => ?_⟩, h4, h5⟩
    rw [h6 j]
    simp only [Nat.add_zero, Nat.sub_zero, ne_eq, h, not_false_eq_true, true_and]

theorem wordsIn_kept {dst : Nat} {ws : List TWord} {x y z : Thread} (h : wordsIn dst ws x y) (hk : kept y z) : wordsIn dst ws x z := by
  obtain ⟨h1, h2, h3, h4⟩ := h
  obtain ⟨k1, k2, k3, k4⟩ := hk
  refine ⟨k2.trans h1, k3.trans h2, k4.trans h3, fun j => ?_⟩
  rw [← h4 j]
  unfold Thread.vreg
  rw [k1]

theorem wordsIn_from {dst : Nat} {ws : List TWord} {x y z : Thread} (h : wordsIn dst ws y z) (hk : kept x y) : wordsIn dst ws x z := by
  obtain ⟨h1, h2, h3, h4⟩ := h
  obtain ⟨k1, k2, k3, k4⟩ := hk
  refine ⟨h1.trans k2, h2.trans k3, h3.trans k4, fun j => ?_⟩
  rw [h4 j]
  unfold Thread.vreg
  rw [k1]

end Sys2Proof.Machine
end

