-- ==== Sys2Proof/Laws/Codec.lean ====
section
/-! SUPPORT. Each field and each modifier code reads back what its encoder wrote; the fields of a word, packed and
unpacked, are as before. -/

namespace Sys2Proof

theorem ext_high {m n : Nat} (x : BitVec m) (y : BitVec n) (s k : Nat) (h : n ≤ s) : (x ++ y).extractLsb' s k = x.extractLsb' (s - n) k := by
  ext i hi
  simp only [BitVec.getElem_extractLsb', BitVec.getLsbD_append]
  rw [if_neg (by omega)]
  congr 1
  omega

theorem ext_low {m n : Nat} (x : BitVec m) (y : BitVec n) (s k : Nat) (h : s + k ≤ n) : (x ++ y).extractLsb' s k = y.extractLsb' s k := by
  ext i hi
  simp only [BitVec.getElem_extractLsb', BitVec.getLsbD_append]
  rw [if_pos (by omega)]

theorem ext_all {n : Nat} (y : BitVec n) : y.extractLsb' 0 n = y := by
  ext i hi
  simp

theorem bit_high {m n : Nat} (x : BitVec m) (y : BitVec n) (s : Nat) (h : n ≤ s) : (x ++ y).getLsbD s = x.getLsbD (s - n) := by
  rw [BitVec.getLsbD_append, if_neg (by omega)]

theorem bit_low {m n : Nat} (x : BitVec m) (y : BitVec n) (s : Nat) (h : s < n) : (x ++ y).getLsbD s = y.getLsbD s := by
  rw [BitVec.getLsbD_append, if_pos (by omega)]

theorem bit1_get (b : Bool) : (bit1 b).getLsbD 0 = b := by cases b <;> rfl

/-- The same field list without the total width. -/
abbrev packedWidth : Nat := 64 + (7 + (10 + (10 + (10 + (1 + (8 + (1 + (3 + (10 + (1 + (1 + 2)))))))))))

theorem unpack_pack (r : Raw) : Raw.unpack (Raw.pack r) = r := by
  obtain ⟨len, cbit, wbit, opcode, guard, nbit, dst, ubit, opa, opb, opc, mod, hi⟩ := r
  simp only [Raw.unpack, Raw.pack, Raw.mk.injEq]
  refine ⟨?_, ?_, ?_, ?_, ?_, ?_, ?_, ?_, ?_, ?_, ?_, ?_, ?_⟩
  all_goals first
    | change @BitVec.extractLsb' packedWidth _ _ _ = _
    | change @BitVec.getLsbD packedWidth _ _ = _
  all_goals repeat first
    | rw [ext_low _ _ _ _ (by omega)]
    | rw [ext_high _ _ _ _ (by omega)]
    | rw [bit_low _ _ _ (by omega)]
    | rw [bit_high _ _ _ (by omega)]
  all_goals first
    | exact ext_all _
    | exact bit1_get _

set_option maxRecDepth 4000 in
theorem decSrc_enc (s : Src) : decSrc (encSrc s) = some s := by
  cases s with
  | vec i => revert i; decide
  | scal i => revert i; decide
  | latch b => cases b <;> rfl
  | imm n => revert n; decide
  | fcon k => revert k; decide
  | lit => rfl

theorem readField_enc (r : Raw) (ok : Bool) (s : Src) (hu : r.ubit = true → s.uniform = true) (hl : s.isLit = true → ok = true) :
    readField r ok (encSrc s) = .ok s := by
  unfold readField
  rw [decSrc_enc]
  cases s <;> simp_all [Src.uniform, Src.isLit]

@[simp] theorem decArithSat_enc (t : ITy) (s : Bool) : decArithSat (encArithSat t s) = some (t, s) := by cases t <;> cases s <;> rfl
@[simp] theorem decArith_enc (t : ITy) : decArith (encArith t) = some t := by cases t <;> rfl
@[simp] theorem decLogic_enc (b : Bool) : decLogic (encLogic b) = some b := by cases b <;> rfl
@[simp] theorem decBit0_enc (b : Bool) : decBit0 (encBit0 b) = some b := by cases b <;> rfl
@[simp] theorem decIabs_enc (a b : Bool) : decIabs (encIabs a b) = some (a, b) := by cases a <;> cases b <;> rfl
@[simp] theorem decIcmp_enc (t : ITy) (c : ICond) : decIcmp (encIcmp t c) = some (t, c) := by cases t <;> cases c <;> rfl
@[simp] theorem decSel_enc (w : Bool) (q : BitVec 3) (n : Bool) : decSel (encSel w q n) = some (w, q, n) := by revert w q n; decide
@[simp] theorem decShf_enc (a b : Bool) : decShf (encShf a b) = some (a, b) := by cases a <;> cases b <;> rfl
@[simp] theorem decLea_enc (t : ITy) (s : BitVec 5) : decLea (encLea t s) = some (t, s) := by revert s; cases t <;> decide
@[simp] theorem decCvti_enc (s d : CvTy) (b : Bool) : decCvti (encCvti s d b) = some (s, d, b) := by cases s <;> cases d <;> cases b <;> rfl
@[simp] theorem decF_enc (m : BitVec 7) (r : RMode) (f na nb nc s : Bool) (h : encF r f na nb nc s &&& ~~~m = 0) :
    decF m (encF r f na nb nc s) = some (r, f, na, nb, nc, s) := by
  unfold decF; rw [if_pos h]; cases r <;> cases f <;> cases na <;> cases nb <;> cases nc <;> cases s <;> rfl
@[simp] theorem decFcmp_enc (f : Bool) (c : FCond) : decFcmp (encFcmp f c) = some (f, c) := by cases f <;> cases c <;> rfl
@[simp] theorem decRC_enc (r : CvRound) : ∃ m, decRC (encRC r) = some m ∧ (m.2 = true ↔ r.src?.isSome) ∧ (∀ x, r = .det x → m = (x, false)) := by
  cases r with
  | det x => cases x <;> exact ⟨_, rfl, by simp [CvRound.src?], by simp⟩
  | sr s => exact ⟨_, rfl, by simp [CvRound.src?], by simp⟩
@[simp] theorem decPacked_enc (ok bf : Bool) (r : RMode) (na nb nc s : Bool) (h : nc = true → ok = true) :
    decPacked ok (encPacked bf r na nb nc s) = some (bf, r, na, nb, nc, s) := by
  cases ok <;> cases bf <;> cases r <;> cases na <;> cases nb <;> cases nc <;> cases s <;> first | rfl | simp at h
@[simp] theorem decPset_enc (k : PCmp) : decPset (encPset k) = some k := by
  cases k with
  | int t c => cases t <;> cases c <;> rfl
  | f32 c => cases c <;> rfl
  | f64 c => cases c <;> rfl
@[simp] theorem decVote_enc (v : VoteMode) (q : BitVec 3) (n : Bool) : decVote (encVote v q n) = some (v, q, n) := by
  revert q n; cases v <;> decide
@[simp] theorem decShfl_enc (m : ShflMode) : decShfl (encShfl m) = some m := by
  cases m with
  | rot b => cases b <;> rfl
  | _ => rfl
@[simp] theorem decRedw_enc (m : RedwOp) : decRedw (encRedw m) = some m := by cases m <;> rfl
@[simp] theorem decFence_enc (s : Scope) (k : FenceKind) : decFence (encFence s k) = some (s, k) := by cases s <;> cases k <;> rfl
@[simp] theorem decBits2_enc (a b : Bool) : decBits2 (encBits2 a b) = some (a, b) := by cases a <;> cases b <;> rfl
@[simp] theorem decBits3_enc (m : BitVec 7) (a b c : Bool) (h : encBits3 a b c &&& ~~~m = 0) : decBits3 m (encBits3 a b c) = some (a, b, c) := by
  unfold decBits3; rw [if_pos h]; cases a <;> cases b <;> cases c <;> rfl
@[simp] theorem decBar_enc (i : BitVec 4) (a c : Bool) : decBar (encBar i a c) = some (i, a, c) := by revert i a c; decide
@[simp] theorem decLow3_enc (x : BitVec 3) : decLow3 (encLow3 x) = some x := by revert x; decide
@[simp] theorem decLow5_enc (x : BitVec 5) : decLow5 (encLow5 x) = some x := by revert x; decide
@[simp] theorem decMchain_enc (m : ChainMode) : decMchain (encMchain m) = some m := by cases m <;> rfl

@[simp] theorem decF_5F (r : RMode) (f na nb s : Bool) : decF 95#7 (encF r f na nb false s) = some (r, f, na, nb, false, s) := decF_enc _ r f na nb false s (by cases r <;> cases f <;> cases na <;> cases nb <;> cases s <;> rfl)
@[simp] theorem decF_7F (r : RMode) (f na nb nc s : Bool) : decF 127#7 (encF r f na nb nc s) = some (r, f, na, nb, nc, s) := decF_enc _ r f na nb nc s (by cases r <;> cases f <;> cases na <;> cases nb <;> cases nc <;> cases s <;> rfl)
@[simp] theorem decF_1C (f na nb : Bool) : decF 28#7 (encF .rne f na nb false false) = some (.rne, f, na, nb, false, false) := decF_enc _ .rne f na nb false false (by cases f <;> cases na <;> cases nb <;> rfl)
@[simp] theorem decF_0F (r : RMode) (f na : Bool) : decF 15#7 (encF r f na false false false) = some (r, f, na, false, false, false) := decF_enc _ r f na false false false (by cases r <;> cases f <;> cases na <;> rfl)
@[simp] theorem decF_08 (na : Bool) : decF 8#7 (encF .rne false na false false false) = some (.rne, false, na, false, false, false) := decF_enc _ .rne false na false false false (by cases na <;> rfl)
@[simp] theorem decF_4F (r : RMode) (f na s : Bool) : decF 79#7 (encF r f na false false s) = some (r, f, na, false, false, s) := decF_enc _ r f na false false s (by cases r <;> cases f <;> cases na <;> cases s <;> rfl)
@[simp] theorem decF_04 (f : Bool) : decF 4#7 (encF .rne f false false false false) = some (.rne, f, false, false, false, false) := decF_enc _ .rne f false false false false (by cases f <;> rfl)
@[simp] theorem decBits3_7 (a b c : Bool) : decBits3 7#7 (encBits3 a b c) = some (a, b, c) := decBits3_enc _ a b c (by cases a <;> cases b <;> cases c <;> rfl)
@[simp] theorem decBits3_4 (c : Bool) : decBits3 4#7 (encBits3 false false c) = some (false, false, c) := decBits3_enc _ _ _ _ (by cases c <;> rfl)
@[simp] theorem decBits3_5 (a c : Bool) : decBits3 5#7 (encBits3 a false c) = some (a, false, c) := decBits3_enc _ _ _ _ (by cases a <;> cases c <;> rfl)
@[simp] theorem decBits3_2 (c : Bool) : decBits3 2#7 (encBits3 false c false) = some (false, c, false) := decBits3_enc _ _ _ _ (by cases c <;> rfl)
@[simp] theorem decBit0_zero : decBit0 0#7 = some false := rfl
theorem pmov_mode (p : BitVec 3) (n : Bool) : BitVec.extractLsb' 0 3 (encPmov p n) = 0#3 ∧ BitVec.extractLsb' 3 3 (encPmov p n) = p ∧ (encPmov p n)[6] = n := by revert p n; decide
@[simp] theorem pmov_mode1 (p : BitVec 3) (n : Bool) : BitVec.extractLsb' 0 3 (encPmov p n) = 0#3 := (pmov_mode p n).1
@[simp] theorem pmov_mode2 (p : BitVec 3) (n : Bool) : BitVec.extractLsb' 3 3 (encPmov p n) = p := (pmov_mode p n).2.1
@[simp] theorem pmov_mode3 (p : BitVec 3) (n : Bool) : (encPmov p n)[6] = n := (pmov_mode p n).2.2

theorem pad_scalar (i : BitVec 6) : BitVec.setWidth 6 (0#2 ++ i) = i := by revert i; decide
theorem pad_scalar_le (i : BitVec 6) : ¬ 63 < (0#2 ++ i).toNat := by revert i; decide

/-- A source of a uniform form reads back. -/
theorem readField_uniform (r : Raw) (ok : Bool) (s : Src) (hu : s.uniform = true) (hl : s.isLit = true → ok = true) :
    readField r ok (encSrc s) = .ok s := readField_enc r ok s (fun _ => hu) hl

/-- Any source of a form that is not uniform reads back. -/
theorem readField_plain (r : Raw) (ok : Bool) (s : Src) (hu : r.ubit = false) (hl : s.isLit = true → ok = true) :
    readField r ok (encSrc s) = .ok s := readField_enc r ok s (fun h => by rw [hu] at h; cases h) hl

/-- The upper half of a literal's second word is zero. -/
theorem lit_pad (l : Word) : BitVec.extractLsb' 32 32 (BitVec.setWidth 64 l) = 0#32 := by ext i h; simp

end Sys2Proof
end

