-- ==== Sys2Proof/Laws/Near.lean ====
section
/-! SUPPORT. Writes of a lane to scratchpads: what a store does to words and granules, and a fold of threads that take their turns. -/

namespace Sys2Proof.Machine

open Sys2Proof.Claims

/-! ## Words and granules of a scratchpad -/

theorem putWord_word (x : Scr) (k j : Nat) (v : TWord) : (x.putWord k v).word j = if j = k then v else x.word j := by
  unfold Scr.word Scr.putWord
  by_cases h : j = k
  · subst h; simp
  · simp [h]

theorem putWord_size (x : Scr) (k : Nat) (v : TWord) : (x.putWord k v).size = x.size := rfl
theorem putWord_gran (x : Scr) (k : Nat) (v : TWord) : (x.putWord k v).gran = x.gran := rfl
theorem putWord_bad (x : Scr) (k : Nat) (v : TWord) (h : x.bad = []) : (x.putWord k v).bad = [] := by
  unfold Scr.putWord; simp [h]

theorem nodup_eraseDupsNat : ∀ (n : Nat) (l : List Nat), l.length ≤ n → l.eraseDups.Nodup
  | 0, [], _ => by simp
  | n + 1, [], _ => by simp
  | n + 1, a :: l, h => by
    rw [List.eraseDups_cons, List.nodup_cons]
    refine ⟨by simp [List.mem_eraseDups], nodup_eraseDupsNat n _ ?_⟩
    have := List.length_filter_le (fun b => !b == a) l
    simp only [List.length_cons] at h
    omega

/-- What a write of cells does, word by word. -/
theorem writeCells_word (a : Nat) (cs : List WCell) (x : Scr) (j : Nat) : (x.writeCells a cs).word j =
    if j ∈ cellWords a cs then mergeWord (x.word j) (cellsIn a cs j) else x.word j := by
  unfold Scr.writeCells
  have hn : (cellWords a cs).Nodup := nodup_eraseDupsNat _ _ (le_refl _)
  generalize cellWords a cs = ks at hn
  induction ks generalizing x with
  | nil => simp
  | cons k ks ih =>
    rw [List.nodup_cons] at hn
    rw [List.foldl_cons, ih _ hn.2, putWord_word]
    by_cases h : j = k
    · subst h; simp [hn.1]
    · simp [h]

theorem writeCells_rest (a : Nat) (cs : List WCell) (x : Scr) : (x.writeCells a cs).size = x.size ∧ (x.writeCells a cs).gran = x.gran ∧
    (x.bad = [] → (x.writeCells a cs).bad = []) := by
  unfold Scr.writeCells
  generalize cellWords a cs = ks
  induction ks generalizing x with
  | nil => exact ⟨rfl, rfl, id⟩
  | cons k ks ih =>
    rw [List.foldl_cons]
    exact ⟨(ih _).1, (ih _).2.1, fun h => (ih _).2.2 (putWord_bad _ _ _ h)⟩

theorem fill_rest (x : Scr) (a n : Nat) : (x.fill a n).size = x.size ∧ (x.fill a n).words = x.words ∧ (x.fill a n).bad = x.bad ∧
    ∀ g, (x.fill a n).granule g = if g ∈ granulesOf a n then .full else x.granule g := by
  unfold Scr.fill
  generalize granulesOf a n = gs
  induction gs generalizing x with
  | nil => exact ⟨rfl, rfl, rfl, fun g => by simp⟩
  | cons k gs ih =>
    rw [List.foldl_cons]
    obtain ⟨h1, h2, h3, h4⟩ := ih (x.setGran k .full)
    refine ⟨h1, h2, h3, fun g => ?_⟩
    rw [h4 g]
    have : (x.setGran k .full).granule g = if g = k then .full else x.granule g := by
      unfold Scr.granule Scr.setGran
      by_cases h : g = k
      · subst h; simp
      · simp [h]
    rw [this]
    by_cases h1 : g ∈ gs <;> by_cases h2 : g = k <;> simp [h1, h2]

theorem cellWords_sub (a n : Nat) (v : Nat) (crz : Option Word) {j : Nat} (h : j ∈ cellWords a (cellsOf 0 n v crz)) : j ∈ wordsOf a n := by
  unfold cellWords at h
  rw [List.mem_eraseDups] at h
  simp only [cellsOf, List.map_map, List.mem_map, List.mem_range, Function.comp] at h
  obtain ⟨i, hi, rfl⟩ := h
  unfold wordsOf
  simp only [List.mem_map, List.mem_range]
  exact ⟨(a + (0 + i)) / 4 - a / 4, by omega, by omega⟩

/-! ## The machine around a lane that writes scratchpads -/

/-- The view `c` differs from the machine `s` with lane `l` in scratchpads, threads and counters alone. -/
structure Ctx.Near (s : State) (l : Lane) (c : Ctx) : Prop where
  rest : c.s = { s with wgs := c.s.wgs }
  lane : c.l = { l with w := { l.w with thr := c.l.w.thr, po := c.l.w.po, nextId := c.l.w.nextId },
                        wg := { l.wg with scr := c.l.wg.scr } }
  own : c.s.wg? l.ref.wg = s.wg? l.ref.wg
  groups : ∀ n, n ≠ l.ref.wg → c.s.wg? n = (s.wg? n).map (fun g => { g with scr := c.scr n })

/-- Replace one scratchpad of a resident group. -/
theorem near_setScr {s : State} {l : Lane} {c : Ctx} (h : c.Near s l) (g : Nat) (x : Scr) (hg : g = l.ref.wg ∨ (s.wg? g).isSome) :
    (c.setScr g x).Near s l ∧ (∀ k, (c.setScr g x).scr k = if k = g then x else c.scr k) ∧ (c.setScr g x).l.w = c.l.w := by
  have href : c.l.ref = l.ref := by rw [h.lane]
  by_cases e : g = l.ref.wg
  · subst e
    have : c.setScr l.ref.wg x = { c with l := { c.l with wg := { c.l.wg with scr := x } } } := by
      unfold Ctx.setScr; rw [href, if_pos rfl]
    rw [this]
    have hk : ∀ k, Ctx.scr { c with l := { c.l with wg := { c.l.wg with scr := x } } } k = if k = l.ref.wg then x else c.scr k := by
      intro k
      unfold Ctx.scr
      simp only [href]
      split <;> rfl
    refine ⟨⟨h.rest, ?_, h.own, fun n hn => ?_⟩, hk, rfl⟩
    · exact (congrArg (fun m : Lane => { m with wg := { m.wg with scr := x } }) h.lane)
    · rw [hk, if_neg hn]; exact h.groups n hn
  · have hi : (s.wg? g).isSome := hg.resolve_left e
    obtain ⟨y, hy⟩ := Option.isSome_iff_exists.mp hi
    have hz := h.groups g e
    rw [hy] at hz
    have : c.setScr g x = { c with s := c.s.setWg g { y with scr := x } } := by
      unfold Ctx.setScr
      rw [href, if_neg e, hz]; rfl
    rw [this]
    have hk : ∀ k, Ctx.scr { c with s := c.s.setWg g { y with scr := x } } k = if k = g then x else c.scr k := by
      intro k
      unfold Ctx.scr
      simp only [href]
      by_cases e1 : k = l.ref.wg
      · subst e1; rw [if_pos rfl, if_pos rfl, if_neg (Ne.symm e)]
      · rw [if_neg e1, if_neg e1]
        by_cases e2 : k = g
        · subst e2; rw [if_pos rfl, wg?_setWg_same]
        · rw [if_neg e2, wg?_setWg_other _ _ e2]
    refine ⟨⟨?_, h.lane, (wg?_setWg_other _ _ (Ne.symm e)).trans h.own, fun n hn => ?_⟩, hk, rfl⟩
    · exact (congrArg (fun m : State => m.setWg g { y with scr := x }) h.rest).trans rfl
    · rw [hk]
      by_cases e2 : n = g
      · subst e2; rw [if_pos rfl, hy]; exact wg?_setWg_same _ _ _
      · rw [if_neg e2]
        exact (wg?_setWg_other _ _ e2).trans (h.groups n hn)

/-- A thread written, and the counters moved on. -/
theorem near_tick {s : State} {l : Lane} {c : Ctx} (h : c.Near s l) (t : Nat) (x : Thread) :
    Ctx.Near s l { c with l := (c.l.setTh t x).tick } ∧ (∀ k, Ctx.scr { c with l := (c.l.setTh t x).tick } k = c.scr k) :=
  ⟨⟨h.rest, congrArg (fun m : Lane => (m.setTh t x).tick) h.lane |>.trans rfl, h.own, fun n hn => h.groups n hn⟩, fun _ => rfl⟩

/-- The checks see no difference while the sizes stay. -/
theorem near_alike {s : State} {l : Lane} {c : Ctx} (ts : List Nat) (n : Nat) (hl : s.wg? l.ref.wg = some l.wg)
    (h : c.Near s (l.advance ts n)) (hz : ∀ g, (c.scr g).size = (scratch s g).size) : c.Alike ⟨s, l⟩ := by
  have href : c.l.ref = l.ref := by rw [h.lane]; rfl
  have h1 : c.l.w.sg = l.w.sg := by rw [h.lane]; rfl
  have h2 : c.l.wg.info = l.wg.info := by rw [h.lane]; rfl
  have h3 : c.l.wg.kiln = l.wg.kiln := by rw [h.lane]; rfl
  refine ⟨href, h1, h2, h3, fun g => ?_, fun g => by rw [hz, scr_scratch hl]⟩
  by_cases e : g = l.ref.wg
  · subst e; exact congrArg _ h.own
  · rw [h.groups g e, Option.isSome_map]


/-- A thread of a turn: what it makes of the scratchpads and of itself. -/
structure Took (s : State) (l : Lane) (t : Nat) (x : Thread) (m : Nat → Scr) (c d : Ctx) : Prop where
  near : d.Near s l
  scr : ∀ g, d.scr g = m g
  po : d.l.w.po = c.l.w.po + 1
  id : d.l.w.nextId = c.l.w.nextId + 1
  th : ∀ u < 32, d.l.w.th u = if u = t then x else c.l.w.th u

/-- Threads take their turns: each sees the scratchpads that those before it left. -/
theorem foldl_turns (step : Ctx → Nat → Ctx) (turn : (Nat → Scr) → Nat → Nat → Scr) (G : (Nat → Scr) → Nat → Thread) (P : (Nat → Scr) → Prop)
    (s : State) (l : Lane) : ∀ (ts : List Nat) (c : Ctx) (m : Nat → Scr), ts.Nodup → c.Near s l → (∀ g, c.scr g = m g) → P m →
    (∀ m t, t ∈ ts → P m → P (turn m t)) → (∀ t ∈ ts, c.l.w.th t = l.w.th t) → (∀ t ∈ ts, t < 32) →
    (∀ (d : Ctx) (m : Nat → Scr) (t : Nat), t ∈ ts → d.Near s l → (∀ g, d.scr g = m g) → P m → d.l.w.th t = l.w.th t →
      Took s l t (G m t) (turn m t) d (step d t)) →
    (ts.foldl step c).Near s l ∧ (∀ g, (ts.foldl step c).scr g = ts.foldl turn m g) ∧ P (ts.foldl turn m) ∧
    (ts.foldl step c).l.w.po = c.l.w.po + ts.length ∧ (ts.foldl step c).l.w.nextId = c.l.w.nextId + ts.length ∧
    ∀ u < 32, (ts.foldl step c).l.w.th u = if u ∈ ts then G (before ts turn m u) u else c.l.w.th u
  | [], c, m, _, hn, hs, hP, _, _, _, _ => ⟨hn, hs, hP, rfl, rfl, fun u _ => by simp⟩
  | t :: ts, c, m, hd, hn, hs, hP, hT, hth, hlt, hst => by
    rw [List.nodup_cons] at hd
    obtain ⟨n1, n2, n3, n4, n5⟩ := hst c m t List.mem_cons_self hn hs hP (hth t List.mem_cons_self)
    obtain ⟨h1, h2, h3, h4, h5, h6⟩ := foldl_turns step turn G P s l ts (step c t) (turn m t) hd.2 n1 n2 (hT m t List.mem_cons_self hP)
      (fun m u hu => hT m u (List.mem_cons_of_mem _ hu))
      (fun u hu => by
        rw [n5 u (hlt u (List.mem_cons_of_mem _ hu)), if_neg (fun e : u = t => hd.1 (e ▸ hu))]
        exact hth u (List.mem_cons_of_mem _ hu))
      (fun u hu => hlt u (List.mem_cons_of_mem _ hu)) (fun d m u hu => hst d m u (List.mem_cons_of_mem _ hu))
    refine ⟨h1, h2, h3, by rw [List.foldl_cons, h4, n3, List.length_cons]; omega, by rw [List.foldl_cons, h5, n4, List.length_cons]; omega, fun u hu => ?_⟩
    rw [List.foldl_cons, h6 u hu, n5 u hu]
    by_cases e : u = t
    · subst e
      rw [if_neg hd.1, if_pos rfl, if_pos List.mem_cons_self]
      simp [before]
    · have hb : before (t :: ts) turn m u = before ts turn (turn m t) u := by
        unfold before
        rw [List.takeWhile_cons, if_pos (by simpa using fun h => e h.symm), List.foldl_cons]
      by_cases hm : u ∈ ts
      · rw [if_pos hm, if_pos (List.mem_cons_of_mem _ hm), hb]
      · rw [if_neg hm, if_neg e, if_neg (by simp [e, hm])]

/-- Scratchpads with no error in what the places name, and the sizes they had. -/
structure Calm (s : State) (places : List ScrLoc) (m : Nat → Scr) : Prop where
  size : ∀ g, (m g).size = (scratch s g).size
  bad : ∀ a ∈ places, (m a.wg).bad = []

theorem store_calm {s : State} {ps : List ScrLoc} {m : Nat → Scr} (h : Calm s ps m) (a : ScrLoc) (cs : List WCell) : Calm s ps (store m a cs) := by
  refine ⟨fun g => ?_, fun b hb => ?_⟩
  · unfold store; split
    · rw [(writeCells_rest _ _ _).1]; exact h.size g
    · exact h.size g
  · unfold store; split
    · exact (writeCells_rest _ _ _).2.2 (h.bad b hb)
    · exact h.bad b hb

theorem atomStore_calm {s : State} {ps : List ScrLoc} {m : Nat → Scr} (h : Calm s ps m) (op n : Nat) (a : ScrLoc) (x cmp : Nat) :
    Calm s ps (atomStore m op n a x cmp) := by
  unfold atomStore
  split
  · exact store_calm h _ _
  · exact h

theorem store_word (m : Nat → Scr) (a : ScrLoc) (n v : Nat) (crz : Option Word) (g j : Nat) (h : a.wg = g → j ∉ wordsOf a.off n) :
    (store m a (cellsOf 0 n v crz) g).word j = (m g).word j := by
  unfold store
  split
  · next e => rw [writeCells_word, if_neg (fun hm => h e.symm (cellWords_sub _ _ _ _ hm))]
  · rfl

/-- A word that no place touches stays. -/
theorem foldl_apart (turn : (Nat → Scr) → Nat → Nat → Scr) (g j : Nat) : ∀ (ts : List Nat) (m : Nat → Scr),
    (∀ t ∈ ts, ∀ m, (turn m t g).word j = (m g).word j) → (ts.foldl turn m g).word j = (m g).word j
  | [], _, _ => rfl
  | t :: ts, m, h => by
    rw [List.foldl_cons, foldl_apart turn g j ts _ (fun u hu => h u (List.mem_cons_of_mem _ hu)), h t List.mem_cons_self]

theorem peer_some {c : Ctx} {p x : Nat} (hT : c.peer p = some x) : x = c.l.ref.wg ∨ (c.s.wg? x).isSome := by
  unfold Ctx.peer at hT
  split at hT
  · cases hT
  · split at hT
    · left; simpa using hT.symm
    · split at hT
      · split at hT
        · next hs => cases hT; right; exact hs
        · cases hT
      · cases hT

theorem mem_memPlace {c : Ctx} {k t o n : Nat} {perms kinds : List Nat} {al : Bool} {a : ScrLoc}
    (h : c.check k t o n perms kinds al = .ok (.scr a)) : a.wg = c.l.ref.wg ∨ (c.s.wg? a.wg).isSome := by
  unfold Ctx.check Ctx.checkSeg at h
  simp only at h
  generalize hT : (if sgKind (c.l.w.seg k) = 1 then some c.l.ref.wg
    else if sgKind (c.l.w.seg k) = 2 then c.peer (o / 2 ^ 22 % 4) else none) = T at h
  cases T with
  | none =>
    simp only at h
    split_ifs at h <;> simp at h
  | some x =>
    have hx : x = c.l.ref.wg ∨ (c.s.wg? x).isSome := by
      split_ifs at hT
      · left; simpa using hT.symm
      · exact peer_some hT
    simp only at h
    generalize (if sgKind (c.l.w.seg k) = 2 then o % 2 ^ 22 else sgBase (c.l.w.seg k) + o) = off at h
    split_ifs at h
    simp only [Chk.ok.injEq, Where.scr.injEq] at h
    subst h
    exact hx

/-- A write of cells to a scratchpad without errors. -/
theorem writeScr_clean (c : Ctx) (t : Nat) (pc : VAddr) (a : ScrLoc) (cs : List WCell) (hb : (c.scr a.wg).bad = []) :
    c.writeScr t pc a cs = c.setScr a.wg ((c.scr a.wg).writeCells a.off cs) := by
  unfold Ctx.writeScr Ctx.scrubScr
  have e : cs.filter (fun _ => true) = cs := List.filter_eq_self.mpr (fun _ _ => rfl)
  simp [hb]


/-- A store of one thread to a scratchpad. -/
theorem nearOne_store (m : MemIns) (row : MemRow) (h : Hdr) (fill : Bool) (pc : VAddr) (l : Lane) (c : Ctx) (t : Nat) (a : ScrLoc)
    (ha : m.args h pc false c.l t = (c.l, memArgs m h l t)) (h1 : (memArgs m h l t).addr = none)
    (hp : c.check (exSeg m.e) t (memArgs m h l t).o m.n [row.perm] row.kinds true = .ok (.scr a)) (hb : (c.scr a.wg).bad = []) :
    nearOne m row h none fill pc c t =
      let c1 := (c.setScr a.wg ((c.scr a.wg).writeCells a.off (cellsOf 0 m.n (memArgs m h l t).data
        (crazeOf [(memArgs m h l t).dcrz, (memArgs m h l t).guard])))).onL Lane.tick
      if fill then c1.setScr a.wg ((c1.scr a.wg).fill a.off m.n) else c1 := by
  unfold nearOne
  simp only [ha, h1, hp]
  rw [writeScr_clean _ _ _ _ _ hb]

/-- A reduction of one thread in a scratchpad. -/
theorem nearOne_red (m : MemIns) (row : MemRow) (h : Hdr) (op : Nat) (pc : VAddr) (l : Lane) (c : Ctx) (t : Nat) (a : ScrLoc)
    (ha : m.args h pc false c.l t = (c.l, memArgs m h l t)) (h1 : (memArgs m h l t).addr = none) (h2 : (memArgs m h l t).dcrz = none)
    (h3 : (memArgs m h l t).guard = none)
    (hp : c.check (exSeg m.e) t (memArgs m h l t).o m.n [row.perm] row.kinds true = .ok (.scr a)) (hb : (c.scr a.wg).bad = []) :
    nearOne m row h (some op) false pc c t =
      (match (atomStep op m.n (memArgs m h l t).data 0 (wordsAt (c.scr a.wg) a.off m.n)).1 with
        | some v => c.setScr a.wg ((c.scr a.wg).writeCells a.off (cellsOf 0 m.n v none))
        | none => c).onL Lane.tick := by
  have hcz : crazeOf [none, (none : Option Word)] = none := rfl
  unfold nearOne
  simp only [ha, h1, h2, h3, hp, hcz, readScr_clean _ _ _ _ _ hb, Bool.false_eq_true, if_false]
  split <;> next e =>
    first
    | rw [writeScr_clean _ _ _ _ _ hb]
    | skip
    try simp only [e]

/-- An atomic of one thread in a scratchpad. -/
theorem atomOne_clean (m : MemIns) (row : MemRow) (h : Hdr) (op dst : Nat) (pc : VAddr) (l : Lane) (c : Ctx) (t : Nat) (a : ScrLoc)
    (ha : m.args h pc (dst == 255) c.l t = (c.l, memArgs m h l t)) (h1 : (memArgs m h l t).addr = none) (h2 : (memArgs m h l t).dcrz = none)
    (h3 : (memArgs m h l t).ccrz = none) (h4 : (memArgs m h l t).guard = none)
    (hp : c.check (exSeg m.e) t (memArgs m h l t).o m.n [row.perm] row.kinds true = .ok (.scr a)) (hb : (c.scr a.wg).bad = []) :
    atomOne m row h op dst false pc c t =
      (match (atomStep op m.n (memArgs m h l t).data (memArgs m h l t).cmp (wordsAt (c.scr a.wg) a.off m.n)).1 with
        | some v => c.setScr a.wg ((c.scr a.wg).writeCells a.off (cellsOf 0 m.n v none))
        | none => c).onL (fun l' => (l'.setTh t ((l'.w.th t).setWords dst
          (atomStep op m.n (memArgs m h l t).data (memArgs m h l t).cmp (wordsAt (c.scr a.wg) a.off m.n)).2)).tick) := by
  have hcz : crazeOf [none, none, none, (none : Option Word)] = none := rfl
  unfold atomOne
  simp only [ha, h1, h2, h3, h4, hp, hcz, readScr_clean _ _ _ _ _ hb, Bool.false_eq_true, if_false]
  split <;> next e =>
    first
    | rw [writeScr_clean _ _ _ _ _ hb]
    | skip
    try simp only [e]

/-- The state after an instruction that wrote scratchpads. -/
theorem near_onlyScratch {s : State} {l m : Lane} {c : Ctx} {ts : List Nat} {n : Nat} (h : s.lane? = some l) (hc : c.Near s (l.advance ts n))
    (hm : m = { c.l with w := m.w }) (hz : ∀ g, (c.scr g).size = (scratch s g).size) :
    onlyScratch s (c.s.putLane m) l m.w ∧ ∀ g, scratch (c.s.putLane m) g = c.scr g := by
  obtain ⟨-, hl, -⟩ := lane?_some h
  obtain ⟨-, hg, hw, hk, -⟩ := laneOf_some hl
  have hlt : l.ref.warp < l.wg.warps.length := (List.getElem?_eq_some_iff.mp hw).1
  have hr : m.ref = l.ref := by rw [hm, hc.lane]; rfl
  have hmg : m.wg = { l.wg with scr := c.l.wg.scr } := by rw [hm, hc.lane]; rfl
  have hmc : m.core = l.core := by rw [hm, hc.lane]; rfl
  have hcr : c.l.ref = l.ref := by rw [hc.lane]; rfl
  have hown : (c.s.putLane m).wg? l.ref.wg = some { l.wg with warps := l.wg.warps.set l.ref.warp m.w, scr := c.l.wg.scr } := by
    have := wg?_putLane_same c.s m
    rw [hr, hmg] at this
    exact this
  have hoth : ∀ g, g ≠ l.ref.wg → (c.s.putLane m).wg? g = c.s.wg? g := fun g hg => wg?_putLane_other c.s m (by rw [hr]; exact hg)
  have hscr : ∀ g, scratch (c.s.putLane m) g = c.scr g := by
    intro g
    unfold scratch Ctx.scr
    rw [hcr]
    by_cases e : g = l.ref.wg
    · subst e; rw [hown, if_pos rfl]
    · rw [hoth g e, if_neg e]
      try rfl
  refine ⟨⟨?_, fun a => ?_, ?_, fun k hk => ?_, fun d => ?_, fun g => by rw [hscr]; exact hz g⟩, hscr⟩
  · unfold State.putLane
    rw [hc.rest]
  · have : (c.s.putLane m).mem = s.mem := by rw [putLane_mem, hc.rest]
    rw [this]
  · rw [hscr]
    have : c.scr l.ref.wg = c.l.wg.scr := by unfold Ctx.scr; rw [hcr, if_pos rfl]
    rw [this]
    unfold State.warp?
    rw [hown]
    simp [hlt]
  · rw [hoth k hk, hscr]; exact hc.groups k hk
  · have hcc : c.s.core d = s.core d := by unfold State.core; rw [hc.rest]
    by_cases e : d = l.wg.core
    · subst e
      have := core_putLane_same c.s m
      rw [hmg, hmc, hk] at this
      exact this
    · have e2 : d ≠ m.wg.core := by rw [hmg]; exact e
      exact (core_putLane_other c.s m e2).trans hcc

end Sys2Proof.Machine
end

