-- ==== Sys2Proof/Laws/Events.lean ====
section
/-! SUPPORT. What an event of a warp or of a copy command gives: the context that its body makes, put back. -/

namespace Sys2Proof.Machine

open Sys2Proof.Claims

/-- An event of a resident warp puts back what its body makes. -/
theorem onWarp_next {s : State} {r : WRef} {l : Lane} (h : s.laneOf r = some l) (f : Ctx → Ctx) :
    onWarp s r f = .next ((f ⟨s, l⟩).s.putLane (ended (f ⟨s, l⟩).l)) := by
  simp [onWarp, State.atWarp, h, Ctx.onL, ended]

/-- The same, for a body whose result is known. -/
theorem onWarp_is {s : State} {r : WRef} {l : Lane} (h : s.laneOf r = some l) {f : Ctx → Ctx} {t : State} {m : Lane}
    (hc : f ⟨s, l⟩ = ⟨t, m⟩) : onWarp s r f = .next (t.putLane (ended m)) := by rw [onWarp_next h, hc]

/-- A wake of a warp that is not at a stop point. -/
theorem onWake_is {s : State} {r : WRef} {l : Lane} (h : s.laneOf r = some l) (hf : l.wg.frozen = false) {f : Ctx → Ctx} {t : State}
    {m : Lane} (hc : f ⟨s, l⟩ = ⟨t, m⟩) : onWake s r f = .next (t.putLane (ended m)) := by
  refine onWarp_is h ?_
  simp [hf, hc]

/-- An event of a copy command: reads that have ended are no longer outstanding. -/
theorem onCmd_is {s : State} {core cmd : Nat} {k : CpyCmd} {l : Lane} (h : cmdAt s core cmd k l) {f : CpyCmd → Ctx → Ctx} {t : State}
    {m : Lane} (hc : f k ⟨s, l⟩ = ⟨t, m⟩) : onCmd core cmd f s = .next (t.putLane (ended m.endReads)) := by
  unfold onCmd
  rw [h.1]
  exact onWarp_is h.2 (by rw [hc]; rfl)

/-- The reference of a resident lane. -/
theorem laneOf_ref {s : State} {r : WRef} {l : Lane} (h : s.laneOf r = some l) : l.ref = r := by
  unfold State.laneOf at h
  split at h
  · cases h
  · cases h; rfl

/-- Acting on the lane of a resident warp. -/
theorem atWarp_is {s : State} {r : WRef} {l : Lane} (h : s.laneOf r = some l) (f : Ctx → Ctx) :
    s.atWarp r f = (f ⟨s, l⟩).s.putLane (f ⟨s, l⟩).l := by simp [State.atWarp, h]

/-- Changing a resident workgroup. -/
theorem modWg_is {s : State} {n : Nat} {g : Wg} (h : s.wg? n = some g) (f : Wg → Wg) : s.modWg n f = s.setWg n (f g) := by
  simp [State.modWg, h]

/-- The lane of a warp is of its workgroup. -/
theorem laneOf_wg {s : State} {r : WRef} {l : Lane} {g : Wg} (h : s.laneOf r = some l) (hg : s.wg? r.wg = some g) : l.wg = g ∧ l.ref = r := by
  unfold State.laneOf State.warp? at h
  rw [hg] at h
  dsimp only at h
  cases hw : g.warps[r.warp]? with
  | none => rw [hw] at h; cases h
  | some w => rw [hw] at h; cases h; exact ⟨rfl, rfl⟩

end Sys2Proof.Machine
end

