-- ==== Sys2Proof/Laws/Memory.lean ====
section
/-! SUPPORT. The laws of memory: a byte reads as it was written, the other bytes stay, and every operation over memory keeps its
canonical form. -/

namespace Sys2Proof.Machine

/-! ## Bytes and words -/

@[simp] theorem byte_setByte_same (m : Memory) (a : Nat) (b : Byte) : (m.setByte a b).byte a = b := by simp [Memory.setByte, Memory.byte]

@[simp] theorem byte_setByte_other (m : Memory) {a c : Nat} (b : Byte) (h : c ≠ a) : (m.setByte a b).byte c = m.byte c := by
  simp [Memory.setByte, Memory.byte, h]

/-- Bytes outside a run that is written stay. -/
theorem byte_setBytes_other (bs : List Byte) : ∀ (m : Memory) (a c : Nat), (c < a ∨ a + bs.length ≤ c) → (m.setBytes a bs).byte c = m.byte c := by
  induction bs with
  | nil => intro m a c _; rfl
  | cons b bs ih =>
    intro m a c h
    simp only [List.length_cons] at h
    unfold Memory.setBytes
    rw [ih _ _ _ (by omega), byte_setByte_other _ _ (by omega)]

/-- Bytes of a run that is written read as written. -/
theorem byte_setBytes_same (bs : List Byte) : ∀ (m : Memory) (a i : Nat) (h : i < bs.length), (m.setBytes a bs).byte (a + i) = bs[i] := by
  induction bs with
  | nil => intro m a i h; exact absurd h (by simp)
  | cons b bs ih =>
    intro m a i h
    unfold Memory.setBytes
    cases i with
    | zero => rw [byte_setBytes_other _ _ _ _ (by omega)]; simp
    | succ i =>
      have := ih (m.setByte a b) (a + 1) i (by simpa using h)
      rw [show a + (i + 1) = a + 1 + i by omega, this]; rfl

/-- A word that is replaced changes no byte of another word. -/
theorem byte_putWord_other (m : Memory) (k : Nat) (x : TWord) (c : Nat) (h : c / 4 ≠ k) : (m.putWord k x).byte c = m.byte c := by
  unfold Memory.putWord
  have : (m.setBytes (4 * k) (leBytes 4 x.val.toNat)).byte c = m.byte c :=
    byte_setBytes_other _ _ _ _ (by simp only [leBytes, List.length_cons, List.length_nil]; omega)
  dsimp only
  split
  · exact this
  · exact this

/-- A store changes no byte of a word that none of its cells touches. -/
theorem byte_writeCells_other (a : Nat) (cs : List WCell) (c : Nat) (h : c / 4 ∉ cellWords a cs) (m : Memory) :
    (m.writeCells a cs).byte c = m.byte c := by
  unfold Memory.writeCells
  generalize cellWords a cs = ks at h
  induction ks generalizing m with
  | nil => rfl
  | cons k ks ih =>
    obtain ⟨h1, h2⟩ : ¬ c / 4 = k ∧ c / 4 ∉ ks := by simpa using h
    rw [List.foldl_cons, ih _ h2, byte_putWord_other _ _ _ _ h1]

/-! ## The canonical form -/

theorem Memory.wf_iff (m : Memory) : m.wf = true ↔ Tabs.canon 0 m.bytes = true ∧ Tabs.canon false m.craze = true := by
  simp [Memory.wf]

@[simp] theorem wf_setByte (m : Memory) (a : Nat) (b : Byte) (h : m.wf = true) : (m.setByte a b).wf = true := by
  rw [Memory.wf_iff] at h ⊢
  exact ⟨Tabs.canon_set _ _ _ _ h.1, h.2⟩

theorem wf_setBytes (bs : List Byte) : ∀ (m : Memory) (a : Nat), m.wf = true → (m.setBytes a bs).wf = true := by
  induction bs with
  | nil => intro m a h; exact h
  | cons b bs ih => intro m a h; exact ih _ _ (wf_setByte m a b h)

theorem wf_putWord (m : Memory) (k : Nat) (x : TWord) (h : m.wf = true) : (m.putWord k x).wf = true := by
  unfold Memory.putWord
  have h1 := (Memory.wf_iff _).mp (wf_setBytes (leBytes 4 x.val.toNat) m (4 * k) h)
  have h2 := (Memory.wf_iff _).mp h
  dsimp only
  split <;> rw [Memory.wf_iff] <;> exact ⟨h1.1, Tabs.canon_set _ _ _ _ h2.2⟩

theorem wf_writeCells (m : Memory) (a : Nat) (cs : List WCell) (h : m.wf = true) : (m.writeCells a cs).wf = true := by
  unfold Memory.writeCells
  generalize cellWords a cs = ks
  induction ks generalizing m with
  | nil => exact h
  | cons k ks ih => exact ih _ (wf_putWord m k _ h)

theorem wf_watchWord (m : Memory) (k : Nat) (h : m.wf = true) : (m.watchWord k).wf = true := by
  unfold Memory.watchWord
  split
  · exact h
  · exact h

/-- Memory that differs in its keys, its uncorrectable sectors and its watched words alone. -/
theorem wf_congr {m n : Memory} (hb : n.bytes = m.bytes) (hc : n.craze = m.craze) (h : m.wf = true) : n.wf = true := by
  rw [Memory.wf_iff] at h ⊢; rw [hb, hc]; exact h

theorem wf_wr (s : State) (off : Nat) (x : DWord) (h : s.mem.wf = true) : (s.wr off x).mem.wf = true := h
theorem wf_vwr (s : State) (v : BitVec 8) (off : Nat) (x : DWord) (h : s.mem.wf = true) : (s.vwr v off x).mem.wf = true := h
theorem wf_setCtl (s : State) (c : Nat) (x : MemCtl) (h : s.mem.wf = true) : (s.setCtl c x).mem.wf = true := h

theorem wf_ite {c : Prop} [Decidable c] {s t : State} (hs : s.mem.wf = true) (ht : t.mem.wf = true) : (if c then s else t).mem.wf = true := by
  by_cases h : c
  · rw [if_pos h]; exact hs
  · rw [if_neg h]; exact ht

theorem wf_dropHost (s : State) (h : s.mem.wf = true) : s.dropHost.mem.wf = true := wf_ite h (wf_wr s _ _ h)

theorem wf_rekey (s : State) (k q : Nat) (h : s.mem.wf = true) : (s.rekey k q).mem.wf = true := by
  unfold State.rekey
  have h1 := wf_setBytes (s.sectorBytes k q) s.mem (32 * q) h
  generalize s.sectorBytes k q = bs at h1 ⊢
  exact wf_ite (wf_congr (m := s.mem.setBytes (32 * q) bs) rfl rfl h1) h

theorem wf_healSector (s : State) (q : Nat) (h : s.mem.wf = true) : (s.healSector q).mem.wf = true := wf_congr rfl rfl h

theorem wf_fold {α : Type} (f : State → α → State) (hf : ∀ s a, s.mem.wf = true → (f s a).mem.wf = true) (l : List α) :
    ∀ s : State, s.mem.wf = true → (l.foldl f s).mem.wf = true := by
  induction l with
  | nil => intro s h; exact h
  | cons a l ih => intro s h; exact ih _ (hf s a h)

/-- A store under a key slot. -/
theorem wf_memWrite (s : State) (k a : Nat) (cs : List WCell) (h : s.mem.wf = true) : (s.memWrite k a cs).mem.wf = true := by
  refine wf_ite (wf_dropHost s h) (wf_fold _ (fun s q h => wf_healSector s q h) _ _ ?_)
  exact wf_writeCells _ _ _ (wf_fold _ (fun s q h => wf_rekey s k q h) _ _ h)

theorem wf_memBytes (s : State) (k a : Nat) (bs : List Byte) (h : s.mem.wf = true) : (s.memBytes k a bs).mem.wf = true := wf_memWrite _ _ _ _ h
theorem wf_memPut (s : State) (k a n v : Nat) (h : s.mem.wf = true) : (s.memPut k a n v).mem.wf = true := wf_memBytes _ _ _ _ h

theorem wf_raise (s : State) (f : Option (BitVec 8)) (v : Nat) (h : s.mem.wf = true) : (s.raise f v).mem.wf = true := by
  unfold State.raise
  cases f <;> dsimp only <;> split <;> exact h

theorem wf_quarantine (s : State) (q : Nat) (h : s.mem.wf = true) : (s.quarantine q).mem.wf = true := by
  unfold State.quarantine
  dsimp only
  split
  · exact h
  · exact wf_raise _ _ _ h

theorem wf_enterPoison (s : State) (q : Nat) (h : s.mem.wf = true) : (s.enterPoison q).mem.wf = true := by
  unfold State.enterPoison
  dsimp only
  split
  · exact h
  · split
    · exact h
    · exact wf_quarantine s q h

/-- A read of a sector may move an uncorrectable one (R427). -/
theorem wf_readSector (s : State) (q : Nat) (h : s.mem.wf = true) : (s.readSector q).1.mem.wf = true := by
  unfold State.readSector
  split
  · exact h
  · split
    · exact wf_enterPoison _ _ (wf_congr rfl rfl h)
    · split
      · exact wf_enterPoison _ _ h
      · exact h

theorem wf_readSectors (s : State) (a n : Nat) (h : s.mem.wf = true) : (s.readSectors a n).1.mem.wf = true := by
  unfold State.readSectors
  generalize (List.range ((a % 32 + n + 31) / 32)).map (a / 32 + ·) = l
  have : ∀ (l : List Nat) (r : State × Option Nat), r.1.mem.wf = true → (l.foldl (fun r q =>
      match r.2 with
      | some _ => r
      | none => r.1.readSector q) r).1.mem.wf = true := by
    intro l
    induction l with
    | nil => intro r h; exact h
    | cons q l ih =>
      intro r h
      rw [List.foldl_cons]
      apply ih
      split
      · exact h
      · exact wf_readSector _ _ h
  exact this l (s, none) h

/-- Memory after reset is in canonical form. -/
theorem reset_wf : State.reset.mem.wf = true := by decide

/-! ## A save writes images and leaves the workgroups -/

theorem wgs_ite {c : Prop} [Decidable c] {s t u : State} (hs : s.wgs = u.wgs) (ht : t.wgs = u.wgs) : (if c then s else t).wgs = u.wgs := by
  by_cases h : c
  · rw [if_pos h]; exact hs
  · rw [if_neg h]; exact ht

theorem wgs_fold {α : Type} (f : State → α → State) (hf : ∀ s a, (f s a).wgs = s.wgs) (l : List α) : ∀ s : State, (l.foldl f s).wgs = s.wgs := by
  induction l with
  | nil => intro s; rfl
  | cons a l ih => intro s; exact (ih _).trans (hf s a)

theorem rekey_wgs (s : State) (k q : Nat) : (s.rekey k q).wgs = s.wgs := by
  unfold State.rekey
  generalize s.mem.setBytes (32 * q) (s.sectorBytes k q) = m
  exact wgs_ite rfl rfl

theorem healSector_wgs (s : State) (q : Nat) : (s.healSector q).wgs = s.wgs := by
  unfold State.healSector
  dsimp only
  split <;> rfl

theorem dropHost_wgs (s : State) : s.dropHost.wgs = s.wgs := by
  unfold State.dropHost
  generalize s.rd Reg.hlstat = v
  by_cases h : v.toNat / 65536 % 65536 = 65535
  · rw [if_pos h]
  · rw [if_neg h, wr_wgs]

@[simp] theorem memWrite_wgs (s : State) (k a : Nat) (cs : List WCell) : (s.memWrite k a cs).wgs = s.wgs := by
  unfold State.memWrite
  refine wgs_ite (dropHost_wgs s) ?_
  dsimp only
  rw [wgs_fold _ healSector_wgs]
  exact wgs_fold _ (fun s q => rekey_wgs s k q) _ _

@[simp] theorem memBytes_wgs (s : State) (k a : Nat) (bs : List Byte) : (s.memBytes k a bs).wgs = s.wgs := memWrite_wgs ..

theorem addBind_wgs (s : State) (d : Nat) (b : Bind) : (s.addBind d b).wgs = s.wgs := by
  unfold State.addBind
  split <;> rfl

theorem enforce_wgs (s : State) (d : Nat) : (s.enforce d).wgs = s.wgs := by unfold State.enforce; rfl

theorem nameImages_wgs (s : State) (b : Bind) (as : List Nat) (g : Wg) (valid : Bool) (avoid : List Nat) :
    (s.nameImages b as g valid avoid).wgs = s.wgs := by
  unfold State.nameImages
  dsimp only
  split
  · rfl
  · rw [addBind_wgs, enforce_wgs]

theorem putImage_wgs (s : State) (a : Nat) (x : Img × List Byte) : (s.putImage a x).wgs = s.wgs := memBytes_wgs ..

theorem putImages_wgs {s t : State} {j : Nat} {xs : List (Img × List Byte)} {as : List Nat} (h : s.putImages j xs = some (t, as)) : t.wgs = s.wgs := by
  unfold State.putImages at h
  cases e : s.imagePlace j (backToBack (xs.map (fun e => e.1.size))) with
  | none => rw [e, Option.map_none] at h; exact (Option.some_ne_none _ h.symm).elim
  | some a =>
    rw [e, Option.map_some] at h
    have h : _ = t := congrArg Prod.fst (Option.some.inj h)
    rw [← h]
    exact wgs_fold (fun (s : State) (e : Nat × Img × List Byte) => s.putImage e.1 e.2) (fun s e => putImage_wgs s e.1 e.2) _ _

theorem report_wgs (s : State) (j c t : Nat) : (s.report j c t).wgs = s.wgs := by
  unfold State.report
  by_cases h : t = 0
  · rw [if_pos h]
  · rw [if_neg h]

/-- Saving a unit changes no workgroup: its members leave their cores afterwards. -/
theorem saveUnit_wgs {s t : State} {ns : List Nat} {b : Bind} {g : Wg} {valid : Bool} {avoid : List Nat} (h : s.saveUnit ns b g valid avoid = some t) :
    t.wgs = s.wgs := by
  unfold State.saveUnit at h
  dsimp only at h
  generalize hp : State.putImages _ _ _ = o at h
  cases o with
  | none => rw [Option.map_none] at h; exact (Option.some_ne_none _ h.symm).elim
  | some r =>
    obtain ⟨u, as⟩ := r
    rw [Option.map_some] at h
    have hu := putImages_wgs hp
    rw [← Option.some.inj h, nameImages_wgs, wgs_fold _ (fun (t : State) (x : Img) => report_wgs t x.job x.g.core s.clock)]
    exact hu

/-- It can be saved when the save area has room for its images and those that its bind names already. -/
theorem saveUnit_isSome (s : State) (ns : List Nat) (b : Bind) (g : Wg) (valid : Bool) (avoid : List Nat) :
    let mode := (g.stop.map StopState.mode).getD 1
    let old := if valid then [] else ((s.growing g.die b).map Bind.imgs).getD []
    let all := (ns.filterMap (fun n => (s.wg? n).map (fun h => s.imageOf n h mode))).foldl (fun l x => insertImg x l) (old.filterMap (Tabs.find? s.images))
    (s.saveUnit ns b g valid avoid).isSome = (({ s with images := s.images.filter (fun e => !old.contains e.1) } : State).imagePlace (s.jobOf g.dcb)
      (backToBack (all.map Img.size))).isSome := by
  unfold State.saveUnit State.putImages
  simp only [Option.isSome_map, List.map_map, Function.comp_def]

end Sys2Proof.Machine
end

