-- ==== Sys2Proof/Laws/PerInstr.lean ====
section
/-! SUPPORT. A law of every instruction: its word passes the length tests of decoding (R102), which come before all others; the events
have no word. -/

namespace Sys2Proof.Laws

/-- The tests of R102 on the length code, the opcode's lengths and the padding of a 96-bit instruction (R80, R105). -/
def Sized (r : Raw) : Prop :=
  r.len ≠ 3 ∧ (∃ l, lengths r.opcode.toNat = some l ∧ l.permits r.len = true) ∧ (r.len = 0 → r.hi = 0) ∧ (r.len = 1 → r.hi.extractLsb' 32 32 = 0)

/-- The word of the instruction, if it has one, passes them. -/
def Sized.Statement (i : Instr) : Prop := ∀ r, i.toRaw = some r → Sized r

/-- Words from their fields. -/
theorem sized_raw (op : BitVec 10) (len : BitVec 2) (h : Hdr) (m : BitVec 7) (d : Bool × Bool × BitVec 8) (a b c : BitVec 10) (hi : BitVec 64) (l : Lens)
    (hl : len ≠ 3) (ho : lengths op.toNat = some l) (hp : l.permits len = true) (h0 : len = 0 → hi = 0)
    (h1 : len = 1 → hi.extractLsb' 32 32 = 0) : Sized (mkRaw op len h m d a b c hi) := ⟨hl, ⟨l, ho, hp⟩, h0, h1⟩

/-- A word of an opcode of two lengths. -/
theorem sized_lit (op : BitVec 10) (h : Hdr) (m : BitVec 7) (d : Bool × Bool × BitVec 8) (a b c : Option Src) (lit : Word)
    (ho : lengths op.toNat = some .l64or96) : Sized (mkLit op h m d a b c lit) := by
  unfold mkLit
  dsimp only
  split
  · exact sized_raw _ _ _ _ _ _ _ _ _ _ (by decide) ho rfl (by intro e; exact absurd e (by decide)) (fun _ => lit_pad lit)
  · exact sized_raw _ _ _ _ _ _ _ _ _ _ (by decide) ho rfl (fun _ => rfl) (by intro e; exact absurd e (by decide))

/-- A word of 64 bits. -/
theorem sized_64 (op : BitVec 10) (h : Hdr) (m : BitVec 7) (d : Bool × Bool × BitVec 8) (a b c : Option Src) (l : Lens)
    (ho : lengths op.toNat = some l) (hp : l.permits 0 = true) : Sized (mkSrc op 0 h m d a b c 0) :=
  ⟨show (0 : BitVec 2) ≠ 3 by decide, ⟨l, ho, hp⟩, fun _ => rfl, fun _ => (by decide : (0 : BitVec 64).extractLsb' 32 32 = 0)⟩

/-- A word of 96 bits with a literal. -/
theorem sized_96 (op : BitVec 10) (h : Hdr) (m : BitVec 7) (d : Bool × Bool × BitVec 8) (a b c : Option Src) (lit : Word) (l : Lens)
    (ho : lengths op.toNat = some l) (hp : l.permits 1 = true) : Sized (mkSrc op 1 h m d a b c (lit.setWidth 64)) :=
  ⟨show (1 : BitVec 2) ≠ 3 by decide, ⟨l, ho, hp⟩, fun e => absurd e (show (1 : BitVec 2) ≠ 0 by decide), fun _ => lit_pad lit⟩

/-- A word of 128 bits. -/
theorem sized_128 (op : BitVec 10) (h : Hdr) (m : BitVec 7) (d : Bool × Bool × BitVec 8) (a b c : Option Src) (hi : BitVec 64) (l : Lens)
    (ho : lengths op.toNat = some l) (hp : l.permits 2 = true) : Sized (mkSrc op 2 h m d a b c hi) :=
  ⟨show (2 : BitVec 2) ≠ 3 by decide, ⟨l, ho, hp⟩, fun e => absurd e (show (2 : BitVec 2) ≠ 0 by decide),
    fun e => absurd e (show (2 : BitVec 2) ≠ 1 by decide)⟩

/-! ## One lemma per constructor -/

theorem Sized.iadd : ∀ x0 x1 x2 x3 x4 x5 x6, Sized.Statement (.iadd x0 x1 x2 x3 x4 x5 x6) := by intro x0 x1 x2 x3 x4 x5 x6 r e; cases e; exact sized_lit _ _ _ _ _ _ _ _ rfl
theorem Sized.iadd3 : ∀ x0 x1 x2 x3 x4 x5 x6 x7, Sized.Statement (.iadd3 x0 x1 x2 x3 x4 x5 x6 x7) := by intro x0 x1 x2 x3 x4 x5 x6 x7 r e; cases e; exact sized_lit _ _ _ _ _ _ _ _ rfl
theorem Sized.isub : ∀ x0 x1 x2 x3 x4 x5 x6, Sized.Statement (.isub x0 x1 x2 x3 x4 x5 x6) := by intro x0 x1 x2 x3 x4 x5 x6 r e; cases e; exact sized_lit _ _ _ _ _ _ _ _ rfl
theorem Sized.imul : ∀ x0 x1 x2 x3 x4 x5, Sized.Statement (.imul x0 x1 x2 x3 x4 x5) := by intro x0 x1 x2 x3 x4 x5 r e; cases e; exact sized_lit _ _ _ _ _ _ _ _ rfl
theorem Sized.imulhi : ∀ x0 x1 x2 x3 x4 x5, Sized.Statement (.imulhi x0 x1 x2 x3 x4 x5) := by intro x0 x1 x2 x3 x4 x5 r e; cases e; exact sized_lit _ _ _ _ _ _ _ _ rfl
theorem Sized.imad : ∀ x0 x1 x2 x3 x4 x5 x6 x7, Sized.Statement (.imad x0 x1 x2 x3 x4 x5 x6 x7) := by intro x0 x1 x2 x3 x4 x5 x6 x7 r e; cases e; exact sized_lit _ _ _ _ _ _ _ _ rfl
theorem Sized.imadw : ∀ x0 x1 x2 x3 x4 x5 x6, Sized.Statement (.imadw x0 x1 x2 x3 x4 x5 x6) := by intro x0 x1 x2 x3 x4 x5 x6 r e; cases e; exact sized_lit _ _ _ _ _ _ _ _ rfl
theorem Sized.iabs : ∀ x0 x1 x2 x3 x4 x5, Sized.Statement (.iabs x0 x1 x2 x3 x4 x5) := by intro x0 x1 x2 x3 x4 x5 r e; cases e; exact sized_lit _ _ _ _ _ _ _ _ rfl
theorem Sized.imin : ∀ x0 x1 x2 x3 x4 x5, Sized.Statement (.imin x0 x1 x2 x3 x4 x5) := by intro x0 x1 x2 x3 x4 x5 r e; cases e; exact sized_lit _ _ _ _ _ _ _ _ rfl
theorem Sized.imax : ∀ x0 x1 x2 x3 x4 x5, Sized.Statement (.imax x0 x1 x2 x3 x4 x5) := by intro x0 x1 x2 x3 x4 x5 r e; cases e; exact sized_lit _ _ _ _ _ _ _ _ rfl
theorem Sized.icmp : ∀ x0 x1 x2 x3 x4 x5 x6, Sized.Statement (.icmp x0 x1 x2 x3 x4 x5 x6) := by intro x0 x1 x2 x3 x4 x5 x6 r e; cases e; exact sized_lit _ _ _ _ _ _ _ _ rfl
theorem Sized.sel : ∀ x0 x1 x2 x3 x4 x5 x6 x7, Sized.Statement (.sel x0 x1 x2 x3 x4 x5 x6 x7) := by intro x0 x1 x2 x3 x4 x5 x6 x7 r e; cases e; exact sized_lit _ _ _ _ _ _ _ _ rfl
theorem Sized.shl : ∀ x0 x1 x2 x3 x4 x5, Sized.Statement (.shl x0 x1 x2 x3 x4 x5) := by intro x0 x1 x2 x3 x4 x5 r e; cases e; exact sized_lit _ _ _ _ _ _ _ _ rfl
theorem Sized.shr : ∀ x0 x1 x2 x3 x4 x5, Sized.Statement (.shr x0 x1 x2 x3 x4 x5) := by intro x0 x1 x2 x3 x4 x5 r e; cases e; exact sized_lit _ _ _ _ _ _ _ _ rfl
theorem Sized.sra : ∀ x0 x1 x2 x3 x4 x5, Sized.Statement (.sra x0 x1 x2 x3 x4 x5) := by intro x0 x1 x2 x3 x4 x5 r e; cases e; exact sized_lit _ _ _ _ _ _ _ _ rfl
theorem Sized.shf : ∀ x0 x1 x2 x3 x4 x5 x6, Sized.Statement (.shf x0 x1 x2 x3 x4 x5 x6) := by intro x0 x1 x2 x3 x4 x5 x6 r e; cases e; exact sized_lit _ _ _ _ _ _ _ _ rfl
theorem Sized.and : ∀ x0 x1 x2 x3 x4 x5, Sized.Statement (.and x0 x1 x2 x3 x4 x5) := by intro x0 x1 x2 x3 x4 x5 r e; cases e; exact sized_lit _ _ _ _ _ _ _ _ rfl
theorem Sized.or : ∀ x0 x1 x2 x3 x4 x5, Sized.Statement (.or x0 x1 x2 x3 x4 x5) := by intro x0 x1 x2 x3 x4 x5 r e; cases e; exact sized_lit _ _ _ _ _ _ _ _ rfl
theorem Sized.xor : ∀ x0 x1 x2 x3 x4 x5, Sized.Statement (.xor x0 x1 x2 x3 x4 x5) := by intro x0 x1 x2 x3 x4 x5 r e; cases e; exact sized_lit _ _ _ _ _ _ _ _ rfl
theorem Sized.lop3 : ∀ x0 x1 x2 x3 x4 x5 x6, Sized.Statement (.lop3 x0 x1 x2 x3 x4 x5 x6) := by intro x0 x1 x2 x3 x4 x5 x6 r e; cases e; exact sized_lit _ _ _ _ _ _ _ _ rfl
theorem Sized.bfe : ∀ x0 x1 x2 x3 x4 x5, Sized.Statement (.bfe x0 x1 x2 x3 x4 x5) := by intro x0 x1 x2 x3 x4 x5 r e; cases e; exact sized_lit _ _ _ _ _ _ _ _ rfl
theorem Sized.bfi : ∀ x0 x1 x2 x3 x4 x5 x6, Sized.Statement (.bfi x0 x1 x2 x3 x4 x5 x6) := by intro x0 x1 x2 x3 x4 x5 x6 r e; cases e; exact sized_lit _ _ _ _ _ _ _ _ rfl
theorem Sized.popc : ∀ x0 x1 x2 x3 x4, Sized.Statement (.popc x0 x1 x2 x3 x4) := by intro x0 x1 x2 x3 x4 r e; cases e; exact sized_lit _ _ _ _ _ _ _ _ rfl
theorem Sized.clz : ∀ x0 x1 x2 x3 x4, Sized.Statement (.clz x0 x1 x2 x3 x4) := by intro x0 x1 x2 x3 x4 r e; cases e; exact sized_lit _ _ _ _ _ _ _ _ rfl
theorem Sized.brev : ∀ x0 x1 x2 x3 x4, Sized.Statement (.brev x0 x1 x2 x3 x4) := by intro x0 x1 x2 x3 x4 r e; cases e; exact sized_lit _ _ _ _ _ _ _ _ rfl
theorem Sized.prmt : ∀ x0 x1 x2 x3 x4 x5, Sized.Statement (.prmt x0 x1 x2 x3 x4 x5) := by intro x0 x1 x2 x3 x4 x5 r e; cases e; exact sized_lit _ _ _ _ _ _ _ _ rfl
theorem Sized.lea : ∀ x0 x1 x2 x3 x4 x5 x6, Sized.Statement (.lea x0 x1 x2 x3 x4 x5 x6) := by intro x0 x1 x2 x3 x4 x5 x6 r e; cases e; exact sized_lit _ _ _ _ _ _ _ _ rfl
theorem Sized.mov : ∀ x0 x1 x2 x3 x4, Sized.Statement (.mov x0 x1 x2 x3 x4) := by intro x0 x1 x2 x3 x4 r e; cases e; exact sized_lit _ _ _ _ _ _ _ _ rfl
theorem Sized.movl : ∀ x0 x1 x2 x3, Sized.Statement (.movl x0 x1 x2 x3) := by intro x0 x1 x2 x3 r e; cases e; exact sized_128 _ _ _ _ _ _ _ _ _ rfl rfl
theorem Sized.cvti : ∀ x0 x1 x2 x3 x4 x5 x6, Sized.Statement (.cvti x0 x1 x2 x3 x4 x5 x6) := by intro x0 x1 x2 x3 x4 x5 x6 r e; cases e; exact sized_lit _ _ _ _ _ _ _ _ rfl
theorem Sized.fadd : ∀ x0 x1 x2 x3 x4 x5 x6 x7 x8 x9, Sized.Statement (.fadd x0 x1 x2 x3 x4 x5 x6 x7 x8 x9) := by intro x0 x1 x2 x3 x4 x5 x6 x7 x8 x9 r e; cases e; exact sized_lit _ _ _ _ _ _ _ _ rfl
theorem Sized.fmul : ∀ x0 x1 x2 x3 x4 x5 x6 x7 x8 x9, Sized.Statement (.fmul x0 x1 x2 x3 x4 x5 x6 x7 x8 x9) := by intro x0 x1 x2 x3 x4 x5 x6 x7 x8 x9 r e; cases e; exact sized_lit _ _ _ _ _ _ _ _ rfl
theorem Sized.fma : ∀ x0 x1 x2 x3 x4 x5 x6 x7 x8 x9 x10 x11, Sized.Statement (.fma x0 x1 x2 x3 x4 x5 x6 x7 x8 x9 x10 x11) := by intro x0 x1 x2 x3 x4 x5 x6 x7 x8 x9 x10 x11 r e; cases e; exact sized_lit _ _ _ _ _ _ _ _ rfl
theorem Sized.fmin : ∀ x0 x1 x2 x3 x4 x5 x6 x7, Sized.Statement (.fmin x0 x1 x2 x3 x4 x5 x6 x7) := by intro x0 x1 x2 x3 x4 x5 x6 x7 r e; cases e; exact sized_lit _ _ _ _ _ _ _ _ rfl
theorem Sized.fmax : ∀ x0 x1 x2 x3 x4 x5 x6 x7, Sized.Statement (.fmax x0 x1 x2 x3 x4 x5 x6 x7) := by intro x0 x1 x2 x3 x4 x5 x6 x7 r e; cases e; exact sized_lit _ _ _ _ _ _ _ _ rfl
theorem Sized.fcmp : ∀ x0 x1 x2 x3 x4 x5 x6, Sized.Statement (.fcmp x0 x1 x2 x3 x4 x5 x6) := by intro x0 x1 x2 x3 x4 x5 x6 r e; cases e; exact sized_lit _ _ _ _ _ _ _ _ rfl
theorem Sized.frcp : ∀ x0 x1 x2 x3 x4 x5 x6, Sized.Statement (.frcp x0 x1 x2 x3 x4 x5 x6) := by intro x0 x1 x2 x3 x4 x5 x6 r e; cases e; exact sized_lit _ _ _ _ _ _ _ _ rfl
theorem Sized.frsq : ∀ x0 x1 x2 x3 x4 x5 x6, Sized.Statement (.frsq x0 x1 x2 x3 x4 x5 x6) := by intro x0 x1 x2 x3 x4 x5 x6 r e; cases e; exact sized_lit _ _ _ _ _ _ _ _ rfl
theorem Sized.fsqrt : ∀ x0 x1 x2 x3 x4 x5 x6, Sized.Statement (.fsqrt x0 x1 x2 x3 x4 x5 x6) := by intro x0 x1 x2 x3 x4 x5 x6 r e; cases e; exact sized_lit _ _ _ _ _ _ _ _ rfl
theorem Sized.fex2 : ∀ x0 x1 x2 x3 x4, Sized.Statement (.fex2 x0 x1 x2 x3 x4) := by intro x0 x1 x2 x3 x4 r e; cases e; exact sized_lit _ _ _ _ _ _ _ _ rfl
theorem Sized.flg2 : ∀ x0 x1 x2 x3 x4, Sized.Statement (.flg2 x0 x1 x2 x3 x4) := by intro x0 x1 x2 x3 x4 r e; cases e; exact sized_lit _ _ _ _ _ _ _ _ rfl
theorem Sized.fsin : ∀ x0 x1 x2 x3 x4, Sized.Statement (.fsin x0 x1 x2 x3 x4) := by intro x0 x1 x2 x3 x4 r e; cases e; exact sized_lit _ _ _ _ _ _ _ _ rfl
theorem Sized.fcos : ∀ x0 x1 x2 x3 x4, Sized.Statement (.fcos x0 x1 x2 x3 x4) := by intro x0 x1 x2 x3 x4 r e; cases e; exact sized_lit _ _ _ _ _ _ _ _ rfl
theorem Sized.fscale : ∀ x0 x1 x2 x3 x4 x5 x6 x7 x8, Sized.Statement (.fscale x0 x1 x2 x3 x4 x5 x6 x7 x8) := by intro x0 x1 x2 x3 x4 x5 x6 x7 x8 r e; cases e; exact sized_lit _ _ _ _ _ _ _ _ rfl
theorem Sized.fclass : ∀ x0 x1 x2 x3 x4, Sized.Statement (.fclass x0 x1 x2 x3 x4) := by intro x0 x1 x2 x3 x4 r e; cases e; exact sized_lit _ _ _ _ _ _ _ _ rfl
theorem Sized.cvtf : ∀ x0 x1 x2 x3 x4 x5, Sized.Statement (.cvtf x0 x1 x2 x3 x4 x5) := by intro x0 x1 x2 x3 x4 x5 r e; cases e; exact sized_lit _ _ _ _ _ _ _ _ rfl
theorem Sized.cvtfi : ∀ x0 x1 x2 x3 x4 x5 x6, Sized.Statement (.cvtfi x0 x1 x2 x3 x4 x5 x6) := by intro x0 x1 x2 x3 x4 x5 x6 r e; cases e; exact sized_lit _ _ _ _ _ _ _ _ rfl
theorem Sized.cvtif : ∀ x0 x1 x2 x3 x4 x5 x6, Sized.Statement (.cvtif x0 x1 x2 x3 x4 x5 x6) := by intro x0 x1 x2 x3 x4 x5 x6 r e; cases e; exact sized_lit _ _ _ _ _ _ _ _ rfl
theorem Sized.hfma2 : ∀ x0 x1 x2 x3 x4 x5 x6 x7 x8 x9 x10 x11, Sized.Statement (.hfma2 x0 x1 x2 x3 x4 x5 x6 x7 x8 x9 x10 x11) := by intro x0 x1 x2 x3 x4 x5 x6 x7 x8 x9 x10 x11 r e; cases e; exact sized_lit _ _ _ _ _ _ _ _ rfl
theorem Sized.hadd2 : ∀ x0 x1 x2 x3 x4 x5 x6 x7 x8 x9, Sized.Statement (.hadd2 x0 x1 x2 x3 x4 x5 x6 x7 x8 x9) := by intro x0 x1 x2 x3 x4 x5 x6 x7 x8 x9 r e; cases e; exact sized_lit _ _ _ _ _ _ _ _ rfl
theorem Sized.hmul2 : ∀ x0 x1 x2 x3 x4 x5 x6 x7 x8 x9, Sized.Statement (.hmul2 x0 x1 x2 x3 x4 x5 x6 x7 x8 x9) := by intro x0 x1 x2 x3 x4 x5 x6 x7 x8 x9 r e; cases e; exact sized_lit _ _ _ _ _ _ _ _ rfl
theorem Sized.nop : ∀ x0, Sized.Statement (.nop x0) := by intro x0 r e; cases e; exact sized_64 _ _ _ _ _ _ _ _ rfl rfl
theorem Sized.nopSkip : Sized.Statement .nopSkip := by intro r e; cases e; exact sized_64 _ _ _ _ _ _ _ _ rfl rfl
theorem Sized.pset : ∀ x0 x1 x2 x3 x4 x5, Sized.Statement (.pset x0 x1 x2 x3 x4 x5) := by intro x0 x1 x2 x3 x4 x5 r e; cases e; exact sized_lit _ _ _ _ _ _ _ _ rfl
theorem Sized.pmov : ∀ x0 x1 x2 x3, Sized.Statement (.pmov x0 x1 x2 x3) := by intro x0 x1 x2 x3 r e; cases e; exact sized_64 _ _ _ _ _ _ _ _ rfl rfl
theorem Sized.pmovPack : ∀ x0 x1, Sized.Statement (.pmovPack x0 x1) := by intro x0 x1 r e; cases e; exact sized_64 _ _ _ _ _ _ _ _ rfl rfl
theorem Sized.pmovUnpack : ∀ x0 x1 x2, Sized.Statement (.pmovUnpack x0 x1 x2) := by intro x0 x1 x2 r e; cases e; exact sized_64 _ _ _ _ _ _ _ _ rfl rfl
theorem Sized.bra : ∀ x0 x1, Sized.Statement (.bra x0 x1) := by intro x0 x1 r e; cases e; exact sized_96 _ _ _ _ _ _ _ _ _ rfl rfl
theorem Sized.brx : ∀ x0 x1, Sized.Statement (.brx x0 x1) := by intro x0 x1 r e; cases e; exact sized_64 _ _ _ _ _ _ _ _ rfl rfl
theorem Sized.call : ∀ x0 x1 x2, Sized.Statement (.call x0 x1 x2) := by intro x0 x1 x2 r e; cases e; exact sized_96 _ _ _ _ _ _ _ _ _ rfl rfl
theorem Sized.ret : ∀ x0 x1, Sized.Statement (.ret x0 x1) := by intro x0 x1 r e; cases e; exact sized_64 _ _ _ _ _ _ _ _ rfl rfl
theorem Sized.convg : ∀ x0, Sized.Statement (.convg x0) := by intro x0 r e; cases e; exact sized_64 _ _ _ _ _ _ _ _ rfl rfl
theorem Sized.yield : ∀ x0, Sized.Statement (.yield x0) := by intro x0 r e; cases e; exact sized_64 _ _ _ _ _ _ _ _ rfl rfl
theorem Sized.exit : ∀ x0, Sized.Statement (.exit x0) := by intro x0 r e; cases e; exact sized_64 _ _ _ _ _ _ _ _ rfl rfl
theorem Sized.waiteq : ∀ x0 x1 x2 x3 x4, Sized.Statement (.waiteq x0 x1 x2 x3 x4) := by intro x0 x1 x2 x3 x4 r e; cases e; exact sized_128 _ _ _ _ _ _ _ _ _ rfl rfl
theorem Sized.vote : ∀ x0 x1 x2 x3 x4, Sized.Statement (.vote x0 x1 x2 x3 x4) := by intro x0 x1 x2 x3 x4 r e; cases e; exact sized_64 _ _ _ _ _ _ _ _ rfl rfl
theorem Sized.matchw : ∀ x0 x1 x2 x3, Sized.Statement (.matchw x0 x1 x2 x3) := by intro x0 x1 x2 x3 r e; cases e; exact sized_64 _ _ _ _ _ _ _ _ rfl rfl
theorem Sized.shfl : ∀ x0 x1 x2 x3 x4 x5 x6, Sized.Statement (.shfl x0 x1 x2 x3 x4 x5 x6) := by intro x0 x1 x2 x3 x4 x5 x6 r e; cases e; exact sized_lit _ _ _ _ _ _ _ _ rfl
theorem Sized.redw : ∀ x0 x1 x2 x3, Sized.Statement (.redw x0 x1 x2 x3) := by intro x0 x1 x2 x3 r e; cases e; exact sized_64 _ _ _ _ _ _ _ _ rfl rfl
theorem Sized.rng : ∀ x0 x1 x2 x3 x4 x5, Sized.Statement (.rng x0 x1 x2 x3 x4 x5) := by intro x0 x1 x2 x3 x4 x5 r e; cases e; exact sized_lit _ _ _ _ _ _ _ _ rfl
theorem Sized.ld : ∀ x0 x1 x2 x3 x4 x5, Sized.Statement (.ld x0 x1 x2 x3 x4 x5) := by intro x0 x1 x2 x3 x4 x5 r e; cases e; exact sized_128 _ _ _ _ _ _ _ _ _ rfl rfl
theorem Sized.st : ∀ x0 x1 x2 x3 x4 x5 x6, Sized.Statement (.st x0 x1 x2 x3 x4 x5 x6) := by intro x0 x1 x2 x3 x4 x5 x6 r e; cases e; exact sized_128 _ _ _ _ _ _ _ _ _ rfl rfl
theorem Sized.ldfe : ∀ x0 x1 x2 x3 x4 x5 x6, Sized.Statement (.ldfe x0 x1 x2 x3 x4 x5 x6) := by intro x0 x1 x2 x3 x4 x5 x6 r e; cases e; exact sized_128 _ _ _ _ _ _ _ _ _ rfl rfl
theorem Sized.atom : ∀ x0 x1 x2 x3 x4 x5 x6, Sized.Statement (.atom x0 x1 x2 x3 x4 x5 x6) := by intro x0 x1 x2 x3 x4 x5 x6 r e; cases e; exact sized_128 _ _ _ _ _ _ _ _ _ rfl rfl
theorem Sized.cas : ∀ x0 x1 x2 x3 x4 x5 x6, Sized.Statement (.cas x0 x1 x2 x3 x4 x5 x6) := by intro x0 x1 x2 x3 x4 x5 x6 r e; cases e; exact sized_128 _ _ _ _ _ _ _ _ _ rfl rfl
theorem Sized.red : ∀ x0 x1 x2 x3 x4 x5, Sized.Statement (.red x0 x1 x2 x3 x4 x5) := by intro x0 x1 x2 x3 x4 x5 r e; cases e; exact sized_128 _ _ _ _ _ _ _ _ _ rfl rfl
theorem Sized.fence : ∀ x0 x1 x2, Sized.Statement (.fence x0 x1 x2) := by intro x0 x1 x2 r e; cases e; exact sized_64 _ _ _ _ _ _ _ _ rfl rfl
theorem Sized.prefetch : ∀ x0 x1 x2 x3 x4, Sized.Statement (.prefetch x0 x1 x2 x3 x4) := by intro x0 x1 x2 x3 x4 r e; cases e; exact sized_128 _ _ _ _ _ _ _ _ _ rfl rfl
theorem Sized.bar : ∀ x0 x1 x2 x3, Sized.Statement (.bar x0 x1 x2 x3) := by intro x0 x1 x2 x3 r e; cases e; exact sized_64 _ _ _ _ _ _ _ _ rfl rfl
theorem Sized.kbar : ∀ x0, Sized.Statement (.kbar x0) := by intro x0 r e; cases e; exact sized_64 _ _ _ _ _ _ _ _ rfl rfl
theorem Sized.tbinit : ∀ x0 x1 x2 x3 x4, Sized.Statement (.tbinit x0 x1 x2 x3 x4) := by intro x0 x1 x2 x3 x4 r e; cases e; exact sized_128 _ _ _ _ _ _ _ _ _ rfl rfl
theorem Sized.tbarrive : ∀ x0 x1 x2 x3 x4 x5, Sized.Statement (.tbarrive x0 x1 x2 x3 x4 x5) := by intro x0 x1 x2 x3 x4 x5 r e; cases e; exact sized_128 _ _ _ _ _ _ _ _ _ rfl rfl
theorem Sized.tbexpect : ∀ x0 x1 x2 x3 x4, Sized.Statement (.tbexpect x0 x1 x2 x3 x4) := by intro x0 x1 x2 x3 x4 r e; cases e; exact sized_128 _ _ _ _ _ _ _ _ _ rfl rfl
theorem Sized.tbwait : ∀ x0 x1 x2 x3, Sized.Statement (.tbwait x0 x1 x2 x3) := by intro x0 x1 x2 x3 r e; cases e; exact sized_128 _ _ _ _ _ _ _ _ _ rfl rfl
theorem Sized.tbtest : ∀ x0 x1 x2 x3 x4, Sized.Statement (.tbtest x0 x1 x2 x3 x4) := by intro x0 x1 x2 x3 x4 r e; cases e; exact sized_128 _ _ _ _ _ _ _ _ _ rfl rfl
theorem Sized.rgn : ∀ x0 x1, Sized.Statement (.rgn x0 x1) := by intro x0 x1 r e; cases e; exact sized_128 _ _ _ _ _ _ _ _ _ rfl rfl
theorem Sized.commit : ∀ x0 x1 x2 x3, Sized.Statement (.commit x0 x1 x2 x3) := by intro x0 x1 x2 x3 r e; cases e; exact sized_64 _ _ _ _ _ _ _ _ rfl rfl
theorem Sized.abort : ∀ x0, Sized.Statement (.abort x0) := by intro x0 r e; cases e; exact sized_64 _ _ _ _ _ _ _ _ rfl rfl
theorem Sized.replay : ∀ x0, Sized.Statement (.replay x0) := by intro x0 r e; cases e; exact sized_64 _ _ _ _ _ _ _ _ rfl rfl
theorem Sized.ptest : ∀ x0 x1 x2 x3 x4, Sized.Statement (.ptest x0 x1 x2 x3 x4) := by intro x0 x1 x2 x3 x4 r e; cases e; exact sized_64 _ _ _ _ _ _ _ _ rfl rfl
theorem Sized.crzread : ∀ x0 x1 x2 x3, Sized.Statement (.crzread x0 x1 x2 x3) := by intro x0 x1 x2 x3 r e; cases e; exact sized_64 _ _ _ _ _ _ _ _ rfl rfl
theorem Sized.trap : ∀ x0 x1 x2 x3 x4 x5, Sized.Statement (.trap x0 x1 x2 x3 x4 x5) := by intro x0 x1 x2 x3 x4 x5 r e; cases e; exact sized_96 _ _ _ _ _ _ _ _ _ rfl rfl
theorem Sized.rdsys : ∀ x0 x1 x2 x3, Sized.Statement (.rdsys x0 x1 x2 x3) := by intro x0 x1 x2 x3 r e; cases e; exact sized_raw _ _ _ _ _ _ _ _ _ _ (by decide) rfl rfl (fun _ => rfl) (fun _ => rfl)
theorem Sized.segset : ∀ x0 x1 x2 x3, Sized.Statement (.segset x0 x1 x2 x3) := by intro x0 x1 x2 x3 r e; cases e; exact sized_128 _ _ _ _ _ _ _ _ _ rfl rfl
theorem Sized.cpyld : ∀ x0 x1 x2 x3 x4 x5 x6 x7, Sized.Statement (.cpyld x0 x1 x2 x3 x4 x5 x6 x7) := by intro x0 x1 x2 x3 x4 x5 x6 x7 r e; cases e; exact sized_128 _ _ _ _ _ _ _ _ _ rfl rfl
theorem Sized.cpyst : ∀ x0 x1 x2 x3 x4 x5, Sized.Statement (.cpyst x0 x1 x2 x3 x4 x5) := by intro x0 x1 x2 x3 x4 x5 r e; cases e; exact sized_128 _ _ _ _ _ _ _ _ _ rfl rfl
theorem Sized.cpypeer : ∀ x0 x1 x2 x3 x4 x5 x6, Sized.Statement (.cpypeer x0 x1 x2 x3 x4 x5 x6) := by intro x0 x1 x2 x3 x4 x5 x6 r e; cases e; exact sized_128 _ _ _ _ _ _ _ _ _ rfl rfl
theorem Sized.cpygrp : ∀ x0 x1 x2 x3 x4 x5 x6, Sized.Statement (.cpygrp x0 x1 x2 x3 x4 x5 x6) := by intro x0 x1 x2 x3 x4 x5 x6 r e; cases e; exact sized_128 _ _ _ _ _ _ _ _ _ rfl rfl
theorem Sized.grpjoin : ∀ x0 x1 x2 x3, Sized.Statement (.grpjoin x0 x1 x2 x3) := by intro x0 x1 x2 x3 r e; cases e; exact sized_lit _ _ _ _ _ _ _ _ rfl
theorem Sized.grpleave : ∀ x0 x1 x2, Sized.Statement (.grpleave x0 x1 x2) := by intro x0 x1 x2 r e; cases e; exact sized_lit _ _ _ _ _ _ _ _ rfl
theorem Sized.cpylin : ∀ x0 x1 x2 x3 x4 x5 x6, Sized.Statement (.cpylin x0 x1 x2 x3 x4 x5 x6) := by intro x0 x1 x2 x3 x4 x5 x6 r e; cases e; exact sized_128 _ _ _ _ _ _ _ _ _ rfl rfl
theorem Sized.coll : ∀ x0 x1 x2 x3 x4, Sized.Statement (.coll x0 x1 x2 x3 x4) := by intro x0 x1 x2 x3 x4 r e; cases e; exact sized_128 _ _ _ _ _ _ _ _ _ rfl rfl
theorem Sized.collwait : ∀ x0 x1, Sized.Statement (.collwait x0 x1) := by intro x0 x1 r e; cases e; exact sized_64 _ _ _ _ _ _ _ _ rfl rfl
theorem Sized.fmtset : ∀ x0 x1 x2 x3, Sized.Statement (.fmtset x0 x1 x2 x3) := by intro x0 x1 x2 x3 r e; cases e; exact sized_lit _ _ _ _ _ _ _ _ rfl
theorem Sized.mcoef : ∀ x0 x1 x2, Sized.Statement (.mcoef x0 x1 x2) := by intro x0 x1 x2 r e; cases e; exact sized_128 _ _ _ _ _ _ _ _ _ rfl rfl
theorem Sized.mcoefS : ∀ x0 x1 x2 x3, Sized.Statement (.mcoefS x0 x1 x2 x3) := by intro x0 x1 x2 x3 r e; cases e; exact sized_128 _ _ _ _ _ _ _ _ _ rfl rfl
theorem Sized.mchain : ∀ x0 x1, Sized.Statement (.mchain x0 x1) := by intro x0 x1 r e; cases e; exact sized_64 _ _ _ _ _ _ _ _ rfl rfl
theorem Sized.mlds : ∀ x0 x1 x2 x3 x4 x5, Sized.Statement (.mlds x0 x1 x2 x3 x4 x5) := by intro x0 x1 x2 x3 x4 x5 r e; cases e; exact sized_128 _ _ _ _ _ _ _ _ _ rfl rfl
theorem Sized.mswap : ∀ x0, Sized.Statement (.mswap x0) := by intro x0 r e; cases e; exact sized_64 _ _ _ _ _ _ _ _ rfl rfl
theorem Sized.mzero : ∀ x0 x1 x2, Sized.Statement (.mzero x0 x1 x2) := by intro x0 x1 x2 r e; cases e; exact sized_64 _ _ _ _ _ _ _ _ rfl rfl
theorem Sized.mma : ∀ x0 x1 x2 x3 x4 x5 x6 x7, Sized.Statement (.mma x0 x1 x2 x3 x4 x5 x6 x7) := by intro x0 x1 x2 x3 x4 x5 x6 x7 r e; cases e; exact sized_128 _ _ _ _ _ _ _ _ _ rfl rfl
theorem Sized.mfeedShadow : ∀ x0 x1 x2, Sized.Statement (.mfeedShadow x0 x1 x2) := by intro x0 x1 x2 r e; cases e; exact sized_128 _ _ _ _ _ _ _ _ _ rfl rfl
theorem Sized.mfeedStream : ∀ x0 x1 x2, Sized.Statement (.mfeedStream x0 x1 x2) := by intro x0 x1 x2 r e; cases e; exact sized_128 _ _ _ _ _ _ _ _ _ rfl rfl
theorem Sized.mldacc : ∀ x0 x1 x2 x3 x4, Sized.Statement (.mldacc x0 x1 x2 x3 x4) := by intro x0 x1 x2 x3 x4 r e; cases e; exact sized_128 _ _ _ _ _ _ _ _ _ rfl rfl
theorem Sized.macc : ∀ x0 x1, Sized.Statement (.macc x0 x1) := by intro x0 x1 r e; cases e; exact sized_128 _ _ _ _ _ _ _ _ _ rfl rfl
theorem Sized.mstore : ∀ x0 x1 x2 x3 x4, Sized.Statement (.mstore x0 x1 x2 x3 x4) := by intro x0 x1 x2 x3 x4 r e; cases e; exact sized_128 _ _ _ _ _ _ _ _ _ rfl rfl
theorem Sized.mstoreSs : ∀ x0 x1 x2 x3, Sized.Statement (.mstoreSs x0 x1 x2 x3) := by intro x0 x1 x2 x3 r e; cases e; exact sized_128 _ _ _ _ _ _ _ _ _ rfl rfl
theorem Sized.mstoreMc : ∀ x0 x1 x2 x3, Sized.Statement (.mstoreMc x0 x1 x2 x3) := by intro x0 x1 x2 x3 r e; cases e; exact sized_128 _ _ _ _ _ _ _ _ _ rfl rfl
theorem Sized.mnorm : ∀ x0 x1 x2 x3 x4, Sized.Statement (.mnorm x0 x1 x2 x3 x4) := by intro x0 x1 x2 x3 x4 r e; cases e; exact sized_128 _ _ _ _ _ _ _ _ _ rfl rfl
theorem Sized.mpoly : ∀ x0 x1, Sized.Statement (.mpoly x0 x1) := by intro x0 x1 r e; cases e; exact sized_128 _ _ _ _ _ _ _ _ _ rfl rfl
theorem Sized.msoak : ∀ x0 x1 x2, Sized.Statement (.msoak x0 x1 x2) := by intro x0 x1 x2 r e; cases e; exact sized_128 _ _ _ _ _ _ _ _ _ rfl rfl
theorem Sized.illegalEncoding : ∀ x0 x1, Sized.Statement (.illegalEncoding x0 x1) := by intro x0 x1 r e; cases e
theorem Sized.instructionFetch : ∀ x0 x1 x2, Sized.Statement (.instructionFetch x0 x1 x2) := by intro x0 x1 x2 r e; cases e
theorem Sized.reservationGrant : ∀ x0, Sized.Statement (.reservationGrant x0) := by intro x0 r e; cases e
theorem Sized.tlbWalkComplete : ∀ x0 x1 x2, Sized.Statement (.tlbWalkComplete x0 x1 x2) := by intro x0 x1 x2 r e; cases e
theorem Sized.homeSliceAccess : ∀ x0 x1 x2, Sized.Statement (.homeSliceAccess x0 x1 x2) := by intro x0 x1 x2 r e; cases e
theorem Sized.loadDataReturn : ∀ x0 x1, Sized.Statement (.loadDataReturn x0 x1) := by intro x0 x1 r e; cases e
theorem Sized.heldPush : ∀ x0 x1 x2, Sized.Statement (.heldPush x0 x1 x2) := by intro x0 x1 x2 r e; cases e
theorem Sized.saggerDeferredPush : ∀ x0 x1, Sized.Statement (.saggerDeferredPush x0 x1) := by intro x0 x1 r e; cases e
theorem Sized.heldRelease : ∀ x0 x1 x2, Sized.Statement (.heldRelease x0 x1 x2) := by intro x0 x1 x2 r e; cases e
theorem Sized.heldSettle : ∀ x0 x1 x2, Sized.Statement (.heldSettle x0 x1 x2) := by intro x0 x1 x2 r e; cases e
theorem Sized.commitDecide : ∀ x0 x1, Sized.Statement (.commitDecide x0 x1) := by intro x0 x1 r e; cases e
theorem Sized.commitComplete : ∀ x0 x1, Sized.Statement (.commitComplete x0 x1) := by intro x0 x1 r e; cases e
theorem Sized.waiteqWake : ∀ x0 x1, Sized.Statement (.waiteqWake x0 x1) := by intro x0 x1 r e; cases e
theorem Sized.waiteqTimeout : ∀ x0 x1, Sized.Statement (.waiteqTimeout x0 x1) := by intro x0 x1 r e; cases e
theorem Sized.ldfeWake : ∀ x0 x1, Sized.Statement (.ldfeWake x0 x1) := by intro x0 x1 r e; cases e
theorem Sized.tbwaitWake : ∀ x0 x1, Sized.Statement (.tbwaitWake x0 x1) := by intro x0 x1 r e; cases e
theorem Sized.barRelease : ∀ x0 x1, Sized.Statement (.barRelease x0 x1) := by intro x0 x1 r e; cases e
theorem Sized.kbarRelease : ∀ x0, Sized.Statement (.kbarRelease x0) := by intro x0 r e; cases e
theorem Sized.trapRecordWrite : ∀ x0, Sized.Statement (.trapRecordWrite x0) := by intro x0 r e; cases e
theorem Sized.matrixInstructionStart : ∀ x0 x1, Sized.Statement (.matrixInstructionStart x0 x1) := by intro x0 x1 r e; cases e
theorem Sized.matrixInstructionComplete : ∀ x0 x1, Sized.Statement (.matrixInstructionComplete x0 x1) := by intro x0 x1 r e; cases e
theorem Sized.soakIteration : ∀ x0, Sized.Statement (.soakIteration x0) := by intro x0 r e; cases e
theorem Sized.soakRelease : ∀ x0, Sized.Statement (.soakRelease x0) := by intro x0 r e; cases e
theorem Sized.chainPartnerTimeout : ∀ x0, Sized.Statement (.chainPartnerTimeout x0) := by intro x0 r e; cases e
theorem Sized.copyCommandStart : ∀ x0 x1, Sized.Statement (.copyCommandStart x0 x1) := by intro x0 x1 r e; cases e
theorem Sized.copySectorWrite : ∀ x0 x1, Sized.Statement (.copySectorWrite x0 x1) := by intro x0 x1 r e; cases e
theorem Sized.copyGranuleWaitEnd : ∀ x0 x1, Sized.Statement (.copyGranuleWaitEnd x0 x1) := by intro x0 x1 r e; cases e
theorem Sized.cpystLineLand : ∀ x0 x1, Sized.Statement (.cpystLineLand x0 x1) := by intro x0 x1 r e; cases e
theorem Sized.copyCommandComplete : ∀ x0 x1, Sized.Statement (.copyCommandComplete x0 x1) := by intro x0 x1 r e; cases e
theorem Sized.groupChangeComplete : ∀ x0, Sized.Statement (.groupChangeComplete x0) := by intro x0 r e; cases e
theorem Sized.shelfRequest : ∀ x0 x1, Sized.Statement (.shelfRequest x0 x1) := by intro x0 x1 r e; cases e
theorem Sized.shelfTimerExpiry : ∀ x0, Sized.Statement (.shelfTimerExpiry x0) := by intro x0 r e; cases e
theorem Sized.collContribution : ∀ x0 x1, Sized.Statement (.collContribution x0 x1) := by intro x0 x1 r e; cases e
theorem Sized.collComplete : ∀ x0, Sized.Statement (.collComplete x0) := by intro x0 r e; cases e
theorem Sized.collTimeout : ∀ x0, Sized.Statement (.collTimeout x0) := by intro x0 r e; cases e
theorem Sized.collwaitWake : ∀ x0 x1, Sized.Statement (.collwaitWake x0 x1) := by intro x0 x1 r e; cases e
theorem Sized.nodeComplete : ∀ x0 x1, Sized.Statement (.nodeComplete x0 x1) := by intro x0 x1 r e; cases e
theorem Sized.bindWrite : ∀ x0 x1, Sized.Statement (.bindWrite x0 x1) := by intro x0 x1 r e; cases e
theorem Sized.placeWorkgroup : ∀ x0 x1 x2, Sized.Statement (.placeWorkgroup x0 x1 x2) := by intro x0 x1 x2 r e; cases e
theorem Sized.resumeWorkgroup : ∀ x0 x1 x2, Sized.Statement (.resumeWorkgroup x0 x1 x2) := by intro x0 x1 x2 r e; cases e
theorem Sized.workgroupComplete : ∀ x0, Sized.Statement (.workgroupComplete x0) := by intro x0 r e; cases e
theorem Sized.compactionWaitExpiry : ∀ x0 x1 x2, Sized.Statement (.compactionWaitExpiry x0 x1 x2) := by intro x0 x1 x2 r e; cases e
theorem Sized.kilnResumeWaitExpiry : ∀ x0 x1 x2, Sized.Statement (.kilnResumeWaitExpiry x0 x1 x2) := by intro x0 x1 x2 r e; cases e
theorem Sized.stopSignal : ∀ x0, Sized.Statement (.stopSignal x0) := by intro x0 r e; cases e
theorem Sized.stopPoint : ∀ x0, Sized.Statement (.stopPoint x0) := by intro x0 r e; cases e
theorem Sized.stopWaitsDone : ∀ x0, Sized.Statement (.stopWaitsDone x0) := by intro x0 r e; cases e
theorem Sized.saveImageWritten : ∀ x0, Sized.Statement (.saveImageWritten x0) := by intro x0 r e; cases e
theorem Sized.stopDeadlineExpiry : ∀ x0, Sized.Statement (.stopDeadlineExpiry x0) := by intro x0 r e; cases e
theorem Sized.scbSignature : ∀ x0, Sized.Statement (.scbSignature x0) := by intro x0 r e; cases e
theorem Sized.scbCompare : ∀ x0 x1, Sized.Statement (.scbCompare x0 x1) := by intro x0 x1 r e; cases e
theorem Sized.coneSweepSlot : ∀ x0, Sized.Statement (.coneSweepSlot x0) := by intro x0 r e; cases e
theorem Sized.coneSweepScanStart : ∀ x0, Sized.Statement (.coneSweepScanStart x0) := by intro x0 r e; cases e
theorem Sized.coneSweepScanDone : ∀ x0 x1, Sized.Statement (.coneSweepScanDone x0 x1) := by intro x0 x1 r e; cases e
theorem Sized.maintenancePause : ∀ x0, Sized.Statement (.maintenancePause x0) := by intro x0 r e; cases e
theorem Sized.dcbWrite : ∀ x0, Sized.Statement (.dcbWrite x0) := by intro x0 r e; cases e
theorem Sized.dcbLink : ∀ x0, Sized.Statement (.dcbLink x0) := by intro x0 r e; cases e
theorem Sized.dcbUnlink : ∀ x0, Sized.Statement (.dcbUnlink x0) := by intro x0 r e; cases e
theorem Sized.nodeSubmit : ∀ x0, Sized.Statement (.nodeSubmit x0) := by intro x0 r e; cases e
theorem Sized.stop : ∀ x0, Sized.Statement (.stop x0) := by intro x0 r e; cases e
theorem Sized.resume : ∀ x0, Sized.Statement (.resume x0) := by intro x0 r e; cases e
theorem Sized.windowSet : ∀ x0, Sized.Statement (.windowSet x0) := by intro x0 r e; cases e
theorem Sized.keyAssign : ∀ x0, Sized.Statement (.keyAssign x0) := by intro x0 r e; cases e
theorem Sized.measure : ∀ x0, Sized.Statement (.measure x0) := by intro x0 r e; cases e
theorem Sized.glazeWrite : ∀ x0, Sized.Statement (.glazeWrite x0) := by intro x0 r e; cases e
theorem Sized.glazeStagingComplete : ∀ x0, Sized.Statement (.glazeStagingComplete x0) := by intro x0 r e; cases e
theorem Sized.bisqueGateOpen : ∀ x0, Sized.Statement (.bisqueGateOpen x0) := by intro x0 r e; cases e
theorem Sized.keyServiceResponse : ∀ x0 x1 x2, Sized.Statement (.keyServiceResponse x0 x1 x2) := by intro x0 x1 x2 r e; cases e
theorem Sized.glazeSignComplete : ∀ x0, Sized.Statement (.glazeSignComplete x0) := by intro x0 r e; cases e
theorem Sized.glazeRestore : ∀ x0, Sized.Statement (.glazeRestore x0) := by intro x0 r e; cases e
theorem Sized.mailboxUnassignedCode : ∀ x0, Sized.Statement (.mailboxUnassignedCode x0) := by intro x0 r e; cases e
theorem Sized.vfMailboxSubmit : ∀ x0 x1 x2, Sized.Statement (.vfMailboxSubmit x0 x1 x2) := by intro x0 x1 x2 r e; cases e
theorem Sized.vmctlPendWrite : ∀ x0 x1, Sized.Statement (.vmctlPendWrite x0 x1) := by intro x0 x1 r e; cases e
theorem Sized.vfgenWrite : ∀ x0, Sized.Statement (.vfgenWrite x0) := by intro x0 r e; cases e
theorem Sized.generationBumpComplete : ∀ x0, Sized.Statement (.generationBumpComplete x0) := by intro x0 r e; cases e
theorem Sized.srdbWrite : ∀ x0 x1 x2, Sized.Statement (.srdbWrite x0 x1 x2) := by intro x0 x1 x2 r e; cases e
theorem Sized.fnodeWrite : ∀ x0, Sized.Statement (.fnodeWrite x0) := by intro x0 r e; cases e
theorem Sized.mcqRelease : ∀ x0 x1 x2, Sized.Statement (.mcqRelease x0 x1 x2) := by intro x0 x1 x2 r e; cases e
theorem Sized.prxWrite : ∀ x0 x1, Sized.Statement (.prxWrite x0 x1) := by intro x0 x1 r e; cases e
theorem Sized.registerWrite : ∀ x0 x1, Sized.Statement (.registerWrite x0 x1) := by intro x0 x1 r e; cases e
theorem Sized.hostMemRead : ∀ x0 x1, Sized.Statement (.hostMemRead x0 x1) := by intro x0 x1 r e; cases e
theorem Sized.hostMemWrite : ∀ x0 x1, Sized.Statement (.hostMemWrite x0 x1) := by intro x0 x1 r e; cases e
theorem Sized.remoteRequest : ∀ x0 x1, Sized.Statement (.remoteRequest x0 x1) := by intro x0 x1 r e; cases e
theorem Sized.hostLinkDown : Sized.Statement .hostLinkDown := by intro r e; cases e
theorem Sized.hostLinkUp : Sized.Statement .hostLinkUp := by intro r e; cases e
theorem Sized.hostCompletionTimeout : ∀ x0 x1, Sized.Statement (.hostCompletionTimeout x0 x1) := by intro x0 x1 r e; cases e
theorem Sized.flitReplayExhausted : ∀ x0, Sized.Statement (.flitReplayExhausted x0) := by intro x0 r e; cases e
theorem Sized.portRetrainDone : ∀ x0 x1, Sized.Statement (.portRetrainDone x0 x1) := by intro x0 x1 r e; cases e
theorem Sized.portTakenDown : ∀ x0, Sized.Statement (.portTakenDown x0) := by intro x0 r e; cases e
theorem Sized.fabricE2eTimeout : ∀ x0 x1, Sized.Statement (.fabricE2eTimeout x0 x1) := by intro x0 x1 r e; cases e
theorem Sized.peerUnreachableTimeout : ∀ x0, Sized.Statement (.peerUnreachableTimeout x0) := by intro x0 r e; cases e
theorem Sized.linkDownMark : ∀ x0, Sized.Statement (.linkDownMark x0) := by intro x0 r e; cases e
theorem Sized.telemetrySample : ∀ x0 x1, Sized.Statement (.telemetrySample x0 x1) := by intro x0 x1 r e; cases e
theorem Sized.ageingRead : ∀ x0, Sized.Statement (.ageingRead x0) := by intro x0 r e; cases e
theorem Sized.lockInterfaceRequest : ∀ x0 x1, Sized.Statement (.lockInterfaceRequest x0 x1) := by intro x0 x1 r e; cases e
theorem Sized.startInterfaceRequest : ∀ x0 x1, Sized.Statement (.startInterfaceRequest x0 x1) := by intro x0 x1 r e; cases e
theorem Sized.stopInterfaceRequest : ∀ x0, Sized.Statement (.stopInterfaceRequest x0) := by intro x0 r e; cases e
theorem Sized.interfaceReport : ∀ x0, Sized.Statement (.interfaceReport x0) := by intro x0 r e; cases e
theorem Sized.getVersion : ∀ x0, Sized.Statement (.getVersion x0) := by intro x0 r e; cases e
theorem Sized.getCapabilities : ∀ x0, Sized.Statement (.getCapabilities x0) := by intro x0 r e; cases e
theorem Sized.negotiateAlgorithms : ∀ x0, Sized.Statement (.negotiateAlgorithms x0) := by intro x0 r e; cases e
theorem Sized.getDigests : ∀ x0, Sized.Statement (.getDigests x0) := by intro x0 r e; cases e
theorem Sized.getCertificate : ∀ x0, Sized.Statement (.getCertificate x0) := by intro x0 r e; cases e
theorem Sized.challenge : ∀ x0, Sized.Statement (.challenge x0) := by intro x0 r e; cases e
theorem Sized.getMeasurements : ∀ x0, Sized.Statement (.getMeasurements x0) := by intro x0 r e; cases e
theorem Sized.keyExchange : ∀ x0, Sized.Statement (.keyExchange x0) := by intro x0 r e; cases e
theorem Sized.finish : ∀ x0, Sized.Statement (.finish x0) := by intro x0 r e; cases e
theorem Sized.vfFunctionLevelReset : ∀ x0, Sized.Statement (.vfFunctionLevelReset x0) := by intro x0 r e; cases e
theorem Sized.pfFunctionLevelReset : Sized.Statement .pfFunctionLevelReset := by intro r e; cases e
theorem Sized.packageReset : Sized.Statement .packageReset := by intro r e; cases e
theorem Sized.powerRemoved : Sized.Statement .powerRemoved := by intro r e; cases e
theorem Sized.uncorrectableError : ∀ x0 x1, Sized.Statement (.uncorrectableError x0 x1) := by intro x0 x1 r e; cases e

end Sys2Proof.Laws
end

