-- ==== Sys2Proof/Machine/Pool.lean ====
section
/-! DEFINITION. The pool of a core as rows and lane banks (R62, R69, R70): which register, scratchpad or accumulator word stands at a
place. Programs cannot observe it; it is what debug access reads. -/

namespace Sys2Proof.Machine

/-- Lane bank and byte in it of byte `b` of a row (R62). -/
def bankOf (b : Nat) : Nat × Nat := (b / 64, b % 64)

/-- Row of a register block at row `b` and word of the lane's bank that hold register `vk` of thread `t` (R69). -/
def regPlace (b k t : Nat) : Nat × Nat := (b + 2 * k + t / 16, t % 16)

/-- The register and thread at word `x` of row `r` of the block at row `b`. -/
def regAt (b r x : Nat) : Nat × Nat := ((r - b) / 2, 16 * ((r - b) % 2) + x)

/-- Row and byte of scratchpad offset `o` of a workgroup (R70). -/
def Wg.scrPlace (g : Wg) (o : Nat) : Nat × Nat := (g.scrBase + o / 4096, o % 4096)

/-- What workgroup `g` keeps at word `w` (0 to 1,023) of row `r` of its core's pool: a register word, a scratchpad word, an accumulator
word. -/
def Wg.poolWord (g : Wg) (r w : Nat) : Option TWord :=
  let rows := 8 * granules g.info.nregs
  match g.warps.find? (fun x => x.lane == w / 16 && decide (x.blk ≤ r ∧ r < x.blk + rows)) with
  | some x =>
    let p := regAt x.blk r (w % 16)
    some ((x.th p.2).vreg p.1)
  | none =>
    if g.scrBase ≤ r ∧ r < g.scrBase + g.info.scrRows then some (Tabs.get g.scr.words ⟨0, false⟩ (1024 * (r - g.scrBase) + w))
    else if g.accBase ≤ r ∧ r < g.accBase + g.info.accRows then some (Tabs.get g.acc ⟨0, false⟩ (1024 * (r - g.accBase) + w))
    else none

/-- Word `w` of row `r` of the pool of core `c`, with its craze tag; none where no resident workgroup has reserved it. -/
def State.poolWord (s : State) (c r w : Nat) : Option TWord :=
  (s.wgs.filter (fun e => e.2.core == c)).findSome? (fun e => e.2.poolWord r w)

end Sys2Proof.Machine
end

