-- ==== Sys2Proof/Tests/Slice0.lean ====
section
/-! SUPPORT. Tests of single steps and encodings; states that meet the hypotheses of each statement. -/

namespace Sys2Proof.Tests

open Sys2Proof Sys2Proof.Machine Sys2Proof.Claims

set_option Elab.async false

/-! ## A small machine -/

/-- Threads 0 and 1 stand at 0x40, threads 2 to 31 are empty. -/
def two : List Thread := [Thread.at_ 0x40, Thread.at_ 0x40] ++ List.replicate 30 Thread.vacant
/-- A warp of these threads. -/
def w0 : Warp := { Warp.one 0x40 with thr := two }
/-- A workgroup of one warp. -/
def wgOf (w : Warp) : Wg := { Wg.one 0x40 with warps := [w] }
/-- A machine with one workgroup, whose warp issues. -/
def stOf (g : Wg) : State := { State.reset with cur := some ⟨0, 0⟩, wgs := [(0, g)], nextWg := 1 }
/-- Its lane. -/
def laneIn (g : Wg) (w : Warp) : Lane := ⟨⟨0, 0⟩, g, w, Core.empty, 0, false⟩
def s0 : State := stOf (wgOf w0)
def l0 : Lane := laneIn (wgOf w0) w0
/-- Unguarded. -/
def hd : Hdr := ⟨7, false, false⟩

theorem s0_lane : s0.lane? = some l0 := rfl

theorem witness_IntegerResult : ∃ (i : Instr) (r : RegForm) (s : State) (l : Lane), intForm i = some r ∧ s.lane? = some l ∧ clear l r.h r.regs ∧ r.sound i l ∧ r.perThread ∧
    (∀ t ∈ active l r.h, (sources l.w (l.w.th t) r.lit r.srcs).isSome) ∧ active l r.h ≠ [] :=
  ⟨.iadd hd .s32 false (.vec 2) (.vec 1) (.imm 5) 0, _, s0, l0, rfl, s0_lane, ⟨by decide, by decide⟩, by unfold RegForm.sound; decide, by intro i w; simp [RegForm.of, aluDst], by decide, by decide⟩


/-! ## Statements hold of something: steps, words, reset -/

/-- The word of `iadd.s32 v2, v1, 5`, from R81. -/
def iaddWord : Nat := baseWord 1 0 0x305 0x001 0 0x02 0 7 0x001 0 0 0
def iaddI : Instr := .iadd hd .s32 false (.vec 2) (.vec 1) (.imm 5) 0
/-- A machine whose warp issues next, with the block at 0x40 kept. -/
def sKept : State := { stOf (wgOf { w0 with kept := [(2, leBytes 32 iaddWord)] }) with agenda := [⟨3, .issue ⟨0, 0⟩⟩] }
/-- The same, with nothing kept, as `withFetchWord` lays it out. -/
def sFetch : State := State.reset.withFetchWord 64 iaddWord

theorem witness_StepRunsDecoded_kept : ∃ (s s1 : State) (dt : Nat) (r : WRef) (rest : List Slot) (l : Lane) (bs : List Byte) (i : Instr),
    s.agenda = ⟨dt, .issue r⟩ :: rest ∧ s1 = { s with agenda := rest, clock := s.clock + dt } ∧ s1.laneOf r = some l ∧ mayIssue s1 l ∧
    Tabs.find? l.w.kept (l.w.pc.toNat / 32) = some bs ∧ l.opensEarly (chainBit bs l.w.pc) = false ∧ readsAs bs l.w.pc i :=
  ⟨sKept, _, _, _, _, _, _, iaddI, rfl, rfl, rfl, by unfold mayIssue; decide, rfl, by decide, Or.inl rfl⟩

/-- The word of `iadd.s32.c v2, v1, 5`, which would open a chain while a load is outstanding. -/
def chainWord : Nat := baseWord 1 0 0x305 0x001 0 0x02 0 7 0x001 0 1 0
/-- An outstanding load of `v9`. -/
def accOut : Acc := { id := 3, kind := .load false, thread := 0, po := 0, pc := 0x38, va := 0x40, n := 4, dst := 9, x := 0, cmp := 0, ord := 0, scope := 0,
                      stage := .home, dpa := 0x1040, gen := 0, key := 0, rmt := false, issued := 0 }
def sEarly : State := { stOf (wgOf { w0 with kept := [(2, leBytes 32 chainWord)], accs := [accOut] }) with agenda := [⟨3, .issue ⟨0, 0⟩⟩] }
theorem witness_StepRunsDecoded_early : ∃ (s s1 : State) (dt : Nat) (r : WRef) (rest : List Slot) (l : Lane) (bs : List Byte),
    s.agenda = ⟨dt, .issue r⟩ :: rest ∧ s1 = { s with agenda := rest, clock := s.clock + dt } ∧ s1.laneOf r = some l ∧ mayIssue s1 l ∧
    Tabs.find? l.w.kept (l.w.pc.toNat / 32) = some bs ∧ l.opensEarly (chainBit bs l.w.pc) = true :=
  ⟨sEarly, _, _, _, _, _, _, rfl, rfl, rfl, by unfold mayIssue; decide, rfl, by decide⟩

theorem witness_StepRunsDecoded_idle : ∃ (s s1 : State) (dt : Nat) (r : WRef) (rest : List Slot) (l : Lane),
    s.agenda = ⟨dt, .issue r⟩ :: rest ∧ s1 = { s with agenda := rest, clock := s.clock + dt } ∧ s1.laneOf r = some l ∧ ¬ mayIssue s1 l :=
  ⟨{ stOf (wgOf { w0 with thr := List.replicate 32 Thread.vacant }) with agenda := [⟨0, .issue ⟨0, 0⟩⟩] }, _, _, _, _, _, rfl, rfl, rfl,
    by unfold mayIssue; decide⟩

def lFetch : Lane := ⟨⟨0, 0⟩, Wg.one loadVa, Warp.one loadVa, Core.empty, 0, false⟩
def tFetch : State × Trans := ({ sFetch with agenda := [] } : State).translate (some 0) 0 0x40 .fetch true
theorem witness_StepRunsDecoded_fetch : ∃ (s s1 : State) (dt : Nat) (r : WRef) (rest : List Slot) (l : Lane) (s2 : State) (a : Nat)
    (gen : BitVec 16) (key : BitVec 8) (i : Instr),
    s.agenda = ⟨dt, .issue r⟩ :: rest ∧ s1 = { s with agenda := rest, clock := s.clock + dt } ∧ s1.laneOf r = some l ∧ mayIssue s1 l ∧
    Tabs.find? l.w.kept (l.w.pc.toNat / 32) = none ∧
    s1.translate (some l.wg.core) l.wg.vf (l.w.pc.toNat / 32 * 32) .fetch true = (s2, .ok a gen key false) ∧ s2.releasingAny a 32 = false ∧
    Ctx.homeChecks ⟨s2, l⟩ a 32 gen false = (⟨s2, l⟩, none) ∧ l.opensEarly (chainBit (blockAt s2 key.toNat a) l.w.pc) = false ∧
    readsAs (blockAt s2 key.toNat a) l.w.pc i :=
  ⟨sFetch, _, _, _, _, lFetch, tFetch.1, loadPa, 0, 0, iaddI, rfl, rfl, rfl, ⟨by decide, by decide, rfl, rfl⟩, rfl,
    Prod.ext rfl (by decide +kernel : tFetch.2 = .ok loadPa 0 0 false), by decide +kernel, rfl, by decide +kernel, Or.inl (by decide +kernel)⟩


/-! ## Statements hold of something: computing instructions, control -/

theorem witness_ValueResult : ∃ (i : Instr) (r : RegForm) (s : State) (l : Lane), valForm i = some r ∧ s.lane? = some l ∧ clear l r.h r.regs ∧
    r.sound i l ∧ r.perThread ∧ (∀ t ∈ active l r.h, (sources l.w (l.w.th t) r.lit r.srcs).isSome) ∧ active l r.h ≠ [] :=
  ⟨.fadd hd .rm false true false true (.vec 2) (.vec 1) (.lit) 0x3F800000, _, s0, l0, rfl, s0_lane, ⟨by decide, by decide⟩,
    by unfold RegForm.sound; decide, by intro i w; simp [RegForm.of, aluVDst], by decide, by decide⟩

theorem witness_UniformResult : ∃ (i : Instr) (r : RegForm) (j : BitVec 6) (wide : Bool) (s : State) (l : Lane), intForm i = some r ∧
    r.scalar = some (j, wide) ∧ s.lane? = some l ∧ l.w.ready r.regs = true ∧ r.sound i l ∧
    ∃ k ks v, active l r.h = k :: ks ∧ sources l.w (l.w.th k) r.lit r.srcs = some v :=
  ⟨.iadd hd .n64 false (.scal 2) (.scal 4) (.imm 6) 0, _, 2, true, s0, l0, rfl, rfl, s0_lane, by decide, by unfold RegForm.sound; decide,
    0, [1], _, rfl, rfl⟩

/-- A pair at an odd register does not exist (R144). -/
theorem witness_DerailForms_faulty : ∃ (i : Instr) (r : RegForm) (s : State) (l : Lane), intForm i = some r ∧ s.lane? = some l ∧
    l.w.ready r.regs = true ∧ ¬ r.sound i l :=
  ⟨.iadd hd .n64 false (.vec 3) (.vec 4) (.imm 6) 0, _, s0, l0, rfl, s0_lane, by decide, by unfold RegForm.sound; decide⟩

/-- `p0` holds and is crazed in both threads. -/
def wCrz : Warp := { w0 with thr := w0.thr.map (fun x => { x with p := 1, pt := 1, pp := 0x01000005 }) }
def sCrz : State := stOf (wgOf wCrz)
def lCrz : Lane := laneIn (wgOf wCrz) wCrz
theorem sCrz_lane : sCrz.lane? = some lCrz := rfl

theorem witness_DerailForms_branch : ∃ (i : Instr) (s : State) (l : Lane) (h : Hdr) (n : Nat) (rs : List (Nat × Nat)) (ok : Bool),
    s.lane? = some l ∧ branchForm l.wg.info.nregs i = some (h, n, rs, ok) ∧ l.w.ready rs = true ∧ active l h ≠ [] ∧
    (∀ k ∈ active l h, ((l.w.th k).predCraze h.guard).isSome) :=
  ⟨.bra ⟨0, false, false⟩ 0x40, sCrz, lCrz, _, _, _, _, sCrz_lane, rfl, by decide, by decide, by decide⟩

theorem witness_DerailForms_wait : ∃ (i : Instr) (s : State) (l : Lane) (h : Hdr), s.lane? = some l ∧ waitForm i = some h ∧ active l h ≠ [] ∧
    (∀ k ∈ active l h, ((l.w.th k).predCraze h.guard).isSome) :=
  ⟨.exit ⟨0, false, false⟩, sCrz, lCrz, _, sCrz_lane, rfl, by decide, by decide⟩

theorem witness_BranchResult : ∃ (i : Instr) (s : State) (l : Lane) (h : Hdr) (n : Nat) (rs : List (Nat × Nat)) (ok : Bool), s.lane? = some l ∧
    branchForm l.wg.info.nregs i = some (h, n, rs, ok) ∧ l.w.ready rs = true ∧ guardsClean l h ∧ targetsSound l h rs ∧ ok = true ∧
    (∀ k ∈ active l h, ∃ a, branchTo l.w l.w.pc (l.w.th k) i = some a ∧ aligned8 a = true) ∧ active l h ≠ [] :=
  ⟨.call hd 4 0xFFFFFFC0, s0, l0, _, _, _, _, s0_lane, rfl, by decide, by unfold guardsClean; decide, by unfold targetsSound; decide, by decide,
    fun k hk => ⟨0, by revert k; decide, by decide⟩, by decide⟩

theorem witness_WaitResult : ∃ (i : Instr) (s : State) (l : Lane) (h : Hdr), s.lane? = some l ∧ waitForm i = some h ∧ guardsClean l h ∧
    active l h ≠ [] :=
  ⟨.convg hd, s0, l0, _, s0_lane, rfl, by unfold guardsClean; decide, by decide⟩

theorem witness_NopResult : ∃ (s : State) (l : Lane), s.lane? = some l := ⟨s0, l0, s0_lane⟩

theorem witness_NopResult_word : ∃ (r : Raw) (off : Nat), r.len = 0 ∧ r.opcode = 0x080 ∧ off + 8 ≤ 32 ∧ r.mod = 1 :=
  ⟨Raw.unpack 0x020000000001C800, 24, by decide, by decide, by decide, by decide⟩

theorem witness_LatchesShift : ∃ (i : Instr) (r : RegForm) (s : State) (l : Lane), (intForm i = some r ∨ valForm i = some r) ∧ s.lane? = some l ∧
    clear l r.h r.regs ∧ r.sound i l ∧ r.perThread ∧ (∀ t ∈ active l r.h, (sources l.w (l.w.th t) r.lit r.srcs).isSome) ∧
    chainsOn l r.h = true :=
  ⟨.iadd ⟨7, false, true⟩ .s32 false .latch (.vec 1) (.imm 5) 0, _, s0, l0, .inl rfl, s0_lane, ⟨by decide, by decide⟩,
    by unfold RegForm.sound; decide, by intro i w; simp [RegForm.of, aluDst], by decide, by decide⟩

theorem witness_PackResult : ∃ (s : State) (l : Lane) (h : Hdr) (dst : BitVec 8) (a : Src), s.lane? = some l ∧ clear l h [] ∧
    dst.extractLsb' 3 5 = 0 ∧ l.w.ready (ADst.vec dst false).regs = true ∧ vecOk l.wg.info.nregs dst.toNat 1 = true ∧
    clear l h (srcRegs 1 a) ∧ srcOk l.wg.info.nregs 1 a = true ∧ dst.getLsbD 7 = false ∧
    (∀ k ∈ active l h, (readSrc l.w (l.w.th k) 0 .i32 a).isSome) :=
  ⟨s0, l0, hd, 5, .vec 254, s0_lane, ⟨by decide, by decide⟩, by decide, by decide, by decide, ⟨by decide, by decide⟩, by decide, by decide, by decide⟩

theorem witness_PackResult_mode3 : ∃ (r : Raw), r.opcode = 0x082 ∧ r.mod.extractLsb' 0 2 = 3 :=
  ⟨Raw.unpack (wordWith 0 (baseWord 0x7F 0 0 0 0 0 0 7 0x082 0 0 0)), by decide, by decide⟩

theorem witness_CrossResult : ∃ (i : Instr) (s : State) (l : Lane) (o : OwnForm) (srcs : List (Src × OKind)) (lit : Word) (d : ADst)
    (op : Nat → List (DWord × Option Word)), s.lane? = some l ∧ crossForm l.wg.info.nregs i = some (o, srcs, lit, d) ∧ clear l o.h o.regs ∧
    o.sound = true ∧ (∀ k ∈ active l o.h, srcs.mapM (fun p => readSrc l.w (l.w.th k) lit p.2 p.1) = some (op k)) ∧ active l o.h ≠ [] :=
  ⟨.shfl hd (.rot true) (.vec 2) (.vec 1) (.imm 1) (.imm 32) 0, s0, l0, _, _, _, _, fun _ => [(0, none), (1, none), (32, none)], s0_lane, rfl,
    ⟨by decide, by decide⟩, by decide, by decide, by decide⟩

theorem witness_CrossCompletes : ∃ (s : State) (l : Lane) (h : Hdr) (dst : BitVec 8) (d : VDst) (a b c : Src), s.lane? = some l ∧
    dst.extractLsb' 3 5 = 0 ∧ clear l h [] ∧ vecOk l.wg.info.nregs dst.toNat 1 = true ∧ clear l h (ADst.vec dst false).regs ∧
    (aluVDst d false).ok l.wg.info.nregs = true ∧ [a, b, c].all (srcOk l.wg.info.nregs 1) = true ∧ srcOk l.wg.info.nregs 2 a = true ∧
    clear l h ((aluVDst d false).regs ++ [a, b, c].flatMap (srcRegs 1)) ∧ clear l h ((aluVDst d false).regs ++ srcRegs 2 a) ∧
    readable l h 0 .i64 a ∧ readable l h 0 .i32 a ∧ readable l h 0 .i32 b ∧ readable l h 0 .i32 c ∧ active l h ≠ [] :=
  ⟨s0, l0, hd, 3, .vec 5, .vec 6, .vec 7, .imm 32, s0_lane, by decide, ⟨by decide, by decide⟩, by decide, ⟨by decide, by decide⟩, by decide, by decide,
    by decide, ⟨by decide, by decide⟩, ⟨by decide, by decide⟩, by unfold readable; decide, by unfold readable; decide, by unfold readable; decide,
    by unfold readable; decide, by decide⟩

/-- From FP32 to FP16. -/
theorem witness_ConvertResult : ∃ (s : State) (l : Lane) (h : Hdr) (r : CvRound) (d : VDst) (a b : Src) (lit : Word) (word : Nat → Nat)
    (fa fb : Nat → Num.Fmt) (v : Nat → List DWord × Option Word), s.lane? = some l ∧
    clear l h ((aluVDst d true).regs ++ srcRegs 2 a ++ srcRegs 1 b ++ (cvSrcs r).flatMap (fun p => srcRegs 1 p.1)) ∧
    (aluVDst d false).ok l.wg.info.nregs = true ∧ ([a, b] ++ (cvSrcs r).map Prod.fst).all (srcOk l.wg.info.nregs 1) = true ∧
    (∀ k ∈ active l h, ∃ x, readSrc l.w (l.w.th k) lit .i32 b = some (x, none) ∧ word k = x.toNat ∧
        cvtfFault l.fmView d a (word k) = false ∧ cvtfFmt l.fmView (field (word k) 0 4) = some (fa k) ∧
        cvtfFmt l.fmView (field (word k) 4 4) = some (fb k) ∧
        sources l.w (l.w.th k) lit ([(a, cvtfKind (field (word k) 0 4)), (b, .i32)] ++ cvSrcs r) = some (v k)) ∧ active l h ≠ [] :=
  ⟨s0, l0, hd, .det .rz, .vec 2, .vec 4, .lit, 0x30, fun _ => 0x30, fun _ => Num.fp32, fun _ => Num.fp16, fun _ => ([0, 0x30], none), s0_lane,
    ⟨by decide, by decide⟩, by decide, by decide, by
      intro k hk
      refine ⟨0x30, ?_, rfl, (by decide : cvtfFault l0.fmView (.vec 2) (.vec 4) 0x30 = false), (by simp [cvtfFmt, field]), (by simp [cvtfFmt, field]), ?_⟩
      · revert k; decide
      · revert k; decide, by decide⟩

/-! ## Statements hold of something: memory -/

/-- `v1` is 16 in thread 1 and 0 in thread 0. -/
def wMem : Warp := { w0 with thr := [{ Thread.at_ 0x40 with v := [] }, { Thread.at_ 0x40 with v := [(1, ⟨16, false⟩)] }] ++ List.replicate 30 Thread.vacant }
def gMem : Wg := wgOf wMem
def sMem : State := stOf gMem
def lMem : Lane := laneIn gMem wMem
theorem sMem_lane : sMem.lane? = some lMem := rfl
/-- An extension word of R180: segment, size, operation, offset. -/
def mext (seg size aop off : Nat) : Ext := BitVec.ofNat 64 (seg * 2 ^ 61 + size * 2 ^ 53 + aop * 2 ^ 40 + off)
/-- Where the threads look in their scratchpad. -/
def spots (k : Nat) : ScrLoc := ⟨0, 16 * k⟩

theorem witness_ScratchLoad : ∃ (s : State) (l : Lane) (h : Hdr) (a64 : Bool) (dst : BitVec 8) (a b : Src) (e : Ext) (f : MemForm) (place : Nat → ScrLoc),
    s.lane? = some l ∧ memForm (.ld h a64 dst a b e) = some f ∧ f.sound l ∧ l.w.ready f.regs = true ∧
    l.w.holdsAt (active l h) false false = false ∧ active l h ≠ [] ∧ (∀ k ∈ active l h, memClean f.m l k ∧ (memArgs f.m h l k).addr = none ∧
      (memArgs f.m h l k).guard = none ∧ memPlace f.m f.row h s l k = .ok (.scr (place k)) ∧ (scratch s (place k).wg).bad = []) :=
  ⟨sMem, lMem, hd, false, 4, .vec 1, .imm 0, mext 1 2 0 0, _, spots, sMem_lane, rfl, ⟨by decide, by decide⟩, by decide, by decide, by decide,
    by unfold memClean; decide⟩

theorem witness_ScratchStore : ∃ (s : State) (l : Lane) (h : Hdr) (a64 fill : Bool) (a b c : Src) (e : Ext) (f : MemForm) (place : Nat → ScrLoc),
    s.lane? = some l ∧ memForm (.st h a64 fill a b c e) = some f ∧ f.sound l ∧ l.w.ready f.regs = true ∧ l.heldSeg (exSeg e) = false ∧
    l.w.holdsAt (active l h) true (exOrd e == 2) = false ∧ active l h ≠ [] ∧ (∀ k ∈ active l h, memClean f.m l k ∧ (memArgs f.m h l k).addr = none ∧
      memPlace f.m f.row h s l k = .ok (.scr (place k)) ∧ (scratch s (place k).wg).bad = []) :=
  ⟨sMem, lMem, hd, false, true, .vec 1, .imm 0, .vec 2, mext 1 2 0 0, _, spots, sMem_lane, rfl, ⟨by decide, by decide⟩, by decide, by decide, by decide,
    by decide, by unfold memClean; decide⟩

theorem witness_ScratchAtomic : ∃ (i : Instr) (s : State) (l : Lane) (f : MemForm) (op : Nat) (place : Nat → ScrLoc), s.lane? = some l ∧
    memForm i = some f ∧ atomOp i = some op ∧ f.sound l ∧ l.w.ready f.regs = true ∧
    (sgKind (l.w.seg (exSeg f.m.e)) = 1 ∨ sgKind (l.w.seg (exSeg f.m.e)) = 2) ∧ l.w.holdsAt (active l f.h) true (2 ≤ exOrd f.m.e) = false ∧
    active l f.h ≠ [] ∧ (∀ k ∈ active l f.h, memClean f.m l k ∧ (memArgs f.m f.h l k).addr = none ∧ (memArgs f.m f.h l k).dcrz = none ∧
      (memArgs f.m f.h l k).ccrz = none ∧ (memArgs f.m f.h l k).guard = none ∧ memPlace f.m f.row f.h s l k = .ok (.scr (place k)) ∧
      (scratch s (place k).wg).bad = []) :=
  ⟨.cas hd false 4 (.vec 1) (.vec 2) (.imm 7) (mext 1 2 0 0), sMem, lMem, _, _, spots, sMem_lane, rfl, rfl, ⟨by decide, by decide⟩, by decide,
    .inl (by decide), by decide, by decide, by unfold memClean; decide⟩

theorem witness_FarAccess : ∃ (i : Instr) (s : State) (l : Lane) (f : MemForm) (kind : AccKind) (place : Nat → Nat), s.lane? = some l ∧
    memForm i = some f ∧ farKind i = some kind ∧ f.sound l ∧ l.w.ready f.regs = true ∧ farClear i l f ∧ active l f.h ≠ [] ∧
    (∀ k ∈ active l f.h, f.pure l k ∧ memPlace f.m f.row f.h s l k = .ok (.va (place k))) :=
  ⟨.atom hd false 4 (.vec 1) (.imm 0) (.imm 7) (mext 0 2 0 64), sMem, lMem, _, _, fun k => 64 + 16 * k, sMem_lane, rfl, rfl, ⟨by decide, by decide⟩,
    by decide, ⟨by decide, by decide, by decide, by decide⟩, by decide, by unfold MemForm.pure memClean; decide⟩

theorem witness_HeldStore : ∃ (i : Instr) (s : State) (l : Lane) (f : MemForm) (rel : Bool) (place : Nat → Nat), s.lane? = some l ∧
    memForm i = some f ∧ heldForm i = some rel ∧ f.sound l ∧ l.w.ready f.regs = true ∧ l.heldSeg (exSeg f.m.e) = true ∧ outsiders l f.h ≠ [] ∧
    (outsiders l f.h ≠ [] → Ctx.canReserve ⟨s, l⟩ 4 = true) ∧ (∀ k ∈ active l f.h, memClean f.m l k ∧ (memArgs f.m f.h l k).addr = none ∧
      memPlace f.m f.row f.h s l k = .ok (.va (place k)) ∧
      (l.w.member k = true → (memArgs f.m f.h l k).dcrz = none ∧ (memArgs f.m f.h l k).guard = none)) :=
  ⟨.st hd false false (.vec 1) (.imm 0) (.vec 2) (mext 0 2 0 64), sMem, lMem, _, _, fun k => 64 + 16 * k, sMem_lane, rfl, rfl, ⟨by decide, by decide⟩,
    by decide, by decide, by decide, fun _ => by decide, by unfold memClean; decide⟩

/-- Both granules are full. -/
def gFull : Wg := { gMem with scr := ⟨4096, [], [(0, .full), (1, .full)], [], []⟩ }

theorem witness_FullLoad : ∃ (s : State) (l : Lane) (h : Hdr) (a64 take : Bool) (dst : BitVec 8) (a b : Src) (e : Ext) (f : MemForm) (place : Nat → ScrLoc),
    s.lane? = some l ∧ memForm (.ldfe h a64 take dst a b e) = some f ∧ f.sound l ∧ l.w.ready f.regs = true ∧
    l.w.holdsAt (active l h) false false = false ∧ active l h ≠ [] ∧ (∀ k ∈ active l h, f.pure l k ∧ memPlace f.m f.row f.h s l k = .ok (.scr (place k)) ∧
      (scratch s (place k).wg).bad = [] ∧ (scratch s (place k).wg).granule ((place k).off / 16) = .full) ∧
    take = true ∧ (take = true → ∀ j ∈ active l h, ∀ k ∈ active l h, j ≠ k →
      ((place j).wg, (place j).off / 16) ≠ ((place k).wg, (place k).off / 16)) :=
  ⟨stOf gFull, laneIn gFull wMem, hd, false, true, 4, .vec 1, .imm 0, mext 1 2 0 0, _, spots, rfl, rfl, ⟨by decide, by decide⟩, by decide, by decide,
    by decide, by unfold MemForm.pure memClean; decide, rfl, fun _ => by decide⟩

theorem witness_PrefetchAndFence : ∃ (s : State) (l : Lane) (h : Hdr) (a64 : Bool) (a b : Src) (e : Ext) (f : MemForm), s.lane? = some l ∧
    memForm (.prefetch h a64 a b e) = some f ∧ f.m.bad f.row l = false ∧ l.w.ready f.m.regs = true ∧ active l h ≠ [] :=
  ⟨sMem, lMem, hd, false, .vec 1, .imm 0, mext 0 0 0 0, _, sMem_lane, rfl, by decide, by decide, by decide⟩

/-- `waiteq` on the scratchpad: the words differ from 7, and equal 0. -/
def wext : Ext := BitVec.ofNat 64 (1 * 2 ^ 53 + 1 * 2 ^ 50 + 1000)

theorem witness_WaitWord_reads : ∃ (s : State) (l : Lane) (h : Hdr) (dst : BitVec 8) (a b : Src) (e : Ext) (x y : Nat → DWord) (place : Nat → ScrLoc),
    s.lane? = some l ∧ l.w.ready ((ADst.vec dst false).regs ++ srcRegs 1 a ++ srcRegs 1 b) = true ∧ wqSound l dst a b e ∧
    l.w.holdsAt (active l h) false false = false ∧ active l h ≠ [] ∧
    (∀ k ∈ active l h, (l.w.th k).predCraze h.guard = none ∧ (l.w.th k).bad = [] ∧
      readSrc l.w (l.w.th k) 0 .i32 a = some (x k, none) ∧ readSrc l.w (l.w.th k) 0 .i32 b = some (y k, none) ∧
      wqPlace s l k e (x k) = .ok (.scr (place k)) ∧ (scratch s (place k).wg).bad = [] ∧
      (let v := (scratch s (place k).wg).word ((place k).off / 4); v.tag = true ∨ v.val ≠ (y k).setWidth 32)) :=
  ⟨sMem, lMem, hd, 4, .vec 1, .imm 7, wext, fun k => BitVec.ofNat 64 (16 * k), fun _ => 7, spots, sMem_lane, by decide, by unfold wqSound; decide,
    by decide, by decide, by decide⟩

theorem witness_WaitWord_parks : ∃ (s : State) (l : Lane) (h : Hdr) (dst : BitVec 8) (a b : Src) (e : Ext) (x y : Nat → DWord) (place : Nat → ScrLoc),
    s.lane? = some l ∧ l.w.ready ((ADst.vec dst false).regs ++ srcRegs 1 a ++ srcRegs 1 b) = true ∧ wqSound l dst a b e ∧
    l.w.holdsAt (active l h) false false = false ∧ active l h ≠ [] ∧
    (∀ k ∈ active l h, (l.w.th k).predCraze h.guard = none ∧ (l.w.th k).bad = [] ∧
      readSrc l.w (l.w.th k) 0 .i32 a = some (x k, none) ∧ readSrc l.w (l.w.th k) 0 .i32 b = some (y k, none) ∧
      wqPlace s l k e (x k) = .ok (.scr (place k)) ∧ (scratch s (place k).wg).bad = [] ∧
      (scratch s (place k).wg).word ((place k).off / 4) = ⟨(y k).setWidth 32, false⟩) :=
  ⟨sMem, lMem, hd, 4, .vec 1, .imm 0, wext, fun k => BitVec.ofNat 64 (16 * k), fun _ => 0, spots, sMem_lane, by decide, by unfold wqSound; decide,
    by decide, by decide, by decide⟩

/-- The extension word of a barrier instruction: segment 1. -/
def bext : Ext := BitVec.ofNat 64 (2 ^ 61)

theorem witness_BarrierUpdates_once : ∃ (i : Instr) (s : State) (l : Lane) (b : TbIns) (k : Nat) (ks : List Nat) (x : ScrLoc) (n c : Nat),
    s.lane? = some l ∧ tbForm i = some b ∧ tbOnce n i ∧ tbClear b l ∧ active l b.h = k :: ks ∧
    (∀ j ∈ active l b.h, (l.w.th j).predCraze b.h.guard = none) ∧ tbReads b s l k x n c :=
  ⟨.tbinit hd (.vec 1) (.imm 2) (.imm 0) bext, sMem, lMem, _, 0, [1], ⟨0, 0⟩, 2, 0, sMem_lane, rfl, by unfold tbOnce; decide,
    ⟨by decide, by decide, by decide, by decide⟩, by decide, by decide, ⟨by decide, by decide, _, rfl, by decide, by decide, by decide, by decide⟩⟩

theorem witness_BarrierUpdates_each : ∃ (s : State) (l : Lane) (h : Hdr) (dst : BitVec 8) (a b : Src) (e : Ext) (bi : TbIns) (x : ScrLoc) (n : Nat → Nat),
    s.lane? = some l ∧ tbForm (.tbarrive h true dst a b e) = some bi ∧ tbClear bi l ∧ active l h ≠ [] ∧
    (∀ k ∈ active l h, (l.w.th k).predCraze h.guard = none ∧ ∃ c, tbReads bi s l k x (n k) c) :=
  ⟨sMem, lMem, hd, 4, .vec 2, .imm 1, bext, _, ⟨0, 0⟩, fun _ => 1, sMem_lane, rfl, ⟨by decide, by decide, by decide, by decide⟩, by decide, by
    intro k hk
    have : k = 0 ∨ k = 1 := by revert k; decide
    rcases this with rfl | rfl <;> exact ⟨by decide, 0, by decide, by decide, _, rfl, by decide, by decide, by decide, by decide⟩⟩

theorem witness_BarrierAwaits : ∃ (i : Instr) (s : State) (l : Lane) (b : TbIns) (k : Nat) (ks : List Nat) (x : ScrLoc) (n c : Nat),
    s.lane? = some l ∧ tbForm i = some b ∧ tbClear b l ∧ active l b.h = k :: ks ∧
    (∀ j ∈ active l b.h, (l.w.th j).predCraze b.h.guard = none) ∧ tbReads b s l k x n c ∧ (barrier s x).done n = false :=
  ⟨.tbwait hd (.vec 1) (.imm 0) bext, sMem, lMem, _, 0, [1], ⟨0, 0⟩, 0, 0, sMem_lane, rfl,
    ⟨by decide, by decide, by decide, by decide⟩, by decide, by decide, ⟨by decide, by decide, _, rfl, by decide, by decide, by decide, by decide⟩, by decide⟩

theorem witness_BarrierAwaits_done : ∃ (s : State) (x : ScrLoc) (n : Nat), (barrier s x).done n = true := ⟨sMem, ⟨0, 0⟩, 15, by decide⟩

/-! ## Statements hold of something: warp-level instructions, array, copies -/

/-- Both threads have been released at a warp-level instruction. -/
def wRel : Warp := { w0 with thr := w0.thr.map (fun x => if x.st = .eligible then { x with st := .released } else x) }
def sRel : State := stOf (wgOf wRel)
def lRel : Lane := laneIn (wgOf wRel) wRel
theorem sRel_lane : sRel.lane? = some lRel := rfl
/-- A region of two units is open for both. -/
def reg0 : Region := { tag := 1, seq := 5, res := 2, openPc := 0x20, recovery := 0x100, members := 3, crazes := [], hard := 0, regionCraze := none, first := none,
                       replays := 0, overflow := false, pending := [], commit := none, retryRun := 0, crz14 := false }
def wIn : Warp := { wRel with region := some reg0, nextTag := 2, rseq := 5 }
def sIn : State := stOf (wgOf wIn)
def lIn : Lane := laneIn (wgOf wIn) wIn
theorem sIn_lane : sIn.lane? = some lIn := rfl

/-- Thread 2 stands elsewhere. -/
def wSplit : Warp := { w0 with thr := w0.thr.set 2 (Thread.at_ 0x80) }

theorem witness_WarpLevelForms_parks : ∃ (i : Instr) (s : State) (l : Lane) (h : Hdr) (n : Nat), s.lane? = some l ∧ warpForm i = some (h, n) ∧
    unguarded h = true ∧ released l = [] ∧ (∃ k < 32, k ∉ l.w.batch ∧ (l.w.th k).holdsBack = true) :=
  ⟨.abort hd, stOf (wgOf wSplit), laneIn (wgOf wSplit) wSplit, _, _, rfl, rfl, by decide, by decide, 2, by decide, by decide, by decide⟩

theorem witness_WarpLevelForms_guarded : ∃ (i : Instr) (s : State) (l : Lane) (h : Hdr) (n : Nat), s.lane? = some l ∧ warpForm i = some (h, n) ∧
    unguarded h = false ∧ active l h ≠ [] :=
  ⟨.kbar ⟨0, true, false⟩, s0, l0, _, _, s0_lane, rfl, by decide, by decide⟩

theorem witness_BarriersReached : ∃ (s : State) (l : Lane) (h : Hdr) (cnt : Option Src) (n : Option Nat), s.lane? = some l ∧ unguarded h = true ∧
    released l ≠ [] ∧ nothingOut l ∧ barCount l ((released l).headD 0) cnt n :=
  ⟨sRel, lRel, hd, some (.imm 32), some 32, sRel_lane, by decide, by decide, by unfold nothingOut; decide,
    32, by decide, by decide, by decide, by decide, by decide, by decide⟩

def gKiln : Wg := { wgOf wRel with info := { LaunchInfo.one with kg := 2 }, kiln := [0] }
theorem witness_BarriersReached_kiln : ∃ (s : State) (l : Lane) (h : Hdr), s.lane? = some l ∧ unguarded h = true ∧ released l ≠ [] ∧ nothingOut l ∧
    l.wg.info.kg ≠ 0 :=
  ⟨stOf gKiln, laneIn gKiln wRel, hd, rfl, by decide, by decide, by unfold nothingOut; decide, by decide⟩

/-- `rgn` of two units with its recovery target 0x80 bytes on. -/
def rext : Ext := BitVec.ofNat 64 (2 * 2 ^ 32 + 0x80)
theorem witness_RegionOpens : ∃ (s : State) (l : Lane) (h : Hdr) (e : Ext), s.lane? = some l ∧ unguarded h = true ∧ released l ≠ [] ∧ rgnSound l e ∧
    Ctx.canReserve ⟨s, l⟩ (rgnRes e) = true :=
  ⟨sRel, lRel, hd, rext, sRel_lane, by decide, by decide, by unfold rgnSound; decide, by decide⟩

/-- Two warps hold 511 of the 512 units of the core's sagger (R47). -/
def wBig : Warp := { w0 with region := some { reg0 with res := 128 } }
def gBusy : Wg := { wgOf wRel with warps := [wRel, wBig, wBig, wBig, wBig] }
theorem witness_RegionOpens_waits : ∃ (s : State) (l : Lane) (h : Hdr) (e : Ext), s.lane? = some l ∧ unguarded h = true ∧ released l ≠ [] ∧ rgnSound l e ∧
    Ctx.canReserve ⟨s, l⟩ (rgnRes e) = false :=
  ⟨stOf gBusy, laneIn gBusy wRel, hd, rext, rfl, by decide, by decide, by unfold rgnSound; decide, by decide⟩

/-- The region has one member, thread 5, which has exited. -/
def wOther : Warp := { wIn with region := some { reg0 with members := 32 } }
theorem witness_RegionOpens_close : ∃ (s : State) (l : Lane) (h : Hdr) (e : Ext), s.lane? = some l ∧ unguarded h = true ∧ released l ≠ [] ∧
    e.extractLsb' 40 24 = 0 ∧ rgnTgt e % 8 = 0 ∧ l.w.region.isSome ∧ (∀ k ∈ released l, l.w.member k = false) :=
  ⟨stOf (wgOf wOther), laneIn (wgOf wOther) wOther, hd, rext, rfl, by decide, by decide, by decide, by decide, by decide, by decide⟩

theorem witness_CommitParks : ∃ (s : State) (l : Lane) (h : Hdr) (g : Region), s.lane? = some l ∧ unguarded h = true ∧ released l ≠ [] ∧ l.w.region = some g ∧
    (released l).filter l.w.member ≠ [] :=
  ⟨sIn, lIn, hd, reg0, sIn_lane, by decide, by decide, rfl, by decide⟩

theorem witness_AbortAndReplay : ∃ (s : State) (l : Lane) (h : Hdr) (g : Region), s.lane? = some l ∧ unguarded h = true ∧ released l ≠ [] ∧ l.w.region = some g :=
  ⟨sIn, lIn, hd, reg0, sIn_lane, by decide, by decide, rfl⟩

theorem witness_AbortAndReplay_none : ∃ (i : Instr) (s : State) (l : Lane) (h : Hdr), s.lane? = some l ∧
    ((∃ e r k, i = .commit h e r k) ∨ i = .abort h ∨ i = .replay h) ∧ unguarded h = true ∧ released l ≠ [] ∧ l.w.region = none :=
  ⟨.replay hd, sRel, lRel, hd, sRel_lane, .inr (.inr rfl), by decide, by decide, rfl⟩

theorem witness_TrapWaits : ∃ (s : State) (l : Lane) (h : Hdr) (dst : BitVec 8) (a b k : Src) (v : Nat → List DWord), s.lane? = some l ∧ unguarded h = true ∧
    released l ≠ [] ∧ l.w.ready (dstRegs dst.toNat 8 ++ srcRegs 1 a ++ srcRegs 1 b ++ srcRegs 1 k) = true ∧
    vecOk l.wg.info.nregs dst.toNat 2 = true ∧ [a, b, k].all (srcOk l.wg.info.nregs 1) = true ∧ s.ringOn l.wg.vf = true ∧
    l.w.trapQ = [] ∧ (∀ j ∈ released l, (l.w.th j).bad = [] ∧
      [a, b, k].mapM (readSrc l.w (l.w.th j) 0 .i32) = some ((v j).map (fun x => (x, none)))) :=
  ⟨sRel.vwr 0 Reg.srbase 4, lRel, hd, 4, .vec 1, .imm 2, .vec 255, fun _ => [0, 2, 0], rfl, by decide, by decide, by decide, by decide, by decide,
    by decide, by decide, by decide⟩

theorem witness_SystemValues : ∃ (s : State) (l : Lane) (h : Hdr) (dst : BitVec 8) (b64 : Bool) (a : Src) (v : Nat → DWord × Option Word), s.lane? = some l ∧
    clear l h (srcRegs (if b64 then 2 else 1) a) ∧ dst.extractLsb' 3 5 = 0 ∧ srcOk l.wg.info.nregs (if b64 then 2 else 1) a = true ∧
    (∀ k ∈ active l h, readSrc l.w (l.w.th k) 0 (if b64 then .i64 else .i32) a = some (v k)) ∧ active l h ≠ [] :=
  ⟨s0, l0, hd, 3, true, .vec 2, fun _ => (0, none), s0_lane, ⟨by decide, by decide⟩, by decide, by decide, by decide, by decide⟩

theorem witness_SystemValues_crzread : ∃ (s : State) (l : Lane) (h : Hdr) (dst : BitVec 8) (a : Src) (v : Nat → DWord × Option Word), s.lane? = some l ∧
    clear l h (dstRegs dst.toNat 4 ++ srcRegs 1 a) ∧ vecOk l.wg.info.nregs dst.toNat 1 = true ∧ srcOk l.wg.info.nregs 1 a = true ∧
    (∀ k ∈ active l h, readSrc l.w (l.w.th k) 0 .i32 a = some (v k)) ∧ active l h ≠ [] :=
  ⟨s0, l0, hd, 255, .vec 2, fun _ => (0, none), s0_lane, ⟨by decide, by decide⟩, by decide, by decide, by decide, by decide⟩

theorem witness_SystemValues_rdsys : ∃ (s : State) (l : Lane) (dst : BitVec 8) (code : BitVec 10), s.lane? = some l ∧ l.w.ready (dstRegs dst.toNat 4) = true ∧
    code.toNat ≤ 0x18 ∧ vecOk l.wg.info.nregs dst.toNat 1 = true :=
  ⟨s0, l0, 254, 0x18, s0_lane, by decide, by decide, by decide⟩

def gPriv : Wg := { wgOf w0 with priv := true }
theorem witness_SystemValues_warp : ∃ (s : State) (l : Lane) (h : Hdr) (k : Nat) (ks : List Nat) (dst : BitVec 8) (code : BitVec 10) (a b : Src) (e : Ext)
    (x y : DWord), s.lane? = some l ∧ active l h = k :: ks ∧ 3 ≤ code.toNat ∧ code.toNat ≤ 0x18 ∧ dst.toNat ≤ 0x3F ∧ e.extractLsb' 3 61 = 0 ∧
    segSrcOk a = true ∧ segSrcOk b = true ∧ l.wg.priv = true ∧ readSrc l.w (l.w.th k) 0 .i64 a = some (x, none) ∧
    readSrc l.w (l.w.th k) 0 .i64 b = some (y, none) ∧ (l.w.th k).bad = [] ∧ sgBad (y ++ x) = false :=
  ⟨stOf gPriv, laneIn gPriv w0, hd, 0, [1], 0x3F, 3, .scal 2, .scal 4, 7, 0, 0, rfl, by decide, by decide, by decide, by decide, by decide, by decide,
    by decide, by decide, by decide, by decide, by decide, by decide⟩

theorem witness_SystemValues_unprivileged : ∃ (s : State) (l : Lane) (h : Hdr) (a b : Src) (e : Ext), s.lane? = some l ∧ e.extractLsb' 3 61 = 0 ∧
    segSrcOk a = true ∧ segSrcOk b = true ∧ l.wg.priv = false ∧ active l h ≠ [] :=
  ⟨s0, l0, hd, .scal 2, .scal 4, 7, s0_lane, by decide, by decide, by decide, by decide, by decide⟩

/-! ### Array and copies -/

def wMat : Warp := { w0 with role := .matrix }
def gMat : Wg := wgOf wMat
def lMat : Lane := laneIn gMat wMat
theorem sMat_lane : (stOf gMat).lane? = some lMat := rfl
def mmaI : Instr := .mma hd true false false (.scal 4) (.imm 5) none 0x4380000000300000
def fMat : MatForm := ⟨hd, 16, some (.scal 4), some (.imm 5), none, true⟩

theorem witness_MatrixIssue : ∃ (i : Instr) (s : State) (l : Lane) (f : MatForm), s.lane? = some l ∧ matForm l.wg.info.kg i = some f ∧ f.sound = true ∧
    l.w.role = .matrix ∧ active l f.h ≠ [] ∧ l.wg.queued.length < 16 :=
  ⟨mmaI, stOf gMat, lMat, fMat, sMat_lane, rfl, rfl, rfl, by decide, by decide⟩

theorem witness_MatrixIssue_inactive : ∃ (i : Instr) (s : State) (l : Lane) (f : MatForm), s.lane? = some l ∧ matForm l.wg.info.kg i = some f ∧ f.sound = true ∧
    l.w.role = .matrix ∧ active l f.h = [] :=
  ⟨.mswap ⟨7, true, false⟩, stOf gMat, lMat, _, sMat_lane, rfl, rfl, rfl, by decide⟩

/-- The queue holds 16 entries that have not started. -/
def gFullQ : Wg := { gMat with mq := List.replicate 16 (matEntry mmaI fMat lMat) }
theorem witness_MatrixIssue_full : ∃ (i : Instr) (s : State) (l : Lane) (f : MatForm), s.lane? = some l ∧ matForm l.wg.info.kg i = some f ∧ f.sound = true ∧
    l.w.role = .matrix ∧ active l f.h ≠ [] ∧ 16 ≤ l.wg.queued.length :=
  ⟨mmaI, stOf gFullQ, laneIn gFullQ wMat, fMat, rfl, rfl, rfl, rfl, by decide, by decide⟩

theorem witness_MatrixIssue_role : ∃ (i : Instr) (s : State) (l : Lane) (f : MatForm), s.lane? = some l ∧ matForm l.wg.info.kg i = some f ∧
    l.w.role ≠ .matrix ∧ active l f.h ≠ [] :=
  ⟨mmaI, s0, l0, fMat, s0_lane, rfl, by decide, by decide⟩

theorem witness_FormatSet : ∃ (s : State) (l : Lane) (h : Hdr) (dst : BitVec 8) (a : Src), s.lane? = some l ∧ dst.extractLsb' 3 5 = 0 ∧
    (a.isLit || matSrcOk 1 a) = true ∧ active l h ≠ [] ∧ l.wg.queued = [] :=
  ⟨s0, l0, hd, 7, .lit, s0_lane, by decide, by decide, by decide, by decide⟩

def wCpy : Warp := { w0 with role := .copy }
def gCpy : Wg := wgOf wCpy
def lCpy : Lane := laneIn gCpy wCpy
def sCpy : State := stOf gCpy
theorem sCpy_lane : sCpy.lane? = some lCpy := rfl

/-- `cpyld` of a box of rank 1 with its record at 0 of segment 0: coordinates from `s8`, barrier word and box number in `s3`, `s2`. -/
theorem witness_CopyQueued_box : ∃ (i : Instr) (s : State) (l : Lane) (b : BoxIns), s.lane? = some l ∧ boxForm i = some b ∧ l.w.role = .copy ∧
    boxReady b s l ∧ active l b.h ≠ [] ∧ l.core.cpq.length < 32 :=
  ⟨.cpyld hd false false false (.scal 8) (.scal 3) (.scal 2) 0, sCpy, lCpy, _, sCpy_lane, rfl, rfl,
    ⟨rfl, fun h => (nomatch h), fun h => (nomatch h), by decide⟩, by decide, by decide⟩

/-- 32 bytes, from 0 of segment 0 to `s4` of segment 1. -/
def wLin : Warp := { wCpy with s := [(6, ⟨32, false⟩)] }
def gLin : Wg := wgOf wLin
def lLin : Lane := laneIn gLin wLin
theorem witness_CopyQueued_linear : ∃ (s : State) (l : Lane) (h : Hdr) (a b c : Src) (e : Ext), s.lane? = some l ∧ l.w.role = .copy ∧
    [a, b].all (matSrcOk 2) = true ∧ matSrcOk 1 c = true ∧ e.extractLsb' 55 3 = 0 ∧ e.extractLsb' 0 37 = 0 ∧
    linKinds (sgKind (l.w.seg (cxSeg e))) (sgKind (l.w.seg (cxDseg e))) = true ∧ active l h ≠ [] ∧ l.core.cpq.length < 32 ∧
    (let x := warpRead l .i64 0 a
     let y := warpRead l .i64 0 b
     let n := warpRead l .i32 0 c
     crazeOf [x.2, y.2, n.2, guardsOf l h] = none → x.1.toNat % 32 = 0 ∧ y.1.toNat % 32 = 0 ∧ n.1.toNat % 32 = 0 ∧ n.1.toNat ≠ 0 ∧ n.1.toNat ≤ 2 ^ 20) :=
  ⟨stOf gLin, lLin, hd, .scal 2, .scal 4, .scal 6, BitVec.ofNat 64 (2 ^ 58), rfl, rfl, by decide, by decide, by decide, by decide, by decide, by decide,
    by decide, by decide⟩

theorem witness_GroupChange : ∃ (s : State) (l : Lane) (h : Hdr) (a b : Src) (lit : Word), s.lane? = some l ∧ l.w.role = .copy ∧ active l h ≠ [] ∧
    grpSrcOk a = true ∧ guardsOf l h = none ∧ (warpRead l .i32 lit a).2 = none ∧ (warpRead l .i32 lit a).1.toNat ≤ 255 ∧ grpSrcOk b = true ∧
    (warpRead l .i32 lit b).2 = none ∧ (warpRead l .i32 lit b).1.toNat ≤ 65535 ∧
    mayJoin s l (s.grp l.wg.part (warpRead l .i32 lit a).1.toNat) :=
  ⟨sCpy, lCpy, hd, .imm 1, .lit, 65535, sCpy_lane, rfl, by decide, by decide, by decide, by decide, by decide, by decide, by decide, by decide,
    .inr (.inr ⟨by decide, fun m hm => by cases hm⟩)⟩

/-- One element of 4 bytes at 0 of segment 0. -/
theorem witness_CollectiveIssue : ∃ (s : State) (l : Lane) (h : Hdr) (dst : BitVec 8) (a b : Src) (e : Ext) (va : Nat), s.lane? = some l ∧ l.w.role = .copy ∧
    clBad dst a b e = false ∧ active l h ≠ [] ∧ (l.w.colls.filter (fun x => !x.done)).length < 4 ∧ (∀ k ∈ active l h, l.w.member k = false) ∧
    guardsOf l h = none ∧ (warpRead l .i64 0 a).2 = none ∧ (warpRead l .i32 0 b).2 = none ∧ 1 ≤ (warpRead l .i32 0 b).1.toNat ∧
    (warpRead l .i32 0 b).1.toNat ≤ 2 ^ 28 ∧ (warpRead l .i64 0 a).1.toNat % 16 = 0 ∧
    Ctx.checkSeg ⟨s, l⟩ (l.w.seg (clSeg e)) ((active l h).headD 0) (warpRead l .i64 0 a).1.toNat 1 [57, 58] [0] false = .ok (.va va) :=
  ⟨sCpy, lCpy, hd, 5, .scal 2, .imm 1, 0, 0, sCpy_lane, rfl, by decide, by decide, by decide, by decide, by decide, by decide, by decide, by decide,
    by decide, by decide, by decide⟩

/-- Ticket 1 has been issued and is complete. -/
def wTick : Warp := { w0 with collCount := 1 }
theorem witness_CollectiveIssue_wait : ∃ (s : State) (l : Lane) (h : Hdr) (a : Src) (v : Nat → DWord), s.lane? = some l ∧ l.w.ready (srcRegs 1 a) = true ∧
    srcOk l.wg.info.nregs 1 a = true ∧ guardsClean l h ∧ active l h ≠ [] ∧ (∀ k ∈ active l h, (l.w.th k).bad = [] ∧
      readSrc l.w (l.w.th k) 0 .i32 a = some (v k, none) ∧ (v k).setWidth 32 ≠ (0 : Word) ∧ ticketLe ((v k).setWidth 32) l.w.collCount = true ∧
      Ctx.collFault ⟨s, l⟩ ((v k).setWidth 32) = none) :=
  ⟨stOf (wgOf wTick), laneIn (wgOf wTick) wTick, hd, .imm 1, fun _ => 1, rfl, by decide, by decide, by unfold guardsClean; decide, by decide, by decide⟩

/-! ## Statements hold of something: events of a warp -/

/-- Page 0 of virtual function 0 at 0x1000, with every permission, in a TLB. -/
def leaf0 : DWord := 0x107B
def t0 : TlbEntry := ⟨0, 0, 0, 4096, leaf0⟩
def paged (s : State) : State := { s.wr (Reg.vfroot 0) 1 with flt := [(0, [t0])], llt := [(0, [t0])] }
/-- An access of four bytes at 0x40, not translated yet. -/
def acc0 : Acc := { id := 3, kind := .load false, thread := 0, po := 0, pc := 0x40, va := 0x40, n := 4, dst := 2, x := 0, cmp := 0, ord := 0, scope := 0,
                    stage := .walk, dpa := 0, gen := 0, key := 0, rmt := false, issued := 0 }
/-- A held store of one byte at 0x40 for region 1. -/
def item0 : Item := { id := 3, tag := 1, po := 0, thread := 0, kind := .store, cells := [⟨0, 7, none⟩], va := 0x40, n := 1, pc := 0x40, stage := .walk,
                      dpa := 0, gen := 0, key := 0, rmt := false, copy := false, bad := false, sent := false, issued := 0, named := 0 }
def wAcc (a : Acc) : Warp := { w0 with accs := [a] }
def wItem (i : Item) : Warp := { w0 with items := [i], region := some { reg0 with tag := 1, recovery := 0x20 } }
def sAcc (a : Acc) : State := paged (stOf (wgOf (wAcc a)))
def sItem (i : Item) : State := paged (stOf (wgOf (wItem i)))
/-- The warp of the small machine. -/
def ref0 : WRef := ⟨0, 0⟩
def lAcc (a : Acc) : Lane := laneIn (wgOf (wAcc a)) (wAcc a)
def lItem (i : Item) : Lane := laneIn (wgOf (wItem i)) (wItem i)

theorem witness_AccessEvents_walkEnds : ∃ (s : State) (r : WRef) (l : Lane) (id : Nat) (tlb : Bool) (s' : State) (dpa : Nat) (gen : BitVec 16) (key : BitVec 8) (rmt : Bool) (a : Acc),
    s.laneOf r = some l ∧ accAt l id .walk a ∧ s.translate (some l.wg.core) l.wg.vf a.va a.kind.need tlb = (s', .ok dpa gen key rmt) :=
  ⟨sAcc acc0, ref0, lAcc acc0, 3, true, sAcc acc0, 0x1040, 0, 0, false, acc0, rfl, rfl, rfl⟩

theorem witness_AccessEvents_walkEndsItem : ∃ (s : State) (r : WRef) (l : Lane) (id : Nat) (tlb : Bool) (s' : State) (dpa : Nat) (gen : BitVec 16) (key : BitVec 8) (rmt : Bool)
    (i : Item), s.laneOf r = some l ∧ (∀ a, ¬ accAt l id .walk a) ∧ itemAt l id .walk i ∧ l.explicit i = none ∧
    l.w.items.any (fun x => x.tag == i.tag && x.stage == .walk && decide (x.po < i.po)) = false ∧
    s.translate (some l.wg.core) l.wg.vf i.va (if i.kind = .store then .store else .red) tlb = (s', .ok dpa gen key rmt) :=
  ⟨sItem { item0 with tag := 2 }, ref0, lItem { item0 with tag := 2 }, 3, true, sItem { item0 with tag := 2 }, 0x1040, 0, 0, false, { item0 with tag := 2 },
    rfl, (fun _ h => nomatch h), rfl, rfl, rfl, rfl⟩

theorem witness_TlbHit : ∃ (s : State) (core : Nat) (v : BitVec 8) (va : Nat) (need : Need) (t : TlbEntry), (s.rd (Reg.vfroot v.toNat)).getLsbD 0 = true ∧
    s.tlbFind (some core) v va = some t ∧ t.leaf.toNat.testBit need.bit = true ∧
    (field t.leaf.toNat 56 8 = 0 ∨ s.ownsKey (s.vfPart v) (field t.leaf.toNat 56 8) = true) ∧
    (need = .atomic → t.leaf.toNat.testBit 8 = false ∧ windowOf (entryPa t.leaf.toNat + va % t.size) ≠ 1) ∧
    (need = .red → windowOf (entryPa t.leaf.toNat + va % t.size) ≠ 1) :=
  ⟨paged s0, 0, 0, 0xFFF, .atomic, t0, rfl, rfl, by decide, .inl (by decide), fun _ => by decide, fun _ => by decide⟩

def accHome : Acc := { acc0 with stage := .home, dpa := 0x1040 }
theorem witness_AccessEvents_homeAccess : ∃ (s : State) (r : WRef) (l : Lane) (id : Nat) (a : Acc) (s' : State) (sx : Bool), s.laneOf r = some l ∧ accAt l id .home a ∧
    l.w.accWaits a = false ∧ Ctx.copyBefore ⟨s, l⟩ a.po a.va a.n (a.kind.need == .atomic) = false ∧ a.rmt = false ∧ s.releasingAny a.dpa a.n = false ∧
    Ctx.homeChecks ⟨s, l⟩ a.dpa a.n a.gen (Ctx.races ⟨s, l⟩ a.dpa a.n) = (⟨s', l⟩, none) ∧ a.kind = .load sx :=
  ⟨sAcc accHome, ref0, lAcc accHome, 3, accHome, sAcc accHome, false, rfl, rfl, rfl, rfl, rfl, rfl, rfl, rfl⟩

def accAtom : Acc := { accHome with kind := .cas }
theorem witness_AccessEvents_homeAccessAtomic : ∃ (s : State) (r : WRef) (l : Lane) (id : Nat) (a : Acc) (s' : State) (op : Nat), s.laneOf r = some l ∧ accAt l id .home a ∧
    l.w.accWaits a = false ∧ Ctx.copyBefore ⟨s, l⟩ a.po a.va a.n (a.kind.need == .atomic) = false ∧ a.rmt = false ∧ s.releasingAny a.dpa a.n = false ∧
    Ctx.homeChecks ⟨s, l⟩ a.dpa a.n a.gen (Ctx.races ⟨s, l⟩ a.dpa a.n) = (⟨s', l⟩, none) ∧ accOp a.kind = some op ∧ l.wg.pair = none :=
  ⟨sAcc accAtom, ref0, lAcc accAtom, 3, accAtom, sAcc accAtom, 255, rfl, rfl, rfl, rfl, rfl, rfl, rfl, rfl, rfl⟩

def accDone : Acc := { accHome with stage := .done [⟨9, false⟩] }
theorem witness_AccessEvents_dataReturns : ∃ (s : State) (r : WRef) (l : Lane) (id : Nat) (a : Acc) (ws : List TWord), s.laneOf r = some l ∧
    l.w.accs.find? (fun x => x.id == id) = some a ∧ a.stage = .done ws ∧ a.kind ≠ .waiteq :=
  ⟨sAcc accDone, ref0, lAcc accDone, 3, accDone, _, rfl, rfl, rfl, by decide⟩

def itemSag (st : ItemStage) : Item := { item0 with stage := st, dpa := 0x1040 }
theorem witness_HeldDataEvents_heldLands : ∃ (s : State) (r : WRef) (l : Lane) (id : Nat) (i : Item), s.laneOf r = some l ∧ mayPush s l i ∧ itemAt l id .sagger i :=
  ⟨sItem (itemSag .sagger), ref0, lItem (itemSag .sagger), 3, _, rfl, ⟨rfl, rfl, rfl, rfl, fun _ => ⟨rfl, rfl, rfl⟩⟩, rfl⟩
theorem witness_HeldDataEvents_heldLandsDeferred : ∃ (s : State) (r : WRef) (l : Lane) (id : Nat) (i : Item), s.laneOf r = some l ∧ mayPush s l i ∧ itemAt l id .deferred i :=
  ⟨sItem (itemSag .deferred), ref0, lItem (itemSag .deferred), 3, _, rfl, ⟨rfl, rfl, rfl, rfl, fun _ => ⟨rfl, rfl, rfl⟩⟩, rfl⟩

def regCom : Region := { reg0 with commit := some ⟨false, false, false, 3, 0x40⟩ }
def wCom : Warp := { wRel with region := some regCom, items := [itemSag .held], nextTag := 2,
                                 thr := wRel.thr.map (fun x => if x.st = .released then { x with st := .parkedEvent .commit } else x) }
theorem witness_CommitEvents_commitReleases : ∃ (s : State) (r : WRef) (l : Lane) (g : Region) (q : CommitReq), s.laneOf r = some l ∧ l.wg.pair = none ∧
    l.w.region = some g ∧ g.commit = some q ∧ l.commitReady g = true ∧ Ctx.settled ⟨s, l⟩ = false ∧ g.crz14 = false ∧ g.crazed q.keep = 0 ∧
    Ctx.checkPass ⟨s, l⟩ g = ⟨s, l⟩ :=
  ⟨stOf (wgOf wCom), ref0, laneIn (wgOf wCom) wCom, regCom, _, rfl, rfl, rfl, rfl, rfl, rfl, rfl, rfl, rfl⟩

def itemSent : Item := { itemSag .held with sent := true }
def wSent : Warp := { w0 with items := [itemSent], rels := [wholeRelease regCom ⟨false, false, false, 3, 0x40⟩] }
theorem witness_HeldDataEvents_releaseArrives : ∃ (s : State) (r : WRef) (l : Lane) (tag slice : Nat), s.laneOf r = some l ∧
    l.w.items.filter (fun i => i.tag == tag && i.sent && i.stage == .held && i.slice == slice) ≠ [] ∧
    (∀ i ∈ l.w.items.filter (fun i => i.tag == tag && i.sent && i.stage == .held && i.slice == slice), i.rmt = false) ∧ l.w.mayRelease tag = true ∧
    s.releasing.any (fun x => ((l.w.items.filter (fun i => i.tag == tag && i.sent && i.stage == .held && i.slice == slice)).flatMap
      Item.lines).eraseDups.contains x.line && !x.isOf r tag) = false :=
  ⟨stOf (wgOf wSent), ref0, laneIn (wgOf wSent) wSent, 1, itemSent.slice, rfl, by decide, by decide, rfl, rfl⟩

theorem witness_HeldDataEvents_settleFrees : ∃ (s : State) (r : WRef) (tag _slice : Nat), s.releasing ≠ [] ∧
    (∀ g w, s.warp? r = some (g, w) → w.items.any (fun i => i.tag == tag && i.sent) = false) :=
  ⟨{ s0 with releasing := [⟨2, 0, 0, 1, none⟩] }, ref0, 1, 0, by decide, fun g w h => by cases h; rfl⟩

def impl0 : Implicit := { tag := 1, po := 0, units := 4, rel := true, pc := 0x40, decided := true, agreed := true, num := 1, sig := 0, sigSent := false,
                          owner := none, seq := 0 }
def wImpl : Warp := { w0 with items := [{ itemSent with stage := .released }], implicit := [impl0] }
theorem witness_CommitEvents_implicitCompletes : ∃ (s : State) (r : WRef) (l : Lane) (tag : Nat), s.laneOf r = some l ∧ l.leader = none ∧
    (∀ i ∈ l.w.items, i.tag = tag → i.sent = true → i.stage = .released ∨ i.stage = .refused) ∧
    l.w.rels.find? (fun x => x.tag == tag && x.agreed) = none ∧
    (l.w.implicit.find? (fun i => i.tag == tag && i.decided && i.agreed)).isSome :=
  ⟨stOf (wgOf wImpl), ref0, laneIn (wgOf wImpl) wImpl, 1, rfl, rfl, by decide, rfl, rfl⟩

theorem witness_AccessEvents_fetchKeeps : ∃ (s : State) (r : WRef) (l : Lane) (tlb : Bool) (s' : State) (dpa : Nat) (gen : BitVec 16) (key : BitVec 8), s.laneOf r = some l ∧
    l.w.batch ≠ [] ∧ s.translate (some l.wg.core) l.wg.vf (l.w.pc.toNat / 32 * 32) .fetch tlb = (s', .ok dpa gen key false) ∧ s'.releasingAny dpa 32 = false ∧
    Ctx.homeChecks ⟨s', l⟩ dpa 32 gen false = (⟨s', l⟩, none) :=
  ⟨paged s0, ref0, l0, true, paged s0, 0x1040, 0, 0, rfl, by decide, rfl, rfl, rfl⟩

def wWait : Warp := { w0 with rgnWait := some ⟨0x40, 512, 0x100, 3⟩ }
theorem witness_WaitsEnd_reservationGranted : ∃ (s : State) (r : WRef) (l : Lane) (q : RgnWait), s.laneOf r = some l ∧ l.wg.frozen = false ∧ l.w.rgnWait = some q ∧
    Ctx.canReserve ⟨s, l⟩ q.res = true :=
  ⟨stOf (wgOf wWait), ref0, laneIn (wgOf wWait) wWait, _, rfl, rfl, rfl, by decide⟩

/-- Thread 0 waits in state `st`. -/
def wPark (st : TState) : Warp := { w0 with thr := w0.thr.set 0 { Thread.at_ 0x40 with st := st } }
def sPark (st : TState) : State := stOf (wgOf (wPark st))
def lPark (st : TState) : Lane := laneIn (wgOf (wPark st)) (wPark st)
def x0 : Watch := ⟨some ⟨0, 8⟩, 0, 5, some 0, 2, none, 8, 1, false⟩
theorem witness_WaitsEnd_watchEnds : ∃ (s : State) (r : WRef) (l : Lane) (k : Nat) (x : Watch) (a : ScrLoc), s.laneOf r = some l ∧ l.wg.frozen = false ∧ k < 32 ∧
    l.w.watching k = some x ∧ x.scr = some a ∧ (scratch s a.wg).bad = [] ∧ Tabs.get (scratch s a.wg).watch 0 (a.off / 4) ≠ x.ver :=
  ⟨sPark (.parkedWord x0), ref0, lPark (.parkedWord x0), 0, x0, _, rfl, rfl, by decide, rfl, rfl, rfl, by decide⟩
theorem witness_WaitsEnd_watchEndsTimeout : ∃ (s : State) (r : WRef) (l : Lane) (k : Nat) (x : Watch) (a : ScrLoc) (d : Nat), s.laneOf r = some l ∧
    l.wg.frozen = false ∧ k < 32 ∧ l.w.watching k = some x ∧ x.scr = some a ∧ (scratch s a.wg).bad = [] ∧ x.deadline = some d ∧ d ≤ s.clock ∧
    s.jobSaved l.wg.dcb = false :=
  ⟨sPark (.parkedWord x0), ref0, lPark (.parkedWord x0), 0, x0, _, 0, rfl, rfl, by decide, rfl, rfl, rfl, rfl, by decide, rfl⟩

def gGran : Wg := { wgOf (wPark (.parkedEvent (.ldfe ⟨0, 16⟩))) with scr := ⟨4096, [], [(16, .full)], [], []⟩ }
theorem witness_WaitsEnd_granuleOrPhaseEnds : ∃ (s : State) (r : WRef) (l : Lane) (k : Nat) (a : ScrLoc), s.laneOf r = some l ∧ l.wg.frozen = false ∧ k < 32 ∧
    (l.w.th k).st = .parkedEvent (.ldfe a) ∧ (scratch s a.wg).granule a.off = .full :=
  ⟨stOf gGran, ref0, laneIn gGran (wPark (.parkedEvent (.ldfe ⟨0, 16⟩))), 0, _, rfl, rfl, by decide, rfl, by decide⟩
theorem witness_WaitsEnd_granuleOrPhaseEndsPhase : ∃ (s : State) (r : WRef) (l : Lane) (k : Nat) (a : ScrLoc) (q : BitVec 4), s.laneOf r = some l ∧ l.wg.frozen = false ∧
    k < 32 ∧ (l.w.th k).st = .parkedEvent (.tbwait a q) ∧ ((scratch s a.wg).bar a.off).done q.toNat = true :=
  ⟨sPark (.parkedEvent (.tbwait ⟨0, 0⟩ 15)), ref0, lPark (.parkedEvent (.tbwait ⟨0, 0⟩ 15)), 0, _, _, rfl, rfl, by decide, rfl, by decide⟩

def gBar : Wg := { wgOf w0 with bars := [(3, ⟨1, [0], [], [(0, 3)], []⟩)], kbar := [(0, 3)] }
theorem witness_WaitsEnd_barriersEnd : ∃ (s : State) (n id : Nat) (g : Wg) (e : BarId), s.wg? n = some g ∧ g.frozen = false ∧ Tabs.find? g.bars id = some e ∧
    e.expect ≤ g.arrivals e :=
  ⟨stOf gBar, 0, 3, gBar, _, rfl, rfl, rfl, by decide⟩
/-- Warp 0 has arrived for the next episode of two, and its threads of the last one still wait. -/
def gFreed : Wg := { wgOf w0 with bars := [(3, ⟨2, [0], [], [], [(0, 3)]⟩)] }
theorem witness_WaitsEnd_barriersFreed : ∃ (s : State) (n id : Nat) (g : Wg) (e : BarId), s.wg? n = some g ∧ g.frozen = false ∧ Tabs.find? g.bars id = some e ∧
    g.arrivals e < e.expect ∧ e.freed ≠ [] :=
  ⟨stOf gFreed, 0, 3, gFreed, _, rfl, rfl, rfl, by decide, by decide⟩
theorem witness_WaitsEnd_barriersEndKiln : ∃ (s : State) (n : Nat) (g : Wg), s.wg? n = some g ∧ g.frozen = false ∧ g.kiln = [] ∧ g.kbar ≠ [] ∧
    g.warps.zipIdx.all (fun p => p.1.exited || g.kbar.any (fun e => e.1 == p.2)) = true :=
  ⟨stOf gBar, 0, gBar, rfl, rfl, rfl, by decide, rfl⟩

def wTrap : Warp := { w0 with trapWait := some ⟨none, false, 7, 0x40, 3, 4, [], 3⟩ }
def sTrap : State := ((stOf (wgOf wTrap)).wr Reg.hlstat 1).vwr 0 Reg.srbase 4
theorem witness_ServiceEvents_recordWritten : ∃ (s : State) (r : WRef) (l : Lane) (v : SvcWait), s.laneOf r = some l ∧ l.leader = none ∧ l.w.pendingRec = some v ∧
    ringRoom s l.wg.vf :=
  ⟨sTrap, ref0, laneIn (wgOf wTrap) wTrap, _, rfl, rfl, rfl, rfl, by decide, by decide⟩

theorem witness_ServiceEvents_doorbellRings : ∃ (s : State) (vf : BitVec 8) (tee : Bool), s.tdiLive vf = true ∧ tee = false :=
  ⟨s0.setTdi 5 1, 5, false, by decide, rfl⟩
theorem witness_ServiceEvents_doorbellRingsRings : ∃ (s : State) (vf : BitVec 8) (tee : Bool), (s.tdiLive vf = false ∨ tee = true) ∧ s.tdi vf ≠ 3 :=
  ⟨s0.setTdi 5 1, 5, true, .inr rfl, by decide⟩
theorem witness_ServiceEvents_doorbellRingsError : ∃ (s : State) (vf : BitVec 8) (tee : Bool), (s.tdiLive vf = false ∨ tee = true) ∧ s.tdi vf = 3 :=
  ⟨s0.setTdi 255 3, 255, false, .inl (by decide), by decide⟩

/-! ## Statements hold of something: events of the array, the copy engine, the transport -/

def mEnt : MEntry := matEntry (.mswap hd) ⟨hd, 8, none, none, none, true⟩ lMat
def gMq (e : MEntry) : Wg := { gMat with mq := [e], info := { LaunchInfo.one with nacc := 8 } }
theorem witness_MatrixEvents : ∃ (s : State) (n : Nat) (g : Wg) (e : MEntry) (l : Lane), s.wg? n = some g ∧ g.mEntry e.id = some e ∧ s.mReady n g e = true ∧
    isChained e.ins = false ∧ isSoak e.ins = false ∧ s.laneOf ⟨n, e.warp⟩ = some l ∧ readsScr e.ins = false :=
  ⟨stOf (gMq mEnt), 0, gMq mEnt, mEnt, laneIn (gMq mEnt) wMat, rfl, rfl, rfl, rfl, rfl, rfl, rfl⟩

def mRead : MEntry := { mEnt with ins := .mlds hd false (.scal 4) (.imm 5) none 0 }
theorem witness_MatrixEvents_reads : ∃ (s : State) (n : Nat) (g : Wg) (e : MEntry) (l : Lane), s.wg? n = some g ∧ g.mEntry e.id = some e ∧ s.mReady n g e = true ∧
    isChained e.ins = false ∧ isSoak e.ins = false ∧ s.laneOf ⟨n, e.warp⟩ = some l ∧ readsScr e.ins = true :=
  ⟨stOf (gMq mRead), 0, gMq mRead, mRead, laneIn (gMq mRead) wMat, rfl, rfl, rfl, rfl, rfl, rfl, rfl⟩

/-- A copy of one element with no step, recipe 1. -/
def soakX : Ext := BitVec.ofNat 64 (1 * 2 ^ 60 + 1 * 2 ^ 51)
def mSoak : MEntry := { mEnt with ins := .msoak hd false soakX, batch := 3 }
theorem witness_MatrixEvents_soak : ∃ (s : State) (n : Nat) (g : Wg) (e : MEntry), s.wg? n = some g ∧ g.mEntry e.id = some e ∧ s.mReady n g e = true ∧
    isChained e.ins = false ∧ isSoak e.ins = true ∧ soakBad g false (soakExt e.ins) = false :=
  ⟨stOf (gMq mSoak), 0, gMq mSoak, mSoak, rfl, rfl, rfl, rfl, rfl, rfl⟩

def mOut : MEntry := { mEnt with started := true, out := some ⟨[], none, true, false, none, [], none, none⟩ }
theorem witness_MatrixEvents_complete : ∃ (s : State) (n : Nat) (g : Wg) (e : MEntry) (o : MOut) (l : Lane), s.wg? n = some g ∧ g.mEntry e.id = some e ∧
    isSoak e.ins = false ∧ e.out = some o ∧ o.arv = none ∧ s.laneOf ⟨n, e.warp⟩ = some l :=
  ⟨stOf (gMq mOut), 0, gMq mOut, mOut, _, laneIn (gMq mOut) wMat, rfl, rfl, rfl, rfl, rfl, rfl⟩

theorem witness_MatrixEvents_iterate : ∃ (s : State) (n : Nat) (g : Wg) (e : MEntry), s.wg? n = some g ∧ g.frozen = false ∧
    g.mq.find? (fun x => isSoak x.ins && x.started && !x.stopped) = some e ∧ isChained e.ins = false ∧ s.soakYields n g e = false :=
  ⟨stOf (gMq { mSoak with started := true }), 0, gMq { mSoak with started := true }, _, rfl, rfl, rfl, rfl, rfl⟩

theorem witness_MatrixEvents_over : ∃ (s : State) (n : Nat) (g : Wg) (e : MEntry) (l : Lane), s.wg? n = some g ∧ g.frozen = false ∧
    g.mq.find? (fun x => isSoak x.ins && x.stopped) = some e ∧ s.laneOf ⟨n, e.warp⟩ = some l :=
  ⟨stOf (gMq { mSoak with stopped := true }), 0, gMq { mSoak with stopped := true }, _, laneIn (gMq { mSoak with stopped := true }) wMat, rfl, rfl, rfl, rfl⟩

def mChain : MEntry := { mEnt with ins := .msoak hd true soakX, chained := some 0, waitFrom := some 0 }
def gChain : Wg := { gMq mChain with kiln := [0] }
theorem witness_MatrixEvents_chain : ∃ (s : State) (n : Nat) (g : Wg) (k : Nat) (p : Pos) (c : Nat), s.wg? n = some g ∧
    g.mq.findSome? (fun e => if e.started then none else e.chained) = some k ∧ p ∈ s.chainAt g k ∧ p.e.waitFrom = some c ∧ c + 65536 ≤ s.clock ∧
    (s.chainAt g k).length < 4 :=
  ⟨{ stOf gChain with clock := 65536 }, 0, gChain, 0, ⟨0, mChain⟩, 0, rfl, rfl, List.mem_singleton.mpr rfl, rfl, by decide, by decide⟩

/-- A linear copy of 32 bytes inside segments of kind 0 and 1. -/
def cmd0 : CpyCmd := { id := 7, op := .ld, wg := 0, warp := 0, wslot := 0, thread := 0, pc := 0x40, po := 0, rseq := 0, tag := 0, member := false, held := false,
                       fe := false, mf := false, nobar := true, e := 0, coords := [], b := 0, bCrz := none, a := 0, c := 0, cBad := false, crz := none, fws := 0, sgRec := 0,
                       sgSrc := 0, sgDst := 0, sgBar := 0, stage := .running, lrec := [], recv := [], buf := [], lines := [], landed := 0, causes := [], k := 0,
                       anchor := none, waiting := false }
/-- The queue of core 0 holds one command. -/
def qCore (k : CpyCmd) : Core := ⟨[], [k], 8⟩
def sCmd (k : CpyCmd) : State := paged { sCpy with cores := [(0, qCore k)] }
def lCmd (k : CpyCmd) : Lane := { lCpy with core := qCore k }
def cRun : CpyCmd := { cmd0 with op := .lin, c := 32, recv := [(0, 0)] }
def cEnd : CpyCmd := { cmd0 with op := .lin, c := 32, recv := [(0, 1)] }
theorem witness_CopyEvents_run : ∃ (s : State) (core cmd : Nat) (k : CpyCmd) (l : Lane) (r : Nat × Nat), cmdAt s core cmd k l ∧ k.held = false ∧ k.waiting = false ∧
    s.frozenCmd k = false ∧ k.stage = .running ∧ Ctx.nextRecv ⟨s, l⟩ k = some r :=
  ⟨sCmd cRun, 0, 7, cRun, lCmd cRun, (0, 0), ⟨rfl, rfl⟩, rfl, rfl, rfl, rfl, rfl⟩
theorem witness_CopyEvents_complete : ∃ (s : State) (core cmd : Nat) (k : CpyCmd) (l : Lane), cmdAt s core cmd k l ∧ k.stage = .running ∧ k.held = false ∧
    k.mf = false ∧ (∀ r ∈ k.recv, k.total ≤ r.2) ∧ s.shelf = [] :=
  ⟨sCmd cEnd, 0, 7, cEnd, lCmd cEnd, ⟨rfl, rfl⟩, rfl, rfl, rfl, by decide, rfl⟩

/-- The granules of its destination are full, and it waits for empty ones. -/
def cFe : CpyCmd := { cRun with fe := true }
def gFe : Wg := { gCpy with scr := ⟨4096, [], [(0, .full)], [], []⟩ }
def sOf (g : Wg) (k : CpyCmd) : State := paged { stOf g with cores := [(0, qCore k)] }
def lOf (g : Wg) (k : CpyCmd) : Lane := { laneIn g wCpy with core := qCore k }
theorem witness_CopyEvents_wait : ∃ (s : State) (core cmd : Nat) (k : CpyCmd) (l : Lane), cmdAt s core cmd k l ∧ k.held = false ∧ k.waiting = false ∧
    s.frozenCmd k = false ∧ k.stage = .running ∧ Ctx.nextRecv ⟨s, l⟩ k = none ∧ (∃ r ∈ k.recv, r.2 < k.total) :=
  ⟨sOf gFe cFe, 0, 7, cFe, lOf gFe cFe, ⟨rfl, rfl⟩, rfl, rfl, rfl, rfl, rfl, (0, 0), by decide, by decide⟩
def cWt : CpyCmd := { cFe with waiting := true }
theorem witness_CopyEvents_empty : ∃ (s : State) (core cmd : Nat) (k : CpyCmd) (l : Lane), cmdAt s core cmd k l ∧ k.waiting = true ∧
    (Ctx.nextRecv ⟨s, l⟩ k).isSome :=
  ⟨sCmd cWt, 0, 7, cWt, lCmd cWt, ⟨rfl, rfl⟩, rfl, rfl⟩

/-- A `cpyst` lands its line at 0x80 as one item. -/
def cLand : CpyCmd := { cmd0 with op := .st, held := true, tag := 9, lines := [(0x80, [⟨0, some (3, none), some (0, none)⟩])] }
theorem witness_CopyEvents_land : ∃ (s : State) (core cmd : Nat) (k : CpyCmd) (l : Lane) (va : Nat) (cells : List NCell) (rest : List (Nat × List NCell))
    (s' : State) (dpa : Nat) (gen : BitVec 16) (key : BitVec 8) (rmt : Bool), cmdAt s core cmd k l ∧ k.held = true ∧ k.stage = .running ∧
    s.frozenCmd k = false ∧ k.lines = (va, cells) :: rest ∧ s.translate (some l.wg.core) l.wg.vf va .store true = (s', .ok dpa gen key rmt) ∧ k.member = false ∧
    (∀ r, l.w.region = some r → r.tag ≠ k.tag) :=
  ⟨sCmd cLand, 0, 7, cLand, lCmd cLand, 0x80, _, [], sCmd cLand, 0x1080, 0, 0, false, ⟨rfl, rfl⟩, rfl, rfl, rfl, rfl, rfl, rfl, fun _ h => nomatch h⟩

/-- A record of rank 1 with 32 elements of 8 bits (R255): at 0 of segment 0, for a box of 32 elements at coordinate 0. -/
def boxRec : List Byte := leBytes 8 0 ++ leBytes 8 0 ++ leBytes 8 (1 + 1 * 8 + 31 * 2 ^ 22) ++ leBytes 4 32 ++ leBytes 4 1 ++ leBytes 4 1 ++ leBytes 4 1 ++ leBytes 4 1
def cBox : CpyCmd := { cmd0 with stage := .queued, coords := [⟨0, false⟩], sgRec := lCpy.w.seg 0, sgSrc := lCpy.w.seg 0, sgDst := lCpy.w.seg 1,
                                 sgBar := lCpy.w.seg 1 }
def sBox : State := (sCmd cBox).memBytes 0 0x1000 boxRec
set_option maxRecDepth 40000 in
theorem witness_CopyEvents_start : ∃ (s : State) (core cmd : Nat) (k : CpyCmd) (l : Lane) (d : Ctx) (k' : CpyCmd), cmdAt s core cmd k l ∧
    Ctx.mayStart ⟨s, l⟩ k = true ∧ Ctx.startCmd ⟨s, l⟩ k = (d, .go k') ∧ k'.held = false ∧ k'.op ≠ .grp ∧ k'.op ≠ .lin :=
  ⟨sBox, 0, 7, cBox, lCmd cBox, _, _, ⟨rfl, rfl⟩, rfl, rfl, rfl, by decide, by decide⟩

/-- A request of group 0 for a box at slice 2; the shelf holds the box already, or 64 other ones. -/
def cAsk : CpyCmd := { cmd0 with op := .grp, stage := .shelf, anchor := some 2 }
def ent (i : Nat) (stage : ShelfStage) (k : Nat) : ShelfEnt := { id := i, slice := 2, part := 0, gid := 0, k := k, lrec := [], coords := [], awaited := [0], recv := [], deadline := 9, stage := stage }
def sAsk (es : List ShelfEnt) : State := { sCmd cAsk with shelf := es }
theorem witness_CopyEvents_join : ∃ (s : State) (core cmd : Nat) (k : CpyCmd) (l : Lane) (slice : Nat) (x : ShelfEnt), cmdAt s core cmd k l ∧ k.anchor = some slice ∧
    k.stage = .shelf ∧ (s.grpCount l.wg.part (cxGid k.e) k.wg k.k).shelf.find? (sameBox l k slice) = some x ∧ x.stage ≠ .delivering :=
  ⟨sAsk [ent 4 .holding 0], 0, 7, cAsk, lCmd cAsk, 2, ent 4 .holding 0, ⟨rfl, rfl⟩, rfl, rfl, by decide, by decide⟩
theorem witness_CopyEvents_alone : ∃ (s : State) (core cmd : Nat) (k : CpyCmd) (l : Lane) (slice : Nat), cmdAt s core cmd k l ∧ k.anchor = some slice ∧
    k.stage = .shelf ∧ (s.grpCount l.wg.part (cxGid k.e) k.wg k.k).shelf.find? (sameBox l k slice) = none ∧
    64 ≤ ((s.grpCount l.wg.part (cxGid k.e) k.wg k.k).shelf.filter (fun x => x.slice == slice)).length :=
  ⟨sAsk (List.replicate 64 (ent 4 .holding 1)), 0, 7, cAsk, lCmd cAsk, 2, ⟨rfl, rfl⟩, rfl, rfl, by decide, by decide⟩

/-! ### Collectives -/

/-- Eight bytes at `a`. -/
def at8 (a v : Nat) (s : State) : State := s.memBytes 0 a (leBytes 8 v)
/-- Communicator 0 of partition 0, at 0x3000: two ranks, which workgroups 0 and 1 of job `j` hold. -/
def commAt (j : Nat) (s : State) : State :=
  at8 0x4008 (2 ^ 32) (at8 0x3010 j (at8 0x3008 0x4000 (at8 0x3000 2 (s.wr (Reg.cmtbase 0) 0x3000))))
/-- An all-reduce of one element at 0x800 has been issued. -/
def co0 : CollOut := ⟨1, false, false, none, 0, 0x40, 0, 0, 0x800, 0x800, 1⟩
def wColl : Warp := { wCpy with colls := [co0], collCount := 1 }
def sColl0 : State := paged (stOf (wgOf wColl))
def sColl : State := commAt (sColl0.jobOf 0) sColl0
def mColl : Comm := (sColl.comm 0 0).getD ⟨0, [], 0⟩
def iColl : State × CollInst := sColl.instFor 0 0 0 mColl
def pColl : State × Option CollPart := iColl.1.readPart ref0 co0 mColl.np 0
set_option maxRecDepth 40000 in
theorem witness_CollectiveEvents : ∃ (s : State) (r : WRef) (t : Nat) (g : Wg) (w : Warp) (x : CollOut) (m : Comm) (k : Nat) (s1 : State) (i : CollInst) (s2 : State)
    (p : CollPart), s.warp? r = some (g, w) ∧ w.colls.find? (fun x => x.ticket.toNat == t && !x.sent) = some x ∧ (∀ j ∈ w.implicit, x.po ≤ j.po) ∧
    s.comm g.part (clCid x.e) = some m ∧ m.job = s.jobOf g.dcb ∧ m.rank g.info.index = some k ∧ s.instFor g.part (clCid x.e) k m = (s1, i) ∧
    s1.readPart r x m.np k = (s2, some p) ∧ i.abandoned = false ∧ CollInst.disagrees { i with parts := i.parts ++ [p] } = false ∧
    (clOp x.e = 3 → clRoot x.e < m.np) :=
  ⟨sColl, ref0, 1, wgOf wColl, wColl, co0, mColl, 0, iColl.1, iColl.2, pColl.1, _, rfl, rfl, by decide, rfl, rfl, rfl, rfl, rfl, rfl, rfl,
    by decide⟩

def part0 : CollPart := ⟨0, 0, 0, 1, 0, 0, 0, 0x40, 0, 0x800, 0x800, 1, [(5, none)]⟩
def inst0 : CollInst := ⟨6, 0, 0, 1, [(0, 0)], 0, 0, 0, [part0], false, false⟩
def sInst (x : CollInst) : State := { sColl with colls := [x] }
set_option maxRecDepth 40000 in
theorem witness_CollectiveEvents_complete : ∃ (s : State) (n : Nat) (x : CollInst) (s1 : State), s.colls.find? (fun x => x.id == n && !x.abandoned) = some x ∧
    x.doomed = false ∧ allHere x ∧ deliverAll { s with freeCtr := s.freeCtr + x.np * 2 ^ 45 } (x.results s.freeCtr) x.parts = some s1 :=
  ⟨sInst inst0, 6, inst0, _, rfl, rfl, by unfold allHere; decide, rfl⟩
def instLate : CollInst := { inst0 with np := 2, limit := 100, parts := [] }
theorem witness_CollectiveEvents_timeout : ∃ (s : State) (n : Nat) (x : CollInst), s.colls.find? (fun x => x.id == n && !x.abandoned) = some x ∧
    (∃ r ∈ x.locals, r.1 = 0) ∧ (x.locals.length ≠ x.np ∨ ¬ allHere x) ∧ x.limit ≠ 0 ∧ x.since + x.limit ≤ s.clock :=
  ⟨{ sInst instLate with clock := 100 }, 6, instLate, rfl, by decide, .inl (by decide), by decide, by decide⟩
def wCw : Warp := { wPark (.parkedEvent (.collwait 1)) with collCount := 1 }
theorem witness_CollectiveEvents_wake : ∃ (s : State) (r : WRef) (l : Lane) (k : Nat) (t : Word), s.laneOf r = some l ∧ l.wg.frozen = false ∧ k < 32 ∧
    (l.w.th k).st = .parkedEvent (.collwait t) ∧ Ctx.collDone ⟨s, l⟩ t = true ∧ Ctx.collFault ⟨s, l⟩ t = none :=
  ⟨stOf (wgOf wCw), ref0, laneIn (wgOf wCw) wCw, 0, 1, rfl, rfl, by decide, rfl, rfl, rfl⟩

/-! ## Words of the spec's encodings -/

theorem test_word_shfl : decode 0 (wordWith 0 (baseWord 5 0x310 0x301 0x002 0 0x07 0 7 0x08D 0 0 0)) =
    .ok (.shfl ⟨7, false, false⟩ (.rot true) (.vec 7) (.vec 2) (.imm 1) (.imm 16) 0) := by decide
theorem test_word_bar : decode 8 (wordWith 0 (baseWord 0x2F 0 0 0x304 0 0 0 7 0x0C8 0 0 0)) = .ok (.bar ⟨7, false, false⟩ 15 false (some (.imm 4))) := by decide
theorem test_word_trap : decode 16 (wordWith 0x77 (baseWord 0 0x003 0x002 0x001 0 0xFF 0 7 0x106 0 0 1)) =
    .ok (.trap ⟨7, false, false⟩ 0xFF (.vec 1) (.vec 2) (.vec 3) 0x77) := by decide
theorem test_word_rdsys : decode 24 (wordWith 0 (baseWord 1 0 0 0x018 0 0x3E 0 7 0x107 0 0 0)) = .ok (.rdsys ⟨7, false, false⟩ true 0x3E 0x18) := by decide
theorem test_word_coll : decode 0 (wordWith 0x0C10000000070000 (baseWord 0 0 0x301 0x104 0 0x06 0 7 0x147 0 0 2)) =
    .ok (.coll ⟨7, false, false⟩ 6 (.scal 4) (.imm 1) 0x0C10000000070000) := by decide
theorem test_word_msoak : decode 16 (wordWith 0x1000000000000000 (baseWord 1 0 0 0 0 0 0 7 0x18D 0 0 2)) =
    .ok (.msoak ⟨7, false, false⟩ true 0x1000000000000000) := by decide
theorem test_word_noOpcode : decode 0 (wordWith 0 (baseWord 0 0 0 0 0 0 0 7 0x3FF 0 0 0)) = .error .opcode := by decide
/-- R81: bit 26 is reserved. -/
theorem test_word_reserved : (decode 0 (wordWith 0 (baseWord 1 0 0x300 0x001 1 0x02 0 7 0x001 0 0 0))).isOk = false := by decide

/-! ## Ill-formed terms, which the check refuses -/

theorem test_wf_uniform : (Instr.iadd hd .s32 false (.scal 2) (.vec 1) (.imm 5) 0).wf = false ∧ (Instr.iadd hd .s32 false (.scal 2) (.scal 1) (.imm 5) 0).wf = true := by decide
theorem test_wf_literal : (Instr.iadd hd .s32 false (.vec 2) (.vec 1) (.imm 5) 9).wf = false ∧ (Instr.iadd hd .s32 false (.vec 2) (.vec 1) .lit 9).wf = true := by decide
theorem test_wf_literalFloat : (Instr.fex2 hd false (.vec 3) (.vec 1) 9).wf = false := by decide
theorem test_wf_noLiteral : (Instr.ld hd true 6 (.vec 4) .lit 0).wf = false ∧ (Instr.ld hd true 6 (.vec 4) (.imm 0) 0).wf = true := by decide
theorem test_wf_scale : (Instr.mma hd true false false (.scal 4) (.imm 5) (some (.imm 1)) 0x4380000000300000).wf = false ∧
    (Instr.mma hd true false false (.scal 4) (.imm 5) none 0x4380000000300000).wf = true := by decide
theorem test_wf_scaleLoad : (Instr.mlds hd false (.scal 4) (.imm 5) (some (.imm 1)) 0x4380000000300000).wf = false := by decide
theorem test_wf_store : (Instr.mstore hd false (.scal 4) (.imm 5) (BitVec.ofNat 64 (2 ^ 48))).wf = false ∧ (Instr.mstoreSs hd false (.scal 4) 0).wf = false ∧
    (Instr.mstoreMc hd false (.scal 4) 0).wf = false := by decide

/-! ## Worked examples of the spec -/

/-- R471: a core that fails pattern 17 at cycle 87,180,000. -/
theorem test_cslog : (({ s0 with clock := 87180000 } : State).retireCore 36 17).rd Reg.cslog = 0x0000000532002445 := by decide +kernel
/-- R470, R471: the pass of core 37 that began at 10.05 ms succeeds: `last` 184, `npass` 1, by the field table (log 109). -/
theorem test_csst : (match exec (.coneSweepScanDone 1 false) { s0.setSweep 1 { s0.sweep 1 with pass := some (37, true, 12060000) } with clock := 12780000 } with
    | .next t => t.rd (Reg.csst 37)
    | _ => 0) = 0x00000000B8000100 := by decide +kernel
/-- R336, R337: three warps of 32 registers, four rows of scratchpad, three held stores. -/
def wHeld : Warp := wItem item0
theorem test_imageSize : ({ wgOf w0 with info := { LaunchInfo.one with nregs := 32, scrRows := 4 }, warps := [wHeld, wHeld, wHeld] } : Wg).sections.sum = 49920 := by
  decide +kernel
/-- R371: its glaze image. -/
theorem test_glazeSize : imageLen 50176 = 55808 := by decide
/-- R356, R460: VF 17 of partition 3 is locked, runs, and meets a write to `SRBASE` with the TEE attribute. -/
def sVf : State := { s0.wr (Reg.vfpart 17) 0x23 with up := true, spdm := ⟨[], 5, []⟩ }
def seen (o : Host.Outcome State Fault Refusal) : DWord × DWord := match o with
  | .next t => (t.vfstat 17, t.rd (Reg.tdierr 17))
  | _ => (0, 0)
theorem test_vfstat : seen (.next sVf) = (0x311, 0) ∧ seen (exec (.lockInterfaceRequest 17 []) sVf) = (0x10311, 0) ∧
    seen (exec (.startInterfaceRequest 17 []) (sVf.setTdi 17 1)) = (0x20311, 0) := by decide +kernel
theorem test_tdierr : seen (exec (.registerWrite ⟨some 17, 0x2000, true⟩ 5) (sVf.setTdi 17 2)) = (0x30311, 0x0000200000000003) := by decide +kernel

/-- R150: `iadd v2, v1, #5`, placed where the next step fetches, gives 5 and goes on 8 bytes further. -/
theorem test_step : (match step (State.reset.withFetchWord 64 (baseWord 0 0 0x305 0x001 0 0x02 0 7 0x001 0 0 0)) with
    | .next t => (t.wg? 0).map (fun g => g.warps.map (fun w => (((w.th 0).vreg 2).val, (w.th 0).pc)))
    | _ => none) = some [(5, loadVa + 8)] := by decide +kernel

/-! ## Statements hold of something: placement, stops -/

/-- Memory with a kernel header at 0x1040 (version 1, 4 registers), a launch record at 0x2000 (header at 0x40 of page 0, one workgroup of
one thread), and six DCBs from 0x8000 on, 128 bytes apart, one below the other (R315): a device, a partition, a virtual function, a job, whose
save area is the 1 MiB at 0x100000, a stream and a DCB of level 5; `mode` is overridden in each. -/
def cells : List Host.Cell :=
  [(0x1040, 1), (0x1042, 4),
   (0x2000, 0x40), (0x2010, 1), (0x2014, 1), (0x2016, 1), (0x2018, 1), (0x201A, 1), (0x201C, 1),
   (0x8008, 0x80), (0x8009, 0x80), (0x801A, 8),
   (0x8081, 0x80), (0x8089, 0x81), (0x8098, 1), (0x809A, 8),
   (0x8100, 0x80), (0x8101, 0x80), (0x8108, 0x80), (0x8109, 0x81), (0x8118, 2), (0x811A, 8),
   (0x8181, 0x81), (0x8189, 0x82), (0x8198, 3), (0x819A, 8), (0x81C2, 0x10), (0x81CA, 0x10),
   (0x8200, 0x80), (0x8201, 0x81), (0x8208, 0x80), (0x8209, 0x82), (0x8218, 4), (0x821A, 8),
   (0x8281, 0x82), (0x8298, 5), (0x829A, 8)]
def devAt : Nat := 0x8000
def jobAt : Nat := 0x8180
def leafAt : Nat := 0x8280
/-- Windows of partition 0 on core 0: 32 group slots and 8 register rows. -/
def windows (s : State) : State := s.wr (Reg.twin 0 0) (BitVec.ofNat 64 (32 * 2 ^ 5 + 2 ^ 18))
/-- A machine with this memory. -/
def inTree (s : State) : State :=
  windows (paged { s with mem := { s.mem with bytes := cells }, dcbs := [0x8000, 0x8080, 0x8100, 0x8180, 0x8200, 0x8280], up := true })
def sTree : State := inTree State.reset
/-- The header at 0x1040. -/
def hdr0 : Header := ⟨0x40001, 0, 0, 0, true⟩
def node0 : Node := { dcb := leafAt, lrec := 0x2000, hdr := hdr0, succ := [], counter := 0, ready := some 0, n := 1, kg := 0, sword := 0, begun := true, given := 0, left := 1 }
def sNode : State := { sTree with nodes := [(0, node0)] }
set_option maxRecDepth 40000 in
theorem witness_PlacementEvents_bind : ∃ (s : State) (d k : Nat) (x : Node) (s1 : State) (y : Node), Tabs.find? s.nodes k = some x ∧ s.bindable d k x = true ∧
    (∀ e ∈ s.nodes, s.nodeFirst e.2 x = true → s.bindable d e.1 e.2 = false) ∧ begunNode s x = (s1, some y) ∧
    (y.sword.extractLsb' 0 4 = 0 ∨ (y.sword.extractLsb' 0 4).toNat.testBit d = true) :=
  ⟨sNode, 3, 0, node0, sNode, node0, rfl, by decide +kernel, by decide +kernel, rfl, .inl (by decide)⟩

def bind0 : Bind :=
  { lrec := 0x2000, hdr := hdr0, dcb := leafAt, first := 0, count := 1, cmask := 15, cwait := 1, valid := true, resume := false, priv := false,
    paired := false, stop := false, prio := 0, img := 0, placed := 0, done := 0, node := 0, kg := 0, imgs := [], last := none, shares := [], quotas := [],
    frag := [], since := 0, hold := none }
def sBind (b : Bind) : State := { sTree with binds := [(0, b)] }
/-- Dispatch plans the bind at slot 0 of die 0 on core 0, and can read the presets. -/
def plansOn0 (s : State) (b : Bind) : Bool :=
  match s.plan 0 0 b with
  | some (lead, [], some (l, h)) => (lead.head?.map Spot.core == some 0) && (s.presets (s.vfOf b.dcb) l h).2.isSome
  | _ => false
theorem sBind_plans : plansOn0 (sBind bind0) bind0 = true := by decide +kernel
theorem witness_PlacementEvents_place : ∃ (s : State) (d slot core : Nat) (b : Bind) (lead : List Spot) (l : Launch) (h : Header) (s2 : State)
    (pre : Presets), s.bind? d slot = some b ∧ b.resume = false ∧ s.earlierServed d slot b = false ∧
    s.plan d slot b = some (lead, [], some (l, h)) ∧ lead.head?.map Spot.core = some core ∧ s.presets (s.vfOf b.dcb) l h = (s2, some pre) := by
  have h := sBind_plans
  unfold plansOn0 at h
  split at h
  · next lead l x e =>
    obtain ⟨hc, hp⟩ := (Bool.and_eq_true _ _).mp h
    obtain ⟨pre, hp⟩ := Option.isSome_iff_exists.mp hp
    exact ⟨sBind bind0, 0, 0, 0, bind0, lead, l, x, _, pre, rfl, rfl, rfl, e, by simpa using hc, Prod.ext rfl hp⟩
  · cases h

/-- A saved workgroup of the job with 4 rows of scratchpad; its image's header stands at 0x100000 (R336). -/
def gImg : Wg := { wgOf w0 with info := { LaunchInfo.one with nregs := 4, scrRows := 4 }, dcb := leafAt }
def img0 : Img := { id := 5, job := jobAt, g := gImg, mode := 1, size := 49920, pword := 0, holds := [], cmds := [] }
def header0 : List Host.Cell := [(0x100000, 0x58), (0x100001, 0x43), (0x100002, 0x34), (0x100003, 0x53), (0x100004, 1), (0x100006, 1)]
def back0 : Bind := { bind0 with resume := true, imgs := [0x100000], img := 0x100000, frag := [(0, 0)] }
/-- The windows hold 8 rows of scratchpad, from row 8 on; the workgroups `gs` stand on core 0. -/
def sSaved (b : Bind) (gs : List (Nat × Wg)) : State :=
  let s := inTree State.reset
  { s with mem := { s.mem with bytes := cells ++ header0 }, images := [(0x100000, img0)], binds := [(0, b)], wgs := gs, clock := 64, nextWg := 6 }.wr
    (Reg.twin 0 0) (BitVec.ofNat 64 (32 * 2 ^ 5 + 2 ^ 18 + 2 ^ 26 + 2 ^ 33))
def resumesOn0 (s : State) (b : Bind) : Bool := match s.planResume 0 0 b with
  | some (lead, _) => lead.head?.map Spot.core == some 0
  | none => false
theorem sSaved_resumes : resumesOn0 (sSaved back0 []) back0 = true := by decide +kernel
theorem witness_PlacementEvents_resume : ∃ (s : State) (d slot core : Nat) (b : Bind) (lead trail : List Spot), s.bind? d slot = some b ∧ b.resume = true ∧
    b.open_ = true ∧ s.earlierServed d slot b = false ∧ (∀ a ∈ s.nextAddrs b, s.imageRefused (s.partOf b.dcb) a = false) ∧
    s.planResume d slot b = some (lead, trail) ∧ lead.head?.map Spot.core = some core := by
  have h := sSaved_resumes
  unfold resumesOn0 at h
  split at h
  · next lead trail e => exact ⟨sSaved back0 [], 0, 0, 0, back0, lead, trail, rfl, rfl, rfl, rfl, by decide +kernel, e, by simpa using h⟩
  · cases h

/-- The workgroup has ended. -/
def gEnd : Wg := wgOf { w0 with thr := w0.thr.map (fun x => { x with st := .exited }) }
theorem witness_PlacementEvents_end : ∃ (s : State) (n : Nat) (g : Wg), s.wg? n = some g ∧ g.pair = none ∧ g.finished = true ∧ s.drains n g = false ∧
    g.stop.any (fun p => p.mode != 0 && decide (1 ≤ p.stage)) = false :=
  ⟨stOf gEnd, 0, gEnd, rfl, rfl, by decide, rfl, rfl⟩
def nodeEnd : Node := { node0 with given := 1, left := 0, succ := [1] }
theorem witness_PlacementEvents_node : ∃ (s : State) (d n : Nat) (x : Node), Tabs.find? s.nodes (65536 * d + n) = some x ∧ x.begun = true ∧ x.n ≤ x.given ∧
    x.left = 0 :=
  ⟨{ s0 with nodes := [(65536 * 3 + 65535, nodeEnd)] }, 3, 65535, nodeEnd, rfl, rfl, by decide, rfl⟩

/-- A workgroup of another job holds rows 11 and 12 of the 8 from row 8 on: 6 are free, no 4 of them together. -/
def gOcc : Wg := { wgOf w0 with info := { LaunchInfo.one with nregs := 4, scrRows := 2 }, scrBase := 11 }
def sFrag (b : Bind) : State := sSaved b [(0, gOcc)]
theorem witness_PlacementEvents_compact : ∃ (s : State) (d slot core : Nat) (b : Bind) (kept : List Kept) (vs : List Nat), s.bind? d slot = some b ∧
    ripe s (256 * d + slot) b core ∧ b.hold = none ∧
    s.compactAll (256 * d + slot) (s.partOf b.dcb) (s.jobOf b.dcb) (s.compactFor (256 * d + slot) b core) = some (kept, vs) := by
  obtain ⟨r, hr⟩ : ∃ r, (sFrag back0).compactAll 0 ((sFrag back0).partOf leafAt) ((sFrag back0).jobOf leafAt) ((sFrag back0).compactFor 0 back0 0) = some r :=
    Option.isSome_iff_exists.mp (by decide +kernel)
  exact ⟨sFrag back0, 0, 0, 0, back0, r.1, r.2, rfl, by unfold ripe; decide +kernel, rfl, hr⟩
def backKiln : Bind := { back0 with kg := 1 }
theorem witness_PlacementEvents_kiln : ∃ (s : State) (d slot kiln : Nat) (b : Bind) (c : Nat) (vs : List Nat), s.bind? d slot = some b ∧ b.resume = true ∧
    b.kg ≠ 0 ∧ b.open_ = true ∧ b.hold = none ∧ b.since + 64 * b.cwait.toNat ≤ s.clock ∧ s.planResume d slot b = none ∧
    bestRange ((b.sites d).filterMap (fun c => (s.kilnVictims (256 * d + slot) b c).map (fun r => (c, r.2, r.1)))) = some (c, vs) ∧ c / 4 = kiln :=
  ⟨sFrag backKiln, 0, 0, 0, backKiln, 0, [0], rfl, rfl, by decide, rfl, rfl, by decide, by
    rw [← Option.not_isSome_iff_eq_none]; decide +kernel, by decide +kernel, rfl⟩

/-! ### Stops -/

def stopReq (mode : Nat) : StopReq := ⟨3, jobAt, mode, 2, none, 0, 0⟩
def gRun : Wg := { wgOf w0 with dcb := leafAt }
def gAt (stage mode : Nat) : Wg := { gRun with stop := some ⟨mode, stage, false, []⟩ }
def sStop (g : Wg) (mode : Nat) : State := { inTree State.reset with wgs := [(0, g)], stops := [stopReq mode], binds := [(0, bind0)] }
theorem witness_StopEvents_signal : ∃ (s : State) (n : Nat) (g : Wg) (q : StopReq), s.wg? n = some g ∧ s.stopFor g.dcb = some q ∧ g.stop = none :=
  ⟨sStop gRun 1, 0, gRun, stopReq 1, rfl, rfl, rfl⟩
def gMove : Wg := { gRun with move := true }
theorem witness_StopEvents_own : ∃ (s : State) (n : Nat) (g : Wg), s.wg? n = some g ∧ s.stopFor g.dcb = none ∧ g.move = true :=
  ⟨stOf gMove, 0, gMove, rfl, rfl, rfl⟩
theorem witness_StopEvents_point : ∃ (s : State) (n : Nat) (g : Wg), s.wg? n = some g ∧ g.kiln = [] ∧ s.unitAt [n] 0 = true ∧ s.atPoint n g = true ∧
    g.stop.any (fun p => p.mode == 2) = false :=
  ⟨sStop (gAt 0 1) 1, 0, gAt 0 1, rfl, rfl, rfl, rfl, rfl⟩
theorem witness_StopEvents_roll : ∃ (s : State) (n : Nat) (g : Wg), s.wg? n = some g ∧ g.kiln = [] ∧ s.unitAt [n] 1 = true ∧
    (∀ p ∈ g.warps.zipIdx, s.warpSettled n p.2 g p.1 = true) ∧ g.stop.any (fun p => p.mode == 1) = true :=
  ⟨sStop (gAt 1 1) 1, 0, gAt 1 1, rfl, rfl, rfl, by decide, rfl⟩
theorem witness_StopEvents_keep : ∃ (s : State) (n : Nat) (g : Wg), s.wg? n = some g ∧ g.kiln = [] ∧ s.unitAt [n] 1 = true ∧
    (∀ p ∈ g.warps.zipIdx, s.warpSettled n p.2 g p.1 = true) ∧ g.stop.any (fun p => p.mode == 1) = false :=
  ⟨sStop (gAt 1 2) 2, 0, gAt 1 2, rfl, rfl, rfl, by decide, rfl⟩
theorem witness_StopEvents_late : ∃ (s : State) (n : Nat) (q : StopReq), s.stops.find? (fun q => q.id == n) = some q ∧ q.since + q.deadline ≤ s.clock ∧
    s.late q = true ∧ (s.rd Reg.stpx).getLsbD 0 = false ∧ q.mode ≠ 1 :=
  ⟨sStop gRun 2, 3, stopReq 2, rfl, by decide, by decide +kernel, rfl, by decide⟩
theorem witness_StopEvents_reset : ∃ (s : State) (n : Nat) (q : StopReq), s.stops.find? (fun q => q.id == n) = some q ∧ q.since + q.deadline ≤ s.clock ∧
    s.late q = true ∧ q.mode = 1 ∧ s.level q.dcb ≠ 0 :=
  ⟨sStop gRun 1, 3, stopReq 1, rfl, by decide, by decide +kernel, rfl, by decide +kernel⟩
def stopDev : StopReq := { stopReq 1 with dcb := devAt }
theorem witness_StopEvents_device : ∃ (s : State) (n : Nat) (q : StopReq), s.stops.find? (fun q => q.id == n) = some q ∧ q.since + q.deadline ≤ s.clock ∧
    s.late q = true ∧ q.mode = 1 ∧ s.level q.dcb = 0 :=
  ⟨{ sStop gRun 1 with stops := [stopDev] }, 3, stopDev, rfl, by decide, by decide +kernel, rfl, by decide +kernel⟩
def sSave : State := sStop (gAt 2 1) 1
theorem witness_StopEvents_written : ∃ (s : State) (n : Nat) (g : Wg) (b : Bind) (s2 : State) (h : Wg), s.wg? n = some g ∧ g.kiln = [] ∧ s.unitAt [n] 2 = true ∧
    s.mayWrite n g = true ∧ s.bind? g.die g.bind = some b ∧
    s.saveUnit [n] b g ((g.stop.getD ⟨1, 2, false, []⟩).own && !s.stops.any (fun q => q.mode != 0 && s.under g.dcb q.dcb))
      (g.stop.getD ⟨1, 2, false, []⟩).avoid = some s2 ∧ s2.wg? n = some h := by
  obtain ⟨s2, h⟩ : ∃ s2, sSave.saveUnit [0] bind0 (gAt 2 1) (((gAt 2 1).stop.getD ⟨1, 2, false, []⟩).own && !sSave.stops.any
      (fun q => q.mode != 0 && sSave.under (gAt 2 1).dcb q.dcb)) ((gAt 2 1).stop.getD ⟨1, 2, false, []⟩).avoid = some s2 :=
    Option.isSome_iff_exists.mp (by rw [saveUnit_isSome]; decide +kernel)
  exact ⟨sSave, 0, gAt 2 1, bind0, s2, gAt 2 1, rfl, rfl, rfl, rfl, rfl, h, by unfold State.wg?; rw [saveUnit_wgs h]; rfl⟩
/-- A bind keeps what the workgroup would free. -/
def bindHold : Bind := { bind0 with hold := some ⟨0, [], [0]⟩ }
theorem witness_StopEvents_victim : ∃ (s : State) (n : Nat) (g : Wg), s.wg? n = some g ∧ s.stopFor g.dcb = none ∧ g.move = false ∧ s.nextVictim n = true ∧ g.stop = none :=
  ⟨{ stOf gRun with binds := [(0, bindHold)] }, 0, gRun, rfl, rfl, rfl, by decide, rfl⟩

/-! ## Statements hold of something: requests of the mailbox -/

/-- The firmware's channel 0 holds a request (R349, R350). -/
def asked (code : Nat) (load : List Byte) (s : State) : State :=
  let all := leBytes 2 code ++ leBytes 2 load.length ++ leBytes 4 0 ++ load
  { ((List.range ((all.length + 7) / 8)).foldl (fun (s : State) i => s.wr (Reg.mbox 0 + 0x100 + 8 * i) (BitVec.ofNat 64 (leNat ((all.drop (8 * i)).take 8)))) s).wr
    (Reg.mbox 0) 1 with chans := [0] }
/-- `leafAt` is idle, has no child and no bind. -/
def sReq (code : Nat) (load : List Byte) : State := asked code load sTree

def dcbWriteReq : State := sReq 1 (leBytes 8 leafAt ++ leBytes 4 0x1E ++ leBytes 4 1 ++ [5])
theorem witness_MailboxRequests_write : due dcbWriteReq 0 1 17 ∧ dcbWriteReq.req 0 0 8 = leafAt ∧ dcbWriteReq.req 0 8 4 = 0x1E ∧ dcbWriteReq.req 0 12 4 = 1 ∧
    (dcbWriteReq.dcbFrozen leafAt = false ∧ (dcbWriteReq.dcbBytes leafAt 0x1E (dcbWriteReq.reqBytes 0 16 1)).dcbSound leafAt = true) := by
  unfold due; decide +kernel
/-- A DCB of level 5 at 0x9000 that is not linked yet. -/
def sNew : State := { sTree with mem := { sTree.mem with bytes := cells ++ [(0x9018, 5)] } }
def linkReq : State := asked 2 (leBytes 8 0x8200 ++ leBytes 8 0x9000) sNew
theorem witness_MailboxRequests_link : due linkReq 0 2 16 ∧ linkReq.req 0 0 8 = 0x8200 ∧ linkReq.req 0 8 8 = 0x9000 ∧ linkReq.named 0x8200 = true ∧
    linkReq.dcbSound 0x9000 = true ∧ linkReq.level 0x9000 = linkReq.level 0x8200 + 1 ∧ linkReq.dcbs.contains 0x9000 = false ∧ linkReq.dcbFrozen 0x8200 = false := by
  unfold due; decide +kernel
def unlinkReq : State := sReq 3 (leBytes 8 leafAt)
theorem witness_MailboxRequests_unlink : due unlinkReq 0 3 8 ∧ unlinkReq.req 0 0 8 = leafAt ∧ unlinkReq.named leafAt = true ∧ unlinkReq.level leafAt ≠ 0 ∧
    [0, 3, 5].contains (unlinkReq.dcbState leafAt) = true ∧ unlinkReq.child leafAt = 0 ∧ unlinkReq.binds ++ unlinkReq.bindq = [] ∧
    unlinkReq.dcbFrozen leafAt = false ∧ unlinkReq.dcbFrozen (unlinkReq.parent leafAt) = false := by
  unfold due; decide +kernel
/-- Tables at 0x200000 and 0x400000 that send page 0 to 0x4000000 (R288), where the header stands: dispatch has no TLB. -/
def sPages : State := (((sTree.memPut 0 0x200000 8 0x400001).memPut 0 0x400000 8 0x400004B).memPut 0 0x4000040 8 0x40001).wr (Reg.vfroot 0) 0x200001
def submitReq : State := asked 4 (leBytes 8 leafAt ++ leBytes 8 0x2000 ++ leBytes 48 0) sPages
theorem freeNode_empty (s : State) (d : Nat) (h : s.nodes = []) : s.freeNode d = some 0 := by
  unfold State.freeNode
  rw [h, List.find?_range_eq_some]
  exact ⟨rfl, List.mem_range.mpr (by decide), by omega⟩
theorem witness_MailboxRequests_submit : ∃ (s s1 : State) (ch : Nat) (l : Launch × Header) (i : Nat), due s ch 4 64 ∧ submits s ch ∧
    s.launch? (s.req ch 8 8) (s.req ch 0 8) = (s1, some l) ∧
    s1.freeNode (Config.streamDie ((s1.atLevel (s.req ch 0 8) 4).getD 0) % 4) = some i := by
  have hl : ((submitReq.launch? (submitReq.req 0 8 8) (submitReq.req 0 0 8)).2.isSome &&
      (submitReq.launch? (submitReq.req 0 8 8) (submitReq.req 0 0 8)).1.nodes.isEmpty) = true := by decide +kernel
  generalize hL : submitReq.launch? (submitReq.req 0 8 8) (submitReq.req 0 0 8) = L at hl
  obtain ⟨s1, o⟩ := L
  obtain ⟨h1, h2⟩ := (Bool.and_eq_true _ _).mp hl
  obtain ⟨l, rfl⟩ := Option.isSome_iff_exists.mp h1
  have hd : due submitReq 0 4 64 ∧ submits submitReq 0 := by unfold due submits; decide +kernel
  exact ⟨submitReq, s1, 0, l, 0, hd.1, hd.2, hL, freeNode_empty _ _ (List.isEmpty_iff.mp h2)⟩
def stopAsk : State := sReq 5 (leBytes 8 jobAt)
theorem witness_MailboxRequests_stop : due stopAsk 0 5 8 ∧ stopAsk.req 0 0 8 = jobAt ∧ stopAsk.named jobAt = true ∧ stopAsk.vfFailed jobAt = false ∧
    stopAsk.dcbState jobAt < 2 := by unfold due; decide +kernel
/-- The job is saved: state 3. -/
def saved (s : State) : State := s.setDcbState jobAt 3
def resumeAsk : State := asked 6 (leBytes 8 jobAt) (saved (sSaved back0 []))
theorem witness_MailboxRequests_resume : due resumeAsk 0 6 8 ∧ resumeAsk.req 0 0 8 = jobAt ∧ resumeAsk.named jobAt = true ∧ resumeAsk.vfFailed jobAt = false ∧
    [3, 5].contains (resumeAsk.dcbState jobAt) = true ∧ resumeAsk.refusals jobAt = [] := by unfold due; decide +kernel
/-- The image's version is 2. -/
def refuseAsk : State := resumeAsk.memPut 0 0x100004 1 2
theorem witness_MailboxRequests_refuse : due refuseAsk 0 6 8 ∧ refuseAsk.req 0 0 8 = jobAt ∧ refuseAsk.named jobAt = true ∧ refuseAsk.vfFailed jobAt = false ∧
    [3, 5].contains (refuseAsk.dcbState jobAt) = true ∧ refuseAsk.refusals jobAt = [0x100000] := by unfold due; decide +kernel
def windowReq : State := sReq 7 (leBytes 4 127 ++ leBytes 4 0 ++ leBytes 168 0)
theorem witness_MailboxRequests_window : due windowReq 0 7 176 ∧ windowReq.req 0 0 4 = 127 ∧ windowReq.req 0 4 4 = 0 ∧
    windowsOk (BitVec.ofNat 64 (windowReq.req 0 8 8)) (askedTwins windowReq 0) = true ∧ windowReq.wgs = [] ∧ windowReq.images = [] ∧
    windowReq.pwordFrozen 127 = false ∧
    (∀ e ∈ (askedTwins windowReq 0).zipIdx, windowReq.partFrozen e.2 = true → e.1 = windowReq.rd (Reg.twin 127 e.2)) := by
  unfold due; decide +kernel
def keyReq : State := sReq 8 (leBytes 4 255 ++ leBytes 4 19 ++ leBytes 4 0)
theorem witness_MailboxRequests_key : due keyReq 0 8 12 ∧ keyReq.req 0 0 4 = 255 ∧ keyReq.req 0 4 4 = 19 ∧ (keyReq.rd (Reg.keyown 255)).getLsbD 5 = false ∧
    keyReq.partFrozen 19 = false := by unfold due; decide +kernel
def measureReq (n : Nat) : State := sReq 9 (leBytes 4 0 ++ leBytes 4 0 ++ leBytes 8 0x2000 ++ leBytes 8 n)
theorem witness_MailboxRequests_measure : due (measureReq 64) 0 9 24 ∧ (measureReq 64).req 0 0 4 = 0 ∧ (measureReq 64).req 0 4 4 = 0 ∧
    dpaAssigned ((measureReq 64).req 0 8 8) ((measureReq 64).req 0 16 8) = true ∧ (measureReq 64).req 0 16 8 ≠ 0 := by unfold due; decide +kernel
theorem witness_MailboxRequests_clear : due (measureReq 0) 0 9 24 ∧ (measureReq 0).req 0 0 4 = 0 ∧ (measureReq 0).req 0 4 4 = 0 ∧
    (measureReq 0).req 0 16 8 = 0 ∧ (measureReq 0).partFrozen 0 = false := by unfold due; decide +kernel
theorem witness_MailboxRequests_unassigned : (sReq 12 []).reqCode 0 = 12 ∧ (sReq 12 []).busyCh 0 = true ∧ (sReq 12 []).chans.contains 0 = true ∧
    (sReq 12 []).up = true := by decide +kernel


/-! ## Statements hold of something: glazes, registers, pairs, sweeps -/

def glazeReq : State := asked 10 (leBytes 4 0 ++ leBytes 4 0 ++ leBytes 8 jobAt ++ leBytes 8 0x200000 ++ leBytes 8 (2 ^ 40) ++ leBytes 4 7) (saved sTree)
theorem witness_GlazeRequests_write : ∃ (s s1 : State) (secs : List GSec) (pages : List Nat), due s 0 10 36 ∧ s.req 0 0 4 < 2 ∧ s.req 0 4 4 = 0 ∧
    s.jobNamed (s.req 0 8 8) = true ∧ (s.req 0 0 4 = 0 → ∀ e ∈ s.dirEntries (s.req 0 16 8) 65536, e.1 = 0 ∨ (e.1 = 1 ∧ e.2.2 % 4 = 0)) ∧
    (windowOf (s.req 0 24 8) = 1 ∨ 16 ≤ windowOf (s.req 0 24 8)) ∧ s.req 0 24 8 < 2 ^ 52 ∧ s.vfFailed (s.req 0 8 8) = false ∧
    s.content (s.req 0 0 4) (s.req 0 8 8) (s.req 0 16 8) = (s1, .ok secs pages) ∧ s1.stagingRoom (stackPages pages) = true := by
  have h : glazeReq.dirEntries (glazeReq.req 0 16 8) 65536 = [] := by
    have e : glazeReq.memNat 0 (glazeReq.req 0 16 8 + 16) 8 = 0 := by decide +kernel
    show (if glazeReq.memNat 0 (glazeReq.req 0 16 8 + 16) 8 = 0 then [] else _) = _
    rw [if_pos e]
  have hc : glazeReq.content (glazeReq.req 0 0 4) (glazeReq.req 0 8 8) (glazeReq.req 0 16 8) = (glazeReq, .ok [] []) := by
    have h0 : glazeReq.req 0 0 4 = 0 := by decide +kernel
    have h1 : glazeReq.dcbState (glazeReq.req 0 8 8) = 3 := by decide +kernel
    unfold State.content
    rw [h0, h1, if_neg (by decide), if_neg (by decide), h]
    rfl
  exact ⟨glazeReq, glazeReq, [], [], by unfold due; decide +kernel, by decide +kernel, by decide +kernel, by decide +kernel,
    fun _ e he => by rw [h] at he; exact absurd he List.not_mem_nil, by decide +kernel, by decide +kernel, by decide +kernel, hc, by decide +kernel⟩

def gz0 : GlazeReq := { id := 0, ch := 0, write := true, kind := 1, job := jobAt, dir := 0, dst := 2 ^ 40, session := 7, stage := 0, pages := [], secs := [], ctr := 0, image := [] }
/-- The job has one saved workgroup, of 16 bytes here, saved in instant mode. -/
def sGz (z : GlazeReq) : State :=
  { saved (sSaved back0 []) with images := [(0x100000, { img0 with mode := 2, size := 16 })], glazes := [z], bisque := [(jobAt, [(4, 100)])] }
theorem witness_GlazeRequests_stage : ∃ (s : State) (n : Nat) (g : GlazeReq) (s1 : State) (secs : List GSec) (pages : List Nat), s.glazeAt n 0 = some g ∧
    s.content g.kind g.job g.dir = (s1, .ok secs pages) := by
  have hc : (match (sGz gz0).content 1 jobAt 0 with | (_, .ok _ _) => true | _ => false) = true := by decide +kernel
  split at hc
  · next s1 secs pages e => exact ⟨sGz gz0, 0, gz0, s1, secs, pages, rfl, e⟩
  · cases hc
def gz1 : GlazeReq := { gz0 with stage := 1 }
theorem witness_GlazeRequests_open : ∃ (s : State) (n : Nat) (g : GlazeReq), s.glazeAt n 1 = some g ∧ s.stamped g.job ≠ [] ∧
    (∀ e ∈ s.stamped g.job, s.sweepSt e.1 ≠ 3 ∧ e.2 < Tabs.get s.passAt 0 e.1) ∧ s.taints.contains g.job = false :=
  ⟨{ sGz gz1 with passAt := [(4, 101)] }, 0, gz1, rfl, by decide, by decide, rfl⟩
theorem witness_GlazeRequests_retired : ∃ (s : State) (n : Nat) (g : GlazeReq) (e : Nat × Nat), s.glazeAt n 1 = some g ∧
    (s.stamped g.job).find? (fun e => s.sweepSt e.1 == 3) = some e :=
  ⟨(sGz gz1).wr (Reg.csst 4) 3, 0, gz1, (4, 100), rfl, by decide⟩
theorem witness_GlazeRequests_taint : ∃ (s : State) (n : Nat) (g : GlazeReq), s.glazeAt n 1 = some g ∧ (∀ e ∈ s.stamped g.job, s.sweepSt e.1 ≠ 3) ∧
    s.taints.contains g.job = true :=
  ⟨{ sGz gz1 with taints := [jobAt] }, 0, gz1, rfl, by decide, by decide⟩
theorem witness_GlazeRequests_key : ∃ (s : State) (n : Nat) (g : GlazeReq), s.glazeAt n 2 = some g ∧ g.write = true :=
  ⟨sGz { gz0 with stage := 2 }, 0, _, rfl, rfl⟩
theorem witness_GlazeRequests_restoreKey : ∃ (s : State) (n : Nat) (g : GlazeReq), s.glazeAt n 2 = some g ∧ g.write = false :=
  ⟨sGz { gz0 with stage := 2, write := false }, 0, _, rfl, rfl⟩
theorem witness_GlazeRequests_sign : ∃ (s : State) (n : Nat) (g : GlazeReq), s.glazeAt n 3 = some g :=
  ⟨sGz { gz0 with stage := 3 }, 0, _, rfl⟩
def restoreAsk : State := asked 11 (leBytes 8 0x400000 ++ leBytes 8 jobAt ++ leBytes 8 0x500000 ++ leBytes 4 7) (saved sTree)
theorem witness_GlazeRequests_restore : due restoreAsk 0 11 28 ∧ restoreAsk.jobNamed (restoreAsk.req 0 8 8) = true ∧ restoreAsk.req 0 0 8 < 2 ^ 52 ∧
    restoreAsk.req 0 16 8 < 2 ^ 52 ∧ restoreAsk.vfFailed (restoreAsk.req 0 8 8) = false ∧
    restoreAsk.stagingRoom (restorePages restoreAsk 0) = true := by unfold due; decide +kernel

/-! ### Registers -/

/-- After bring-up. -/
def sUp : State := { s0 with up := true }
theorem witness_RegisterWrites_down : s0.up = false := rfl
theorem witness_RegisterWrites : ∃ (s : State) (off : Nat) (data : DWord) (b : RegBlock), s.up = true ∧ off % 8 = 0 ∧ ¬ ownBehaviour off ∧ s.frozenBy off = [] ∧
    regBlocks.find? (fun b => b.has off) = some b ∧ slackIgnored off data = false := by
  obtain ⟨b, hb⟩ : ∃ b, regBlocks.find? (fun b => b.has (Reg.cpyx 127)) = some b := Option.isSome_iff_exists.mp (by decide +kernel)
  exact ⟨sUp, Reg.cpyx 127, 5, b, rfl, by decide, by unfold ownBehaviour; decide, by decide +kernel, hb, by decide +kernel⟩
/-- Function 3 is bound to partition 0 and locked. -/
def sLocked : State := (sUp.wr (Reg.vfpart 3) 32).setTdi 3 1
theorem witness_RegisterWrites_frozen : ∃ (s : State) (off : Nat) (v : BitVec 8) (vs : List (BitVec 8)), s.up = true ∧ off % 8 = 0 ∧ ¬ ownBehaviour off ∧ s.frozenBy off = v :: vs :=
  ⟨sLocked, Reg.vfpart 3, 3, [], rfl, by decide, by unfold ownBehaviour; decide, by decide +kernel⟩
theorem witness_RegisterWrites_index : ∃ (s : State) (vf : BitVec 8) (tee : Bool), s.up = true ∧ (s.tdiLive vf = false ∨ tee = true) ∧ s.tdi vf ≠ 3 ∧
    (s.vrd vf Reg.vmbox).getLsbD 0 = false := ⟨sUp, 255, false, by decide⟩
theorem witness_RegisterWrites_locked : ∃ (s : State) (vf : BitVec 8) (tee : Bool), s.up = true ∧ s.tdiLive vf = true ∧ tee = false := ⟨sLocked, 3, false, by decide⟩
theorem witness_RegisterWrites_answer : ∃ (s : State) (vf : BitVec 8) (data : DWord), s.up = true ∧ data.getLsbD 0 = true ∧ (s.rd (Reg.vmctl vf.toNat)).getLsbD 0 = true :=
  ⟨sUp.wr (Reg.vmctl 255) 1, 255, 0x50001, by decide⟩
theorem witness_RegisterWrites_gen : ∃ (s : State) (vf : BitVec 8), s.up = true ∧ s.genBusy vf = false := ⟨sUp, 255, by decide⟩
theorem witness_RegisterWrites_genBusy : ∃ (s : State) (vf : BitVec 8), s.up = true ∧ s.genBusy vf = true ∧ s.oldRelease vf = false :=
  ⟨sUp.wr (Reg.vfgen 255) 0x1FFFF, 255, by decide +kernel⟩
theorem witness_RegisterWrites_injected : ∃ (s : State) (die : Nat), s.up = true ∧ die < 4 ∧ (s.rd (Reg.prx die)).getLsbD 17 = true := ⟨sUp.wr (Reg.prx 3) 0x20000, 3, by decide⟩

/-! ### Pairs and sweeps -/

def sig0 : Sig := ⟨false, 5, 1, 77⟩
def wSig : Warp := { w0 with rels := [{ wholeRelease regCom ⟨false, false, false, 3, 0x40⟩ with agreed := false, sig := 77 }] }
def gLead : Wg := { wgOf wSig with pair := some (1, true) }
def gTrail : Wg := { wgOf w0 with core := 64, pair := some (0, false) }
def sPair (es : List ScbEnt) : State := { s0 with wgs := [(0, gLead), (1, gTrail)], nextWg := 2, scb := es, nextScb := 9 }
/-- The trailer's signature of region 5 has arrived. -/
def scb0 : ScbEnt := ⟨4, 0, 0, 1, 0, false, 5, none, some 77⟩
theorem witness_PairAndSweepEvents_join : ∃ (s : State) (r : WRef) (g : Wg) (w : Warp) (mate : Nat) (lead : Bool) (q : Sig) (h : Wg) (s1 : State) (v : DWord),
    s.warp? r = some (g, w) ∧ g.pair = some (mate, lead) ∧ w.unsent = some q ∧ s.wg? mate = some h ∧
    s.inject ((if lead then g.core else h.core) / 32) lead q = (s1, v) ∧
    s.scb.any (awaitsSig (if lead then r.wg else mate) (if lead then mate else r.wg) r.warp lead q) = true :=
  ⟨sPair [scb0], ref0, gLead, wSig, 1, true, sig0, gTrail, sPair [scb0], 77, rfl, rfl, rfl, rfl, rfl, by decide⟩
theorem witness_PairAndSweepEvents_new : ∃ (s : State) (r : WRef) (g : Wg) (w : Warp) (mate : Nat) (lead : Bool) (q : Sig) (h : Wg) (s1 : State) (v : DWord),
    s.warp? r = some (g, w) ∧ g.pair = some (mate, lead) ∧ w.unsent = some q ∧ s.wg? mate = some h ∧
    s.inject ((if lead then g.core else h.core) / 32) lead q = (s1, v) ∧
    s.scb.any (awaitsSig (if lead then r.wg else mate) (if lead then mate else r.wg) r.warp lead q) = false ∧
    (s.scb.filter (fun e => e.die == (if lead then g.core else h.core) / 32)).length < 256 :=
  ⟨sPair [], ref0, gLead, wSig, 1, true, sig0, gTrail, sPair [], 77, rfl, rfl, rfl, rfl, rfl, rfl, by decide⟩
def scbBoth : ScbEnt := { scb0 with lsig := some 77 }
theorem witness_PairAndSweepEvents_agree : ∃ (s : State) (e : ScbEnt), mayCompare s e ∧ e.lsig = e.tsig :=
  ⟨sPair [scbBoth], scbBoth, by unfold mayCompare; decide, rfl⟩
def scbApart : ScbEnt := { scb0 with lsig := some 76 }
theorem witness_PairAndSweepEvents_part : ∃ (s : State) (e : ScbEnt), mayCompare s e ∧ e.lsig ≠ e.tsig :=
  ⟨sPair [scbApart], scbApart, by unfold mayCompare; decide, by decide⟩
theorem witness_PairAndSweepEvents_head : ∃ (s : State) (d c : Nat), s.up = true ∧ (s.sweep d).pass = none ∧ (s.rd (Reg.csx d)).getLsbD 1 = false ∧
    s.sweepHead.find? (fun c => c / 32 == d) = some c :=
  ⟨{ s0 with up := true, sweepHead := [5, 127] }, 3, 127, rfl, rfl, by decide, rfl⟩
theorem witness_PairAndSweepEvents_slot : ∃ (s : State) (d : Nat), s.up = true ∧ (s.sweep d).pass = none ∧ (s.rd (Reg.csx d)).getLsbD 1 = false ∧
    s.sweepHead.find? (fun c => c / 32 == d) = none ∧ s.upAt + slotCycles * (s.sweep d).slots ≤ s.clock ∧ s.sweepSt (32 * d + (s.sweep d).slots % 32) ≠ 3 ∧
    32 * d + (s.sweep d).slots % 32 ∉ s.lost :=
  ⟨{ s0 with up := true }, 3, rfl, rfl, by decide, rfl, by decide, by decide, by decide⟩
def passing (c : Nat) (scan : Bool) (clock : Nat) : State := { s0.setSweep 1 { s0.sweep 1 with pass := some (c, scan, 0) } with clock := clock }
theorem witness_PairAndSweepEvents_scan : ∃ (s : State) (d c t : Nat), (s.sweep d).pass = some (c, false, t) ∧ (∀ e ∈ s.wgs, e.2.core ≠ c) :=
  ⟨passing 33 false 0, 1, 33, 0, by decide, by decide⟩
theorem witness_PairAndSweepEvents_scanned : ∃ (s : State) (d c t : Nat), (s.sweep d).pass = some (c, true, t) ∧ t + 720000 ≤ s.clock :=
  ⟨passing 33 true 720000, 1, 33, 0, by decide, by decide⟩
theorem witness_PairAndSweepEvents_pause : ∃ (s : State) (c : Nat), c < 16 ∧ (∀ t, Tabs.find? s.pauses c = some t → t + 1200000 ≤ s.clock) ∧
    (∀ t, Tabs.find? s.pauses (if c % 2 = 0 then c + 1 else c - 1) = some t → t + 12000 ≤ s.clock) :=
  ⟨{ s0 with pauses := [(14, 1200000), (15, 12000)], clock := 1212000 }, 15, by decide, fun t h => by cases h; decide, fun t h => by cases h; decide⟩

/-! ## Statements hold of something: outside, telemetry, trust, resets, errors -/

theorem witness_OutsideEvents_read : ∃ (s : State) (a n : Nat) (s1 : State), s.up = true ∧ 1 ≤ n ∧ a % 64 + n ≤ 64 ∧ a + n ≤ memTop ∧ s.releasingAny a n = false ∧
    s.readSectors a n = (s1, none) ∧ s.quarantined a = false := ⟨sUp, memTop - 64, 64, sUp, rfl, by decide, by decide, by decide, rfl, rfl, rfl⟩
theorem witness_OutsideEvents_write : ∃ (s : State) (a : Nat) (data : List Byte), s.up = true ∧ data ≠ [] ∧ a % 64 + data.length ≤ 64 ∧ windowOf a ≠ 1 ∧
    a + data.length ≤ memTop ∧ s.quarantined a = false ∧
    (∀ k < data.length, s.frozenByte (a + k) = false) := ⟨sUp, memTop - 1, [7], rfl, by decide, by decide, by decide, by decide, rfl, by decide +kernel⟩
/-- A load of 16 bytes at 0x40 that node 7 asks this one, node 5, for. -/
def askBytes : List Byte := leBytes 2 0 ++ leBytes 2 7 ++ leBytes 2 5 ++ leBytes 2 16 ++ leBytes 8 0 ++ leBytes 8 1 ++ leBytes 8 0x40 ++ leBytes 24 0
theorem witness_OutsideEvents_arrives : ∃ (s : State) (port : Nat) (data : List Byte), arrives s port (RemReq.of data) :=
  ⟨(sUp.wr Reg.fnode 5).setPort 11 2, 11, askBytes, by decide, by decide, by decide, by decide, by decide⟩
theorem witness_OutsideEvents_links : (s0.wr Reg.hlstat 1).hostUp = true ∧ sTree.up = true := by decide
def accHost : Acc := { accHome with dpa := 2 ^ 40 + 0x40 }
theorem witness_OutsideEvents_noAnswer : ∃ (s : State) (r : WRef) (l : Lane) (id : Nat) (a : Acc), s.laneOf r = some l ∧
    l.w.accs.find? (fun a => a.id == id && !a.performed) = some a ∧ a.stage ≠ .walk ∧ a.rmt = false ∧ windowOf a.dpa = 1 :=
  ⟨sAcc accHost, ref0, lAcc accHost, 3, accHost, rfl, rfl, by decide, rfl, by decide⟩
theorem witness_OutsideEvents_port : (s0.setPort 11 2).portSt 11 = 2 ∧ (s0.setPort 11 1).portSt 11 = 1 := by decide
def accFar : Acc := { accHome with rmt := true }
theorem witness_OutsideEvents_fabric : ∃ (s : State) (r : WRef) (l : Lane) (id : Nat) (a : Acc), s.laneOf r = some l ∧
    l.w.accs.find? (fun a => a.id == id && a.stage == .home && a.rmt) = some a :=
  ⟨sAcc accFar, ref0, lAcc accFar, 3, accFar, rfl, rfl⟩
def itemFar : Item := { itemSent with rmt := true }
def wFar : Warp := { wSent with items := [itemFar] }
theorem witness_OutsideEvents_release : ∃ (s : State) (r : WRef) (l : Lane) (id : Nat) (i : Item), s.laneOf r = some l ∧
    l.w.accs.find? (fun a => a.id == id && a.stage == .home && a.rmt) = none ∧ l.w.items.find? (fun i => i.id == id && i.rmt) = some i ∧ i.stage = .held ∧
    i.sent = true ∧ l.w.mayRelease i.tag = true :=
  ⟨stOf (wgOf wFar), ref0, laneIn (wgOf wFar) wFar, 3, itemFar, rfl, rfl, rfl, rfl, rfl, rfl⟩
/-- The links of a package are open in the model (log 48): one of the two cases holds. -/
theorem witness_OutsideEvents_mark : ∃ (s : State) (k : Nat), k ∉ s.linksDown ∧ s.up = true ∧ (∀ e ∈ s.wgs, e.2.core ∈ s.lost ∨ coreReached (s.linksDown ++ [k]) e.2.core = true) ∧
    (networkDead (s.linksDown ++ [k]) = true ∨ networkDead (s.linksDown ++ [k]) = false) :=
  ⟨sTree, 576, by decide, rfl, fun _ h => absurd h List.not_mem_nil, Bool.eq_false_or_eq_true _⟩

/-- 60 °C and 10 W; 88 °C. -/
def cool : DWord := BitVec.ofNat 64 (600 * 2 ^ 36 + 100 * 2 ^ 48)
def hot : DWord := BitVec.ofNat 64 (880 * 2 ^ 36)
theorem witness_OutsideEvents_telemetry : cool.toNat / 2 ^ 36 % 4096 < 800 ∧ (s0.wr (Reg.tlm 3) (sampled s0 3 cool)).power ≤ 18000 ∧ 880 ≤ hot.toNat / 2 ^ 36 % 4096 := by
  decide

/-- A secure session stands. -/
def sec (s : State) : State := { s with spdm := ⟨[], 5, []⟩ }
theorem witness_TrustEvents_lock : ∃ (s : State) (vf : BitVec 8), s.secure = true ∧ s.tdi vf = 0 ∧ s.vfBound vf = true := ⟨sec (s0.wr (Reg.vfpart 255) 32), 255, by decide⟩
theorem witness_TrustEvents_start : ∃ (s : State) (vf : BitVec 8), s.secure = true ∧ s.tdi vf = 1 := ⟨sec sLocked, 3, by decide⟩
theorem witness_TrustEvents_stop : ∃ (s : State) (vf : BitVec 8), s.secure = true ∧ s.tdi vf ≠ 0 ∧ s.tdiStops = [] ∧ (∀ e ∈ s.wgs, e.2.vf ≠ vf) :=
  ⟨sec sLocked, 3, by decide, by decide, rfl, by decide⟩
theorem witness_TrustEvents_stopLater : ∃ (s : State) (vf : BitVec 8), s.secure = true ∧ s.tdi vf ≠ 0 ∧ s.tdiStops = [] ∧ (∃ e ∈ s.wgs, e.2.vf = vf) :=
  ⟨sec (s0.setTdi 0 2), 0, by decide, by decide, rfl, (0, wgOf w0), List.mem_singleton.mpr rfl, rfl⟩
theorem witness_TrustEvents_open : s0.secure = false := rfl
theorem witness_TrustEvents_message : ∃ (i : Instr) (m : Nat × Nat × Nat × Bool × List Byte), spdmForm i = some m := ⟨.finish [1, 2], _, rfl⟩

theorem witness_ResetsAndErrors_register : ∃ (s : State) (n w k r : Nat) (g : Wg) (x : Warp), s.warp? ⟨n, w⟩ = some (g, x) ∧ w < 64 ∧ k < 32 ∧ r ≤ 254 ∧
    r ∉ (x.th k).bad := ⟨s0, 0, 0, 31, 254, wgOf w0, w0, rfl, by decide, by decide, by decide, by decide⟩
theorem witness_ResetsAndErrors_word : ∃ (s : State) (n k : Nat) (g : Wg), s.wg? n = some g ∧ k < 2 ^ 20 ∧ 4 * k < g.scr.size ∧ k ∉ g.scr.bad :=
  ⟨s0, 0, 1023, wgOf w0, rfl, by decide, by decide, by decide⟩
theorem witness_ResetsAndErrors_sector : 32 * (memTop / 32 - 1) < memTop := by decide

/-! ## Statements about every step and every word -/

/-- A bind that waits fragmented on core 0. -/
theorem witness_StepKeepsWatch : ∃ (s t : State), step s = .next t ∧ watchSound s ∧ ∃ e ∈ s.binds, e.2.frag ≠ [] :=
  ⟨sFrag back0, _, rfl, by
    intro e he c hc
    cases List.mem_singleton.mp he
    cases List.mem_singleton.mp hc
    exact ⟨rfl, by decide +kernel, by decide +kernel, fun _ => by decide +kernel, fun h => absurd rfl h⟩, (0, back0), List.mem_singleton.mpr rfl, by decide⟩
theorem witness_DecodeEncode : ∃ (i : Instr) (w : BitVec 128) (off : Nat), i.wf = true ∧ encode i = some w ∧ off + i.size ≤ 32 :=
  ⟨.mma hd true false false (.scal 4) (.imm 5) none 0x4380000000300000, _, 16, rfl, rfl, by decide⟩

end Sys2Proof.Tests
end

namespace Sys2Proof.Machine

open Sys2Proof.Claims

/-! ## Bring-up gates the writes (R377) -/

theorem ifUp_of_up {s : State} (h : s.up = true) (t : State) : s.ifUp t = t := if_pos h

theorem ifUp_of_down {s : State} (h : s.up = false) (t : State) : s.ifUp t = s := by simp [State.ifUp, h]

/-- An event that bring-up gates, once the package is up: its body's result. -/
theorem next_ifUp {s t u : State} (h : s.up = true) (e : t = u) : (.next (s.ifUp t) : Out) = .next u := by
  rw [ifUp_of_up h, e]

/-- A write to the physical function's BAR0 while the package is up. -/
theorem exec_registerWrite_pf {s : State} (h : s.up = true) (off : Nat) (tee : Bool) (data : DWord) :
    exec (.registerWrite ⟨none, off, tee⟩ data) s = .next (s.writePf off data) :=
  next_ifUp h rfl

/-- A write to a virtual function's BAR0 while the package is up. -/
theorem exec_registerWrite_vf {s : State} (h : s.up = true) (vf : BitVec 8) (off : Nat) (tee : Bool) (data : DWord) :
    exec (.registerWrite ⟨some vf, off, tee⟩ data) s = .next (s.writeVf vf off tee data) :=
  next_ifUp h rfl

theorem exec_registerWrite_down {s : State} (h : s.up = false) (r : RegRef) (data : DWord) :
    exec (.registerWrite r data) s = .next s :=
  congrArg Host.Outcome.next (ifUp_of_down h _)

/-! ## The physical function's plain registers (R7, R357, R459) -/

/-- A register that locked interfaces hold frozen stays as it is, and each of those interfaces moves to error. -/
theorem writePf_frozen {s : State} {off : Nat} (hmsix : ¬ (Reg.msix ≤ off ∧ off < Reg.msix + 256))
    (h8 : off % 8 = 0) (hf : s.frozenBy off ≠ []) (data : DWord) :
    s.writePf off data = (s.frozenBy off).foldl (fun s v => s.interfaceError v 3 off) s := by
  have hfz : (!(s.frozenBy off).isEmpty) = true := by simpa using hf
  unfold State.writePf
  rw [if_neg hmsix, if_neg (not_not.mpr h8), if_pos hfz]

/-- A register without behaviour of its own changes by its access codes. -/
theorem writePf_block {s : State} {off : Nat} {b : RegBlock} {data : DWord} (h8 : off % 8 = 0) (ho : ¬ ownBehaviour off)
    (hf : s.frozenBy off = []) (hb : regBlocks.find? (fun b => b.has off) = some b) (hs : slackIgnored off data = false) :
    s.writePf off data = s.wr off (accessed (s.rd off) data b.rw b.w1c) := by
  simp only [ownBehaviour, not_or] at ho
  obtain ⟨hmsix, hnode, hgen, hprx, herr, hquar, hbox, hctl, hxlt⟩ := ho
  have hfz : ¬ (!(s.frozenBy off).isEmpty) = true := by simp [hf]
  unfold State.writePf
  rw [if_neg hmsix, if_neg (not_not.mpr h8), if_neg hfz, if_neg hnode, if_neg hgen, if_neg hprx, if_neg herr, if_neg hquar,
    if_neg hbox, if_neg hctl, hb]
  simp only [hs, Bool.false_eq_true, if_false, if_neg hxlt]

/-! ## The virtual functions' registers (R348, R351, R458, R459) -/

/-- The TEE attribute is not needed where the interface is neither locked nor running. -/
theorem teeRefused_eq_false {s : State} {vf : BitVec 8} {tee : Bool} (h : s.tdiLive vf = false ∨ tee = true) :
    (s.tdiLive vf && !tee) = false := by
  rcases h with h | h <;> simp [h]

/-- `SRIDX` is no item of the frozen ones: a write that the interface takes sets its writable bits. -/
theorem writeVf_sridx {s : State} {vf : BitVec 8} {tee : Bool} (h : s.tdiLive vf = false ∨ tee = true) (data : DWord) :
    s.writeVf vf Reg.sridx tee data = s.vwr vf Reg.sridx (accessed (s.vrd vf Reg.sridx) data (bitsAt 32 32) 0) := by
  simp [State.writeVf, teeRefused_eq_false h, Reg.sridx, Reg.srbase, Reg.vmsix]

/-- Without the TEE attribute a locked or running interface takes no write and moves to error. -/
theorem writeVf_without_tee {s : State} {vf : BitVec 8} (h : s.tdiLive vf = true) (off : Nat) (data : DWord) :
    s.writeVf vf off false data = s.interfaceError vf 2 off := by
  simp [State.writeVf, h]

/-- A request of a virtual function's mailbox that is free: `go` is set, and the physical function is told. -/
theorem vfSubmit_go {s : State} {vf : BitVec 8} {data : DWord} {tee : Bool} (h : s.tdiLive vf = false ∨ tee = true)
    (herr : s.tdi vf ≠ 3) (hgo : data.getLsbD 0 = true) (hfree : (s.vrd vf Reg.vmbox).getLsbD 0 = false) :
    s.vfSubmit vf data tee =
      let old := s.vrd vf Reg.vmbox
      let s1 := s.vwr vf Reg.vmbox ((if data.getLsbD 1 then old &&& 0xFF0001 else old &&& 0xFF0003) ||| (data &&& 0xFFFF00000000))
      let s2 := s1.vwr vf Reg.vmbox (s1.vrd vf Reg.vmbox ||| 1)
      (s2.wr (Reg.vmctl vf.toNat) (s2.rd (Reg.vmctl vf.toNat) ||| 1)).raise none 8 := by
  have htaken : (!data.getLsbD 0 || (s.vrd vf Reg.vmbox).getLsbD 0) = false := by rw [hgo, hfree]; rfl
  have hok : (s.tdi vf == 3) = false := by simpa using herr
  unfold State.vfSubmit
  simp only [teeRefused_eq_false h, htaken, hok, Bool.false_eq_true, if_false]

/-- 1 in `pend` of `VMCTL` completes the request that waits. -/
theorem vmctlWrite_pend {s : State} {vf : BitVec 8} {data : DWord} (hp : data.getLsbD 0 = true)
    (hw : (s.rd (Reg.vmctl vf.toNat)).getLsbD 0 = true) :
    s.vmctlWrite vf data =
      (s.wr (Reg.vmctl vf.toNat) (data &&& 0xFF0000)).vfAnswer vf ((data &&& 0xFF0000).toNat / 65536) := by
  simp [State.vmctlWrite, hp, hw]

/-! ## Generations (R293, R412) -/

theorem bump_busy {s : State} {vf : BitVec 8} (h : s.genBusy vf = true) : s.bump vf = s := if_pos h

theorem bump_idle {s : State} {vf : BitVec 8} (h : s.genBusy vf = false) :
    s.bump vf = ((s.wr (Reg.vfgen vf.toNat) (((s.gen vf + 1).setWidth 64) ||| 0x10000)).tlbClear vf).mapWarps vf
      (fun w => { w with kept := [] }) := by
  simp [State.bump, h]

theorem exec_generationBumpComplete_done {s : State} {vf : BitVec 8} (hb : s.genBusy vf = true) (ho : s.oldRelease vf = false) :
    exec (.generationBumpComplete vf) s = .next (s.bumpDone vf) :=
  congrArg Host.Outcome.next (if_neg (by simp [hb, ho]))

/-! ## The quarantine list and signature injection (R428, R429, R498) -/

theorem freeQuar_release (s : State) {c : Nat} {data : DWord} (hc : c < 16) (hd : data.getLsbD 63 = true) (k : Nat) :
    s.freeQuar c k data = s.setCtl c { s.ctl c with quar := Tabs.del (s.ctl c).quar k } := if_pos ⟨hc, hd⟩

theorem freeQuar_zero (s : State) {data : DWord} (hd : data.getLsbD 63 = false) (c k : Nat) : s.freeQuar c k data = s :=
  if_neg (fun h => Bool.false_ne_true (hd.symm.trans h.2))

theorem arm_idle {s : State} {die : Nat} (hd : die < 4) (ha : (s.rd (Reg.prx die)).getLsbD 17 = false) (data : DWord) :
    s.arm die data = s.wr (Reg.prx die) (data &&& 0x3FFFF) :=
  if_neg (by rw [ha]; simp [hd])

theorem arm_armed {s : State} {die : Nat} (ha : (s.rd (Reg.prx die)).getLsbD 17 = true) (data : DWord) :
    s.arm die data = s := if_pos (.inl ha)

/-! ## The node number and the fabric ports (R359, R377, R455, R457) -/

theorem fpstat_ne {k j : Nat} (h : k ≠ j) : Reg.fpstat k ≠ Reg.fpstat j := by unfold Reg.fpstat; omega

theorem fnode_ne_fpstat (k : Nat) : Reg.fnode ≠ Reg.fpstat k := by unfold Reg.fnode Reg.fpstat; omega

theorem portSt_congr {s t : State} {k : Nat} (h : t.rd (Reg.fpstat k) = s.rd (Reg.fpstat k)) : t.portSt k = s.portSt k := by
  rw [State.portSt, h, State.portSt]

theorem setPort_pf (s : State) (k st : Nat) : s.setPort k st = { s with pf := (s.setPort k st).pf } := rfl

theorem rd_setPort_other (s : State) (st : Nat) {k o : Nat} (h : o ≠ Reg.fpstat k) : (s.setPort k st).rd o = s.rd o :=
  rd_wr_other s _ h

/-- The two low bits of `FPSTAT` are the state, whatever the flags above them. -/
theorem fpstat_low (v : DWord) {c : DWord} (hc : c.setWidth 2 = 0) {st : Nat} (h : st < 4) :
    ((v &&& ~~~3) ||| BitVec.ofNat 64 st ||| c).toNat % 4 = st := by
  have hlow (x : DWord) : x.toNat % 4 = (x.setWidth 2).toNat := rfl
  rw [hlow]
  simp only [BitVec.setWidth_or, BitVec.setWidth_and, hc]
  simp [Nat.mod_eq_of_lt h]

theorem portSt_setPort (s : State) (k : Nat) {st : Nat} (h : st < 4) : (s.setPort k st).portSt k = st := by
  rw [State.portSt, State.setPort, rd_wr_same]
  exact fpstat_low _ (by split_ifs <;> rfl) h

/-- What a write of node number `n` makes of a port in state `st`: a failed one stays, 0 takes the others down, any other number
lets those that are down train. -/
def trainedSt (n : DWord) (st : Nat) : Nat := if st = 3 then 3 else if n = 0 then 0 else if st = 0 then 1 else st

/-- One port of `State.writeNode`. -/
def State.trainPort (n : DWord) (s : State) (k : Nat) : State :=
  if s.portSt k = 3 then s else if n = 0 then s.setPort k 0 else if s.portSt k = 0 then s.setPort k 1 else s

theorem writeNode_eq (s : State) (data : DWord) :
    s.writeNode data = (List.range 12).foldl (State.trainPort (data &&& 0xFFF)) (s.wr Reg.fnode (data &&& 0xFFF)) := rfl

/-- A port is left as it is or is set to one of two states. -/
theorem trainPort_cases (n : DWord) (s : State) (k : Nat) :
    (s.trainPort n k = s ∧ trainedSt n (s.portSt k) = s.portSt k) ∨
    (∃ st < 4, s.trainPort n k = s.setPort k st ∧ trainedSt n (s.portSt k) = st) := by
  unfold State.trainPort trainedSt
  split_ifs with h3 h0 hd
  · exact .inl ⟨rfl, h3.symm⟩
  · exact .inr ⟨0, by decide, rfl, rfl⟩
  · exact .inr ⟨1, by decide, rfl, rfl⟩
  · exact .inl ⟨rfl, rfl⟩

theorem trainPort_pf (n : DWord) (s : State) (k : Nat) : s.trainPort n k = { s with pf := (s.trainPort n k).pf } := by
  rcases trainPort_cases n s k with ⟨h, -⟩ | ⟨st, -, h, -⟩
  · rw [h]
  · rw [h, setPort_pf]

theorem portSt_trainPort (n : DWord) (s : State) (k : Nat) : (s.trainPort n k).portSt k = trainedSt n (s.portSt k) := by
  rcases trainPort_cases n s k with ⟨h, hst⟩ | ⟨st, hlt, h, hst⟩
  · rw [h, hst]
  · rw [h, hst, portSt_setPort s k hlt]

theorem rd_trainPort_other (n : DWord) (s : State) {k o : Nat} (ho : o ≠ Reg.fpstat k) : (s.trainPort n k).rd o = s.rd o := by
  rcases trainPort_cases n s k with ⟨h, -⟩ | ⟨st, -, h, -⟩
  · rw [h]
  · rw [h, rd_setPort_other s st ho]

theorem trainPorts_pf (n : DWord) (ks : List Nat) (s : State) :
    ks.foldl (State.trainPort n) s = { s with pf := (ks.foldl (State.trainPort n) s).pf } := by
  induction ks generalizing s with
  | nil => rfl
  | cons k ks ih =>
    have hk := trainPort_pf n s k
    rw [List.foldl_cons, ih]
    generalize (ks.foldl (State.trainPort n) (s.trainPort n k)).pf = p
    rw [hk]

theorem rd_trainPorts_other (n : DWord) {o : Nat} (ks : List Nat) (s : State) (ho : ∀ k ∈ ks, o ≠ Reg.fpstat k) :
    (ks.foldl (State.trainPort n) s).rd o = s.rd o := by
  induction ks generalizing s with
  | nil => rfl
  | cons k ks ih =>
    obtain ⟨hk, hks⟩ := List.forall_mem_cons.mp ho
    rw [List.foldl_cons, ih _ hks, rd_trainPort_other n s hk]

theorem portSt_trainPorts (n : DWord) (ks : List Nat) (s : State) (hn : ks.Nodup) {k : Nat} (hk : k ∈ ks) :
    (ks.foldl (State.trainPort n) s).portSt k = trainedSt n (s.portSt k) := by
  induction ks generalizing s with
  | nil => cases hk
  | cons j ks ih =>
    obtain ⟨hj, hn⟩ := List.nodup_cons.mp hn
    rw [List.foldl_cons]
    rcases List.mem_cons.mp hk with rfl | hk
    · have hrest := rd_trainPorts_other n ks (s.trainPort n k) (fun i hi => fpstat_ne (fun e : k = i => hj (e.symm ▸ hi)))
      rw [portSt_congr hrest, portSt_trainPort]
    · have hne : k ≠ j := fun e => hj (e ▸ hk)
      rw [ih _ hn hk, portSt_congr (rd_trainPort_other n s (fpstat_ne hne))]

/-- A write of `FNODE` changes registers alone. -/
theorem writeNode_pf (s : State) (data : DWord) : s.writeNode data = { s with pf := (s.writeNode data).pf } := by
  rw [writeNode_eq]
  exact trainPorts_pf _ _ _

theorem rd_writeNode_other (s : State) (data : DWord) {o : Nat} (hn : o ≠ Reg.fnode) (ho : ∀ k < 12, o ≠ Reg.fpstat k) :
    (s.writeNode data).rd o = s.rd o := by
  rw [writeNode_eq, rd_trainPorts_other _ _ _ (fun k hk => ho k (List.mem_range.mp hk)), rd_wr_other s _ hn]

theorem rd_writeNode_fnode (s : State) (data : DWord) : (s.writeNode data).rd Reg.fnode = data &&& 0xFFF := by
  rw [writeNode_eq, rd_trainPorts_other _ _ _ (fun k _ => fnode_ne_fpstat k), rd_wr_same]

theorem portSt_writeNode (s : State) (data : DWord) {k : Nat} (hk : k < 12) :
    (s.writeNode data).portSt k = trainedSt (data &&& 0xFFF) (s.portSt k) := by
  rw [writeNode_eq, portSt_trainPorts _ _ _ List.nodup_range (List.mem_range.mpr hk),
    portSt_congr (rd_wr_other s _ (fnode_ne_fpstat k).symm)]

/-! ## The statement -/

/-- Settles O54: each clause is what the write's own lemma above says. -/
theorem registerWrites : Obligations.RegisterWrites := by
  refine ⟨fun s r data h => exec_registerWrite_down h r data, fun s data up =>
    ⟨?plain, ?frozen, ?index, ?locked, ?submit, ?answer, ?gen, ?genDone, ?node, ?quar, ?inject⟩⟩
  case plain =>
    intro off b h8 ho hf hb hs
    rw [exec_registerWrite_pf up, writePf_block h8 ho hf hb hs]
  case frozen =>
    intro off v vs h8 ho hf
    rw [exec_registerWrite_pf up, writePf_frozen (fun h => ho (.inl h)) h8 (by simp [hf]), hf]
  case index =>
    intro vf tee h
    rw [exec_registerWrite_vf up, writeVf_sridx h]
  case locked =>
    rintro vf tee h rfl
    rw [exec_registerWrite_vf up, writeVf_without_tee h]
  case submit =>
    intro vf tee h herr hgo hfree
    exact next_ifUp up (vfSubmit_go h herr hgo hfree)
  case answer =>
    intro vf hp hw
    exact next_ifUp up (vmctlWrite_pend hp hw)
  case gen => exact fun vf => ⟨fun h => congrArg Host.Outcome.next (bump_busy h), fun h => congrArg Host.Outcome.next (bump_idle h)⟩
  case genDone => exact fun vf => exec_generationBumpComplete_done
  case node =>
    exact ⟨s.writeNode data, next_ifUp up rfl, writeNode_pf s data, rd_writeNode_fnode s data,
      fun k hk => portSt_writeNode s data hk, fun o hn ho => rd_writeNode_other s data hn ho⟩
  case quar =>
    exact fun c k => ⟨fun hc hd => next_ifUp up (freeQuar_release s hc hd k),
      fun hd => next_ifUp up (freeQuar_zero s hd c k)⟩
  case inject =>
    exact fun die hd => ⟨fun ha => next_ifUp up (arm_idle hd ha data),
      fun ha => next_ifUp up (arm_armed ha data)⟩

end Sys2Proof.Machine

namespace Sys2Proof.Machine

open Sys2Proof.Claims

/-! ## Register forms as the shape that computes them (R149, R159) -/

/-- The common shape of the register instructions, with the operands that the form of `i` names. -/
def formAlu (i : Instr) (r : RegForm) : Alu where
  h := r.h
  size := r.size
  slow := RegForm.sound.slow i
  dst := r.dst
  srcs := r.srcs
  lit := r.lit
  pred := r.pred
  wideCraze := none
  bad := RegForm.sound.reserved i

/-- An integer instruction computes the result of its form. `shf` has a form with and one without its second source, `movl` one of
each width; every other form is that of its constructor. -/
theorem exec_intForm {i : Instr} {r : RegForm} (h : intForm i = some r) (s : State) :
    exec i s = (formAlu i r).exec (fun _ => r.val) s := by
  cases i
  case shf _ _ _ _ b _ _ => cases b <;> cases h <;> rfl
  case movl _ wide _ _ => cases wide <;> cases h <;> rfl
  all_goals cases h <;> rfl

/-- A floating-point, packed, `rng` or predicate-writing instruction computes the result of its form. -/
theorem exec_valForm {i : Instr} {r : RegForm} (h : valForm i = some r) (s : State) :
    exec i s = (formAlu i r).exec (fun _ => r.val) s := by
  cases i
  all_goals cases h <;> rfl

theorem formAlu_not_faulty {i : Instr} {r : RegForm} {l : Lane} (h : r.sound i l) : (formAlu i r).faulty l = false :=
  Bool.eq_false_iff.mpr (fun hf => (faulty_iff i r (formAlu i r) l rfl rfl rfl rfl rfl).mp hf h)

/-- A form is uniform where its destination is a scalar register. -/
theorem scalar_eq_some {r : RegForm} {j : BitVec 6} {wide : Bool} (h : r.scalar = some (j, wide)) : r.dst = .scal j wide := by
  unfold RegForm.scalar at h
  split at h
  next hd => cases h; exact hd
  next => cases h

/-- Settles O9: the shape of the register instructions runs a uniform form once. -/
theorem uniformResult : Obligations.UniformResult := by
  intro i r j wide hi hsc s l hl hready hsound
  exact uniform_completes i r (formAlu i r) (fun _ => r.val) j j wide wide (exec_intForm hi) rfl rfl rfl rfl rfl rfl rfl
    (fun _ _ => rfl) (scalar_eq_some hsc) rfl rfl s l hl hready (formAlu_not_faulty hsound) hsound.1

/-- Settles O14: the shape of the register instructions shifts the latches. -/
theorem latchesShift : Obligations.LatchesShift := by
  intro i r hi
  have he : ∀ s, exec i s = (formAlu i r).exec (fun _ => r.val) s := hi.elim exec_intForm exec_valForm
  exact regForm_latches i r (formAlu i r) (fun _ => r.val) he rfl rfl rfl rfl rfl rfl rfl (fun _ _ => rfl) rfl rfl

end Sys2Proof.Machine

namespace Sys2Proof.Machine

open Sys2Proof.Claims

/-! ## Waits of a batch: `conv`, `yield` and `exit` (R36 to R38) -/

theorem converge_kept (w : Warp) (u : Nat) : kept (w.th u) (w.converge.th u) := by
  unfold Warp.converge
  split
  · exact ⟨rfl, rfl, rfl, rfl⟩
  · split
    · exact ⟨rfl, rfl, rfl, rfl⟩
    · simp only [Warp.th, List.getD_eq_getElem?_getD, List.getElem?_map]
      cases w.thr[u]? with
      | none => exact ⟨rfl, rfl, rfl, rfl⟩
      | some x =>
        simp only [Option.map_some, Option.getD_some]
        split
        · split <;> exact ⟨rfl, rfl, rfl, rfl⟩
        · exact ⟨rfl, rfl, rfl, rfl⟩

theorem unyield_kept (w : Warp) (b : List Nat) {u : Nat} (hu : u < 32) : kept (w.th u) ((w.unyield b).th u) := by
  rcases unyield_cases w b with ⟨-, h⟩ | ⟨-, h⟩ <;> rw [h u hu] <;> split <;> exact ⟨rfl, rfl, rfl, rfl⟩

theorem kept_trans {x y z : Thread} (h : kept x y) (k : kept y z) : kept x z := by
  obtain ⟨hv, hp, hpt, hpp⟩ := h
  obtain ⟨kv, kp, kpt, kpp⟩ := k
  exact ⟨kv.trans hv, kp.trans hp, kpt.trans hpt, kpp.trans hpp⟩

/-- Yields and convergence move threads, and no registers. -/
theorem settle_kept (l : Lane) (b : List Nat) {u : Nat} (hu : u < 32) : kept (l.w.th u) ((l.settle b).w.th u) :=
  kept_trans (unyield_kept l.w b hu) (converge_kept (l.w.unyield b) u)

theorem kept_of_sameButLatches {x y : Thread} (h : y.SameButLatches x) : kept x y := ⟨h.v, h.p, h.pt, h.pp⟩

/-- A thread that holds convergence back still does when yields have ended. -/
theorem unyield_holdsBack (w : Warp) (b : List Nat) {u : Nat} (hu : u < 32) (h : (w.th u).holdsBack = true) :
    ((w.unyield b).th u).holdsBack = true := by
  rcases unyield_cases w b with ⟨-, hc⟩ | ⟨-, hc⟩ <;> rw [hc u hu] <;> split <;> [rfl; exact h; rfl; exact h]

theorem unyield_holdsBack_iff (w : Warp) (b : List Nat) {u : Nat} (hu : u < 32) :
    ((w.unyield b).th u).holdsBack = (w.th u).holdsBack := by
  by_cases hy : (w.th u).st = .yielded
  · have h : (w.th u).holdsBack = true := by simp [Thread.holdsBack, hy]
    rw [h, unyield_holdsBack w b hu h]
  · rw [unyield_th w b hu hy]

/-- While a thread holds convergence back, nobody is released. -/
theorem settle_of_holdsBack (l : Lane) (b : List Nat) {j : Nat} (hj : j < 32) (h : (l.w.th j).holdsBack = true) :
    (l.settle b).w = l.w.unyield b :=
  converge_stays _ (unyield_length l.w b) ⟨j, hj, unyield_holdsBack l.w b hj h⟩

theorem atConv_of_st {x y : Thread} (h : x.st = y.st) : x.atConv = y.atConv := by
  unfold Thread.atConv
  rw [h]

theorem holdsBack_of_st {x y : Thread} (h : x.st = y.st) : x.holdsBack = y.holdsBack := by
  unfold Thread.holdsBack
  rw [h]

/-- A thread outside the batch that an instruction leaves alone, up to its latches, is a bystander of it. -/
theorem settle_bystander_of_same {m : Lane} {b : List Nat} {k : Nat} {x : Thread} (hs : (m.w.th k).SameButLatches x) (hk : k < 32)
    (hn : k ∉ b) (hc : x.atConv = false) : bystander x ((m.settle b).w.th k) := by
  rw [settle_bystander m b hk hn ((atConv_of_st hs.st).trans hc), hs.st]
  split
  · next hy => exact ⟨⟨hs.v, hs.p, hs.pt, hs.pp⟩, hs.pc, (if_pos hy).symm⟩
  · next hy => exact ⟨⟨hs.v, hs.p, hs.pt, hs.pp⟩, hs.pc, hs.st.trans (if_neg hy).symm⟩

theorem unyield_bystander_of_same {w : Warp} {b : List Nat} {k : Nat} {x : Thread} (hs : (w.th k).SameButLatches x) (hk : k < 32)
    (hn : k ∉ b) : bystander x ((w.unyield b).th k) := by
  have hu : (w.unyield b).th k = if (w.th k).st = .yielded then { w.th k with st := .eligible } else w.th k := by
    rcases unyield_cases w b with ⟨-, h⟩ | ⟨-, h⟩
    · rw [h k hk]; simp [hn]
    · exact h k hk
  rw [hu, hs.st]
  split
  · next hy => exact ⟨⟨hs.v, hs.p, hs.pt, hs.pp⟩, hs.pc, (if_pos hy).symm⟩
  · next hy => exact ⟨⟨hs.v, hs.p, hs.pt, hs.pp⟩, hs.pc, hs.st.trans (if_neg hy).symm⟩

/-- While a thread holds convergence back, even one that waits at convergence is a bystander. -/
theorem settle_bystander_of_holdsBack {m : Lane} {b : List Nat} {j k : Nat} {x : Thread} (hs : (m.w.th k).SameButLatches x)
    (hk : k < 32) (hn : k ∉ b) (hj : j < 32) (hb : (m.w.th j).holdsBack = true) : bystander x ((m.settle b).w.th k) := by
  rw [settle_of_holdsBack m b hj hb]
  exact unyield_bystander_of_same hs hk hn

/-- When nobody holds convergence back and all threads that are parked at it stand at `p`, they are released. -/
theorem converge_th_of_all (w : Warp) (p : VAddr) (hlen : w.thr.length = 32) (hback : ∀ u < 32, (w.th u).holdsBack = false)
    (hp : ∀ u < 32, (w.th u).atConv = true → (w.th u).pc = p) {k : Nat} (hk : k < 32) (hst : (w.th k).st = .parkedConv true) :
    w.converge.th k = { w.th k with pc := p + 8, st := .eligible } := by
  have hnone : ¬ w.thr.any Thread.holdsBack = true := fun h => by
    obtain ⟨u, hu, hb⟩ := (any_th w hlen _).mp h
    rw [hback u hu] at hb
    cases hb
  have hmem : ∀ u < 32, w.th u ∈ w.thr := fun u hu => by
    have hu' : u < w.thr.length := by omega
    simp [Warp.th, hu']
  have hat : (w.th k).atConv = true := by simp [Thread.atConv, hst]
  have hlow : w.lowest Thread.atConv = some p := by
    refine lowest_const w _ p (fun x hx hc => ?_) ⟨_, hmem k hk, hat⟩
    obtain ⟨u, hu, rfl⟩ := List.getElem_of_mem hx
    have hth : w.th u = w.thr[u] := by simp [Warp.th, hu]
    rw [← hth] at hc ⊢
    exact hp u (by omega) hc
  have hk' : k < w.thr.length := by omega
  have hth : w.thr[k] = w.th k := by simp [Warp.th, hk']
  unfold Warp.converge
  rw [if_neg hnone, hlow]
  simp only [Warp.th, List.getD_eq_getElem?_getD, List.getElem?_map, List.getElem?_eq_getElem hk', Option.map_some,
    Option.getD_some]
  rw [hth, if_pos (by simpa using hp k hk hat), hst]

/-- The lane `m` is `l` after the turns of an instruction of `n` bytes with header `h`, before yields and convergence: the active
threads are what `F` says, the rest of the batch has moved past it, and the other threads are as they were. -/
structure TurnsTaken (l m : Lane) (h : Hdr) (n : Nat) (F : Nat → Thread) : Prop where
  act : ∀ k ∈ active l h, (m.w.th k).SameButLatches (F k)
  idle : ∀ k ∈ l.w.batch, k ∉ active l h →
    (m.w.th k).SameButLatches { l.w.th k with pc := (l.w.th k).pc + BitVec.ofNat 57 n, st := .eligible, derailed := false }
  other : ∀ k < 32, k ∉ l.w.batch → (m.w.th k).SameButLatches (l.w.th k)

/-- The turns of the active threads, after the batch has advanced. -/
theorem TurnsTaken.of_advanced {l m : Lane} {h : Hdr} {n : Nat} {F : Nat → Thread}
    (hth : ∀ u < 32, (m.w.th u).SameButLatches (if u ∈ active l h then F u else (l.advance l.w.batch n).w.th u)) :
    TurnsTaken l m h n F := by
  refine ⟨fun k hk => ?_, fun k hk hn => ?_, fun k hk hn => ?_⟩
  · have hk' := hth k (batch_lt (active_batch hk))
    rwa [if_pos hk] at hk'
  · have hk' := hth k (batch_lt hk)
    rwa [if_neg hn, advance_th l _ _ (batch_lt hk), if_pos (by simpa using hk)] at hk'
  · have hk' := hth k hk
    rwa [if_neg (fun ha => hn (active_batch ha)), advance_th l _ _ hk, if_neg (by simpa using hn)] at hk'

namespace TurnsTaken

variable {l m : Lane} {h : Hdr} {n : Nat} {F : Nat → Thread}

/-- An active thread whose turn leaves it neither yielded nor at convergence stays as the turn left it. -/
theorem settled_act (ht : TurnsTaken l m h n F) {k : Nat} (hk : k ∈ active l h) (hy : (F k).st ≠ .yielded)
    (hc : (F k).atConv = false) : ((m.settle l.w.batch).w.th k).SameButLatches (F k) := by
  have ha := ht.act k hk
  rw [settle_th_of m _ (batch_lt (active_batch hk)) (by rw [ha.st]; exact hy) ((atConv_of_st ha.st).trans hc)]
  exact ha

theorem settled_past (ht : TurnsTaken l m h n F) {k : Nat} (hk : k ∈ l.w.batch) (hn : k ∉ active l h) :
    past n (l.w.th k) ((m.settle l.w.batch).w.th k) ∧ kept (l.w.th k) ((m.settle l.w.batch).w.th k) := by
  have hi := ht.idle k hk hn
  have hst : (m.w.th k).st = .eligible := hi.st
  rw [settle_th_of m l.w.batch (batch_lt hk) (by rw [hst]; exact TState.noConfusion) (by simp [Thread.atConv, hst])]
  exact ⟨⟨hi.pc, hst⟩, hi.v, hi.p, hi.pt, hi.pp⟩

theorem settled_bystander (ht : TurnsTaken l m h n F) {k : Nat} (hk : k < 32) (hn : k ∉ l.w.batch)
    (hc : (l.w.th k).atConv = false) : bystander (l.w.th k) ((m.settle l.w.batch).w.th k) :=
  settle_bystander_of_same (ht.other k hk hn) hk hn hc

theorem settled_kept (ht : TurnsTaken l m h n F) (hF : ∀ k ∈ active l h, kept (l.w.th k) (F k)) {k : Nat}
    (hk : k ∈ active l h) : kept (l.w.th k) ((m.settle l.w.batch).w.th k) :=
  kept_trans (kept_of_same (ht.act k hk) (hF k hk)) (settle_kept m _ (batch_lt (active_batch hk)))

/-- An idle thread of the batch is eligible; a thread outside it is as it was. -/
theorem st_of_idle (ht : TurnsTaken l m h n F) {j : Nat} (hj : j < 32) (hn : j ∉ active l h) :
    (m.w.th j).st = if j ∈ l.w.batch then .eligible else (l.w.th j).st := by
  split
  · next hb => exact (ht.idle j hb hn).st
  · next hb => exact (ht.other j hj hb).st

/-- A thread outside the active set that held convergence back still does. -/
theorem holdsBack_of_idle (ht : TurnsTaken l m h n F) {j : Nat} (hj : j < 32) (hn : j ∉ active l h)
    (hb : (l.w.th j).holdsBack = true) : (m.w.th j).holdsBack = true := by
  have hst := ht.st_of_idle hj hn
  split at hst
  · simp [Thread.holdsBack, hst]
  · rwa [holdsBack_of_st hst]

end TurnsTaken

/-- What the turn of `conv`, `yield` or `exit` at `pc` makes of an active thread (R36 to R38). -/
def waitTurn (i : Instr) (pc : VAddr) (x : Thread) : Thread :=
  match i with
  | .convg _ => { x with pc := pc, st := .parkedConv true }
  | .yield _ => { x with st := .yielded }
  | _ => { x with pc := pc, st := .exited }

theorem exec_waitForm {i : Instr} {h : Hdr} (hi : waitForm i = some h) (s : State) :
    exec i s = onLane s (branch (ctl h 8 false [] sound) (fun _ => none) (fun pc _ _ x => .go (waitTurn i pc x))) := by
  cases i
  case convg => cases hi; rfl
  case yield => cases hi; rfl
  case exit => cases hi; rfl
  all_goals cases hi

theorem waitTurn_kept (i : Instr) (pc : VAddr) (x : Thread) : kept x (waitTurn i pc x) := by
  unfold waitTurn
  split <;> exact ⟨rfl, rfl, rfl, rfl⟩

/-- What an active thread is after its turn of `conv`, `yield` or `exit`. -/
def waitThread (i : Instr) (l : Lane) (k : Nat) : Thread := waitTurn i l.w.pc ((l.advance l.w.batch 8).w.th k)

theorem waitThread_kept (i : Instr) {l : Lane} {h : Hdr} {k : Nat} (hk : k ∈ active l h) :
    kept (l.w.th k) (waitThread i l k) := by
  unfold waitThread
  rw [advance_active hk]
  exact waitTurn_kept i _ _

/-- `conv`, `yield` and `exit` with clean guards: every active thread takes its turn, and yields and convergence follow. -/
theorem waitForm_turns {i : Instr} {h : Hdr} (hi : waitForm i = some h) {s : State} {l : Lane} (hl : s.lane? = some l)
    (hc : guardsClean l h) :
    ∃ m, exec i s = .next (s.putLane (m.settle l.w.batch)) ∧ m.SameButFlow l ∧ TurnsTaken l m h 8 (waitThread i l) := by
  obtain ⟨hflow, hth⟩ := branchGo_flow (ctl h 8 false [] sound) (waitThread i l) l l.w.pc h
  have hgo := branch_go (ctl h 8 false [] sound) (fun _ => none) (fun pc _ _ x => .go (waitTurn i pc x)) (waitThread i l) l
    (nothing_ready l.w) (fun _ => rfl) hc (fun _ _ => rfl)
  refine ⟨branchGo (ctl h 8 false [] sound) (waitThread i l) l l.w.pc (active l h), ?_, hflow, .of_advanced hth⟩
  rw [exec_waitForm hi]
  simp only [onLane, hl, hgo]
  rfl

/-- The threads outside the active set, before the instruction. -/
def idleThreads (l : Lane) (h : Hdr) : List Thread := ((List.range 32).filter (fun j => j ∉ active l h)).map l.w.th

theorem mem_idleThreads {l : Lane} {h : Hdr} {x : Thread} :
    x ∈ idleThreads l h ↔ ∃ j < 32, j ∉ active l h ∧ l.w.th j = x := by
  simp [idleThreads, and_assoc]

theorem idle_mem {l : Lane} {h : Hdr} {j : Nat} (hj : j < 32) (hn : j ∉ active l h) : l.w.th j ∈ idleThreads l h :=
  mem_idleThreads.mpr ⟨j, hj, hn, rfl⟩

theorem away_not_runnable {x : Thread} (h : away x) : x.runnable = false := by
  rcases h with h | h <;> simp [Thread.runnable, h]

/-- `exit` ends the thread (R38). -/
theorem exit_waited {l m : Lane} {h : Hdr} (ht : TurnsTaken l m h 8 (waitThread (.exit h) l)) {k : Nat} (hk : k ∈ active l h) :
    waited (.exit h) l.w.pc (idleThreads l h) ((m.settle l.w.batch).w.th k) := by
  have hs := ht.settled_act hk TState.noConfusion rfl
  exact ⟨hs.pc, hs.st⟩

/-- A yielded thread stays so while another can issue, and goes on otherwise (R36). -/
theorem yield_waited {l m : Lane} {h : Hdr} (ht : TurnsTaken l m h 8 (waitThread (.yield h) l)) {k : Nat} (hk : k ∈ active l h) :
    waited (.yield h) l.w.pc (idleThreads l h) ((m.settle l.w.batch).w.th k) := by
  have hb := active_batch hk
  have hklt := batch_lt hb
  have hact : ∀ j ∈ active l h, (m.w.th j).st = .yielded := fun j hj => (ht.act j hj).st
  have hpc : (m.w.th k).pc = l.w.pc + 8 := by
    rw [(ht.act k hk).pc]
    exact (congrArg Thread.pc (advance_active hk)).trans (congrArg (· + 8) (batch_runnable hb).2)
  rcases unyield_cases m.w l.w.batch with ⟨⟨v, hv, hrun⟩, hth⟩ | ⟨hnone, hth⟩
  · -- somebody can issue: the thread stays yielded
    have hu := hth k hklt
    rw [if_neg (fun h => h.2 hb)] at hu
    have hs : (m.settle l.w.batch).w.th k = m.w.th k := by
      show (m.w.unyield l.w.batch).converge.th k = _
      rw [converge_th _ _ (by rw [hu]; simp [Thread.atConv, hact k hk]), hu]
    rw [hs]
    refine ⟨hpc, fun _ => hact k hk, fun hall => absurd hrun ?_⟩
    have hva : v ∉ active l h := fun hva => by
      rcases hrun with hr | ⟨-, hr⟩
      · simp [Thread.runnable, hact v hva] at hr
      · exact hr (active_batch hva)
    obtain ⟨hr, hy⟩ := hall _ (idle_mem hv hva)
    have hvb : v ∉ l.w.batch := fun hvb => by rw [(batch_runnable hvb).1] at hr; cases hr
    have hst := ht.st_of_idle hv hva
    rw [if_neg hvb] at hst
    rintro (hr' | ⟨hy', -⟩)
    · unfold Thread.runnable at hr hr'
      rw [hst, hr] at hr'
      cases hr'
    · exact hy (hst ▸ hy')
  · -- nobody can: the yield ends
    have hu := hth k hklt
    rw [if_pos (hact k hk)] at hu
    have hs : (m.settle l.w.batch).w.th k = { m.w.th k with st := .eligible } := by
      show (m.w.unyield l.w.batch).converge.th k = _
      rw [converge_th _ _ (by rw [hu]; rfl), hu]
    rw [hs]
    refine ⟨hpc, fun hex => ?_, fun _ => rfl⟩
    obtain ⟨x, hx, hxr⟩ := hex
    obtain ⟨j, hj, hja, rfl⟩ := mem_idleThreads.mp hx
    obtain ⟨hjr, hjy⟩ := hnone j hj
    have hst := ht.st_of_idle hj hja
    split at hst
    · simp [Thread.runnable, hst] at hjr
    · next hjb =>
      rcases hxr with hr | hy
      · unfold Thread.runnable at hr hjr
        rw [hst, hr] at hjr
        cases hjr
      · exact absurd (hjy (hst.trans hy)) hjb

/-- A thread that parks at `conv` stays while another holds convergence back, and continues when all others are away (R37). -/
theorem conv_waited {l m : Lane} {h : Hdr} (ht : TurnsTaken l m h 8 (waitThread (.convg h) l)) {k : Nat} (hk : k ∈ active l h) :
    waited (.convg h) l.w.pc (idleThreads l h) ((m.settle l.w.batch).w.th k) := by
  have hklt := batch_lt (active_batch hk)
  have hact : ∀ j ∈ active l h, (m.w.th j).pc = l.w.pc ∧ (m.w.th j).st = .parkedConv true :=
    fun j hj => ⟨(ht.act j hj).pc, (ht.act j hj).st⟩
  have hun : ∀ j ∈ active l h, (m.w.unyield l.w.batch).th j = m.w.th j := fun j hj =>
    unyield_th m.w _ (batch_lt (active_batch hj)) (by rw [(hact j hj).2]; exact TState.noConfusion)
  refine ⟨fun hex => ?_, fun hall => ?_⟩
  · obtain ⟨x, hx, hxb⟩ := hex
    obtain ⟨j, hj, hja, rfl⟩ := mem_idleThreads.mp hx
    rw [settle_of_holdsBack m _ hj (ht.holdsBack_of_idle hj hja hxb), hun k hk]
    exact hact k hk
  · have hst : ∀ j < 32, j ∉ active l h → away (m.w.th j) := fun j hj hja => by
      have haw := hall _ (idle_mem hj hja)
      have hjb : j ∉ l.w.batch := fun hjb => by
        have hr := away_not_runnable haw
        rw [(batch_runnable hjb).1] at hr; cases hr
      have hs := ht.st_of_idle hj hja
      rw [if_neg hjb] at hs
      unfold away
      rwa [hs]
    have hgo := converge_th_of_all (m.w.unyield l.w.batch) l.w.pc (unyield_length _ _) (fun u hu => ?_) (fun u hu hc => ?_) hklt
      (by rw [hun k hk]; exact (hact k hk).2)
    · show ((m.w.unyield l.w.batch).converge.th k).pc = _ ∧ ((m.w.unyield l.w.batch).converge.th k).st = _
      rw [hgo]
      exact ⟨rfl, rfl⟩
    · rw [unyield_holdsBack_iff m.w _ hu]
      by_cases hua : u ∈ active l h
      · simp [Thread.holdsBack, (hact u hua).2]
      · rcases hst u hu hua with hs | hs <;> simp [Thread.holdsBack, hs]
    · by_cases hua : u ∈ active l h
      · rw [hun u hua]; exact (hact u hua).1
      · have haw := hst u hu hua
        rw [unyield_th m.w _ hu (by rcases haw with hs | hs <;> rw [hs] <;> exact TState.noConfusion)] at hc
        rcases haw with hs | hs <;> simp [Thread.atConv, hs] at hc

theorem waitForm_waited {i : Instr} {h : Hdr} (hi : waitForm i = some h) {l m : Lane}
    (ht : TurnsTaken l m h 8 (waitThread i l)) {k : Nat} (hk : k ∈ active l h) :
    waited i l.w.pc (idleThreads l h) ((m.settle l.w.batch).w.th k) := by
  cases i
  case convg => cases hi; exact conv_waited ht hk
  case yield => cases hi; exact yield_waited ht hk
  case exit => cases hi; exact exit_waited ht hk
  all_goals cases hi

/-- Settles O12: the turns of the active threads, then the end of yields and the release of convergence. -/
theorem waitResult : Obligations.WaitResult := by
  intro i s l h hl hi hc
  obtain ⟨m, he, hm, ht⟩ := waitForm_turns hi hl hc
  have hflow := (Lane.SameButFlow.settle m l.w.batch).trans hm
  exact ⟨_, _, he, putLane_onlyWarp hl hflow, hflow.warp,
    fun k hk => ht.settled_kept (fun j hj => waitThread_kept i hj) hk, fun k hk => waitForm_waited hi ht hk,
    fun k hk hn => ht.settled_past hk hn, fun k hk hn hat => ht.settled_bystander hk hn hat⟩

end Sys2Proof.Machine

namespace Sys2Proof.Machine

open Sys2Proof.Claims

/-! ## Warp-level instructions (R37, R43, R199) -/

theorem moveTo_th (l : Lane) (ts : List Nat) (a : VAddr) {t : Nat} (h : t < 32) :
    (l.moveTo ts a).w.th t = if t ∈ ts then { l.w.th t with pc := a, st := .eligible } else l.w.th t := by
  simp only [Lane.moveTo]
  rw [th_mk _ _ h]
  simp

theorem unrelease_th (l : Lane) (ts : List Nat) {t : Nat} (h : t < 32) :
    (l.unrelease ts).w.th t = if t ∈ ts then { l.w.th t with st := .eligible, derailed := false } else l.w.th t := by
  simp only [Lane.unrelease]
  rw [th_mk _ _ h]
  simp

/-- A runnable thread at the program counter of the batch is in the batch. -/
theorem mem_batch_of_runnable {w : Warp} (hne : w.batch ≠ []) {t : Nat} (h : t < 32) (hr : (w.th t).runnable = true)
    (hpc : (w.th t).pc = w.pc) : t ∈ w.batch := by
  unfold Warp.pc at hpc
  unfold Warp.batch at hne ⊢
  cases hp : w.lowest Thread.runnable with
  | none => rw [hp] at hne; exact absurd rfl hne
  | some p =>
    rw [hp] at hpc
    simpa [h, hr] using hpc

theorem mem_released {l : Lane} {k : Nat} : k ∈ released l ↔ k ∈ l.w.batch ∧ (l.w.th k).st = .released := by
  simp [released]

theorem released_lt {l : Lane} {k : Nat} (h : k ∈ released l) : k < 32 := batch_lt (mem_released.mp h).1

theorem released_pc {l : Lane} {k : Nat} (h : k ∈ released l) : (l.w.th k).pc = l.w.pc := (batch_runnable (mem_released.mp h).1).2

theorem released_nodup (l : Lane) : (released l).Nodup := (batch_nodup l.w).filter _

/-- The lane when a warp-level instruction begins to execute for the released threads. -/
def Lane.starts (l : Lane) : Lane := l.endChain.unrelease (released l)

theorem starts_flow (l : Lane) : l.starts.SameButFlow l := (Lane.SameButFlow.unrelease _ _).trans (.endChain l)

theorem starts_released {l : Lane} {k : Nat} (h : k ∈ released l) :
    (l.starts.w.th k).SameButLatches { l.w.th k with st := .eligible, derailed := false } := by
  have he := endChain_same l k
  unfold Lane.starts
  rw [unrelease_th _ _ (released_lt h), if_pos h]
  exact ⟨he.pc, rfl, he.v, he.p, he.pt, he.pp, rfl⟩

theorem starts_other {l : Lane} {k : Nat} (hk : k < 32) (h : k ∉ released l) : (l.starts.w.th k).SameButLatches (l.w.th k) := by
  unfold Lane.starts
  rw [unrelease_th _ _ hk, if_neg h]
  exact endChain_same l k

theorem starts_kept {l : Lane} {k : Nat} (hk : k < 32) : kept (l.w.th k) (l.starts.w.th k) := by
  by_cases h : k ∈ released l
  · exact kept_of_same (starts_released h) ⟨rfl, rfl, rfl, rfl⟩
  · exact kept_of_sameButLatches (starts_other hk h)

/-- A warp-level instruction that no wait holds back executes for the threads that convergence has released. -/
theorem warpLevelC_released {h : Hdr} {n : Nat} {wait : Ctx → List Nat → Bool} {body : VAddr → List Nat → Ctx → Ctx} {c : Ctx}
    (hu : unguarded h = true) (hr : released c.l ≠ []) (hw : wait c (released c.l) = false) :
    warpLevelC h n wait body c =
      (body c.l.w.pc (released c.l) { c with l := c.l.starts }).onL (fun l => l.settle (released c.l)) := by
  unfold released at hr hw
  have hne : (c.l.w.batch.filter (fun t => (c.l.w.th t).st == .released)).isEmpty = false := by simpa using hr
  simp only [warpLevelC, hu, hne, hw, released, Ctx.onL, Lane.starts, Bool.and_false, Bool.false_eq_true, if_false, if_true]

/-- With a guard the released threads derail instead, whatever the instruction would wait for. -/
theorem warpLevelC_guarded {h : Hdr} (n : Nat) (wait : Ctx → List Nat → Bool) (body : VAddr → List Nat → Ctx → Ctx) {c : Ctx}
    (hu : unguarded h = false) (hr : released c.l ≠ []) :
    warpLevelC h n wait body c =
      c.onL (fun l => (l.starts.guarded n l.w.pc (released l)).settle (released l)) := by
  unfold released at hr
  have hne : (c.l.w.batch.filter (fun t => (c.l.w.th t).st == .released)).isEmpty = false := by simpa using hr
  simp only [warpLevelC, hu, hne, released, Ctx.onL, Lane.starts, Bool.false_and, Bool.false_eq_true, if_false]

/-- The lane after its batch has parked at convergence, before yields and convergence. -/
def Lane.parked (l : Lane) : Lane :=
  Lane.endChain { l with w := { l.w with thr := (List.range 32).map (fun t =>
    if l.w.batch.contains t then { l.w.th t with st := .parkedConv false, derailed := false } else l.w.th t) } }

theorem parked_flow (l : Lane) : l.parked.SameButFlow l := ⟨rfl, rfl⟩

theorem parked_batch {l : Lane} {k : Nat} (h : k ∈ l.w.batch) :
    (l.parked.w.th k).SameButLatches { l.w.th k with st := .parkedConv false, derailed := false } := by
  refine (endChain_same _ k).trans ?_
  rw [th_mk _ _ (batch_lt h), if_pos (by simpa using h)]
  exact .refl _

theorem parked_other {l : Lane} {k : Nat} (hk : k < 32) (h : k ∉ l.w.batch) : (l.parked.w.th k).SameButLatches (l.w.th k) := by
  refine (endChain_same _ k).trans ?_
  rw [th_mk _ _ hk, if_neg (by simpa using h)]
  exact .refl _

/-- While a thread holds convergence back, the batch stays where it parked. -/
theorem settled_parked {l : Lane} {j k : Nat} (hj : j < 32) (hb : (l.parked.w.th j).holdsBack = true) (hk : k ∈ l.w.batch) :
    (l.parked.settle l.w.batch).w.th k = l.parked.w.th k := by
  rw [settle_of_holdsBack _ _ hj hb]
  exact unyield_th _ _ (batch_lt hk) (by rw [(parked_batch hk).st]; exact TState.noConfusion)

/-- Nobody of the batch is released at the instruction while a thread holds convergence back. -/
theorem parked_none_released {l : Lane} {j : Nat} (hne : l.w.batch ≠ []) (hj : j < 32) (hn : j ∉ l.w.batch) (hb : (l.w.th j).holdsBack = true) :
    (List.range 32).filter (fun t => ((l.parked.settle l.w.batch).w.th t).st == .released &&
      ((l.parked.settle l.w.batch).w.th t).pc == l.w.pc) = [] := by
  have hbj : (l.parked.w.th j).holdsBack = true := (holdsBack_of_st (parked_other hj hn).st).trans hb
  rw [List.filter_eq_nil_iff]
  intro k hk hrel
  have hk := List.mem_range.mp hk
  obtain ⟨hst, hpc⟩ : ((l.parked.settle l.w.batch).w.th k).st = .released ∧ ((l.parked.settle l.w.batch).w.th k).pc = l.w.pc := by
    simpa using hrel
  by_cases hkb : k ∈ l.w.batch
  · rw [settled_parked hj hbj hkb, (parked_batch hkb).st] at hst
    cases hst
  · obtain ⟨-, bpc, bst⟩ := settle_bystander_of_holdsBack (parked_other hk hkb) hk hkb hj hbj
    rw [bpc] at hpc
    rw [bst] at hst
    have hrun : (l.w.th k).st = .released := by
      by_cases hy : (l.w.th k).st = .yielded
      · rw [if_pos hy] at hst; cases hst
      · rwa [if_neg hy] at hst
    exact hkb (mem_batch_of_runnable hne hk (by simp [Thread.runnable, hrun]) hpc)

/-- A warp-level instruction that nobody is released at parks the batch at convergence while another thread holds it back. -/
theorem warpLevelC_parks {h : Hdr} {n : Nat} {wait : Ctx → List Nat → Bool} {body : VAddr → List Nat → Ctx → Ctx} {c : Ctx}
    (hne : c.l.w.batch ≠ []) (hr : released c.l = []) {j : Nat} (hj : j < 32) (hn : j ∉ c.l.w.batch) (hb : (c.l.w.th j).holdsBack = true) :
    warpLevelC h n wait body c = c.onL (fun l => l.parked.settle l.w.batch) := by
  have hnow := parked_none_released hne hj hn hb
  unfold Lane.parked at hnow
  unfold released at hr
  unfold warpLevelC
  simp only [hr, List.isEmpty_nil, if_true]
  rw [hnow]
  rfl

end Sys2Proof.Machine

namespace Sys2Proof.Machine

open Sys2Proof.Claims

/-! ## Batch records (R391, R399) -/

theorem crzRec_of_flow {l m : Lane} (hm : m.SameButFlow l) (cause unit t : Nat) (pc : VAddr) (va : Option VAddr) (batch : Bool) :
    m.crzRec cause unit t pc va batch = l.crzRec cause unit t pc va batch := by
  have hmem : m.w.member t = l.w.member t := by simp [Warp.member, hm.region]
  unfold Lane.crzRec
  rw [hmem, hm.clock, hm.warp]
  rfl

/-- The payload with which the threads `ts` derail. -/
def Lane.batchPayload (l : Lane) (ts : List Nat) (pc : VAddr) (cause : Nat) (va : Option VAddr) : Word :=
  (l.originate cause 0 (ts.headD 0) pc va true).2

theorem derailAll_eq {l : Lane} {ts : List Nat} (hne : ts ≠ []) (pc : VAddr) (cause : Nat) (va : Option VAddr) :
    l.derailAll ts pc cause va =
      (l.originate cause 0 (ts.headD 0) pc va true).1.derailWith ts (l.batchPayload ts pc cause va) := by
  obtain ⟨t, ts, rfl⟩ := List.exists_cons_of_ne_nil hne
  rfl

theorem derailAll_th {l : Lane} {ts : List Nat} (hne : ts ≠ []) (hn : ts.Nodup) (pc : VAddr) (cause : Nat) (va : Option VAddr)
    {u : Nat} (hu : u < 32) :
    (l.derailAll ts pc cause va).w.th u = if u ∈ ts then l.diverted u (l.batchPayload ts pc cause va) else l.w.th u := by
  rw [derailAll_eq hne, derailWith_th _ ts _ hn u hu]
  rfl

theorem derailAll_core {l : Lane} {ts : List Nat} (hne : ts ≠ []) (pc : VAddr) (cause : Nat) (va : Option VAddr) :
    ((l.derailAll ts pc cause va).core, l.batchPayload ts pc cause va) =
      l.core.record l.wg.core (l.crzRec cause 0 (ts.headD 0) pc va true) := by
  rw [derailAll_eq hne, derailWith_core]
  rfl

theorem derailAll_region {l : Lane} {ts : List Nat} (hne : ts ≠ []) (pc : VAddr) (cause : Nat) (va : Option VAddr) :
    (l.derailAll ts pc cause va).w.region = l.w.region.map (fun r => ts.foldl (fun r t =>
      if r.members.getLsbD t then r.setCraze t (l.batchPayload ts pc cause va) true l.clock else r) r) := by
  rw [derailAll_eq hne, derailWith_region, originate_w, originate_clock]

theorem derailAll_flow (l : Lane) (ts : List Nat) (pc : VAddr) (cause : Nat) (va : Option VAddr) :
    (l.derailAll ts pc cause va).w =
      { l.w with thr := (l.derailAll ts pc cause va).w.thr, region := (l.derailAll ts pc cause va).w.region } := by
  by_cases h : ts = []
  · rw [h]; rfl
  · rw [derailAll_eq h, derailWith_flow, originate_w]

/-! ## Every warp-level instruction (R37, R43, R94, R199) -/

/-- The warp-level instructions share one shape. -/
theorem exec_warpForm {i : Instr} {h : Hdr} {n : Nat} (hi : warpForm i = some (h, n)) :
    ∃ wait body, ∀ s, exec i s = onCtx s (warpLevelC h n wait body) := by
  cases i
  case bar => cases hi; exact ⟨_, _, fun _ => rfl⟩
  case kbar => cases hi; exact ⟨_, _, fun _ => rfl⟩
  case commit => cases hi; exact ⟨_, _, fun _ => rfl⟩
  case abort => cases hi; exact ⟨_, _, fun _ => rfl⟩
  case replay => cases hi; exact ⟨_, _, fun _ => rfl⟩
  case rgn => cases hi; exact ⟨_, _, fun _ => rfl⟩
  case trap => cases hi; exact ⟨_, _, fun _ => rfl⟩
  all_goals cases hi

theorem onCtx_eq {s : State} {l : Lane} (hl : s.lane? = some l) (f : Ctx → Ctx) :
    onCtx s f = .next ((f ⟨s, l⟩).s.putLane (f ⟨s, l⟩).l) := by
  unfold onCtx
  rw [hl]

theorem onCtx_lane {s : State} {l m : Lane} (hl : s.lane? = some l) {f : Ctx → Ctx} (h : f ⟨s, l⟩ = ⟨s, m⟩) :
    onCtx s f = .next (s.putLane m) := by
  rw [onCtx_eq hl, h]

/-- Threads that reach a warp-level instruction while another thread holds convergence back. -/
theorem warpForm_parks {i : Instr} {s : State} {l : Lane} {h : Hdr} {n : Nat} (hl : s.lane? = some l)
    (hi : warpForm i = some (h, n)) (hr : released l = []) {j : Nat} (hj : j < 32) (hn : j ∉ l.w.batch)
    (hb : (l.w.th j).holdsBack = true) : exec i s = .next (s.putLane (l.parked.settle l.w.batch)) := by
  obtain ⟨-, -, hne⟩ := lane?_some hl
  obtain ⟨wait, body, he⟩ := exec_warpForm hi
  rw [he]
  exact onCtx_lane hl (warpLevelC_parks (c := ⟨s, l⟩) hne hr hj hn hb)

/-- The released threads of a guarded warp-level instruction of `n` bytes, moved past it and derailed. -/
def Lane.refused (l : Lane) (n : Nat) : Lane := l.starts.guarded n l.w.pc (released l)

theorem warpForm_refused {i : Instr} {s : State} {l : Lane} {h : Hdr} {n : Nat} (hl : s.lane? = some l)
    (hi : warpForm i = some (h, n)) (hu : unguarded h = false) (hr : released l ≠ []) :
    exec i s = .next (s.putLane ((l.refused n).settle (released l))) := by
  obtain ⟨wait, body, he⟩ := exec_warpForm hi
  rw [he]
  exact onCtx_lane hl (warpLevelC_guarded n wait body (c := ⟨s, l⟩) hu hr)

/-- The released threads moved past a warp-level instruction, before they derail. -/
def Lane.passed (l : Lane) (n : Nat) : Lane := l.starts.moveTo (released l) (l.w.pc + BitVec.ofNat 57 n)

theorem passed_flow (l : Lane) (n : Nat) : (l.passed n).SameButFlow l := (Lane.SameButFlow.moveTo _ _ _).trans (starts_flow l)

theorem passed_released {l : Lane} (n : Nat) {k : Nat} (hk : k ∈ released l) :
    past n (l.w.th k) ((l.passed n).w.th k) ∧ kept (l.w.th k) ((l.passed n).w.th k) := by
  unfold Lane.passed
  rw [moveTo_th _ _ _ (released_lt hk), if_pos hk]
  exact ⟨⟨by rw [released_pc hk], rfl⟩, starts_kept (released_lt hk)⟩

theorem passed_other {l : Lane} (n : Nat) {k : Nat} (hk : k < 32) (hn : k ∉ released l) :
    ((l.passed n).w.th k).SameButLatches (l.w.th k) := by
  unfold Lane.passed
  rw [moveTo_th _ _ _ hk, if_neg hn]
  exact starts_other hk hn

/-- The payload of the batch record of a guarded warp-level instruction. -/
def Lane.refusal (l : Lane) (n : Nat) : Word := (l.passed n).batchPayload (released l) l.w.pc 0x01 none

theorem refused_eq (l : Lane) (n : Nat) : l.refused n = (l.passed n).derailAll (released l) l.w.pc 0x01 none := rfl

theorem refused_record {s : State} {l : Lane} (hl : s.lane? = some l) (n : Nat) (hr : released l ≠ []) :
    ((l.refused n).core, l.refusal n) =
      (s.core l.wg.core).record l.wg.core (l.crzRec 0x01 0 ((released l).headD 0) l.w.pc none true) := by
  obtain ⟨-, hl', -⟩ := lane?_some hl
  obtain ⟨-, -, -, hcore, -⟩ := laneOf_some hl'
  have hf := passed_flow l n
  rw [refused_eq, Lane.refusal, derailAll_core hr, hf.core, hf.wg, crzRec_of_flow hf, hcore]

theorem refused_onlyFlow (l : Lane) (n : Nat) : onlyFlow l (l.refused n).w := by
  unfold onlyFlow
  rw [refused_eq, derailAll_flow, (passed_flow l n).warp]

/-- The released threads derail with the payload of the record. -/
theorem refused_derailed {l : Lane} (n : Nat) {k : Nat} (hk : k ∈ released l) :
    derailed l k (l.refusal n) (l.w.th k) (((l.refused n).settle (released l)).w.th k) := by
  have hf := passed_flow l n
  obtain ⟨hy, hc, -⟩ := diverted_st (l.passed n) k (l.refusal n)
  have hth : (l.refused n).w.th k = (l.passed n).diverted k (l.refusal n) := by
    rw [refused_eq, derailAll_th (List.ne_nil_of_mem hk) (released_nodup l) _ _ _ (released_lt hk), if_pos hk]
    rfl
  rw [settle_th_of _ _ (released_lt hk) (by rw [hth]; exact hy) (by rw [hth]; exact hc), hth]
  exact diverted_derailed hf.wg hf.region (passed_released n hk).2

theorem refused_bystander {l : Lane} (n : Nat) (hr : released l ≠ []) {k : Nat} (hk : k < 32) (hn : k ∉ released l)
    (hc : (l.w.th k).atConv = false) : bystander (l.w.th k) (((l.refused n).settle (released l)).w.th k) := by
  refine settle_bystander_of_same ?_ hk hn hc
  rw [refused_eq, derailAll_th hr (released_nodup l) _ _ _ hk, if_neg hn]
  exact passed_other n hk hn

theorem refused_crazedBy (l : Lane) (n : Nat) (hr : released l ≠ []) :
    crazedBy (released l) (l.refusal n) l ((l.refused n).settle (released l)).w := by
  have hf := passed_flow l n
  refine crazedBy_of ?_
  rw [(Lane.SameButFlow.settle _ _).region, refused_eq, derailAll_region hr, hf.region, hf.clock]
  rfl

/-- Settles O29: the batch parks and nobody is released, or the released threads derail with one record. -/
theorem warpLevelForms : Obligations.WarpLevelForms := by
  refine ⟨fun i s l h n hl hi hr hex => ?_, fun i s l h n hl hi hu hr => ?_⟩
  · obtain ⟨j, hj, hn, hb⟩ := hex
    have hflow := (Lane.SameButFlow.settle l.parked l.w.batch).trans (parked_flow l)
    have hbj : (l.parked.w.th j).holdsBack = true := (holdsBack_of_st (parked_other hj hn).st).trans hb
    refine ⟨_, _, warpForm_parks hl hi hr hj hn hb, putLane_onlyWarp hl hflow, hflow.warp, fun k hk => ?_, fun k hk hkb => ?_⟩
    · have hp := parked_batch hk
      rw [settled_parked hj hbj hk]
      exact ⟨⟨hp.v, hp.p, hp.pt, hp.pp⟩, hp.pc.trans (batch_runnable hk).2, hp.st⟩
    · exact settle_bystander_of_holdsBack (parked_other hk hkb) hk hkb hj hbj
  · have hs := Lane.SameButFlow.settle (l.refused n) (released l)
    have hwg : (l.refused n).wg = l.wg := by rw [refused_eq, derailAll_wg, (passed_flow l n).wg]
    have href : (l.refused n).ref = l.ref := by rw [refused_eq, derailAll_ref, (passed_flow l n).ref]
    refine ⟨_, _, l.refusal n, warpForm_refused hl hi hu hr, putLane_onlyLane hl (hs.ref.trans href) (hs.wg.trans hwg), ?_, ?_,
      fun k hk => refused_derailed n hk, refused_crazedBy l n hr, fun k hk hn hc => refused_bystander n hr hk hn hc⟩
    · have hf := refused_onlyFlow l n
      unfold onlyFlow at hf ⊢
      rw [hs.warp, hf]
    · have hcore := core_putLane_same s ((l.refused n).settle (released l))
      rw [hs.wg, hwg, hs.core] at hcore
      rw [hcore, refused_record hl n hr]

end Sys2Proof.Machine

namespace Sys2Proof.Machine

open Sys2Proof.Claims

/-! ## `rgn` (R205, R410) -/

/-- Units that a warp has reserved do not hang on its threads and its chain. -/
theorem units_of_flow {l m : Lane} (h : m.SameButFlow l) : m.w.units = l.w.units := by
  unfold Warp.units
  rw [h.warp]

theorem reserved_of_flow {s : State} {l m : Lane} (h : m.SameButFlow l) (f : Wg → Bool) (hf : ∀ g ws, f { g with warps := ws } = f g) :
    Ctx.reserved ⟨s, m⟩ f = Ctx.reserved ⟨s, l⟩ f := by
  have hunits : ∀ g : Wg, ((g.warps.set l.ref.warp m.w).map Warp.units).sum = ((g.warps.set l.ref.warp l.w).map Warp.units).sum := by
    intro g
    rw [List.map_set, List.map_set, units_of_flow h]
  unfold Ctx.reserved
  simp only [h.ref, h.wg]
  refine congrArg List.sum (List.map_congr_left (fun e _ => ?_))
  by_cases he : e.1 = l.ref.wg
  · simp only [he, if_true, hf, hunits]
  · simp only [he, if_false]

theorem canReserve_of_flow {s : State} {l m : Lane} (h : m.SameButFlow l) (u : Nat) :
    Ctx.canReserve ⟨s, m⟩ u = Ctx.canReserve ⟨s, l⟩ u := by
  unfold Ctx.canReserve
  simp only [h.wg]
  rw [reserved_of_flow h _ (fun _ _ => rfl)]
  congr 2
  funext q
  rw [reserved_of_flow h _ (fun _ _ => rfl)]

theorem sendTo_th (l : Lane) (m : BitVec 32) (pc : VAddr) {t : Nat} (h : t < 32) :
    (l.sendTo m pc).w.th t =
      if m.getLsbD t && !(l.w.th t).gone then { l.w.th t with pc := pc, st := .eligible, derailed := false } else l.w.th t := by
  simp only [Lane.sendTo]
  exact th_mk _ _ h

theorem parkAll_th (ts : List Nat) (l : Lane) (hn : ts.Nodup) (pc : VAddr) (p : Park) {u : Nat} (hu : u < 32) :
    (l.parkAll ts pc p).w.th u = if u ∈ ts then { l.w.th u with pc := pc, st := .parkedEvent p } else l.w.th u :=
  (foldl_setTh (fun x => { x with pc := pc, st := .parkedEvent p }) ts l hn).2 u hu

theorem parkAll_chain (l : Lane) (ts : List Nat) (pc : VAddr) (p : Park) : (l.parkAll ts pc p).w.chain = l.w.chain := by
  unfold Lane.parkAll
  induction ts generalizing l with
  | nil => rfl
  | cons t ts ih => exact ih _

/-- A `rgn` that may open a region and whose reservation is granted. -/
theorem exec_rgn_granted {s : State} {l : Lane} {h : Hdr} {e : Ext} (hl : s.lane? = some l) (hu : unguarded h = true)
    (hr : released l ≠ []) (hs : rgnSound l e) (hg : Ctx.canReserve ⟨s, l⟩ (rgnRes e) = true) :
    exec (.rgn h e) s = .next (s.putLane ((l.starts.openRegion l.w.pc (rgnRes e) (l.w.pc + (rgnTgt e).signExtend 57)
      (maskOf (released l))).settle (released l))) := by
  obtain ⟨hzero, htgt, hreg, hsag, hnever⟩ := hs
  have hf := starts_flow l
  refine onCtx_lane hl ((warpLevelC_released (c := ⟨s, l⟩) hu hr rfl).trans ?_)
  simp only [hzero, htgt, hf.region, hreg, hf.wg, hnever, Nat.not_lt.mpr hsag, canReserve_of_flow hf, hg, Ctx.onL, bne_self_eq_false,
    Bool.or_self, Option.isSome_none, Bool.false_eq_true, if_false, if_true]

/-- The lane when the `rgn` of its released threads begins to wait for its reservation. -/
def Lane.rgnWaiting (l : Lane) (e : Ext) : Lane :=
  { l.starts with w := { l.starts.w with
      rgnWait := some ⟨l.w.pc, rgnRes e, l.w.pc + (rgnTgt e).signExtend 57, maskOf (released l)⟩ } }

/-- A `rgn` that may open a region and whose reservation is not granted now. -/
theorem exec_rgn_waits {s : State} {l : Lane} {h : Hdr} {e : Ext} (hl : s.lane? = some l) (hu : unguarded h = true)
    (hr : released l ≠ []) (hs : rgnSound l e) (hg : Ctx.canReserve ⟨s, l⟩ (rgnRes e) = false) :
    exec (.rgn h e) s = .next (s.putLane (((l.rgnWaiting e).parkAll (released l) l.w.pc .rgn).settle (released l))) := by
  obtain ⟨hzero, htgt, hreg, hsag, hnever⟩ := hs
  have hf := starts_flow l
  refine onCtx_lane hl ((warpLevelC_released (c := ⟨s, l⟩) hu hr rfl).trans ?_)
  simp only [hzero, htgt, hf.region, hreg, hf.wg, hnever, Nat.not_lt.mpr hsag, canReserve_of_flow hf, hg, Ctx.onL, bne_self_eq_false,
    Bool.or_self, Option.isSome_none, Bool.false_eq_true, if_false, Lane.rgnWaiting]

/-- A `rgn` of threads that are no members of the open region. -/
theorem exec_rgn_closed {s : State} {l : Lane} {h : Hdr} {e : Ext} (hl : s.lane? = some l) (hu : unguarded h = true)
    (hr : released l ≠ []) (hzero : e.extractLsb' 40 24 = 0) (htgt : rgnTgt e % 8 = 0) (hreg : l.w.region.isSome)
    (hno : ∀ k ∈ released l, l.w.member k = false) :
    exec (.rgn h e) s = .next (s.putLane ((l.starts.parkAll (released l) l.w.pc .closed).settle (released l))) := by
  have hf := starts_flow l
  have hmem : (released l).any l.starts.w.member = false := by
    rw [List.any_eq_false]
    intro k hk
    rw [Warp.member, hf.region, ← Warp.member, hno k hk]
    exact Bool.false_ne_true
  refine onCtx_lane hl ((warpLevelC_released (c := ⟨s, l⟩) hu hr rfl).trans ?_)
  simp only [hzero, htgt, hf.region, hreg, hmem, Ctx.onL, bne_self_eq_false, Bool.or_self, Bool.false_eq_true, if_false, if_true]

/-! ### The region is opened -/

theorem gone_of_eligible {x : Thread} (h : x.st = .eligible) : x.gone = false := by simp [Thread.gone, h]

/-- The threads when a region opens: the released ones have gone on past the `rgn`. -/
theorem openRegion_released {l : Lane} (res : Nat) (a : VAddr) {k : Nat} (hk : k ∈ released l) :
    past 16 (l.w.th k) ((l.starts.openRegion l.w.pc res a (maskOf (released l))).w.th k) ∧
      kept (l.w.th k) ((l.starts.openRegion l.w.pc res a (maskOf (released l))).w.th k) := by
  have hs := starts_released hk
  have hbit := (maskOf_bit (released l) k (fun t ht => released_lt ht)).mpr hk
  unfold Lane.openRegion
  rw [sendTo_th _ _ _ (released_lt hk)]
  have hgone : (l.starts.w.th k).gone = false := gone_of_eligible hs.st
  rw [if_pos (by rw [hbit]; exact congrArg (!·) hgone)]
  exact ⟨⟨by rw [released_pc hk]; rfl, rfl⟩, hs.v, hs.p, hs.pt, hs.pp⟩

theorem openRegion_other {l : Lane} (res : Nat) (a : VAddr) {k : Nat} (hk : k < 32) (hn : k ∉ released l) :
    ((l.starts.openRegion l.w.pc res a (maskOf (released l))).w.th k).SameButLatches (l.w.th k) := by
  have hbit : (maskOf (released l)).getLsbD k = false :=
    Bool.eq_false_iff.mpr (fun h => hn ((maskOf_bit (released l) k (fun t ht => released_lt ht)).mp h))
  unfold Lane.openRegion
  rw [sendTo_th _ _ _ hk, if_neg (by rw [hbit]; exact Bool.false_ne_true)]
  exact starts_other hk hn

/-- When the released threads have gone on, they are settled: the other threads are bystanders. -/
theorem wentOn_of {l m : Lane} {n : Nat} (hr : released l ≠ [])
    (hrel : ∀ k ∈ released l, past n (l.w.th k) (m.w.th k) ∧ kept (l.w.th k) (m.w.th k))
    (hoth : ∀ k < 32, k ∉ released l → (m.w.th k).SameButLatches (l.w.th k)) :
    wentOn n l (m.settle (released l)).w := by
  refine ⟨fun k hk => ?_, fun k hk hn => ?_⟩
  · obtain ⟨⟨hpc, hst⟩, hkept⟩ := hrel k hk
    rw [settle_th_of m _ (released_lt hk) (by rw [hst]; exact TState.noConfusion) (by simp [Thread.atConv, hst])]
    exact ⟨⟨hpc, hst⟩, hkept⟩
  · obtain ⟨j, hj⟩ := List.exists_mem_of_ne_nil _ hr
    refine settle_bystander_of_holdsBack (hoth k hk hn) hk hn (released_lt hj) ?_
    simp [Thread.holdsBack, (hrel j hj).1.2]

/-- When the released threads have parked for an event, they are settled, up to the threads at convergence. -/
theorem parkAll_settled {l m : Lane} (p : Park) (hth : ∀ k < 32, m.w.th k = l.starts.w.th k) {k : Nat} (hk : k ∈ released l) :
    kept (l.w.th k) (((m.parkAll (released l) l.w.pc p).settle (released l)).w.th k) ∧
      (((m.parkAll (released l) l.w.pc p).settle (released l)).w.th k).pc = l.w.pc ∧
      (((m.parkAll (released l) l.w.pc p).settle (released l)).w.th k).st = .parkedEvent p := by
  have hlt := released_lt hk
  have hpark := parkAll_th (released l) m (released_nodup l) l.w.pc p hlt
  rw [if_pos hk, hth k hlt] at hpark
  rw [settle_th_of _ _ hlt (by rw [hpark]; exact TState.noConfusion) (by rw [hpark]; rfl), hpark]
  exact ⟨starts_kept hlt, rfl, rfl⟩

theorem parkAll_other {l m : Lane} (p : Park) (hth : ∀ k < 32, m.w.th k = l.starts.w.th k) {k : Nat} (hk : k < 32)
    (hn : k ∉ released l) : ((m.parkAll (released l) l.w.pc p).w.th k).SameButLatches (l.w.th k) := by
  rw [parkAll_th (released l) m (released_nodup l) l.w.pc p hk, if_neg hn, hth k hk]
  exact starts_other hk hn

/-- Threads that park for an event other than the close of a region hold convergence back. -/
theorem waits_of {l m : Lane} {p : Park} (hp : p ≠ .closed) (hr : released l ≠ []) (hth : ∀ k < 32, m.w.th k = l.starts.w.th k) :
    waits p l ((m.parkAll (released l) l.w.pc p).settle (released l)).w := by
  refine ⟨fun k hk => parkAll_settled p hth hk, fun k hk hn => ?_⟩
  obtain ⟨j, hj⟩ := List.exists_mem_of_ne_nil _ hr
  refine settle_bystander_of_holdsBack (parkAll_other p hth hk hn) hk hn (released_lt hj) ?_
  rw [parkAll_th (released l) m (released_nodup l) l.w.pc p (released_lt hj), if_pos hj]
  cases p
  case closed => exact absurd rfl hp
  all_goals rfl

/-- Threads and chain are all that yields and convergence leave open. -/
theorem settle_warp (l : Lane) (b : List Nat) : (l.settle b).w = { l.w with thr := (l.settle b).w.thr, chain := l.w.chain } := by
  have h := (Lane.SameButFlow.settle l b).warp
  rwa [settle_chain] at h

theorem openRegion_warp (l : Lane) (e : Ext) :
    let m := l.starts.openRegion l.w.pc (rgnRes e) (l.w.pc + (rgnTgt e).signExtend 57) (maskOf (released l))
    m.w = { l.w with thr := m.w.thr, chain := 0, rseq := l.w.rseq + 1, nextTag := l.w.nextTag + 1,
                     region := some (opened l e (released l)), rgnWait := none } := rfl

/-- A `rgn` whose reservation is granted: the region is open, and the records made outside regions are free. -/
theorem rgn_opens {s : State} {l : Lane} {h : Hdr} {e : Ext} (hl : s.lane? = some l) (hu : unguarded h = true)
    (hr : released l ≠ []) (hs : rgnSound l e) (hg : Ctx.canReserve ⟨s, l⟩ (rgnRes e) = true) :
    ∃ t w, exec (.rgn h e) s = .next t ∧ onlyLane s t l w ∧ wentOn 16 l w ∧
      (t.core l.wg.core) = { s.core l.wg.core with
        crz := (s.core l.wg.core).crz.filter (fun r => r.1 == 511 || !(r.2.wslot == l.w.wslot && !r.2.flags.getLsbD 3)) } ∧
      w = { l.w with thr := w.thr, chain := 0, rseq := l.w.rseq + 1, nextTag := l.w.nextTag + 1,
                     region := some (opened l e (released l)), rgnWait := none } := by
  obtain ⟨-, hl', -⟩ := lane?_some hl
  obtain ⟨-, -, -, hcore, -⟩ := laneOf_some hl'
  refine ⟨_, _, exec_rgn_granted hl hu hr hs hg, putLane_onlyLane hl rfl rfl,
    wentOn_of hr (fun k hk => openRegion_released _ _ hk) (fun k hk hn => openRegion_other _ _ hk hn), ?_, ?_⟩
  · rw [← hcore]
    exact core_putLane_same s _
  · rw [settle_warp, openRegion_warp]

theorem rgn_waits {s : State} {l : Lane} {h : Hdr} {e : Ext} (hl : s.lane? = some l) (hu : unguarded h = true)
    (hr : released l ≠ []) (hs : rgnSound l e) (hg : Ctx.canReserve ⟨s, l⟩ (rgnRes e) = false) :
    ∃ t w, exec (.rgn h e) s = .next t ∧ onlyWarp s t l w ∧ waits .rgn l w ∧
      w = { l.w with thr := w.thr, chain := 0,
                     rgnWait := some ⟨l.w.pc, rgnRes e, l.w.pc + (rgnTgt e).signExtend 57, maskOf (released l)⟩ } := by
  have hpark := Lane.SameButFlow.parkAll (l.rgnWaiting e) (released l) l.w.pc .rgn
  have hset := (Lane.SameButFlow.settle _ (released l)).trans hpark
  have hchain : ((l.rgnWaiting e).parkAll (released l) l.w.pc .rgn).w.chain = 0 :=
    parkAll_chain (l.rgnWaiting e) (released l) l.w.pc .rgn
  refine ⟨_, _, exec_rgn_waits hl hu hr hs hg, putLane_only hl hset.ref hset.wg hset.core,
    waits_of Park.noConfusion hr (fun _ _ => rfl), ?_⟩
  rw [settle_warp, hpark.warp, hchain]
  rfl

theorem rgn_closed {s : State} {l : Lane} {h : Hdr} {e : Ext} (hl : s.lane? = some l) (hu : unguarded h = true)
    (hr : released l ≠ []) (hzero : e.extractLsb' 40 24 = 0) (htgt : rgnTgt e % 8 = 0) (hreg : l.w.region.isSome)
    (hno : ∀ k ∈ released l, l.w.member k = false) :
    ∃ t w, exec (.rgn h e) s = .next t ∧ onlyWarp s t l w ∧ onlyThreads l w ∧
      (∀ k ∈ released l, kept (l.w.th k) (w.th k) ∧ (w.th k).pc = l.w.pc ∧ (w.th k).st = .parkedEvent .closed) ∧
      (∀ k < 32, k ∉ released l → (l.w.th k).atConv = false → bystander (l.w.th k) (w.th k)) := by
  have hflow := (Lane.SameButFlow.settle _ (released l)).trans
    ((Lane.SameButFlow.parkAll l.starts (released l) l.w.pc .closed).trans (starts_flow l))
  exact ⟨_, _, exec_rgn_closed hl hu hr hzero htgt hreg hno, putLane_onlyWarp hl hflow, hflow.warp,
    fun k hk => parkAll_settled .closed (fun _ _ => rfl) hk,
    fun k hk hn hc => settle_bystander_of_same (parkAll_other .closed (fun _ _ => rfl) hk hn) hk hn hc⟩

/-- Settles O31: members open or wait for the reservation, and threads that are no members park until the close. -/
theorem regionOpens : Obligations.RegionOpens :=
  ⟨fun _ _ _ _ hl hu hr hs => ⟨rgn_opens hl hu hr hs, rgn_waits hl hu hr hs⟩,
    fun _ _ _ _ hl hu hr hzero htgt hreg hno => rgn_closed hl hu hr hzero htgt hreg hno⟩

end Sys2Proof.Machine

namespace Sys2Proof.Machine

open Sys2Proof.Claims

/-! ## Forms that reach the machine: done, held back, refused -/

section
variable {f : Form} {wait : Ctx → List Nat → Bool} {body : VAddr → List Nat → Ctx → Ctx} {s : State} {l : Lane}

/-- An instruction without a fault that nothing holds back: its body, then yields and convergence. -/
theorem execC_done (hl : s.lane? = some l) (hr : l.w.ready f.regs = true) (hf : active l f.h ≠ [] → f.fault l = none)
    (hw : wait ⟨s, l⟩ (active l f.h) = false) {c : Ctx} (hc : body l.w.pc (active l f.h) ⟨s, l.advance l.w.batch f.size⟩ = c) :
    f.execC wait body s = .next (c.s.putLane (c.l.endChain.settle l.w.batch)) := by
  have hfault : (if (active l f.h).isEmpty then none else f.fault l) = none := by
    by_cases he : active l f.h = []
    · simp [he]
    · simp [hf he]
  unfold active at hw hc hfault
  simp only [Form.execC, onCtx, hl, Form.runC, hr, Bool.not_true, Bool.false_eq_true, if_false, hfault, hw, Ctx.onL, hc]

/-- An instruction that something holds back changes nothing. -/
theorem execC_waits (hl : s.lane? = some l) (hf : active l f.h ≠ [] → f.fault l = none)
    (hw : wait ⟨s, l⟩ (active l f.h) = true) : f.execC wait body s = .next (s.putLane l) := by
  have hfault : (if (active l f.h).isEmpty then none else f.fault l) = none := by
    by_cases he : active l f.h = []
    · simp [he]
    · simp [hf he]
  unfold active at hw hfault
  simp only [Form.execC, onCtx, hl, Form.runC, hfault, hw, if_true, ite_self]

/-- An instruction that is refused at issue derails its active threads. -/
theorem execC_refused (hl : s.lane? = some l) (hr : l.w.ready f.regs = true) (ha : active l f.h ≠ []) {c : Nat}
    (hf : f.fault l = some c) :
    f.execC wait body s = .next (s.putLane
      (((l.advance l.w.batch f.size).endChain.derailAll (active l f.h) l.w.pc c none).settle l.w.batch)) := by
  have hfault : (if (active l f.h).isEmpty then none else f.fault l) = some c := by simp [ha, hf]
  unfold active at hfault
  simp only [Form.execC, onCtx, hl, Form.runC, hr, Bool.not_true, Bool.false_eq_true, if_false, hfault, Ctx.onL]
  rfl

end

/-- The batch after it has advanced and its chain has ended. -/
theorem advanced_turns (l : Lane) (h : Hdr) (n : Nat) {m : Lane} {F : Nat → Thread}
    (hth : ∀ u < 32, m.w.th u = if u ∈ active l h then F u else (l.advance l.w.batch n).w.th u) :
    TurnsTaken l m.endChain h n F :=
  .of_advanced (fun u hu => by rw [← hth u hu]; exact endChain_same m u)

/-- The batch has moved on when every active thread has. -/
theorem TurnsTaken.moved_of {l m : Lane} {h : Hdr} {n : Nat} {F : Nat → Thread} (ht : TurnsTaken l m h n F)
    (hF : ∀ k ∈ active l h, past n (l.w.th k) (F k) ∧ kept (l.w.th k) (F k)) (hne : l.w.batch ≠ []) :
    moved n l (m.settle l.w.batch).w := by
  have hbatch : ∀ k ∈ l.w.batch, past n (l.w.th k) ((m.settle l.w.batch).w.th k) ∧
      kept (l.w.th k) ((m.settle l.w.batch).w.th k) := by
    intro k hk
    by_cases hka : k ∈ active l h
    · obtain ⟨⟨hpc, hst⟩, hkept⟩ := hF k hka
      have hs := ht.settled_act hka (by rw [hst]; exact TState.noConfusion) (by simp [Thread.atConv, hst])
      exact ⟨⟨hs.pc.trans hpc, hs.st.trans hst⟩, kept_of_same hs hkept⟩
    · exact ht.settled_past hk hka
  have hgo : ∀ k ∈ l.w.batch, (m.w.th k).st = .eligible := by
    intro k hk
    by_cases hka : k ∈ active l h
    · exact (ht.act k hka).st.trans (hF k hka).1.2
    · exact (ht.idle k hk hka).st
  obtain ⟨j, hj⟩ := List.exists_mem_of_ne_nil _ hne
  refine ⟨hbatch, fun k hk hn => ?_⟩
  exact settle_bystander_of_holdsBack (ht.other k hk hn) hk hn (batch_lt hj) (by simp [Thread.holdsBack, hgo j hj])

theorem advance_past {l : Lane} {h : Hdr} (n : Nat) {k : Nat} (hk : k ∈ active l h) :
    past n (l.w.th k) ((l.advance l.w.batch n).w.th k) ∧ kept (l.w.th k) ((l.advance l.w.batch n).w.th k) := by
  rw [advance_active hk]
  exact ⟨⟨rfl, rfl⟩, rfl, rfl, rfl, rfl⟩

/-- A lane put back that has changed its workgroup and its warp. -/
theorem putLane_onlyGroup {s : State} {l m : Lane} (h : s.lane? = some l) (hr : m.ref = l.ref) (hws : m.wg.warps = l.wg.warps)
    (hgc : m.wg.core = l.wg.core) (hc : m.core = l.core) : onlyGroup s (s.putLane m) l m.wg m.w := by
  obtain ⟨-, hl, -⟩ := lane?_some h
  obtain ⟨-, -, hw, hk, -⟩ := laneOf_some hl
  have hlt : l.ref.warp < l.wg.warps.length := (List.getElem?_eq_some_iff.mp hw).1
  refine ⟨rfl, fun a => rfl, ?_, fun n hn => wg?_putLane_other s m (by rwa [hr]), fun c => ?_⟩
  · have hg := wg?_putLane_same s m
    rw [hr, hws] at hg
    unfold State.warp?
    rw [hg]
    simp [hlt]
  · by_cases e : c = l.wg.core
    · have hsame := core_putLane_same s m
      rw [hgc, hc, hk] at hsame
      rw [e, hsame]
    · exact core_putLane_other s m (by rwa [hgc])

/-! ## Array instructions at issue (R219, R220) -/

/-- `msoak` alone waits for its entry (R248). -/
def matPark : Instr → Bool
  | .msoak .. => true
  | _ => false

/-- The operands of `i` in an entry of the matrix queue, as they are at issue. -/
def matOperands (i : Instr) (f : MatForm) (l : Lane) (x : MEntry) : MEntry :=
  { x with a := (match (matWide l i).2 with | some p => ⟨p, true⟩ | none => warpWord l f.a), b := warpWord l f.b, c := warpWord l f.c,
           wide := (matWide l i).1 }

/-- The faults of issue of an opcode of the matrix queue, besides its role (R219, R231 to R241, R404). -/
def matBad (i : Instr) (l : Lane) : Bool :=
  match i with
  | .mcoef _ dst _ | .mnorm _ _ _ dst _ => dst.extractLsb' 4 4 != 0
  | .mcoefS _ dst a _ => dst.extractLsb' 4 4 != 0 || !matSrcOk 2 a
  | .mchain _ m => m != .off && l.wg.info.kg != 4
  | .mlds _ _ a b c _ | .mma _ _ _ _ a b c _ => badSrcs ([a, b] ++ c.toList)
  | .mzero _ dst _ => dst.extractLsb' 5 3 != 0
  | .mldacc _ _ a b _ | .mstore _ _ a b _ => badSrcs [a, b]
  | .mstoreSs _ _ a _ | .mstoreMc _ _ a _ => badSrcs [a]
  | _ => false

/-- An entry of the matrix queue before its sources are read. -/
def noOperands (x : MEntry) : Prop := x.a = ⟨0, false⟩ ∧ x.b = ⟨0, false⟩ ∧ x.c = ⟨0, false⟩ ∧ x.wide = 0

/-- What reads the sources is given an entry without operands. -/
theorem matIssue_congr {fill fill' : Lane → MEntry → MEntry} (h : ∀ l x, noOperands x → fill l x = fill' l x) (hd : Hdr) (size : Nat)
    (bad : Lane → Bool) (park : Bool) (i : Instr) (s : State) :
    matIssue hd size bad park i fill s = matIssue hd size bad park i fill' s := by
  unfold matIssue
  congr 1
  funext pc act c
  cases act with
  | nil => rfl
  | cons t ts =>
    refine congrArg c.onL (funext fun l => ?_)
    dsimp only
    rw [h]
    exact ⟨rfl, rfl, rfl, rfl⟩

theorem matWord_eq (l : Lane) (x : Src) : l.matWord x = warpWord l (some x) := by
  unfold Lane.matWord Lane.matRead warpWord
  rw [Option.bind_some]
  cases readSrc l.w Thread.vacant 0 .i32 x with
  | none => rfl
  | some v => obtain ⟨v, c⟩ := v; cases c <;> rfl

theorem matWord_getD (l : Lane) (x : Option Src) : (x.map l.matWord).getD ⟨0, false⟩ = warpWord l x := by
  cases x with
  | none => rfl
  | some x => exact matWord_eq l x

theorem noSrc_fill {i : Instr} {f : MatForm} (ha : f.a = none) (hb : f.b = none) (hc : f.c = none)
    (hw : ∀ l, matWide l i = (0, none)) (l : Lane) (x : MEntry) (hx : noOperands x) : noSrc l x = matOperands i f l x := by
  obtain ⟨xa, xb, xc, xw⟩ := hx
  unfold noSrc matOperands
  rw [ha, hb, hc, hw]
  cases x
  subst xa xb xc xw
  rfl

theorem abc_fill {i : Instr} {f : MatForm} {a b c : Option Src} (ha : f.a = a) (hb : f.b = b) (hc : f.c = c)
    (hw : ∀ l, matWide l i = (0, none)) (l : Lane) (x : MEntry) (hx : noOperands x) : abc a b c l x = matOperands i f l x := by
  obtain ⟨-, -, -, xw⟩ := hx
  subst ha hb hc
  unfold abc matOperands
  rw [hw, matWord_getD, matWord_getD, matWord_getD]
  show { x with a := _, b := _, c := _ } = { x with a := _, b := _, c := _, wide := 0 }
  rw [← xw]

theorem wide_fill (h : Hdr) (dst : BitVec 8) (e : Ext) (f : MatForm) (ha : f.a = none) (hb : f.b = none) (hc : f.c = none) (l : Lane)
    (x : MEntry) (hx : noOperands x) : { x with wide := e } = matOperands (.mcoef h dst e) f l x := by
  obtain ⟨xa, xb, xc, xw⟩ := hx
  unfold matOperands
  rw [ha, hb, hc]
  cases x
  subst xa xb xc xw
  rfl

/-- How `mcoef.s` reads its coefficient into an entry (R231). -/
def pairFill (a : Src) (l : Lane) (x : MEntry) : MEntry :=
  { x with wide := (l.matRead .f64 0 a).1,
           a := match (l.matRead .f64 0 a).2 with | some p => ⟨p, true⟩ | none => ⟨0, false⟩ }

/-- A coefficient from scalar registers carries its craze in place of a source (R231). -/
theorem pair_fill (h : Hdr) (dst : BitVec 8) (a : Src) (e : Ext) (f : MatForm) (ha : f.a = none) (hb : f.b = none) (hc : f.c = none)
    (l : Lane) (x : MEntry) (hx : noOperands x) :
    pairFill a l x = matOperands (.mcoefS h dst a e) f l x := by
  obtain ⟨-, xb, xc, -⟩ := hx
  unfold matOperands
  rw [ha, hb, hc]
  cases x
  subst xb xc
  rfl

/-- The opcodes of the matrix queue issue in one way: they differ in their faults and their operands. -/
theorem exec_matForm {kg : Nat} {i : Instr} {f : MatForm} (hi : matForm kg i = some f) (s : State) :
    exec i s = matIssue f.h f.size (matBad i) (matPark i) i (matOperands i f) s := by
  have issue (i : Instr) (f : MatForm) (fill : Lane → MEntry → MEntry) (h : ∀ l x, noOperands x → fill l x = matOperands i f l x) :
      matIssue f.h f.size (matBad i) (matPark i) i fill s = matIssue f.h f.size (matBad i) (matPark i) i (matOperands i f) s :=
    matIssue_congr h ..
  have bare (i : Instr) (f : MatForm) (ha : f.a = none) (hb : f.b = none) (hc : f.c = none) (hw : ∀ l, matWide l i = (0, none)) :=
    issue i f noSrc (noSrc_fill ha hb hc hw)
  have read (i : Instr) (f : MatForm) (hw : ∀ l, matWide l i = (0, none)) :=
    issue i f (abc f.a f.b f.c) (abc_fill rfl rfl rfl hw)
  cases i
  case mcoef h dst e => cases hi; exact issue (.mcoef h dst e) ⟨h, 16, none, none, none, _⟩ (fun _ x => { x with wide := e }) (wide_fill h dst e _ rfl rfl rfl)
  case mcoefS h dst a e => cases hi; exact issue (.mcoefS h dst a e) ⟨h, 16, none, none, none, _⟩ (pairFill a) (pair_fill h dst a e _ rfl rfl rfl)
  case mchain h m => cases hi; exact bare (.mchain h m) ⟨h, 8, none, none, none, _⟩ rfl rfl rfl (fun _ => rfl)
  case mlds h arv a b c e => cases hi; exact read (.mlds h arv a b c e) ⟨h, 16, some a, some b, c, _⟩ (fun _ => rfl)
  case mswap h => cases hi; exact bare (.mswap h) ⟨h, 8, none, none, none, _⟩ rfl rfl rfl (fun _ => rfl)
  case mzero h dst n => cases hi; exact bare (.mzero h dst n) ⟨h, 8, none, none, none, _⟩ rfl rfl rfl (fun _ => rfl)
  case mma h z arv ch a b c e => cases hi; exact read (.mma h z arv ch a b c e) ⟨h, 16, some a, some b, c, _⟩ (fun _ => rfl)
  case mfeedShadow h t e => cases hi; exact bare (.mfeedShadow h t e) ⟨h, 16, none, none, none, _⟩ rfl rfl rfl (fun _ => rfl)
  case mfeedStream h z e => cases hi; exact bare (.mfeedStream h z e) ⟨h, 16, none, none, none, _⟩ rfl rfl rfl (fun _ => rfl)
  case macc h e => cases hi; exact bare (.macc h e) ⟨h, 16, none, none, none, _⟩ rfl rfl rfl (fun _ => rfl)
  case mpoly h e => cases hi; exact bare (.mpoly h e) ⟨h, 16, none, none, none, _⟩ rfl rfl rfl (fun _ => rfl)
  case msoak h ch e => cases hi; exact bare (.msoak h ch e) ⟨h, 16, none, none, none, _⟩ rfl rfl rfl (fun _ => rfl)
  case mldacc h arv a b e => cases hi; exact read (.mldacc h arv a b e) ⟨h, 16, some a, some b, none, _⟩ (fun _ => rfl)
  case mstore h arv a b e => cases hi; exact read (.mstore h arv a b e) ⟨h, 16, some a, some b, none, _⟩ (fun _ => rfl)
  case mstoreSs h arv a e => cases hi; exact read (.mstoreSs h arv a e) ⟨h, 16, some a, none, none, _⟩ (fun _ => rfl)
  case mstoreMc h arv a e => cases hi; exact read (.mstoreMc h arv a e) ⟨h, 16, some a, none, none, _⟩ (fun _ => rfl)
  case mnorm h diff rt dst e => cases hi; exact bare (.mnorm h diff rt dst e) ⟨h, 16, none, none, none, _⟩ rfl rfl rfl (fun _ => rfl)
  all_goals cases hi

theorem badSrcs_eq_false {a : Src} {b c : Option Src} (h : (matOk (some a) && matOk b && matOk c) = true) :
    badSrcs ([a] ++ b.toList ++ c.toList) = false := by
  cases b <;> cases c <;> simp_all [badSrcs, matOk]

theorem matBad_of_sound {l : Lane} {i : Instr} {f : MatForm} (hi : matForm l.wg.info.kg i = some f) (hs : f.sound = true) :
    matBad i l = false := by
  cases i
  case mcoef => cases hi; simpa [matBad] using hs
  case mcoefS => cases hi; simpa [matBad] using hs
  case mchain h m => cases hi; cases m <;> simp_all [matBad]
  case mlds h arv a b c e => cases hi; exact badSrcs_eq_false (b := some b) hs
  case mzero => cases hi; simpa [matBad] using hs
  case mma h z arv ch a b c e => cases hi; exact badSrcs_eq_false (b := some b) hs
  case mldacc h arv a b e => cases hi; exact badSrcs_eq_false (b := some b) (c := none) (by simpa [matOk] using hs)
  case mstore h arv a b e => cases hi; exact badSrcs_eq_false (b := some b) (c := none) (by simpa [matOk] using hs)
  case mstoreSs => cases hi; exact badSrcs_eq_false (b := none) (c := none) (by simpa [matOk] using hs)
  case mstoreMc => cases hi; exact badSrcs_eq_false (b := none) (c := none) (by simpa [matOk] using hs)
  case mnorm => cases hi; simpa [matBad] using hs
  case mswap | mfeedShadow | mfeedStream | macc | mpoly | msoak => rfl
  all_goals cases hi

/-! ### An entry enters the queue -/

theorem matFault_none {bad : Lane → Bool} {l : Lane} (hr : l.w.role = .matrix) (hb : bad l = false) : matFault bad l = none := by
  simp [matFault, hr, hb, illegal]

theorem matFault_role {bad : Lane → Bool} {l : Lane} (hr : l.w.role ≠ .matrix) : matFault bad l = some 0x02 := by
  simp [matFault, hr]

/-- The entry that `matIssue` makes of an instruction with header `h` at `pc` for the active threads `act`, before its sources are
read. -/
def matBare (i : Instr) (h : Hdr) (pc : VAddr) (act : List Nat) (l : Lane) : MEntry :=
  { MEntry.bare i with
      pc := pc, warp := l.ref.warp, thread := act.headD 0, batch := maskOf act, sg1 := l.w.seg 1, issued := (l.clock, l.w.wslot),
      gcrz := crazeOf (act.map (fun t => (l.w.th t).predCraze h.guard)),
      reg := if l.w.member (act.headD 0) then l.w.region.map (fun r => (l.ref.warp, r.tag)) else none }

/-- The lane after the entry has entered the queue. -/
def matQueued (i : Instr) (f : MatForm) (pc : VAddr) (act : List Nat) (l : Lane) : Lane :=
  { l with wg := l.wg.enqueue (matOperands i f l (matBare i f.h pc act l)) }

theorem matWide_advance (i : Instr) (l : Lane) (b : List Nat) (n : Nat) : matWide (l.advance b n) i = matWide l i := by
  unfold matWide
  split <;> rfl

theorem warpWord_advance (x : Option Src) (l : Lane) (b : List Nat) (n : Nat) : warpWord (l.advance b n) x = warpWord l x := by
  unfold warpWord
  cases x with
  | none => rfl
  | some x => rw [Option.bind_some, Option.bind_some, readSrc_sameScalars (v := (l.advance b n).w) (w := l.w) rfl]

theorem guards_advance (l : Lane) (h : Hdr) (n : Nat) :
    (active l h).map (fun k => ((l.advance l.w.batch n).w.th k).predCraze h.guard) =
      (active l h).map (fun k => (l.w.th k).predCraze h.guard) :=
  List.map_congr_left (fun k hk => by rw [advance_active hk]; rfl)

/-- The entry holds the operands as they are at issue. -/
theorem matQueued_wg (i : Instr) (f : MatForm) (l : Lane) :
    (matQueued i f l.w.pc (active l f.h) (l.advance l.w.batch f.size)).wg =
      { l.wg with mq := l.wg.mq ++ [matEntry i f l], nextM := l.wg.nextM + 1 } := by
  unfold matQueued Wg.enqueue matOperands matBare
  rw [matWide_advance, warpWord_advance, warpWord_advance, warpWord_advance, guards_advance]
  rfl

/-- The lane after the body of an array instruction: the entry is in the queue, and the active threads of `msoak` wait for it. -/
def matDone (i : Instr) (f : MatForm) (l : Lane) : Lane :=
  let q := matQueued i f l.w.pc (active l f.h) (l.advance l.w.batch f.size)
  if matPark i then q.parkAll (active l f.h) l.w.pc .msoak else q

theorem matDone_flow (i : Instr) (f : MatForm) (l : Lane) :
    (matDone i f l).SameButFlow (matQueued i f l.w.pc (active l f.h) (l.advance l.w.batch f.size)) := by
  unfold matDone
  split
  · exact .parkAll _ _ _ _
  · exact .refl _

/-- An active thread after the body of an array instruction. -/
def matThread (i : Instr) (f : MatForm) (l : Lane) (k : Nat) : Thread :=
  if matPark i then { (l.advance l.w.batch f.size).w.th k with pc := l.w.pc, st := .parkedEvent .msoak }
  else (l.advance l.w.batch f.size).w.th k

theorem matDone_turns (i : Instr) (f : MatForm) (l : Lane) :
    TurnsTaken l (matDone i f l).endChain f.h f.size (matThread i f l) := by
  refine advanced_turns l f.h f.size (fun u hu => ?_)
  unfold matDone matThread
  split
  · exact parkAll_th _ _ (active_nodup l f.h) _ _ hu
  · exact (ite_self _).symm

theorem exec_matForm_enqueues {i : Instr} {f : MatForm} {s : State} {l : Lane} (hl : s.lane? = some l)
    (hi : matForm l.wg.info.kg i = some f) (hs : f.sound = true) (hr : l.w.role = .matrix) (ha : active l f.h ≠ [])
    (hq : l.wg.queued.length < 16) : exec i s = .next (s.putLane ((matDone i f l).endChain.settle l.w.batch)) := by
  obtain ⟨t, ts, hact⟩ := List.exists_cons_of_ne_nil ha
  rw [exec_matForm hi]
  refine execC_done (c := ⟨s, matDone i f l⟩) hl (nothing_ready l.w) (fun _ => matFault_none hr (matBad_of_sound hi hs)) ?_ ?_
  · simp [Nat.not_le.mpr hq]
  · show (match active l f.h with | [] => _ | t :: _ => _) = _
    unfold matDone
    rw [hact]
    rfl

/-- How the batch leaves an instruction other than `msoak`. -/
theorem leftQueue_of_moved {i : Instr} {f : MatForm} {l : Lane} {w : Warp} (hp : matPark i = false) (h : moved f.size l w) :
    leftQueue i f l w := by
  unfold leftQueue
  split
  · cases hp
  · exact h

/-- How the batch leaves `msoak`. -/
theorem leftQueue_of_parked {kg : Nat} {i : Instr} {f : MatForm} {l : Lane} {w : Warp} (hi : matForm kg i = some f)
    (hp : matPark i = true)
    (hact : ∀ k ∈ active l f.h, kept (l.w.th k) (w.th k) ∧ (w.th k).pc = l.w.pc ∧ (w.th k).st = .parkedEvent .msoak)
    (hidle : ∀ k ∈ l.w.batch, k ∉ active l f.h → past f.size (l.w.th k) (w.th k) ∧ kept (l.w.th k) (w.th k))
    (hother : ∀ k < 32, k ∉ l.w.batch → bystander (l.w.th k) (w.th k)) : leftQueue i f l w := by
  unfold matPark at hp
  split at hp
  · cases hi
    exact ⟨hact, hidle, hother⟩
  · cases hp

theorem matDone_left {i : Instr} {f : MatForm} {l : Lane} (hi : matForm l.wg.info.kg i = some f) (hne : l.w.batch ≠ [])
    (ha : active l f.h ≠ []) : leftQueue i f l ((matDone i f l).endChain.settle l.w.batch).w := by
  have ht := matDone_turns i f l
  cases hp : matPark i with
  | false =>
    refine leftQueue_of_moved hp (ht.moved_of (fun k hk => ?_) hne)
    rw [matThread, hp]
    exact advance_past f.size hk
  | true =>
    have hF : ∀ k, matThread i f l k =
        { (l.advance l.w.batch f.size).w.th k with pc := l.w.pc, st := .parkedEvent .msoak } := fun k => by
      rw [matThread, hp]; rfl
    refine leftQueue_of_parked hi hp (fun k hk => ?_) (fun k hk hn => ht.settled_past hk hn) (fun k hk hn => ?_)
    · have hs := ht.settled_act hk (by rw [hF]; exact TState.noConfusion) (by rw [hF]; rfl)
      rw [hF] at hs
      exact ⟨kept_of_same hs (advance_past f.size hk).2, hs.pc, hs.st⟩
    · obtain ⟨j, hj⟩ := List.exists_mem_of_ne_nil _ ha
      refine settle_bystander_of_holdsBack (ht.other k hk hn) hk hn (batch_lt (active_batch hj)) ?_
      rw [holdsBack_of_st (ht.act j hj).st, hF]
      rfl

/-- An array instruction with an entry free. -/
theorem matForm_enqueues {i : Instr} {f : MatForm} {s : State} {l : Lane} (hl : s.lane? = some l)
    (hi : matForm l.wg.info.kg i = some f) (hs : f.sound = true) (hr : l.w.role = .matrix) (ha : active l f.h ≠ [])
    (hq : l.wg.queued.length < 16) :
    ∃ t w, exec i s = .next t ∧
      onlyGroup s t l { l.wg with mq := l.wg.mq ++ [matEntry i f l], nextM := l.wg.nextM + 1 } w ∧ onlyThreads l w ∧
      leftQueue i f l w := by
  obtain ⟨-, -, hne⟩ := lane?_some hl
  have hf := (Lane.SameButFlow.settle (matDone i f l).endChain l.w.batch).trans
    ((Lane.SameButFlow.endChain _).trans (matDone_flow i f l))
  have hwg := hf.wg.trans (matQueued_wg i f l)
  have hgroup := putLane_onlyGroup hl hf.ref (by rw [hwg]) (by rw [hwg]) hf.core
  rw [hwg] at hgroup
  exact ⟨_, _, exec_matForm_enqueues hl hi hs hr ha hq, hgroup, hf.warp, matDone_left hi hne ha⟩

/-- Without active threads an array instruction does nothing. -/
theorem matForm_idle {i : Instr} {f : MatForm} {s : State} {l : Lane} (hl : s.lane? = some l)
    (hi : matForm l.wg.info.kg i = some f) (ha : active l f.h = []) :
    ∃ t w, exec i s = .next t ∧ onlyWarp s t l w ∧ onlyThreads l w ∧ moved f.size l w := by
  obtain ⟨-, -, hne⟩ := lane?_some hl
  have he : exec i s = .next (s.putLane ((l.advance l.w.batch f.size).endChain.settle l.w.batch)) := by
    rw [exec_matForm hi]
    refine execC_done (c := ⟨s, l.advance l.w.batch f.size⟩) hl (nothing_ready l.w) (fun h => absurd ha h) ?_ ?_
    · show (!(active l f.h).isEmpty && _) = false
      rw [ha]; rfl
    · show (match active l f.h with | [] => _ | t :: _ => _) = _
      rw [ha]
  have ht : TurnsTaken l (l.advance l.w.batch f.size).endChain f.h f.size (l.advance l.w.batch f.size).w.th :=
    advanced_turns l f.h f.size (fun u _ => (ite_self _).symm)
  have hf := (Lane.SameButFlow.settle (l.advance l.w.batch f.size).endChain l.w.batch).trans
    ((Lane.SameButFlow.endChain _).trans (.advance l _ _))
  exact ⟨_, _, he, putLane_onlyWarp hl hf, hf.warp, ht.moved_of (fun k hk => advance_past f.size hk) hne⟩

/-- With 16 entries unstarted nothing changes. -/
theorem matForm_waits {i : Instr} {f : MatForm} {s : State} {l : Lane} (hl : s.lane? = some l)
    (hi : matForm l.wg.info.kg i = some f) (hs : f.sound = true) (hr : l.w.role = .matrix) (ha : active l f.h ≠ [])
    (hq : 16 ≤ l.wg.queued.length) : exec i s = .next (s.putLane l) := by
  rw [exec_matForm hi]
  refine execC_waits hl (fun _ => matFault_none hr (matBad_of_sound hi hs)) ?_
  show (!(active l f.h).isEmpty && decide (16 ≤ l.wg.queued.length)) = true
  simp [ha, hq]

/-- Outside the matrix role the active threads derail. -/
theorem exec_matForm_refused {i : Instr} {f : MatForm} {s : State} {l : Lane} (hl : s.lane? = some l)
    (hi : matForm l.wg.info.kg i = some f) (hr : l.w.role ≠ .matrix) :
    exec i s = .next (s.putLane
      (((l.advance l.w.batch f.size).endChain.derailAll (active l f.h) l.w.pc 0x02 none).settle l.w.batch)) := by
  rw [exec_matForm hi]
  by_cases ha : active l f.h = []
  · refine execC_done (c := ⟨s, l.advance l.w.batch f.size⟩) hl (nothing_ready l.w) (fun h => absurd ha h) ?_ ?_ |>.trans ?_
    · show (!(active l f.h).isEmpty && _) = false
      rw [ha]; rfl
    · show (match active l f.h with | [] => _ | t :: _ => _) = _
      rw [ha]
    · rw [ha]; rfl
  · exact execC_refused hl (nothing_ready l.w) ha (matFault_role hr)

theorem matForm_refused {i : Instr} {f : MatForm} {s : State} {l : Lane} (hl : s.lane? = some l)
    (hi : matForm l.wg.info.kg i = some f) (hr : l.w.role ≠ .matrix) : derailForm i f.size 0x02 none (active l f.h) s l := by
  have ht : TurnsTaken l (l.advance l.w.batch f.size).endChain f.h f.size (l.advance l.w.batch f.size).w.th :=
    advanced_turns l f.h f.size (fun u _ => (ite_self _).symm)
  refine derailForm_of hl (exec_matForm_refused hl hi hr) ((Lane.SameButFlow.endChain _).trans (.advance l _ _)) (active_nodup l f.h)
    (fun k hk => active_batch hk) (fun k hk => kept_of_same (ht.act k hk) (advance_past f.size hk).2) (fun k hk hn => ?_) ht.other
  have hi := ht.idle k hk hn
  exact ⟨⟨hi.pc, hi.st⟩, hi.v, hi.p, hi.pt, hi.pp⟩

/-- Settles O36: one case for a free entry, none for no active thread, a full queue, and another role. -/
theorem matrixIssue : Obligations.MatrixIssue :=
  ⟨fun _ _ _ _ hl hi hs hr => ⟨fun ha hq => matForm_enqueues hl hi hs hr ha hq, fun ha => matForm_idle hl hi ha⟩,
    fun _ s l _ hl hi hs hr ha hq => ⟨s.putLane l, matForm_waits hl hi hs hr ha hq, putLane_onlyWarp hl (.refl l)⟩,
    fun _ _ _ _ hl hi hr => matForm_refused hl hi hr⟩

end Sys2Proof.Machine

namespace Sys2Proof.Machine

open Sys2Proof.Claims

/-! ## One thread of `waiteq` (R172, R173) -/

/-- Thread `k` of a `waiteq` whose guard and sources are clean: A is `x`, B is `y`, and its word is the one at `p`. -/
structure WqReads (s : State) (l : Lane) (h : Hdr) (a b : Src) (e : Ext) (k : Nat) (x y : DWord) (p : ScrLoc) : Prop where
  guard : (l.w.th k).predCraze h.guard = none
  noBad : (l.w.th k).bad = []
  srcA : readSrc l.w (l.w.th k) 0 .i32 a = some (x, none)
  srcB : readSrc l.w (l.w.th k) 0 .i32 b = some (y, none)
  place : wqPlace s l k e x = .ok (.scr p)
  clean : (scratch s p.wg).bad = []

/-- The word that `waiteq` looks at. -/
def Ctx.wordAt (c : Ctx) (p : ScrLoc) : TWord := (c.scr p.wg).word (p.off / 4)

/-- Thread `t` parks on the word at `p`, which is watched from now on. -/
def Ctx.parkOnWord (c : Ctx) (t : Nat) (pc : VAddr) (p : ScrLoc) (dst : Nat) (e : Ext) : Ctx :=
  let c := c.setScr p.wg ((c.scr p.wg).watchWord (p.off / 4))
  c.onL (fun l => l.parkAt t pc (.parkedWord ⟨some p, 0, Tabs.get (c.scr p.wg).watch 0 (p.off / 4),
    deadlineOf c.s.clock (wqTmo e), dst, none, 0, wqScope e, false⟩))

theorem wordsOf_head (a n : Nat) (h : 0 < n) : ∃ ks, wordsOf a n = a / 4 :: ks := by
  have hpos : 0 < (a % 4 + n + 3) / 4 := by omega
  obtain ⟨m, hm⟩ := Nat.exists_eq_succ_of_ne_zero hpos.ne'
  exact ⟨_, by rw [wordsOf, hm, List.range_succ_eq_map, List.map_cons, Nat.add_zero]⟩

theorem wordsAt_head (x : Scr) (a n : Nat) (h : 0 < n) : (wordsAt x a n).getD 0 ⟨0, false⟩ = x.word (a / 4) := by
  obtain ⟨ks, hks⟩ := wordsOf_head a n h
  rw [wordsAt, hks]
  rfl

/-- A thread whose operands are clean gives the word, or parks on it when it is B's value. -/
theorem waiteqOne_reads {s : State} {l : Lane} {h : Hdr} {a b : Src} {e : Ext} {k : Nat} {x y : DWord} {p : ScrLoc}
    (hr : WqReads s l h a b e k x y p) {c : Ctx} (hal : c.Alike ⟨s, l⟩) (hs : c.l.w.s = l.w.s)
    (hd : (c.l.w.th k).SameData (l.w.th k)) (hbad : (c.scr p.wg).bad = []) (dst : Nat) (pc : VAddr) :
    waiteqOne h dst a b e pc c k =
      if (c.wordAt p).tag || (c.wordAt p).val != y.setWidth 32 then
        { c with l := (c.l.setTh k ((c.l.w.th k).setWords dst [c.wordAt p])).tick }
      else (c.onL Lane.tick).parkOnWord k pc p dst e := by
  obtain ⟨hg, hb, ha, hb', hp, -⟩ := hr
  have hg' : (c.l.w.th k).predCraze h.guard = none := by
    rw [← hg]
    simp only [Thread.predCraze, Thread.predTag, hd.pt, hd.pp]
    rfl
  have mv : ∀ q, readSrc c.l.w (c.l.w.th k) 0 .i32 q = readSrc l.w (l.w.th k) 0 .i32 q := fun q =>
    readSrc_moved _ _ _ _ hs hd.v hd.l0 hd.l1 _ _ _
  have hread : c.l.readAll k pc 0 (dst == 255) [(a, .i32), (b, .i32)] none = (c.l, [(x, none), (y, none)]) :=
    readAll_clean c.l k pc 0 _ (hd.bad.trans hb) _ _ _ (by
      simp only [List.mapM_cons, List.mapM_nil, (mv a).trans ha, (mv b).trans hb']
      rfl)
  have hcheck : c.check (wqSeg e) k (((x.setWidth 32).setWidth 64) + wqOff e).toNat 4 [57] [0, 1, 2, 3, 4] true = .ok (.scr p) := by
    rw [check_alike hal]; exact hp
  have hcz : crazeOf [none, (none : Option Word)] = none := rfl
  unfold waiteqOne
  simp only [hg', hread, List.getD_cons_zero, List.getD_cons_succ, hcz, hcheck, readScr_clean c k pc p 4 hbad,
    wordsAt_head _ _ 4 (by decide)]
  rfl

/-- The form of `waiteq` (R172). -/
def wqForm (h : Hdr) (dst : BitVec 8) (a b : Src) (e : Ext) : Form :=
  { h, size := 16, chains := false, regs := (ADst.vec dst false).regs ++ srcRegs 1 a ++ srcRegs 1 b
    fault := fun l => illegal (e.extractLsb' 56 8 != 0 || e.extractLsb' 48 2 != 0 || decide (4 < wqScope e) ||
      !vecOk l.wg.info.nregs dst.toNat 1 || !srcOk l.wg.info.nregs 1 a || !srcOk l.wg.info.nregs 1 b) }

theorem exec_waiteq (h : Hdr) (dst : BitVec 8) (a b : Src) (e : Ext) (s : State) :
    exec (.waiteq h dst a b e) s = (wqForm h dst a b e).execC (fun c act => c.l.w.holdsAt act false false)
      (fun pc act c => act.foldl (waiteqOne h dst.toNat a b e pc) c) s := rfl

theorem wqForm_fault {l : Lane} {dst : BitVec 8} {a b : Src} {e : Ext} (h : Hdr) (hs : wqSound l dst a b e) :
    (wqForm h dst a b e).fault l = none := by
  obtain ⟨hhigh, hmid, hscope, hdst, ha, hb⟩ := hs
  simp [wqForm, illegal, hhigh, hmid, hdst, ha, hb, Nat.not_lt.mpr hscope]

/-- A view of the scratchpads that a lane with the reference and group of `l` has. -/
theorem scr_of_lane {s : State} {l : Lane} {c : Ctx} (hl : s.wg? l.ref.wg = some l.wg) (hs : c.s = s) (hr : c.l.ref = l.ref)
    (hg : c.l.wg = l.wg) (g : Nat) : c.scr g = scratch s g := by
  rw [← scr_scratch hl g]
  unfold Ctx.scr
  rw [hs, hr, hg]

/-! ### The word is given at once -/

/-- The operands `x`, `y` and the places of the active threads are read cleanly. -/
def wqAllRead (s : State) (l : Lane) (h : Hdr) (a b : Src) (e : Ext) (x y : Nat → DWord) (place : Nat → ScrLoc) : Prop :=
  ∀ k ∈ active l h, WqReads s l h a b e k (x k) (y k) (place k)

/-- The word at a place of the machine. -/
def wordOfPlace (s : State) (p : ScrLoc) : TWord := (scratch s p.wg).word (p.off / 4)

/-- An active thread with the word that it was given. -/
def givenThread (s : State) (l : Lane) (dst : Nat) (place : Nat → ScrLoc) (k : Nat) : Thread :=
  ((l.advance l.w.batch 16).w.th k).setWords dst [wordOfPlace s (place k)]

/-- Every active thread takes its word: the machine stays, and one access of each is counted. -/
theorem waiteq_gives_fold {s : State} {l : Lane} {h : Hdr} {a b : Src} {e : Ext} {x y : Nat → DWord} {place : Nat → ScrLoc}
    (hl : s.lane? = some l) (hr : wqAllRead s l h a b e x y place)
    (hne : ∀ k ∈ active l h, (wordOfPlace s (place k)).tag = true ∨ (wordOfPlace s (place k)).val ≠ (y k).setWidth 32) (dst : Nat) :
    let c := (active l h).foldl (waiteqOne h dst a b e l.w.pc) ⟨s, l.advance l.w.batch 16⟩
    c.s = s ∧ c.l = { l.advance l.w.batch 16 with w := { (l.advance l.w.batch 16).w with
        thr := c.l.w.thr, po := l.w.po + (active l h).length, nextId := l.w.nextId + (active l h).length } } ∧
      ∀ u < 32, c.l.w.th u = if u ∈ active l h then givenThread s l dst place u else (l.advance l.w.batch 16).w.th u := by
  refine foldl_counted (waiteqOne h dst a b e l.w.pc) (givenThread s l dst place) s (l.advance l.w.batch 16) (active l h)
    ⟨s, l.advance l.w.batch 16⟩ (active_nodup l h) (fun k hk => batch_lt (active_batch hk)) rfl rfl (fun _ _ => rfl) ?_
  intro d k hk hs hd hth
  have hk32 := batch_lt (active_batch hk)
  obtain ⟨hg, -⟩ := lane?_wg hl
  have hscr : ∀ g, d.scr g = scratch s g := scr_of_lane hg hs (by rw [hd]; rfl) (by rw [hd]; rfl)
  have hword : d.wordAt (place k) = wordOfPlace s (place k) := by rw [Ctx.wordAt, hscr]; rfl
  have hgive : ((wordOfPlace s (place k)).tag || (wordOfPlace s (place k)).val != (y k).setWidth 32) = true := by
    simpa using hne k hk
  have hone := waiteqOne_reads (hr k hk) (counted_alike s l 16 l.w.batch d hs hd) (by rw [hd]; rfl)
    (by rw [hth]; exact advance_data l _ _ hk32) (by rw [hscr]; exact (hr k hk).clean) dst l.w.pc
  rw [hone, hword, if_pos hgive, hth]
  rfl

theorem waiteq_gives {s : State} {l : Lane} {h : Hdr} {dst : BitVec 8} {a b : Src} {e : Ext} {x y : Nat → DWord}
    {place : Nat → ScrLoc} (hl : s.lane? = some l)
    (hready : l.w.ready ((ADst.vec dst false).regs ++ srcRegs 1 a ++ srcRegs 1 b) = true) (hs : wqSound l dst a b e)
    (hhold : l.w.holdsAt (active l h) false false = false) (hr : wqAllRead s l h a b e x y place)
    (hne : ∀ k ∈ active l h, (wordOfPlace s (place k)).tag = true ∨ (wordOfPlace s (place k)).val ≠ (y k).setWidth 32) :
    ∃ t w, exec (.waiteq h dst a b e) s = .next t ∧ onlyWarp s t l w ∧ onlyCounted (active l h).length l w ∧
      (∀ k ∈ l.w.batch, past 16 (l.w.th k) (w.th k)) ∧
      (∀ k ∈ active l h, wordsIn dst.toNat [wordOfPlace s (place k)] (l.w.th k) (w.th k)) ∧
      (∀ k ∈ l.w.batch, k ∉ active l h → kept (l.w.th k) (w.th k)) ∧
      (∀ k < 32, k ∉ l.w.batch → bystander (l.w.th k) (w.th k)) := by
  obtain ⟨hcs, hcl, hth⟩ := waiteq_gives_fold hl hr hne dst.toNat
  generalize hc : (active l h).foldl (waiteqOne h dst.toNat a b e l.w.pc) ⟨s, l.advance l.w.batch 16⟩ = c at hcs hcl hth
  obtain ⟨m, he, hm, hmw, hpast, hact, hidle, hother⟩ := runC_done (.waiteq h dst a b e) (wqForm h dst a b e) _ _
    (givenThread s l dst.toNat place) s l c hl (exec_waiteq h dst a b e s) hready (wqForm_fault h hs) hhold hc hth
    (fun u hu => by
      obtain ⟨-, hpc, hst⟩ := setWords_in ((l.advance l.w.batch 16).w.th u) dst.toNat [wordOfPlace s (place u)]
      have hadv := advance_past 16 hu
      exact ⟨hpc.trans hadv.1.1, hst.trans hadv.1.2⟩)
  rw [hcs] at he
  refine ⟨_, m.w, he, putLane_only hl (by rw [hm, hcl]; rfl) (by rw [hm, hcl]; rfl) (by rw [hm, hcl]; rfl), ?_, hpast,
    fun k hk => ?_, hidle, hother⟩
  · unfold onlyCounted
    rw [hmw, hcl]
    rfl
  · have hin := (setWords_in ((l.advance l.w.batch 16).w.th k) dst.toNat [wordOfPlace s (place k)]).1
    exact wordsIn_kept (wordsIn_from hin (advance_past 16 hk).2) (hact k hk)

/-! ### The word is watched -/

/-- The scratchpads with the word at `p` watched. -/
def watchAt (m : Nat → Scr) (p : ScrLoc) : Nat → Scr := fun g => if g = p.wg then (m g).watchWord (p.off / 4) else m g

theorem watchWord_watched (x : Scr) (k : Nat) : (Tabs.find? (x.watchWord k).watch k).isSome = true := by
  unfold Scr.watchWord
  split
  · next h => exact h
  · simp

theorem watchWord_keeps (x : Scr) (k j : Nat) {v : Nat} (h : Tabs.find? x.watch j = some v) :
    Tabs.find? (x.watchWord k).watch j = some v := by
  unfold Scr.watchWord
  split
  · exact h
  · next hk =>
    have hj : j ≠ k := fun e => hk (by rw [← e, h]; rfl)
    rw [Tabs.find?_put_other _ _ hj]
    exact h

/-- The scratchpads `m` are those of `s` but for the words that are watched. -/
structure SameButWatch (s : State) (m : Nat → Scr) : Prop where
  size : ∀ g, (m g).size = (scratch s g).size
  words : ∀ g, (m g).words = (scratch s g).words
  gran : ∀ g, (m g).gran = (scratch s g).gran
  bad : ∀ g, (m g).bad = (scratch s g).bad

theorem watchAt_same {s : State} {m : Nat → Scr} (h : SameButWatch s m) (p : ScrLoc) : SameButWatch s (watchAt m p) := by
  have hw : ∀ g, ∃ ws, watchAt m p g = { m g with watch := ws } := by
    intro g
    unfold watchAt Scr.watchWord
    split
    · split
      · exact ⟨_, rfl⟩
      · exact ⟨_, rfl⟩
    · exact ⟨_, rfl⟩
  refine ⟨fun g => ?_, fun g => ?_, fun g => ?_, fun g => ?_⟩ <;> obtain ⟨ws, hws⟩ := hw g <;> rw [hws]
  · exact h.size g
  · exact h.words g
  · exact h.gran g
  · exact h.bad g

/-- A watched word stays watched, with its version, while others come to be watched. -/
theorem watch_stays (place : Nat → ScrLoc) (g j : Nat) {v : Nat} : ∀ (ts : List Nat) (m : Nat → Scr),
    Tabs.find? (m g).watch j = some v → Tabs.find? (ts.foldl (fun m t => watchAt m (place t)) m g).watch j = some v
  | [], _, h => h
  | t :: ts, m, h => by
    refine watch_stays place g j ts _ ?_
    show Tabs.find? (watchAt m (place t) g).watch j = some v
    unfold watchAt
    split
    · exact watchWord_keeps _ _ _ h
    · exact h

/-- The turns before that of `k`, its own, and those after it. -/
theorem foldl_before (turn : (Nat → Scr) → Nat → Nat → Scr) {k : Nat} : ∀ (ts : List Nat) (m : Nat → Scr), k ∈ ts →
    ∃ rest : List Nat, ts.foldl turn m = rest.foldl turn (turn (before ts turn m k) k)
  | t :: ts, m, h => by
    by_cases e : t = k
    · subst e
      exact ⟨ts, by simp [before]⟩
    · obtain ⟨rest, hrest⟩ := foldl_before turn ts (turn m t) ((List.mem_cons.mp h).resolve_left (fun e' => e e'.symm))
      refine ⟨rest, ?_⟩
      rw [List.foldl_cons, hrest]
      unfold before
      rw [List.takeWhile_cons, if_pos (by simpa using e), List.foldl_cons]

/-- An active thread that has parked on its word, in scratchpads `m` before its turn. -/
def watchingThread (s : State) (l : Lane) (dst : Nat) (e : Ext) (place : Nat → ScrLoc) (m : Nat → Scr) (k : Nat) : Thread :=
  { (l.advance l.w.batch 16).w.th k with
    pc := l.w.pc
    st := .parkedWord ⟨some (place k), 0, Tabs.get (watchAt m (place k) (place k).wg).watch 0 ((place k).off / 4),
      deadlineOf s.clock (wqTmo e), dst, none, 0, wqScope e, false⟩ }

theorem near_parkAt {s : State} {l : Lane} {c : Ctx} (h : c.Near s l) (t : Nat) (pc : VAddr) (st : TState) :
    Ctx.Near s l (c.onL (fun l => l.parkAt t pc st)) :=
  ⟨h.rest, congrArg (fun m : Lane => m.parkAt t pc st) h.lane |>.trans rfl, h.own, fun n hn => h.groups n hn⟩

theorem near_onL_tick {s : State} {l : Lane} {c : Ctx} (h : c.Near s l) : Ctx.Near s l (c.onL Lane.tick) :=
  ⟨h.rest, congrArg Lane.tick h.lane |>.trans rfl, h.own, fun n hn => h.groups n hn⟩

/-- One thread parks on its word: it alone changes, and its word is watched. -/
theorem parkOnWord_took {s : State} {l : Lane} {place : Nat → ScrLoc} {k : Nat} {d : Ctx} {m : Nat → Scr}
    (hd : d.Near s (l.advance l.w.batch 16)) (hm : ∀ g, d.scr g = m g) (hth : d.l.w.th k = (l.advance l.w.batch 16).w.th k)
    (hp : (place k).wg = l.ref.wg ∨ (s.wg? (place k).wg).isSome) (dst : Nat) (e : Ext) :
    Took s (l.advance l.w.batch 16) k (watchingThread s l dst e place m k) (watchAt m (place k)) d
      ((d.onL Lane.tick).parkOnWord k l.w.pc (place k) dst e) := by
  have htick := near_onL_tick hd
  have hscr : ∀ g, (d.onL Lane.tick).scr g = m g := hm
  obtain ⟨hset, hsetScr, hsetW⟩ := near_setScr htick (place k).wg
    (((d.onL Lane.tick).scr (place k).wg).watchWord ((place k).off / 4)) hp
  have hall : ∀ g, ((d.onL Lane.tick).setScr (place k).wg
      (((d.onL Lane.tick).scr (place k).wg).watchWord ((place k).off / 4))).scr g = watchAt m (place k) g := by
    intro g
    rw [hsetScr, hscr]
    unfold watchAt
    split
    · next e => rw [e]
    · exact hscr g
  unfold Ctx.parkOnWord
  generalize hc : (d.onL Lane.tick).setScr (place k).wg (((d.onL Lane.tick).scr (place k).wg).watchWord ((place k).off / 4)) = c
    at hset hsetW hall
  have hclock : c.s.clock = s.clock := by rw [hset.rest]
  refine ⟨near_parkAt hset _ _ _, fun g => hall g, ?_, ?_, fun u hu => ?_⟩
  · show c.l.w.po = _
    rw [hsetW]; rfl
  · show c.l.w.nextId = _
    rw [hsetW]; rfl
  · show (c.l.setTh k _).w.th u = _
    rw [setTh_th _ _ _ hu]
    split
    · have hck : c.l.w.th k = (l.advance l.w.batch 16).w.th k := by rw [hsetW]; exact hth
      simp only [hck, hall, hclock]
      rfl
    · show c.l.w.th u = d.l.w.th u
      rw [hsetW]; rfl

theorem near_self {s : State} {l : Lane} (hl : s.wg? l.ref.wg = some l.wg) (ts : List Nat) (n : Nat) :
    Ctx.Near s (l.advance ts n) ⟨s, l.advance ts n⟩ := by
  refine ⟨rfl, rfl, rfl, fun k hk => ?_⟩
  have hscr : Ctx.scr ⟨s, l.advance ts n⟩ k = scratch s k := scr_of_lane hl rfl rfl rfl k
  rw [hscr]
  show s.wg? k = (s.wg? k).map _
  unfold scratch
  cases hg : s.wg? k with
  | none => rfl
  | some g => rfl

theorem sameButWatch_refl (s : State) : SameButWatch s (scratch s) := ⟨fun _ => rfl, fun _ => rfl, fun _ => rfl, fun _ => rfl⟩

/-- What the turns of the active threads make of the scratchpads. -/
def watchTurn (place : Nat → ScrLoc) (m : Nat → Scr) (t : Nat) : Nat → Scr := watchAt m (place t)

/-- Every active thread parks on its word. -/
theorem waiteq_parks_fold {s : State} {l : Lane} {h : Hdr} {a b : Src} {e : Ext} {x y : Nat → DWord} {place : Nat → ScrLoc}
    (hl : s.lane? = some l) (hr : wqAllRead s l h a b e x y place)
    (heq : ∀ k ∈ active l h, wordOfPlace s (place k) = ⟨(y k).setWidth 32, false⟩) (dst : Nat) {c : Ctx}
    (hc : (active l h).foldl (waiteqOne h dst a b e l.w.pc) ⟨s, l.advance l.w.batch 16⟩ = c) :
    c.Near s (l.advance l.w.batch 16) ∧ (∀ g, c.scr g = (active l h).foldl (watchTurn place) (scratch s) g) ∧
      SameButWatch s ((active l h).foldl (watchTurn place) (scratch s)) ∧
      c.l.w.po = l.w.po + (active l h).length ∧ c.l.w.nextId = l.w.nextId + (active l h).length ∧
      ∀ u < 32, c.l.w.th u =
        if u ∈ active l h then watchingThread s l dst e place (before (active l h) (watchTurn place) (scratch s) u) u
        else (l.advance l.w.batch 16).w.th u := by
  obtain ⟨hg, -⟩ := lane?_wg hl
  rw [← hc]
  refine foldl_turns (waiteqOne h dst a b e l.w.pc) (watchTurn place) (watchingThread s l dst e place) (SameButWatch s) s
    (l.advance l.w.batch 16) (active l h) ⟨s, l.advance l.w.batch 16⟩ (scratch s) (active_nodup l h) (near_self hg _ _)
    (scr_of_lane hg rfl rfl rfl) (sameButWatch_refl s) (fun m t _ hm => watchAt_same hm (place t)) (fun _ _ => rfl)
    (fun k hk => batch_lt (active_batch hk)) ?_
  intro d m k hk hd hm hP hth
  have hsize : ∀ g, (d.scr g).size = (scratch s g).size := fun g => by rw [hm]; exact hP.size g
  have hword : d.wordAt (place k) = ⟨(y k).setWidth 32, false⟩ := by
    rw [← heq k hk, Ctx.wordAt, hm, Scr.word, hP.words]
    rfl
  have hone := waiteqOne_reads (hr k hk) (near_alike l.w.batch 16 hg hd hsize) (by rw [hd.lane]; rfl)
    (by rw [hth]; exact advance_data l _ _ (batch_lt (active_batch hk))) (by rw [hm, hP.bad]; exact (hr k hk).clean) dst l.w.pc
  rw [hone, hword, if_neg (by simp)]
  exact parkOnWord_took hd hm hth (mem_memPlace (hr k hk).place) dst e

/-- The version that a thread parked with is the one its word keeps. -/
theorem watched_version {s : State} {l : Lane} {h : Hdr} (place : Nat → ScrLoc) {k : Nat} (hk : k ∈ active l h) :
    let mk := watchAt (before (active l h) (watchTurn place) (scratch s) k) (place k)
    let mEnd := (active l h).foldl (watchTurn place) (scratch s)
    (Tabs.find? (mEnd (place k).wg).watch ((place k).off / 4)).isSome = true ∧
      Tabs.get (mk (place k).wg).watch 0 ((place k).off / 4) = Tabs.get (mEnd (place k).wg).watch 0 ((place k).off / 4) := by
  intro mk mEnd
  have hsome : (Tabs.find? (mk (place k).wg).watch ((place k).off / 4)).isSome = true := by
    show (Tabs.find? (watchAt _ (place k) (place k).wg).watch _).isSome = true
    unfold watchAt
    rw [if_pos rfl]
    exact watchWord_watched _ _
  obtain ⟨v, hv⟩ := Option.isSome_iff_exists.mp hsome
  obtain ⟨rest, hrest⟩ := foldl_before (watchTurn place) (active l h) (scratch s) hk
  have hend : Tabs.find? (mEnd (place k).wg).watch ((place k).off / 4) = some v := by
    show Tabs.find? ((active l h).foldl (watchTurn place) (scratch s) (place k).wg).watch _ = _
    rw [hrest]
    exact watch_stays place _ _ rest _ hv
  exact ⟨by rw [hend]; rfl, by rw [Tabs.get, hv, Tabs.get, hend]⟩

theorem waiteq_parks {s : State} {l : Lane} {h : Hdr} {dst : BitVec 8} {a b : Src} {e : Ext} {x y : Nat → DWord}
    {place : Nat → ScrLoc} (hl : s.lane? = some l)
    (hready : l.w.ready ((ADst.vec dst false).regs ++ srcRegs 1 a ++ srcRegs 1 b) = true) (hs : wqSound l dst a b e)
    (hhold : l.w.holdsAt (active l h) false false = false) (hr : wqAllRead s l h a b e x y place)
    (heq : ∀ k ∈ active l h, wordOfPlace s (place k) = ⟨(y k).setWidth 32, false⟩) :
    ∃ t w, exec (.waiteq h dst a b e) s = .next t ∧ onlyScratch s t l w ∧ onlyCounted (active l h).length l w ∧
      (∀ g j, (scratch t g).word j = (scratch s g).word j ∧ (scratch t g).granule j = (scratch s g).granule j) ∧
      (∀ k ∈ active l h, kept (l.w.th k) (w.th k) ∧ (w.th k).pc = l.w.pc ∧
        (Tabs.find? (scratch t (place k).wg).watch ((place k).off / 4)).isSome ∧
        (w.th k).st = .parkedWord ⟨some (place k), 0, Tabs.get (scratch t (place k).wg).watch 0 ((place k).off / 4),
          deadlineOf s.clock (wqTmo e), dst.toNat, none, 0, wqScope e, false⟩) ∧
      (∀ k ∈ l.w.batch, k ∉ active l h → past 16 (l.w.th k) (w.th k) ∧ kept (l.w.th k) (w.th k)) ∧
      (∀ k < 32, k ∉ l.w.batch → (l.w.th k).atConv = false → bystander (l.w.th k) (w.th k)) := by
  generalize hc : (active l h).foldl (waiteqOne h dst.toNat a b e l.w.pc) ⟨s, l.advance l.w.batch 16⟩ = c
  obtain ⟨hnear, hscr, hsame, hpo, hid, hth⟩ := waiteq_parks_fold hl hr heq dst.toNat hc
  have he : exec (.waiteq h dst a b e) s = .next (c.s.putLane (c.l.endChain.settle l.w.batch)) :=
    execC_done (f := wqForm h dst a b e) hl hready (fun _ => wqForm_fault h hs) hhold hc
  have ht := advanced_turns l h 16 hth
  obtain ⟨honly, hput⟩ := near_onlyScratch hl hnear (m := c.l.endChain.settle l.w.batch) rfl
    (fun g => by rw [hscr]; exact hsame.size g)
  refine ⟨_, _, he, honly, ?_, fun g j => ?_, fun k hk => ?_, fun k hk hn => ht.settled_past hk hn,
    fun k hk hn hat => ht.settled_bystander hk hn hat⟩
  · unfold onlyCounted
    refine (settle_warp c.l.endChain l.w.batch).trans ?_
    generalize (c.l.endChain.settle l.w.batch).w.thr = thr
    rw [← hpo, ← hid]
    exact congrArg (fun m : Lane => { m.w with thr := thr, chain := 0 }) hnear.lane
  · rw [hput, hscr, Scr.word, Scr.word, Scr.granule, Scr.granule, hsame.words, hsame.gran]
    exact ⟨rfl, rfl⟩
  · have hset := ht.settled_act hk TState.noConfusion rfl
    obtain ⟨hwatched, hver⟩ := watched_version (s := s) place hk
    refine ⟨kept_of_same hset (advance_past 16 hk).2, hset.pc, by rw [hput, hscr]; exact hwatched, ?_⟩
    rw [hset.st, hput, hscr, ← hver]
    rfl

/-- Settles O26: each active thread takes its turn, and either all give their words or all park. -/
theorem waitWord : Obligations.WaitWord := by
  refine ⟨fun s l h dst a b e hl hready hs hhold x y place hall => ?_, fun s l h dst a b e hl hready hs hhold x y place hall => ?_⟩
  · refine waiteq_gives hl hready hs hhold (x := x) (y := y) (fun k hk => ?_) (fun k hk => ?_)
    · obtain ⟨hg, hb, ha, hb', hp, hc, -⟩ := hall k hk
      exact ⟨hg, hb, ha, hb', hp, hc⟩
    · obtain ⟨-, -, -, -, -, -, hne⟩ := hall k hk
      exact hne
  · refine waiteq_parks hl hready hs hhold (x := x) (y := y) (fun k hk => ?_) (fun k hk => ?_)
    · obtain ⟨hg, hb, ha, hb', hp, hc, -⟩ := hall k hk
      exact ⟨hg, hb, ha, hb', hp, hc⟩
    · obtain ⟨-, -, -, -, -, -, heq⟩ := hall k hk
      exact heq

end Sys2Proof.Machine

namespace Sys2Proof.Machine

open Sys2Proof.Claims

/-! ## Ends of waits (R47, R53, R190, R200, R201, R204) -/

/-- To send the one thread of a mask on is to let it resume. -/
theorem sendTo_one (l : Lane) (k : Nat) (pc : VAddr) : l.sendTo (BitVec.twoPow 32 k) pc = resumes l k pc := by
  unfold Lane.sendTo resumes
  refine congrArg (fun thr => ({ l with w := { l.w with thr := thr } } : Lane)) (List.map_congr_left (fun t ht => ?_))
  have hbit : (BitVec.twoPow 32 k).getLsbD t = decide (t = k) := by
    rw [BitVec.getLsbD_twoPow]
    by_cases e : t = k
    · rw [← e]
      simpa using List.mem_range.mp ht
    · simp [e, Ne.symm e]
  simp [hbit]

/-- A lane's own view of a scratchpad is the machine's. -/
theorem scr_of_laneOf {s : State} {r : WRef} {l : Lane} (h : s.laneOf r = some l) (g : Nat) : Ctx.scr ⟨s, l⟩ g = scratch s g := by
  obtain ⟨hr, hg, -⟩ := laneOf_some h
  exact scr_scratch (by rw [hr]; exact hg) g

/-! ### Reservations and watched words -/

theorem exec_reservationGrant {s : State} {r : WRef} {l : Lane} {q : RgnWait} (h : s.laneOf r = some l) (hf : l.wg.frozen = false)
    (hq : l.w.rgnWait = some q) (hres : Ctx.canReserve ⟨s, l⟩ q.res = true) :
    exec (.reservationGrant r) s = .next (s.putLane (ended (l.openRegion q.pc q.res q.recovery q.threads))) := by
  refine onWake_is h hf ?_
  simp only [hq, hres, if_true]
  rfl

/-- The lane after thread `k` has resumed with the word that it watched. -/
def wokenLane (s : State) (l : Lane) (k : Nat) (x : Watch) (a : ScrLoc) : Lane :=
  let m := resumes l k ((l.w.th k).pc + 16)
  m.setTh k ((m.w.th k).setWords x.dst (wordsAt (scratch s a.wg) a.off 4))

theorem wakeWord_eq {s : State} {r : WRef} {l : Lane} {x : Watch} {a : ScrLoc} (h : s.laneOf r = some l) (hx : x.scr = some a)
    (hb : (scratch s a.wg).bad = []) (k : Nat) : Ctx.wakeWord ⟨s, l⟩ k x = ⟨s, wokenLane s l k x a⟩ := by
  have hscr : Ctx.scr ⟨s, resumes l k ((l.w.th k).pc + 16)⟩ a.wg = scratch s a.wg := scr_of_laneOf h a.wg
  unfold Ctx.wakeWord
  simp only [Ctx.onL, sendTo_one, hx]
  rw [readScr_clean _ k _ a 4 (by rw [hscr]; exact hb), hscr]
  rfl

theorem version_eq {s : State} {r : WRef} {l : Lane} {x : Watch} {a : ScrLoc} (h : s.laneOf r = some l) (hx : x.scr = some a) :
    Ctx.version ⟨s, l⟩ x = Tabs.get (scratch s a.wg).watch 0 (a.off / 4) := by
  unfold Ctx.version
  rw [hx]
  simp only [scr_of_laneOf h]

/-- The watched word has changed: its thread goes on with it. -/
theorem exec_waiteqWake {s : State} {r : WRef} {l : Lane} {k : Nat} {x : Watch} {a : ScrLoc} (h : s.laneOf r = some l)
    (hf : l.wg.frozen = false) (hw : l.w.watching k = some x) (hx : x.scr = some a) (hb : (scratch s a.wg).bad = [])
    (hv : Tabs.get (scratch s a.wg).watch 0 (a.off / 4) ≠ x.ver) :
    exec (.waiteqWake r k) s = .next (s.putLane (ended (wokenLane s l k x a))) := by
  refine onWake_is h hf ?_
  have hne : (!x.rmt && Ctx.version ⟨s, l⟩ x == x.ver) = false := by
    rw [version_eq h hx]
    simp [hv]
  simp only [hw, hne, Bool.false_eq_true, if_false]
  exact wakeWord_eq h hx hb k

/-- The deadline of a watched word has come. -/
theorem exec_waiteqTimeout {s : State} {r : WRef} {l : Lane} {k d : Nat} {x : Watch} {a : ScrLoc} (h : s.laneOf r = some l)
    (hf : l.wg.frozen = false) (hw : l.w.watching k = some x) (hx : x.scr = some a) (hb : (scratch s a.wg).bad = [])
    (hd : x.deadline = some d) (hle : d ≤ s.clock) (hjob : s.jobSaved l.wg.dcb = false) :
    exec (.waiteqTimeout r k) s = .next (s.putLane (ended (wokenLane s l k x a))) := by
  refine onWake_is h hf ?_
  have hdue : (x.deadline.any (fun d => decide (d ≤ s.clock)) && !s.jobSaved l.wg.dcb) = true := by simp [hd, hle, hjob]
  simp only [hw, hdue, if_true]
  exact wakeWord_eq h hx hb k

/-! ### Granules and phases -/

theorem exec_ldfeWake {s : State} {r : WRef} {l : Lane} {k : Nat} {a : ScrLoc} (h : s.laneOf r = some l) (hf : l.wg.frozen = false)
    (hst : (l.w.th k).st = .parkedEvent (.ldfe a)) (hg : (scratch s a.wg).granule a.off = .full) :
    exec (.ldfeWake r k) s = .next (s.putLane (ended (resumes l k (l.w.th k).pc))) := by
  refine onWake_is h hf ?_
  simp only [hst, scr_of_laneOf h, hg, if_true, Ctx.onL, sendTo_one]

theorem exec_tbwaitWake {s : State} {r : WRef} {l : Lane} {k : Nat} {a : ScrLoc} {q : BitVec 4} (h : s.laneOf r = some l)
    (hf : l.wg.frozen = false) (hst : (l.w.th k).st = .parkedEvent (.tbwait a q))
    (hd : ((scratch s a.wg).bar a.off).done q.toNat = true) :
    exec (.tbwaitWake r k) s = .next (s.putLane (ended (resumes l k ((l.w.th k).pc + 16)))) := by
  refine onWake_is h hf ?_
  simp only [hst, scr_of_laneOf h, hd, if_true, Ctx.onL, sendTo_one]

/-! ### Barriers -/

/-- The arrivals of an episode have reached its count. -/
theorem exec_barRelease_done {s : State} {n id : Nat} {g : Wg} {e : BarId} (hg : s.wg? n = some g) (hf : g.frozen = false)
    (he : Tabs.find? g.bars id = some e) (hd : e.expect ≤ g.arrivals e) :
    exec (.barRelease n id) s =
      .next (s.setWg n { g with bars := Tabs.del g.bars id, warps := letGo g (e.freed ++ e.waiting) (.bar id) }) := by
  show execBarRelease n id s = _
  unfold execBarRelease
  simp only [hg, he, hf, hd, decide_true, if_true, Bool.not_true, Bool.and_false, Bool.or_self, Bool.false_eq_true, if_false]
  rfl

/-- Warps of an episode that ended before still wait. -/
theorem exec_barRelease_freed {s : State} {n id : Nat} {g : Wg} {e : BarId} (hg : s.wg? n = some g) (hf : g.frozen = false)
    (he : Tabs.find? g.bars id = some e) (hd : g.arrivals e < e.expect) (hfree : e.freed ≠ []) :
    exec (.barRelease n id) s =
      .next (s.setWg n { g with bars := Tabs.put g.bars id { e with freed := [] }, warps := letGo g e.freed (.bar id) }) := by
  have hne : e.freed.isEmpty = false := by simpa using hfree
  show execBarRelease n id s = _
  unfold execBarRelease
  simp only [hg, he, hf, Nat.not_le.mpr hd, decide_false, Bool.false_eq_true, if_false, List.append_nil, hne, Bool.false_and,
    Bool.or_self]
  rfl

/-- The barrier of a kiln group that is one workgroup. -/
theorem exec_kbarRelease {s : State} {n : Nat} {g : Wg} (hg : s.wg? n = some g) (hf : g.frozen = false) (hk : g.kiln = [])
    (hne : g.kbar ≠ []) (hall : g.warps.zipIdx.all (fun p => p.1.exited || g.kbar.any (fun e => e.1 == p.2)) = true) :
    exec (.kbarRelease n) s = .next (s.setWg n { g with kbar := [], warps := letGo g g.kbar .kbar }) := by
  have hgroup : s.group n = [n] := by unfold State.group; simp [hg, hk]
  have hany : g.kbar.isEmpty = false := by simpa using hne
  show execKbarRelease n s = _
  unfold execKbarRelease
  simp only [hgroup, List.all_cons, List.all_nil, List.any_cons, List.any_nil, hg, hall, Option.any_some, hany, hf, List.foldl_cons,
    List.foldl_nil, Bool.and_true, Bool.not_true, Bool.not_false, Bool.or_false, Bool.or_self, Bool.false_eq_true, if_false]
  rfl

/-- Settles O45: each event of a wake, with what it waits for. -/
theorem waitsEnd : Obligations.WaitsEnd :=
  ⟨fun _ _ _ _ h hf hq hres => ⟨exec_reservationGrant h hf hq hres, rfl⟩,
    fun _ _ _ _ _ _ h hf _ hw hx hb =>
      ⟨exec_waiteqWake h hf hw hx hb, fun _ hd hle hjob => exec_waiteqTimeout h hf hw hx hb hd hle hjob⟩,
    fun _ _ _ _ h hf _ => ⟨fun _ hst hg => exec_ldfeWake h hf hst hg, fun _ _ hst hd => exec_tbwaitWake h hf hst hd⟩,
    fun _ _ _ _ _ hg hf he hd => exec_barRelease_done hg hf he hd,
    fun _ _ _ _ _ hg hf he hd hfree => exec_barRelease_freed hg hf he hd hfree,
    fun _ _ _ hg hf hk hne hall => exec_kbarRelease hg hf hk hne hall⟩

end Sys2Proof.Machine

namespace Sys2Proof.Machine

open Sys2Proof.Claims

/-! ## A good read leaves the machine (R290, R426) -/

/-- A read that meets no cause moves no sector. -/
theorem readSector_none {s t : State} {q : Nat} (h : s.readSector q = (t, none)) : t = s := by
  unfold State.readSector at h
  split_ifs at h <;> cases h <;> rfl

theorem readSectors_none {s t : State} {a n : Nat} (h : s.readSectors a n = (t, none)) : t = s := by
  unfold State.readSectors at h
  generalize (List.range ((a % 32 + n + 31) / 32)).map (a / 32 + ·) = qs at h
  induction qs generalizing s with
  | nil => cases h; rfl
  | cons q qs ih =>
    rw [List.foldl_cons] at h
    cases hq : s.readSector q with
    | mk u c =>
      cases c with
      | none =>
        cases readSector_none hq
        simp only [hq] at h
        exact ih h
      | some c =>
        simp only [hq] at h
        exact absurd h (foldl_found qs)
where
  /-- A cause that is met stays the read's cause. -/
  foldl_found {u t : State} {c : Nat} : ∀ qs : List Nat, qs.foldl (fun r q =>
      match r.2 with
      | some _ => r
      | none => r.1.readSector q) (u, some c) ≠ (t, none)
    | [] => fun h => by cases h
    | _ :: qs => foldl_found qs

/-- A walk that finds a leaf has met no cause, so it leaves the machine. -/
theorem walkFrom_leaf {va e size : Nat} : ∀ {ls : List Level} {s t : State} {a : Nat},
    s.walkFrom va ls a = (t, .leaf e size) → t = s
  | [], s, t, a, h => by simp [State.walkFrom] at h
  | l :: ls, s, t, a, h => by
    unfold State.walkFrom at h
    simp only at h
    cases hr : s.readSectors (a + 8 * (va / 2 ^ l.shift % 2 ^ l.bits)) 8 with
    | mk u c =>
      rw [hr] at h
      cases c with
      | some c => split_ifs at h <;> cases h
      | none =>
        cases readSectors_none hr
        simp only at h
        split at h
        · cases h
        split at h
        · cases h
        split at h
        · cases h
        split at h
        · cases h
        split at h
        · cases h
        split at h
        · simpa only [apply_ite Prod.fst, ite_self] using (congrArg Prod.fst h).symm
        · exact walkFrom_leaf h

theorem leafCheck_ok {s t : State} {v key : BitVec 8} {va e size a : Nat} {need : Need} {g gen : BitVec 16} {rmt : Bool}
    (h : s.leafCheck v va need e size g = (t, .ok a gen key rmt)) : t = s := by
  unfold State.leafCheck at h
  simp only at h
  split_ifs at h <;> cases h
  rfl

/-- A valid translation fills the TLBs and leaves the rest of the machine. -/
theorem translate_ok {s t : State} {core : Option Nat} {v key : BitVec 8} {va a : Nat} {need : Need} {tlb : Bool} {gen : BitVec 16}
    {rmt : Bool} (h : s.translate core v va need tlb = (t, .ok a gen key rmt)) : t = { s with flt := t.flt, llt := t.llt } := by
  have fill (x : TlbEntry) : s.tlbFill core x = { s with flt := (s.tlbFill core x).flt, llt := (s.tlbFill core x).llt } := by
    unfold State.tlbFill
    cases core <;> rfl
  unfold State.translate at h
  simp only at h
  split at h
  · cases h
  · split at h
    · cases leafCheck_ok h
      exact fill _
    · split at h
      · cases h
      · split at h
        · cases h
        · cases h
        · next hw =>
          cases walkFrom_leaf hw
          cases leafCheck_ok h
          exact fill _

/-! ## What a warp issues (R33, R35, R84, R102, R103, R406) -/

/-- The instruction that the bytes stand for is the one the model decodes. -/
theorem instrAt_of_readsAs {bs : List Byte} {pc : VAddr} {i : Instr} (h : readsAs bs pc i) : instrAt bs pc = i := by
  unfold instrAt
  rcases h with h | ⟨e, h, rfl⟩ <;> simp only [h]

theorem not_mayIssue_iff {s : State} {l : Lane} :
    ¬ mayIssue s l ↔ (l.w.batch.isEmpty || l.stalled || !s.selects l || !s.inTurn l) = true := by
  unfold mayIssue
  cases l.stalled <;> cases s.selects l <;> cases s.inTurn l <;> simp

theorem readyInstr_none {s : State} {r : WRef} {l : Lane} (hl : s.laneOf r = some l) (h : ¬ mayIssue s l) :
    s.readyInstr r = (s, none) := by
  unfold State.readyInstr
  simp only [hl, not_mayIssue_iff.mp h, if_true]

/-- Where the block of the program counter is kept, its instruction is the next one. -/
theorem readyInstr_kept {s : State} {r : WRef} {l : Lane} {bs : List Byte} (hl : s.laneOf r = some l) (h : mayIssue s l)
    (hk : Tabs.find? l.w.kept (l.w.pc.toNat / 32) = some bs) :
    s.readyInstr r = (s, if l.opensEarly (chainBit bs l.w.pc) then none else some (instrAt bs l.w.pc)) := by
  have hmay : (l.w.batch.isEmpty || l.stalled || !s.selects l || !s.inTurn l) = false :=
    Bool.eq_false_iff.mpr (fun hf => not_mayIssue_iff.mpr hf h)
  unfold State.readyInstr State.keptInstr Lane.hasBlock
  simp only [hl, hmay, hk, Option.isSome_some, Bool.false_eq_true, if_false, if_true, chainBit]
  rw [apply_ite (Option.map Prod.fst)]
  rfl

/-! ### A fetch (R406) -/

/-- A fetch whose translation and checks are good keeps the block. -/
theorem fetch_keeps {s s2 : State} {l : Lane} {a : Nat} {gen : BitVec 16} {key : BitVec 8}
    (ht : s.translate (some l.wg.core) l.wg.vf (l.w.pc.toNat / 32 * 32) .fetch true = (s2, .ok a gen key false))
    (hr : s2.releasingAny a 32 = false) (hc : Ctx.homeChecks ⟨s2, l⟩ a 32 gen false = (⟨s2, l⟩, none)) :
    Ctx.fetch ⟨s, l⟩ true [] = ⟨s2, keeping l (blockAt s2 key.toNat a)⟩ := by
  unfold Ctx.fetch
  simp only [ht, hr, hc, Bool.false_eq_true, if_false, Ctx.onL, Nat.mul_div_cancel _ (show 0 < 32 by decide)]
  rfl

/-- The lane of a warp that was put back. -/
theorem laneOf_putLane {s : State} {l m : Lane} (h : s.laneOf l.ref = some l) (hr : m.ref = l.ref) (hg : m.wg = l.wg) :
    (s.putLane m).laneOf l.ref = some { m with
      wg := { l.wg with warps := l.wg.warps.set l.ref.warp m.w }
      clock := s.clock
      chainOff := (s.rd (Reg.decx l.wg.core)).getLsbD 0 } := by
  have hcore := core_putLane_same s m
  rw [hg] at hcore
  unfold State.laneOf
  rw [warp?_putLane h hr hg]
  simp only [hcore]
  rw [← hr]
  rfl

theorem laneOf_chainOff {s : State} {r : WRef} {l : Lane} (h : s.laneOf r = some l) :
    l.chainOff = (s.rd (Reg.decx l.wg.core)).getLsbD 0 := by
  unfold State.laneOf at h
  split at h
  · cases h
  · cases h; rfl

/-- The lane of a warp whose block was kept: its warp is the one put back, and the chain switch stays. -/
theorem laneOf_keeping {s : State} {l : Lane} (h : s.laneOf l.ref = some l) (bs : List Byte) :
    ∃ m, (s.putLane (keeping l bs)).laneOf l.ref = some m ∧ m.w = (keeping l bs).w ∧ m.chainOff = l.chainOff :=
  ⟨_, laneOf_putLane h rfl rfl, rfl, (laneOf_chainOff h).symm⟩

/-- A kept block gives the instruction at the program counter, unless that would open a chain early. -/
theorem keptInstr_of_block {s : State} {r : WRef} {m : Lane} {bs : List Byte} (hm : s.laneOf r = some m)
    (hk : Tabs.find? m.w.kept (m.w.pc.toNat / 32) = some bs) (ho : m.opensEarly (chainBit bs m.w.pc) = false) :
    s.keptInstr r = some (instrAt bs m.w.pc, m.w.pc) := by
  unfold chainBit at ho
  unfold State.keptInstr
  simp only [hm, hk, ho, Bool.false_eq_true, if_false]

/-- Whether a word would open a chain early is decided by the open chain, the accesses and the chain switch alone. -/
theorem opensEarly_congr {l m : Lane} {c : Bool} (hc : m.w.chain = l.w.chain) (ha : m.w.accs = l.w.accs)
    (ho : m.chainOff = l.chainOff) : m.opensEarly c = l.opensEarly c := by
  unfold Lane.opensEarly Lane.goesOn
  rw [hc, ha, ho]

/-- A warp without the block of its program counter fetches it, and its instruction is the next one. -/
theorem readyInstr_fetched {s s2 : State} {r : WRef} {l : Lane} {a : Nat} {gen : BitVec 16} {key : BitVec 8}
    (hl : s.laneOf r = some l) (h : mayIssue s l) (hk : Tabs.find? l.w.kept (l.w.pc.toNat / 32) = none)
    (ht : s.translate (some l.wg.core) l.wg.vf (l.w.pc.toNat / 32 * 32) .fetch true = (s2, .ok a gen key false))
    (hr : s2.releasingAny a 32 = false) (hc : Ctx.homeChecks ⟨s2, l⟩ a 32 gen false = (⟨s2, l⟩, none))
    (ho : l.opensEarly (chainBit (blockAt s2 key.toNat a) l.w.pc) = false) :
    s.readyInstr r = (s2.putLane (keeping l (blockAt s2 key.toNat a)), some (instrAt (blockAt s2 key.toNat a) l.w.pc)) := by
  have hmay : (l.w.batch.isEmpty || l.stalled || !s.selects l || !s.inTurn l) = false :=
    Bool.eq_false_iff.mpr (fun hf => not_mayIssue_iff.mpr hf h)
  obtain ⟨href, -⟩ := laneOf_some hl
  have hs2 : s2.laneOf l.ref = some l := by
    rw [translate_ok ht, href]
    exact hl
  have hfetch : s.atWarp r (fun c => c.fetch true []) = s2.putLane (keeping l (blockAt s2 key.toNat a)) := by
    unfold State.atWarp
    simp only [hl, fetch_keeps ht hr hc]
  have hkept : (s2.putLane (keeping l (blockAt s2 key.toNat a))).keptInstr r =
      some (instrAt (blockAt s2 key.toNat a) l.w.pc, l.w.pc) := by
    obtain ⟨m, hlane, hw, hoff⟩ := laneOf_keeping hs2 (blockAt s2 key.toNat a)
    rw [href] at hlane
    have hpc : m.w.pc = l.w.pc := by
      rw [hw]
      rfl
    have hfind : Tabs.find? m.w.kept (m.w.pc.toNat / 32) = some (blockAt s2 key.toNat a) := by
      rw [hpc, hw]
      exact Tabs.find?_put_same _ _ _
    have hearly : m.opensEarly (chainBit (blockAt s2 key.toNat a) m.w.pc) = false := by
      rw [hpc, opensEarly_congr (by rw [hw]; rfl) (by rw [hw]; rfl) hoff, ho]
    rw [keptInstr_of_block hlane hfind hearly, hpc]
  unfold State.readyInstr Lane.hasBlock
  simp only [hl, hmay, hk, Option.isSome_none, Bool.false_eq_true, if_false, hfetch, hkept, Option.bind_some, if_true]

/-! ## A step -/

theorem step_issue {s : State} {dt : Nat} {r : WRef} {rest : List Slot} (h : s.agenda = ⟨dt, .issue r⟩ :: rest) :
    step s = tidied (issue { s with agenda := rest, clock := s.clock + dt } r) := by
  unfold step
  rw [h]

/-- A warp that has no instruction ready issues none. -/
theorem issue_of_none {s t : State} {r : WRef} (h : s.readyInstr r = (t, none)) : issue s r = .next t := by
  unfold issue
  rw [h]

/-- A warp that has an instruction ready executes it. -/
theorem issue_of_some {s t : State} {r : WRef} {i : Instr} (h : s.readyInstr r = (t, some i)) : issue s r = exec i (t.begin r) := by
  unfold issue
  rw [h]

/-- Settles O1, by the lemmas that say what instruction a warp has ready: none, the one of its kept block, or the one it fetches. -/
theorem stepRunsDecoded : Obligations.StepRunsDecoded := by
  unfold Obligations.StepRunsDecoded
  refine ⟨?idle, ?event, ?read, ?lastRead, ?ready, ?issue⟩
  case issue =>
    intro s dt r rest h
    refine ⟨?none, ?early, ?kept, ?fetched⟩
    case none =>
      intro l hl hno
      rw [step_issue h, issue_of_none (readyInstr_none hl hno), tidied]
    case early =>
      intro l bs hl hmay hk ho
      have hready := readyInstr_kept hl hmay hk
      rw [ho, if_pos rfl] at hready
      rw [step_issue h, issue_of_none hready, tidied]
    case kept =>
      intro l bs i hl hmay hk ho hi
      have hready := readyInstr_kept hl hmay hk
      rw [ho, if_neg Bool.false_ne_true, instrAt_of_readsAs hi] at hready
      rw [step_issue h, issue_of_some hready]
    case fetched =>
      intro l s2 a gen key i hl hmay hk ht hr hc ho hi
      have hready := readyInstr_fetched hl hmay hk ht hr hc ho
      rw [instrAt_of_readsAs hi] at hready
      rw [step_issue h, issue_of_some hready]
  case idle | event | read | lastRead =>
    intros
    unfold step
    rw [‹State.agenda _ = _›]
  case ready =>
    intro s dt r on rest h
    unfold step
    rw [h]
    rfl

end Sys2Proof.Machine

namespace Sys2Proof

open Sys2Proof.Laws

/-! ## The length tests of decoding (R80, R102, R105) -/

/-- A word that passes the tests on length, block and padding decodes by its form. -/
theorem decodeRaw_eq_decForm {off : Nat} {r : Raw} {l : Lens} (hlen : r.len ≠ 3) (hl : lengths r.opcode.toNat = some l)
    (hp : l.permits r.len = true) (hfit : off + sizeOf r.len ≤ 32) (hpad : r.len = 1 → r.hi.extractLsb' 32 32 = 0) :
    decodeRaw off r = decForm r := by
  unfold decodeRaw
  rw [if_neg hlen, hl]
  simp only [hp, Bool.not_true, Bool.false_eq_true, if_false]
  rw [if_neg (Nat.not_lt.mpr hfit), if_neg (fun h => h.2 (hpad h.1))]

theorem decodeRaw_of_sized {off : Nat} {r : Raw} (h : Sized r) (hfit : off + sizeOf r.len ≤ 32) : decodeRaw off r = decForm r := by
  obtain ⟨hlen, ⟨l, hl, hp⟩, -, hpad⟩ := h
  exact decodeRaw_eq_decForm hlen hl hp hfit hpad

/-! ## The `U` and `W` tests and the destination (R92 to R95) -/

section
variable {op : BitVec 10} {len : BitVec 2} {h : Hdr} {m : BitVec 7} {d : Bool × Bool × BitVec 8} {oa ob oc : Option Src}
  {lit : Word} {hi : BitVec 64}

@[simp] theorem opcode_mkLit : (mkLit op h m d oa ob oc lit).opcode = op := rfl
@[simp] theorem mod_mkLit : (mkLit op h m d oa ob oc lit).mod = m := rfl
@[simp] theorem noMod_mkLit : noMod (mkLit op h 0#7 d oa ob oc lit) = .ok () := rfl
@[simp] theorem dst_mkLit : (mkLit op h m d oa ob oc lit).dst = d.2.2 := rfl
@[simp] theorem decHdr_mkLit : decHdr (mkLit op h m d oa ob oc lit) = h := rfl
@[simp] theorem opcode_mkSrc : (mkSrc op len h m d oa ob oc hi).opcode = op := rfl
@[simp] theorem mod_mkSrc : (mkSrc op len h m d oa ob oc hi).mod = m := rfl
@[simp] theorem noMod_mkSrc : noMod (mkSrc op len h 0#7 d oa ob oc hi) = .ok () := rfl
@[simp] theorem dst_mkSrc : (mkSrc op len h m d oa ob oc hi).dst = d.2.2 := rfl
@[simp] theorem decHdr_mkSrc : decHdr (mkSrc op len h m d oa ob oc hi) = h := rfl
@[simp] theorem rawDst_field (x : BitVec 8) : (rawDst x).2.2 = x := rfl
@[simp] theorem hi_mkSrc : (mkSrc op len h m d oa ob oc hi).hi = hi := rfl

/-- Every destination of a form that may be uniform passes the tests: a scalar register is below 64. -/
theorem gate_of_encDst {r : Raw} (d : Dst) (hw : r.wbit = (encDst d).1) (hu : r.ubit = (encDst d).2.1) (hx : r.dst = (encDst d).2.2) :
    gate r true true = .ok () := by
  cases d with
  | scal i =>
    have hle := pad_scalar_le i
    simp [gate, hw, hu, hx, encDst, -BitVec.toNat_append, hle]
  | vec | latch => simp [gate, hw, hu, encDst]

@[simp] theorem gate_mkLit_encDst (d : Dst) : gate (mkLit op h m (encDst d) oa ob oc lit) true true = .ok () :=
  gate_of_encDst d rfl rfl rfl
@[simp] theorem gate_mkLit_encVDst (d : VDst) : gate (mkLit op h m (encVDst d) oa ob oc lit) false true = .ok () := by cases d <;> rfl
@[simp] theorem gate_mkLit_rawDst (x : BitVec 8) : gate (mkLit op h m (rawDst x) oa ob oc lit) false false = .ok () := rfl
@[simp] theorem decDst_mkLit (d : Dst) : decDst (mkLit op h m (encDst d) oa ob oc lit) = d := by
  cases d with
  | scal i => exact congrArg Dst.scal (pad_scalar i)
  | vec | latch => rfl
@[simp] theorem decVDst_mkLit (d : VDst) : decVDst (mkLit op h m (encVDst d) oa ob oc lit) = d := by cases d <;> rfl
@[simp] theorem gate_mkSrc_encDst (d : Dst) : gate (mkSrc op len h m (encDst d) oa ob oc hi) true true = .ok () :=
  gate_of_encDst d rfl rfl rfl
@[simp] theorem gate_mkSrc_encVDst (d : VDst) : gate (mkSrc op len h m (encVDst d) oa ob oc hi) false true = .ok () := by cases d <;> rfl
@[simp] theorem gate_mkSrc_rawDst (x : BitVec 8) : gate (mkSrc op len h m (rawDst x) oa ob oc hi) false false = .ok () := rfl
@[simp] theorem decDst_mkSrc (d : Dst) : decDst (mkSrc op len h m (encDst d) oa ob oc hi) = d := by
  cases d with
  | scal i => exact congrArg Dst.scal (pad_scalar i)
  | vec | latch => rfl
@[simp] theorem decVDst_mkSrc (d : VDst) : decVDst (mkSrc op len h m (encVDst d) oa ob oc hi) = d := by cases d <;> rfl

end

/-! ## The sources and the literal (R82, R87, R93) -/

/-- The sources `l` stand with the `U` bit of the destination fields `d`: a uniform form reads no vector register and no latch. -/
def sourcesFit (d : Bool × Bool × BitVec 8) (l : List Src) : Bool := !d.2.1 || l.all Src.uniform

@[simp] theorem sourcesFit_encDst (d : Dst) (l : List Src) : sourcesFit (encDst d) l = uniOk d l := by
  cases d <;> rfl

@[simp] theorem sourcesFit_encVDst (d : VDst) (l : List Src) : sourcesFit (encVDst d) l = true := by
  cases d <;> rfl

@[simp] theorem sourcesFit_rawDst (x : BitVec 8) (l : List Src) : sourcesFit (rawDst x) l = true := by
  simp [sourcesFit, rawDst]

section
variable {op : BitVec 10} {len : BitVec 2} {h : Hdr} {m : BitVec 7} {d : Bool × Bool × BitVec 8} {lit : Word} {hi : BitVec 64}
  {oa ob oc : Option Src} {a b c s : Src}

theorem readField_fits {r : Raw} {l : List Src} {ok : Bool} (hd : sourcesFit d l = true) (hr : r.ubit = d.2.1)
    (hl : s.isLit = true → ok = true) (hs : s ∈ l) : readField r ok (encSrc s) = .ok s := by
  refine readField_enc r ok s (fun hu => ?_) hl
  rw [hr] at hu
  simp only [sourcesFit, hu, Bool.not_true, Bool.false_or, List.all_eq_true] at hd
  exact hd s hs

/-- The literal reads back, and length 96 stands exactly where a source selects it. -/
theorem litOf_mkLit (hl : litOk (oa.toList ++ ob.toList ++ oc.toList) lit = true) :
    litOf (mkLit op h m d oa ob oc lit) (oa.toList ++ ob.toList ++ oc.toList) = .ok lit := by
  unfold litOk at hl
  unfold litOf mkLit mkRaw
  by_cases hany : (oa.toList ++ ob.toList ++ oc.toList).any Src.isLit = true
  · simp only [hany, if_true]
    simp
  · rw [Bool.not_eq_true] at hany
    simp only [hany, Bool.false_or, beq_iff_eq] at hl
    simp only [hany, hl]
    simp

/-! A source of a word with a literal, and of one without, reads back from its field. -/

theorem readA_mkLit {l : List Src} (hd : sourcesFit d l = true) (hs : s ∈ l) :
    readField (mkLit op h m d (some s) ob oc lit) true (mkLit op h m d (some s) ob oc lit).opa = .ok s :=
  readField_fits hd rfl (fun _ => rfl) hs

theorem readB_mkLit {l : List Src} (hd : sourcesFit d l = true) (hs : s ∈ l) :
    readField (mkLit op h m d oa (some s) oc lit) true (mkLit op h m d oa (some s) oc lit).opb = .ok s :=
  readField_fits hd rfl (fun _ => rfl) hs

theorem readC_mkLit {l : List Src} (hd : sourcesFit d l = true) (hs : s ∈ l) :
    readField (mkLit op h m d oa ob (some s) lit) true (mkLit op h m d oa ob (some s) lit).opc = .ok s :=
  readField_fits hd rfl (fun _ => rfl) hs

theorem isLit_of_noLit {l : List Src} (hl : noLit l = true) (hs : s ∈ l) (ok : Bool) : s.isLit = true → ok = true := by
  have hn : s.isLit = false := by simpa using List.all_eq_true.mp hl s hs
  rw [hn]
  exact nofun

theorem readA_mkSrc {l : List Src} (hd : sourcesFit d l = true) (hl : noLit l = true) (hs : s ∈ l) :
    readField (mkSrc op len h m d (some s) ob oc hi) false (mkSrc op len h m d (some s) ob oc hi).opa = .ok s :=
  readField_fits hd rfl (isLit_of_noLit hl hs _) hs

theorem readB_mkSrc {l : List Src} (hd : sourcesFit d l = true) (hl : noLit l = true) (hs : s ∈ l) :
    readField (mkSrc op len h m d oa (some s) oc hi) false (mkSrc op len h m d oa (some s) oc hi).opb = .ok s :=
  readField_fits hd rfl (isLit_of_noLit hl hs _) hs

theorem readC_mkSrc {l : List Src} (hd : sourcesFit d l = true) (hl : noLit l = true) (hs : s ∈ l) :
    readField (mkSrc op len h m d oa ob (some s) hi) false (mkSrc op len h m d oa ob (some s) hi).opc = .ok s :=
  readField_fits hd rfl (isLit_of_noLit hl hs _) hs

@[simp] theorem lit1_mkLit {k : Src → Word → Instr} (hd : sourcesFit d [a] = true) (hl : litOk [a] lit = true) :
    lit1 (mkLit op h m d a none none lit) k = .ok (k a lit) := by
  have hlit : litOf (mkLit op h m d a none none lit) [a] = .ok lit := litOf_mkLit hl
  simp only [lit1, bind, Except.bind, readA_mkLit hd (s := a) (by simp), hlit]

@[simp] theorem lit2_mkLit {k : Src → Src → Word → Instr} (hd : sourcesFit d [a, b] = true) (hl : litOk [a, b] lit = true) :
    lit2 (mkLit op h m d a b none lit) k = .ok (k a b lit) := by
  have hlit : litOf (mkLit op h m d a b none lit) [a, b] = .ok lit := litOf_mkLit hl
  simp only [lit2, bind, Except.bind, readA_mkLit hd (s := a) (by simp), readB_mkLit hd (s := b) (by simp), hlit]

@[simp] theorem lit3_mkLit {k : Src → Src → Src → Word → Instr} (hd : sourcesFit d [a, b, c] = true) (hl : litOk [a, b, c] lit = true) :
    lit3 (mkLit op h m d a b c lit) k = .ok (k a b c lit) := by
  have hlit : litOf (mkLit op h m d a b c lit) [a, b, c] = .ok lit := litOf_mkLit hl
  simp only [lit3, bind, Except.bind, readA_mkLit hd (s := a) (by simp), readB_mkLit hd (s := b) (by simp),
    readC_mkLit hd (s := c) (by simp), hlit]

@[simp] theorem litAC_mkLit {k : Src → Src → Word → Instr} (hd : sourcesFit d [a, c] = true) (hl : litOk [a, c] lit = true) :
    litAC (mkLit op h m d a none c lit) k = .ok (k a c lit) := by
  have hlit : litOf (mkLit op h m d a none c lit) [a, c] = .ok lit := litOf_mkLit hl
  simp only [litAC, bind, Except.bind, readA_mkLit hd (s := a) (by simp), readC_mkLit hd (s := c) (by simp), hlit]

@[simp] theorem src1_mkSrc {k : Src → Instr} (hd : sourcesFit d [a] = true) (hl : noLit [a] = true) :
    src1 (mkSrc op len h m d a ob oc hi) k = .ok (k a) := by
  simp only [src1, bind, Except.bind, readA_mkSrc hd hl (s := a) (by simp)]

@[simp] theorem src2_mkSrc {k : Src → Src → Instr} (hd : sourcesFit d [a, b] = true) (hl : noLit [a, b] = true) :
    src2 (mkSrc op len h m d a b oc hi) k = .ok (k a b) := by
  simp only [src2, bind, Except.bind, readA_mkSrc hd hl (s := a) (by simp), readB_mkSrc hd hl (s := b) (by simp)]

@[simp] theorem src3_mkSrc {k : Src → Src → Src → Instr} (hd : sourcesFit d [a, b, c] = true) (hl : noLit [a, b, c] = true) :
    src3 (mkSrc op len h m d a b c hi) k = .ok (k a b c) := by
  simp only [src3, bind, Except.bind, readA_mkSrc hd hl (s := a) (by simp), readB_mkSrc hd hl (s := b) (by simp),
    readC_mkSrc hd hl (s := c) (by simp)]

/-- Source C of `mlds` and `mma` is read exactly where the format is narrow (R233). -/
theorem readNarrow_mkSrc {l : List Src} (hd : sourcesFit d l = true) (hl : noLit l = true) (hc : oc.toList ⊆ l)
    (hn : oc.isSome = narrowExt hi) : readNarrow (mkSrc op len h m d oa ob oc hi) = .ok oc := by
  have hhi : narrowExt (mkSrc op len h m d oa ob oc hi).hi = oc.isSome := hn.symm
  unfold readNarrow
  rw [hhi]
  cases oc with
  | none => rfl
  | some x =>
    rw [readC_mkSrc hd hl (hc List.mem_cons_self)]
    rfl

theorem srcs_eq_src? (k : CvRound) : k.srcs = k.src?.toList := by
  cases k <;> rfl

/-! A rounding operand in field B or C counts among the sources that may select the literal. -/

theorem litOf_mkLit_B {k : CvRound} (hl : litOk ([a] ++ k.src?.toList) lit = true) :
    litOf (mkLit op h m d a k.src? none lit) (a :: k.srcs) = .ok lit := by
  have hlit := litOf_mkLit (op := op) (h := h) (m := m) (d := d) (oa := a) (ob := k.src?) (oc := none)
    (by rwa [Option.toList_none, List.append_nil])
  rwa [Option.toList_none, List.append_nil, ← srcs_eq_src?] at hlit

theorem litOf_mkLit_C {k : CvRound} (hl : litOk ([a, b] ++ k.src?.toList) lit = true) :
    litOf (mkLit op h m d a b k.src? lit) (a :: b :: k.srcs) = .ok lit := by
  rw [srcs_eq_src?]
  exact litOf_mkLit hl

/-- The rounding operand of a conversion reads back from its field (R164, R165). -/
theorem readRound_enc {r : Raw} {k : CvRound} {x : RMode × Bool} {f : BitVec 10} (hx : decRC (encRC k) = some x)
    (hf : ∀ s, k.src? = some s → readField r true f = .ok s) : readRound r x f = .ok k := by
  cases k with
  | det m => cases m <;> cases hx <;> rfl
  | sr s =>
    cases hx
    simp only [readRound, hf s rfl]
    rfl

theorem readRound_mkLit_B {k : CvRound} {x : RMode × Bool} {l : List Src} (hx : decRC (encRC k) = some x) (hd : sourcesFit d l = true)
    (hs : k.src?.toList ⊆ l) :
    readRound (mkLit op h m d oa k.src? oc lit) x (mkLit op h m d oa k.src? oc lit).opb = .ok k :=
  readRound_enc hx (fun s hk => by rw [hk]; exact readB_mkLit hd (hs (by simp [hk])))

theorem readRound_mkLit_C {k : CvRound} {x : RMode × Bool} {l : List Src} (hx : decRC (encRC k) = some x) (hd : sourcesFit d l = true)
    (hs : k.src?.toList ⊆ l) :
    readRound (mkLit op h m d oa ob k.src? lit) x (mkLit op h m d oa ob k.src? lit).opc = .ok k :=
  readRound_enc hx (fun s hk => by rw [hk]; exact readC_mkLit hd (hs (by simp [hk])))

end

theorem decCvtf_append (x : BitVec 3) : decCvtf (0#4 ++ x) = decRC x := by revert x; decide

theorem decCvtI_enc {f : F4} {t : ITy} {k : CvRound} {m : BitVec 7} {x : RMode × Bool} (hm : encF4 f ++ (encITy t ++ encRC k) = m)
    (hx : decRC (encRC k) = some x) : decCvtI m = some (x, t, f) := by
  have hcode : ∀ c : BitVec 3, decCvtI (encF4 f ++ (encITy t ++ c)) = (decRC c).map (fun y => (y, t, f)) := by
    cases f <;> cases t <;> decide
  rw [← hm, hcode, hx]
  rfl

@[simp] theorem decBit0_one : decBit0 1#7 = some true := rfl

/-! ## Every form decodes to itself -/

@[simp] theorem ok_bind {α β : Type} (x : α) (f : α → Except Reject β) : (Except.ok x >>= f) = f x := rfl
@[simp] theorem needMod_some {α : Type} (x : α) : needMod (some x) = .ok x := rfl

theorem eq_zero_or_three {x : BitVec 2} (h1 : x ≠ 1) (h2 : x ≠ 2) : x = 0 ∨ x = 3 := by
  revert x
  decide

/-- The word of every instruction passes the length tests. -/
theorem sized_toRaw {i : Instr} {r : Raw} (hr : i.toRaw = some r) : Sized r := by
  cases i with
  | movl | waiteq | ld | st | ldfe | atom | cas | red | prefetch | tbinit | tbarrive | tbexpect | tbwait | tbtest | rgn | segset
  | cpyld | cpyst | cpypeer | cpygrp | cpylin | coll | mcoef | mcoefS | mlds | mma | mfeedShadow | mfeedStream | mldacc | macc
  | mstore | mstoreSs | mstoreMc | mnorm | mpoly | msoak =>
    cases hr
    exact sized_128 _ _ _ _ _ _ _ _ _ rfl rfl
  | bra | call | trap =>
    cases hr
    exact sized_96 _ _ _ _ _ _ _ _ _ rfl rfl
  | nop | nopSkip | pmov | pmovPack | pmovUnpack | brx | ret | convg | yield | exit | vote | matchw | redw | fence | bar | kbar
  | commit | abort | replay | ptest | crzread | collwait | mchain | mswap | mzero =>
    cases hr
    exact sized_64 _ _ _ _ _ _ _ _ rfl rfl
  | rdsys => exact Sized.rdsys _ _ _ _ _ hr
  | iadd | iadd3 | isub | imul | imulhi | imad | imadw | iabs | imin | imax | icmp | sel | shl | shr | sra | shf | and | or | xor
  | lop3 | bfe | bfi | popc | clz | brev | prmt | lea | mov | cvti | fadd | fmul | fma | fmin | fmax | fcmp | frcp | frsq | fsqrt
  | fex2 | flg2 | fsin | fcos | fscale | fclass | cvtf | cvtfi | cvtif | hfma2 | hadd2 | hmul2 | pset | shfl | rng | grpjoin
  | grpleave | fmtset =>
    cases hr
    exact sized_lit _ _ _ _ _ _ _ _ rfl
  | _ => cases hr

/-- The form tests of R102 accept the word of a well-formed instruction and give the instruction back. The cases are those of what
the word carries: no source, sources that may not be the literal, sources that may, also in a uniform form. -/
theorem decForm_toRaw {i : Instr} {r : Raw} (hr : i.toRaw = some r) (hw : i.wf = true) : decForm r = .ok i := by
  cases i with
  | nop | nopSkip | pmov | pmovPack | bra | call | convg | yield | exit | vote =>
    cases hr
    simp [decForm, decCtl]
  | movl =>
    cases hr
    simp [decForm, decInt]
  | fence | kbar =>
    cases hr
    simp [decForm, decMem]
  | rgn | commit | abort | replay =>
    cases hr
    simp [decForm, decSys]
  | mcoef | mchain | mswap | mzero | mfeedShadow | mfeedStream | macc | mnorm | mpoly | msoak =>
    cases hr
    simp [decForm, decMat]
  | rdsys =>
    cases hr
    simp [decForm, decSys, mkRaw, decHdr, gate, rawDst]
  | pmovUnpack | brx | ret | waiteq | matchw | redw | ld | st | ldfe | atom | cas | red | prefetch | tbinit | tbarrive | tbexpect
  | tbwait | tbtest | ptest | crzread | trap | segset | cpyld | cpyst | cpypeer | cpygrp | cpylin | coll | collwait | mcoefS
  | mldacc =>
    have hl : noLit _ = true := hw
    cases hr
    simp [decForm, decCtl, decMem, decSys, decCopy, decMat, hl]
  | bar _ _ _ c =>
    cases hr
    cases c with
    | none => simp [decForm, decMem]
    | some a => simp [decForm, decMem, show noLit [a] = true from hw]
  | mlds _ _ a b c | mma _ _ _ _ a b c =>
    obtain ⟨hl, hn⟩ := (Bool.and_eq_true _ _).mp hw
    have hd := sourcesFit_rawDst 0#8 (a :: b :: c.toList)
    have hc : c.toList ⊆ a :: b :: c.toList := List.subset_append_right [a, b] _
    cases hr
    simp [decForm, decMat, readA_mkSrc hd hl (s := a), readB_mkSrc hd hl (s := b), readNarrow_mkSrc hd hl hc (eq_of_beq hn)]
  | mstore _ _ _ _ e =>
    obtain ⟨hw, h2⟩ := (Bool.and_eq_true _ _).mp hw
    obtain ⟨hl, h1⟩ := (Bool.and_eq_true _ _).mp hw
    cases hr
    rcases eq_zero_or_three (bne_iff_ne.mp h1) (bne_iff_ne.mp h2) with he | he <;> simp [decForm, decMat, hl, he]
  | mstoreSs _ _ _ e | mstoreMc _ _ _ e =>
    obtain ⟨hl, he⟩ := (Bool.and_eq_true _ _).mp hw
    cases hr
    simp [decForm, decMat, hl, eq_of_beq he]
  | fadd | fmul | fma | fmin | fmax | fcmp | frcp | frsq | fsqrt | fex2 | flg2 | fsin | fcos | fscale | fclass | hfma2 | hadd2
  | hmul2 | pset | shfl | rng | grpjoin | grpleave | fmtset =>
    have hl : litOk _ _ = true := hw
    cases hr
    simp [decForm, decFp, decCtl, decCopy, decMat, hl]
  | cvtf _ k d a b =>
    have hl : litOk ([a, b] ++ k.src?.toList) _ = true := hw
    have hd := sourcesFit_encVDst d ([a, b] ++ k.src?.toList)
    obtain ⟨x, hx, -⟩ := decRC_enc k
    cases hr
    simp [decForm, decFp, decCvtf_append, hx, readA_mkLit (s := a) hd, readB_mkLit (s := b) hd,
      readRound_mkLit_C hx hd (List.subset_append_right _ _), litOf_mkLit_C hl]
  | cvtfi _ k _ _ d a | cvtif _ k _ _ d a =>
    have hl : litOk ([a] ++ k.src?.toList) _ = true := hw
    have hd := sourcesFit_encVDst d ([a] ++ k.src?.toList)
    obtain ⟨x, hx, -⟩ := decRC_enc k
    cases hr
    generalize hm : encF4 _ ++ (encITy _ ++ encRC k) = m
    simp [decForm, decFp, decCvtI_enc hm hx, readA_mkLit (s := a) hd,
      readRound_mkLit_B hx hd (List.subset_append_right _ _), litOf_mkLit_B hl]
  | iadd | iadd3 | isub | imul | imulhi | imad | imadw | iabs | imin | imax | icmp | sel | shl | shr | sra | and | or | xor | lop3
  | bfe | bfi | popc | clz | brev | prmt | lea | mov | cvti =>
    obtain ⟨hu, hl⟩ := (Bool.and_eq_true _ _).mp hw
    cases hr
    simp [decForm, decInt, hu, hl]
  | shf _ _ d a b c =>
    obtain ⟨hu, hl⟩ := (Bool.and_eq_true _ _).mp hw
    cases hr
    cases b with
    | none => simp [decForm, decInt, show uniOk d [a, c] = true from hu, show litOk [a, c] _ = true from hl]
    | some b => simp [decForm, decInt, show uniOk d [a, b, c] = true from hu, show litOk [a, b, c] _ = true from hl]
  | _ => cases hr

/-- The round trip of every instruction (R80 to R83, R102). -/
theorem decode_encode {i : Instr} {w : BitVec 128} {off : Nat} (hw : i.wf = true) (he : encode i = some w) (hfit : off + i.size ≤ 32) :
    decode off w = .ok i := by
  obtain ⟨r, hr, rfl⟩ := Option.map_eq_some_iff.mp he
  have hsize : i.size = sizeOf r.len := by simp only [Instr.size, hr]
  rw [hsize] at hfit
  rw [decode, unpack_pack, decodeRaw_of_sized (sized_toRaw hr) hfit]
  exact decForm_toRaw hr hw

/-- Settles O3: the word passes the length tests, and its form tests give the instruction back. -/
theorem decodeEncode : Obligations.DecodeEncode :=
  fun _ _ _ hw he hfit => decode_encode hw he hfit

/-- Settles O2: each word is the encoding of its instruction; the last two fail the test of the opcode and of the block. -/
theorem decodedWords : Obligations.DecodedWords := by
  refine ⟨?_, ?_, ?_, ?_, ?_, ?_, ?_, ?_, ?opcode, ?crossing⟩
  case opcode | crossing => rfl
  all_goals exact decode_encode rfl rfl (by decide)

end Sys2Proof

namespace Sys2Proof.Machine

open Sys2Proof.Claims

/-! ## `nop` and `nop.skip` (R86, R98, R170) -/

/-- The lane after `nop` has moved its batch and shifted the latches, before the chain goes on or ends. -/
def nopMoved (l : Lane) (h : Hdr) : Lane :=
  ((active l h).foldl (fun m t => m.setTh t ((m.w.th t).shift none)) (l.advance l.w.batch 8)).shiftIdle (active l h)

theorem exec_nop {h : Hdr} {s : State} {l : Lane} (hl : s.lane? = some l) :
    exec (.nop h) s = .next (s.putLane (((nopMoved l h).nextChain h.chain).settle l.w.batch)) := by
  show onLane s (Form.run _ _) = _
  unfold Form.run ctl sound
  simp only [onLane, hl, nothing_ready, Bool.not_true, Bool.false_eq_true, if_false, ite_self, if_true]
  rfl

theorem foldl_setTh_chain (F : Thread → Thread) (ts : List Nat) (l : Lane) :
    (ts.foldl (fun m t => m.setTh t (F (m.w.th t))) l).w.chain = l.w.chain := by
  induction ts generalizing l with
  | nil => rfl
  | cons t ts ih => exact ih _

theorem nopMoved_sameButFlow (l : Lane) (h : Hdr) : (nopMoved l h).SameButFlow l :=
  (Lane.SameButFlow.shiftIdle _ _).trans
    ((foldl_setTh (Thread.shift · none) _ _ (active_nodup l h)).1.trans (.advance l _ _))

theorem nopMoved_chain (l : Lane) (h : Hdr) : (nopMoved l h).w.chain = l.w.chain :=
  foldl_setTh_chain (Thread.shift · none) _ _

/-- Active or not, every thread of the warp shifts its latches. -/
theorem nopMoved_th (l : Lane) (h : Hdr) {k : Nat} (hk : k < 32) :
    (nopMoved l h).w.th k = ((l.advance l.w.batch 8).w.th k).shift none := by
  have hth := (foldl_setTh (Thread.shift · none) _ (l.advance l.w.batch 8) (active_nodup l h)).2 k hk
  rw [nopMoved, shiftIdle_th _ _ hk, hth]
  by_cases ha : k ∈ active l h <;> simp [ha]

theorem shifted_of_sameLatches {b : Bool} {r : Option TWord} {x y z : Thread} (hy : shifted b r x y) (hz : z.SameLatches y) :
    shifted b r x z := by
  unfold shifted at hy ⊢
  rwa [hz.1, hz.2]

/-- `nop` moves the batch past it and shifts the latches of its chain. -/
theorem nop_done {s : State} {l : Lane} (hl : s.lane? = some l) (h : Hdr) :
    ∃ t w, exec (.nop h) s = .next t ∧ onlyWarp s t l w ∧ onlyThreads l w ∧
      w.chain = (if chainsOn l h then l.w.chain + 1 else 0) ∧
      (∀ k < 32, shifted (chainsOn l h) none (l.w.th k) (w.th k)) ∧
      (∀ k ∈ l.w.batch, past 8 (l.w.th k) (w.th k) ∧ kept (l.w.th k) (w.th k)) ∧
      (∀ k < 32, k ∉ l.w.batch → bystander (l.w.th k) (w.th k)) := by
  have hflow := (Lane.SameButFlow.nextChain (nopMoved l h) h.chain).trans (nopMoved_sameButFlow l h)
  have hset := (Lane.SameButFlow.settle _ l.w.batch).trans hflow
  obtain ⟨hchain, hlatch⟩ := nextChain_shifted (nopMoved l h) l h (nopMoved_chain l h) (nopMoved_sameButFlow l h).chainOff
    (by simp [nopMoved, Lane.shiftIdle])
  have hth : ∀ k < 32, (((nopMoved l h).nextChain h.chain).w.th k).SameButLatches ((l.advance l.w.batch 8).w.th k) := by
    intro k hk
    have hn := nextChain_same (nopMoved l h) h.chain k
    rw [nopMoved_th l h hk] at hn
    exact hn.trans (shift_same _ _)
  have hbatch : ∀ k ∈ l.w.batch, (((nopMoved l h).nextChain h.chain).w.th k).SameButLatches
      { l.w.th k with pc := (l.w.th k).pc + BitVec.ofNat 57 8, st := .eligible, derailed := false } := by
    intro k hk
    have hs := hth k (batch_lt hk)
    rwa [advance_th _ _ _ (batch_lt hk), if_pos (by simpa using hk)] at hs
  refine ⟨_, _, exec_nop hl, putLane_onlyWarp hl hset, hset.warp, ?_, fun k hk => ?_, fun k hk => ?_, fun k hk hn => ?_⟩
  · rw [settle_chain, hchain]
  · have hmoved := nopMoved_th l h hk
    have hadv : ((l.advance l.w.batch 8).w.th k).l0 = (l.w.th k).l0 := by
      rw [advance_th _ _ _ hk]
      split <;> rfl
    refine shifted_of_sameLatches (hlatch k hk _ _ ?_ ?_) (settle_latches _ _ hk)
    · rw [hmoved]
      exact hadv
    · rw [hmoved]
      rfl
  · have hs := hbatch k hk
    rw [settle_th_of _ _ (batch_lt hk) (by rw [hs.st]; exact TState.noConfusion) ((atConv_of_st hs.st).trans rfl)]
    exact ⟨⟨hs.pc, hs.st⟩, hs.v, hs.p, hs.pt, hs.pp⟩
  · have hs := hth k hk
    rw [advance_th _ _ _ hk, if_neg (by simpa using hn)] at hs
    obtain ⟨-, -, hne⟩ := lane?_some hl
    obtain ⟨j, hj⟩ := List.exists_mem_of_ne_nil _ hne
    exact settle_bystander_of_holdsBack hs hk hn (batch_lt hj) ((holdsBack_of_st (hbatch j hj).st).trans rfl)

/-- The warp after `nop.skip`: the batch stands at the next block (R85, R86). -/
def skipped (l : Lane) : Warp :=
  { l.w with thr := (List.range 32).map (fun t =>
      if l.w.batch.contains t then { l.w.th t with pc := nextBlock l.w.pc } else l.w.th t) }

theorem exec_nopSkip {s : State} {l : Lane} (hl : s.lane? = some l) :
    exec .nopSkip s = .next (s.putLane { l with w := skipped l }) := by
  show onLane s _ = _
  simp only [onLane, hl]
  rfl

theorem skipped_th (l : Lane) {k : Nat} (hk : k < 32) :
    (skipped l).th k = if l.w.batch.contains k then { l.w.th k with pc := nextBlock l.w.pc } else l.w.th k :=
  th_mk l.w _ hk

/-- `nop.skip` moves the batch to the next block and leaves all else. -/
theorem nopSkip_done {s : State} {l : Lane} (hl : s.lane? = some l) :
    ∃ t w, exec .nopSkip s = .next t ∧ onlyWarp s t l w ∧ w = { l.w with thr := w.thr } ∧
      (∀ k ∈ l.w.batch, w.th k = { l.w.th k with pc := BitVec.ofNat 57 ((l.w.pc.toNat / 32 + 1) * 32) }) ∧
      (∀ k < 32, k ∉ l.w.batch → w.th k = l.w.th k) := by
  refine ⟨_, skipped l, exec_nopSkip hl, putLane_onlyWarp hl ⟨rfl, rfl⟩, rfl, fun k hk => ?_, fun k hk hn => ?_⟩
  · rw [skipped_th l (batch_lt hk), if_pos (by simpa using hk)]
    rfl
  · rw [skipped_th l hk, if_neg (by simpa using hn)]

/-- A 64-bit word of opcode 0x080 decodes by its modifier. -/
theorem decodeRaw_nop {r : Raw} {off : Nat} (hlen : r.len = 0) (hop : r.opcode = 0x080) (hoff : off + 8 ≤ 32) :
    decodeRaw off r = decCtl r := by
  have hform : decForm r = decCtl r := by
    unfold decForm
    rw [hop]
    rfl
  rw [← hform]
  refine decodeRaw_eq_decForm (l := .l64) ?_ ?_ ?_ ?_ ?_
  · rw [hlen]; decide
  · rw [hop]; rfl
  · rw [hlen]; rfl
  · rw [hlen]; exact hoff
  · rw [hlen]; exact fun h => absurd h (by decide)

theorem decCtl_nop_modifier {r : Raw} (hop : r.opcode = 0x080) (h0 : r.mod ≠ 0) (h1 : r.mod ≠ 1) : decCtl r = .error .modifier := by
  unfold decCtl noMod
  simp only [hop]
  rw [if_neg h1, if_neg h0]
  rfl

theorem decCtl_nopSkip {r : Raw} (hop : r.opcode = 0x080) (h1 : r.mod = 1) : decCtl r = .ok .nopSkip := by
  unfold decCtl
  simp only [hop]
  exact if_pos h1

/-- Settles O13: what `nop` and `nop.skip` do, and how their words decode. -/
theorem nopResult : Obligations.NopResult := by
  refine ⟨fun s l hl => ⟨nop_done hl, nopSkip_done hl⟩, fun r off hlen hop hoff => ?_, rfl⟩
  rw [decodeRaw_nop hlen hop hoff]
  exact ⟨decCtl_nopSkip hop, decCtl_nop_modifier hop⟩

end Sys2Proof.Machine

namespace Sys2Proof.Machine

open Sys2Proof.Claims

/-! ## Branches (R170) and the derail forms of control (R103, R395, R399) -/

theorem formAlu_derails {i : Instr} {r : RegForm} (hi : intForm i = some r ∨ valForm i = some r) {s : State} {l : Lane}
    (hl : s.lane? = some l) (hr : l.w.ready r.regs = true) (hs : ¬ r.sound i l) :
    derailForm i r.size 0x01 none (active l r.h) s l :=
  regForm_derails i r (formAlu i r) (fun _ => r.val) (hi.elim exec_intForm exec_valForm) rfl rfl rfl rfl rfl rfl s l hl hr hs

/-- The lane of an illegal word before its batch derails (R103): the batch stands where the word moves it, and the chain has ended. -/
def illegalMoved (why : Reject) (wide : Bool) (l : Lane) : Lane :=
  ((l.advance l.w.batch 0).moveTo l.w.batch (illegalNext why wide l.w.pc)).endChain

theorem exec_illegalEncoding {why : Reject} {wide : Bool} {s : State} {l : Lane} (hl : s.lane? = some l) :
    exec (.illegalEncoding why wide) s =
      .next (s.putLane (((illegalMoved why wide l).derailAll l.w.batch l.w.pc 0x01 none).settle l.w.batch)) := by
  show onLane s _ = _
  simp only [onLane, hl, illegalMoved]

theorem illegalMoved_sameButFlow (why : Reject) (wide : Bool) (l : Lane) : (illegalMoved why wide l).SameButFlow l :=
  (Lane.SameButFlow.endChain _).trans ((Lane.SameButFlow.moveTo _ _ _).trans (.advance l _ _))

theorem illegalMoved_kept (why : Reject) (wide : Bool) (l : Lane) {k : Nat} (hk : k < 32) :
    kept (l.w.th k) ((illegalMoved why wide l).w.th k) := by
  refine kept_of_same (endChain_same _ k) ?_
  rw [moveTo_th _ _ _ hk, advance_th _ _ _ hk]
  split <;> split <;> exact ⟨rfl, rfl, rfl, rfl⟩

theorem illegalMoved_other (why : Reject) (wide : Bool) (l : Lane) {k : Nat} (hk : k < 32) (hn : k ∉ l.w.batch) :
    ((illegalMoved why wide l).w.th k).SameButLatches (l.w.th k) := by
  refine (endChain_same _ k).trans ?_
  rw [moveTo_th _ _ _ hk, if_neg (by simpa using hn), advance_th _ _ _ hk, if_neg (by simpa using hn)]
  exact .refl _

theorem illegalEncoding_derails (why : Reject) (wide : Bool) {s : State} {l : Lane} (hl : s.lane? = some l) :
    derailForm (.illegalEncoding why wide) 0 0x01 none l.w.batch s l :=
  derailForm_of hl (exec_illegalEncoding hl) (illegalMoved_sameButFlow why wide l) (batch_nodup l.w) (fun _ hk => hk)
    (fun _ hk => illegalMoved_kept why wide l (batch_lt hk)) (fun _ hk hn => absurd hk hn)
    (fun _ hk hn => illegalMoved_other why wide l hk hn)

/-- The fault of a branch known at issue (R399): a register that does not exist or, where the target is the same for all threads, its
alignment. -/
def branchFault (i : Instr) (ok : Bool) (l : Lane) : Option Nat :=
  match i with
  | .bra _ off => if aligned8 (branchTarget l.w.pc off) then none else some 0x08
  | .call _ _ off => if !ok then some 0x01 else if aligned8 (branchTarget l.w.pc off) then none else some 0x08
  | _ => illegal (!ok)

/-- The target that all threads of a branch at `pc` share, for the record of a misaligned one (log 58). -/
def branchAim (i : Instr) (pc : VAddr) : Option VAddr :=
  match i with
  | .bra _ off | .call _ _ off => some (branchTarget pc off)
  | _ => none

/-- An active thread after its branch at `pc` to `a`: `call` leaves the address after it and its latch. -/
def landed (i : Instr) (pc a : VAddr) (x : Thread) : Thread :=
  match i with
  | .call _ d _ => { x with pc := a }.putResult (.vec d true) ((pc + 16).setWidth 64) none
  | _ => { x with pc := a }.shift none

/-- The turn of an active thread of a branch at `pc` (R170, R399, R407). -/
def branchTurn (i : Instr) (pc : VAddr) (l : Lane) (t : Nat) (x : Thread) : Turn :=
  match i with
  | .bra _ off | .call _ _ off => .go (landed i pc (branchTarget pc off) x)
  | .brx _ a => match readSrc l.w (l.w.th t) 0 .i32 a with
    | none => .fault 0x03 none
    | some (_, some p) => .crazed p
    | some (v, none) => goTo x (branchTarget pc (v.setWidth 32))
  | .ret _ a => match readSrc l.w (l.w.th t) 0 .i64 a with
    | none => .fault 0x03 none
    | some (_, some p) => .crazed p
    | some (v, none) => goTo x (v.setWidth 57)
  | _ => .go x

section
variable {i : Instr} {h : Hdr} {n : Nat} {rs : List (Nat × Nat)} {ok : Bool} {s : State} {l : Lane}

/-- `bra`, `brx`, `call` and `ret` are branches of one form, where no register that they read hides an error. -/
theorem exec_branchForm (hl : s.lane? = some l) (hi : branchForm l.wg.info.nregs i = some (h, n, rs, ok))
    (hs : l.scrubTarget h ok rs = l) :
    exec i s = onLane s (branch (ctl h n true rs (branchFault i ok)) (branchAim i) (branchTurn i)) := by
  cases i
  case bra => cases hi; rfl
  case call =>
    cases hi
    show onLane s _ = _
    simp only [onLane, hl]
    rfl
  case brx | ret =>
    cases hi
    show onLane s _ = _
    simp only [onLane, hl, hs]
    rfl
  all_goals cases hi

/-- Where every active guard is crazed, no thread reads a register (R395). -/
theorem scrubTarget_crazed (ok : Bool) (rs : List (Nat × Nat)) (hc : ∀ k ∈ active l h, ((l.w.th k).predCraze h.guard).isSome) :
    l.scrubTarget h ok rs = l := by
  have hnone : l.w.batch.filter (fun t => guardHolds h (l.w.th t) && ((l.w.th t).predCraze h.guard).isNone) = [] := by
    rw [List.filter_eq_nil_iff]
    intro k hk hg
    obtain ⟨hh, hn⟩ := (Bool.and_eq_true _ _).mp hg
    have hsome := hc k (List.mem_filter.mpr ⟨hk, hh⟩)
    rw [Option.isNone_iff_eq_none.mp hn] at hsome
    cases hsome
  unfold Lane.scrubTarget
  rw [hnone]
  split <;> rfl

/-- A thread whose target is aligned goes there. -/
theorem branchTurn_go {k : Nat} {a : VAddr} (hi : branchForm l.wg.info.nregs i = some (h, n, rs, ok))
    (hto : branchTo l.w l.w.pc (l.w.th k) i = some a) (ha : aligned8 a = true) (x : Thread) :
    branchTurn i l.w.pc l k x = .go (landed i l.w.pc a x) := by
  cases i
  case bra | call => cases hto; rfl
  case brx src | ret src =>
    simp only [branchTo] at hto
    split at hto
    next v hv =>
      cases hto
      simp only [branchTurn, hv, goTo]
      exact if_pos ha
    next => cases hto
  all_goals cases hi

/-- A branch whose registers exist and that has an active thread with an aligned target has no fault at issue. -/
theorem branchFault_none {k : Nat} {a : VAddr} (hto : branchTo l.w l.w.pc (l.w.th k) i = some a) (ha : aligned8 a = true) :
    branchFault i true l = none := by
  cases i
  case bra | call => cases hto; exact if_pos ha
  all_goals rfl

theorem landed_pc (i : Instr) (pc a : VAddr) (x : Thread) : (landed i pc a x).pc = a := by
  unfold landed
  split
  · exact putResult_pc _ _ _ _
  · rfl

theorem landed_st (i : Instr) (pc a : VAddr) (x : Thread) : (landed i pc a x).st = x.st := by
  unfold landed
  split
  · exact putResult_st _ _ _ _
  · rfl

theorem linked_landed (i : Instr) (pc a : VAddr) {x y : Thread} (hk : kept x y) : linked i pc x (landed i pc a y) := by
  cases i
  case call d _ =>
    have hw := written_putResult (.vec d true) nofun ((pc + 16).setWidth 64) none { y with pc := a }
    exact written_of_same (d := .vec d true) hk hw
  all_goals exact hk

theorem linked_of_same {pc : VAddr} {x y z : Thread} (hz : z.SameButLatches y) (hy : linked i pc x y) : linked i pc x z := by
  cases i
  case call d _ => exact written_kept (d := .vec d true) (kept_same hz) hy
  all_goals exact kept_of_same hz hy

end

/-- Settles O10: register forms, illegal words and crazed guards each end in their derail. -/
theorem derailForms : Obligations.DerailForms := by
  refine ⟨fun i r hi s l hl hr hs => formAlu_derails hi hl hr hs, fun why wide s l hl => illegalEncoding_derails why wide hl, ?_⟩
  rintro i s l h hl (⟨n, rs, ok, hi, hr⟩ | hi) hc
  · exact branch_crazed i _ _ _ s l hl (exec_branchForm hl hi (scrubTarget_crazed ok rs hc)) hr hc
  · exact branch_crazed i _ _ _ s l hl (exec_waitForm hi s) (nothing_ready l.w) hc

/-- What an active thread of a branch becomes. -/
def branched (i : Instr) (l : Lane) (n k : Nat) : Thread :=
  landed i l.w.pc ((branchTo l.w l.w.pc (l.w.th k) i).getD 0) ((l.advance l.w.batch n).w.th k)

/-- Settles O11: every active thread has a turn that goes to its target. -/
theorem branchResult : Obligations.BranchResult := by
  rintro i s l h n rs ok hl hi hr hg hs rfl hto
  have hturn : ∀ k ∈ active l h, branchTurn i l.w.pc l k ((l.advance l.w.batch n).w.th k) = .go (branched i l n k) := by
    intro k hk
    obtain ⟨a, ha, hal⟩ := hto k hk
    rw [branchTurn_go hi ha hal, branched, ha, Option.getD_some]
  have hsound : active l h ≠ [] → branchFault i true l = none := by
    intro hne
    obtain ⟨k, hk⟩ := List.exists_mem_of_ne_nil _ hne
    obtain ⟨a, ha, hal⟩ := hto k hk
    exact branchFault_none ha hal
  obtain ⟨t, w, he, honly, hthr, hact, hidle, hother⟩ := branch_done i (ctl h n true rs (branchFault i true)) (branchAim i)
    (branchTurn i) (branched i l n) s l hl (exec_branchForm hl hi (scrubTarget_sound l h true rs hs)) hr hsound hg hturn
    (fun k hk => (landed_st _ _ _ _).trans (congrArg Thread.st (advance_active hk)))
  refine ⟨t, w, he, honly, hthr, fun k hk a ha => ?_, hidle, hother⟩
  have hsame : (w.th k).SameButLatches (landed i l.w.pc a ((l.advance l.w.batch n).w.th k)) := by
    have := hact k hk
    rwa [branched, ha, Option.getD_some] at this
  have hadv := advance_active (n := n) hk
  refine ⟨hsame.pc.trans (landed_pc _ _ _ _), ?_, linked_of_same hsame (linked_landed i _ _ ?_)⟩
  · rw [hsame.st, landed_st, hadv]
  · rw [hadv]
    exact ⟨rfl, rfl, rfl, rfl⟩

end Sys2Proof.Machine

namespace Sys2Proof.Machine

open Sys2Proof.Claims

/-! ## `cvtf` with a clean control word (R164) -/

/-- Threads and chains are no part of what an issue sees of the format registers (R58). -/
theorem fmView_of_sameButFlow {m l : Lane} (h : m.SameButFlow l) : m.fmView = l.fmView := by
  unfold Lane.fmView
  rw [h.wg, h.clock]

/-- What an issue sees of the format registers says nothing else of the workgroup. -/
@[simp] theorem fmView_info (l : Lane) : l.fmView.info = l.wg.info := by
  unfold Lane.fmView
  split
  · split <;> rfl
  · rfl

theorem sources_sameScalars {v w : Warp} (h : v.s = w.s) (x : Thread) (lit : Word) (srcs : List (Src × OKind)) :
    sources v x lit srcs = sources w x lit srcs := by
  simp only [sources, fun k a => readSrc_sameScalars h x lit k a]

/-- A source that is neither a vector register nor a latch reads the same for every thread. -/
theorem readSrc_shared {b : Src} (hv : ∀ i, b ≠ .vec i) (ho : ∀ one, b ≠ .latch one) (w : Warp) (x y : Thread) (lit : Word) (k : OKind) :
    readSrc w x lit k b = readSrc w y lit k b := by
  cases b with
  | vec i => exact absurd rfl (hv i)
  | latch one => exact absurd rfl (ho one)
  | scal i | imm n | fcon n | lit => rfl

theorem aluVDst_ne_scal (d : VDst) (wide : Bool) (i : BitVec 6) (w : Bool) : aluVDst d wide ≠ .scal i w := by
  cases d <;> exact ADst.noConfusion

/-- Under two format codes that are assigned, `cvtf` computes the conversion of R134. -/
theorem cvtfValue_eq_convert {g : Wg} {c : Nat} {fa fb : Num.Fmt} (ha : cvtfFmt g (field c 0 4) = some fa)
    (hb : cvtfFmt g (field c 4 4) = some fb) (r : CvRound) (x rnd : DWord) :
    cvtfValue g r c x rnd = BitVec.ofNat 64 (Num.convert x.toNat fa fb (cvRnd r rnd)
      (if 8 ≤ field c 0 4 then field c 8 8 else 127) (if 8 ≤ field c 4 4 then field c 16 8 else 127)) := by
  simp only [cvtfValue, ha, hb]

/-- A control word without a fault meets the pair rules (R144). -/
theorem cvtfPairs_of_sound {g : Wg} {d : VDst} {a : Src} {c : Nat} (h : cvtfFault g d a c = false) :
    cvtfPairs g.info.nregs d a c = true := by
  unfold cvtfFault at h
  simpa using (Bool.or_eq_false_iff.mp h).2

/-- The sources of `cvtf` under the control word `c`. -/
def cvtfSources (r : CvRound) (a b : Src) (c : Nat) : List (Src × OKind) :=
  [(a, cvtfKind (field c 0 4)), (b, .i32)] ++ cvSrcs r

/-- Thread `x` after `cvtf` under the control word `c`, with the operands `v` and the format registers of `g`. -/
def converted (g : Wg) (h : Hdr) (r : CvRound) (d : VDst) (c : Nat) (v : List DWord × Option Word) (x : Thread) : Thread :=
  x.putResult (aluVDst d (field c 4 4 == 1)) (cvtfValue g r c (arg v.1 0) (arg v.1 2))
    (crazeOf [v.2, x.predCraze h.guard, cvtfCraze g (field c 0 4) (field c 4 4)])

/-- The operands of `cvtf` under the control word `c`, with `crz` the craze of the format registers it names. -/
def cvtfAlu (h : Hdr) (r : CvRound) (d : VDst) (a b : Src) (lit : Word) (c : Nat) (crz : Option Word) : Alu :=
  { mkAlu h false (aluVDst d false) (cvtfSources r a b c) lit with pred := none, wideCraze := crz }

section
variable {h : Hdr} {r : CvRound} {d : VDst} {a b : Src} {lit : Word} {l : Lane}

theorem exec_cvtf {s : State} (hl : s.lane? = some l) : exec (.cvtf h r d a b lit) s = .next (s.putLane (cvtfRun h r d a b lit l)) := by
  show onLane s (cvtfRun h r d a b lit) = _
  simp only [onLane, hl]

/-- A thread with a clean control word that has no fault, and with readable sources, takes its converted value, also after other
threads have had their turns. -/
theorem cvtfThread_converts {m : Lane} {t : Nat} {c : DWord} {v : List DWord × Option Word} (hm : m.SameButFlow l)
    (hmt : m.w.th t = l.w.th t) (hbad : (l.w.th t).bad = []) (hctl : readSrc l.w (l.w.th t) lit .i32 b = some (c, none))
    (hsound : cvtfFault l.fmView d a c.toNat = false) (hsrc : sources l.w (l.w.th t) lit (cvtfSources r a b c.toNat) = some v)
    (pc : VAddr) : cvtfThread h r d a b lit pc m t = m.setTh t (converted l.fmView h r d c.toNat v (l.w.th t)) := by
  rw [← fmView_of_sameButFlow hm] at hsound ⊢
  rw [← readSrc_sameScalars hm.scalars] at hctl
  rw [← sources_sameScalars hm.scalars] at hsrc
  rw [← hmt] at hbad hctl hsrc ⊢
  have hread := fun crz => operands_of_sources (cvtfAlu h r d a b lit c.toNat crz) m.w (m.w.th t) v hsrc
  obtain ⟨hlatch, -, -⟩ := hread none
  obtain ⟨-, hvals, hcrz⟩ := hread (cvtfCraze m.fmView (field c.toNat 0 4) (field c.toNat 4 4))
  simp only [cvtfAlu, cvtfSources, mkAlu, List.append_nil, List.nil_append] at hlatch hvals hcrz
  unfold cvtfThread
  simp only [scrub_nothing _ _ _ _ hbad, hctl, hsound, mkAlu, hlatch, hvals, hcrz, Bool.not_false, Bool.and_self, if_true,
    Bool.false_eq_true, if_false]
  rfl

/-- `cvtf` with registers that exist and, where a thread is active, a clean control word that meets the pair rules: each active thread
has its turn, and the batch goes on. -/
theorem cvtfRun_goesOn
    (hready : l.w.ready ((aluVDst d true).regs ++ srcRegs 2 a ++ srcRegs 1 b ++ (cvSrcs r).flatMap (fun p => srcRegs 1 p.1)) = true)
    (hdst : (aluVDst d false).ok l.wg.info.nregs = true)
    (hregs : ([a, b] ++ (cvSrcs r).map Prod.fst).all (srcOk l.wg.info.nregs 1) = true)
    (hctl : ∀ k ∈ active l h, ∃ c, readSrc l.w (l.w.th k) lit .i32 b = some (c, none) ∧
      cvtfPairs l.wg.info.nregs d a c.toNat = true) :
    cvtfRun h r d a b lit l = (((((active l h).foldl (cvtfThread h r d a b lit l.w.pc) l).shiftIdle (active l h)).advance l.w.batch
      (litSize ([a, b] ++ (cvSrcs r).map Prod.fst))).nextChain h.chain).settle l.w.batch := by
  by_cases hne : active l h = []
  · unfold active at hne ⊢
    simp only [cvtfRun, hready, hne, List.isEmpty_nil, Bool.not_true, Bool.false_and, Bool.false_eq_true, if_false]
  · obtain ⟨k, hk⟩ := List.exists_mem_of_ne_nil _ hne
    obtain ⟨c, hread, hpairs⟩ := hctl k hk
    unfold active cvtfRun
    cases b with
    | vec i | latch one =>
      simp only [hready, hdst, hregs, Bool.not_true, Bool.or_false, Bool.and_false, Bool.false_eq_true, if_false]
    | scal i | imm n | fcon n | lit =>
      have hshared := (readSrc_shared (by simp) (by simp) l.w Thread.vacant (l.w.th k) lit .i32).trans hread
      simp only [hready, hdst, hregs, hshared, hpairs, Bool.not_true, Bool.or_false, Bool.and_false, Bool.false_eq_true, if_false]

end

/-- Settles O18: each active thread takes its converted value, and the batch goes on as after any register instruction. -/
theorem convertResult : Obligations.ConvertResult := by
  intro s l h r d a b lit hl ⟨hready, hbad⟩ hdst hregs word fa fb v hthread
  have hrun := cvtfRun_goesOn (h := h) hready hdst hregs (fun k hk => by
    obtain ⟨c, hctl, hword, hsound, -⟩ := hthread k hk
    exact ⟨c, hctl, fmView_info l ▸ cvtfPairs_of_sound (hword ▸ hsound)⟩)
  have hturn : ∀ (m : Lane) (k : Nat), k ∈ active l h → m.SameButFlow l → m.w.th k = l.w.th k →
      cvtfThread h r d a b lit l.w.pc m k = m.setTh k (converted l.fmView h r d (word k) (v k) (l.w.th k)) := by
    intro m k hk hm hmk
    obtain ⟨c, hctl, hword, hsound, -, -, hsrc⟩ := hthread k hk
    rw [hword] at hsound hsrc ⊢
    exact cvtfThread_converts hm hmk (hbad k hk) hctl hsound hsrc _
  obtain ⟨hflow, hth⟩ := foldl_each _ _ l (active l h) l (active_nodup l h) (fun k hk => batch_lt (active_batch hk)) (.refl l)
    (fun _ _ => rfl) hturn
  obtain ⟨t, w, he, honly, hthr, hpast, hact, hidle, hother⟩ := finish_done (.cvtf h r d a b lit) h
    (litSize ([a, b] ++ (cvSrcs r).map Prod.fst)) _ s l _ hl (by rw [exec_cvtf hl, hrun]) hflow hth
    (fun k _ => putResult_pc _ _ _ _)
  refine ⟨t, w, he, honly, hthr, hpast, fun k hk => written_kept (hact k hk) ?_, hidle, hother⟩
  obtain ⟨-, -, -, -, hfa, hfb, -⟩ := hthread k hk
  rw [← cvtfValue_eq_convert hfa hfb]
  exact written_putResult _ (aluVDst_ne_scal _ _) _ _ _

end Sys2Proof.Machine

namespace Sys2Proof.Machine

open Sys2Proof.Claims

/-! ## Register forms complete (R149, R159) -/

/-- An instruction that computes the result of its form completes as the form says. -/
theorem formAlu_completes {i : Instr} {r : RegForm} (he : ∀ s, exec i s = (formAlu i r).exec (fun _ => r.val) s) : r.completes i := by
  refine regForm_completes i r (formAlu i r) (fun _ => r.val) he rfl rfl rfl rfl rfl rfl rfl (fun _ _ => rfl) (fun l hs => ?_)
  obtain ⟨-, -, -, hres⟩ := hs
  exact ⟨hres, id⟩

/-- Settles O7: the shape of the register instructions computes the integer forms. -/
theorem integerResult : Obligations.IntegerResult := fun _ _ h => formAlu_completes (exec_intForm h)

/-- Settles O8: the shape of the register instructions computes the floating-point, packed and predicate forms. -/
theorem valueResult : Obligations.ValueResult := fun _ _ h => formAlu_completes (exec_valForm h)

/-! ## `pmov` (R168) -/

/-- Of a result that enters a predicate, bit 0 alone counts. -/
theorem written_pred_congr {k : BitVec 3} {u v : DWord} (h : u.getLsbD 0 = v.getLsbD 0) {c : Option Word} {x y : Thread}
    (hw : written (.pred k) u c x y) : written (.pred k) v c x y := by
  simp only [written] at hw ⊢
  rwa [← h]

/-- An instruction of its own form may claim less. -/
theorem completes_mono {i : Instr} {o : OwnForm} {s : State} {l : Lane} {f g : Nat → Thread → Prop}
    (hc : o.completes i s l f) (h : ∀ k ∈ active l o.h, ∀ y, f k y → g k y) : o.completes i s l g := by
  obtain ⟨t, w, he, honly, hthr, hpast, hact, hidle, hother⟩ := hc
  exact ⟨t, w, he, honly, hthr, hpast, fun k hk => h k hk _ (hact k hk), hidle, hother⟩

/-- Thread `x` past an instruction of `n` bytes (R84). -/
def Thread.moved (x : Thread) (n : Nat) : Thread := { x with pc := x.pc + BitVec.ofNat 57 n, st := .eligible, derailed := false }

theorem advance_moved {l : Lane} {h : Hdr} {n k : Nat} (hk : k ∈ active l h) :
    (l.advance l.w.batch n).w.th k = (l.w.th k).moved n := advance_active hk

/-- Thread `k` past an instruction of `n` bytes, with the result that `res` makes of it. -/
def Lane.resultAt (l : Lane) (n : Nat) (d : ADst) (res : Thread → DWord × Option Word) (k : Nat) : Thread :=
  ((l.w.th k).moved n).putResult d (res ((l.w.th k).moved n)).1 (res ((l.w.th k).moved n)).2

theorem resultAt_written (l : Lane) (n : Nat) {d : ADst} (hd : ∀ j w, d ≠ .scal j w) (res : Thread → DWord × Option Word) (k : Nat) :
    written d (res ((l.w.th k).moved n)).1 (res ((l.w.th k).moved n)).2 (l.w.th k) (l.resultAt n d res k) :=
  written_of_same ⟨rfl, rfl, rfl, rfl⟩ (written_putResult d hd _ _ ((l.w.th k).moved n))

/-- Value and craze that `pmov.pack` gathers from a thread. -/
def gathered (x : Thread) : DWord × Option Word := (x.p.setWidth 64, if x.pt != 0 then some x.pp else none)

/-- The turn of thread `t` at `pmov.unpack`. -/
def unpackTurn (h : Hdr) (dst : BitVec 8) (a : Src) (pc : VAddr) (l : Lane) (t : Nat) : Lane :=
  let (l, v, c) := l.readOne t pc 0 .i32 (dst == 0) a
  let x := l.w.th t
  l.setTh t ((x.unpack dst v (crazeOf [c, x.predCraze h.guard])).shift none)

/-- Thread `k` past `pmov.unpack` that has read `r`. -/
def Lane.unpackedAt (l : Lane) (h : Hdr) (dst : BitVec 8) (r : DWord × Option Word) (k : Nat) : Thread :=
  (((l.w.th k).moved 8).unpack dst r.1 (crazeOf [r.2, (l.w.th k).predCraze h.guard])).shift none

/-- `pmov.unpack` writes the predicates of its mask, and leaves the place of the thread. -/
theorem unpack_unpacked (x : Thread) (dst : BitVec 8) (v : DWord) (c : Option Word) :
    (x.unpack dst v c).pc = x.pc ∧ (x.unpack dst v c).st = x.st ∧ unpacked dst v c x (x.unpack dst v c) := by
  obtain ⟨hv, hpc, hst, hp⟩ := unpack_preds v c ((List.range 7).filter (fun k => dst.getLsbD k)) x
    (fun k hk => List.mem_range.mp (List.mem_of_mem_filter hk))
  refine ⟨hpc, hst, hv, fun k hk => ?_⟩
  have hlt : k.toNat < 7 := by
    have hne : k.toNat ≠ 7 := fun h => hk (BitVec.eq_of_toNat_eq h)
    omega
  have hmem : k.toNat ∈ (List.range 7).filter (fun k => dst.getLsbD k) ↔ dst.getLsbD k.toNat = true := by
    simp [hlt]
  have hk' := hp k hk
  simp only [hmem] at hk'
  exact hk'

theorem unpacked_kept {dst : BitVec 8} {v : DWord} {c : Option Word} {x y z : Thread} (h : kept z y) (hz : unpacked dst v c x z) :
    unpacked dst v c x y := by
  obtain ⟨hv, hp, hpt, hpp⟩ := h
  have hpred : ∀ k, y.pred k = z.pred k := fun k => by simp [Thread.pred, hp]
  have htag : ∀ k, y.predTag k = z.predTag k := fun k => by simp [Thread.predTag, hpt]
  have hcraze : ∀ k, y.predCraze k = z.predCraze k := fun k => by simp [Thread.predCraze, htag, hpp]
  simpa only [unpacked, hpred, htag, hcraze, hv] using hz

/-- Operands that can be read have values. -/
theorem exists_operands {α : Type} [Inhabited α] {f : Nat → Option α} {ts : List Nat} (h : ∀ k ∈ ts, (f k).isSome) :
    ∃ op : Nat → α, ∀ k ∈ ts, f k = some (op k) := by
  refine ⟨fun k => (f k).getD default, fun k hk => ?_⟩
  obtain ⟨x, hx⟩ := Option.isSome_iff_exists.mp (h k hk)
  simp only [hx, Option.getD_some]

section
variable {s : State} {l : Lane} {h : Hdr} (hl : s.lane? = some l)
include hl

/-- `pmov` of one predicate is a register form without sources. -/
theorem pmov_completes {ps : BitVec 3} {n : Bool} {dst : BitVec 8} (hc : clear l h []) (hdst : dst.extractLsb' 3 5 = 0) :
    OwnForm.completes (.pmov h ps n dst) ⟨h, 8, [], true⟩ s l (fun k y =>
      written (.pred (dst.extractLsb' 0 3)) (boolVal ((l.w.th k).pred ps != n))
        (crazeOf [(l.w.th k).predCraze ps, (l.w.th k).predCraze h.guard]) (l.w.th k) y) := by
  obtain ⟨t, w, he, honly, hthr, hpast, hact, hidle, hother⟩ := formAlu_completes (exec_valForm (i := .pmov h ps n dst) rfl) s l hl hc
    ⟨rfl, fun _ hp => absurd hp List.not_mem_nil, fun hslow => absurd hslow Bool.false_ne_true, by simp [RegForm.sound.reserved, hdst]⟩
    (fun _ _ => ADst.noConfusion) (fun _ _ => rfl)
  refine ⟨t, w, he, honly, hthr, hpast, fun k hk => ?_, hidle, hother⟩
  refine written_pred_congr ?_ (hact k hk ([], none) rfl)
  show (if (l.w.th k).pred ps != n then (1 : DWord) else 0).getLsbD 0 = _
  cases (l.w.th k).pred ps != n <;> rfl

/-- An instruction whose active threads have their turns one after the other, each turn on its own thread alone, completes with what
the turns make of them. -/
theorem turns_complete {i : Instr} {f : Form} {body : VAddr → List Nat → Lane → Lane} {turn : Lane → Nat → Lane}
    {F : Nat → Thread} (he : exec i s = f.exec body s) (hr : l.w.ready f.regs = true) (hf : f.fault l = none)
    (hbody : body l.w.pc (active l f.h) (l.advance l.w.batch f.size) = (active l f.h).foldl turn (l.advance l.w.batch f.size))
    (hturn : ∀ m, ∀ k ∈ active l f.h, m.SameButFlow l → m.w.th k = (l.w.th k).moved f.size → turn m k = m.setTh k (F k))
    (hF : ∀ k, (F k).pc = ((l.w.th k).moved f.size).pc ∧ (F k).st = ((l.w.th k).moved f.size).st) :
    OwnForm.completes i ⟨f.h, f.size, f.regs, true⟩ s l (fun k y => kept (F k) y) := by
  obtain ⟨hflow, hth⟩ := foldl_each turn F (l.advance l.w.batch f.size) (active l f.h) _ (active_nodup l f.h)
    (fun k hk => batch_lt (active_batch hk)) (.refl _) (fun _ _ => rfl)
    (fun m k hk hm hmk => hturn m k hk (hm.trans (.advance l _ _)) (hmk.trans (advance_moved hk)))
  rw [← hbody] at hflow hth
  exact form_done i f body F s l hl he hr hf (hflow.trans (.advance l _ _)) hth (fun k _ => hF k)

/-- An instruction that gives every active thread `x` the result `res x` completes so. -/
theorem results_complete {i : Instr} {f : Form} {body : VAddr → List Nat → Lane → Lane} {d : ADst}
    {res : Thread → DWord × Option Word} (he : exec i s = f.exec body s) (hd : ∀ j w, d ≠ .scal j w)
    (hr : l.w.ready f.regs = true) (hf : f.fault l = none)
    (hbody : body l.w.pc (active l f.h) (l.advance l.w.batch f.size) = (active l f.h).foldl
      (fun m t => m.setTh t ((m.w.th t).putResult d (res (m.w.th t)).1 (res (m.w.th t)).2)) (l.advance l.w.batch f.size)) :
    OwnForm.completes i ⟨f.h, f.size, f.regs, true⟩ s l (fun k y =>
      written d (res ((l.w.th k).moved f.size)).1 (res ((l.w.th k).moved f.size)).2 (l.w.th k) y) := by
  refine completes_mono (turns_complete (F := l.resultAt f.size d res) hl he hr hf hbody (fun m k _ _ hmk => ?_)
    (fun k => ⟨putResult_pc _ _ _ _, putResult_st _ _ _ _⟩)) (fun k _ y hy => written_kept hy (resultAt_written l f.size hd res k))
  simp only [hmk, Lane.resultAt]

/-- `pmov.pack` gives every active thread its own predicates. -/
theorem pmovPack_completes {dst : BitVec 8} (hr : l.w.ready (ADst.vec dst false).regs = true)
    (hok : vecOk l.wg.info.nregs dst.toNat 1 = true) :
    OwnForm.completes (.pmovPack h dst) ⟨h, 8, (ADst.vec dst false).regs, true⟩ s l (fun k y =>
      written (.vec dst false) ((l.w.th k).p.setWidth 64) (if (l.w.th k).pt = 0 then none else some (l.w.th k).pp) (l.w.th k) y) := by
  have hdone := results_complete hl (i := .pmovPack h dst) (d := .vec dst false) (res := gathered)
    (f := ⟨h, 8, true, (ADst.vec dst false).regs, fun l => illegal (!(ADst.vec dst false).ok l.wg.info.nregs)⟩)
    rfl (fun _ _ => ADst.noConfusion) hr (by simp [illegal, ADst.ok, hok]) rfl
  simpa [gathered, Thread.moved] using hdone

/-- `pmov.unpack` spreads the bits of each active thread's source. -/
theorem pmovUnpack_completes {dst : BitVec 8} {a : Src} (hc : clear l h (srcRegs 1 a)) (hok : srcOk l.wg.info.nregs 1 a = true)
    (hdst : dst.getLsbD 7 = false) {op : Nat → DWord × Option Word}
    (hop : ∀ k ∈ active l h, readSrc l.w (l.w.th k) 0 .i32 a = some (op k)) :
    OwnForm.completes (.pmovUnpack h dst a) ⟨h, 8, srcRegs 1 a, true⟩ s l (fun k y =>
      unpacked dst (op k).1 (crazeOf [(op k).2, (l.w.th k).predCraze h.guard]) (l.w.th k) y) := by
  obtain ⟨hready, hbad⟩ := hc
  have hun := fun k => unpack_unpacked ((l.w.th k).moved 8) dst (op k).1 (crazeOf [(op k).2, (l.w.th k).predCraze h.guard])
  refine completes_mono (turns_complete (turn := unpackTurn h dst a l.w.pc) (F := fun k => l.unpackedAt h dst (op k) k) hl
    (i := .pmovUnpack h dst a) (f := ⟨h, 8, true, srcRegs 1 a, fun l => illegal (dst.getLsbD 7 || !srcOk l.wg.info.nregs 1 a)⟩)
    rfl hready ?_ rfl (fun m k hk hm hmk => ?_) (fun k => ?_)) (fun k _ y hy => ?_)
  · simp only [hdst, hok]; rfl
  · have hsrc : readSrc m.w (m.w.th k) 0 .i32 a = some ((op k).1, (op k).2) := by
      rw [hmk]
      exact (readSrc_moved l.w m.w (l.w.th k) _ hm.scalars rfl rfl rfl 0 .i32 a).trans (hop k hk)
    have hread := readOne_clean m k l.w.pc 0 .i32 (dst == 0) a _ _ (by rw [hmk]; exact hbad k hk) hsrc
    simp only [unpackTurn, hread, hmk]
    rfl
  · obtain ⟨hpc, hst, -⟩ := hun k
    exact ⟨hpc, hst⟩
  · obtain ⟨-, -, hu⟩ := hun k
    exact unpacked_kept (z := l.unpackedAt h dst (op k) k) hy hu

end

/-- `pmov` of mode 3 is no form (R168). -/
theorem decForm_pmov_three {r : Raw} (hop : r.opcode = 0x082) (hm : r.mod.extractLsb' 0 2 = 3) : decForm r = .error .modifier := by
  have h0 : r.mod.extractLsb' 0 3 ≠ 0 := fun h => by
    have hlow : r.mod.extractLsb' 0 2 = (r.mod.extractLsb' 0 3).extractLsb' 0 2 := by
      ext i hi; simp
    rw [hm, h] at hlow
    exact absurd hlow (by decide)
  have hform : decForm r = decCtl r := by
    unfold decForm
    rw [hop]
    rfl
  rw [hform]
  unfold decCtl
  rw [hop]
  exact (if_neg h0).trans ((if_neg fun h => absurd (h ▸ hm) (by decide)).trans (if_neg fun h => absurd (h ▸ hm) (by decide)))

/-- Every word decodes by its form, or fails an earlier test of R102. -/
theorem decodeRaw_cases (off : Nat) (r : Raw) : (∃ e, decodeRaw off r = .error e) ∨ decodeRaw off r = decForm r := by
  unfold decodeRaw
  split
  · exact .inl ⟨_, rfl⟩
  · split
    · exact .inl ⟨_, rfl⟩
    · split_ifs
      · exact .inl ⟨_, rfl⟩
      · exact .inl ⟨_, rfl⟩
      · exact .inl ⟨_, rfl⟩
      · exact .inr rfl

/-- Settles O15: the three forms of `pmov` complete, and mode 3 decodes to none. -/
theorem packResult : Obligations.PackResult := by
  refine ⟨fun s l h dst hl => ⟨fun ps n hc hdst => pmov_completes hl hc hdst, fun hr hok => pmovPack_completes hl hr hok,
    fun a hc hok hdst hread => ?_⟩, fun r off hop hm => ?_⟩
  · obtain ⟨op, hop⟩ := exists_operands hread
    refine completes_mono (pmovUnpack_completes hl hc hok hdst hop) (fun k hk y hy v c hvc => ?_)
    rw [hop k hk, Option.some_inj] at hvc
    rwa [hvc] at hy
  · rcases decodeRaw_cases off r with he | hf
    · exact he
    · exact ⟨_, hf.trans (decForm_pmov_three hop hm)⟩

end Sys2Proof.Machine

namespace Sys2Proof.Machine

open Sys2Proof.Claims

/-! ## Warp-wide instructions: values (R174 to R177) -/

/-- The mask of the threads of `ts` that satisfy `p`. -/
theorem maskIs_maskOf {ts : List Nat} (hlt : ∀ t ∈ ts, t < 32) (p : Nat → Bool) :
    maskIs ((maskOf (ts.filter p)).setWidth 64) ts (fun j => p j = true) := by
  intro j hj
  rw [BitVec.getLsbD_setWidth, decide_eq_true hj, Bool.true_and,
    maskOf_bit _ j (fun t ht => hlt t (List.mem_of_mem_filter ht)), List.mem_filter]

theorem active_lt {l : Lane} {h : Hdr} {t : Nat} (ht : t ∈ active l h) : t < 32 := batch_lt (active_batch ht)

/-- What thread `t` brings to a warp-wide instruction whose sources read as `op t`. -/
def shareOf (l : Lane) (h : Hdr) (op : Nat → List (DWord × Option Word)) (t : Nat) : Share :=
  ⟨t, op t, (l.w.th t).predCraze h.guard⟩

theorem shareOf_val (l : Lane) (h : Hdr) (op : Nat → List (DWord × Option Word)) (t n : Nat) :
    (shareOf l h op t).val n = ((op t).getD n (0, none)).1 := rfl
theorem shareOf_crz (l : Lane) (h : Hdr) (op : Nat → List (DWord × Option Word)) (t n : Nat) :
    (shareOf l h op t).crz n = ((op t).getD n (0, none)).2 := rfl

/-- The shares of the active set. -/
def sharesOf (l : Lane) (h : Hdr) (op : Nat → List (DWord × Option Word)) : List Share := (active l h).map (shareOf l h op)

section
variable (l : Lane) (h : Hdr) (op : Nat → List (DWord × Option Word))

theorem sharedCraze_sharesOf : sharedCraze (sharesOf l h op) =
    (active l h).findSome? (fun j => crazeOf [((op j).getD 0 (0, none)).2, (l.w.th j).predCraze h.guard]) := by
  unfold sharedCraze sharesOf
  rw [List.findSome?_map]
  rfl

/-- The threads whose shares satisfy `p`. -/
theorem sharesOf_filter (p : Share → Bool) :
    ((sharesOf l h op).filter p).map Share.t = (active l h).filter (fun j => p (shareOf l h op j)) := by
  unfold sharesOf
  rw [List.filter_map, List.map_map]
  exact List.map_id _

/-- The share of thread `j`, or of thread `k` where `j` is not active. -/
theorem sharesOf_find (j k : Nat) : ((sharesOf l h op).find? (fun y => y.t == j)).getD (shareOf l h op k) =
    shareOf l h op (((active l h).find? (fun t => t == j)).getD k) := by
  unfold sharesOf
  rw [List.find?_map, Option.getD_map]
  rfl

/-- The first share is that of the lowest active thread. -/
theorem sharesOf_head (hne : active l h ≠ []) :
    sharesOf l h op = shareOf l h op ((active l h).headD 0) :: (active l h).tail.map (shareOf l h op) := by
  unfold sharesOf
  cases hts : active l h with
  | nil => exact absurd hts hne
  | cons t ts => rfl

end

/-- The thread that `shfl` reads, or the thread itself where `.clip` keeps its own value. -/
theorem shflFrom_getD (m : ShflMode) (w t : Nat) (b : DWord) : (shflFrom m w t b).getD t = shflSource m w t b := by
  cases m with
  | idx | bfly | rev => rfl
  | rot clip =>
    unfold shflFrom shflSource
    simp only [apply_ite (fun o : Option Nat => o.getD t), Option.getD_none, Option.getD_some]

/-- Value and craze of a `vote` over the threads `ts`. -/
def voteOf (l : Lane) (ts : List Nat) (h : Hdr) (m : VoteMode) (q : BitVec 3) (n : Bool) : DWord × Option Word :=
  (voteVal m (ts.map (fun t => (t, (l.w.th t).pred q != n))),
    ts.findSome? (fun t => crazeOf [(l.w.th t).predCraze q, (l.w.th t).predCraze h.guard]))

theorem findSome?_congr {α β : Type} {f g : α → Option β} {xs : List α} (h : ∀ x ∈ xs, f x = g x) :
    xs.findSome? f = xs.findSome? g := by
  have hid : ∀ k : α → Option β, xs.findSome? k = (xs.map k).findSome? id := fun k => by rw [List.findSome?_map, Function.id_comp]
  rw [hid, hid, List.map_congr_left h]

/-- A `vote` reads predicates, which an advance leaves. -/
theorem voteOf_advance (l : Lane) (h : Hdr) (m : VoteMode) (q : BitVec 3) (n : Bool) :
    voteOf (l.advance l.w.batch 8) (active l h) h m q n = voteOf l (active l h) h m q n := by
  have hth : ∀ t ∈ active l h, (l.advance l.w.batch 8).w.th t = (l.w.th t).moved 8 := fun t => advance_moved
  refine Prod.ext (congrArg (voteVal m) (List.map_congr_left fun t ht => ?_)) (findSome?_congr fun t ht => ?_)
  · rw [hth t ht]; rfl
  · rw [hth t ht]; rfl

/-- A `vote` over the active set gives what R174 says. -/
theorem voteOf_crossResult (l : Lane) (h : Hdr) (m : VoteMode) (q : BitVec 3) (n : Bool) (dst : BitVec 8)
    (op : Nat → Nat → DWord × Option Word) (k : Nat) :
    Claims.crossResult (.vote h m q n dst) l (active l h) op k (voteOf l (active l h) h m q n).1 (voteOf l (active l h) h m q n).2 := by
  refine ⟨rfl, ?_⟩
  cases m with
  | any | all | eq => simp [voteOf, voteVal, Function.comp_def]
  | ballot =>
    have hm := maskIs_maskOf (fun t => active_lt) (fun j => (l.w.th j).pred q != n) (ts := active l h)
    simpa [voteOf, voteVal, List.filter_map, Function.comp_def] using hm

theorem voteDst_eq (m : VoteMode) (dst : BitVec 8) :
    voteDst m dst = if m = .ballot then ADst.vec dst false else .pred (dst.extractLsb' 0 3) := by cases m <;> rfl

theorem voteDst_ne_scal (m : VoteMode) (dst : BitVec 8) (j : BitVec 6) (w : Bool) : voteDst m dst ≠ .scal j w := by
  cases m <;> exact ADst.noConfusion

theorem exec_vote (h : Hdr) (m : VoteMode) (q : BitVec 3) (n : Bool) (dst : BitVec 8) (s : State) :
    exec (.vote h m q n dst) s = execVote h m q n dst s := rfl
theorem exec_matchw (h : Hdr) (b64 : Bool) (d : VDst) (a : Src) (s : State) : exec (.matchw h b64 d a) s = execMatchw h b64 d a s := rfl
theorem exec_shfl (h : Hdr) (m : ShflMode) (d : VDst) (a b c : Src) (lit : Word) (s : State) :
    exec (.shfl h m d a b c lit) s = execShfl h m d a b c lit s := rfl
theorem exec_redw (h : Hdr) (o : RedwOp) (d : VDst) (a : Src) (s : State) : exec (.redw h o d a) s = execRedw h o d a s := rfl

/-! ## Warp-wide instructions complete -/

/-- A warp-wide instruction of the form `o` completes with its result in the destination `d`, `op j` being the operands of thread `j`. -/
def completesCross (i : Instr) (o : OwnForm) (d : ADst) (s : State) (l : Lane) (op : Nat → List (DWord × Option Word)) : Prop :=
  o.completes i s l (fun k y => ∃ v c,
    Claims.crossResult i l (active l o.h) (fun j n => (op j).getD n (0, none)) k v c ∧ written d v c (l.w.th k) y)

section
variable {s : State} {l : Lane} {h : Hdr} (hl : s.lane? = some l)
include hl

/-- A warp-wide instruction gives every active thread what it makes of the shares. -/
theorem wide_completes {i : Instr} {d : VDst} {srcs : List (Src × OKind)} {lit : Word} {f : List Share → Share → DWord × Option Word}
    {op : Nat → List (DWord × Option Word)} (he : exec i s = wide h (aluVDst d false) srcs lit f s)
    (hc : clear l h (crossForm.of l.wg.info.nregs h (aluVDst d false) srcs lit).1.regs)
    (hs : (crossForm.of l.wg.info.nregs h (aluVDst d false) srcs lit).1.sound = true)
    (hop : ∀ k ∈ active l h, srcs.mapM (fun p => readSrc l.w (l.w.th k) lit p.2 p.1) = some (op k)) :
    OwnForm.completes i (crossForm.of l.wg.info.nregs h (aluVDst d false) srcs lit).1 s l (fun k y =>
      written (aluVDst d false) (f (sharesOf l h op) (shareOf l h op k)).1 (f (sharesOf l h op) (shareOf l h op k)).2 (l.w.th k) y) := by
  obtain ⟨hready, hbad⟩ := hc
  exact wide_done i h (aluVDst d false) srcs lit f s l op hl he (aluVDst_ne_scal d false) hready hbad hs hop

section
variable {o : OwnForm} {srcs : List (Src × OKind)} {lit : Word} {e : ADst} {op : Nat → List (DWord × Option Word)}
  (hc : clear l o.h o.regs) (hs : o.sound = true)
  (hop : ∀ k ∈ active l o.h, srcs.mapM (fun p => readSrc l.w (l.w.th k) lit p.2 p.1) = some (op k))
include hc hs hop

theorem matchw_completes {b64 : Bool} {d : VDst} {a : Src}
    (hform : crossForm l.wg.info.nregs (.matchw h b64 d a) = some (o, srcs, lit, e)) : completesCross (.matchw h b64 d a) o e s l op := by
  cases hform
  refine completes_mono (wide_completes hl (exec_matchw ..) hc hs hop)
    (fun k _ y hy => ⟨_, _, ⟨sharedCraze_sharesOf l h op, ?_⟩, hy⟩)
  rw [sharesOf_filter]
  have hmask := maskIs_maskOf (fun t => active_lt) (fun j => (shareOf l h op j).val 0 == (shareOf l h op k).val 0) (ts := active l h)
  simpa only [beq_iff_eq, shareOf_val] using hmask

/-- C of `shfl` is that of the first share; the shares are searched for the thread that B and C select. -/
theorem shfl_completes {m : ShflMode} {d : VDst} {a b c : Src} {n : Word}
    (hform : crossForm l.wg.info.nregs (.shfl h m d a b c n) = some (o, srcs, lit, e)) : completesCross (.shfl h m d a b c n) o e s l op := by
  cases hform
  refine completes_mono (wide_completes hl (exec_shfl ..) hc hs hop) (fun k hk y hy => ⟨_, _, ?_, hy⟩)
  have hhead := sharesOf_head l h op (List.ne_nil_of_mem hk)
  unfold Claims.crossResult
  simp only [hhead]
  simp only [← hhead, sharesOf_find, shareOf_val, shareOf_crz, shflFrom_getD]
  exact ⟨rfl, rfl⟩

theorem redw_completes {r : RedwOp} {d : VDst} {a : Src}
    (hform : crossForm l.wg.info.nregs (.redw h r d a) = some (o, srcs, lit, e)) : completesCross (.redw h r d a) o e s l op := by
  cases hform
  refine completes_mono (wide_completes hl (exec_redw ..) hc hs hop)
    (fun k hk y hy => ⟨_, _, ⟨sharedCraze_sharesOf l h op, ?_⟩, hy⟩)
  simp only [sharesOf_head l h op (List.ne_nil_of_mem hk), List.foldl_map]
  rfl

end

/-- `vote` gives every active thread the vote of the active set. -/
theorem vote_completes {m : VoteMode} {q : BitVec 3} {n : Bool} {dst : BitVec 8} {o : OwnForm} {srcs : List (Src × OKind)} {lit : Word}
    {e : ADst} (hform : crossForm l.wg.info.nregs (.vote h m q n dst) = some (o, srcs, lit, e)) (hc : clear l o.h o.regs)
    (hs : o.sound = true) (op : Nat → List (DWord × Option Word)) : completesCross (.vote h m q n dst) o e s l op := by
  cases hform
  simp only [← voteDst_eq] at hc hs ⊢
  obtain ⟨hready, -⟩ := hc
  have hdone := results_complete hl (d := voteDst m dst) (res := fun _ => voteOf (l.advance l.w.batch 8) (active l h) h m q n)
    (f := ⟨h, 8, true, (voteDst m dst).regs,
      fun l => illegal (!(voteDst m dst).ok l.wg.info.nregs || (m != .ballot && dst.extractLsb' 3 5 != 0))⟩)
    (exec_vote h m q n dst s) (voteDst_ne_scal m dst) hready
    (by simp only [illegal, bne, ← Bool.not_or, ← Bool.not_and, hs]; rfl) rfl
  simp only [voteOf_advance] at hdone
  exact completes_mono hdone (fun k _ y hy => ⟨_, _, voteOf_crossResult l h m q n dst _ k, hy⟩)

end

/-- Settles O16: each warp-wide instruction makes of the shares what its rule says (the free thread of log 15, the canonical NaN of
log 117 included). -/
theorem crossResult : Obligations.CrossResult := by
  intro i s l o srcs lit d hl hform hc hs op hop
  cases i with
  | vote h m q n dst => exact vote_completes hl hform hc hs op
  | matchw h b64 e a => exact matchw_completes hl hc hs hop hform
  | shfl h m e a b c n => exact shfl_completes hl hc hs hop hform
  | redw h r e a => exact redw_completes hl hc hs hop hform
  | _ => exact nomatch hform

/-- A warp-wide instruction with sources that can be read writes its destination in every active thread. -/
theorem cross_completes {i : Instr} {s : State} {l : Lane} {o : OwnForm} {srcs : List (Src × OKind)} {lit : Word} {d : ADst}
    (hl : s.lane? = some l) (hform : crossForm l.wg.info.nregs i = some (o, srcs, lit, d)) (hc : clear l o.h o.regs) (hs : o.sound = true)
    (hread : ∀ p ∈ srcs, readable l o.h lit p.2 p.1) :
    o.completes i s l (fun k y => ∃ v c, written d v c (l.w.th k) y) := by
  have hsome : ∀ k ∈ active l o.h, (srcs.mapM (fun p => readSrc l.w (l.w.th k) lit p.2 p.1)).isSome := fun k hk => by
    rw [mapM_isSome, Bool.not_eq_true', List.any_eq_false]
    intro x hx
    obtain ⟨p, hp, rfl⟩ := List.mem_map.mp hx
    exact Bool.eq_false_iff.mp (Option.isNone_eq_false_iff.mpr (hread p hp k hk))
  obtain ⟨op, hop⟩ := exists_operands hsome
  exact completes_mono (crossResult i s l o srcs lit d hl hform hc hs op hop) (fun k _ y ⟨v, c, _, hw⟩ => ⟨v, c, hw⟩)

/-- Settles O17: each form meets the conditions of O16. -/
theorem crossCompletes : Obligations.CrossCompletes := by
  intro s l h hl
  refine ⟨fun m q n dst hm hdst hc => ?_, fun q n dst hok hc => ?_, fun wide d a hd ha hc hread => ?_,
    fun m d a b c lit hd hsrcs hc hra hrb hrc => ?_, fun op d a hd ha hc hread => ?_⟩
  · have hform : crossForm l.wg.info.nregs (.vote h m q n dst) =
        some (⟨h, 8, [], true⟩, [], 0, .pred (dst.extractLsb' 0 3)) := by
      simp [crossForm, hm, hdst, ADst.regs, ADst.ok]
    exact cross_completes hl hform hc rfl (fun _ hp => absurd hp List.not_mem_nil)
  · have hdone := cross_completes (i := .vote h .ballot q n dst) hl rfl hc (by simpa [ADst.ok] using hok)
      (fun _ hp => absurd hp List.not_mem_nil)
    exact hdone
  · have hkind : (ikind wide).wide = wide := by cases wide <;> rfl
    have hdone := cross_completes (i := .matchw h wide d a) hl rfl (by simpa [crossForm.of, hkind] using hc)
      (by simp [hkind, hd, ha]) (by simpa [crossForm.of] using hread)
    exact hdone
  · have hdone := cross_completes (i := .shfl h m d a b c lit) hl rfl (by simpa [crossForm.of, src, OKind.wide] using hc)
      (by simpa [crossForm.of, src, OKind.wide, hd] using hsrcs) (by simpa [crossForm.of, src] using ⟨hra, hrb, hrc⟩)
    exact hdone
  · have hkind : (redwKind op).wide = false := by cases op <;> rfl
    have hdone := cross_completes (i := .redw h op d a) hl rfl (by simpa [crossForm.of, hkind] using hc)
      (by simp [hkind, hd, ha]) (by simpa [crossForm.of] using hread)
    exact hdone

end Sys2Proof.Machine

namespace Sys2Proof.Machine

open Sys2Proof.Claims

/-! ## Format registers (R230, R394) -/

theorem exec_fmtset (h : Hdr) (dst : BitVec 8) (a : Src) (lit : Word) (s : State) :
    exec (.fmtset h dst a lit) s = execFmtset h dst a lit s := rfl

/-- The first craze of a list is that of its head, else the first of its tail. -/
theorem crazeOf_pair (p : Option Word) (qs : List (Option Word)) : crazeOf [p, crazeOf qs] = crazeOf (p :: qs) := by
  cases p with
  | some p => rfl
  | none => rw [crazeOf_cons, crazeOf_cons, crazeOf_cons]; cases crazeOf qs <;> rfl

/-- The word that `fmtset` writes: the source, or the first craze of source and guards (R394, log 28). -/
def fmtWord (l : Lane) (h : Hdr) (a : Src) (lit : Word) : TWord :=
  match crazeOf [(warpRead l .i32 lit a).2, guardsOf l h] with
  | some p => ⟨p, true⟩
  | none => ⟨(warpRead l .i32 lit a).1.setWidth 32, false⟩

/-- The source of an array instruction is a scalar or a constant, which an advance leaves. -/
theorem matRead_advance (l : Lane) (b : List Nat) (n : Nat) (k : OKind) (lit : Word) (a : Src) :
    (l.advance b n).matRead k lit a = warpRead l k lit a := by
  unfold Lane.matRead warpRead
  rw [readSrc_sameScalars (v := (l.advance b n).w) (w := l.w) rfl]

/-- The lane after the body of `fmtset`: the batch has advanced and the register is written. -/
def fmtDone (l : Lane) (h : Hdr) (dst : BitVec 8) (a : Src) (lit : Word) : Lane :=
  (l.advance l.w.batch (litSize [a])).fmWrite dst.toNat (fmtWord l h a lit)

/-- `fmtset` behind no unstarted entry runs its body (R230). -/
theorem fmtset_writes {s : State} {l : Lane} {h : Hdr} {dst : BitVec 8} {a : Src} (lit : Word) (hl : s.lane? = some l)
    (hd : dst.extractLsb' 3 5 = 0) (ha : (a.isLit || matSrcOk 1 a) = true) (hact : active l h ≠ []) (hq : l.wg.queued = []) :
    exec (.fmtset h dst a lit) s = .next (s.putLane ((fmtDone l h dst a lit).endChain.settle l.w.batch)) := by
  rw [exec_fmtset]
  refine execC_done (c := ⟨s, fmtDone l h dst a lit⟩) hl (nothing_ready l.w) (fun _ => ?_) ?_ ?_
  · simp [illegal, hd, ha]
  · simp [hq]
  · have hidx : dst.toNat % 8 = dst.toNat := by
      have hhigh : dst.toNat / 8 % 32 = 0 := by simpa [Nat.shiftRight_eq_div_pow] using congrArg BitVec.toNat hd
      omega
    simp only [List.isEmpty_eq_false_iff.mpr hact, Bool.false_eq_true, if_false, Ctx.onL, hidx, matRead_advance, guards_advance]
    rw [← crazeOf_pair]
    rfl

/-- Settles O37: the body writes the one register, with a craze of its source or of a guard (log 28), and the batch moves on. -/
theorem formatSet : Obligations.FormatSet := by
  intro s l h dst a lit hl hd ha hact hq
  obtain ⟨-, -, hne⟩ := lane?_some hl
  have hflow := (Lane.SameButFlow.settle (fmtDone l h dst a lit).endChain l.w.batch).trans (Lane.SameButFlow.endChain _)
  have hgroup := putLane_onlyGroup hl hflow.ref (by rw [hflow.wg]; rfl) (by rw [hflow.wg]; rfl) hflow.core
  rw [hflow.wg] at hgroup
  have hturns : TurnsTaken l (fmtDone l h dst a lit).endChain h (litSize [a]) (l.advance l.w.batch (litSize [a])).w.th :=
    advanced_turns l h _ (fun _ _ => (ite_self _).symm)
  exact ⟨_, _, fmtset_writes lit hl hd ha hact hq, hgroup, hflow.warp, hturns.moved_of (fun k hk => advance_past _ hk) hne⟩

end Sys2Proof.Machine

namespace Sys2Proof.Machine

open Sys2Proof.Claims

/-! ## Events of the matrix array (R221 to R225, R245 to R248, R434) -/

theorem exec_matrixInstructionStart (n id : Nat) (s : State) :
    exec (.matrixInstructionStart n id) s = execMatrixInstructionStart n id s := rfl
theorem exec_matrixInstructionComplete (n id : Nat) (s : State) :
    exec (.matrixInstructionComplete n id) s = execMatrixInstructionComplete n id s := rfl
theorem exec_soakIteration (n : Nat) (s : State) : exec (.soakIteration n) s = execSoakIteration n s := rfl
theorem exec_soakRelease (n : Nat) (s : State) : exec (.soakRelease n) s = execSoakRelease n s := rfl
theorem exec_chainPartnerTimeout (n : Nat) (s : State) : exec (.chainPartnerTimeout n) s = execChainPartnerTimeout n s := rfl

section
variable {s : State} {n : Nat} {g : Wg} (hg : s.wg? n = some g)
include hg

/-! ### The start (R221, R222, R247) -/

section
variable {e : MEntry} (he : g.mEntry e.id = some e) (hr : s.mReady n g e = true) (hc : isChained e.ins = false)
include he hr hc

/-- An instruction that reads scratchpad starts, and its reads are still to come. -/
theorem exec_matrixInstructionStart_reader {l : Lane} (hk : isSoak e.ins = false) (hl : s.laneOf ⟨n, e.warp⟩ = some l)
    (hread : readsScr e.ins = true) :
    exec (.matrixInstructionStart n e.id) s = .next ((Ctx.beginRead ⟨s, l⟩ e).1.s.putLane { (Ctx.beginRead ⟨s, l⟩ e).1.l with
      wg := (Ctx.beginRead ⟨s, l⟩ e).1.l.wg.startReader e (Ctx.beginRead ⟨s, l⟩ e).2 }) := by
  rw [exec_matrixInstructionStart]
  simp [execMatrixInstructionStart, hg, he, hr, hc, hk, hread, atWarp_is hl, Ctx.onWg]

/-- An instruction that reads no scratchpad starts with the results that it will write. -/
theorem exec_matrixInstructionStart_noReads {l : Lane} (hk : isSoak e.ins = false) (hl : s.laneOf ⟨n, e.warp⟩ = some l)
    (hread : readsScr e.ins = false) :
    exec (.matrixInstructionStart n e.id) s = .next ((Ctx.prepare ⟨s, l⟩ e).1.s.putLane { (Ctx.prepare ⟨s, l⟩ e).1.l with
      wg := (Ctx.prepare ⟨s, l⟩ e).1.l.wg.startEntry e (Ctx.prepare ⟨s, l⟩ e).2 }) := by
  rw [exec_matrixInstructionStart]
  simp [execMatrixInstructionStart, hg, he, hr, hc, hk, hread, atWarp_is hl, Ctx.onWg]

/-- A soak whose fields are sound begins, or goes on where `ss` stands. -/
theorem exec_matrixInstructionStart_soak (hk : isSoak e.ins = true) (hb : soakBad g false (soakExt e.ins) = false) :
    exec (.matrixInstructionStart n e.id) s = .next (s.setWg n (g.soakBegin e)) := by
  rw [exec_matrixInstructionStart]
  simp [execMatrixInstructionStart, hg, he, hr, hc, hk, hb, modWg_is hg]

end

/-! ### The completion (R223) -/

/-- Nothing is left to find out of an instruction whose results are known. -/
theorem findOut_known {e : MEntry} {o : MOut} (he : g.mEntry e.id = some e) (ho : e.out = some o) : s.findOut n e.id = s := by
  simp only [State.findOut, hg, he, ho]
  cases e.head <;> rfl

/-- An instruction without a barrier to update writes its results and leaves the queue. -/
theorem exec_matrixInstructionComplete_known {e : MEntry} {o : MOut} {l : Lane} (he : g.mEntry e.id = some e) (hk : isSoak e.ins = false)
    (ho : e.out = some o) (harv : o.arv = none) (hl : s.laneOf ⟨n, e.warp⟩ = some l) :
    exec (.matrixInstructionComplete n e.id) s = .next (s.putLane { l with wg := completedIn g e o }) := by
  obtain ⟨hwg, -⟩ := laneOf_wg hl hg
  rw [exec_matrixInstructionComplete]
  simp [execMatrixInstructionComplete, findOut_known hg he ho, hg, he, ho, hk, harv, atWarp_is hl, Ctx.onWg, completedIn, hwg]

/-! ### The soak goes on and ends (R224, R247, R248) -/

/-- A soak on its own workgroup that need not yield makes one step. -/
theorem exec_soakIteration_step {e : MEntry} (hf : g.frozen = false)
    (he : g.mq.find? (fun x => isSoak x.ins && x.started && !x.stopped) = some e)
    (hc : isChained e.ins = false) (hy : s.soakYields n g e = false) :
    exec (.soakIteration n) s = .next (s.soakStep (soakOf false (soakExt e.ins)) [(⟨n, e⟩ : Pos)]) := by
  have hpos : s.soakPositions n g e = [⟨n, e⟩] := by simp [State.soakPositions, hc]
  rw [exec_soakIteration]
  simp [execSoakIteration, hg, hf, he, hc, hpos, hy]

/-- A stopped soak leaves the queue, and its threads go on. -/
theorem exec_soakRelease_over {e : MEntry} {l : Lane} (hf : g.frozen = false)
    (he : g.mq.find? (fun x => isSoak x.ins && x.stopped) = some e) (hl : s.laneOf ⟨n, e.warp⟩ = some l) :
    exec (.soakRelease n) s = .next (s.putLane ((soakOver l e).settle [])) := by
  rw [exec_soakRelease]
  simp only [execSoakRelease, hg, hf, he, Bool.false_eq_true, if_false, atWarp_is hl]
  rfl

/-! ### Chained operations (R434) -/

/-- An operation without its fourth fails when one of its instructions has waited 65,536 cycles. -/
theorem exec_chainPartnerTimeout_fails {k : Nat} {p : Pos} {c : Nat}
    (hk : g.mq.findSome? (fun e => if e.started then none else e.chained) = some k)
    (hp : p ∈ s.chainAt g k) (hw : p.e.waitFrom = some c) (hc : c + 65536 ≤ s.clock) (hlen : (s.chainAt g k).length < 4) :
    exec (.chainPartnerTimeout n) s = .next (s.failChain g k) := by
  rw [exec_chainPartnerTimeout]
  simp only [execChainPartnerTimeout, hg, hk]
  refine congrArg Host.Outcome.next (if_pos ?_)
  simp only [Bool.and_eq_true, List.any_eq_true, decide_eq_true_eq]
  exact ⟨⟨p, hp, by simp [hw, hc]⟩, hlen⟩

end

/-- Settles O47: each clause is one event of the array, as its lemma above says. -/
theorem matrixEvents : Obligations.MatrixEvents := fun _ _ _ hg =>
  ⟨fun _ _ he hr hc hk hl =>
      ⟨exec_matrixInstructionStart_noReads hg he hr hc hk hl, exec_matrixInstructionStart_reader hg he hr hc hk hl⟩,
    fun _ he hr hc hk hb => exec_matrixInstructionStart_soak hg he hr hc hk hb,
    fun _ _ _ he hk ho harv hl => exec_matrixInstructionComplete_known hg he hk ho harv hl,
    fun _ hf he hc hy => exec_soakIteration_step hg hf he hc hy,
    fun _ _ hf he hl => exec_soakRelease_over hg hf he hl,
    fun _ _ _ hk hp hw hc hlen => exec_chainPartnerTimeout_fails hg hk hp hw hc hlen⟩

end Sys2Proof.Machine

namespace Sys2Proof.Machine

open Sys2Proof.Claims

/-! ## Instructions of the copy role at issue (R40, R253) -/

theorem copyFault_none {bad : Lane → Bool} {l : Lane} (hr : l.w.role = .copy) (hb : bad l = false) : copyFault bad l = none := by
  simp [copyFault, hr, hb, illegal]

/-- The guards of the active set, read after the batch has advanced. -/
theorem guardCraze_advance (l : Lane) (h : Hdr) (n : Nat) : (l.advance l.w.batch n).guardCraze h (active l h) = guardsOf l h :=
  congrArg crazeOf (guards_advance l h n)

/-- What ends an instruction that does not chain changes threads and chain alone. -/
theorem endChain_settle_warp (m : Lane) (b : List Nat) :
    (m.endChain.settle b).w = { m.w with thr := (m.endChain.settle b).w.thr, chain := 0 } := settle_warp _ _

/-- The batch has moved on when the body left its threads as the advance made them. -/
theorem moved_of_advanced {l m : Lane} (n : Nat) (hth : m.w.thr = (l.advance l.w.batch n).w.thr) (hne : l.w.batch ≠ []) :
    moved n l (m.endChain.settle l.w.batch).w := by
  have hturns : TurnsTaken l m.endChain ⟨7, false, false⟩ n (l.advance l.w.batch n).w.th :=
    advanced_turns l _ n (fun u _ => by rw [ite_self]; unfold Warp.th; rw [hth])
  exact hturns.moved_of (fun k hk => advance_past n hk) hne

/-- The warp of a lane that is put back. -/
theorem warp?_putLane_own (s : State) {m : Lane} (h : m.ref.warp < m.wg.warps.length) :
    (s.putLane m).warp? m.ref = some ({ m.wg with warps := m.wg.warps.set m.ref.warp m.w }, m.w) := by
  unfold State.warp?
  rw [wg?_putLane_same]
  simp [h]

/-- A lane that is put back with its core as it was leaves every core. -/
theorem core_putLane_kept {s : State} {m : Lane} (h : m.core = s.core m.wg.core) (c : Nat) : (s.putLane m).core c = s.core c := by
  by_cases e : c = m.wg.core
  · rw [e, core_putLane_same, h]
  · exact core_putLane_other s m e

/-- The lane that issues is a warp of its workgroup. -/
theorem lane?_warp_lt {s : State} {l : Lane} (h : s.lane? = some l) : l.ref.warp < l.wg.warps.length := by
  obtain ⟨-, hl, -⟩ := lane?_some h
  obtain ⟨-, -, hw, -, -⟩ := laneOf_some hl
  exact (List.getElem?_eq_some_iff.mp hw).1

/-! ## Joining and leaving a group (R273, R274, R278) -/

theorem exec_grpjoin (h : Hdr) (a b : Src) (lit : Word) (s : State) : exec (.grpjoin h a b lit) s = execGrpjoin h a b lit s := rfl
theorem exec_grpleave (h : Hdr) (a : Src) (lit : Word) (s : State) : exec (.grpleave h a lit) s = execGrpleave h a lit s := rfl

/-- The issue counts of a workgroup that has joined group `gid`: a new member counts from 0, a member goes on (R273). -/
def joinedCounts (gs : Tab Nat) (gid : Nat) : Tab Nat := if (Tabs.find? gs gid).isSome then gs else Tabs.put gs gid 0

theorem find?_joinedCounts_same (gs : Tab Nat) (gid : Nat) :
    Tabs.find? (joinedCounts gs gid) gid = some ((Tabs.find? gs gid).getD 0) := by
  unfold joinedCounts
  cases hg : Tabs.find? gs gid with
  | none => simp
  | some n => simp [hg]

theorem find?_joinedCounts_other (gs : Tab Nat) {gid j : Nat} (h : j ≠ gid) :
    Tabs.find? (joinedCounts gs gid) j = Tabs.find? gs j := by
  unfold joinedCounts
  split
  · rfl
  · exact Tabs.find?_put_other gs 0 h

/-- The lane after the body of `grpjoin` of `n` bytes: it counts in the group, and its warp waits for the shelves. -/
def joinDone (l : Lane) (n gid : Nat) (hold : BitVec 16) : Lane :=
  Lane.grpBusy { l.advance l.w.batch n with wg := { l.wg with groups := joinedCounts l.wg.groups gid } } gid (some hold)

/-- The machine around it: a trailer is no member (R476). -/
def joinState (s : State) (l : Lane) (gid hold : Nat) : State :=
  if l.leader.isSome then s else s.setGrp l.wg.part gid (joined (s.grp l.wg.part gid) l.ref.wg hold)

theorem joinState_ctx (s : State) (l m : Lane) (gid hold : Nat) :
    (⟨joinState s l gid hold, m⟩ : Ctx) =
      if l.leader.isSome then ⟨s, m⟩ else ⟨s.setGrp l.wg.part gid (joined (s.grp l.wg.part gid) l.ref.wg hold), m⟩ :=
  apply_ite (fun s => (⟨s, m⟩ : Ctx)) ..

theorem joinedCounts_lane (l : Lane) (gid : Nat) :
    (if (Tabs.find? l.wg.groups gid).isSome then l else { l with wg := { l.wg with groups := Tabs.put l.wg.groups gid 0 } }) =
      { l with wg := { l.wg with groups := joinedCounts l.wg.groups gid } } :=
  (apply_ite (fun gs : Tab Nat => ({ l with wg := { l.wg with groups := gs } } : Lane)) ..).symm

theorem joinState_core (s : State) (l : Lane) (gid hold c : Nat) : (joinState s l gid hold).core c = s.core c := by
  unfold joinState; split <;> rfl

theorem joinState_wg? (s : State) (l : Lane) (gid hold n : Nat) : (joinState s l gid hold).wg? n = s.wg? n := by
  unfold joinState; split <;> rfl

theorem joinState_rest (s : State) (l : Lane) (gid hold : Nat) :
    joinState s l gid hold = { s with groups := (joinState s l gid hold).groups } := by
  unfold joinState; split <;> rfl

theorem joinState_grp (s : State) (l : Lane) (gid hold : Nat) : (joinState s l gid hold).grp l.wg.part gid =
    if l.leader.isSome then s.grp l.wg.part gid else joined (s.grp l.wg.part gid) l.ref.wg hold := by
  unfold joinState
  split
  · rfl
  · exact Tabs.get_put_same ..

/-- A workgroup that may join is refused for no member of its group. -/
theorem mayJoin_not_refused {s : State} {l : Lane} {x : Grp} (h : mayJoin s l x) :
    (l.leader.isNone && !x.members.any (fun m => m.wg == l.ref.wg) && (decide (32 ≤ x.members.length) ||
      x.members.any (fun m => m.wg != l.ref.wg && (s.wg? m.wg).any (fun w => w.core == l.wg.core)))) = false := by
  rcases h with hlead | hmem | ⟨hlen, hcore⟩
  · simp [Option.isNone_eq_false_iff.mpr hlead]
  · simp [hmem]
  · have hsame : x.members.any (fun m => m.wg != l.ref.wg && (s.wg? m.wg).any (fun w => w.core == l.wg.core)) = false := by
      refine List.any_eq_false.mpr (fun m hm hand => ?_)
      obtain ⟨hne, hany⟩ := Bool.and_eq_true_iff.mp hand
      obtain ⟨w, hw, hc⟩ := (Option.any_eq_true _ _).mp hany
      exact hcore m hm (by simpa using hne) w hw (by simpa using hc)
    simp [hsame, hlen]

section
variable {s : State} {l : Lane} {h : Hdr} {a : Src} {lit : Word} (hl : s.lane? = some l) (hrole : l.w.role = .copy)
  (hact : active l h ≠ []) (ha : grpSrcOk a = true) (hg : guardsOf l h = none) (hac : (warpRead l .i32 lit a).2 = none)
  (hgid : (warpRead l .i32 lit a).1.toNat ≤ 255)
include hl hrole hact ha hg hac hgid

/-- A `grpjoin` with clean operands in range that the group takes (R274). -/
theorem grpjoin_joins {b : Src} (hb : grpSrcOk b = true) (hbc : (warpRead l .i32 lit b).2 = none)
    (hhold : (warpRead l .i32 lit b).1.toNat ≤ 65535) (hjoin : mayJoin s l (s.grp l.wg.part (warpRead l .i32 lit a).1.toNat)) :
    exec (.grpjoin h a b lit) s =
      .next ((joinState s l (warpRead l .i32 lit a).1.toNat (warpRead l .i32 lit b).1.toNat).putLane
        ((joinDone l (litSize [a, b]) (warpRead l .i32 lit a).1.toNat ((warpRead l .i32 lit b).1.setWidth 16)).endChain.settle l.w.batch)) := by
  rw [exec_grpjoin]
  refine execC_done (c := ⟨joinState .., joinDone ..⟩) hl (nothing_ready l.w) (fun _ => ?_) rfl ?_
  · exact copyFault_none (bad := fun _ => !grpSrcOk a || !grpSrcOk b) hrole (by simp [ha, hb])
  have hin : (decide (255 < (warpRead l .i32 lit a).1.toNat) || decide (65535 < (warpRead l .i32 lit b).1.toNat)) = false := by
    simp [hgid, hhold]
  have hcraze : crazeOf [(none : Option Word), none, none] = none := rfl
  have hmay := mayJoin_not_refused hjoin
  simp only [List.isEmpty_eq_false_iff.mpr hact, Bool.false_eq_true, if_false, matRead_advance, guardCraze_advance, hac, hbc, hg, hcraze]
  refine (if_neg ?_).trans ?_
  · rw [hin]
    exact Bool.eq_false_iff.mp hmay
  · exact (congrArg (fun c : Ctx => c.onL _) (joinState_ctx s l (l.advance l.w.batch _) _ _)).symm.trans
      (congrArg (fun m : Lane => (⟨joinState s l _ _, m.grpBusy _ _⟩ : Ctx)) (joinedCounts_lane (l.advance l.w.batch _) _))

/-- A `grpleave` with a clean operand in range (R274, R278; log 33). -/
theorem grpleave_leaves :
    exec (.grpleave h a lit) s =
      .next ((Ctx.leaveGroup ⟨s, l.advance l.w.batch (litSize [a])⟩ (warpRead l .i32 lit a).1.toNat).s.putLane
        (((Ctx.leaveGroup ⟨s, l.advance l.w.batch (litSize [a])⟩ (warpRead l .i32 lit a).1.toNat).l.grpBusy
          (warpRead l .i32 lit a).1.toNat none).endChain.settle l.w.batch)) := by
  rw [exec_grpleave]
  refine execC_done (c := (Ctx.leaveGroup _ _).onL (fun m => m.grpBusy _ none)) hl (nothing_ready l.w) (fun _ => ?_) rfl ?_
  · exact copyFault_none (bad := fun _ => !grpSrcOk a) hrole (by simp [ha])
  have hcraze : crazeOf [(none : Option Word), none] = none := rfl
  simp only [List.isEmpty_eq_false_iff.mpr hact, Bool.false_eq_true, if_false, matRead_advance, guardCraze_advance, hac, hg, hcraze,
    Nat.not_lt.mpr hgid]

end

/-- Leaving a group withdraws from its shelf entries and changes no member list but its own. -/
theorem leaveGroup_grp (c : Ctx) (gid : Nat) : (c.leaveGroup gid).s.grp c.l.wg.part gid =
    { c.s.grp c.l.wg.part gid with members := (c.s.grp c.l.wg.part gid).members.filter (fun m => m.wg != c.l.ref.wg) } :=
  Tabs.get_put_same ..

/-- Settles O39: the group's list and the workgroup's own count change, and the warp waits for the shelves; a group that is left
drops its undelivered requests (log 33). -/
theorem groupChange : Obligations.GroupChange := by
  intro s l h a lit hl hrole hact ha hg hac hgid
  obtain ⟨-, -, hne⟩ := lane?_some hl
  obtain ⟨-, hcore⟩ := lane?_wg hl
  have hlt := lane?_warp_lt hl
  refine ⟨fun b hb hbc hhold hjoin => ?_, ?_⟩
  · let n := litSize [a, b]
    let m := (joinDone l n (warpRead l .i32 lit a).1.toNat ((warpRead l .i32 lit b).1.setWidth 16)).endChain.settle l.w.batch
    refine ⟨_, m.w, m.wg, grpjoin_joins hl hrole hact ha hg hac hgid hb hbc hhold hjoin, ?_, warp?_putLane_own _ hlt, rfl,
      find?_joinedCounts_same .., fun j hj => find?_joinedCounts_other _ hj,
      fun n hn => (wg?_putLane_other _ m hn).trans (joinState_wg? ..), fun c => ?_, joinState_grp .., endChain_settle_warp _ _,
      moved_of_advanced n rfl hne⟩
    · rw [joinState_rest]; rfl
    · exact (core_putLane_kept (m := m) (hcore.trans (joinState_core ..).symm) c).trans (joinState_core ..)
  · let n := litSize [a]
    let c := Ctx.leaveGroup ⟨s, l.advance l.w.batch n⟩ (warpRead l .i32 lit a).1.toNat
    let m := (c.l.grpBusy (warpRead l .i32 lit a).1.toNat none).endChain.settle l.w.batch
    have hown : (c.s.putLane m).core l.wg.core = (s.core l.wg.core).dropRequests l.ref.wg (warpRead l .i32 lit a).1.toNat :=
      (core_putLane_same c.s m).trans (congrArg (fun k => Core.dropRequests k _ _) hcore)
    refine ⟨_, m.w, m.wg, grpleave_leaves hl hrole hact ha hg hac hgid, rfl, warp?_putLane_own _ hlt, rfl, Tabs.find?_del_same ..,
      fun j hj => Tabs.find?_del_other _ hj, fun n hn => wg?_putLane_other _ m hn, leaveGroup_grp .., hown,
      fun d hd => core_putLane_other _ m hd, ?_, moved_of_advanced n rfl hne⟩
    rw [hown, ← hcore]
    exact endChain_settle_warp _ _

end Sys2Proof.Machine

namespace Sys2Proof.Machine

open Sys2Proof.Claims

/-! ## `coll` (R280, R281, R444) -/

theorem exec_coll (h : Hdr) (dst : BitVec 8) (a b : Src) (e : Ext) (s : State) : exec (.coll h dst a b e) s = execColl h dst a b e s := rfl

theorem clBad_dst {dst : BitVec 8} {a b : Src} {e : Ext} (h : clBad dst a b e = false) : dst.toNat < 64 := by
  simp only [clBad, Bool.or_eq_false_iff, decide_eq_false_iff_not] at h
  omega

/-- A write of a scalar register reaches only the scalar registers. -/
theorem setS_eq (w : Warp) (i : Nat) (x : TWord) : w.setS i x = { w with s := (w.setS i x).s } := by
  unfold Warp.setS; split <;> rfl

/-- What a scalar register reads as depends on the scalar registers alone. -/
theorem scalarWritten_of_scalars {i : BitVec 6} {wide : Bool} {v : DWord} {c : Option Word} {u w w' : Warp} (h : w'.s = w.s)
    (hw : scalarWritten i wide v c u w) : scalarWritten i wide v c u w' := by
  have hreg : ∀ j, w'.sreg j = w.sreg j := fun j => by unfold Warp.sreg; rw [h]
  simpa only [scalarWritten, hreg] using hw

/-- A clean word in one scalar register. -/
theorem setS_written (w : Warp) (i : BitVec 6) (x : Word) :
    scalarWritten i false (x.setWidth 64) none w (w.setS i.toNat ⟨x, false⟩) := by
  have he : w.setS i.toNat ⟨x, false⟩ = w.setSc i.toNat false (x.setWidth 64) none := by
    unfold Warp.setSc
    by_cases hi : i.toNat = 63
    · rw [if_pos hi]; exact if_pos hi
    · rw [if_neg hi]; simp
  rw [he]
  exact setSc_written w i false _ none (fun _ h => nomatch h)

/-- The warp after `coll` has put its ticket into a register and started `x`; a trailer starts none (R476). -/
def collWarp (l : Lane) (dst : BitVec 8) (x : CollOut) : Warp :=
  let w := { (l.advance l.w.batch 16).w.setS dst.toNat ⟨x.ticket, false⟩ with collCount := x.ticket }
  if l.leader.isSome then w else { w with colls := w.colls ++ [x] }

/-- The lane after the body of `coll`. -/
def collIssued (l : Lane) (dst : BitVec 8) (x : CollOut) : Lane := Lane.tick { l.advance l.w.batch 16 with w := collWarp l dst x }

theorem collIssued_warp (l : Lane) (dst : BitVec 8) (x : CollOut) : (collIssued l dst x).w =
    { l.w with thr := (l.advance l.w.batch 16).w.thr, s := (collIssued l dst x).w.s, po := l.w.po + 1, nextId := l.w.nextId + 1,
               collCount := x.ticket, colls := if l.leader.isSome then l.w.colls else l.w.colls ++ [x] } := by
  unfold collIssued collWarp
  rw [setS_eq]
  split <;> rfl

theorem collIssued_scalars (l : Lane) (dst : BitVec 8) (x : CollOut) :
    (collIssued l dst x).w.s = (l.w.setS dst.toNat ⟨x.ticket, false⟩).s := by
  have hs : ((l.advance l.w.batch 16).w.setS dst.toNat ⟨x.ticket, false⟩).s = (l.w.setS dst.toNat ⟨x.ticket, false⟩).s := by
    unfold Warp.setS; split <;> rfl
  rw [← hs]
  unfold collIssued collWarp
  split <;> rfl

section
variable {s : State} {l : Lane} {h : Hdr} {dst : BitVec 8} {a b : Src} {e : Ext} {va : Nat}

/-- A `coll` of no member with clean operands in range, a buffer that its segment holds, and a place among the four outstanding ones. -/
theorem coll_starts (hl : s.lane? = some l) (hrole : l.w.role = .copy) (hbad : clBad dst a b e = false) (hact : active l h ≠ [])
    (hfour : (l.w.colls.filter (fun x => !x.done)).length < 4) (hmem : ∀ k ∈ active l h, l.w.member k = false) (hg : guardsOf l h = none)
    (ho : (warpRead l .i64 0 a).2 = none) (hn : (warpRead l .i32 0 b).2 = none) (hpos : 1 ≤ (warpRead l .i32 0 b).1.toNat)
    (hmax : (warpRead l .i32 0 b).1.toNat ≤ 2 ^ 28) (hal : (warpRead l .i64 0 a).1.toNat % 16 = 0)
    (hchk : Ctx.checkSeg ⟨s, l⟩ (l.w.seg (clSeg e)) ((active l h).headD 0) (warpRead l .i64 0 a).1.toNat 1 [57, 58] [0] false =
      .ok (.va va)) :
    exec (.coll h dst a b e) s = .next (s.putLane ((collIssued l dst
      (startedColl l h e va (warpRead l .i64 0 a).1.toNat (warpRead l .i32 0 b).1.toNat)).endChain.settle l.w.batch)) := by
  rw [exec_coll]
  refine execC_done (c := ⟨s, collIssued ..⟩) hl (nothing_ready l.w) (fun _ => ?_) ?_ ?_
  · exact copyFault_none (bad := fun _ => clBad dst a b e) hrole hbad
  · simp [Nat.not_le.mpr hfour]
  have hguard := guardCraze_advance l h 16
  unfold startedColl
  obtain ⟨t, ts, hts⟩ := List.exists_cons_of_ne_nil hact
  rw [hts] at hguard hchk hmem ⊢
  have hnone : (t :: ts).any (l.advance l.w.batch 16).w.member = false :=
    List.any_eq_false.mpr (fun k hk => Bool.eq_false_iff.mp (hmem k hk))
  have hrange : ¬ ((warpRead l .i32 0 b).1.toNat = 0 ∨ 2 ^ 28 < (warpRead l .i32 0 b).1.toNat) := by omega
  have hseg : Ctx.checkSeg ⟨s, l.advance l.w.batch 16⟩ ((l.advance l.w.batch 16).w.seg (clSeg e)) t (warpRead l .i64 0 a).1.toNat 1
      [57, 58] [0] false = .ok (.va va) := hchk
  have hcraze : crazeOf [(none : Option Word), none, none] = none := rfl
  simp only [hnone, matRead_advance, hguard, ho, hn, hg, hcraze, hrange, hseg, hal, Bool.false_eq_true, if_false, ne_eq, not_true]
  rfl

end

/-! ## `collwait` (R283) -/

theorem exec_collwait (h : Hdr) (a : Src) (s : State) : exec (.collwait h a) s = execCollwait h a s := rfl

/-- Operands of an active thread at `collwait`: a ticket of its warp that was issued and has met no fault. -/
structure CollReads (s : State) (l : Lane) (a : Src) (v : Nat → DWord) (k : Nat) : Prop where
  bad : (l.w.th k).bad = []
  src : readSrc l.w (l.w.th k) 0 .i32 a = some (v k, none)
  nonzero : (v k).setWidth 32 ≠ (0 : Word)
  issued : ticketLe ((v k).setWidth 32) l.w.collCount = true
  noFault : Ctx.collFault ⟨s, l⟩ ((v k).setWidth 32) = none

/-- What the tickets of a warp wait for depends on its collectives and on its leader's alone. -/
theorem collsOf_of_flow {s : State} {l m : Lane} (hm : m.SameButFlow l) : Ctx.collsOf ⟨s, m⟩ = Ctx.collsOf ⟨s, l⟩ := by
  have hlead : m.leader = l.leader := by unfold Lane.leader; rw [hm.wg]
  unfold Ctx.collsOf
  simp only [hlead, hm.ref]
  rw [hm.warp]

/-- An active thread after `collwait` of ticket `x`: past it when the collective is complete, parked at it when not. -/
def collTurn (s : State) (l : Lane) (v : Nat → DWord) (k : Nat) : Thread :=
  if Ctx.collDone ⟨s, l⟩ ((v k).setWidth 32) then { (l.advance l.w.batch 8).w.th k with pc := l.w.pc + 8, st := .eligible }
  else { (l.advance l.w.batch 8).w.th k with pc := l.w.pc, st := .parkedEvent (.collwait ((v k).setWidth 32)) }

theorem collDone_of_flow {s : State} {l m : Lane} (hm : m.SameButFlow l) (x : Word) : Ctx.collDone ⟨s, m⟩ x = Ctx.collDone ⟨s, l⟩ x := by
  unfold Ctx.collDone; rw [collsOf_of_flow hm]

theorem collFault_of_flow {s : State} {l m : Lane} (hm : m.SameButFlow l) (x : Word) : Ctx.collFault ⟨s, m⟩ x = Ctx.collFault ⟨s, l⟩ x := by
  unfold Ctx.collFault; rw [collsOf_of_flow hm]

/-- One thread that moves on is one thread replaced. -/
theorem moveTo_one (l : Lane) (t : Nat) (a : VAddr) : l.moveTo [t] a = l.setTh t { l.w.th t with pc := a, st := .eligible } := by
  have hth : ∀ k, (if [t].contains k then { l.w.th k with pc := a, st := .eligible } else l.w.th k) =
      if k = t then { l.w.th t with pc := a, st := .eligible } else l.w.th k := by
    intro k
    by_cases hk : k = t
    · subst hk; simp
    · simp [hk]
  exact congrArg (fun f => { l with w := { l.w with thr := (List.range 32).map f } }) (funext hth)

/-- Reads in turn that leave the lane give one entry for each thread. -/
theorem foldl_reads {α : Type} (f : Lane × List α → Nat → Lane × List α) (m : Lane) (g : Nat → α) : ∀ (ts : List Nat) (acc : List α),
    (∀ t ∈ ts, ∀ acc, f (m, acc) t = (m, acc ++ [g t])) → ts.foldl f (m, acc) = (m, acc ++ ts.map g)
  | [], acc, _ => by simp
  | t :: ts, acc, hf => by
    rw [List.foldl_cons, hf t List.mem_cons_self, foldl_reads f m g ts _ (fun u hu => hf u (List.mem_cons_of_mem t hu))]
    simp

/-- Turns of threads that each replace their own thread leave the machine around the lane. -/
theorem foldl_onLane (step : Ctx → Nat → Ctx) (G : Nat → Thread) (s : State) (l0 : Lane) : ∀ (ts : List Nat) (m : Lane), ts.Nodup →
    (∀ t ∈ ts, t < 32) → m.SameButFlow l0 → (∀ t ∈ ts, m.w.th t = l0.w.th t) →
    (∀ (m : Lane), ∀ t ∈ ts, m.SameButFlow l0 → m.w.th t = l0.w.th t → step ⟨s, m⟩ t = ⟨s, m.setTh t (G t)⟩) →
    ts.foldl step ⟨s, m⟩ = ⟨s, ts.foldl (fun m t => m.setTh t (G t)) m⟩
  | [], _, _, _, _, _, _ => rfl
  | t :: ts, m, hn, hlt, hm, hth, hstep => by
    obtain ⟨hnt, hn⟩ := List.nodup_cons.mp hn
    rw [List.foldl_cons, List.foldl_cons, hstep m t List.mem_cons_self hm (hth t List.mem_cons_self)]
    refine foldl_onLane step G s l0 ts _ hn (fun u hu => hlt u (List.mem_cons_of_mem t hu)) ((Lane.SameButFlow.setTh m t (G t)).trans hm)
      (fun u hu => ?_) (fun m u hu => hstep m u (List.mem_cons_of_mem t hu))
    have hne : u ≠ t := fun e => hnt (e ▸ hu)
    rw [setTh_th _ _ _ (hlt u (List.mem_cons_of_mem t hu)), if_neg hne]
    exact hth u (List.mem_cons_of_mem t hu)

/-- The lane after the body of `collwait`. -/
def collwaitDone (s : State) (l : Lane) (h : Hdr) (v : Nat → DWord) : Lane :=
  (active l h).foldl (fun m t => m.setTh t (collTurn s l v t)) (l.advance l.w.batch 8)

theorem collwaitDone_th (s : State) (l : Lane) (h : Hdr) (v : Nat → DWord) :
    (collwaitDone s l h v).SameButFlow l ∧
    ∀ u < 32, (collwaitDone s l h v).w.th u = if u ∈ active l h then collTurn s l v u else (l.advance l.w.batch 8).w.th u := by
  obtain ⟨hflow, hth⟩ := foldl_each (fun m t => m.setTh t (collTurn s l v t)) (collTurn s l v) (l.advance l.w.batch 8) (active l h)
    (l.advance l.w.batch 8) (active_nodup l h) (fun _ => active_lt) (.refl _) (fun _ _ => rfl) (fun _ _ _ _ _ => rfl)
  exact ⟨hflow.trans (.advance l _ _), hth⟩

/-- Each active thread passes or parks, as its ticket is complete or not. -/
theorem collwait_turns {s : State} {l : Lane} {h : Hdr} {a : Src} {v : Nat → DWord} (hl : s.lane? = some l)
    (hready : l.w.ready (srcRegs 1 a) = true) (hok : srcOk l.wg.info.nregs 1 a = true) (hg : guardsClean l h)
    (hr : ∀ k ∈ active l h, CollReads s l a v k) :
    exec (.collwait h a) s = .next (s.putLane ((collwaitDone s l h v).endChain.settle l.w.batch)) := by
  rw [exec_collwait]
  refine execC_done (c := ⟨s, collwaitDone s l h v⟩) hl hready (fun _ => ?_) rfl ?_
  · simp [illegal, hok]
  rw [foldl_reads _ (l.advance l.w.batch 8) (fun t => (t, (v t).setWidth 32, (none : Option Word))) (active l h) []]
  · have hearly : ∀ k ∈ active l h, ((v k).setWidth 32 == 0 || !ticketLe ((v k).setWidth 32) (l.advance l.w.batch 8).w.collCount) = false :=
      fun k hk => by
        have hle : ticketLe ((v k).setWidth 32) (l.advance l.w.batch 8).w.collCount = true := (hr k hk).issued
        rw [hle, beq_eq_false_iff_ne.mpr (hr k hk).nonzero]; rfl
    have hwrong : ∀ x ∈ (active l h).map (fun t => (t, (v t).setWidth 32, (none : Option Word))), ¬ (x.2.2.isNone &&
        (x.2.1 == 0 || !ticketLe x.2.1 (l.advance l.w.batch 8).w.collCount)) = true := by
      intro x hx
      obtain ⟨k, hk, rfl⟩ := List.mem_map.mp hx
      simp only [hearly k hk, Bool.and_false, Bool.false_eq_true, not_false_eq_true]
    dsimp only
    rw [List.nil_append, List.filter_eq_nil_iff.mpr hwrong, List.foldl_map]
    refine foldl_onLane _ (collTurn s l v) s (l.advance l.w.batch 8) (active l h) (l.advance l.w.batch 8) (active_nodup l h)
      (fun _ => active_lt) (.refl _) (fun _ _ => rfl) (fun m k hk hm hth => ?_)
    have hml := hm.trans (.advance l l.w.batch 8)
    simp only [hearly k hk, Bool.false_eq_true, if_false, collDone_of_flow hml]
    unfold collTurn
    rw [← hth]
    split
    · simp only [Ctx.collEnd, Ctx.onL, collFault_of_flow hml, (hr k hk).noFault, moveTo_one]
    · rfl
  · intro k hk acc
    have hdata := advance_data l l.w.batch 8 (active_lt hk)
    have hsrc : readSrc (l.advance l.w.batch 8).w ((l.advance l.w.batch 8).w.th k) 0 .i32 a = some (v k, none) :=
      (readSrc_moved _ _ _ _ rfl hdata.v hdata.l0 hdata.l1 0 .i32 a).trans (hr k hk).src
    have hguard : ((l.advance l.w.batch 8).w.th k).predCraze h.guard = none := by
      rw [advance_active hk]; exact hg k hk
    simp only [readOne_clean _ k l.w.pc 0 .i32 false a _ _ (hdata.bad.trans (hr k hk).bad) hsrc, hguard]
    rfl

/-- The batch after `collwait`. -/
theorem collwaitDone_turns (s : State) (l : Lane) (h : Hdr) (v : Nat → DWord) :
    TurnsTaken l (collwaitDone s l h v).endChain h 8 (collTurn s l v) := advanced_turns l h 8 (collwaitDone_th s l h v).2

/-- A thread at `collwait` is not done with waiting for convergence, and it has not yielded. -/
theorem collTurn_st (s : State) (l : Lane) (v : Nat → DWord) (k : Nat) :
    (collTurn s l v k).st ≠ .yielded ∧ (collTurn s l v k).atConv = false ∧ (collTurn s l v k).holdsBack = true := by
  unfold collTurn
  split <;> exact ⟨TState.noConfusion, rfl, rfl⟩

theorem collTurn_kept (s : State) (v : Nat → DWord) {l : Lane} {h : Hdr} {k : Nat} (hk : k ∈ active l h) :
    kept (l.w.th k) (collTurn s l v k) := by
  have hadv := (advance_past 8 hk).2
  unfold collTurn
  split <;> exact hadv

/-- The threads after `collwait` has settled. -/
theorem collwait_leaves {s : State} {l : Lane} {h : Hdr} {v : Nat → DWord} (hne : l.w.batch ≠ []) {w : Warp}
    (hw : w = ((collwaitDone s l h v).endChain.settle l.w.batch).w) :
    (∀ k ∈ active l h, kept (l.w.th k) (w.th k) ∧ (if Ctx.collDone ⟨s, l⟩ ((v k).setWidth 32) then past 8 (l.w.th k) (w.th k)
      else (w.th k).pc = l.w.pc ∧ (w.th k).st = .parkedEvent (.collwait ((v k).setWidth 32)))) ∧
    (∀ k ∈ l.w.batch, k ∉ active l h → past 8 (l.w.th k) (w.th k) ∧ kept (l.w.th k) (w.th k)) ∧
    (∀ k < 32, k ∉ l.w.batch → bystander (l.w.th k) (w.th k)) := by
  subst hw
  have ht := collwaitDone_turns s l h v
  refine ⟨fun k hk => ?_, fun k hk hn => ht.settled_past hk hn, fun k hk hn => ?_⟩
  · obtain ⟨hy, hc, -⟩ := collTurn_st s l v k
    have hs := ht.settled_act hk hy hc
    refine ⟨kept_of_same hs (collTurn_kept s v hk), ?_⟩
    have hpc := (batch_runnable (active_batch hk)).2
    unfold collTurn at hs
    split at hs
    next hd => rw [if_pos hd]; exact ⟨by rw [hs.pc, hpc]; rfl, hs.st⟩
    next hd => rw [if_neg hd]; exact ⟨hs.pc, hs.st⟩
  · obtain ⟨j, hj⟩ := List.exists_mem_of_ne_nil _ hne
    refine settle_bystander_of_holdsBack (ht.other k hk hn) hk hn (batch_lt hj) ?_
    by_cases hja : j ∈ active l h
    · rw [holdsBack_of_st (ht.act j hja).st]
      exact (collTurn_st s l v j).2.2
    · rw [holdsBack_of_st (ht.idle j hj hja).st]
      rfl

/-- Settles O40: `coll` starts the collective of its ticket, and `collwait` lets each thread pass or parks it. -/
theorem collectiveIssue : Obligations.CollectiveIssue := by
  refine ⟨fun s l h dst a b e va hl hrole hbad hact hfour hmem hg ho hn hpos hmax hal hchk => ?_,
    fun s l h a hl hready hok hg v hv => ?_⟩
  · obtain ⟨-, -, hne⟩ := lane?_some hl
    let m := collIssued l dst (startedColl l h e va (warpRead l .i64 0 a).1.toNat (warpRead l .i32 0 b).1.toNat)
    have hwarp := collIssued_warp l dst (startedColl l h e va (warpRead l .i64 0 a).1.toNat (warpRead l .i32 0 b).1.toNat)
    have hthr : m.w.thr = (l.advance l.w.batch 16).w.thr := by rw [hwarp]
    refine ⟨_, (m.endChain.settle l.w.batch).w, coll_starts hl hrole hbad hact hfour hmem hg ho hn hpos hmax hal hchk,
      putLane_only hl rfl rfl rfl, moved_of_advanced 16 hthr hne, ?_, ?_⟩
    · have hidx : (dst.setWidth 6).toNat = dst.toNat := by
        rw [BitVec.toNat_setWidth]; exact Nat.mod_eq_of_lt (clBad_dst hbad)
      have hset := setS_written l.w (dst.setWidth 6) (nextTicket l.w.collCount)
      rw [hidx] at hset
      refine scalarWritten_of_scalars ?_ hset
      rw [endChain_settle_warp]
      exact collIssued_scalars ..
    · rw [endChain_settle_warp]
      conv_lhs => rw [hwarp]
      rfl
  · obtain ⟨-, -, hne⟩ := lane?_some hl
    have hr : ∀ k ∈ active l h, CollReads s l a v k := fun k hk => by
      obtain ⟨hb, hs, hz, hi, hf⟩ := hv k hk
      exact ⟨hb, hs, hz, hi, hf⟩
    have hflow := (Lane.SameButFlow.settle (collwaitDone s l h v).endChain l.w.batch).trans
      ((Lane.SameButFlow.endChain _).trans (collwaitDone_th s l h v).1)
    exact ⟨_, _, collwait_turns hl hready hok hg hr, putLane_onlyWarp hl hflow, hflow.warp, collwait_leaves hne rfl⟩

end Sys2Proof.Machine

namespace Sys2Proof.Machine

open Sys2Proof.Claims

/-! ## Copy commands enter their core's queue (R187, R254, R269, R308) -/

/-- A lane put back that has changed its core, its workgroup and its warp. -/
theorem putLane_onlyCore {s : State} {l m : Lane} (h : s.lane? = some l) (hr : m.ref = l.ref) (hws : m.wg.warps = l.wg.warps)
    (hgc : m.wg.core = l.wg.core) : onlyCore s (s.putLane m) l m.wg m.w m.core := by
  have hlt : m.ref.warp < m.wg.warps.length := by rw [hr, hws]; exact lane?_warp_lt h
  have hwarp := warp?_putLane_own s hlt
  rw [hr, hws] at hwarp
  refine ⟨rfl, fun _ => rfl, hwarp, fun n hn => wg?_putLane_other s m (by rwa [hr]), ?_, fun c hc => core_putLane_other s m (by rwa [hgc])⟩
  rw [← hgc]
  exact core_putLane_same s m

/-- Does the command land lines of its own implicit region, its issuing thread being no member (R187, R269)? -/
def CpyCmd.ownRegion (c : CpyCmd) : Bool := c.held && !c.member

/-- The command as lane `l` queues it: with the next number of the core, and the tag of its implicit region where it has one. -/
def CpyCmd.numbered (c : CpyCmd) (l : Lane) : CpyCmd :=
  { c with id := l.core.nextCmd, tag := if c.ownRegion then l.w.nextTag else c.tag }

/-- The warp when a command has entered the queue. -/
def queuingWarp (c : CpyCmd) (l : Lane) : Warp :=
  { l.w with po := l.w.po + 1, nextId := l.w.nextId + 1,
             accs := l.w.accs ++ (if c.reads then [l.engineAcc c] else []),
             implicit := l.w.implicit ++ (if c.ownRegion then [{ heldRegion l false with units := 0, owner := some c.thread, pc := c.pc }] else []),
             nextTag := l.w.nextTag + (if c.ownRegion then 1 else 0),
             implicitCount := l.w.implicitCount + (if c.ownRegion then 1 else 0) }

/-- A command with its tag enters the queue, and its reads stand in program order as one access (R308). -/
theorem addCmd_eq (l : Lane) (c : CpyCmd) : l.addCmd c =
    { l with core := queuedCore { c with id := l.core.nextCmd } l,
             w := { l.w with accs := l.w.accs ++ (if c.reads then [l.engineAcc c] else []), po := l.w.po + 1, nextId := l.w.nextId + 1 } } := by
  unfold Lane.addCmd
  cases c.reads with
  | true => rfl
  | false => simp only [Bool.false_eq_true, if_false, List.append_nil]; rfl

/-- A command enters the queue, with an implicit region where it needs one (R187, R269). -/
theorem heldCmd_eq (l : Lane) (c : CpyCmd) :
    l.heldCmd c = { l with core := queuedCore (c.numbered l) l, w := queuingWarp (c.numbered l) l } := by
  have hown : (!c.held || c.member) = !c.ownRegion := by unfold CpyCmd.ownRegion; cases c.held <;> cases c.member <;> rfl
  have hsame : (c.numbered l).ownRegion = c.ownRegion := rfl
  unfold Lane.heldCmd queuingWarp
  rw [hown, hsame]
  unfold CpyCmd.numbered
  cases c.ownRegion with
  | true => exact addCmd_eq ..
  | false =>
    simp only [Bool.not_false, Bool.false_eq_true, if_true, if_false, List.append_nil, Nat.add_zero, BitVec.ofNat_eq_ofNat, BitVec.add_zero]
    exact addCmd_eq ..

/-- A command as the issue hands it to the queue, before it has its number and the tag of an implicit region. -/
def CpyCmd.draft (c : CpyCmd) (l : Lane) : CpyCmd := { c with id := 0, tag := (l.w.region.map Region.tag).getD 0 }

/-- A command of lane `l` that stands as `c` in the queue. -/
def CpyCmd.queuedAs (c : CpyCmd) (l : Lane) : Prop := (c.draft l).numbered l = c ∧ c.pc = l.w.pc

/-- The lane with the command in the queue, the batch past the instruction and the workgroup `g`. -/
def cpyDone (l : Lane) (g : Wg) (c : CpyCmd) : Lane := Lane.heldCmd { l.advance l.w.batch 16 with wg := g } (c.draft l)

theorem queuedWarp_of {c : CpyCmd} {l : Lane} {w : Warp} (hpc : c.pc = l.w.pc)
    (hw : w = { queuingWarp c l with thr := w.thr, chain := 0 }) : queuedWarp c l w := by
  refine hw.trans ?_
  unfold queuingWarp CpyCmd.ownRegion
  rw [hpc]
  rfl

/-- A copy instruction that ends so has put `c` into the queue, and its batch has moved on. -/
theorem cpyDone_queued {s : State} {l : Lane} (hl : s.lane? = some l) {g : Wg} (hws : g.warps = l.wg.warps) (hgc : g.core = l.wg.core)
    {c : CpyCmd} (hc : c.queuedAs l) {m : Lane} (hm : m = (cpyDone l g c).endChain.settle l.w.batch) :
    onlyCore s (s.putLane m) l g m.w (queuedCore c l) ∧ queuedWarp c l m.w ∧ moved 16 l m.w := by
  obtain ⟨-, -, hne⟩ := lane?_some hl
  obtain ⟨hnum, hpc⟩ := hc
  let d : Lane := { l.advance l.w.batch 16 with
    wg := g, core := queuedCore c l, w := queuingWarp c { l.advance l.w.batch 16 with wg := g } }
  have hdone : cpyDone l g c = d := by
    unfold cpyDone
    rw [heldCmd_eq]
    have hsame : (c.draft l).numbered { l.advance l.w.batch 16 with wg := g } = c := hnum
    rw [hsame]
    rfl
  subst hm
  rw [hdone]
  exact ⟨putLane_onlyCore (m := d.endChain.settle l.w.batch) hl rfl hws hgc, queuedWarp_of hpc (endChain_settle_warp d l.w.batch),
    moved_of_advanced 16 rfl hne⟩

/-! ## Box copies (R265 to R270, R275) -/

theorem exec_boxForm {i : Instr} {b : BoxIns} (hi : boxForm i = some b) (s : State) : exec i s = b.exec s := by
  unfold boxForm at hi
  split at hi <;> cases hi <;> rfl

theorem boxCmd_queuedAs (i : BoxIns) (s : State) (l : Lane) : (boxCmd i s l).queuedAs l := ⟨rfl, rfl⟩

theorem countedGroup_warps (i : BoxIns) (l : Lane) : (countedGroup i l).warps = l.wg.warps := by
  unfold countedGroup; split <;> rfl

theorem countedGroup_core (i : BoxIns) (l : Lane) : (countedGroup i l).core = l.wg.core := by
  unfold countedGroup; split <;> rfl

/-- The workgroup at a kiln position depends on the lane's own place and workgroup alone. -/
theorem peer_congr {s : State} {l m : Lane} (hr : m.ref = l.ref) (hg : m.wg = l.wg) (p : Nat) : Ctx.peer ⟨s, m⟩ p = Ctx.peer ⟨s, l⟩ p := by
  unfold Ctx.peer; simp only [hr, hg]

/-- Without `.st`, each receiver that is there starts with no sector (R267, R270). -/
theorem receivers_boxTo (i : BoxIns) (s : State) (l m : Lane) (hr : m.ref = l.ref) (hg : m.wg = l.wg) (hop : i.op ≠ .st) :
    ((Ctx.receivers ⟨s, m⟩ i.op (cxPm i.e)).filterMap id).map (fun g => (g, 0)) = boxTo i s l := by
  unfold Ctx.receivers boxTo
  cases hi : i.op with
  | st => exact absurd hi hop
  | peer => simp [peer_congr hr hg, List.filterMap_map, List.map_filterMap]
  | _ => simp [hr]

/-- The receivers of a `cpypeer` are all there when each position that it names has a workgroup (R270). -/
theorem receivers_peer_any {s : State} {l m : Lane} {pm : Nat} (hr : m.ref = l.ref) (hg : m.wg = l.wg)
    (h : ∀ p < 4, pm.testBit p = true → (Ctx.peer ⟨s, l⟩ p).isSome) : (Ctx.receivers ⟨s, m⟩ .peer pm).any Option.isNone = false := by
  refine List.any_eq_false.mpr (fun o ho => ?_)
  obtain ⟨p, hp, rfl⟩ := List.mem_map.mp (show o ∈ ((List.range 4).filter _).map _ from ho)
  obtain ⟨hlt, hbit⟩ := List.mem_filter.mp hp
  rw [peer_congr hr hg]
  simpa using Option.isSome_iff_ne_none.mp (h p (List.mem_range.mp hlt) hbit)

/-- A box copy that is ready passes the checks of issue and queues its command. -/
theorem boxIssue_queues {i : BoxIns} {s : State} {l : Lane} (hr : boxReady i s l) (hact : active l i.h ≠ []) :
    i.issue l.w.pc (active l i.h) ⟨s, l.advance l.w.batch 16⟩ = ⟨s, cpyDone l (countedGroup i l) (boxCmd i s l)⟩ := by
  obtain ⟨-, hpeer, hgrp, hrun⟩ := hr
  have hguard := guardCraze_advance l i.h 16
  have hto := receivers_boxTo i s l (l.advance l.w.batch 16) rfl rfl
  obtain ⟨t, ts, hts⟩ := List.exists_cons_of_ne_nil hact
  have hhead : (active l i.h).headD 0 = t := by rw [hts]; rfl
  rw [hts] at hguard ⊢
  unfold BoxIns.issue
  simp only [matRead_advance, hguard]
  refine (if_neg ?_).trans ((if_neg ?_).trans ((if_neg ?_).trans ?_))
  · rintro ⟨hop, hbad⟩
    obtain ⟨hkg, hthere⟩ := hpeer hop
    rw [hop, receivers_peer_any (m := l.advance l.w.batch 16) rfl rfl hthere] at hbad
    exact hbad.elim hkg Bool.false_ne_true
  · rintro ⟨hop, hbad⟩
    exact Option.isSome_iff_ne_none.mp (hgrp hop) (Option.isNone_iff_eq_none.mp hbad)
  · unfold boxCmd at hrun
    rw [hhead] at hrun
    exact Bool.eq_false_iff.mp hrun
  · unfold cpyDone boxCmd countedGroup
    rw [hhead]
    obtain ⟨h, op, fe, mf, nobar, a, b, c, e⟩ := i
    cases op with
    | st => rfl
    | grp => rfl
    | _ => rw [← hto nofun]; rfl

/-! ## Linear copies (R272) -/

theorem exec_cpylin (h : Hdr) (fe nobar : Bool) (a b c : Src) (e : Ext) (s : State) :
    exec (.cpylin h fe nobar a b c e) s = execCpylin h fe nobar a b c e s := rfl

theorem linCmd_queuedAs (h : Hdr) (fe nobar : Bool) (e : Ext) (x y n : DWord × Option Word) (l : Lane) :
    (linCmd h fe nobar e x y n l).queuedAs l := ⟨rfl, rfl⟩

/-- A box copy that is ready, with a place free in the queue. -/
theorem boxForm_queues {i : Instr} {s : State} {l : Lane} {b : BoxIns} (hl : s.lane? = some l) (hi : boxForm i = some b)
    (hrole : l.w.role = .copy) (hr : boxReady b s l) (hact : active l b.h ≠ []) (hq : l.core.cpq.length < 32) :
    exec i s = .next (s.putLane ((cpyDone l (countedGroup b l) (boxCmd b s l)).endChain.settle l.w.batch)) := by
  obtain ⟨hbad, -⟩ := id hr
  rw [exec_boxForm hi]
  refine execC_done (c := ⟨s, cpyDone ..⟩) hl (nothing_ready l.w) (fun _ => ?_) ?_ (boxIssue_queues hr hact)
  · exact copyFault_none (bad := fun _ => b.bad) hrole hbad
  · simp [Nat.not_le.mpr hq]

/-- A linear copy of the permitted kinds, whose clean operands are in range, with a place free in the queue (R272). -/
theorem cpylin_queues {s : State} {l : Lane} {h : Hdr} {fe nobar : Bool} {a b c : Src} {e : Ext} (hl : s.lane? = some l)
    (hrole : l.w.role = .copy) (hab : [a, b].all (matSrcOk 2) = true) (hc : matSrcOk 1 c = true) (hz : e.extractLsb' 55 3 = 0)
    (hz' : e.extractLsb' 0 37 = 0) (hk : linKinds (sgKind (l.w.seg (cxSeg e))) (sgKind (l.w.seg (cxDseg e))) = true)
    (hact : active l h ≠ []) (hq : l.core.cpq.length < 32) {x y n : DWord × Option Word} (hx : warpRead l .i64 0 a = x)
    (hy : warpRead l .i64 0 b = y) (hn : warpRead l .i32 0 c = n)
    (hrange : crazeOf [x.2, y.2, n.2, guardsOf l h] = none →
      x.1.toNat % 32 = 0 ∧ y.1.toNat % 32 = 0 ∧ n.1.toNat % 32 = 0 ∧ n.1.toNat ≠ 0 ∧ n.1.toNat ≤ 2 ^ 20) :
    exec (.cpylin h fe nobar a b c e) s =
      .next (s.putLane ((cpyDone l l.wg (linCmd h fe nobar e x y n l)).endChain.settle l.w.batch)) := by
  rw [exec_cpylin]
  refine execC_done (c := ⟨s, cpyDone ..⟩) hl (nothing_ready l.w) (fun _ => ?_) ?_ ?_
  · exact copyFault_none (bad := fun l => !([a, b].all (matSrcOk 2)) || !matSrcOk 1 c || e.extractLsb' 55 3 != 0 ||
      e.extractLsb' 0 37 != 0 || !linKinds (sgKind (l.w.seg (cxSeg e))) (sgKind (l.w.seg (cxDseg e)))) hrole (by simp [hab, hc, hz, hz', hk])
  · simp [Nat.not_le.mpr hq]
  have hguard := guardCraze_advance l h 16
  obtain ⟨t, ts, hts⟩ := List.exists_cons_of_ne_nil hact
  have hhead : (active l h).headD 0 = t := by rw [hts]; rfl
  rw [hts] at hguard ⊢
  simp only [matRead_advance, hguard, hx, hy, hn]
  refine (if_neg ?_).trans ((if_neg ?_).trans ?_)
  · rintro ⟨hclean, hmis⟩
    obtain ⟨hxa, hya, hna, -, -⟩ := hrange (Option.isNone_iff_eq_none.mp hclean)
    simp [hxa, hya, hna] at hmis
  · rintro ⟨hclean, hbad⟩
    obtain ⟨-, -, -, h0, hmax⟩ := hrange (Option.isNone_iff_eq_none.mp hclean)
    exact hbad.elim h0 (Nat.not_lt.mpr hmax)
  · unfold cpyDone linCmd
    rw [hhead]
    rfl

/-- Settles O38: a copy command that passes the checks of issue stands at the end of its core's queue, and the batch moves on. -/
theorem copyQueued : Obligations.CopyQueued := by
  refine ⟨fun i s l b hl hi hrole hr hact hq => ?_, fun s l h fe nobar a b c e hl hrole hab hc hz hz' hk hact hq hrange => ?_⟩
  · exact ⟨_, _, boxForm_queues hl hi hrole hr hact hq,
      cpyDone_queued hl (countedGroup_warps b l) (countedGroup_core b l) (boxCmd_queuedAs b s l) rfl⟩
  · exact ⟨_, _, cpylin_queues hl hrole hab hc hz hz' hk hact hq rfl rfl rfl hrange,
      cpyDone_queued hl rfl rfl (linCmd_queuedAs ..) rfl⟩

end Sys2Proof.Machine

namespace Sys2Proof.Machine

open Sys2Proof.Claims

/-! ## Events of the copy engine and of its shelf (R254, R258, R264, R269, R274 to R277) -/

section
variable {s : State} {core cmd : Nat} {k : CpyCmd} {l : Lane} (hk : cmdAt s core cmd k l)
include hk

/-- The lane of a command's events is that of the warp that issued it. -/
theorem cmdAt_wg : l.ref.wg = k.wg := by rw [laneOf_ref hk.2]

/-- A sound box copy into scratchpads that sends no request runs from its start on (R254, R435). -/
theorem exec_copyCommandStart_runs {d : Ctx} {k' : CpyCmd} (hm : Ctx.mayStart ⟨s, l⟩ k = true)
    (hs : Ctx.startCmd ⟨s, l⟩ k = (d, .go k')) (hh : k'.held = false) (hg : k'.op ≠ .grp) (hlin : k'.op ≠ .lin) :
    exec (.copyCommandStart core cmd) s = .next (d.s.putLane (ended (d.l.setCmd { k' with stage := .running }).endReads)) := by
  refine onCmd_is hk ?_
  simp [hm, hs, Ctx.startWith, hh, Ctx.beginFill, hg, hlin, Ctx.onL]

/-- A running command writes and counts the next sector of the first receiver that may take it (R258, R264). -/
theorem exec_copySectorWrite_writes (hh : k.held = false) (hw : k.waiting = false) (hf : s.frozenCmd k = false) (hr : k.stage = .running)
    {r : Nat × Nat} (hn : Ctx.nextRecv ⟨s, l⟩ k = some r) : exec (.copySectorWrite core cmd) s =
      .next ((Ctx.writeSector ⟨s, l⟩ k r).s.putLane (ended (Ctx.writeSector ⟨s, l⟩ k r).l.endReads)) := by
  refine onCmd_is hk ?_
  simp [hh, hw, hf, hr, hn]

/-- A running command none of whose receivers may take its next sector waits for a granule (R264). -/
theorem exec_copySectorWrite_waits (hh : k.held = false) (hw : k.waiting = false) (hf : s.frozenCmd k = false) (hr : k.stage = .running)
    (hn : Ctx.nextRecv ⟨s, l⟩ k = none) (hopen : ∃ r ∈ k.recv, r.2 < k.total) :
    exec (.copySectorWrite core cmd) s = .next (s.putLane (ended (l.setCmd { k with waiting := true }).endReads)) := by
  have hleft : k.recv.all (fun r => decide (k.total ≤ r.2)) = false := by
    obtain ⟨r, hmem, hlt⟩ := hopen
    exact List.all_eq_false.mpr ⟨r, hmem, by simpa using hlt⟩
  refine onCmd_is hk ?_
  simp [hh, hw, hf, hr, hn, hleft, Ctx.onL]

/-- A command that waits goes on when a receiver may take its next sector (R264). -/
theorem exec_copyGranuleWaitEnd_goes (hw : k.waiting = true) (hn : (Ctx.nextRecv ⟨s, l⟩ k).isSome) :
    exec (.copyGranuleWaitEnd core cmd) s = .next (s.putLane (ended (l.setCmd { k with waiting := false }).endReads)) := by
  refine onCmd_is hk ?_
  simp [hw, hn, Ctx.onL]

/-- The next line of a held command outside the open region lands as an item of its implicit region (R269, R272). -/
theorem exec_cpystLineLand_lands {va : Nat} {cells : List NCell} {rest : List (Nat × List NCell)} {s' : State} {dpa : Nat}
    {gen : BitVec 16} {key : BitVec 8} {rmt : Bool} (hh : k.held = true) (hr : k.stage = .running) (hf : s.frozenCmd k = false)
    (hlines : k.lines = (va, cells) :: rest) (ht : s.translate (some l.wg.core) l.wg.vf va .store true = (s', .ok dpa gen key rmt))
    (hreg : ∀ r, l.w.region = some r → r.tag ≠ k.tag) :
    exec (.cpystLineLand core cmd) s = .next (s'.putLane (ended
      ({ l.setCmd { k with lines := rest, landed := k.landed + 1 } with
        w := { l.w with items := l.w.items ++ [landedItem s' l k va cells dpa gen key rmt], nextId := l.w.nextId + 1 } } : Lane).endReads)) := by
  refine onCmd_is hk ?_
  have hnone : ∀ (m : Lane) (i : Item), m.w.region = l.w.region → i.tag = k.tag → m.explicit i = none := by
    intro m i hm hi
    unfold Lane.explicit
    cases hx : l.w.region with
    | none => rw [hm, hx]
    | some r => rw [hm, hx, hi]; exact if_neg (hreg r hx)
  simp only [hh, hr, hf, Bool.not_false, Bool.and_true, beq_self_eq_true, if_true, Ctx.landLine, hlines, ht, Ctx.onL]
  rw [hnone]
  all_goals rfl

/-- A command without a follow-on whose last byte is written leaves the queue (R254). -/
theorem exec_copyCommandComplete_leaves (hr : k.stage = .running) (hh : k.held = false) (hm : k.mf = false)
    (hall : ∀ r ∈ k.recv, k.total ≤ r.2) (hs : s.shelf = []) :
    exec (.copyCommandComplete core cmd) s = .next (s.putLane (ended (l.dropCmd cmd).endReads)) := by
  have hsame : { s with shelf := [] } = s := by rw [← hs]
  have hdone : k.recv.all (fun r => decide (k.total ≤ r.2)) = true := List.all_eq_true.mpr (fun r hmem => decide_eq_true (hall r hmem))
  refine onCmd_is hk ?_
  simp [hr, hh, hm, hdone, Ctx.releaseRoom, hs, hsame, Ctx.onL]

section
variable {slice : Nat} (ha : k.anchor = some slice) (hst : k.stage = .shelf)
include ha hst

/-- A request joins the entry that waits for its box (R276). -/
theorem exec_shelfRequest_joins {x : ShelfEnt}
    (hx : (s.grpCount l.wg.part (cxGid k.e) k.wg k.k).shelf.find? (sameBox l k slice) = some x) (hd : x.stage ≠ .delivering) :
    let s1 := s.grpCount l.wg.part (cxGid k.e) k.wg k.k
    exec (.shelfRequest core cmd) s = .next ({ s1 with shelf := s1.shelf.filterMap (fun z : ShelfEnt => if z.id = x.id then
      ShelfEnt.settle { x with recv := x.recv ++ [(core, cmd)], awaited := x.awaited.filter (· != k.wg) } else some z) }.putLane
        (ended (l.setCmd { k with anchor := none }).endReads)) := by
  refine onCmd_is hk ?_
  unfold sameBox at hx
  simp [ha, hst, cmdAt_wg hk, hx, hd, Ctx.onL]

/-- A request that finds no entry for its box and a full slice is served alone (R276). -/
theorem exec_shelfRequest_alone
    (hx : (s.grpCount l.wg.part (cxGid k.e) k.wg k.k).shelf.find? (sameBox l k slice) = none)
    (hfull : 64 ≤ ((s.grpCount l.wg.part (cxGid k.e) k.wg k.k).shelf.filter (fun x => x.slice == slice)).length) :
    exec (.shelfRequest core cmd) s = .next ((s.grpCount l.wg.part (cxGid k.e) k.wg k.k).putLane
      (ended (l.setCmd { k with stage := .running, anchor := none }).endReads)) := by
  refine onCmd_is hk ?_
  unfold sameBox at hx
  simp only [ha, hst, cmdAt_wg hk, hx, hfull, if_true, Ctx.onL, CpyCmd.alone]

end

end

/-- Settles O48: each clause is one event of a command, of the shelf or of a group, as its lemma above says. -/
theorem copyEvents : Obligations.CopyEvents :=
  ⟨fun _ _ _ _ _ hk =>
    ⟨fun _ _ hm hs hh hg hlin => exec_copyCommandStart_runs hk hm hs hh hg hlin,
      fun hh hw hf hr =>
        ⟨fun _ hn => exec_copySectorWrite_writes hk hh hw hf hr hn, fun hn ho => exec_copySectorWrite_waits hk hh hw hf hr hn ho⟩,
      fun hw hn => exec_copyGranuleWaitEnd_goes hk hw hn,
      fun _ _ _ _ _ _ _ _ hh hr hf hlines ht _ hreg => exec_cpystLineLand_lands hk hh hr hf hlines ht hreg,
      fun hr hh hm hall hs => exec_copyCommandComplete_leaves hk hr hh hm hall hs,
      fun _ ha hst =>
        ⟨fun _ hx hd => exec_shelfRequest_joins hk ha hst hx hd, fun hx hfull => exec_shelfRequest_alone hk ha hst hx hfull⟩⟩,
    fun _ _ => rfl,
    fun _ _ _ hl => onWarp_is hl rfl⟩

end Sys2Proof.Machine

namespace Sys2Proof.Machine

open Sys2Proof.Claims

/-! ## Events of a collective (R281 to R283, R442, R444) -/

section
variable {s : State}

/-- A contribution that agrees joins those of its collective (R281, R444). -/
theorem exec_collContribution_joins {r : WRef} {t : Nat} {g : Wg} {w : Warp} {x : CollOut} {m : Comm} {k : Nat} {s1 s2 : State}
    {i : CollInst} {p : CollPart} (hw : s.warp? r = some (g, w)) (hx : w.colls.find? (fun x => x.ticket.toNat == t && !x.sent) = some x)
    (himp : ∀ j ∈ w.implicit, x.po ≤ j.po) (hm : s.comm g.part (clCid x.e) = some m) (hjob : m.job = s.jobOf g.dcb)
    (hk : m.rank g.info.index = some k) (hi : s.instFor g.part (clCid x.e) k m = (s1, i)) (hp : s1.readPart r x m.np k = (s2, some p))
    (ha : i.abandoned = false) (hd : CollInst.disagrees { i with parts := i.parts ++ [p] } = false)
    (hroot : clOp x.e = 3 → clRoot x.e < m.np) :
    exec (.collContribution r t) s = .next (s2.setInst { i with parts := i.parts ++ [p] }) := by
  have hnone : w.implicit.any (fun j => decide (j.po < x.po)) = false :=
    List.any_eq_false.mpr (fun j hj => by simpa using himp j hj)
  have hok : (clOp x.e == 3 && decide (m.np ≤ clRoot x.e)) = false := by
    simpa using fun h => hroot h
  simp only [ha] at hd
  show execCollContribution r t s = _
  simp [execCollContribution, hw, hx, hnone, hm, hjob, hk, hi, hp, ha, hd, hok]

/-- With every contribution there, the results are written and the collective is over (R281, R282). -/
theorem exec_collComplete_delivers {n : Nat} {x : CollInst} {s1 : State}
    (hx : s.colls.find? (fun x => x.id == n && !x.abandoned) = some x) (hd : x.doomed = false) (hall : allHere x)
    (hs : deliverAll { s with freeCtr := s.freeCtr + x.np * 2 ^ 45 } (x.results s.freeCtr) x.parts = some s1) :
    exec (.collComplete n) s = .next { s1 with colls := s1.colls.filter (fun y => y.id != n) } := by
  have hhere : x.locals.all (fun r => x.parts.any (fun p => p.rank == r.1)) = true := by
    simpa [allHere] using hall
  unfold deliverAll at hs
  show execCollComplete n s = _
  simp only [execCollComplete, hx, hd, hhere, hs, Bool.false_eq_true, Bool.not_true, if_false]

/-- At its limit a collective whose rank 0 is here and that lacks a contribution is abandoned (R442). -/
theorem exec_collTimeout_abandons {n : Nat} {x : CollInst} (hx : s.colls.find? (fun x => x.id == n && !x.abandoned) = some x)
    (hhere : ∃ r ∈ x.locals, r.1 = 0) (hpart : x.locals.length ≠ x.np ∨ ¬ allHere x) (hl : x.limit ≠ 0)
    (ht : x.since + x.limit ≤ s.clock) : exec (.collTimeout n) s = .next (s.abandon x) := by
  have hsome : x.locals.any (fun r => r.1 == 0) = true := by simpa using hhere
  have hlack : (decide (x.locals.length = x.np) && x.locals.all (fun r => x.parts.any (fun p => p.rank == r.1))) = false := by
    rcases hpart with hlen | hmiss
    · simp [hlen]
    · have hnot : x.locals.all (fun r => x.parts.any (fun p => p.rank == r.1)) = false := by
        simpa [allHere] using hmiss
      simp [hnot]
  show execCollTimeout n s = _
  simp only [execCollTimeout, hx, hsome, hlack]
  simp [hl, ht]

/-- A thread whose ticket is complete without a fault goes on past its `collwait` (R283). -/
theorem exec_collwaitWake_goes {r : WRef} {l : Lane} {k : Nat} {t : Word} (hl : s.laneOf r = some l) (hf : l.wg.frozen = false)
    (hst : (l.w.th k).st = .parkedEvent (.collwait t)) (hd : Ctx.collDone ⟨s, l⟩ t = true) (hn : Ctx.collFault ⟨s, l⟩ t = none) :
    exec (.collwaitWake r k) s = .next (s.putLane (ended (l.moveTo [k] ((l.w.th k).pc + 8)))) := by
  refine onWake_is hl hf ?_
  simp [hst, hd, Ctx.collEnd, hn, Ctx.onL]

end

/-- Settles O49: each clause is one event of a collective, as its lemma above says. -/
theorem collectiveEvents : Obligations.CollectiveEvents :=
  ⟨fun _ _ _ _ _ _ _ _ _ _ _ _ hw hx himp hm hjob hk hi hp ha hd hroot =>
      exec_collContribution_joins hw hx himp hm hjob hk hi hp ha hd hroot,
    fun _ _ _ _ hx hd hall hs => exec_collComplete_delivers hx hd hall hs,
    fun _ _ _ hx hhere hpart hl ht => exec_collTimeout_abandons hx hhere hpart hl ht,
    fun _ _ _ _ _ hl hf _ hst hd hn => exec_collwaitWake_goes hl hf hst hd hn⟩

end Sys2Proof.Machine

namespace Sys2Proof.Machine

/-! ## Translations that a TLB entry serves (R287, R291, R353) -/

/-- An entry that the TLBs of a core take changes no register. -/
@[simp] theorem rd_tlbFill (s : State) (core : Option Nat) (t : TlbEntry) (off : Nat) : (s.tlbFill core t).rd off = s.rd off := by
  cases core <;> rfl

@[simp] theorem vfPart_tlbFill (s : State) (core : Option Nat) (t : TlbEntry) (v : BitVec 8) :
    (s.tlbFill core t).vfPart v = s.vfPart v := by simp [State.vfPart]

@[simp] theorem ownsKey_tlbFill (s : State) (core : Option Nat) (t : TlbEntry) (p k : Nat) :
    (s.tlbFill core t).ownsKey p k = s.ownsKey p k := by simp [State.ownsKey]

section
variable {s : State} {v : BitVec 8} {va : Nat} {need : Need}

/-- A leaf that permits the access, under a key that the partition owns, gives the address in its page. -/
theorem leafCheck_permits {e size : Nat} (gen : BitVec 16) (hp : e.testBit need.bit = true)
    (hkey : field e 56 8 = 0 ∨ s.ownsKey (s.vfPart v) (field e 56 8) = true)
    (hatom : need = .atomic → e.testBit 8 = false ∧ windowOf (entryPa e + va % size) ≠ 1)
    (hred : need = .red → windowOf (entryPa e + va % size) ≠ 1) :
    s.leafCheck v va need e size gen =
      (s, .ok (entryPa e + va % size) gen (BitVec.ofNat 8 (field e 56 8)) (e.testBit 8)) := by
  have howned : (field e 56 8 != 0 && !s.ownsKey (s.vfPart v) (field e 56 8)) = false := by
    rcases hkey with hzero | hown
    · simp [hzero]
    · simp [hown]
  have hnoAtomic : ¬(need = .atomic && (e.testBit 8 || windowOf (entryPa e + va % size) == 1)) = true := by
    simpa using hatom
  have hnoRed : ¬(need = .red && windowOf (entryPa e + va % size) == 1) = true := by simpa using hred
  simp only [State.leafCheck, hp, howned, hnoAtomic, hnoRed, Bool.not_true, Bool.false_eq_true, if_false]

/-- An entry that serves is checked as a leaf is, and both TLBs take it. -/
theorem translate_served {core : Option Nat} {t : TlbEntry} (hroot : (s.rd (Reg.vfroot v.toNat)).getLsbD 0 = true)
    (ht : s.tlbFind core v va = some t) :
    s.translate core v va need true = (s.tlbFill core t).leafCheck v va need t.leaf.toNat t.size t.gen := by
  simp only [State.translate, hroot, ht, Bool.not_true, Bool.false_eq_true, if_false, if_true]

end

/-- Settles O41: the entry that serves stands for the leaf, and the leaf permits the access. -/
theorem tlbHit : Obligations.TlbHit := by
  intro s core v va need t hroot ht hp hkey hatom hred
  rw [translate_served hroot ht]
  exact leafCheck_permits t.gen hp (by simpa using hkey) hatom hred

end Sys2Proof.Machine

namespace Sys2Proof.Machine

open Sys2Proof.Claims

/-! ## Held data lands, is released, settles (R300 to R302, R424) -/

section
variable {s : State} {r : WRef} {l : Lane}

/-- An item that nothing keeps back arrives without a fault. -/
theorem pushVerdict_clean {i : Item} (h : mayPush s l i) : Ctx.pushVerdict ⟨s, l⟩ i = (⟨s, l⟩, 0) := by
  obtain ⟨hlead, -, -, -, hmem⟩ := h
  unfold Ctx.pushVerdict
  by_cases hhost : hostBase ≤ i.dpa
  · exact if_pos hhost
  · obtain ⟨hcol, hquar, hrace⟩ := hmem (by omega)
    simp only [hhost, hcol, hquar, hlead, hrace, Bool.not_true, Bool.false_eq_true, if_false]

/-- Without a fault the item that arrives is held. -/
theorem land_held (c : Ctx) (i : Item) : c.land i 0 = c.onL (fun l => itemNow l { i with stage := .held }) := by
  simp [Ctx.land, Lane.setItem, itemNow]

/-- An item that nothing keeps back is held at its home slice. -/
theorem pushItem_held {st : ItemStage} {id : Nat} {i : Item} (v : Nat) (h : mayPush s l i) (hi : itemAt l id st i) :
    pushItem st id v ⟨s, l⟩ = ⟨s, itemNow l { i with stage := .held }⟩ := by
  have hv := pushVerdict_clean h
  obtain ⟨hlead, hrmt, hroom, hrel, -⟩ := h
  unfold itemAt at hi
  simp only [pushItem, hi, hlead, hrmt, hroom, hrel, hv, land_held, Ctx.onL, Option.isSome_none, Bool.not_true, Bool.false_eq_true, ne_eq,
    not_true_eq_false, false_and, if_false]

theorem exec_heldPush_held (hl : s.laneOf r = some l) {id : Nat} {i : Item} (v : Byte) (h : mayPush s l i) (hi : itemAt l id .sagger i) :
    exec (.heldPush r id v) s = .next (s.putLane (ended (itemNow l { i with stage := .held }))) :=
  onWarp_is hl (pushItem_held _ h hi)

theorem exec_saggerDeferredPush_held (hl : s.laneOf r = some l) {id : Nat} {i : Item} (h : mayPush s l i) (hi : itemAt l id .deferred i) :
    exec (.saggerDeferredPush r id) s = .next (s.putLane (ended (itemNow l { i with stage := .held }))) :=
  onWarp_is hl (pushItem_held _ h hi)

/-- The items of `tag` that a release to `slice` takes along. -/
def Warp.leaving (w : Warp) (tag slice : Nat) : List Item :=
  w.items.filter (fun i => i.tag == tag && i.sent && i.stage == .held && i.slice == slice)

/-- A release that may be sent and meets no line that is releasing for another takes effect at its slice. -/
theorem exec_heldRelease_applies (hl : s.laneOf r = some l) {tag slice : Nat} (hne : l.w.leaving tag slice ≠ [])
    (hrmt : ∀ i ∈ l.w.leaving tag slice, i.rmt = false) (hmay : l.w.mayRelease tag = true)
    (hfree : s.releasing.any (fun x => ((l.w.leaving tag slice).flatMap Item.lines).eraseDups.contains x.line && !x.isOf r tag) = false) :
    let lines := ((l.w.leaving tag slice).flatMap Item.lines).eraseDups
    let u := s.applyItems (l.w.leaving tag slice)
    exec (.heldRelease r tag slice) s =
      .next ({ u with releasing := u.releasing ++ lines.map (fun x => (⟨x, r.wg, r.warp, tag, none⟩ : RelLine)) }.putLane
        (ended { l with w := { l.w with items := l.w.items.map (fun i : Item =>
          if i.tag = tag ∧ i.sent ∧ i.stage = ItemStage.held ∧ i.slice = slice then { i with stage := .released } else i) } })) := by
  have hnone : (l.w.leaving tag slice).isEmpty = false := by simpa using hne
  have hnoWait : (l.w.leaving tag slice).any (fun i => i.rmt && s.wayTo i.dpa == .waits) = false :=
    List.any_eq_false.mpr (fun i hi => by simp [hrmt i hi])
  have hnoLoss : (l.w.leaving tag slice).filter (fun i => i.rmt && s.wayTo i.dpa == .dead) = [] :=
    List.filter_eq_nil_iff.mpr (fun i hi => by simp [hrmt i hi])
  unfold Warp.leaving at *
  refine onWarp_is hl ?_
  simp only [hnone, hmay, hfree, hnoWait, hnoLoss, Bool.not_true, Bool.or_self, Bool.false_eq_true, if_false, List.foldl_nil, Ctx.onL]

/-- The settle of a commit none of whose items is under way ends the releasing state of its lines in the slice. -/
theorem exec_heldSettle_ends {tag : Nat} (slice : Nat)
    (h : ∀ g w, s.warp? r = some (g, w) → w.items.any (fun i => i.tag == tag && i.sent) = false) :
    exec (.heldSettle r tag slice) s = .next { s with releasing := s.releasing.filter (fun x =>
      !(x.isOf r tag && homeOf (128 * x.line) == slice)) } := by
  show execHeldSettle r tag slice s = _
  unfold execHeldSettle
  cases hw : s.warp? r with
  | none => rfl
  | some p =>
    obtain ⟨g, w⟩ := p
    simp only [h g w hw, Bool.false_eq_true, if_false]

end

/-- Settles O43: each clause is one event of held data, as its lemma above says. -/
theorem heldDataEvents : Obligations.HeldDataEvents :=
  ⟨fun _ _ _ _ _ hl h => ⟨fun v hi => exec_heldPush_held hl v h hi, fun hi => exec_saggerDeferredPush_held hl h hi⟩,
    fun _ _ _ _ _ hl hne hrmt hmay hfree => exec_heldRelease_applies hl hne hrmt hmay hfree,
    fun _ _ _ slice h => exec_heldSettle_ends slice h⟩

end Sys2Proof.Machine

namespace Sys2Proof.Machine

open Sys2Proof.Claims

/-! ## The signature compare buffer (R478 to R481) -/

section
variable {s : State}

section
variable {r : WRef} {g h : Wg} {w : Warp} {mate ln tn die : Nat} {lead : Bool} {q : Sig} {s1 : State} {v : DWord}
  (hln : ln = if lead then r.wg else mate) (htn : tn = if lead then mate else r.wg) (hdie : die = (if lead then g.core else h.core) / 32)
  (hw : s.warp? r = some (g, w)) (hp : g.pair = some (mate, lead)) (hq : w.unsent = some q) (hm : s.wg? mate = some h)
  (hi : s.inject die lead q = (s1, v))
include hln htn hdie hw hp hq hm hi

/-- What the buffer does with the oldest signature of a warp (R478). -/
theorem exec_scbSignature :
    exec (.scbSignature r) s = .next (
      if s.scb.any (awaitsSig ln tn r.warp lead q) then
        ({ s1 with scb := changeFirst (awaitsSig ln tn r.warp lead q) (signedBy lead v) s1.scb } : State).atWarp r
          (fun c => c.onL (fun l => l.sigTaken q))
      else if 256 ≤ (s.scb.filter (fun e => e.die == die)).length then s
      else ({ s1 with
        scb := s1.scb ++ [signedBy lead v ⟨s1.nextScb, die, ln, tn, r.warp, q.imp, q.num, none, none⟩]
        nextScb := s1.nextScb + 1 } : State).atWarp r (fun c => c.onL (fun l => l.sigTaken q))) := by
  subst hln htn hdie
  show execScbSignature r s = _
  simp only [execScbSignature, hw, hp, hq, hm, hi]
  rfl

/-- A signature that an entry waits for joins it. -/
theorem exec_scbSignature_joins (hfit : s.scb.any (awaitsSig ln tn r.warp lead q) = true) :
    exec (.scbSignature r) s = .next ({ s1 with scb := changeFirst (awaitsSig ln tn r.warp lead q) (signedBy lead v) s1.scb }.atWarp r
      (fun c => c.onL (fun l => l.sigTaken q))) := by
  rw [exec_scbSignature hln htn hdie hw hp hq hm hi, if_pos hfit]

/-- A signature that no entry waits for makes one, when one is free. -/
theorem exec_scbSignature_enters (hnew : s.scb.any (awaitsSig ln tn r.warp lead q) = false)
    (hroom : (s.scb.filter (fun e => e.die == die)).length < 256) :
    exec (.scbSignature r) s = .next ({ s1 with
      scb := s1.scb ++ [signedBy lead v ⟨s1.nextScb, die, ln, tn, r.warp, q.imp, q.num, none, none⟩], nextScb := s1.nextScb + 1 }.atWarp r
      (fun c => c.onL (fun l => l.sigTaken q))) := by
  rw [exec_scbSignature hln htn hdie hw hp hq hm hi, if_neg (by simp [hnew]), if_neg (Nat.not_le.mpr hroom)]

end

/-- The entry that may be compared is the one found, and nothing of its warp is older: the comparison decides. -/
theorem exec_scbCompare {e : ScbEnt} (h : mayCompare s e) :
    exec (.scbCompare e.die e.id) s = .next (if e.agrees then s.scbAgree e
      else ({ s with scb := s.scb.filter (fun x => x.id != e.id) } : State).mismatch e.lead e.trail (markTrailer e)) := by
  obtain ⟨hfind, hlsig, htsig, hold⟩ := h
  have houtstanding : (e.lsig.isNone || e.tsig.isNone || s.scb.any (fun x => x.lead == e.lead && x.trail == e.trail && x.warp == e.warp &&
      decide (x.id < e.id))) = false := by
    have holdest : s.scb.any (fun x => x.lead == e.lead && x.trail == e.trail && x.warp == e.warp && decide (x.id < e.id)) = false :=
      List.any_eq_false.mpr (fun x hx => by simpa using hold x hx)
    rw [holdest, Option.isNone_eq_false_iff.mpr hlsig, Option.isNone_eq_false_iff.mpr htsig]
    rfl
  show execScbCompare e.die e.id s = _
  simp only [execScbCompare, hfind, houtstanding, Bool.false_eq_true, if_false]
  rfl

theorem agrees_iff_of_mayCompare {e : ScbEnt} (h : mayCompare s e) : e.agrees = true ↔ e.lsig = e.tsig := by
  obtain ⟨-, hlsig, -⟩ := h
  simp [ScbEnt.agrees, hlsig]

/-! ## The cone sweep (R468 to R471) -/

section
variable {d : Nat} (hup : s.up = true) (hpass : (s.sweep d).pass = none) (hon : (s.rd (Reg.csx d)).getLsbD 1 = false)
include hup hpass hon

/-- The core at the head of the rotation is taken first. -/
theorem exec_coneSweepSlot_head {c : Nat} (hc : s.sweepHead.find? (fun c => c / 32 == d) = some c) :
    exec (.coneSweepSlot d) s = .next (s.beginPass c) := by
  show execConeSweepSlot d s = _
  simp only [execConeSweepSlot, hup, hpass, hon, hc, Option.isSome_none, Bool.not_true, Bool.or_self, Bool.false_eq_true, if_false]

/-- Without one, the core of the next slot is taken when its time has come. -/
theorem exec_coneSweepSlot_rotation (hnone : s.sweepHead.find? (fun c => c / 32 == d) = none)
    (ht : s.upAt + slotCycles * (s.sweep d).slots ≤ s.clock) (hst : s.sweepSt (32 * d + (s.sweep d).slots % 32) ≠ 3)
    (hlost : 32 * d + (s.sweep d).slots % 32 ∉ s.lost) :
    exec (.coneSweepSlot d) s = .next ((s.setSweep d { s.sweep d with slots := (s.sweep d).slots + 1 }).beginPass
      (32 * d + (s.sweep d).slots % 32)) := by
  show execConeSweepSlot d s = _
  simp only [execConeSweepSlot, hup, hpass, hon, hnone, Nat.not_lt.mpr ht, hst, List.contains_eq_mem, hlost, Option.isSome_none, Bool.not_true,
    Bool.or_self, Bool.false_eq_true, decide_false, or_self, if_false]

end

/-- A drained core is scanned from now on. -/
theorem exec_coneSweepScanStart_drained {d c t : Nat} (hpass : (s.sweep d).pass = some (c, false, t)) (hgone : ∀ e ∈ s.wgs, e.2.core ≠ c) :
    exec (.coneSweepScanStart d) s =
      .next ((s.setSweepSt c 2).setSweep d { s.sweep d with pass := some (c, true, s.clock) }) := by
  have hdrained : s.wgs.any (fun e => e.2.core == c) = false :=
    List.any_eq_false.mpr (fun e he => by simpa using hgone e he)
  show execConeSweepScanStart d s = _
  simp only [execConeSweepScanStart, hpass, hdrained, Bool.false_eq_true, if_false]

section
variable {d c t : Nat} (hpass : (s.sweep d).pass = some (c, true, t)) (ht : t + 720000 ≤ s.clock)
include hpass ht

/-- A failed pattern, a free value (log 45), retires the core. -/
theorem exec_coneSweepScanDone_retires :
    let s1 := s.setSweep d { s.sweep d with pass := none }
    exec (.coneSweepScanDone d true) s =
      .next ({ s1 with freeCtr := s1.freeCtr + 1 }.retireCore c ((Config.freeValue s1.freeCtr).toNat % 64)) := by
  show execConeSweepScanDone d true s = _
  simp only [execConeSweepScanDone, hpass, Nat.not_lt.mpr ht, if_false, if_true]

/-- When every pattern matches, the core has passed; `last` stands in bits [63:24] of its `CSST` (log 109). -/
theorem exec_coneSweepScanDone_passes :
    let s1 := s.setSweep d { s.sweep d with pass := none }
    exec (.coneSweepScanDone d false) s = .next ({ s1 with passAt := Tabs.put s1.passAt c t }.wr (Reg.csst c) (BitVec.ofNat 64
      (t / 65536 % 2 ^ 40 * 2 ^ 24 + min 65535 ((s1.rd (Reg.csst c)).toNat / 2 ^ 8 % 65536 + 1) * 2 ^ 8 +
        (if s1.sweepHead.contains c then 4 else 0)))) := by
  show execConeSweepScanDone d false s = _
  simp only [execConeSweepScanDone, hpass, Nat.not_lt.mpr ht, Bool.false_eq_true, if_false]

end

/-! ## Maintenance pauses (R314) -/

/-- A time that, where there is one, lies `n` cycles back or more does not hold a pause off. -/
theorem any_recent_eq_false {last : Option Nat} {n now : Nat} (h : ∀ t, last = some t → t + n ≤ now) :
    last.any (fun t => decide (now < t + n)) = false := by
  cases last with
  | none => rfl
  | some t => simpa using h t rfl

theorem exec_maintenancePause_starts {c : Nat} (hc : c < 16) (hlast : ∀ t, Tabs.find? s.pauses c = some t → t + 1200000 ≤ s.clock)
    (hmate : ∀ t, Tabs.find? s.pauses (if c % 2 = 0 then c + 1 else c - 1) = some t → t + 12000 ≤ s.clock) :
    exec (.maintenancePause c) s = .next { s with pauses := Tabs.put s.pauses c s.clock } := by
  show execMaintenancePause c s = _
  simp only [execMaintenancePause, any_recent_eq_false hlast, any_recent_eq_false hmate, Nat.not_le.mpr hc, decide_false, Bool.or_self,
    Bool.false_eq_true, if_false]

end

/-- Settles O55: each clause is one event of a pair, of the sweep or of a controller, as its lemma above says. -/
theorem pairAndSweepEvents : Obligations.PairAndSweepEvents :=
  ⟨fun _ _ _ _ _ _ _ _ _ _ hw hp hq hm hi =>
      ⟨exec_scbSignature_joins rfl rfl rfl hw hp hq hm hi, exec_scbSignature_enters rfl rfl rfl hw hp hq hm hi⟩,
    fun _ _ h =>
      ⟨fun heq => by rw [exec_scbCompare h, if_pos ((agrees_iff_of_mayCompare h).mpr heq)],
        fun hne => by rw [exec_scbCompare h, if_neg (mt (agrees_iff_of_mayCompare h).mp hne)]⟩,
    fun _ _ hup hpass hon =>
      ⟨fun _ hc => exec_coneSweepSlot_head hup hpass hon hc,
        fun hnone ht hst hlost => exec_coneSweepSlot_rotation hup hpass hon hnone ht hst hlost⟩,
    fun _ _ _ _ hpass hgone => exec_coneSweepScanStart_drained hpass hgone,
    fun _ _ _ _ hpass ht => ⟨exec_coneSweepScanDone_retires hpass ht, exec_coneSweepScanDone_passes hpass ht⟩,
    fun _ _ hc hlast hmate => exec_maintenancePause_starts hc hlast hmate⟩

end Sys2Proof.Machine

namespace Sys2Proof.Machine

open Sys2Proof.Claims

/-! ## Service records and doorbells (R342, R348, R418, R459) -/

section
variable {s : State}

/-- With room in the ring the waiting record is written, `prod` rises and the virtual function hears of it on vector 0. -/
theorem exec_trapRecordWrite_writes {r : WRef} {l : Lane} {v : SvcWait} (hl : s.laneOf r = some l) (hlead : l.leader = none)
    (hrec : l.w.pendingRec = some v) (hroom : ringRoom s l.wg.vf) :
    let f := l.wg.vf
    let p := s.ringProd f
    let s1 := s.memBytes 0 (s.recordAt f p) (recordOf l v p)
    let s2 := (s1.vwr f Reg.sridx (BitVec.ofNat 64 (s.ringCons f * 2 ^ 32 + (p + 1) % 2 ^ 32))).raise (some f) 0
    exec (.trapRecordWrite r) s = .next (s2.putLane (ended { l with w :=
      if v.isFault then { l.w with svcWait := some { v with seq := some p } } else { l.w with trapWait := some { v with seq := some p } } })) := by
  obtain ⟨hon, hup, hfree⟩ := hroom
  refine onWarp_is hl ?_
  simp only [hrec, hlead, hon, hup, Nat.not_le.mpr hfree, Option.isSome_none, Bool.not_true, Bool.or_self, decide_false, Bool.false_eq_true,
    if_false]
  rfl

section
variable {vf : BitVec 8} {tee : Bool} (data : DWord)

theorem exec_srdbWrite_untrusted (hlive : s.tdiLive vf = true) (ht : tee = false) :
    exec (.srdbWrite vf data tee) s = .next (s.interfaceError vf 2 Reg.srdb) :=
  congrArg Host.Outcome.next (if_pos (by simp [hlive, ht]))

/-- What a doorbell that the interface takes does: nothing in error (R459), and else it rings. -/
theorem exec_srdbWrite_taken (h : s.tdiLive vf = false ∨ tee = true) :
    exec (.srdbWrite vf data tee) s = .next (if s.tdi vf = 3 then s else s.doorbell vf data.toNat) := by
  show execSrdbWrite vf data tee s = _
  simp only [execSrdbWrite, State.srdbWrite, teeRefused_eq_false h, beq_iff_eq, Bool.false_eq_true, if_false]

end

end

/-- Settles O46: a record that finds room, and the three ways in which an interface meets a doorbell. -/
theorem serviceEvents : Obligations.ServiceEvents :=
  ⟨fun _ _ _ _ hl hlead hrec hroom => exec_trapRecordWrite_writes hl hlead hrec hroom,
    fun _ _ data _ =>
      ⟨fun hlive ht => exec_srdbWrite_untrusted data hlive ht,
        fun h hok => by rw [exec_srdbWrite_taken data h, if_neg hok],
        fun h herr => by rw [exec_srdbWrite_taken data h, if_pos herr]⟩⟩

end Sys2Proof.Machine

namespace Sys2Proof.Machine

open Sys2Proof.Claims

/-! ## Binds, placement, completion, compaction (R319 to R325, R340, R405, R452) -/

section
variable {s : State}

/-- The first of the nodes that this die may bind gives its next chunk, where its launch allows the die (R320, R321). -/
theorem exec_bindWrite_binds {d k : Nat} {x y : Node} {s1 : State} (hx : Tabs.find? s.nodes k = some x) (hb : s.bindable d k x = true)
    (hfirst : ∀ e ∈ s.nodes, s.nodeFirst e.2 x = true → s.bindable d e.1 e.2 = false) (hy : begunNode s x = (s1, some y))
    (hdie : y.sword.extractLsb' 0 4 = 0 ∨ (y.sword.extractLsb' 0 4).toNat.testBit d = true) :
    exec (.bindWrite d k) s = .next ((({ s1 with nodes := Tabs.put s1.nodes k { y with given := y.given + chunkOf y } }.enforce x.dcb).addBind d
      (bindOf s1 k x y)).setDcbState x.dcb 1) := by
  have hnone : s.nodes.any (fun e => s.nodeFirst e.2 x && s.bindable d e.1 e.2) = false :=
    List.any_eq_false.mpr (fun e he => by simpa using hfirst e he)
  have hmine : ¬((y.sword.extractLsb' 0 4).toNat ≠ 0 ∧ (!(y.sword.extractLsb' 0 4).toNat.testBit d) = true) := by
    rintro ⟨hne, hbit⟩
    rcases hdie with hzero | htest
    · exact hne (by rw [hzero]; rfl)
    · rw [htest] at hbit; cases hbit
  show execBindWrite d k s = _
  simp only [execBindWrite, hx, hb, hnone, Bool.not_true, Bool.or_self, Bool.false_eq_true, if_false]
  split
  · next hz => cases hy.symm.trans hz
  · next hz =>
    cases hy.symm.trans hz
    exact congrArg Host.Outcome.next (if_neg hmine)

section
variable {d slot core : Nat} {b : Bind} (hb : s.bind? d slot = some b)
include hb

/-- Dispatch places the next workgroup of a bind without saved images and without pairs, where the plan puts it (R322). -/
theorem exec_placeWorkgroup_places {lead : List Spot} {l : Launch} {h : Header} {s2 : State} {pre : Presets} (hnew : b.resume = false)
    (hturn : s.earlierServed d slot b = false) (hplan : s.plan d slot b = some (lead, [], some (l, h)))
    (hcore : lead.head?.map Spot.core = some core) (hpre : s.presets (s.vfOf b.dcb) l h = (s2, some pre)) :
    exec (.placeWorkgroup d slot core) s = .next ((s2.addGroup b.kg ((((nextNew l h b).map Next.info).zip (lead.zip lead)).map
      (fun e => launchWg s2 d slot b l h pre e.1 e.2.1 e.2.2))).setBind d slot (b.afterPlace core lead.length)) := by
  show execPlaceWorkgroup d slot core s = _
  simp only [execPlaceWorkgroup, hb, hnew, hturn, hplan, hcore, hpre, Bool.or_self, Bool.false_eq_true, Option.getD_some, ne_eq,
    not_true_eq_false, List.isEmpty_nil, if_false, if_true]

/-- Dispatch brings the next saved workgroup back, none of whose images is refused, where the plan puts it (R323, R340). -/
theorem exec_resumeWorkgroup_resumes {lead trail : List Spot} (hres : b.resume = true) (hopen : b.open_ = true)
    (hturn : s.earlierServed d slot b = false) (hgood : ∀ a ∈ s.nextAddrs b, s.imageRefused (s.partOf b.dcb) a = false)
    (hplan : s.planResume d slot b = some (lead, trail)) (hcore : lead.head?.map Spot.core = some core) :
    exec (.resumeWorkgroup d slot core) s = .next (s.resumeAt d slot b (s.loaded b) lead trail) := by
  have hnone : (s.nextAddrs b).any (s.imageRefused (s.partOf b.dcb)) = false :=
    List.any_eq_false.mpr (fun a ha => by simp [hgood a ha])
  show execResumeWorkgroup d slot core s = _
  simp only [execResumeWorkgroup, hb, hres, hopen, hturn, hnone, hplan, hcore, Bool.not_true, Bool.or_self, Bool.false_eq_true,
    Option.getD_some, ne_eq, not_true_eq_false, if_false]

/-- A bind that has waited fragmented on a core for its wait has that core compacted (R324). -/
theorem exec_compactionWaitExpiry_evicts {kept : List Kept} {vs : List Nat} (hripe : ripe s (256 * d + slot) b core) (hhold : b.hold = none)
    (hc : s.compactAll (256 * d + slot) (s.partOf b.dcb) (s.jobOf b.dcb) (s.compactFor (256 * d + slot) b core) = some (kept, vs)) :
    exec (.compactionWaitExpiry d slot core) s = .next (s.evict (256 * d + slot) b core kept vs.eraseDups) := by
  unfold ripe at hripe
  show execCompactionWaitExpiry d slot core s = _
  simp only [execCompactionWaitExpiry, hb, hhold, hc, ne_eq, Option.isSome_none, Bool.false_eq_true, or_false]
  exact congrArg Host.Outcome.next (if_neg (not_not.mpr hripe))

/-- A saved kiln group that has found no kiln for its wait has the one freed whose occupants are the youngest (R325, R452). -/
theorem exec_kilnResumeWaitExpiry_evicts {kiln c : Nat} {vs : List Nat} (hres : b.resume = true) (hkg : b.kg ≠ 0) (hopen : b.open_ = true)
    (hhold : b.hold = none) (hwait : b.since + 64 * b.cwait.toNat ≤ s.clock) (hplan : s.planResume d slot b = none)
    (hbest : bestRange ((b.sites d).filterMap (fun c => (s.kilnVictims (256 * d + slot) b c).map (fun r => (c, r.2, r.1)))) = some (c, vs))
    (hkiln : c / 4 = kiln) :
    exec (.kilnResumeWaitExpiry d slot kiln) s = .next (s.evict (256 * d + slot) b c [] vs) := by
  have hgroup : (b.kg == 0) = false := by simpa using hkg
  show execKilnResumeWaitExpiry d slot kiln s = _
  simp only [execKilnResumeWaitExpiry, hb, hres, hgroup, hopen, hhold, hplan, hbest, hkiln, Nat.not_lt.mpr hwait, Option.isSome_none,
    Bool.not_true, Bool.or_self, decide_false, Bool.false_eq_true, ne_eq, not_true_eq_false, if_false]

end

/-- A workgroup that has ended, alone and not at a stop point, frees what it held and is counted at its node and its bind. -/
theorem exec_workgroupComplete_ends {n : Nat} {g : Wg} (hg : s.wg? n = some g) (hpair : g.pair = none) (hfin : g.finished = true)
    (hdrain : s.drains n g = false) (hstop : g.stop.any (fun p => p.mode != 0 && decide (1 ≤ p.stage)) = false) :
    exec (.workgroupComplete n) s = .next ((((s.finishOne n).nodeDone g.node 1).bindDone g.die g.bind 1).afterLeave) := by
  show execWorkgroupComplete n s = _
  simp only [execWorkgroupComplete, hg, hpair, hstop, Option.toList_none, List.map_nil, List.all_cons, List.all_nil, Option.all_some, hfin,
    hdrain, Bool.not_false, Bool.and_self, Bool.not_true, Bool.or_self, Bool.false_eq_true, if_false, List.foldl_cons, List.foldl_nil]

/-- A node that has given and ended all its workgroups leaves, and its successors count it. -/
theorem exec_nodeComplete_ends {d n : Nat} {x : Node} (hx : Tabs.find? s.nodes (65536 * d + n) = some x) (hbegun : x.begun = true)
    (hgiven : x.n ≤ x.given) (hleft : x.left = 0) :
    exec (.nodeComplete d n) s = .next (x.succ.foldl (fun s j => s.readyNode j)
      ({ s with nodes := Tabs.del s.nodes (65536 * d + n) }.setDcbState x.dcb 0)) := by
  show execNodeComplete d n s = _
  simp only [execNodeComplete, hx, hbegun, hleft, Nat.not_lt.mpr hgiven, decide_false, bne_self_eq_false, Bool.not_true, Bool.or_self,
    Bool.false_eq_true, if_false]

end

/-- Settles O50: each clause is one event of the Stoker's tables, as its lemma above says. -/
theorem placementEvents : Obligations.PlacementEvents :=
  ⟨fun _ _ _ _ _ _ hx hb hfirst hy hdie => exec_bindWrite_binds hx hb hfirst hy hdie,
    fun _ _ _ _ _ _ _ _ _ _ hb hnew hturn hplan hcore hpre => exec_placeWorkgroup_places hb hnew hturn hplan hcore hpre,
    fun _ _ _ _ _ _ _ hb hres hopen hturn hgood hplan hcore => exec_resumeWorkgroup_resumes hb hres hopen hturn hgood hplan hcore,
    fun _ _ _ hg hpair hfin hdrain hstop => exec_workgroupComplete_ends hg hpair hfin hdrain hstop,
    fun _ _ _ _ hx hbegun hgiven hleft => exec_nodeComplete_ends hx hbegun hgiven hleft,
    fun _ _ _ _ _ _ _ hb hripe hhold hc => exec_compactionWaitExpiry_evicts hb hripe hhold hc,
    fun _ _ _ _ _ _ _ hb hres hkg hopen hhold hwait hplan hbest hkiln =>
      exec_kilnResumeWaitExpiry_evicts hb hres hkg hopen hhold hwait hplan hbest hkiln⟩

end Sys2Proof.Machine

namespace Sys2Proof.Machine

open Sys2Proof.Claims

/-! ## Stops and pre-emption (R325, R328 to R335, R417, R445 to R448) -/

/-- A workgroup of no kiln group stops alone. -/
theorem group_alone {s : State} {n : Nat} {g : Wg} (hg : s.wg? n = some g) (hk : g.kiln = []) : s.group n = [n] := by
  simp [State.group, hg, hk]

/-- The stage of a workgroup's own stop. -/
theorem setStage_alone {s : State} {n : Nat} {g : Wg} (hg : s.wg? n = some g) (stage : Nat) :
    s.setStage [n] stage = s.setWg n { g with stop := g.stop.map (fun p => { p with stage }) } := modWg_is hg _

section
variable {s : State} {n : Nat} {g : Wg} (hg : s.wg? n = some g)
include hg

/-- The signal of a stop that covers a workgroup reaches it (R328). -/
theorem exec_stopSignal_signals {q : StopReq} (hq : s.stopFor g.dcb = some q) (hstop : g.stop = none) :
    exec (.stopSignal n) s = .next (s.signal n q.mode) := by
  show execStopSignal n s = _
  simp only [execStopSignal, hg, hq, hstop, Option.isNone_none, Bool.true_or, if_true]

/-- Where no stop of a request covers a workgroup, the Stoker's own reasons decide (log 92). -/
theorem exec_stopSignal_own (hq : s.stopFor g.dcb = none) : exec (.stopSignal n) s = .next (s.ownReason n g) := by
  show execStopSignal n s = _
  simp only [execStopSignal, hg, hq]

omit hg in
/-- A workgroup that is to move is stopped, and its core is left out of its resumption. -/
theorem ownReason_move (hmove : g.move = true) : s.ownReason n g = s.ownStop n [g.core] := if_pos hmove

omit hg in
/-- The next victim of a compaction is stopped. -/
theorem ownReason_victim (hmove : g.move = false) (hv : s.nextVictim n = true) (hstop : g.stop = none) :
    s.ownReason n g = s.ownStop n [] := by
  simp [State.ownReason, hmove, hv, hstop]

section
variable (hk : g.kiln = [])
include hk

/-- A workgroup at its stop point, under a mode other than exact, waits from there on (R330). -/
theorem exec_stopPoint_reached (hunit : s.unitAt [n] 0 = true) (hat : s.atPoint n g = true) (hmode : g.stop.any (fun p => p.mode == 2) = false) :
    exec (.stopPoint n) s = .next (s.setStage [n] 1) := by
  have hnow : (s.setStage [n] 1).wg? n = some { g with stop := g.stop.map (fun p => { p with stage := 1 }) } := by
    rw [setStage_alone hg]
    exact Tabs.find?_put_same ..
  show execStopPoint n s = _
  simp only [execStopPoint, group_alone hg hk, hunit, hg, hat, hnow, List.all_cons, List.all_nil, Option.any_some, Option.any_map,
    hmode, Bool.and_self, Bool.not_true, Bool.or_self, Bool.false_eq_true, List.foldl_cons, List.foldl_nil, if_false]

/-- The waits of a stop are over: under region restart the warps are rolled back, and else they stay as they are (R331, R332). -/
theorem exec_stopWaitsDone_ends (hunit : s.unitAt [n] 1 = true) (hset : ∀ p ∈ g.warps.zipIdx, s.warpSettled n p.2 g p.1 = true) :
    exec (.stopWaitsDone n) s = .next ((if g.stop.any (fun p => p.mode == 1) then
      (List.range g.warps.length).foldl (fun s i => s.rollWarp n i) s else s).setStage [n] 2) := by
  have hall : g.warps.zipIdx.all (fun p => s.warpSettled n p.2 g p.1) = true := List.all_eq_true.mpr hset
  show execStopWaitsDone n s = _
  simp only [execStopWaitsDone, group_alone hg hk, hunit, hg, hall, List.all_cons, List.all_nil, Option.any_some, Bool.and_self, Bool.not_true,
    Bool.or_self, Bool.false_eq_true, List.foldl_cons, List.foldl_nil, if_false]

/-- A workgroup whose image is written leaves its core, and its bind counts it (R333, R335). -/
theorem exec_saveImageWritten_leaves {b : Bind} {s2 : State} {h : Wg} (hunit : s.unitAt [n] 2 = true) (hmay : s.mayWrite n g = true)
    (hb : s.bind? g.die g.bind = some b)
    (hsave : s.saveUnit [n] b g ((g.stop.getD ⟨1, 2, false, []⟩).own && !s.stops.any (fun q => q.mode != 0 && s.under g.dcb q.dcb))
      (g.stop.getD ⟨1, 2, false, []⟩).avoid = some s2) (hh : s2.wg? n = some h) :
    exec (.saveImageWritten n) s = .next ((((s2.suspend n h).depart n h).bindDone g.die g.bind 1).afterLeave) := by
  show execSaveImageWritten n s = _
  simp only [execSaveImageWritten, group_alone hg hk, hunit, hg, hmay, hb, hsave, hh, List.all_cons, List.all_nil, Option.any_some,
    Option.getD_some, Bool.and_self, Bool.not_true, Bool.or_self, Bool.false_eq_true, List.foldl_cons, List.foldl_nil, List.length_singleton,
    if_false]

end

end

section
variable {s : State} {n : Nat} {q : StopReq} (hq : s.stops.find? (fun q => q.id == n) = some q) (hdue : q.since + q.deadline ≤ s.clock)
  (hlate : s.late q = true)
include hq hdue hlate

/-- Past its deadline a stop that is late takes its next step: a reset of its domain after region restart or where `STPX` asks for it, and
else the next mode of the ladder (R447). -/
theorem exec_stopDeadlineExpiry_late :
    exec (.stopDeadlineExpiry n) s = .next (if (s.rd Reg.stpx).getLsbD 0 || q.mode == 1 then
      (if s.level q.dcb = 0 then s.resetPartitions else s.forcedReset (s.resetDomain q.dcb) q.from_) else s.escalate q) := by
  show execStopDeadlineExpiry n s = _
  simp only [execStopDeadlineExpiry, hq, hlate, Nat.not_lt.mpr hdue, decide_false, Bool.not_true, Bool.or_self, Bool.false_eq_true, if_false]

theorem exec_stopDeadlineExpiry_escalates (hx : (s.rd Reg.stpx).getLsbD 0 = false) (hmode : q.mode ≠ 1) :
    exec (.stopDeadlineExpiry n) s = .next (s.escalate q) := by
  rw [exec_stopDeadlineExpiry_late hq hdue hlate, if_neg (by rw [hx]; simpa using hmode)]

/-- After region restart the ladder ends in a reset of the stop's domain (R447, R448). -/
theorem exec_stopDeadlineExpiry_resets (hmode : q.mode = 1) : exec (.stopDeadlineExpiry n) s =
    .next (if s.level q.dcb = 0 then s.resetPartitions else s.forcedReset (s.resetDomain q.dcb) q.from_) := by
  rw [exec_stopDeadlineExpiry_late hq hdue hlate, if_pos (by simp [hmode])]

end

/-- Settles O51: each clause is one stage of a stop, as its lemma above says. -/
theorem stopEvents : Obligations.StopEvents :=
  ⟨fun _ _ _ _ hg hq hstop => exec_stopSignal_signals hg hq hstop,
    fun _ _ _ hg hq hmove => by rw [exec_stopSignal_own hg hq, ownReason_move hmove],
    fun _ _ _ hg hq hmove hv hstop => by rw [exec_stopSignal_own hg hq, ownReason_victim hmove hv hstop],
    fun _ _ _ hg hk hunit hat hmode => exec_stopPoint_reached hg hk hunit hat hmode,
    fun _ _ _ hg hk hunit hset =>
      ⟨fun hroll => by rw [exec_stopWaitsDone_ends hg hk hunit hset, if_pos hroll],
        fun hkeep => by rw [exec_stopWaitsDone_ends hg hk hunit hset, hkeep]; rfl⟩,
    fun _ _ _ _ _ _ hg hk hunit hmay hb hsave hh => exec_saveImageWritten_leaves hg hk hunit hmay hb hsave hh,
    fun _ _ _ hq hdue hlate =>
      ⟨fun hx hmode => exec_stopDeadlineExpiry_escalates hq hdue hlate hx hmode,
        fun hmode hlevel => by rw [exec_stopDeadlineExpiry_resets hq hdue hlate hmode, if_neg hlevel],
        fun hmode hlevel => by rw [exec_stopDeadlineExpiry_resets hq hdue hlate hmode, if_pos hlevel]⟩⟩

end Sys2Proof.Machine

namespace Sys2Proof.Machine

open Sys2Proof.Claims

/-! ## The watch on fragmented binds (R324) -/

/-- Settles O5: after reset there is no bind whose wait could be counted. -/
theorem watchAtReset : Obligations.WatchAtReset := by
  intro e he
  have hnone : State.reset.binds = [] := rfl
  rw [hnone] at he
  cases he

end Sys2Proof.Machine

namespace Sys2Proof.Machine

open Sys2Proof.Claims

/-! ## Requests of the mailbox (R315, R318, R319, R328, R350, R352 to R355, R405, R461) -/

section
variable {s : State} {ch : Nat}

/-- A request that is due, whose length its code takes, is served. -/
theorem serve_due {code n : Nat} {len : State → Nat → Bool} (f : State → State) (h : due s ch code n) (hn : n ≤ 248) (hlen : len s n = true) :
    s.serve ch code len f = f s := by
  obtain ⟨hserved, hsound, hl⟩ := h
  simp only [State.serve, hserved, hsound, hl, hlen, Nat.not_lt.mpr hn, decide_false, Bool.not_true, Bool.or_self, Bool.false_eq_true, if_false]

/-- The outcome of a request of fixed length that is due. -/
theorem next_serve_due {code n : Nat} {f : State → State} {t : State} (h : due s ch code n) (hn : n ≤ 248) (hf : f s = t) :
    (.next (s.serve ch code (fun _ k => k == n) f) : Out) = .next t := by
  rw [serve_due f h hn (beq_self_eq_true n), hf]

/-! ### The tree of DCBs (R315, R350) -/

/-- A part of a DCB is written that is not linked, or that is not frozen and stays well formed (log 97). -/
theorem exec_dcbWrite_writes {d off n : Nat} (hd : s.req ch 0 8 = d) (ho : s.req ch 8 4 = off) (hn : s.req ch 12 4 = n)
    (h : due s ch 1 (16 + n)) (hpos : 1 ≤ n) (hle : n ≤ 64) (hend : off + n ≤ 128) (halign : d % 128 = 0) (hbound : d < 0x5000000000)
    (hok : s.dcbs.contains d = false ∨ (s.dcbFrozen d = false ∧ (s.dcbBytes d off (s.reqBytes ch 16 n)).dcbSound d = true)) :
    exec (.dcbWrite ch) s = .next ((s.dcbBytes d off (s.reqBytes ch 16 n)).answer ch 0x00 []) := by
  have hrange : ¬(n = 0 ∨ 64 < n ∨ 128 < off + n ∨ d % 128 ≠ 0 ∨ 0x5000000000 ≤ d) := by omega
  have hthawed : (s.dcbs.contains d && s.dcbFrozen d) = false := by
    rcases hok with hout | ⟨hfree, -⟩
    · rw [hout]; rfl
    · rw [hfree, Bool.and_false]
  have hsound : (s.dcbs.contains d && !(s.dcbBytes d off (s.reqBytes ch 16 n)).dcbSound d) = false := by
    rcases hok with hout | ⟨-, hs⟩
    · rw [hout]; rfl
    · rw [hs]; exact Bool.and_false _
  refine congrArg Host.Outcome.next ((serve_due _ h (by omega) (by simp [hn]; omega)).trans ?_)
  simp only [hd, ho, hn, hrange, hthawed, hsound, Bool.false_eq_true, if_false]

/-- A well-formed DCB one level below its parent is linked as the parent's first child, with what hangs below it. -/
theorem exec_dcbLink_links {p d : Nat} (hp : s.req ch 0 8 = p) (hd : s.req ch 8 8 = d) (h : due s ch 2 16) (hnamed : s.named p = true)
    (hsound : s.dcbSound d = true) (hlevel : s.level d = s.level p + 1) (hnew : s.dcbs.contains d = false) (hfree : s.dcbFrozen p = false) :
    let below := s.family 32 (s.child d)
    let s1 := ((s.dcbPut d 0 8 p).dcbPut d 16 8 (s.child p)).dcbPut p 8 8 d
    exec (.dcbLink ch) s = .next ({ s1 with
      dcbs := s1.dcbs ++ d :: below, inForce := s1.inForce.filter (fun e => !(d :: below).contains e.1) }.answer ch 0x00 []) := by
  refine next_serve_due h (by omega) ?_
  simp only [hp, hd, hnamed, hsound, hlevel, hnew, hfree, Bool.not_true, bne_self_eq_false, Bool.or_self, Bool.false_eq_true, if_false]

/-- A DCB that is idle, drained or saved, without a child and without a bind, is taken from its parent's list. -/
theorem exec_dcbUnlink_unlinks {d : Nat} (hd : s.req ch 0 8 = d) (h : due s ch 3 8) (hnamed : s.named d = true) (hlevel : s.level d ≠ 0)
    (hst : [0, 3, 5].contains (s.dcbState d) = true) (hchild : s.child d = 0)
    (hbinds : ∀ b ∈ s.binds.map Prod.snd ++ s.bindq.map Prod.snd, b.dcb ≠ d) (hfree : s.dcbFrozen d = false)
    (hparent : s.dcbFrozen (s.parent d) = false) :
    let s1 := s.unchain (s.parent d) d s.dcbs.length (s.child (s.parent d))
    exec (.dcbUnlink ch) s = .next ({ s1.dcbPut d 0 8 0 with
      dcbs := s1.dcbs.filter (· != d), inForce := s1.inForce.filter (fun e => e.1 != d) }.answer ch 0x00 []) := by
  have hnone : (s.binds.map Prod.snd ++ s.bindq.map Prod.snd).any (fun b => b.dcb == d) = false :=
    List.any_eq_false.mpr (fun b hb => by simpa using hbinds b hb)
  refine next_serve_due h (by omega) ?_
  simp only [hd, hnamed, hlevel, hst, hchild, hnone, hfree, hparent, Bool.not_true, Bool.or_self, Bool.false_eq_true, ne_eq, not_true_eq_false,
    or_self, if_false]

/-! ### Nodes, stops, resumption (R318, R319, R328, R405, R465) -/

/-- A node whose record is well formed and whose launch can be read takes the lowest free index of its stream's die (log 46). -/
theorem exec_nodeSubmit_submits {s1 : State} {l : Launch} {h : Header} {i : Nat} (hdue : due s ch 4 64) (hrec : submits s ch)
    (hlaunch : s.launch? (s.req ch 8 8) (s.req ch 0 8) = (s1, some (l, h)))
    (hi : s1.freeNode (Config.streamDie ((s1.atLevel (s.req ch 0 8) 4).getD 0) % 4) = some i) :
    let k := 65536 * (Config.streamDie ((s1.atLevel (s.req ch 0 8) 4).getD 0) % 4) + i
    exec (.nodeSubmit ch) s = .next ({ s1 with nodes := Tabs.put s1.nodes k (submitted s ch s1.nextReady h), nextReady := s1.nextReady + 1 }.answer
      ch 0x00 (leBytes 8 k)) := by
  obtain ⟨hnamed, hlevel, hk, hzero, hsucc, hva, hmore, hvf, hnodes⟩ := hrec
  have hes : ((List.range (s.req ch 0x12 1)).map (fun i => s.req ch (0x18 + 4 * i) 4)).any (fun e => decide (2 ^ 18 ≤ e)) = false :=
    List.any_eq_false.mpr (fun e he => by
      obtain ⟨i, hi, rfl⟩ := List.mem_map.mp he
      simpa using hsucc i (List.mem_range.mp hi))
  have hnone : s.nodes.any (fun e => e.2.dcb == s.req ch 0 8) = false :=
    List.any_eq_false.mpr (fun e he => by simpa using hnodes e he)
  refine next_serve_due hdue (by omega) ?_
  simp only [hnamed, hlevel, Nat.not_lt.mpr hk, hzero, hes, Nat.not_le.mpr hva, hmore, hvf, hnone, hlaunch, hi, bne_self_eq_false, decide_false,
    Bool.not_true, Bool.or_self, Bool.false_eq_true, if_false, if_true, List.append_nil]
  rfl

/-- What a `STOP` does with each bind. -/
theorem halted_eq (s : State) (d : Nat) : (fun b : Bind => if !s.under b.dcb d then b
    else if b.placed = 0 then { b with valid := false } else { b with stop := true }) = halted s d := by
  funext b
  unfold halted
  cases s.under b.dcb d <;> rfl

/-- A `STOP` of a DCB that is idle or running is taken on; its answer comes when the stop ends (R328). -/
theorem exec_stop_accepts {d : Nat} (hd : s.req ch 0 8 = d) (h : due s ch 5 8) (hnamed : s.named d = true) (hvf : s.vfFailed d = false)
    (hst : s.dcbState d < 2) :
    let m := stopMode s d
    exec (.stop ch) s = .next (({ s.mapBinds (halted s d) with
      stops := s.stops ++ [(⟨s.nextStop, d, m, m, some ch, s.clock, s.effDeadline d⟩ : StopReq)], nextStop := s.nextStop + 1 }.setDcbState d
        (if m = 0 then 4 else 2)).checkStops) := by
  refine next_serve_due h (by omega) ?_
  simp only [hd, hnamed, hvf, Nat.not_le.mpr hst, halted_eq, decide_false, Bool.not_true, Bool.or_self, Bool.false_eq_true, if_false]
  rfl

section
variable {d : Nat} (hd : s.req ch 0 8 = d) (h : due s ch 6 8) (hnamed : s.named d = true) (hvf : s.vfFailed d = false)
  (hst : [3, 5].contains (s.dcbState d) = true)
include hd h hnamed hvf hst

/-- A `RESUME` of a DCB none of whose images is refused. -/
theorem exec_resume_revives (hgood : s.refusals d = []) : exec (.resume ch) s = .next ((revived s d).answer ch 0x00 []) := by
  refine next_serve_due h (by omega) ?_
  simp only [hd, hnamed, hvf, hst, hgood, Bool.not_true, Bool.or_self, Bool.false_eq_true, List.isEmpty_nil, if_false, if_true]
  rfl

/-- The images that a `RESUME` refuses are dropped and counted, and the first is named (R465). -/
theorem exec_resume_refuses {a : Nat} {as : List Nat} (hbad : s.refusals d = a :: as) :
    exec (.resume ch) s = .next ((revived (s.dropRefused d (a :: as)) d).answer ch 0x05
      (leBytes 4 0x16 ++ leBytes 4 (as.length + 1) ++ leBytes 8 a)) := by
  refine next_serve_due h (by omega) ?_
  simp only [hd, hnamed, hvf, hst, hbad, Bool.not_true, Bool.or_self, Bool.false_eq_true, List.isEmpty_cons, if_false]
  rfl

end

/-! ### Windows, keys, measurements (R353 to R355, R461) -/

/-- The windows of a core on which nothing runs and for which no image is kept are set. -/
theorem exec_windowSet_sets {c : Nat} {pw : DWord} {ts : List DWord} (hc : s.req ch 0 4 = c) (hpw : BitVec.ofNat 64 (s.req ch 8 8) = pw)
    (hts : askedTwins s ch = ts) (h : due s ch 7 176) (hlt : c < 128) (hzero : s.req ch 4 4 = 0) (hok : windowsOk pw ts = true)
    (hwgs : ∀ e ∈ s.wgs, e.2.core ≠ c) (himgs : ∀ e ∈ s.images, e.2.g.core ≠ c) (hfree : s.pwordFrozen c = false)
    (hsame : ∀ e ∈ ts.zipIdx, s.partFrozen e.2 = true → e.1 = s.rd (Reg.twin c e.2)) :
    exec (.windowSet ch) s = .next ((ts.zipIdx.foldl (fun s t => s.wr (Reg.twin c t.2) t.1) (s.wr (Reg.pword c) pw)).answer ch 0x00 []) := by
  have hempty : s.wgs.any (fun e => e.2.core == c) = false := List.any_eq_false.mpr (fun e he => by simpa using hwgs e he)
  have hunsaved : s.images.any (fun e => e.2.g.core == c) = false := List.any_eq_false.mpr (fun e he => by simpa using himgs e he)
  have hkept : ts.zipIdx.any (fun t => s.partFrozen t.2 && t.1 != s.rd (Reg.twin c t.2)) = false :=
    List.any_eq_false.mpr (fun e he => by simpa using hsame e he)
  unfold askedTwins at hts
  refine next_serve_due h (by omega) ?_
  simp only [hc, hpw, hts, Nat.not_le.mpr hlt, hzero, hok, hempty, hunsaved, hfree, hkept, Bool.not_true, Bool.or_self, Bool.false_eq_true,
    ne_eq, not_true_eq_false, or_self, if_false]

/-- A key slot that is free or the partition's own is assigned where the session stands (log 9). -/
theorem exec_keyAssign_assigns {k p : Nat} (hk : s.req ch 0 4 = k) (hp : s.req ch 4 4 = p) (h : due s ch 8 12) (hpos : 1 ≤ k) (hlt : k < 256)
    (hpart : p < 20) (hown : (s.rd (Reg.keyown k)).getLsbD 5 = false ∨ s.ownsKey p k = true) (hfree : s.partFrozen p = false) :
    let s1 := s.wr (Reg.keyown k) (BitVec.ofNat 64 (32 + p))
    exec (.keyAssign ch) s = .next (if Config.sessionStands (s.req ch 8 4) p then
      { s1 with keyEpoch := Tabs.put s1.keyEpoch k (Tabs.get s1.keyEpoch 0 k + 1) }.answer ch 0x00 [] else s.answer ch 0x01 []) := by
  have hrange : ¬(k = 0 ∨ 256 ≤ k ∨ 20 ≤ p) := by omega
  have htaken : ((s.rd (Reg.keyown k)).getLsbD 5 && !s.ownsKey p k) = false := by
    rcases hown with hout | hmine
    · rw [hout]; rfl
    · rw [hmine]; exact Bool.and_false _
  refine next_serve_due h (by omega) ?_
  simp only [hk, hp, hrange, htaken, hfree, Bool.false_eq_true, if_false]
  cases Config.sessionStands (s.req ch 8 4) p
  case true => simp only [Bool.not_true, Bool.false_eq_true, if_false, if_true]
  case false => simp only [Bool.not_false, Bool.false_eq_true, if_false, if_true]

section
variable {p : Nat} (hp : s.req ch 0 4 = p) (h : due s ch 9 24) (hpart : p < 20) (hzero : s.req ch 4 4 = 0)
include hp h hpart hzero

/-- Memory that is there is added to the measurement of a partition. -/
theorem exec_measure_adds {a n : Nat} (ha : s.req ch 8 8 = a) (hn : s.req ch 16 8 = n) (hne : n ≠ 0) (hmem : dpaAssigned a n = true) :
    let r := s.secBytes a n
    exec (.measure ch) s = .next ((r.1.setPmeas p (sha3_512 (r.1.pmeas p ++ sha3_512 r.2))).answer ch 0x00 []) := by
  refine next_serve_due h (by omega) ?_
  simp only [hp, ha, hn, Nat.not_le.mpr hpart, hzero, hne, hmem, Bool.not_true, Bool.false_eq_true, ne_eq, not_true_eq_false, or_self, if_false]

/-- A length of 0 clears the measurement of a partition that is not frozen. -/
theorem exec_measure_clears (hn : s.req ch 16 8 = 0) (hfree : s.partFrozen p = false) :
    exec (.measure ch) s = .next ((s.setPmeas p (List.replicate 64 0)).answer ch 0x00 []) := by
  refine next_serve_due h (by omega) ?_
  simp only [hp, hn, Nat.not_le.mpr hpart, hzero, hfree, Bool.false_eq_true, ne_eq, not_true_eq_false, or_self, if_false, if_true]

end

/-- A code that is not assigned is answered with status 2 (R352). -/
theorem exec_mailboxUnassignedCode_refuses (hcode : s.reqCode ch = 0 ∨ 12 ≤ s.reqCode ch) (hbusy : s.busyCh ch = true)
    (hch : s.chans.contains ch = true) (hup : s.up = true) : exec (.mailboxUnassignedCode ch) s = .next (s.answer ch 0x02 []) :=
  congrArg Host.Outcome.next (if_pos (by simp only [hcode, hbusy, hch, hup, Bool.and_self, true_and]))

end

/-- Settles O52: each clause is one code of the mailbox, as its lemma above says. -/
theorem mailboxRequests : Obligations.MailboxRequests :=
  fun _ _ =>
    ⟨fun h hpos hle hend halign hbound hok => exec_dcbWrite_writes rfl rfl rfl h hpos hle hend halign hbound hok,
      fun h hnamed hsound hlevel hnew hfree => exec_dcbLink_links rfl rfl h hnamed hsound hlevel hnew hfree,
      fun h hnamed hlevel hst hchild hbinds hfree hparent => exec_dcbUnlink_unlinks rfl h hnamed hlevel hst hchild hbinds hfree hparent,
      fun _ _ _ _ hdue hrec hlaunch hi => exec_nodeSubmit_submits hdue hrec hlaunch hi,
      fun h hnamed hvf hst => exec_stop_accepts rfl h hnamed hvf hst,
      fun h hnamed hvf hst =>
        ⟨fun hgood => exec_resume_revives rfl h hnamed hvf hst hgood, fun _ _ hbad => exec_resume_refuses rfl h hnamed hvf hst hbad⟩,
      fun h hlt hzero hok hwgs himgs hfree hsame => exec_windowSet_sets rfl rfl rfl h hlt hzero hok hwgs himgs hfree hsame,
      fun h hpos hlt hpart hown hfree => exec_keyAssign_assigns rfl rfl h hpos hlt hpart hown hfree,
      fun h hpart hzero =>
        ⟨fun hne hmem => exec_measure_adds rfl h hpart hzero rfl rfl hne hmem,
          fun hn hfree => exec_measure_clears rfl h hpart hzero hn hfree⟩,
      fun hcode hbusy hch hup => exec_mailboxUnassignedCode_refuses hcode hbusy hch hup⟩

end Sys2Proof.Machine

namespace Sys2Proof.Machine

open Sys2Proof.Claims

/-! ## Interfaces and the responder (R356, R358, R367, R369, R458) -/

section
variable {s : State} {vf : BitVec 8}

/-- The only interface that waits to be unlocked goes on waiting while a workgroup of it is resident (R356). -/
theorem checkTdi_waits (hstops : s.tdiStops = [vf]) (hres : ∃ e ∈ s.wgs, e.2.vf = vf) : s.checkTdi = s := by
  have hany : s.wgs.any (fun e => e.2.vf == vf) = true := by simpa using hres
  simp only [State.checkTdi, hstops, List.foldl_cons, List.foldl_nil, hany, if_true]

/-- The only interface that waits to be unlocked is unlocked when no workgroup of it is resident (R356). -/
theorem checkTdi_unlocks (hstops : s.tdiStops = [vf]) (hnone : ∀ e ∈ s.wgs, e.2.vf ≠ vf) :
    s.checkTdi = { s.setTdi vf 0 with tdiStops := [] } := by
  have hany : s.wgs.any (fun e => e.2.vf == vf) = false := List.any_eq_false.mpr (fun e he => by simpa using hnone e he)
  simp only [State.checkTdi, hstops, List.foldl_cons, List.foldl_nil, hany, Bool.false_eq_true, if_false, bne_self_eq_false,
    List.filter_cons, List.filter_nil]

/-- A bound, unlocked interface is locked; the bytes of the request are not looked at (log 54). -/
theorem exec_lockInterfaceRequest_locks (bs : List Byte) (hsec : s.secure = true) (htdi : s.tdi vf = 0) (hbound : s.vfBound vf = true) :
    exec (.lockInterfaceRequest vf bs) s = .next (s.setTdi vf 1) :=
  congrArg Host.Outcome.next (if_pos ⟨hsec, htdi, hbound⟩)

/-- A locked interface runs; the bytes of the request are not looked at (log 54). -/
theorem exec_startInterfaceRequest_runs (bs : List Byte) (hsec : s.secure = true) (htdi : s.tdi vf = 1) :
    exec (.startInterfaceRequest vf bs) s = .next (s.setTdi vf 2) :=
  congrArg Host.Outcome.next (if_pos ⟨hsec, htdi⟩)

/-- A stop of an interface that is not unlocked, when no other stop waits, waits for the interface's workgroups. -/
theorem exec_stopInterfaceRequest_checks (hsec : s.secure = true) (htdi : s.tdi vf ≠ 0) (hstops : s.tdiStops = []) :
    exec (.stopInterfaceRequest vf) s = .next { s with tdiStops := [vf] }.checkTdi := by
  show execStopInterfaceRequest vf s = _
  simp only [execStopInterfaceRequest, hsec, htdi, hstops, List.contains_nil, Bool.not_true, Bool.false_eq_true, or_self, if_false,
    List.nil_append]

theorem exec_interfaceReport_reports (hsec : s.secure = true) :
    exec (.interfaceReport vf) s = .next { s with reports := s.reports ++ [⟨[(vf, 65536)], s.interfaceReport vf⟩] } :=
  congrArg Host.Outcome.next (if_pos hsec)

/-- Without a secure session no TDISP message has an effect (R356, R367). -/
theorem exec_tdisp_insecure (bs : List Byte) (hsec : s.secure = false) :
    exec (.lockInterfaceRequest vf bs) s = .next s ∧ exec (.startInterfaceRequest vf bs) s = .next s ∧
      exec (.stopInterfaceRequest vf) s = .next s ∧ exec (.interfaceReport vf) s = .next s := by
  have hopen : ¬ s.secure = true := by simp [hsec]
  have hclosed : (!s.secure) = true := by simp [hsec]
  exact ⟨congrArg Host.Outcome.next (if_neg (fun h => hopen h.1)), congrArg Host.Outcome.next (if_neg (fun h => hopen h.1)),
    congrArg Host.Outcome.next (if_pos (Or.inl hclosed)), congrArg Host.Outcome.next (if_neg hopen)⟩

end

section
variable {s : State} {code need stage : Nat} {first : Bool} {msg : List Byte}

/-- Each message of the responder is answered under its own code and stages (R367). -/
theorem exec_spdmForm {i : Instr} (h : spdmForm i = some (code, need, stage, first, msg)) :
    exec i s = .next (s.spdmAnswer code need stage first msg) := by
  unfold spdmForm at h
  split at h <;> cases h <;> rfl

/-- A message that comes in its turn and is accepted enters the transcript with its response. -/
theorem spdmAnswer_accepts {t : List Byte} (ht : (if first then [] else s.spdm.transcript) ++ msg = t)
    (hok : need ≤ s.spdm.stage ∧ Config.spdmAccepts code t) :
    s.spdmAnswer code need stage first msg =
      { s with spdm := ⟨t ++ spdmReply code (t ++ s.measurements), if first then stage else max s.spdm.stage stage,
        s.spdm.out ++ [spdmReply code (t ++ s.measurements)]⟩ } := by
  subst ht
  exact if_pos hok

/-- Any other message is answered with an error, and leaves the connection as it is. -/
theorem spdmAnswer_refuses {t : List Byte} (ht : (if first then [] else s.spdm.transcript) ++ msg = t)
    (hbad : ¬ (need ≤ s.spdm.stage ∧ Config.spdmAccepts code t)) :
    s.spdmAnswer code need stage first msg = { s with spdm := { s.spdm with out := s.spdm.out ++ [spdmReply 9 t] } } := by
  subst ht
  exact if_neg hbad

end

/-- Settles O57: each clause is one TDISP message, or the answer of the responder, as its lemma above says. -/
theorem trustEvents : Obligations.TrustEvents :=
  fun _ =>
    ⟨fun _ bs hsec htdi hbound => exec_lockInterfaceRequest_locks bs hsec htdi hbound,
      fun _ bs hsec htdi => exec_startInterfaceRequest_runs bs hsec htdi,
      fun _ hsec htdi hstops =>
        ⟨fun hnone => (exec_stopInterfaceRequest_checks hsec htdi hstops).trans (congrArg Host.Outcome.next (checkTdi_unlocks rfl hnone)),
          fun hres => (exec_stopInterfaceRequest_checks hsec htdi hstops).trans (congrArg Host.Outcome.next (checkTdi_waits rfl hres))⟩,
      fun _ hsec => exec_interfaceReport_reports hsec,
      fun _ bs hsec => exec_tdisp_insecure bs hsec,
      fun _ _ _ _ _ _ hform =>
        ⟨fun hok => (exec_spdmForm hform).trans (congrArg Host.Outcome.next (spdmAnswer_accepts rfl hok)),
          fun hbad => (exec_spdmForm hform).trans (congrArg Host.Outcome.next (spdmAnswer_refuses rfl hbad))⟩⟩

end Sys2Proof.Machine

namespace Sys2Proof.Machine

open Sys2Proof.Claims

/-! ## The host's memory, links and ports (R345, R361, R362, R454 to R457) -/

section
variable {s : State}

/-- The host reads memory that is neither releasing nor uncorrectable nor quarantined (R345). -/
theorem exec_hostMemRead_reads {a n : Nat} {s1 : State} (hup : s.up = true) (hpos : 1 ≤ n) (hline : a % 64 + n ≤ 64) (htop : a + n ≤ memTop)
    (hrel : s.releasingAny a n = false) (hread : s.readSectors a n = (s1, none)) (hq : s.quarantined a = false) :
    exec (.hostMemRead a n) s =
      .next { s1 with reads := s1.reads ++ [(⟨a, hostBytes s1 a n, s1.crazeMask a n, false, 0⟩ : ReadOut)] } := by
  have hn : n ≠ 0 := by omega
  show execHostMemRead a n s = _
  simp only [execHostMemRead, hup, hn, Nat.not_lt.mpr hline, Nat.not_lt.mpr htop, hrel, hread, hq, Option.isSome_none, Bool.not_true, Bool.or_self,
    Bool.false_eq_true, or_self, if_false]
  rfl

/-- The host writes memory outside its own window, none of it of a frozen DCB (R345, R357). -/
theorem exec_hostMemWrite_writes {a : Nat} {data : List Byte} (hup : s.up = true) (hne : data ≠ []) (hline : a % 64 + data.length ≤ 64)
    (hwin : windowOf a ≠ 1) (htop : a + data.length ≤ memTop) (hq : s.quarantined a = false)
    (hfree : ∀ k < data.length, s.frozenByte (a + k) = false) : exec (.hostMemWrite a data) s = .next (s.memBytes 0 a data) := by
  have hlen : data.length ≠ 0 := by simpa using hne
  have hall : (data.zipIdx.map (fun e => (⟨e.2, e.1, none⟩ : WCell))).filter (fun x => !s.frozenByte (a + x.off)) =
      data.zipIdx.map (fun e => (⟨e.2, e.1, none⟩ : WCell)) := by
    refine List.filter_eq_self.mpr (fun x hx => ?_)
    obtain ⟨e, he, rfl⟩ := List.mem_map.mp hx
    have hlt : e.2 < data.length := by simpa using List.snd_lt_add_of_mem_zipIdx he
    simp [hfree e.2 hlt]
  show execHostMemWrite a data s = _
  simp only [execHostMemWrite, hup, hlen, Nat.not_lt.mpr hline, hwin, Nat.not_lt.mpr htop, hq, hall, decide_false, Bool.not_true, Bool.or_self,
    Bool.false_eq_true, or_self, if_false]
  rfl

/-- A request that is the next one of its source, and need not wait, is applied and counted (R361, R362). -/
theorem exec_remoteRequest_applies {port : Nat} {data : List Byte} (h : arrives s port (RemReq.of data)) :
    exec (.remoteRequest port data) s = .next { s.remApply port (RemReq.of data) with
      remSeq := Tabs.put s.remSeq (RemReq.of data).src ((RemReq.of data).seq + 1) } := by
  obtain ⟨hport, hst, hsound, hseq, hwait⟩ := h
  have hturn : ¬ ((RemReq.of data).seq ≠ Tabs.get s.remSeq 0 (RemReq.of data).src) := not_not.mpr hseq
  show execRemoteRequest port data s = _
  simp only [execRemoteRequest, Nat.not_le.mpr hport, hst, hsound, hturn, hwait, ne_eq, not_true_eq_false, decide_false, Bool.not_true,
    Bool.or_self, Bool.false_eq_true, or_self, if_false]

/-- The host link goes down, and every locked or running interface moves to error (R454). -/
theorem exec_hostLinkDown_errs (hup : s.hostUp = true) :
    exec .hostLinkDown s = .next (allVfs.foldl (fun s v => s.interfaceError v 6 0) (s.wr Reg.hlstat ((s.rd Reg.hlstat &&& ~~~1) ||| 2))) := by
  show execHostLinkDown s = _
  simp only [execHostLinkDown, hup, Bool.not_true, Bool.false_eq_true, if_false]

/-- The host link trains after step 3 of bring-up (R377, R454). -/
theorem exec_hostLinkUp_trains (hup : s.up = true) : exec .hostLinkUp s = .next (s.wr Reg.hlstat (s.rd Reg.hlstat ||| 1)) :=
  congrArg Host.Outcome.next (if_pos hup)

/-- The held entries of a node that is away go (R457). -/
theorem exec_peerUnreachableTimeout_drops (p : Nat) : exec (.peerUnreachableTimeout p) s = .next { s with
    remote := s.remote.filter (fun r => r.src != p), releasing := s.releasing.filter (fun r => r.src != some p) } := rfl

section
variable {k : Nat} (hk : k < 12)
include hk

/-- A port that is up retrains after 8 replays, which its register counts (R455, log 53). -/
theorem exec_flitReplayExhausted_retrains (hst : s.portSt k = 2) :
    exec (.flitReplayExhausted k) s = .next ((s.wr (Reg.fpstat k) (BitVec.ofNat 64 (setField (s.rd (Reg.fpstat k)).toNat 32 32
      (min ((s.rd (Reg.fpstat k)).toNat / 2 ^ 32 + 8) (2 ^ 32 - 1))))).setPort k 1) :=
  congrArg Host.Outcome.next (if_neg (by omega))

/-- A port that the switch or the peer takes down retrains (R455). -/
theorem exec_portTakenDown_retrains (hst : s.portSt k = 2) : exec (.portTakenDown k) s = .next (s.setPort k 1) :=
  congrArg Host.Outcome.next (if_neg (by omega))

/-- A port that retrains is up, or has failed: at the third failure in 100 ms it stays failed (R455). -/
theorem exec_portRetrainDone_retrained (hst : s.portSt k = 1) (ok : Bool) :
    exec (.portRetrainDone k ok) s = .next (if ok then s.setPort k 2
      else if 3 ≤ (recentFails s k).length then { s with portFails := Tabs.put s.portFails k (recentFails s k) }.setPort k 3
      else { s with portFails := Tabs.put s.portFails k (recentFails s k) }) :=
  congrArg Host.Outcome.next (if_neg (by omega))

end

section
variable {r : WRef} {l : Lane} {id : Nat} (hl : s.laneOf r = some l)
include hl

/-- A read of the host window without a completion is settled as refused (R454). -/
theorem exec_hostCompletionTimeout_refuses {a : Acc} (ha : l.w.accs.find? (fun a => a.id == id && !a.performed) = some a)
    (hwalk : a.stage ≠ .walk) (hrmt : a.rmt = false) (hwin : windowOf a.dpa = 1) :
    exec (.hostCompletionTimeout r id) s = .next (s.putLane (ended (l.faultAcc a 0x05))) := by
  refine onWarp_is hl ?_
  cases hst : a.stage with
  | walk => exact absurd hst hwalk
  | _ => simp [ha, hst, hrmt, hwin, Ctx.onL]

/-- An access to a fabric window without an answer is settled as refused (R457). -/
theorem exec_fabricE2eTimeout_refuses {a : Acc} (ha : l.w.accs.find? (fun a => a.id == id && a.stage == .home && a.rmt) = some a) :
    exec (.fabricE2eTimeout r id) s = .next (s.putLane (ended (l.faultAcc a 0x05))) :=
  onWarp_is hl (by simp only [ha]; rfl)

/-- A release to a fabric window without an answer completes here, and its port says that it is lost (R457). -/
theorem exec_fabricE2eTimeout_releases {i : Item} (hnone : l.w.accs.find? (fun a => a.id == id && a.stage == .home && a.rmt) = none)
    (hi : l.w.items.find? (fun i => i.id == id && i.rmt) = some i) (hst : i.stage = .held) (hsent : i.sent = true)
    (hmay : l.w.mayRelease i.tag = true) :
    exec (.fabricE2eTimeout r id) s = .next ((s.lostRelease i.dpa).putLane (ended (l.setItem { i with stage := .released }))) :=
  onWarp_is hl (by simp only [hnone, hi, hst, hsent, hmay, Bool.and_self, if_true]; rfl)

end

/-! ## Routes (R463) -/

section
variable {k : Nat} (hk : k ∉ s.linksDown) (hup : s.up = true)
include hk hup

/-- A link marked down that cuts off a slice or a controller takes every partition down. -/
theorem exec_linkDownMark_dead (hdead : networkDead (s.linksDown ++ [k]) = true) : exec (.linkDownMark k) s =
    .next ((({ s with linksDown := s.linksDown ++ [k] } : State).wr Reg.rtstat (s.rd Reg.rtstat ||| 0xA)).resetPartitions) := by
  have hnew : s.linksDown.contains k = false := by simpa using hk
  show execLinkDownMark k s = _
  simp only [execLinkDownMark, hnew, hup, hdead, Bool.not_true, Bool.or_self, Bool.false_eq_true, if_false, if_true]

/-- A link marked down that cuts off no core with a workgroup: the routes are computed again, and the cores without one are lost. -/
theorem exec_linkDownMark_reroutes {down : List Nat} (hdown : s.linksDown ++ [k] = down) (hlive : networkDead down = false)
    (hreach : ∀ e ∈ s.wgs, e.2.core ∈ s.lost ∨ coreReached down e.2.core = true) : exec (.linkDownMark k) s =
    .next (({ s with linksDown := down, lost := s.lost ++ (List.range 128).filter (fun c => !s.lost.contains c && !coreReached down c) } : State).wr
      Reg.rtstat (((s.rd Reg.rtstat &&& ~~~6) ||| (if routesAccepted down then 0 else 4) ||| 2) + 0x100000000)) := by
  have hnew : s.linksDown.contains k = false := by simpa using hk
  have hnone : s.wgs.filter (fun e => ((List.range 128).filter (fun c => !s.lost.contains c && !coreReached down c)).contains e.2.core) = [] :=
    List.filter_eq_nil_iff.mpr (fun e he hout => by
      obtain ⟨-, hlost, hcut⟩ : e.2.core < 128 ∧ e.2.core ∉ s.lost ∧ coreReached down e.2.core = false := by simpa using hout
      rcases hreach e he with hin | hr
      · exact hlost hin
      · rw [hcut] at hr; cases hr)
  show execLinkDownMark k s = _
  simp only [execLinkDownMark, hnew, hup, hdown, hlive, State.wr, hnone, Bool.not_true, Bool.or_self, Bool.false_eq_true, List.map_nil,
    List.foldl_nil, if_false]

end

/-! ## Telemetry (R376, R466, R483) -/

section
variable {die : Nat} {x : DWord} (hdie : die < 4)
include hdie

/-- A sample below the alarm, of a die that does not end a round (R376). -/
theorem exec_telemetrySample_cool (hcool : x.toNat / 2 ^ 36 % 4096 < 800) (hlast : die ≠ 3) :
    exec (.telemetrySample die x) s = .next (s.wr (Reg.tlm die) (sampled s die x)) := by
  have hbelow : ¬ 880 ≤ x.toNat / 2 ^ 36 % 4096 := by omega
  show execTelemetrySample die x s = _
  simp only [execTelemetrySample, Nat.not_le.mpr hdie, Nat.not_le.mpr hcool, hbelow, hlast, ne_eq, not_false_eq_true, false_and, if_true, if_false]
  rfl

/-- A sample at which the package goes down (R466). -/
theorem exec_telemetrySample_hot (hhot : 880 ≤ x.toNat / 2 ^ 36 % 4096) (hlast : die ≠ 3) : exec (.telemetrySample die x) s =
    .next { ((s.wr (Reg.tlm die) (sampled s die x)).raise none 9).resetPartitions with powerOff := true } := by
  have halarm : 800 ≤ x.toNat / 2 ^ 36 % 4096 := by omega
  show execTelemetrySample die x s = _
  simp only [execTelemetrySample, Nat.not_le.mpr hdie, halarm, hhot, hlast, ne_eq, not_false_eq_true, false_and, if_true, if_false]
  rfl

/-- The life that a die predicts is a free value, and the error vector is raised when it first falls below 180 days (R483). -/
theorem exec_ageingRead_predicts {n : Nat} (hn : (Config.freeValue s.freeCtr).toNat % 65536 = n) :
    let s1 : State := { s.wr (Reg.tlm die) ((s.rd (Reg.tlm die) &&& ~~~0xFFFF0000) ||| BitVec.ofNat 64 (n * 65536)) with freeCtr := s.freeCtr + 1 }
    exec (.ageingRead die) s = .next (if n < 180 ∧ !s.aged.contains die then { s1 with aged := s1.aged ++ [die] }.raise none 9 else s1) := by
  subst hn
  exact congrArg Host.Outcome.next (if_neg (by omega))

end

/-- A sample below the alarm that ends a round, where the package is within its power (R376, R466). -/
theorem exec_telemetrySample_round {x : DWord} (hcool : x.toNat / 2 ^ 36 % 4096 < 800)
    (hpower : (s.wr (Reg.tlm 3) (sampled s 3 x)).power ≤ 18000) :
    exec (.telemetrySample 3 x) s = .next { s.wr (Reg.tlm 3) (sampled s 3 x) with hot := 0 } := by
  have hbelow : ¬ 880 ≤ x.toNat / 2 ^ 36 % 4096 := by omega
  unfold sampled at hpower
  show execTelemetrySample 3 x s = _
  simp only [execTelemetrySample, Nat.not_le.mpr hcool, hbelow, Nat.not_lt.mpr hpower, ne_eq, not_true_eq_false, true_and, if_false]
  rfl

end

/-- Settles O56: each clause is one event from outside, as its lemma above says. -/
theorem outsideEvents : Obligations.OutsideEvents :=
  ⟨fun _ =>
    ⟨fun _ _ _ hup hpos hline htop hrel hread hq => exec_hostMemRead_reads hup hpos hline htop hrel hread hq,
      fun _ _ hup hne hline hwin htop hq hfree => exec_hostMemWrite_writes hup hne hline hwin htop hq hfree,
      fun _ _ h => exec_remoteRequest_applies h,
      exec_hostLinkDown_errs,
      exec_hostLinkUp_trains,
      fun _ _ _ _ hl ha hwalk hrmt hwin => exec_hostCompletionTimeout_refuses hl ha hwalk hrmt hwin,
      fun _ hk hst => ⟨exec_flitReplayExhausted_retrains hk hst, exec_portTakenDown_retrains hk hst⟩,
      fun _ hk hst => ⟨exec_portRetrainDone_retrained hk hst true, exec_portRetrainDone_retrained hk hst false⟩,
      fun _ _ _ _ hl ha => exec_fabricE2eTimeout_refuses hl ha,
      fun _ _ _ _ hl hnone hi hst hsent hmay => exec_fabricE2eTimeout_releases hl hnone hi hst hsent hmay,
      exec_peerUnreachableTimeout_drops,
      fun _ hk hup => ⟨exec_linkDownMark_dead hk hup, exec_linkDownMark_reroutes hk hup rfl⟩⟩,
    fun _ _ _ hdie =>
      ⟨exec_telemetrySample_cool hdie,
        fun hcool hlast hpower => by subst hlast; exact exec_telemetrySample_round hcool hpower,
        exec_telemetrySample_hot hdie,
        exec_ageingRead_predicts hdie rfl⟩⟩

end Sys2Proof.Machine

namespace Sys2Proof.Machine

open Sys2Proof.Claims

/-! ## Glaze images (R373 to R375, R464, R472, R473) -/

section
variable {s : State}

/-- What the security controller reads leaves the requests in progress. -/
@[simp] theorem secBytes_glazes (s : State) (a n : Nat) : (s.secBytes a n).1.glazes = s.glazes := by
  unfold State.secBytes
  split <;> rfl

@[simp] theorem secBytes_nextGlaze (s : State) (a n : Nat) : (s.secBytes a n).1.nextGlaze = s.nextGlaze := by
  unfold State.secBytes
  split <;> rfl

theorem stagingRoom_congr {t : State} (h : t.glazes = s.glazes) (ps : List Nat) : t.stagingRoom ps = s.stagingRoom ps := by
  unfold State.stagingRoom
  rw [h]

/-- A checkpoint or an exact image whose content can be read now, and for which there is staging space, is taken on (R373). -/
theorem exec_glazeWrite_stages {ch kind j dir dst : Nat} {s1 : State} {secs : List GSec} {pages : List Nat} (hkind : s.req ch 0 4 = kind)
    (hj : s.req ch 8 8 = j) (hdir : s.req ch 16 8 = dir) (hdst : s.req ch 24 8 = dst) (h : due s ch 10 36) (hlt : kind < 2)
    (hzero : s.req ch 4 4 = 0) (hnamed : s.jobNamed j = true)
    (hbufs : kind = 0 → ∀ e ∈ s.dirEntries dir 65536, e.1 = 0 ∨ (e.1 = 1 ∧ e.2.2 % 4 = 0))
    (hwin : windowOf dst = 1 ∨ 16 ≤ windowOf dst) (hbound : dst < 2 ^ 52) (hvf : s.vfFailed j = false)
    (hc : s.content kind j dir = (s1, .ok secs pages)) (hroom : s1.stagingRoom (stackPages pages) = true) :
    exec (.glazeWrite ch) s = .next { s1 with nextGlaze := s1.nextGlaze + 1, glazes := s1.glazes ++ [(
      { id := s1.nextGlaze, ch, write := true, kind, job := j, dir, dst, session := s.req ch 32 4, stage := 0,
        pages := stackPages pages, secs := [], ctr := 0, image := [] } : GlazeReq)] } := by
  have hgood : (kind == 0 && (s.dirEntries dir 65536).any (fun e => decide (2 ≤ e.1) || (e.1 == 1 && e.2.2 % 4 != 0))) = false := by
    by_cases h0 : kind = 0
    · refine Bool.and_eq_false_imp.mpr (fun _ => List.any_eq_false.mpr (fun e he => ?_))
      rcases hbufs h0 e he with hz | ⟨hone, hword⟩
      · simp [hz]
      · simp [hone, hword]
    · simp [h0]
  have hdest : (windowOf dst != 1 && decide (windowOf dst < 16)) = false := by
    rcases hwin with hhost | hfabric
    · simp [hhost]
    · simp [Nat.not_lt.mpr hfabric]
  refine next_serve_due h (by omega) ?_
  simp only [hkind, hj, hdir, hdst, Nat.not_le.mpr hlt, hzero, hnamed, hgood, hdest, Nat.not_le.mpr hbound, hvf, hc, hroom, decide_false,
    bne_self_eq_false, Bool.not_true, Bool.or_self, Bool.false_eq_true, if_false]

section
variable {n : Nat} {g : GlazeReq}

/-- The content of a request is fixed (R374). -/
theorem exec_glazeStagingComplete_fixes {s1 : State} {secs : List GSec} {pages : List Nat} (hg : s.glazeAt n 0 = some g)
    (hc : s.content g.kind g.job g.dir = (s1, .ok secs pages)) :
    exec (.glazeStagingComplete n) s = .next (s1.setGlaze { g with secs, stage := 1 }) := by
  show execGlazeStagingComplete n s = _
  simp only [execGlazeStagingComplete, hg, hc]

section
variable (hg : s.glazeAt n 1 = some g)
include hg

/-- The gate refuses for a core that committed the content and is retired (R473). -/
theorem exec_bisqueGateOpen_retired {e : Nat × Nat} (he : (s.stamped g.job).find? (fun e => s.sweepSt e.1 == 3) = some e) :
    exec (.bisqueGateOpen n) s = .next (s.endGlaze g 0x01 (leBytes 4 1 ++ leBytes 4 e.1)) := by
  show execBisqueGateOpen n s = _
  simp only [execBisqueGateOpen, hg, he]

/-- Where no core that committed the content is retired, the taint of the job and the passes of the cores decide (R473). -/
theorem exec_bisqueGateOpen_none_retired (hin : ∀ e ∈ s.stamped g.job, s.sweepSt e.1 ≠ 3) :
    exec (.bisqueGateOpen n) s = .next (if s.taints.contains g.job then s.endGlaze g 0x01 (leBytes 4 1 ++ leBytes 4 0xFFFFFFFF)
      else if (s.stamped g.job).all (fun e => decide (e.2 < Tabs.get s.passAt 0 e.1)) then s.setGlaze { g with stage := 2 } else s) := by
  have hnone : (s.stamped g.job).find? (fun e => s.sweepSt e.1 == 3) = none :=
    List.find?_eq_none.mpr (fun e he => by simpa using hin e he)
  show execBisqueGateOpen n s = _
  simp only [execBisqueGateOpen, hg, hnone]

/-- The gate opens when every core that committed the content has passed its sweep since (R473). -/
theorem exec_bisqueGateOpen_opens (hpass : ∀ e ∈ s.stamped g.job, s.sweepSt e.1 ≠ 3 ∧ e.2 < Tabs.get s.passAt 0 e.1)
    (htaint : s.taints.contains g.job = false) : exec (.bisqueGateOpen n) s = .next (s.setGlaze { g with stage := 2 }) := by
  have hall : (s.stamped g.job).all (fun e => decide (e.2 < Tabs.get s.passAt 0 e.1)) = true :=
    List.all_eq_true.mpr (fun e he => decide_eq_true (hpass e he).2)
  rw [exec_bisqueGateOpen_none_retired hg (fun e he => (hpass e he).1), htaint, if_neg Bool.false_ne_true, if_pos hall]

/-- The gate refuses for a taint (R473). -/
theorem exec_bisqueGateOpen_tainted (hin : ∀ e ∈ s.stamped g.job, s.sweepSt e.1 ≠ 3) (htaint : s.taints.contains g.job = true) :
    exec (.bisqueGateOpen n) s = .next (s.endGlaze g 0x01 (leBytes 4 1 ++ leBytes 4 0xFFFFFFFF)) := by
  rw [exec_bisqueGateOpen_none_retired hg hin, if_pos htaint]

end

section
variable (hg : s.glazeAt n 2 = some g) (ok : Bool) (key : Nat)
include hg

/-- The key service's answer seals an image that is written, or ends its request (R373). -/
theorem exec_keyServiceResponse_write (hw : g.write = true) :
    exec (.keyServiceResponse n ok key) s = .next (if ok && Config.sessionStands g.session (s.partOf g.job) then
      s.setGlaze { g with ctr := key % 2 ^ 64, image := s.sealed g (key % 2 ^ 64), stage := 3 } else s.endGlaze g 0x01 []) := by
  show execKeyServiceResponse n ok key s = _
  simp only [execKeyServiceResponse, hg, hw, if_true]

/-- With the key service's answer a restore goes on, or is refused (R375, R464). -/
theorem exec_keyServiceResponse_restore (hw : g.write = false) :
    exec (.keyServiceResponse n ok key) s = .next (if ok && Config.sessionStands g.session (s.partOf g.job) then
      s.restoreWith g (key % 2 ^ 64) else s.refuseRestore g 6) := by
  show execKeyServiceResponse n ok key s = _
  simp only [execKeyServiceResponse, hg, hw, Bool.false_eq_true, if_false]

end

/-- The signed image goes to its destination, and the response carries its counter and length (R373). -/
theorem exec_glazeSignComplete_drains (hg : s.glazeAt n 3 = some g) :
    let image := glazeSigned g.image
    let s1 := if windowOf g.dst = 1 then s.memBytes 0 g.dst image else s
    exec (.glazeSignComplete n) s = .next ({ s1 with gimages := s1.gimages ++ [(⟨image, g.secs⟩ : GImg)] }.endGlaze g 0x00
      (leBytes 8 g.ctr ++ leBytes 8 image.length)) := by
  show execGlazeSignComplete n s = _
  simp only [execGlazeSignComplete, hg]

end

end

/-! ### Restores (R375, R464) -/

/-- The checks 1 to 4 of a restore, one after the other, refuse it or let it go on. -/
theorem goesOn_failsCheck (t s : State) (chain : List Byte) (g : GlazeReq) : goesOn t g (failsCheck s chain g) =
    if !headerSound g.image then t.refuseRestore g 1
    else if !Config.chainVerifies chain g.image then t.refuseRestore g 2
    else if (List.range 64).map (Config.chainDigest chain) ≠ (g.image.drop 0x60).take 64 then t.refuseRestore g 3
    else if s.pmeas (s.partOf g.job) ≠ (g.image.drop 0x20).take 64 then t.refuseRestore g 4
    else t := by
  unfold failsCheck
  simp only [Bool.not_eq_true', apply_ite (goesOn t g)]
  rfl

/-- The reads of a restore leave the number of the next request. -/
theorem restoreReads_nextGlaze (s : State) (ch : Nat) : (restoreReads s ch).1.nextGlaze = s.nextGlaze := by
  simp only [restoreReads, secBytes_nextGlaze]

/-- A restore for which there is staging space is taken on, and refused at once for the first of the checks 1 to 4 that it fails
(R375, R464). -/
theorem exec_glazeRestore_checks {s : State} {ch : Nat} (h : due s ch 11 28) (hnamed : s.jobNamed (s.req ch 8 8) = true)
    (hsrc : s.req ch 0 8 < 2 ^ 52) (hchain : s.req ch 16 8 < 2 ^ 52) (hvf : s.vfFailed (s.req ch 8 8) = false)
    (hroom : s.stagingRoom (restorePages s ch) = true) :
    let r := restoreReads s ch
    let g := restoreReq s ch r.2.1
    exec (.glazeRestore ch) s = .next (goesOn { r.1 with glazes := r.1.glazes ++ [g], nextGlaze := r.1.nextGlaze + 1 } g
      (failsCheck r.1 r.2.2 g)) := by
  rcases h1 : s.secBytes (s.req ch 0 8) 0x18 with ⟨s1, head⟩
  rcases h2 : s1.secBytes (s.req ch 0 8 + 0x18) (imageLen (leNat (head.drop 0x10)) - 0x18) with ⟨s2, body⟩
  rcases h3 : s2.secBytes (s.req ch 16 8) 2 with ⟨s3, len⟩
  rcases h4 : s3.secBytes (s.req ch 16 8 + 2) (leNat len - 2) with ⟨s4, more⟩
  have hpages : restorePages s ch = imagePages (imageLen (leNat (head.drop 0x10))) := by simp only [restorePages, h1]
  have hreads : restoreReads s ch = (s4, head ++ body, (len ++ more).take (leNat len)) := by simp only [restoreReads, h1, h2, h3, h4]
  have hspace : s1.stagingRoom (imagePages (imageLen (leNat (head.drop 0x10)))) = true := by
    rw [← hpages, stagingRoom_congr (by simpa only [h1] using secBytes_glazes s (s.req ch 0 8) 0x18), hroom]
  have hnext : s4.nextGlaze = s.nextGlaze := by simpa only [hreads] using restoreReads_nextGlaze s ch
  intro r g
  refine next_serve_due h (by omega) ?_
  simp only [r, g, hreads, goesOn_failsCheck, restoreReq, hpages]
  simp only [hnamed, Nat.not_le.mpr hsrc, Nat.not_le.mpr hchain, hvf, h1, h2, h3, h4, hspace, hnext, decide_false, Bool.not_true,
    Bool.or_self, Bool.false_eq_true, if_false]

/-- Settles O53: each clause is one stage of a request, as its lemma above says. -/
theorem glazeRequests : Obligations.GlazeRequests :=
  fun _ =>
    ⟨fun _ _ _ _ h hlt hzero hnamed hbufs hwin hbound hvf hc hroom =>
        exec_glazeWrite_stages rfl rfl rfl rfl h hlt hzero hnamed hbufs hwin hbound hvf hc hroom,
      fun _ _ _ _ _ hg hc => exec_glazeStagingComplete_fixes hg hc,
      fun _ _ hg hpass htaint => exec_bisqueGateOpen_opens hg hpass htaint,
      fun _ _ hg => ⟨fun _ he => exec_bisqueGateOpen_retired hg he, fun hin htaint => exec_bisqueGateOpen_tainted hg hin htaint⟩,
      fun _ _ ok key hg => ⟨exec_keyServiceResponse_write hg ok key, exec_keyServiceResponse_restore hg ok key⟩,
      fun _ _ hg => exec_glazeSignComplete_drains hg,
      fun _ h hnamed hsrc hchain hvf hroom => exec_glazeRestore_checks h hnamed hsrc hchain hvf hroom⟩

end Sys2Proof.Machine

namespace Sys2Proof.Machine

open Sys2Proof.Claims

/-! ## Loads from scratchpads (R185, R188) -/

theorem exec_ld (h : Hdr) (a64 : Bool) (dst : BitVec 8) (a b : Src) (e : Ext) (s : State) :
    exec (.ld h a64 dst a b e) s = execLd h a64 dst a b e s := rfl

/-- A memory form whose words and registers are sound does not fault. -/
theorem loadForm_fault {m : MemIns} {row : MemRow} {h : Hdr} {dst : BitVec 8} {l : Lane}
    (hs : MemForm.sound ⟨m, row, h, dst.toNat⟩ l) : (loadForm m row h dst).fault l = none := by
  obtain ⟨hbad, hdst⟩ := hs
  simp [loadForm, illegal, hbad, hdst]

/-- An active thread with the words that its load gives it. -/
def loadedThread (s : State) (l : Lane) (f : MemForm) (sx : Bool) (place : Nat → ScrLoc) (k : Nat) : Thread :=
  ((l.advance l.w.batch 16).w.th k).setWords f.dst
    (loadWords (wordsAt (scratch s (place k).wg) (place k).off f.m.n) (place k).off f.m.n sx)

/-- The operands of thread `k` of a memory instruction, on a lane whose batch has advanced. -/
theorem args_advanced {m : MemIns} {h : Hdr} {l c : Lane} {k : Nat} (hk : k < 32) (hs : c.w.s = l.w.s)
    (hth : c.w.th k = (l.advance l.w.batch 16).w.th k) (hc : memClean m l k) (pc : VAddr) (disc : Bool) :
    m.args h pc disc c k = (c, memArgs m h l k) :=
  args_moved m h pc disc l c k hs (by rw [hth]; exact advance_data l _ _ hk) hc

/-- Every active thread loads from a scratchpad: the machine stays, and one access of each is counted. -/
theorem ld_fold {s : State} {l : Lane} {f : MemForm} {place : Nat → ScrLoc} (hl : s.lane? = some l)
    (hp : ∀ k ∈ active l f.h, memClean f.m l k ∧ (memArgs f.m f.h l k).addr = none ∧ (memArgs f.m f.h l k).guard = none ∧
      memPlace f.m f.row f.h s l k = .ok (.scr (place k)) ∧ (scratch s (place k).wg).bad = []) :
    let c := (active l f.h).foldl (loadOne f.m f.row f.h f.dst none l.w.pc) ⟨s, l.advance l.w.batch 16⟩
    c.s = s ∧ c.l = { l.advance l.w.batch 16 with w := { (l.advance l.w.batch 16).w with
        thr := c.l.w.thr, po := l.w.po + (active l f.h).length, nextId := l.w.nextId + (active l f.h).length } } ∧
      ∀ u < 32, c.l.w.th u =
        if u ∈ active l f.h then loadedThread s l f (exSx f.m.e) place u else (l.advance l.w.batch 16).w.th u := by
  refine foldl_counted _ (loadedThread s l f (exSx f.m.e) place) s (l.advance l.w.batch 16) (active l f.h)
    ⟨s, l.advance l.w.batch 16⟩ (active_nodup l f.h) (fun k hk => active_lt hk) rfl rfl (fun _ _ => rfl) ?_
  intro d k hk hs hd hth
  obtain ⟨hclean, haddr, hguard, hplace, hbad⟩ := hp k hk
  obtain ⟨hg, -⟩ := lane?_wg hl
  have hscr : ∀ g, d.scr g = scratch s g := scr_of_lane hg hs (by rw [hd]; rfl) (by rw [hd]; rfl)
  have hone := loadOne_clean f.m f.row f.h f.dst l.w.pc l d k (place k)
    (args_advanced (active_lt hk) (by rw [hd]; rfl) hth hclean _ _) haddr hguard
    (by rw [check_alike (counted_alike s l 16 l.w.batch d hs hd)]; exact hplace) (by rw [hscr]; exact hbad)
  rw [hone, hscr, hth]
  rfl

/-- Settles O19: each active thread takes its words in turn, and the machine around the lane stays. -/
theorem scratchLoad : Obligations.ScratchLoad := by
  intro s l h a64 dst a b e f hl hf hsound hready hhold place hp
  cases hf
  obtain ⟨hcs, hcl, hth⟩ := ld_fold (f := ⟨⟨a64, a, some b, none, none, e⟩, ldRow, h, dst.toNat⟩) hl hp
  generalize hc : (active l h).foldl _ (⟨s, l.advance l.w.batch 16⟩ : Ctx) = c at hcs hcl hth
  obtain ⟨m, he, hm, hmw, hpast, hact, hidle, hother⟩ := runC_done (.ld h a64 dst a b e)
    (loadForm ⟨a64, a, some b, none, none, e⟩ ldRow h dst) _ _
    (loadedThread s l ⟨⟨a64, a, some b, none, none, e⟩, ldRow, h, dst.toNat⟩ (exSx e) place) s l c hl
    (exec_ld h a64 dst a b e s) hready (loadForm_fault hsound)
    (by simp only [loadForm, hhold, Bool.and_false]) hc hth
    (fun u hu => by
      obtain ⟨-, hpc, hst⟩ := setWords_in ((l.advance l.w.batch 16).w.th u) dst.toNat
        (loadWords (wordsAt (scratch s (place u).wg) (place u).off _) (place u).off _ (exSx e))
      have hadv := advance_past 16 hu
      exact ⟨hpc.trans hadv.1.1, hst.trans hadv.1.2⟩)
  rw [hcs] at he
  refine ⟨_, m.w, he, putLane_only hl (by rw [hm, hcl]; rfl) (by rw [hm, hcl]; rfl) (by rw [hm, hcl]; rfl), ?_, hpast,
    fun k hk => ?_, hidle, hother⟩
  · unfold onlyCounted
    rw [hmw, hcl]
    rfl
  · exact wordsIn_kept (wordsIn_from (setWords_in _ _ _).1 (advance_past 16 hk).2) (hact k hk)

end Sys2Proof.Machine

namespace Sys2Proof.Machine

open Sys2Proof.Claims

/-! ## `prefetch` and `fence` (R192, R198) -/

/-- The form of `prefetch`. -/
def prefetchForm (h : Hdr) (a64 : Bool) (a b : Src) (e : Ext) : Form :=
  let m : MemIns := ⟨a64, a, some b, none, none, e⟩
  { h, size := memSize, chains := false, regs := m.regs, fault := fun l => illegal (m.bad prefetchRow l) }

theorem exec_prefetch (h : Hdr) (a64 : Bool) (a b : Src) (e : Ext) (s : State) :
    exec (.prefetch h a64 a b e) s = (prefetchForm h a64 a b e).execC (fun _ _ => false) (fun _ _ c => c) s := rfl

/-- The form of `fence`. -/
def fenceForm (h : Hdr) : Form := { h, size := 8, chains := false, regs := [], fault := fun _ => none }

/-- What `fence` of the active threads `act` at `pc` makes of the lane. -/
def Lane.fence (l : Lane) (sc : Scope) (k : FenceKind) (pc : VAddr) (act : List Nat) : Lane :=
  let l := l.addAcc (.fence k) 0 pc 0 0 255 ((maskOf act).setWidth 64) 0 0
    (match sc with | .thr => 0 | .wg => 1 | .kln => 2 | .dev => 3 | .fab => 4) .walk
  { l with w := l.w.dropFences }

theorem exec_fence (h : Hdr) (sc : Scope) (k : FenceKind) (s : State) :
    exec (.fence h sc k) s = (fenceForm h).execC (fun _ _ => false)
      (fun pc act c => if act.isEmpty then c else c.onL (fun l => l.fence sc k pc act)) s := rfl

/-- A body that leaves the threads where the batch has advanced to: what it makes of the rest stays. -/
theorem runC_moved {i : Instr} {f : Form} {wait : Ctx → List Nat → Bool} {body : VAddr → List Nat → Ctx → Ctx} {s : State} {l : Lane}
    {c : Ctx} (hl : s.lane? = some l) (he : exec i s = f.execC wait body s) (hr : l.w.ready f.regs = true) (hf : f.fault l = none)
    (hw : wait ⟨s, l⟩ (active l f.h) = false) (hc : body l.w.pc (active l f.h) ⟨s, l.advance l.w.batch f.size⟩ = c)
    (hth : ∀ u < 32, c.l.w.th u = (l.advance l.w.batch f.size).w.th u) :
    ∃ m : Lane, exec i s = .next (c.s.putLane m) ∧ m = { c.l with w := m.w } ∧ m.w = { c.l.w with thr := m.w.thr, chain := 0 } ∧
      moved f.size l m.w := by
  obtain ⟨m, hx, hm, hmw, hpast, hact, hidle, hother⟩ := runC_done i f wait body (fun u => (l.advance l.w.batch f.size).w.th u) s l c
    hl he hr hf hw hc (fun u hu => by rw [hth u hu]; split <;> rfl) (fun u hu => (advance_past f.size hu).1)
  refine ⟨m, hx, hm, hmw, fun k hk => ⟨hpast k hk, ?_⟩, hother⟩
  by_cases ha : k ∈ active l f.h
  · exact kept_trans (advance_past f.size ha).2 (hact k ha)
  · exact hidle k hk ha

theorem prefetch_moves {s : State} {l : Lane} {h : Hdr} {a64 : Bool} {a b : Src} {e : Ext} (hl : s.lane? = some l)
    (hbad : MemIns.bad ⟨a64, a, some b, none, none, e⟩ prefetchRow l = false)
    (hready : l.w.ready (MemIns.regs ⟨a64, a, some b, none, none, e⟩) = true) :
    ∃ t w, exec (.prefetch h a64 a b e) s = .next t ∧ onlyWarp s t l w ∧ onlyThreads l w ∧ moved 16 l w := by
  obtain ⟨m, he, hm, hmw, hmoved⟩ := runC_moved hl (exec_prefetch h a64 a b e s) hready
    (by simp only [prefetchForm, hbad]; rfl) rfl rfl (fun _ _ => rfl)
  refine ⟨_, m.w, he, putLane_only hl (by rw [hm]; rfl) (by rw [hm]; rfl) (by rw [hm]; rfl), ?_, hmoved⟩
  unfold onlyThreads
  rw [hmw]
  rfl

/-- Accesses that stay in the program order: those that are no fences, and fences that still hold something back. -/
theorem mem_dropFences (w : Warp) (a : Acc) :
    a ∈ w.dropFences.accs ↔ a ∈ w.accs ∧ ∀ f, a.kind = .fence f → w.passed a f = false := by
  simp only [Warp.dropFences, List.mem_filter]
  refine and_congr_right (fun _ => ?_)
  cases hk : a.kind with
  | fence f => simp
  | load sx => simp
  | atom op => simp
  | cas => simp
  | waiteq => simp

theorem mem_fencing (l : Lane) (h : Hdr) (sc : Scope) (k : FenceKind) (a : Acc) :
    a ∈ (fencing l h sc k).accs ↔ a ∈ l.w.accs ∨ a = fenceAcc l h sc k := by simp [fencing]

theorem fence_idle {s : State} {l : Lane} {h : Hdr} (sc : Scope) (k : FenceKind) (hl : s.lane? = some l) (hact : active l h = []) :
    ∃ t w, exec (.fence h sc k) s = .next t ∧ onlyWarp s t l w ∧ moved 8 l w ∧ onlyThreads l w := by
  obtain ⟨m, he, hm, hmw, hmoved⟩ := runC_moved (c := ⟨s, l.advance l.w.batch 8⟩) hl (exec_fence h sc k s) (nothing_ready _) rfl rfl
    (by show (if (active l h).isEmpty then _ else _) = _
        rw [hact]; rfl) (fun _ _ => rfl)
  refine ⟨_, m.w, he, putLane_only hl (by rw [hm]; rfl) (by rw [hm]; rfl) (by rw [hm]; rfl), hmoved, ?_⟩
  unfold onlyThreads
  rw [hmw]
  rfl

theorem fence_stands {s : State} {l : Lane} {h : Hdr} (sc : Scope) (k : FenceKind) (hl : s.lane? = some l) (hact : active l h ≠ []) :
    ∃ t w, exec (.fence h sc k) s = .next t ∧ onlyWarp s t l w ∧ moved 8 l w ∧
      w = { fencing l h sc k with thr := w.thr, chain := 0, accs := w.accs } ∧
      ∀ a, a ∈ w.accs ↔ (a ∈ l.w.accs ∨ a = fenceAcc l h sc k) ∧ ∀ f, a.kind = .fence f → (fencing l h sc k).passed a f = false := by
  obtain ⟨m, he, hm, hmw, hmoved⟩ := runC_moved (c := ⟨s, (l.advance l.w.batch 8).fence sc k l.w.pc (active l h)⟩) hl
    (exec_fence h sc k s) (nothing_ready _) rfl rfl
    (by show (if (active l h).isEmpty then _ else _) = _
        rw [if_neg (by simpa using hact)]; rfl) (fun _ _ => rfl)
  have hw : ((l.advance l.w.batch 8).fence sc k l.w.pc (active l h)).w =
      Warp.dropFences { fencing l h sc k with thr := (l.advance l.w.batch 8).w.thr } := rfl
  refine ⟨_, m.w, he, putLane_only hl (by rw [hm]; rfl) (by rw [hm]; rfl) (by rw [hm]; rfl), hmoved, ?_, fun a => ?_⟩
  · rw [hmw, hw]
    rfl
  · have haccs : m.w.accs = (Warp.dropFences { fencing l h sc k with thr := (l.advance l.w.batch 8).w.thr }).accs := by rw [hmw, hw]
    rw [haccs, mem_dropFences]
    exact and_congr (mem_fencing l h sc k a) Iff.rfl

/-- Settles O25: both move the batch; a `fence` of active threads stands among the accesses until it holds nothing back. -/
theorem prefetchAndFence : Obligations.PrefetchAndFence := by
  refine ⟨fun s l h a64 a b e f hl hf hbad hready => ?_, fun s l h sc k hl => ?_⟩
  · cases hf
    exact prefetch_moves hl hbad hready
  · by_cases hact : active l h = []
    · obtain ⟨t, w, he, ho, hm, hth⟩ := fence_idle sc k hl hact
      exact ⟨t, w, he, ho, hm, fun _ => hth, fun hne => absurd hact hne⟩
    · obtain ⟨t, w, he, ho, hm, hw, haccs⟩ := fence_stands sc k hl hact
      exact ⟨t, w, he, ho, hm, fun h0 => absurd h0 hact, fun _ => ⟨hw, haccs⟩⟩

end Sys2Proof.Machine

namespace Sys2Proof.Machine

open Sys2Proof.Claims

/-! ## Commits of regions and of implicit regions (R187, R207, R302, R411, R414, R472) -/

section

variable {s : State} {r : WRef} {l : Lane}

/-- A warp of an unpaired workgroup never waits for the agreement of its leader. -/
theorem slackFull_unpaired (hp : l.wg.pair = none) : Ctx.slackFull ⟨s, l⟩ = false := by
  simp [Ctx.slackFull, hp]

theorem scbFull_unpaired (hp : l.wg.pair = none) : Ctx.scbFull ⟨s, l⟩ = false := by
  simp [Ctx.scbFull, Lane.paired, hp]

/-- An unpaired warp releases its whole region: it stays open until its items have arrived. -/
theorem release_whole (hp : l.wg.pair = none) (g : Region) (q : CommitReq) :
    l.release g g.members q.released q.pc true false (some q) = { l with w := { l.w with
      rels := l.w.rels ++ [wholeRelease g q],
      items := l.w.items.map (fun i => if i.tag = g.tag ∧ g.members.getLsbD i.thread then { i with sent := true } else i),
      region := some { g with commit := none, pending := g.pending.filter (fun e => !g.members.getLsbD e.1) } } } := by
  simp only [Lane.release, Lane.paired, hp, Option.any_none, Option.isSome_none, Bool.not_false,
    Bool.and_true, Bool.false_eq_true, if_false, if_true]
  rfl

/-- A decision for a region without member crazes. -/
theorem decide_clean {g : Region} {q : CommitReq} (hp : l.wg.pair = none) (hg : l.w.region = some g) (hz : g.crazed q.keep = 0)
    (gone : Bool) : Ctx.decide ⟨s, l⟩ q gone = ⟨s, l.release g g.members q.released q.pc true false (some q)⟩ := by
  simp only [Ctx.decide, hg, hz, if_true, scbFull_unpaired hp, Ctx.onL]

theorem mismatchCrazes_none {g : Region} (h : g.crz14 = false) (c : Ctx) (pc : VAddr) : c.mismatchCrazes g pc = c := by
  simp [Ctx.mismatchCrazes, h]

theorem commitDecide_releases {g : Region} {q : CommitReq} (hl : s.laneOf r = some l) (hp : l.wg.pair = none)
    (hg : l.w.region = some g) (hq : g.commit = some q) (hready : l.commitReady g = true) (hset : Ctx.settled ⟨s, l⟩ = false)
    (h14 : g.crz14 = false) (hz : g.crazed q.keep = 0) (hpass : Ctx.checkPass ⟨s, l⟩ g = ⟨s, l⟩) :
    exec (.commitDecide r g.tag) s = .next (s.putLane (ended (l.release g g.members q.released q.pc true false (some q)))) := by
  have htag : (some g).filter (fun x => x.tag == g.tag) = some g := by simp
  refine (rfl : exec (.commitDecide r g.tag) s = execCommitDecide r g.tag s).trans (onWarp_is hl ?_)
  simp only [hg, htag, hq, Option.isSome_some, if_true, hready, hset, hpass, mismatchCrazes_none h14, slackFull_unpaired hp,
    Bool.not_true, Bool.or_self, Bool.and_false, Bool.false_eq_true, if_false, decide_clean hp hg hz]

/-- An implicit region whose items every slice has acknowledged. -/
theorem commitComplete_implicit {tag : Nat} (hl : s.laneOf r = some l) (hlead : l.leader = none)
    (hdone : ∀ i ∈ l.w.items, i.tag = tag → i.sent = true → i.stage = .released ∨ i.stage = .refused)
    (hrel : l.w.rels.find? (fun x => x.tag == tag && x.agreed) = none)
    (himp : (l.w.implicit.find? (fun i => i.tag == tag && i.decided && i.agreed)).isSome) :
    exec (.commitComplete r tag) s = .next (s.putLane (ended { l with wg := { l.wg with stamp := l.clock }, w := { l.w with
      items := l.w.items.filter (fun i => i.tag != tag), implicit := l.w.implicit.filter (fun i => i.tag != tag) }.dropFences })) := by
  obtain ⟨i, hi⟩ := Option.isSome_iff_exists.mp himp
  have hall : l.w.items.all (fun i => !(i.tag == tag && i.sent) || i.stage == .released || i.stage == .refused || false) = true := by
    rw [List.all_eq_true]
    intro x hx
    by_cases ht : x.tag = tag ∧ x.sent = true
    · rcases hdone x hx ht.1 ht.2 with hs | hs <;> simp [hs]
    · have : (x.tag == tag && x.sent) = false := by simpa using ht
      rw [this]
      rfl
  refine (rfl : exec (.commitComplete r tag) s = execCommitComplete r tag s).trans (onWarp_is hl ?_)
  simp only [Ctx.commitComplete, hlead, Option.isSome_none, hall, hrel, hi, Bool.not_true, Bool.false_eq_true, if_false]
  rfl

end

/-- Settles O44: the decision finds no craze and releases the region; the completion ends the implicit region with its stamp. -/
theorem commitEvents : Obligations.CommitEvents :=
  ⟨fun _ _ _ g q hl hp hg hq hready hset h14 hz hpass => by
      rw [commitDecide_releases hl hp hg hq hready hset h14 hz hpass, release_whole hp g q],
    fun _ _ _ _ hl hlead hdone hrel himp => commitComplete_implicit hl hlead hdone hrel himp⟩

end Sys2Proof.Machine

namespace Sys2Proof.Machine

open Sys2Proof.Claims

/-! ## Walks, home slices, returning data, fetches (R185 to R197, R287 to R292, R304, R406, R420) -/

section

variable {s s' : State} {r : WRef} {l : Lane}

theorem exec_tlbWalkComplete_acc {id dpa : Nat} {tlb rmt : Bool} {gen : BitVec 16} {key : BitVec 8} {a : Acc} (hl : s.laneOf r = some l)
    (ha : accAt l id .walk a) (ht : s.translate (some l.wg.core) l.wg.vf a.va a.kind.need tlb = (s', .ok dpa gen key rmt)) :
    exec (.tlbWalkComplete r id tlb) s = .next (s'.putLane (ended (accNow l { a with stage := .home, dpa, gen, key, rmt }))) := by
  unfold accAt at ha
  refine (rfl : _ = execTlbWalkComplete r id tlb s).trans (onWarp_is hl ?_)
  simp only [ha, ht]
  rfl

theorem exec_tlbWalkComplete_item {id dpa : Nat} {tlb rmt : Bool} {gen : BitVec 16} {key : BitVec 8} {i : Item} (hl : s.laneOf r = some l)
    (hno : ∀ a, ¬ accAt l id .walk a) (hi : itemAt l id .walk i) (hex : l.explicit i = none)
    (hfirst : l.w.items.any (fun x => x.tag == i.tag && x.stage == .walk && decide (x.po < i.po)) = false)
    (ht : s.translate (some l.wg.core) l.wg.vf i.va (if i.kind = .store then .store else .red) tlb = (s', .ok dpa gen key rmt)) :
    exec (.tlbWalkComplete r id tlb) s = .next (s'.putLane (ended (itemNow l { i with stage := .sagger, dpa, gen, key, rmt }))) := by
  have hnone : l.w.accs.find? (fun x => x.id == id && x.stage == .walk && !x.performed) = none := Option.eq_none_iff_forall_ne_some.mpr hno
  unfold itemAt at hi
  refine (rfl : _ = execTlbWalkComplete r id tlb s).trans (onWarp_is hl ?_)
  simp only [hnone, hi, walkItem, hfirst, hex, ht, Bool.false_eq_true, if_false]
  rfl

/-- An access of a lane that may go to its home slice now. -/
structure MayAccess (s s' : State) (l : Lane) (id : Nat) (a : Acc) : Prop where
  here : accAt l id .home a
  first : l.w.accWaits a = false
  copies : Ctx.copyBefore ⟨s, l⟩ a.po a.va a.n (a.kind.need == .atomic) = false
  notRemote : a.rmt = false
  settled : s.releasingAny a.dpa a.n = false
  checks : Ctx.homeChecks ⟨s, l⟩ a.dpa a.n a.gen (Ctx.races ⟨s, l⟩ a.dpa a.n) = (⟨s', l⟩, none)

/-- Such an access, when it is not a trailer's atomic, is performed on the words of memory. -/
theorem exec_homeSliceAccess_performs {id : Nat} {a : Acc} {t : State} {m : Lane} (answer : PeerAnswer) (hl : s.laneOf r = some l)
    (ha : MayAccess s s' l id a) (hlead : (a.kind.need = .atomic) → l.leader = none)
    (hp : Ctx.perform ⟨s', l⟩ a (s'.memWords a.key.toNat a.dpa a.n) = ⟨t, m⟩) :
    exec (.homeSliceAccess r id answer) s = .next (t.putLane (ended m)) := by
  obtain ⟨hhere, hfirst, hcopies, hlocal, hsettled, hchecks⟩ := ha
  unfold accAt at hhere
  have htrail : (decide (a.kind.need = .atomic) && l.leader.isSome) = false := by
    by_cases hn : a.kind.need = .atomic
    · rw [hlead hn, Option.isSome_none, Bool.and_false]
    · rw [decide_eq_false hn, Bool.false_and]
  refine (rfl : _ = execHomeSliceAccess r id answer s).trans (onWarp_is hl ?_)
  simp only [hhere, hfirst, hcopies, htrail, hlocal, hsettled, hchecks, hp, Bool.or_self, Bool.false_eq_true, if_false]

theorem exec_homeSliceAccess_load {id : Nat} {a : Acc} {sx : Bool} (answer : PeerAnswer) (hl : s.laneOf r = some l)
    (ha : MayAccess s s' l id a) (hk : a.kind = .load sx) :
    exec (.homeSliceAccess r id answer) s = .next (s'.putLane (ended (accNow l
      { a with stage := .done (l.w.forward a.po a.va a.dpa a.n (s'.memWords a.key.toNat a.dpa a.n)) }))) := by
  refine exec_homeSliceAccess_performs answer hl ha (fun h => ?_) ?_
  · rw [hk] at h
    exact Need.noConfusion h
  · simp only [Ctx.perform, hk]
    rfl

/-- Without a leader, an atomic leaves its old words and what it stored. -/
theorem perform_atomic {a : Acc} {op : Nat} (hk : accOp a.kind = some op) (hp : l.wg.pair = none) :
    Ctx.perform ⟨s', l⟩ a (s'.memWords a.key.toNat a.dpa a.n) = ⟨farStored s' a op, accNow l { a with stage := .done (farAtom s' a op).2 }⟩ := by
  have hq : l.wg.pair.any Prod.snd = false := by rw [hp]; rfl
  unfold Ctx.perform farStored farAtom
  cases hkind : a.kind with
  | atom k =>
    rw [hkind] at hk
    cases hk
    dsimp only
    obtain ⟨_ | v, old⟩ := atomStep op a.n a.x.toNat a.cmp.toNat (s'.memWords a.key.toNat a.dpa a.n)
    all_goals exact congrArg (Ctx.mk _) (if_neg (ne_true_of_eq_false hq))
  | cas =>
    rw [hkind] at hk
    cases hk
    dsimp only
    obtain ⟨_ | v, old⟩ := atomStep 255 a.n a.x.toNat a.cmp.toNat (s'.memWords a.key.toNat a.dpa a.n)
    all_goals exact congrArg (Ctx.mk _) (if_neg (ne_true_of_eq_false hq))
  | load sx => rw [hkind] at hk; cases hk
  | waiteq => rw [hkind] at hk; cases hk
  | fence f => rw [hkind] at hk; cases hk

theorem exec_homeSliceAccess_atomic {id op : Nat} {a : Acc} (answer : PeerAnswer) (hl : s.laneOf r = some l)
    (ha : MayAccess s s' l id a) (hk : accOp a.kind = some op) (hp : l.wg.pair = none) :
    exec (.homeSliceAccess r id answer) s =
      .next ((farStored s' a op).putLane (ended (accNow l { a with stage := .done (farAtom s' a op).2 }))) :=
  exec_homeSliceAccess_performs answer hl ha (fun _ => by rw [Lane.leader, hp]) (perform_atomic hk hp)

/-- The data of a performed access that is no `waiteq` reaches the registers, and the access is over. -/
theorem exec_loadDataReturn_returns {id : Nat} {a : Acc} {ws : List TWord} (hl : s.laneOf r = some l)
    (ha : l.w.accs.find? (fun x => x.id == id) = some a) (hd : a.stage = .done ws) (hk : a.kind ≠ .waiteq) :
    let w := { l.w with accs := l.w.accs.filter (fun x => x.id != a.id) }
    exec (.loadDataReturn r id) s = .next (s.putLane (ended { l with w :=
      (w.setTh a.thread ((l.w.th a.thread).setWords a.dst (loadWords ws a.va a.n (accSx a.kind)))).dropFences })) := by
  refine (rfl : _ = execLoadDataReturn r id s).trans (onWarp_is hl ?_)
  simp only [ha, hd, Ctx.onL, Lane.finishAcc, hk, if_false]
  rfl

theorem exec_instructionFetch_keeps {tlb : Bool} {answer : List Byte} {dpa : Nat} {gen : BitVec 16} {key : BitVec 8}
    (hl : s.laneOf r = some l) (hb : l.w.batch ≠ [])
    (ht : s.translate (some l.wg.core) l.wg.vf (l.w.pc.toNat / 32 * 32) .fetch tlb = (s', .ok dpa gen key false))
    (hs : s'.releasingAny dpa 32 = false) (hc : Ctx.homeChecks ⟨s', l⟩ dpa 32 gen false = (⟨s', l⟩, none)) :
    exec (.instructionFetch r tlb answer) s = .next (s'.putLane (ended { l with w := { l.w with
      kept := Tabs.put l.w.kept (l.w.pc.toNat / 32 * 32 / 32)
        ((s'.memWords key.toNat dpa 32).flatMap (fun w => leBytes 4 w.val.toNat)) } })) := by
  refine (rfl : _ = execInstructionFetch r tlb answer s).trans (onWarp_is hl ?_)
  simp only [List.isEmpty_iff, hb, Ctx.fetch, ht, hs, hc, Bool.false_eq_true, if_false]
  rfl

end

/-- Settles O42: an equation for each event on its good path. -/
theorem accessEvents : Obligations.AccessEvents :=
  ⟨fun _ _ _ _ _ _ _ _ _ _ hl =>
      ⟨fun _ ha ht => exec_tlbWalkComplete_acc hl ha ht,
        fun _ hno hi hex hfirst ht => exec_tlbWalkComplete_item hl hno hi hex hfirst ht⟩,
    fun _ _ _ _ answer _ _ hl hhere hfirst hcopies hlocal hsettled hchecks =>
      have ha := MayAccess.mk hhere hfirst hcopies hlocal hsettled hchecks
      ⟨fun _ hk => exec_homeSliceAccess_load answer hl ha hk, fun _ hk hp => exec_homeSliceAccess_atomic answer hl ha hk hp⟩,
    fun _ _ _ _ _ _ hl ha hd hk => exec_loadDataReturn_returns hl ha hd hk,
    fun _ _ _ _ _ _ _ _ _ hl hb ht hs hc => exec_instructionFetch_keeps hl hb ht hs hc⟩

end Sys2Proof.Machine

namespace Sys2Proof.Machine

open Sys2Proof.Claims

/-! ## Operands of `bar` and `trap` in a latch (R98, R200, R212)

A warp-level instruction ends the chain before its released threads execute, so an operand that names a latch finds it invalid and
originates a craze of cause 0x03, whatever the latch held while the thread was parked. -/

/-- A thread that convergence has released at 0x40, with the clean value 1 in `l0`. -/
def latchThread : Thread := { Thread.at_ 0x40 with st := .released, l0 := some ⟨1, false⟩ }

/-- A warp with this thread alone. -/
def latchWarp : Warp := { Warp.one 0x40 with thr := latchThread :: List.replicate 31 Thread.vacant }

/-- A workgroup of this warp. -/
def latchWg : Wg := { Wg.one 0x40 with warps := [latchWarp] }

/-- A machine that issues this warp, its service ring enabled. -/
def latchState : State := { State.reset.vwr 0 Reg.srbase 4 with cur := some ⟨0, 0⟩, wgs := [(0, latchWg)], nextWg := 1 }

/-- The lane that issues. -/
def latchLane : Lane := ⟨⟨0, 0⟩, latchWg, latchWarp, Core.empty, 0, false⟩

theorem latchState_lane : latchState.lane? = some latchLane := rfl

/-- No guard. -/
def plainHdr : Hdr := ⟨7, false, false⟩

theorem latch_released : released latchLane = [0] := by decide

/-- The state of thread 0 after an instruction. -/
def stAfter : Out → Option TState
  | .next t => (t.warp? ⟨0, 0⟩).map (fun p => (p.2.th 0).st)
  | _ => none

/-- A thread that waits after an instruction of this machine is parked. -/
theorem stAfter_waits {i : Instr} {t : State} {w : Warp} {g : Wg} {p : Park} (he : exec i latchState = .next t)
    (hw : t.warp? latchLane.ref = some (g, w)) (hwait : waits p latchLane w) : stAfter (exec i latchState) = some (.parkedEvent p) := by
  obtain ⟨hrel, -⟩ := hwait
  obtain ⟨-, -, hst⟩ := hrel 0 (by rw [latch_released]; exact List.mem_singleton_self 0)
  have hw' : t.warp? ⟨0, 0⟩ = some (g, w) := hw
  rw [he, stAfter, hw', Option.map_some, hst]

/-- `bar` with its count in `l0`: the thread exits, as its kernel has no vector table. -/
theorem bar_latch_exits : stAfter (exec (.bar plainHdr 0 false (some (.latch false))) latchState) = some .exited := by decide

/-- `trap` with its first operand in `l0`. -/
theorem trap_latch_exits : stAfter (exec (.trap plainHdr 255 (.latch false) (.imm 0) (.imm 0) 0) latchState) = some .exited := by decide

/-- Refutes O30: the count of a `bar` may name a latch, which holds a clean 1 before the instruction and is invalid when it
executes, so the released thread derails and does not wait at the barrier. -/
theorem not_barriersReached : ¬ Obligations.BarriersReached := by
  rintro ⟨hbar, -⟩
  have hcount : barCount latchLane ((released latchLane).headD 0) (some (.latch false)) (some 1) :=
    ⟨1, by decide, by decide, by decide, by decide, by decide, by decide⟩
  obtain ⟨t, w, he, ⟨-, -, hwarp, -, -⟩, -, hwaits⟩ := hbar latchState latchLane plainHdr 0 false (some (.latch false)) (some 1)
    latchState_lane (by decide) (by decide) (by unfold nothingOut; decide) (by decide) hcount
  have hst := stAfter_waits he hwarp hwaits
  rw [bar_latch_exits] at hst
  cases hst

/-- Refutes O34: an operand of a `trap` may name a latch, which holds a clean 1 before the instruction and is invalid when it
executes, so the released thread derails and does not wait for the host. -/
theorem not_trapWaits : ¬ Obligations.TrapWaits := by
  intro h
  obtain ⟨t, w, he, ⟨-, -, hwarp, -, -⟩, hwaits, -⟩ := h latchState latchLane plainHdr 255 (.latch false) (.imm 0) (.imm 0) 0
    latchState_lane (by decide) (by decide) (by decide) (by decide) (by decide) (by decide) (by decide) (fun _ => [1, 0, 0]) (by decide)
  have hst := stAfter_waits he hwarp hwaits
  rw [trap_latch_exits] at hst
  cases hst

end Sys2Proof.Machine

namespace Sys2Proof.Machine

open Sys2Proof.Claims

/-! ## `commit` (R411, R414) -/

/-- The released threads that are members of the open region. -/
def releasedMembers (l : Lane) : List Nat := (released l).filter l.w.member

theorem releasedMembers_released {l : Lane} {k : Nat} (h : k ∈ releasedMembers l) : k ∈ released l := (List.mem_filter.mp h).1

theorem releasedMembers_nodup (l : Lane) : (releasedMembers l).Nodup := (released_nodup l).filter _

theorem member_of_flow {l m : Lane} (h : m.SameButFlow l) : m.w.member = l.w.member := by
  funext k
  rw [Warp.member, h.region, ← Warp.member]

/-- The lane with the request of a `commit` in its region `g`, the released threads moved past it. -/
def Lane.requested (l : Lane) (g : Region) (each r keep : Bool) : Lane :=
  { l.passed 8 with w := { (l.passed 8).w with region := some { g with commit := some ⟨each, r, keep, maskOf (releasedMembers l), l.w.pc⟩ } } }

/-- The lane after a `commit` of its released threads, before yields and convergence. -/
def Lane.committing (l : Lane) (g : Region) (each r keep : Bool) : Lane :=
  if releasedMembers l = [] then l.passed 8 else (l.requested g each r keep).parkAll (releasedMembers l) l.w.pc .commit

theorem exec_commit_parks {s : State} {l : Lane} {h : Hdr} {g : Region} (each r keep : Bool) (hl : s.lane? = some l)
    (hu : unguarded h = true) (hr : released l ≠ []) (hg : l.w.region = some g) :
    exec (.commit h each r keep) s = .next (s.putLane ((l.committing g each r keep).settle (released l))) := by
  have hf := passed_flow l 8
  have hreg : (l.starts.moveTo (released l) (l.w.pc + 8)).w.region = some g := hf.region.trans hg
  have hmem : (l.starts.moveTo (released l) (l.w.pc + 8)).w.member = l.w.member := member_of_flow hf
  refine onCtx_lane hl ((warpLevelC_released (c := ⟨s, l⟩) hu hr rfl).trans ?_)
  simp only [Ctx.onL, hreg, hmem, Lane.committing, List.isEmpty_iff]
  unfold releasedMembers
  split <;> rfl

theorem committing_th (l : Lane) (g : Region) (each r keep : Bool) {k : Nat} (hk : k < 32) :
    (l.committing g each r keep).w.th k =
      if k ∈ releasedMembers l then { (l.passed 8).w.th k with pc := l.w.pc, st := .parkedEvent .commit } else (l.passed 8).w.th k := by
  unfold Lane.committing
  split
  · next hn => rw [hn, if_neg List.not_mem_nil]
  · exact parkAll_th (releasedMembers l) (l.requested g each r keep) (releasedMembers_nodup l) l.w.pc .commit hk

theorem committing_flow (l : Lane) (g : Region) (each r keep : Bool) :
    (l.committing g each r keep).SameButFlow (if releasedMembers l = [] then l.passed 8 else l.requested g each r keep) := by
  unfold Lane.committing
  split
  · exact .refl _
  · exact .parkAll _ _ _ _

theorem committing_chain (l : Lane) (g : Region) (each r keep : Bool) : (l.committing g each r keep).w.chain = 0 := by
  unfold Lane.committing
  split
  · rfl
  · rw [parkAll_chain]; rfl

/-- A released thread that is no member has gone on, and holds convergence back as a parked member does. -/
theorem committing_holdsBack (l : Lane) (g : Region) (each r keep : Bool) {k : Nat} (hk : k ∈ released l) :
    ((l.committing g each r keep).w.th k).holdsBack = true := by
  rw [committing_th _ _ _ _ _ (released_lt hk)]
  split
  · rfl
  · simp [Thread.holdsBack, (passed_released 8 hk).1.2]

/-- Settles O32: the members park with the request in their region, the other released threads go on; either holds convergence
back. -/
theorem commitParks : Obligations.CommitParks := by
  intro s l h each r keep g hl hu hr hg ms
  have hset := Lane.SameButFlow.settle (l.committing g each r keep) (released l)
  have hflow := committing_flow l g each r keep
  have hth := fun {k : Nat} (hk : k < 32) => committing_th l g each r keep hk
  refine ⟨_, _, exec_commit_parks each r keep hl hu hr hg, putLane_only hl ?_ ?_ ?_, ?_, fun k hk => ?_, fun k hk hn => ?_,
    fun k hk hn => ?_⟩
  · rw [hset.ref, hflow.ref]; split <;> rfl
  · rw [hset.wg, hflow.wg]; split <;> rfl
  · rw [hset.core, hflow.core]; split <;> rfl
  · rw [settle_warp, hflow.warp, committing_chain]
    have hms : ms = releasedMembers l := rfl
    rw [hms]
    split <;> rfl
  · have hrel := releasedMembers_released hk
    have hlt := released_lt hrel
    have hpark := (hth hlt).trans (if_pos hk)
    rw [settle_th_of _ _ hlt (by rw [hpark]; exact TState.noConfusion) (by rw [hpark]; rfl), hpark]
    exact ⟨(passed_released 8 hrel).2, rfl, rfl⟩
  · have hlt := released_lt hk
    have hpast := (hth hlt).trans (if_neg hn)
    have hp := passed_released 8 hk
    rw [settle_th_of _ _ hlt (by rw [hpast, hp.1.2]; exact TState.noConfusion) (by rw [hpast]; simp [Thread.atConv, hp.1.2]), hpast]
    exact hp
  · obtain ⟨j, hj⟩ := List.exists_mem_of_ne_nil _ hr
    refine settle_bystander_of_holdsBack ?_ hk hn (released_lt hj) (committing_holdsBack l g each r keep hj)
    rw [hth hk, if_neg (fun hm => hn (releasedMembers_released hm))]
    exact passed_other 8 hk hn

end Sys2Proof.Machine

namespace Sys2Proof.Machine

open Sys2Proof.Claims

/-! ## `abort` and `replay` (R208, R209, R409, R416) -/

/-! ### Granules that a region marked -/

/-- The granules that `es` names are full again where they are still `p`. -/
def refillAll (p : Gran) (es : List (Nat × ScrLoc)) (c : Ctx) : Ctx :=
  es.foldl (fun c e => if (c.scr e.2.wg).granule e.2.off = p then c.setScr e.2.wg ((c.scr e.2.wg).setGran e.2.off .full) else c) c

theorem granule_setGran (x : Scr) (k n : Nat) (v : Gran) : (x.setGran k v).granule n = if n = k then v else x.granule n := by
  unfold Scr.granule Scr.setGran
  by_cases h : n = k
  · subst h; simp
  · simp [h]

/-- A group with a granule that is not empty is resident. -/
theorem resident_of_granule {s : State} {l : Lane} {c : Ctx} (hc : c.Near s l) {g n : Nat} (h : (c.scr g).granule n ≠ .empty) :
    g = l.ref.wg ∨ (s.wg? g).isSome := by
  refine or_iff_not_imp_left.mpr (fun hg => ?_)
  rw [Option.isSome_iff_ne_none]
  intro hnone
  have href : c.l.ref = l.ref := by rw [hc.lane]
  have hgone : c.s.wg? g = none := by rw [hc.groups g hg, hnone]; rfl
  refine h ?_
  unfold Ctx.scr
  rw [href, if_neg hg, hgone]
  rfl

/-- What a refill makes of the scratchpads. -/
structure Refilled (p : Gran) (es : List (Nat × ScrLoc)) (c d : Ctx) : Prop where
  words : ∀ g j, (d.scr g).word j = (c.scr g).word j
  granules : ∀ g n, (d.scr g).granule n =
    if (c.scr g).granule n = p ∧ es.any (fun e => e.2 == ⟨g, n⟩) then .full else (c.scr g).granule n

/-- One granule is full again where it was `p`. -/
theorem refill_one {s : State} {l : Lane} {p : Gran} (hp : p ≠ .empty) {c : Ctx} (hc : c.Near s l) (e : Nat × ScrLoc) :
    (refillAll p [e] c).Near s l ∧ (refillAll p [e] c).l.w = c.l.w ∧ Refilled p [e] c (refillAll p [e] c) := by
  have hat : ∀ g n, ([e].any (fun e => e.2 == (⟨g, n⟩ : ScrLoc)) = true) ↔ e.2.wg = g ∧ e.2.off = n := by
    intro g n
    rw [List.any_cons, List.any_nil, Bool.or_false, beq_iff_eq, ScrLoc.mk.injEq]
  unfold refillAll
  rw [List.foldl_cons, List.foldl_nil]
  split
  · next hq =>
    obtain ⟨hn, hscr, hw⟩ := near_setScr hc e.2.wg ((c.scr e.2.wg).setGran e.2.off .full) (resident_of_granule hc (by rwa [hq]))
    refine ⟨hn, hw, fun g j => ?_, fun g n => ?_⟩
    · rw [hscr]
      split
      · next hg => rw [hg]; rfl
      · rfl
    · simp only [hscr, hat]
      by_cases hg : g = e.2.wg
      · subst hg
        rw [if_pos rfl, granule_setGran]
        by_cases hne : n = e.2.off
        · subst hne; rw [if_pos rfl, if_pos ⟨hq, rfl, rfl⟩]
        · rw [if_neg hne, if_neg (fun h => hne h.2.2.symm)]
      · rw [if_neg hg, if_neg (fun h => hg h.2.1.symm)]
  · next hq =>
    refine ⟨hc, rfl, fun _ _ => rfl, fun g n => ?_⟩
    simp only [hat]
    rw [if_neg]
    rintro ⟨hg, rfl, rfl⟩
    exact hq hg

theorem Refilled.trans {p : Gran} (hp : p ≠ .full) {es fs : List (Nat × ScrLoc)} {a b c : Ctx} (h : Refilled p es a b)
    (k : Refilled p fs b c) : Refilled p (es ++ fs) a c := by
  refine ⟨fun g j => (k.words g j).trans (h.words g j), fun g n => ?_⟩
  rw [k.granules, h.granules]
  by_cases ha : (a.scr g).granule n = p
  · by_cases he : es.any (fun e => e.2 == (⟨g, n⟩ : ScrLoc)) = true
    · simp only [ha, he, List.any_append, Bool.true_or, and_self, if_true, hp.symm, false_and, if_false]
    · rw [Bool.not_eq_true] at he
      simp only [ha, he, List.any_append, Bool.false_or, Bool.false_eq_true, and_false, if_false]
  · simp only [ha, false_and, if_false]

theorem refillAll_near {s : State} {l : Lane} {p : Gran} (hp : p ≠ .empty) (hf : p ≠ .full) : ∀ (es : List (Nat × ScrLoc)) {c : Ctx},
    c.Near s l → (refillAll p es c).Near s l ∧ (refillAll p es c).l.w = c.l.w ∧ Refilled p es c (refillAll p es c)
  | [], _, hc => ⟨hc, rfl, fun _ _ => rfl, fun _ _ => by simp [refillAll]⟩
  | e :: es, c, hc => by
    obtain ⟨hn, hw, hr⟩ := refill_one hp hc e
    obtain ⟨kn, kw, kr⟩ := refillAll_near hp hf es hn
    exact ⟨kn, kw.trans hw, hr.trans hf kr⟩

/-- The mark that an open region of the lane leaves in a granule. -/
def Lane.mark (l : Lane) (r : Region) : Gran := .pending l.ref.wg l.ref.warp r.tag

theorem foldl_marks {s : State} {l : Lane} (r : Region) : ∀ (es : List (Nat × ScrLoc)) (c : Ctx), c.Near s l →
    es.foldl (fun c e => if (c.scr e.2.wg).granule e.2.off = .pending c.l.ref.wg c.l.ref.warp r.tag then
      c.setScr e.2.wg ((c.scr e.2.wg).setGran e.2.off .full) else c) c = refillAll (l.mark r) es c
  | [], _, _ => rfl
  | e :: es, c, hc => by
    have href : c.l.ref = l.ref := by rw [hc.lane]
    have hone := refill_one (p := l.mark r) Gran.noConfusion hc e
    have hstep : (if (c.scr e.2.wg).granule e.2.off = .pending c.l.ref.wg c.l.ref.warp r.tag then
        c.setScr e.2.wg ((c.scr e.2.wg).setGran e.2.off .full) else c) = refillAll (l.mark r) [e] c := by rw [href]; rfl
    rw [List.foldl_cons, hstep, foldl_marks r es _ hone.1]
    rfl

theorem granules_full {s : State} {l : Lane} {c : Ctx} (hc : c.Near s l) (r : Region) (m : BitVec 32) :
    c.granules r m .full = refillAll (l.mark r) (r.pending.filter (fun e => m.getLsbD e.1)) c := foldl_marks r _ c hc

/-! ### The lane when its region is dropped or rolled back -/

/-- The lane without the copies that land lines in region `r` for the threads `m`. -/
def Lane.withoutCopies (l : Lane) (r : Region) (m : BitVec 32) : Lane :=
  ({ l with core := { l.core with cpq := l.core.cpq.filter (fun k =>
    !(k.wg == l.ref.wg && k.warp == l.ref.warp && k.held && k.member && k.tag == r.tag && m.getLsbD k.thread)) } } : Lane).endReads

/-- The lane after `abort` of its region `r`. -/
def Lane.dropped (l : Lane) (r : Region) : Lane :=
  let l := l.withoutCopies r allThreads
  { l with w := { l.w with items := l.w.items.filter (fun i => i.tag != r.tag || i.sent) } }.closeRegion r

/-- The lane after a roll-back of the threads `m` of its region `r`. -/
def Lane.rolledBack (l : Lane) (r : Region) (m : BitVec 32) : Lane :=
  let l := (l.withoutCopies r m).freeRecords (inRegion r.seq m)
  { l with w := { l.w with
      items := l.w.items.filter (fun i => i.tag != r.tag || i.sent || !m.getLsbD i.thread)
      region := some { r with crazes := [], hard := 0, regionCraze := none, first := none, overflow := false, commit := none
                              pending := r.pending.filter (fun e => !m.getLsbD e.1) } } }

theorem abortRegion_eq (c : Ctx) (r : Region) :
    c.abortRegion r = (c.granules r allThreads .full).onL (fun l => l.dropped r) := rfl

theorem rollBack_eq (c : Ctx) (r : Region) (m : BitVec 32) :
    c.rollBack r m = (c.granules r m .full).onL (fun l => l.rolledBack r m) := rfl

/-- The accesses that are left when reads have ended hang on neither threads nor chain. -/
theorem endReads_accs {l m : Lane} (hw : m.w = { l.w with thr := m.w.thr, chain := m.w.chain }) (hr : m.ref = l.ref)
    (hq : m.core.cpq = l.core.cpq) : m.endReads.w.accs = l.endReads.w.accs := by
  unfold Lane.endReads
  rw [hw, hr, hq]
  rfl

/-- The core when region `r` has let go of what the threads `m` did. -/
def Lane.coreUndone (l : Lane) (r : Region) (m : BitVec 32) : Core :=
  ({ l.core with cpq := l.core.cpq.filter (fun k =>
    !(k.wg == l.ref.wg && k.warp == l.ref.warp && k.held && k.member && k.tag == r.tag && m.getLsbD k.thread)) } : Core).free
    (fun e => e.wslot == l.w.wslot && inRegion r.seq m e)

theorem coreUndone_undone (l : Lane) (r : Region) (m : BitVec 32) : undone l r m l.core (l.coreUndone r m) := ⟨rfl, rfl⟩

/-- The view `d` of the machine after the granules of region `r` are full again: its lane differs from `l` in threads, chain and
scratchpad. -/
structure Ctx.Around (s : State) (l : Lane) (d : Ctx) : Prop where
  near : d.Near s (l.passed 8)
  warp : d.l.w = (l.passed 8).w

namespace Ctx.Around

variable {s : State} {l : Lane} {d : Ctx}

theorem ref (h : d.Around s l) : d.l.ref = l.ref := by rw [h.near.lane]; exact (passed_flow l 8).ref
theorem core (h : d.Around s l) : d.l.core = l.core := by rw [h.near.lane]; exact (passed_flow l 8).core
theorem flow (h : d.Around s l) : d.l.w = { l.w with thr := d.l.w.thr, chain := 0 } := by
  rw [h.warp]
  exact (passed_flow l 8).warp

theorem readsOver_eq (h : d.Around s l) {k : Core} {q : List CpyCmd} (hq : k.cpq = q) :
    ({ d.l with core := { d.l.core with cpq := q } } : Lane).endReads.w.accs = readsOver l k :=
  endReads_accs (l := { l with core := k }) (m := { d.l with core := { d.l.core with cpq := q } })
    (by show d.l.w = { l.w with thr := d.l.w.thr, chain := d.l.w.chain }
        have hc : d.l.w.chain = 0 := by rw [h.flow]
        rw [hc]
        exact h.flow)
    h.ref hq.symm

end Ctx.Around

/-! ### Threads -/

/-- A thread of the lane when the members of its region are about to go on: the released ones are past the instruction, and when the
region has `closed`, those that waited for it are at convergence. -/
def Lane.waiting (l : Lane) (closed : Bool) (k : Nat) : Thread :=
  if closed then ((l.passed 8).w.th k).reopened else (l.passed 8).w.th k

theorem waiting_released {l : Lane} (closed : Bool) {k : Nat} (hk : k ∈ released l) :
    past 8 (l.w.th k) (l.waiting closed k) ∧ kept (l.w.th k) (l.waiting closed k) := by
  have hp := passed_released 8 hk
  have hst : ((l.passed 8).w.th k).reopened = (l.passed 8).w.th k := by simp [Thread.reopened, hp.1.2]
  unfold Lane.waiting
  rw [hst, ite_self]
  exact hp

theorem waiting_other {l : Lane} (closed : Bool) {k : Nat} (hk : k < 32) (hn : k ∉ released l) :
    (l.waiting closed k).SameButLatches
      { l.w.th k with st := if closed = true ∧ (l.w.th k).st = .parkedEvent .closed then .parkedConv false else (l.w.th k).st } := by
  have ho := passed_other 8 hk hn
  unfold Lane.waiting Thread.reopened
  cases closed with
  | false => simpa using ho
  | true =>
    rw [if_pos rfl, ho.st]
    by_cases hc : (l.w.th k).st = .parkedEvent .closed
    · rw [if_pos hc, if_pos ⟨rfl, hc⟩]
      exact ⟨ho.pc, rfl, ho.v, ho.p, ho.pt, ho.pp, ho.derailed⟩
    · rw [if_neg hc, if_neg (fun h => hc h.2)]
      exact ho

/-- When the members of the region have been sent to `pc`, the threads are settled; someone who was released holds convergence back. -/
theorem sentTo_of {l m : Lane} {r : Region} {pc : VAddr} {closed : Bool} (hr : released l ≠ [])
    (hth : ∀ k < 32, m.w.th k = if r.members.getLsbD k && !(l.waiting closed k).gone
      then { l.waiting closed k with pc := pc, st := .eligible, derailed := false } else l.waiting closed k) :
    sentTo l r pc closed (m.settle (released l)).w := by
  have hback : ∀ j ∈ released l, (m.w.th j).holdsBack = true := by
    intro j hj
    rw [hth j (released_lt hj)]
    split
    · rfl
    · simp [Thread.holdsBack, (waiting_released closed hj).1.2]
  obtain ⟨j, hj⟩ := List.exists_mem_of_ne_nil _ hr
  have hgone : ∀ k < 32, (l.waiting closed k).gone = (l.w.th k).gone := by
    intro k hk
    by_cases hrel : k ∈ released l
    · have hst : (l.w.th k).st = .released := (mem_released.mp hrel).2
      rw [Thread.gone, Thread.gone, (waiting_released closed hrel).1.2, hst]
      rfl
    · simp only [Thread.gone, (waiting_other closed hk hrel).st]
      split
      · next hc => rw [hc.2]; rfl
      · rfl
  have hstays : ∀ k < 32, (m.w.th k).st ≠ .yielded → (m.settle (released l)).w.th k = m.w.th k := by
    intro k hk hy
    rw [settle_of_holdsBack m _ (released_lt hj) (hback j hj)]
    exact unyield_th _ _ hk hy
  intro k hk
  have hkept : kept (l.w.th k) (l.waiting closed k) := by
    by_cases hrel : k ∈ released l
    · exact (waiting_released closed hrel).2
    · have ho := waiting_other closed hk hrel
      exact ⟨ho.v, ho.p, ho.pt, ho.pp⟩
  by_cases hmem : r.members.getLsbD k = true ∧ (l.w.th k).gone = false
  · have ht := hth k hk
    rw [hgone k hk, hmem.1, hmem.2, Bool.not_false, Bool.and_true, if_pos rfl] at ht
    rw [if_pos hmem, hstays k hk (by rw [ht]; exact TState.noConfusion), ht]
    exact ⟨hkept, rfl, rfl⟩
  · have ht : m.w.th k = l.waiting closed k := by
      rw [hth k hk, hgone k hk, if_neg]
      simpa using hmem
    rw [if_neg hmem]
    by_cases hrel : k ∈ released l
    · have hp := (waiting_released closed hrel).1
      rw [if_pos hrel, hstays k hk (by rw [ht, hp.2]; exact TState.noConfusion), ht]
      exact ⟨hkept, hp⟩
    · have ho := waiting_other closed hk hrel
      rw [if_neg hrel]
      by_cases hc : closed = true ∧ (l.w.th k).st = .parkedEvent .closed
      · have hst : (l.waiting closed k).st = .parkedConv false := ho.st.trans (if_pos hc)
        rw [if_pos hc, hstays k hk (by rw [ht, hst]; exact TState.noConfusion), ht]
        exact ⟨hkept, ho.pc, hst⟩
      · rw [if_neg hc] at ho ⊢
        have hb := settle_bystander_of_holdsBack (b := released l) (ht ▸ ho : (m.w.th k).SameButLatches (l.w.th k)) hk hrel
          (released_lt hj) (hback j hj)
        exact ⟨hb.1, hb⟩

/-! ### The machine around the lane -/

theorem near_flow {s : State} {l m : Lane} (hg : s.wg? l.ref.wg = some l.wg) (hm : m.SameButFlow l) : Ctx.Near s m ⟨s, m⟩ := by
  refine ⟨rfl, rfl, rfl, fun k hk => ?_⟩
  rw [scr_of_lane hg rfl hm.ref hm.wg k]
  unfold scratch
  show s.wg? k = (s.wg? k).map _
  cases s.wg? k with
  | none => rfl
  | some g => rfl

/-- The machine when the region `r` has let go of the granules that the threads `m` marked. -/
def letGoOf (s : State) (l : Lane) (r : Region) (m : BitVec 32) : Ctx := Ctx.granules ⟨s, l.passed 8⟩ r m .full

section

variable {s : State} {l : Lane} (hl : s.lane? = some l) (r : Region) (m : BitVec 32)
include hl

theorem letGoOf_refilled : (letGoOf s l r m).Around s l ∧
    Refilled (l.mark r) (r.pending.filter (fun e => m.getLsbD e.1)) ⟨s, l.passed 8⟩ (letGoOf s l r m) := by
  have hnear := near_flow (lane?_wg hl).1 (passed_flow l 8)
  have heq : letGoOf s l r m = refillAll (l.mark r) _ ⟨s, l.passed 8⟩ := granules_full hnear r m
  obtain ⟨hn, hw, hrefill⟩ := refillAll_near (p := l.mark r) Gran.noConfusion Gran.noConfusion (r.pending.filter (fun e => m.getLsbD e.1))
    hnear
  rw [heq]
  exact ⟨⟨hn, hw⟩, hrefill⟩

/-- A lane of this machine, put back when its core has let go too. -/
theorem letGoOf_onlyRegion {n : Lane} (href : n.ref = (letGoOf s l r m).l.ref) (hwg : n.wg = (letGoOf s l r m).l.wg)
    (hcore : n.core = l.coreUndone r m) :
    onlyRegion s ((letGoOf s l r m).s.putLane n) l n.w ∧ refilled s ((letGoOf s l r m).s.putLane n) l r m ∧
      undone l r m (s.core l.wg.core) (((letGoOf s l r m).s.putLane n).core l.wg.core) ∧
      ((letGoOf s l r m).s.putLane n).core l.wg.core = n.core := by
  obtain ⟨hg, hk⟩ := lane?_wg hl
  obtain ⟨ha, hrefill⟩ := letGoOf_refilled hl r m
  generalize letGoOf s l r m = d at *
  have hc := ha.near
  have hflow := passed_flow l 8
  have hr : n.ref = l.ref := href.trans ha.ref
  have hmg : n.wg = { l.wg with scr := d.l.wg.scr } := by rw [hwg, hc.lane, hflow.wg]
  have hown : (d.s.putLane n).wg? l.ref.wg = some { l.wg with warps := l.wg.warps.set l.ref.warp n.w, scr := d.l.wg.scr } := by
    have := wg?_putLane_same d.s n
    rwa [hr, hmg] at this
  have hoth : ∀ g, g ≠ l.ref.wg → (d.s.putLane n).wg? g = d.s.wg? g := fun g hg => wg?_putLane_other d.s n (by rw [hr]; exact hg)
  have hscr : ∀ g, scratch (d.s.putLane n) g = d.scr g := by
    intro g
    unfold scratch Ctx.scr
    rw [ha.ref]
    by_cases e : g = l.ref.wg
    · subst e; rw [hown, if_pos rfl]
    · rw [hoth g e]; exact (if_neg e).symm
  have hbefore : ∀ g, Ctx.scr ⟨s, l.passed 8⟩ g = scratch s g := scr_of_lane hg rfl hflow.ref hflow.wg
  have hsame : (d.s.putLane n).core l.wg.core = n.core := by
    have := core_putLane_same d.s n
    rwa [hmg] at this
  refine ⟨⟨?_, fun a => ?_, ?_, fun k hk => ?_, fun g j => ?_, fun c hne => ?_, ?_⟩, fun g n => ?_, ?_, hsame⟩
  · unfold State.putLane
    rw [hc.rest]
  · rw [putLane_mem, hc.rest]
  · have hown' : scratch (d.s.putLane n) l.ref.wg = d.l.wg.scr := by rw [hscr, Ctx.scr, ha.ref, if_pos rfl]
    rw [hown', State.warp?, hown]
    simp [lane?_warp_lt hl]
  · rw [hoth k hk, hscr]
    exact hc.groups k (by rw [hflow.ref]; exact hk)
  · rw [hscr, hrefill.words, hbefore]
  · rw [core_putLane_other d.s n (by rw [hmg]; exact hne), State.core, hc.rest]
    rfl
  · rw [hsame, hcore, ← hk]
    rfl
  · rw [hscr, hrefill.granules, hbefore]
    simp only [List.any_filter]
    rfl
  · rw [hsame, hcore, ← hk]
    exact coreUndone_undone l r m

end

/-! ### Settled -/

/-- The lane after `abort` of its region `g`, before yields and convergence. -/
def abortDone (s : State) (l : Lane) (g : Region) : Lane := ((letGoOf s l g allThreads).l.dropped g).sendTo g.members (l.w.pc + 8)

/-- The lane after `replay` of its region `g`, before yields and convergence. -/
def replayDone (s : State) (l : Lane) (g : Region) : Lane := ((letGoOf s l g g.members).l.rolledBack g g.members).sendTo g.members g.openPc

section

variable {s : State} {l : Lane} {h : Hdr} {g : Region} (hl : s.lane? = some l)
include hl

theorem exec_abort_drops (hu : unguarded h = true) (hr : released l ≠ []) (hg : l.w.region = some g) :
    exec (.abort h) s = .next ((letGoOf s l g allThreads).s.putLane ((abortDone s l g).settle (released l))) := by
  have hreg : (l.starts.moveTo (released l) (l.w.pc + 8)).w.region = some g := (passed_flow l 8).region.trans hg
  refine (onCtx_eq hl _).trans ?_
  rw [warpLevelC_released (c := ⟨s, l⟩) hu hr rfl]
  simp only [Ctx.onL, hreg, abortRegion_eq]
  rfl

theorem exec_replay_rollsBack (hu : unguarded h = true) (hr : released l ≠ []) (hg : l.w.region = some g) :
    exec (.replay h) s = .next ((letGoOf s l g g.members).s.putLane ((replayDone s l g).settle (released l))) := by
  have hreg : (l.starts.moveTo (released l) (l.w.pc + 8)).w.region = some g := (passed_flow l 8).region.trans hg
  refine (onCtx_eq hl _).trans ?_
  rw [warpLevelC_released (c := ⟨s, l⟩) hu hr rfl]
  simp only [Ctx.onL, hreg, rollBack_eq]
  rfl

end

theorem reopened_th (w : Warp) (k : Nat) : ({ w with thr := w.thr.map Thread.reopened } : Warp).th k = (w.th k).reopened := by
  simp only [Warp.th, List.getD_eq_getElem?_getD, List.getElem?_map]
  cases w.thr[k]? with
  | none => rfl
  | some x => rfl

/-- The accesses of a lane without its copies of region `r`. -/
theorem withoutCopies_accs {s : State} {l : Lane} {d : Ctx} (ha : d.Around s l) (r : Region) (m : BitVec 32) :
    (d.l.withoutCopies r m).w.accs = readsOver l (l.coreUndone r m) :=
  ha.readsOver_eq (by rw [ha.core, ha.ref]; rfl)

theorem coreUndone_around {s : State} {l : Lane} {d : Ctx} (ha : d.Around s l) (r : Region) (m : BitVec 32) :
    d.l.coreUndone r m = l.coreUndone r m := by
  unfold Lane.coreUndone
  rw [ha.core, ha.ref, ha.flow]
  rfl

/-- The warp after an `abort`, but for its threads. -/
theorem dropped_warp {s : State} {l : Lane} {d : Ctx} (ha : d.Around s l) (g : Region) :
    (d.l.dropped g).w = { l.w with
      thr := (d.l.dropped g).w.thr, chain := 0, region := none, items := l.w.items.filter (fun i => i.tag != g.tag || i.sent)
      accs := readsOver l (l.coreUndone g allThreads) } := by
  have hw : (d.l.dropped g).w = { d.l.w with
      thr := (d.l.dropped g).w.thr, region := none, items := d.l.w.items.filter (fun i => i.tag != g.tag || i.sent)
      accs := (d.l.withoutCopies g allThreads).w.accs } := rfl
  rw [hw, withoutCopies_accs ha, ha.flow]

/-- The warp after a `replay`, but for its threads. -/
theorem rolledBack_warp {s : State} {l : Lane} {d : Ctx} (ha : d.Around s l) (g : Region) (m : BitVec 32) :
    (d.l.rolledBack g m).w = { l.w with
      thr := (d.l.rolledBack g m).w.thr, chain := 0
      items := l.w.items.filter (fun i => i.tag != g.tag || i.sent || !m.getLsbD i.thread)
      accs := readsOver l (l.coreUndone g m)
      region := some { g with crazes := [], hard := 0, regionCraze := none, first := none, overflow := false, commit := none
                              pending := g.pending.filter (fun e => !m.getLsbD e.1) } } := by
  have hw : (d.l.rolledBack g m).w = { d.l.w with
      thr := (d.l.rolledBack g m).w.thr
      items := d.l.w.items.filter (fun i => i.tag != g.tag || i.sent || !m.getLsbD i.thread)
      accs := (d.l.withoutCopies g m).w.accs
      region := some { g with crazes := [], hard := 0, regionCraze := none, first := none, overflow := false, commit := none
                              pending := g.pending.filter (fun e => !m.getLsbD e.1) } } := rfl
  rw [hw, withoutCopies_accs ha, ha.flow]

theorem dropped_th {s : State} {l : Lane} {d : Ctx} (ha : d.Around s l) (g : Region) (k : Nat) :
    (d.l.dropped g).w.th k = l.waiting true k := by
  have hth : (d.l.dropped g).w.th k = (d.l.w.th k).reopened := reopened_th _ k
  rw [hth, ha.warp]
  rfl

theorem rolledBack_th {s : State} {l : Lane} {d : Ctx} (ha : d.Around s l) (g : Region) (m : BitVec 32) (k : Nat) :
    (d.l.rolledBack g m).w.th k = l.waiting false k := by
  have hth : (d.l.rolledBack g m).w.th k = d.l.w.th k := rfl
  rw [hth, ha.warp]
  rfl

theorem abort_drops {s : State} {l : Lane} {h : Hdr} {g : Region} (hl : s.lane? = some l) (hu : unguarded h = true)
    (hr : released l ≠ []) (hg : l.w.region = some g) :
    ∃ t w, exec (.abort h) s = .next t ∧ onlyRegion s t l w ∧ refilled s t l g allThreads ∧
      undone l g allThreads (s.core l.wg.core) (t.core l.wg.core) ∧
      w = { l.w with thr := w.thr, chain := 0, region := none, items := l.w.items.filter (fun i => i.tag != g.tag || i.sent),
                     accs := readsOver l (t.core l.wg.core) } ∧
      sentTo l g (l.w.pc + 8) true w := by
  obtain ⟨ha, -⟩ := letGoOf_refilled hl g allThreads
  have hs := Lane.SameButFlow.settle (abortDone s l g) (released l)
  have hcore : ((abortDone s l g).settle (released l)).core = l.coreUndone g allThreads := hs.core.trans (coreUndone_around ha g _)
  obtain ⟨honly, hrefill, hundone, hput⟩ := letGoOf_onlyRegion hl g allThreads hs.ref hs.wg hcore
  refine ⟨_, _, exec_abort_drops hl hu hr hg, honly, hrefill, hundone, ?_, sentTo_of hr (fun k hk => ?_)⟩
  · have hsend : (abortDone s l g).w = { ((letGoOf s l g allThreads).l.dropped g).w with thr := (abortDone s l g).w.thr } := rfl
    rw [hput, hcore, settle_warp, hsend, dropped_warp ha g]
  · rw [← dropped_th ha g]
    exact sendTo_th _ _ _ hk

theorem replay_rollsBack {s : State} {l : Lane} {h : Hdr} {g : Region} (hl : s.lane? = some l) (hu : unguarded h = true)
    (hr : released l ≠ []) (hg : l.w.region = some g) :
    ∃ t w, exec (.replay h) s = .next t ∧ onlyRegion s t l w ∧ refilled s t l g g.members ∧
      undone l g g.members (s.core l.wg.core) (t.core l.wg.core) ∧
      w = { l.w with thr := w.thr, chain := 0,
                     items := l.w.items.filter (fun i => i.tag != g.tag || i.sent || !g.members.getLsbD i.thread),
                     accs := readsOver l (t.core l.wg.core),
                     region := some { g with crazes := [], hard := 0, regionCraze := none, first := none, overflow := false, commit := none,
                                             pending := g.pending.filter (fun e => !g.members.getLsbD e.1) } } ∧
      sentTo l g g.openPc false w := by
  obtain ⟨ha, -⟩ := letGoOf_refilled hl g g.members
  have hs := Lane.SameButFlow.settle (replayDone s l g) (released l)
  have hcore : ((replayDone s l g).settle (released l)).core = l.coreUndone g g.members := hs.core.trans (coreUndone_around ha g _)
  obtain ⟨honly, hrefill, hundone, hput⟩ := letGoOf_onlyRegion hl g g.members hs.ref hs.wg hcore
  refine ⟨_, _, exec_replay_rollsBack hl hu hr hg, honly, hrefill, hundone, ?_, sentTo_of hr (fun k hk => ?_)⟩
  · have hsend : (replayDone s l g).w =
        { ((letGoOf s l g g.members).l.rolledBack g g.members).w with thr := (replayDone s l g).w.thr } := rfl
    rw [hput, hcore, settle_warp, hsend, rolledBack_warp ha g g.members]
  · rw [← rolledBack_th ha g g.members]
    exact sendTo_th _ _ _ hk

/-! ### With no region open -/

/-- `commit`, `abort` and `replay` with no region open derail as a guarded warp-level word does. -/
theorem exec_noRegion {i : Instr} {s : State} {l : Lane} {h : Hdr} (hi : (∃ e r k, i = .commit h e r k) ∨ i = .abort h ∨ i = .replay h)
    (hl : s.lane? = some l) (hu : unguarded h = true) (hr : released l ≠ []) (hg : l.w.region = none) :
    exec i s = .next (s.putLane ((l.refused 8).settle (released l))) := by
  have hreg : (l.starts.moveTo (released l) (l.w.pc + 8)).w.region = none := (passed_flow l 8).region.trans hg
  rcases hi with ⟨e, r, k, rfl⟩ | rfl | rfl
  all_goals
    refine onCtx_lane hl ((warpLevelC_released (c := ⟨s, l⟩) hu hr rfl).trans ?_)
    simp only [Ctx.onL, hreg]
    rfl

theorem noRegion_derails {i : Instr} {s : State} {l : Lane} {h : Hdr} (hi : (∃ e r k, i = .commit h e r k) ∨ i = .abort h ∨ i = .replay h)
    (hl : s.lane? = some l) (hu : unguarded h = true) (hr : released l ≠ []) (hg : l.w.region = none) :
    ∃ t w p, exec i s = .next t ∧ onlyLane s t l w ∧ onlyThreads l w ∧
      (t.core l.wg.core, p) = (s.core l.wg.core).record l.wg.core (l.crzRec 0x01 0 ((released l).headD 0) l.w.pc none true) ∧
      (∀ k ∈ released l, derailed l k p (l.w.th k) (w.th k)) ∧
      (∀ k < 32, k ∉ released l → (l.w.th k).atConv = false → bystander (l.w.th k) (w.th k)) := by
  have hs := Lane.SameButFlow.settle (l.refused 8) (released l)
  have hwg : (l.refused 8).wg = l.wg := by rw [refused_eq, derailAll_wg, (passed_flow l 8).wg]
  have href : (l.refused 8).ref = l.ref := by rw [refused_eq, derailAll_ref, (passed_flow l 8).ref]
  have hregion : (l.refused 8).w.region = none := by rw [refused_eq, derailAll_region hr, (passed_flow l 8).region, hg]; rfl
  refine ⟨_, _, l.refusal 8, exec_noRegion hi hl hu hr hg, putLane_onlyLane hl (hs.ref.trans href) (hs.wg.trans hwg), ?_, ?_,
    fun k hk => refused_derailed 8 hk, fun k hk hn hc => refused_bystander 8 hr hk hn hc⟩
  · have hf := refused_onlyFlow l 8
    unfold onlyFlow at hf
    unfold onlyThreads
    rw [hs.warp, hf, hregion, ← hg]
  · have hcore := core_putLane_same s ((l.refused 8).settle (released l))
    rw [hs.wg, hwg, hs.core] at hcore
    rw [hcore, refused_record hl 8 hr]

/-- Settles O33: granules, records, copies and accesses as the region lets go of them, then the threads; with no region open the
released threads derail with one record. -/
theorem abortAndReplay : Obligations.AbortAndReplay :=
  ⟨fun _ _ _ _ hl hu hr hg => abort_drops hl hu hr hg, fun _ _ _ _ hl hu hr hg => replay_rollsBack hl hu hr hg,
    fun _ _ _ _ hl hi hu hr hg => noRegion_derails hi hl hu hr hg⟩

end Sys2Proof.Machine

namespace Sys2Proof.Machine

open Sys2Proof.Claims

/-! ## `ptest`, `crzread`, `rdsys` (R210, R211, R213) -/

/-- A thread that writes its predicate has written it, and nothing else. -/
theorem written_setPred (x : Thread) (k : BitVec 3) (v : Bool) (c : Option Word) :
    written (.pred k) (boolVal v) c x (x.setPred k v c) := by
  have h := written_putResult (.pred k) (fun _ _ => ADst.noConfusion) (boolVal v) c x
  have hbit : (boolVal v).getLsbD 0 = v := by cases v <;> rfl
  simp only [Thread.putResult, hbit] at h
  exact written_kept ⟨rfl, rfl, rfl, rfl⟩ h

/-- A thread that writes one register has written it, and nothing else. -/
theorem written_setV1 (x : Thread) (d : BitVec 8) (v : DWord) (c : Option Word) :
    written (.vec d false) v c x (x.setV1 d.toNat v c) :=
  written_kept ⟨rfl, rfl, rfl, rfl⟩ (written_putResult (.vec d false) (fun _ _ => ADst.noConfusion) v c x)

/-- Writing a predicate leaves the place of the thread. -/
theorem setPred_pc (x : Thread) (k : BitVec 3) (v : Bool) (c : Option Word) :
    (x.setPred k v c).pc = x.pc ∧ (x.setPred k v c).st = x.st := by
  unfold Thread.setPred
  split
  · exact ⟨rfl, rfl⟩
  · cases c <;> exact ⟨rfl, rfl⟩

/-- Writing a register leaves the place of the thread. -/
theorem setV1_pc (x : Thread) (i : Nat) (v : DWord) (c : Option Word) :
    (x.setV1 i v c).pc = x.pc ∧ (x.setV1 i v c).st = x.st := by
  unfold Thread.setV1 Thread.setV
  split <;> exact ⟨rfl, rfl⟩

/-- A source that thread `k` can read, on a lane that has moved on. -/
theorem readOne_moved {l m : Lane} {k n : Nat} {a : Src} {kind : OKind} {v : DWord × Option Word} (hm : m.SameButFlow l)
    (hmk : m.w.th k = (l.w.th k).moved n) (hbad : (l.w.th k).bad = []) (hv : readSrc l.w (l.w.th k) 0 kind a = some v)
    (pc : VAddr) (disc : Bool) : m.readOne k pc 0 kind disc a = (m, v) := by
  refine readOne_clean m k pc 0 kind disc a v.1 v.2 (by rw [hmk]; exact hbad) ?_
  rw [hmk]
  exact (readSrc_moved l.w m.w (l.w.th k) _ hm.scalars rfl rfl rfl 0 kind a).trans hv

/-- The turn of thread `t` at `ptest`. -/
def ptestTurn (h : Hdr) (clean b64 : Bool) (dst : BitVec 8) (a : Src) (pc : VAddr) (l : Lane) (t : Nat) : Lane :=
  let (l, _, p) := l.readOne t pc 0 (if b64 then .i64 else .i32) (dst.extractLsb' 0 3 == 7) a
  let x := l.w.th t
  l.setTh t (x.setPred (dst.extractLsb' 0 3) (p.isSome != clean) (x.predCraze h.guard))

/-- The turn of thread `t` at `crzread`. -/
def crzreadTurn (h : Hdr) (f : BitVec 3) (dst : BitVec 8) (a : Src) (pc : VAddr) (c : Ctx) (t : Nat) : Ctx :=
  let (l, _, p) := c.l.readOne t pc 0 .i32 (dst == 255) a
  let c : Ctx := { c with l := l }
  let v : Word := match p with
    | none => 0
    | some q =>
      if f = 0 then BitVec.ofNat 32 (causeOf q)
      else
        let o := (q.toNat / 2 ^ 17) % 128
        let k := if o = c.l.wg.core then c.l.core else c.s.core o
        match Tabs.find? k.crz (q.toNat % 512) with
        | some r => crzField f.toNat r
        | none => 0
  c.onL (fun l => l.setTh t ((l.w.th t).setV1 dst.toNat (v.setWidth 64) ((l.w.th t).predCraze h.guard)))

/-- Thread `k` after `crzread` of a source that reads as `v`. -/
def crzreadThread (s : State) (l : Lane) (h : Hdr) (f : BitVec 3) (dst : BitVec 8) (v : DWord × Option Word) (k : Nat) : Thread :=
  ((l.w.th k).moved 8).setV1 dst.toNat ((crzWord s f v.2).setWidth 64) ((l.w.th k).predCraze h.guard)

/-- The turn of thread `t` at `rdsys`. -/
def rdsysTurn (h : Hdr) (dst : BitVec 8) (code : BitVec 10) (l : Lane) (t : Nat) : Lane :=
  l.setTh t ((l.w.th t).setV1 dst.toNat (BitVec.ofNat 64 (l.sysval code.toNat t)) ((l.w.th t).predCraze h.guard))

/-- The system values are those of the warp, whatever its threads have done. -/
theorem sysval_sameButFlow {m l : Lane} (hm : m.SameButFlow l) (code t : Nat) : m.sysval code t = l.sysval code t := by
  obtain ⟨hlane, hwarp⟩ := hm
  rw [hlane, hwarp]
  rfl

section
variable {s : State} {l : Lane} {h : Hdr} (hl : s.lane? = some l)
include hl

/-- `ptest` tests the craze of each active thread's source. -/
theorem ptest_completes {clean b64 : Bool} {dst : BitVec 8} {a : Src} (hc : clear l h (srcRegs (if b64 then 2 else 1) a))
    (hdst : dst.extractLsb' 3 5 = 0) (hok : srcOk l.wg.info.nregs (if b64 then 2 else 1) a = true) {v : Nat → DWord × Option Word}
    (hv : ∀ k ∈ active l h, readSrc l.w (l.w.th k) 0 (if b64 then .i64 else .i32) a = some (v k)) :
    OwnForm.completes (.ptest h clean b64 dst a) ⟨h, 8, srcRegs (if b64 then 2 else 1) a, true⟩ s l (fun k y =>
      written (.pred (dst.extractLsb' 0 3)) (boolVal ((v k).2.isSome != clean)) ((l.w.th k).predCraze h.guard) (l.w.th k) y) := by
  obtain ⟨hready, hbad⟩ := hc
  refine completes_mono (turns_complete (turn := ptestTurn h clean b64 dst a l.w.pc) (i := .ptest h clean b64 dst a)
    (F := fun k => ((l.w.th k).moved 8).setPred (dst.extractLsb' 0 3) ((v k).2.isSome != clean) ((l.w.th k).predCraze h.guard)) hl
    (f := ⟨h, 8, false, srcRegs (if b64 then 2 else 1) a,
      fun l => illegal (dst.extractLsb' 3 5 != 0 || !srcOk l.wg.info.nregs (if b64 then 2 else 1) a)⟩)
    rfl hready ?_ rfl (fun m k hk hm hmk => ?_) (fun k => setPred_pc _ _ _ _)) (fun k _ y hy => ?_)
  · simp [illegal, hdst, hok]
  · simp only [ptestTurn, readOne_moved hm hmk (hbad k hk) (hv k hk), hmk]
    rfl
  · exact written_kept hy (written_of_same (z := (l.w.th k).moved 8) ⟨rfl, rfl, rfl, rfl⟩ (written_setPred _ _ _ _))

/-- `rdsys` gives each active thread its system value. -/
theorem rdsys_completes {dst : BitVec 8} {code : BitVec 10} (hr : l.w.ready (dstRegs dst.toNat 4) = true) (hcode : code.toNat ≤ 0x18)
    (hok : vecOk l.wg.info.nregs dst.toNat 1 = true) :
    OwnForm.completes (.rdsys h false dst code) ⟨h, 8, dstRegs dst.toNat 4, true⟩ s l (fun k y =>
      written (.vec dst false) (BitVec.ofNat 64 (l.sysval code.toNat k)) ((l.w.th k).predCraze h.guard) (l.w.th k) y) := by
  refine completes_mono (turns_complete (turn := rdsysTurn h dst code) (i := .rdsys h false dst code)
    (F := fun k => ((l.w.th k).moved 8).setV1 dst.toNat (BitVec.ofNat 64 (l.sysval code.toNat k)) ((l.w.th k).predCraze h.guard)) hl
    (f := ⟨h, 8, false, dstRegs dst.toNat 4,
      fun l => illegal (decide (0x18 < code.toNat) || !vecOk l.wg.info.nregs dst.toNat 1)⟩)
    rfl hr ?_ rfl (fun m k hk hm hmk => ?_) (fun k => setV1_pc _ _ _ _)) (fun k _ y hy => ?_)
  · simp [illegal, hok, hcode]
  · simp only [rdsysTurn, hmk, sysval_sameButFlow hm]
    rfl
  · exact written_kept hy (written_of_same (z := (l.w.th k).moved 8) ⟨rfl, rfl, rfl, rfl⟩ (written_setV1 _ _ _ _))

/-- The turn of a thread at `crzread` reads the record of its source's craze. -/
theorem crzreadTurn_eq {f : BitVec 3} {dst : BitVec 8} {a : Src} {m : Lane} {k : Nat} {v : DWord × Option Word}
    (hm : m.SameButFlow l) (hmk : m.w.th k = (l.w.th k).moved 8) (hbad : (l.w.th k).bad = [])
    (hv : readSrc l.w (l.w.th k) 0 .i32 a = some v) :
    crzreadTurn h f dst a l.w.pc ⟨s, m⟩ k = ⟨s, m.setTh k (crzreadThread s l h f dst v k)⟩ := by
  obtain ⟨-, hcore⟩ := lane?_wg hl
  have howner : ∀ o, (if o = m.wg.core then m.core else s.core o) = s.core o := by
    intro o
    rw [hm.core, hm.wg, hcore]
    split
    · next ho => rw [ho]
    · rfl
  simp only [crzreadTurn, readOne_moved hm hmk hbad hv, howner, Ctx.onL, hmk]
  rfl

/-- `crzread` gives each active thread a field of the record that its source names. -/
theorem crzread_completes {f : BitVec 3} {dst : BitVec 8} {a : Src} (hc : clear l h (dstRegs dst.toNat 4 ++ srcRegs 1 a))
    (hdst : vecOk l.wg.info.nregs dst.toNat 1 = true) (hok : srcOk l.wg.info.nregs 1 a = true) {v : Nat → DWord × Option Word}
    (hv : ∀ k ∈ active l h, readSrc l.w (l.w.th k) 0 .i32 a = some (v k)) :
    OwnForm.completes (.crzread h f dst a) ⟨h, 8, dstRegs dst.toNat 4 ++ srcRegs 1 a, true⟩ s l (fun k y =>
      written (.vec dst false) ((crzWord s f (v k).2).setWidth 64) ((l.w.th k).predCraze h.guard) (l.w.th k) y) := by
  obtain ⟨hready, hbad⟩ := hc
  let F := fun k => crzreadThread s l h f dst (v k) k
  have hadv := Lane.SameButFlow.advance l l.w.batch 8
  have hlt : ∀ k ∈ active l h, k < 32 := fun _ => active_lt
  have hturns : (active l h).foldl (crzreadTurn h f dst a l.w.pc) ⟨s, l.advance l.w.batch 8⟩ =
      ⟨s, (active l h).foldl (fun m k => m.setTh k (F k)) (l.advance l.w.batch 8)⟩ :=
    foldl_onLane _ F s (l.advance l.w.batch 8) _ _ (active_nodup l h) hlt (.refl _) (fun _ _ => rfl)
      (fun m k hk hm hmk => crzreadTurn_eq hl (hm.trans hadv) (hmk.trans (advance_moved hk)) (hbad k hk) (hv k hk))
  obtain ⟨hflow, hth⟩ := foldl_each (fun m k => m.setTh k (F k)) F (l.advance l.w.batch 8) (active l h) _ (active_nodup l h) hlt
    (.refl _) (fun _ _ => rfl) (fun _ _ _ _ _ => rfl)
  obtain ⟨m, hx, hm, hmw, hpast, hact, hidle, hother⟩ := runC_done (.crzread h f dst a)
    ⟨h, 8, false, dstRegs dst.toNat 4 ++ srcRegs 1 a,
      fun l => illegal (!vecOk l.wg.info.nregs dst.toNat 1 || !srcOk l.wg.info.nregs 1 a)⟩
    (fun _ _ => false) (fun pc act c => act.foldl (crzreadTurn h f dst a pc) c) F s l _ hl rfl hready
    (by simp [illegal, hdst, hok]) rfl hturns hth (fun k _ => setV1_pc _ _ _ _)
  have hsame : m.SameButFlow l := by
    have hml : m.SameButFlow ((active l h).foldl (fun m k => m.setTh k (F k)) (l.advance l.w.batch 8)) :=
      ⟨hm, hmw.trans (by rw [hmw])⟩
    exact hml.trans (hflow.trans hadv)
  refine ⟨_, m.w, hx, putLane_onlyWarp hl hsame, hsame.warp, hpast, fun k hk => ?_, hidle, hother⟩
  exact written_kept (hact k hk) (written_of_same (z := (l.w.th k).moved 8) ⟨rfl, rfl, rfl, rfl⟩ (written_setV1 _ _ _ _))

end

/-! ## `rdsys.s` and `segset` (R213, R214) -/

/-- What `rdsys.s` does for the active threads `act`. -/
def rdsysScalar (h : Hdr) (dst : BitVec 8) (code : BitVec 10) (act : List Nat) (l : Lane) : Lane :=
  if act.isEmpty then l
  else
    let w := l.w.setSc dst.toNat false (BitVec.ofNat 64 (l.sysval code.toNat 0))
      (crazeOf (act.map (fun t => (l.w.th t).predCraze h.guard)))
    { l with w := w }

/-- What `segset` does for the active threads `act`. -/
def segsetBody (a b : Src) (e : Ext) (pc : VAddr) (act : List Nat) (l : Lane) : Lane :=
  match act with
  | [] => l
  | t :: _ =>
    let (l, rs) := l.readAll t pc 0 false [(a, .i64), (b, .i64)] none
    match crazeOf (rs.map Prod.snd) with
    | some p => l.derailWith act p
    | none =>
      let v : BitVec 128 := (rs.getD 1 (0, none)).1 ++ (rs.getD 0 (0, none)).1
      if sgBad v then l.derailAll act pc 0x01 none
      else { l with w := { l.w with sg := l.w.sg.set (e.extractLsb' 0 3).toNat v } }

/-- `rdsys.s` on the advanced lane writes the scalar register, with the crazes that the guards had. -/
theorem rdsysScalar_eq {l : Lane} {h : Hdr} {dst : BitVec 8} {code : BitVec 10} {w : Warp} (hact : active l h ≠ [])
    (hw : (l.advance l.w.batch 8).w.setSc dst.toNat false (BitVec.ofNat 64 (l.sysval code.toNat 0))
      (crazeOf ((active l h).map (fun t => (l.w.th t).predCraze h.guard))) = w) :
    rdsysScalar h dst code (active l h) (l.advance l.w.batch 8) = { l with w := w } := by
  have hne : (active l h).isEmpty = false := by simpa using hact
  have hcraze : (active l h).map (fun t => ((l.advance l.w.batch 8).w.th t).predCraze h.guard) =
      (active l h).map (fun t => (l.w.th t).predCraze h.guard) :=
    List.map_congr_left (fun t ht => by rw [advance_moved ht]; rfl)
  unfold rdsysScalar
  rw [hne, hcraze, sysval_sameButFlow (.advance l l.w.batch 8), hw]
  rfl

/-- `segset` on the advanced lane writes the segment register, when the operands of the lowest active thread are a sound value. -/
theorem segsetBody_eq {l : Lane} {h : Hdr} {k : Nat} {ks : List Nat} {a b : Src} {e : Ext} {x y : DWord}
    (hact : active l h = k :: ks) (hx : readSrc l.w (l.w.th k) 0 .i64 a = some (x, none))
    (hy : readSrc l.w (l.w.th k) 0 .i64 b = some (y, none)) (hbad : (l.w.th k).bad = []) (hsg : sgBad (y ++ x) = false) :
    segsetBody a b e l.w.pc (active l h) (l.advance l.w.batch 16) =
      { l with w := { (l.advance l.w.batch 16).w with sg := l.w.sg.set (e.extractLsb' 0 3).toNat (y ++ x) } } := by
  have hmk : (l.advance l.w.batch 16).w.th k = (l.w.th k).moved 16 := advance_moved (h := h) (by rw [hact]; exact List.mem_cons_self)
  have hread : ∀ c v, readSrc l.w (l.w.th k) 0 .i64 c = some (v, none) →
      readSrc (l.advance l.w.batch 16).w ((l.advance l.w.batch 16).w.th k) 0 .i64 c = some (v, none) := by
    intro c v hc
    rw [hmk]
    exact (readSrc_moved l.w _ (l.w.th k) _ rfl rfl rfl rfl 0 .i64 c).trans hc
  have hall := readAll_clean (l.advance l.w.batch 16) k l.w.pc 0 false (by rw [hmk]; exact hbad) [(a, .i64), (b, .i64)]
    [(x, none), (y, none)] none (by simp only [List.mapM_cons, List.mapM_nil, hread a x hx, hread b y hy]; rfl)
  have hclean : crazeOf ([(x, none), (y, none)].map (Prod.snd : DWord × Option Word → Option Word)) = none := rfl
  rw [hact]
  simp only [segsetBody, hall, hclean, List.getD_cons_zero, List.getD_cons_succ, hsg, Bool.false_eq_true, if_false]
  rfl

section
variable {s : State} {l : Lane} {h : Hdr} (hl : s.lane? = some l)
include hl

/-- An instruction alone in its chain, without a fault, whose body leaves the threads where the batch has advanced to: what it makes of
the rest of the warp stays. -/
theorem form_moved {i : Instr} {f : Form} {body : VAddr → List Nat → Lane → Lane} {w : Warp} (he : exec i s = f.exec body s)
    (hr : l.w.ready f.regs = true) (hf : f.fault l = none) (hch : f.chains = false)
    (hbody : body l.w.pc (active l f.h) (l.advance l.w.batch f.size) = { l with w := w })
    (hthr : w.thr = (l.advance l.w.batch f.size).w.thr) :
    ∃ t v, exec i s = .next t ∧ onlyWarp s t l v ∧ moved f.size l v ∧ v = { w with thr := v.thr, chain := 0 } := by
  obtain ⟨-, -, hne⟩ := lane?_some hl
  have hrun : f.run body l = ({ l with w := w } : Lane).endChain.settle l.w.batch := by
    unfold active at hbody
    simp only [Form.run, hr, hf, hch, hbody, Bool.not_true, Bool.false_eq_true, if_false, ite_self]
  have hset := Lane.SameButFlow.settle ({ l with w := w } : Lane).endChain l.w.batch
  refine ⟨_, (({ l with w := w } : Lane).endChain.settle l.w.batch).w, ?_, putLane_only hl hset.ref hset.wg hset.core,
    moved_of_advanced f.size hthr hne, endChain_settle_warp _ _⟩
  rw [he]
  simp only [Form.exec, onLane, hl, hrun]

/-- `rdsys.s` writes a system value of the warp to a scalar register. -/
theorem rdsysScalar_writes {k : Nat} {ks : List Nat} {dst : BitVec 8} {code : BitVec 10} (hact : active l h = k :: ks)
    (hlow : 3 ≤ code.toNat) (hhigh : code.toNat ≤ 0x18) (hdst : dst.toNat ≤ 0x3F) :
    ∃ t w, exec (.rdsys h true dst code) s = .next t ∧ onlyWarp s t l w ∧ onlyScalars l w ∧ moved 8 l w ∧
      scalarWritten (dst.setWidth 6) false (BitVec.ofNat 64 (l.sysval code.toNat 0))
        (crazeOf ((active l h).map (fun t => (l.w.th t).predCraze h.guard))) l.w w := by
  have hreg : (dst.setWidth 6).toNat = dst.toNat := by
    rw [BitVec.toNat_setWidth]
    omega
  obtain ⟨y, hy⟩ := setSc_only (l.advance l.w.batch 8).w (dst.setWidth 6).toNat false (BitVec.ofNat 64 (l.sysval code.toNat 0))
    (crazeOf ((active l h).map (fun t => (l.w.th t).predCraze h.guard)))
  have hout := setSc_written (l.advance l.w.batch 8).w (dst.setWidth 6) false (BitVec.ofNat 64 (l.sysval code.toNat 0))
    (crazeOf ((active l h).map (fun t => (l.w.th t).predCraze h.guard))) (fun _ hwide => absurd hwide Bool.false_ne_true)
  rw [hy] at hout
  rw [hreg] at hy
  obtain ⟨t, w, he, honly, hmoved, hw⟩ := form_moved (i := .rdsys h true dst code) hl
    (f := ⟨h, 8, false, [], fun l => illegal (decide (0x18 < code.toNat) || (decide (code.toNat ≤ 2) || decide (0x3F < dst.toNat)))⟩)
    (w := { (l.advance l.w.batch 8).w with s := y }) (body := fun _ => rdsysScalar h dst code)
    rfl (nothing_ready l.w) (by simp [illegal]; omega) rfl (rdsysScalar_eq (by rw [hact]; exact List.cons_ne_nil _ _) hy) rfl
  refine ⟨t, w, he, honly, by rw [hw]; rfl, hmoved, ?_⟩
  have hs : w.s = y := by rw [hw]
  simp only [scalarWritten, Warp.sreg, hs] at hout ⊢
  exact hout

/-- `segset` in a privileged kernel writes the segment register of its extension word. -/
theorem segset_writes {k : Nat} {ks : List Nat} {a b : Src} {e : Ext} {x y : DWord} (hact : active l h = k :: ks)
    (he : e.extractLsb' 3 61 = 0) (ha : segSrcOk a = true) (hb : segSrcOk b = true) (hp : l.wg.priv = true)
    (hx : readSrc l.w (l.w.th k) 0 .i64 a = some (x, none)) (hy : readSrc l.w (l.w.th k) 0 .i64 b = some (y, none))
    (hbad : (l.w.th k).bad = []) (hsg : sgBad (y ++ x) = false) :
    ∃ t w, exec (.segset h a b e) s = .next t ∧ onlyWarp s t l w ∧ moved 16 l w ∧
      w = { l.w with thr := w.thr, chain := 0, sg := l.w.sg.set (e.extractLsb' 0 3).toNat (y ++ x) } := by
  obtain ⟨t, w, hn, honly, hmoved, hw⟩ := form_moved (i := .segset h a b e) hl
    (f := ⟨h, 16, false, [], fun l => if e.extractLsb' 3 61 != 0 || !segSrcOk a || !segSrcOk b then some 0x01
      else if !l.wg.priv then some 0x05 else none⟩)
    (w := { (l.advance l.w.batch 16).w with sg := l.w.sg.set (e.extractLsb' 0 3).toNat (y ++ x) })
    (body := segsetBody a b e)
    rfl (nothing_ready l.w) (by simp [he, ha, hb, hp]) rfl (segsetBody_eq hact hx hy hbad hsg) rfl
  exact ⟨t, w, hn, honly, hmoved, hw⟩

end

/-- A form whose body does nothing for no thread refuses its active threads with the derail form. -/
theorem form_refused {i : Instr} {f : Form} {body : VAddr → List Nat → Lane → Lane} {s : State} {l : Lane} {cause : Nat}
    (hl : s.lane? = some l) (he : exec i s = f.exec body s) (hr : l.w.ready f.regs = true) (hf : f.fault l = some cause)
    (hch : f.chains = false) (hbody : ∀ pc m, body pc [] m = m) : derailForm i f.size cause none (active l f.h) s l := by
  have hrun : f.run body l = ((l.advance l.w.batch f.size).endChain.derailAll (active l f.h) l.w.pc cause none).settle l.w.batch := by
    by_cases ha : active l f.h = []
    · have hb := hbody l.w.pc (l.advance l.w.batch f.size)
      rw [ha]
      unfold active at ha
      simp only [Form.run, hr, ha, hch, hb, Bool.not_true, Bool.false_eq_true, if_false, List.isEmpty_nil, if_true]
      rfl
    · have hne : (active l f.h).isEmpty = false := by simpa using ha
      unfold active at hne ⊢
      simp only [Form.run, hr, hf, hne, Bool.not_true, Bool.false_eq_true, if_false]
  have ht : TurnsTaken l (l.advance l.w.batch f.size).endChain f.h f.size (l.advance l.w.batch f.size).w.th :=
    advanced_turns l f.h f.size (fun u _ => (ite_self _).symm)
  refine derailForm_of hl (by rw [he]; simp only [Form.exec, onLane, hl, hrun]) ((Lane.SameButFlow.endChain _).trans (.advance l _ _))
    (active_nodup l f.h) (fun k hk => active_batch hk) (fun k hk => kept_of_same (ht.act k hk) (advance_past f.size hk).2)
    (fun k hk hn => ?_) ht.other
  have hidle := ht.idle k hk hn
  exact ⟨⟨hidle.pc, hidle.st⟩, hidle.v, hidle.p, hidle.pt, hidle.pp⟩

/-- Settles O35: one lemma for each instruction, and the derail of `segset` outside a privileged kernel. -/
theorem systemValues : Obligations.SystemValues := by
  refine ⟨fun s l h dst hl => ⟨fun clean b64 a hc hdst hok v hv => ptest_completes hl hc hdst hok hv,
      fun f a hc hdst hok v hv => crzread_completes hl hc hdst hok hv, fun code hr hcode hok => rdsys_completes hl hr hcode hok⟩,
    fun s l h k ks hl hact => ⟨fun dst code hlow hhigh hdst => rdsysScalar_writes hl hact hlow hhigh hdst,
      fun a b e x y he ha hb hp hx hy hbad hsg => segset_writes hl hact he ha hb hp hx hy hbad hsg⟩,
    fun s l h a b e hl he ha hb hp => ?_⟩
  exact form_refused (i := .segset h a b e) hl
    (f := ⟨h, 16, false, [], fun l => if e.extractLsb' 3 61 != 0 || !segSrcOk a || !segSrcOk b then some 0x01
      else if !l.wg.priv then some 0x05 else none⟩)
    rfl (nothing_ready l.w) (by simp [he, ha, hb, hp]) rfl (fun _ _ => rfl)

end Sys2Proof.Machine

namespace Sys2Proof.Machine

open Sys2Proof.Claims

/-! ## Transaction barriers: one reading of the operands (R202, R203) -/

/-- The body of a transaction-barrier instruction whose operands come once, from its lowest active thread. -/
def TbIns.onceBody (i : TbIns) (go : VAddr → List Nat → ScrLoc → Nat → Nat → Ctx → Ctx) (pc : VAddr) (act : List Nat) (c : Ctx) : Ctx :=
  match act with
  | [] => c
  | t :: _ =>
    let (l, o, b, k, p) := i.args pc c.l t
    let c : Ctx := { c with l := l }
    match crazeOf (p :: act.map (fun t => (c.l.w.th t).predCraze i.h.guard)) with
    | some p => c.onL (tbDerail p act)
    | none =>
      match c.check (exSeg i.e) t o 16 i.perms i.kinds true with
      | .ok (.scr x) => go pc act x b k (c.scrubScr t pc x.wg (wordsOf x.off 16))
      | .ok (.va _) => c
      | .fault q o => c.onL (fun l => l.derailAll act pc q (some o))

theorem once_eq (i : TbIns) (go : VAddr → List Nat → ScrLoc → Nat → Nat → Ctx → Ctx) (s : State) :
    i.once tbDerail go s = i.form.execC i.waits (i.onceBody go) s := rfl

/-- A scratchpad without errors hides none from an access. -/
theorem scrubScr_clean {c : Ctx} {g : Nat} (h : (c.scr g).bad = []) (t : Nat) (pc : VAddr) (ks : List Nat) : c.scrubScr t pc g ks = c := by
  simp [Ctx.scrubScr, h]

/-- An unfaulted form waits for nothing. -/
theorem waits_of_clear {b : TbIns} {s : State} {l : Lane} (hc : tbClear b l) : b.waits ⟨s, l⟩ (active l b.h) = false := by
  obtain ⟨-, -, hhold, hquiet⟩ := hc
  cases hrel : b.rel with
  | false => simp [TbIns.waits, hhold, hrel]
  | true => simp [TbIns.waits, hhold, hquiet hrel]

/-- What a thread reads that reads a barrier, on any lane that has the scalar registers and the data of that thread. -/
theorem args_of_reads {b : TbIns} {s : State} {l m : Lane} {k : Nat} {x : ScrLoc} {n c : Nat} (hr : tbReads b s l k x n c)
    (hs : m.w.s = l.w.s) (hd : (m.w.th k).SameData (l.w.th k)) (pc : VAddr) :
    ∃ o, b.args pc m k = (m, o, n, c, none) ∧ Ctx.check ⟨s, l⟩ (exSeg b.e) k o 16 b.perms b.kinds true = .ok (.scr x) := by
  obtain ⟨hbad, -, rs, hread, hclean, hn, hc, hplace⟩ := hr
  have hsrc : (fun p : Src × OKind => readSrc m.w (m.w.th k) 0 p.2 p.1) ∘ (fun a => (a, OKind.i32)) = readSrc l.w (l.w.th k) 0 .i32 :=
    funext (readSrc_moved l.w m.w _ _ hs hd.v hd.l0 hd.l1 0 .i32)
  have hall := readAll_clean m k pc 0 false (hd.bad.trans hbad) (([b.a, b.b] ++ b.c.toList).map (fun a => (a, OKind.i32))) rs none
    (by rw [List.mapM_map, hsrc]; exact hread)
  refine ⟨_, ?_, hplace⟩
  simp only [TbIns.args, hall, hclean, hn, hc]

/-- No guard of the threads `ts` is crazed. -/
theorem crazeOf_guards {l m : Lane} {h : Hdr} {ts : List Nat} (hg : ∀ j ∈ ts, (l.w.th j).predCraze h.guard = none)
    (hd : ∀ j ∈ ts, (m.w.th j).SameData (l.w.th j)) : crazeOf (none :: ts.map (fun t => (m.w.th t).predCraze h.guard)) = none := by
  have hguard : ∀ j ∈ ts, (m.w.th j).predCraze h.guard = none := fun j hj => by
    rw [← hg j hj]
    simp only [Thread.predCraze, Thread.predTag, (hd j hj).pt, (hd j hj).pp]
    rfl
  simpa [crazeOf, List.findSome?_eq_none_iff] using hguard

section
variable {s : State} {l : Lane} {b : TbIns} {k : Nat} {ks : List Nat} {x : ScrLoc} {n c : Nat} (hl : s.lane? = some l)
  (hact : active l b.h = k :: ks) (hr : tbReads b s l k x n c)
include hl hact hr

/-- The lowest active thread reads the operands on the lane that has moved on, and finds the barrier. -/
theorem reads_advanced : ∃ o, b.args l.w.pc (l.advance l.w.batch 16) k = (l.advance l.w.batch 16, o, n, c, none) ∧
    Ctx.check ⟨s, l.advance l.w.batch 16⟩ (exSeg b.e) k o 16 b.perms b.kinds true = .ok (.scr x) ∧
    (Ctx.scr ⟨s, l.advance l.w.batch 16⟩ x.wg).bad = [] := by
  obtain ⟨hg, -⟩ := lane?_wg hl
  have hk : k < 32 := active_lt (h := b.h) (by rw [hact]; exact List.mem_cons_self)
  obtain ⟨o, hargs, hplace⟩ := args_of_reads hr (m := l.advance l.w.batch 16) rfl (advance_data l _ _ hk) l.w.pc
  obtain ⟨-, hbad, -⟩ := hr
  have hal : Ctx.Alike ⟨s, l.advance l.w.batch 16⟩ ⟨s, l⟩ := counted_alike s l 16 l.w.batch _ rfl rfl
  refine ⟨o, hargs, (check_alike hal _ _ _ _ _ _ _).trans hplace, ?_⟩
  rw [scr_of_lane (s := s) (l := l) hg rfl rfl rfl]
  exact hbad

/-- With clean guards and operands, the instruction goes on with the barrier. -/
theorem onceBody_reads (hguards : ∀ j ∈ active l b.h, (l.w.th j).predCraze b.h.guard = none)
    (go : VAddr → List Nat → ScrLoc → Nat → Nat → Ctx → Ctx) :
    b.onceBody go l.w.pc (active l b.h) ⟨s, l.advance l.w.batch 16⟩ =
      go l.w.pc (active l b.h) x n c ⟨s, l.advance l.w.batch 16⟩ := by
  obtain ⟨o, hargs, hplace, hbad⟩ := reads_advanced hl hact hr
  have hcz := crazeOf_guards hguards (m := l.advance l.w.batch 16) (fun j hj => advance_data l _ _ (active_lt hj))
  rw [hact] at hcz ⊢
  simp only [TbIns.onceBody, hargs, hcz, hplace, scrubScr_clean hbad]

end

/-! ## `tbwait` and `tbtest` (R203, R204) -/

/-- The barrier that the lane sees after the batch has moved on. -/
theorem bar_advanced {s : State} {l : Lane} (hl : s.lane? = some l) (x : ScrLoc) :
    ((Ctx.scr ⟨s, l.advance l.w.batch 16⟩ x.wg).bar x.off) = barrier s x := by
  obtain ⟨hg, -⟩ := lane?_wg hl
  rw [scr_of_lane (s := s) (l := l) hg rfl rfl rfl]
  rfl

/-- What `tbwait` does with its barrier. -/
def tbwaitGo (pc : VAddr) (act : List Nat) (x : ScrLoc) (n _k : Nat) (c : Ctx) : Ctx :=
  if ((c.scr x.wg).bar x.off).done n then c else c.onL (fun l => l.parkAll act pc (.tbwait x (BitVec.ofNat 4 n)))

/-- The body of `tbtest`. -/
def tbtestBody (b : TbIns) (h : Hdr) (p : BitVec 3) (pc : VAddr) (act : List Nat) (c : Ctx) : Ctx :=
  let put := fun (v : Bool) (q : Option Word) (act : List Nat) (l : Lane) => act.foldl (fun l t =>
    l.setTh t ((l.w.th t).setPred p v (crazeOf [q, (l.w.th t).predCraze h.guard]))) l
  match act with
  | [] => c
  | t :: _ =>
    let (l, o, n, _, q) := b.args pc c.l t
    let c : Ctx := { c with l := l }
    if q.isSome || act.all (fun t => (l.w.th t).predTag h.guard) then c.onL (put false q act)
    else match c.check (exSeg b.e) t o 16 b.perms b.kinds true with
      | .ok (.scr x) =>
        let c := c.scrubScr t pc x.wg (wordsOf x.off 16)
        c.onL (put (((c.scr x.wg).bar x.off).done n) none act)
      | .ok (.va _) => c
      | .fault q o => c.onL (fun l => l.derailAll act pc q (some o))

theorem exec_tbwait (h : Hdr) (a o : Src) (e : Ext) (s : State) :
    exec (.tbwait h a o e) s = TbIns.once ⟨h, e, a, o, none, [1], [57], false, [], false⟩ tbDerail tbwaitGo s := rfl

theorem exec_tbtest (h : Hdr) (dst : BitVec 8) (a o : Src) (e : Ext) (s : State) :
    exec (.tbtest h dst a o e) s =
      (⟨h, e, a, o, none, [1], [57], false, [], dst.extractLsb' 3 5 != 0⟩ : TbIns).form.execC
        (⟨h, e, a, o, none, [1], [57], false, [], dst.extractLsb' 3 5 != 0⟩ : TbIns).waits
        (tbtestBody ⟨h, e, a, o, none, [1], [57], false, [], dst.extractLsb' 3 5 != 0⟩ h (dst.extractLsb' 0 3)) s := rfl

/-- A guard without craze has no tag. -/
theorem predTag_of_clean {x : Thread} {k : BitVec 3} (h : x.predCraze k = none) : x.predTag k = false := by
  simpa [Thread.predCraze] using h

section
variable {s : State} {l : Lane} {h : Hdr} {a o : Src} {e : Ext} {k : Nat} {ks : List Nat} {x : ScrLoc} {n c : Nat}
  (hl : s.lane? = some l) (hact : active l h = k :: ks) (hguards : ∀ j ∈ active l h, (l.w.th j).predCraze h.guard = none)
include hl hact hguards

/-- `tbwait` of a complete phase passes. -/
theorem tbwait_passes (hclear : tbClear ⟨h, e, a, o, none, [1], [57], false, [], false⟩ l)
    (hr : tbReads ⟨h, e, a, o, none, [1], [57], false, [], false⟩ s l k x n c) (hdone : (barrier s x).done n = true) :
    ∃ t w, exec (.tbwait h a o e) s = .next t ∧ onlyWarp s t l w ∧ onlyThreads l w ∧ moved 16 l w := by
  have hwait := waits_of_clear (s := s) hclear
  obtain ⟨hfault, hready, -⟩ := hclear
  have hbody := onceBody_reads hl hact hr hguards tbwaitGo
  have hpass : tbwaitGo l.w.pc (active l h) x n c ⟨s, l.advance l.w.batch 16⟩ = ⟨s, l.advance l.w.batch 16⟩ := by
    unfold tbwaitGo
    rw [bar_advanced hl, if_pos hdone]
  obtain ⟨m, he, hm, hmw, hmoved⟩ := runC_moved hl ((exec_tbwait h a o e s).trans (once_eq _ _ s)) hready hfault hwait
    (hbody.trans hpass) (fun _ _ => rfl)
  have hsame : m.SameButFlow l := Lane.SameButFlow.trans ⟨hm, hmw.trans (by rw [hmw])⟩ (.advance l l.w.batch 16)
  exact ⟨_, m.w, he, putLane_onlyWarp hl hsame, hsame.warp, hmoved⟩

/-- `tbwait` of a phase that is not complete parks the active threads. -/
theorem tbwait_parks (hclear : tbClear ⟨h, e, a, o, none, [1], [57], false, [], false⟩ l)
    (hr : tbReads ⟨h, e, a, o, none, [1], [57], false, [], false⟩ s l k x n c) (hdone : (barrier s x).done n = false) :
    ∃ t w, exec (.tbwait h a o e) s = .next t ∧ onlyWarp s t l w ∧ onlyThreads l w ∧
      (∀ j ∈ active l h, kept (l.w.th j) (w.th j) ∧ (w.th j).pc = l.w.pc ∧
        (w.th j).st = .parkedEvent (.tbwait x (BitVec.ofNat 4 n))) ∧
      (∀ j ∈ l.w.batch, j ∉ active l h → past 16 (l.w.th j) (w.th j) ∧ kept (l.w.th j) (w.th j)) ∧
      (∀ j < 32, j ∉ l.w.batch → (l.w.th j).atConv = false → bystander (l.w.th j) (w.th j)) := by
  have hwait := waits_of_clear (s := s) hclear
  obtain ⟨hfault, hready, -⟩ := hclear
  have hbody := onceBody_reads hl hact hr hguards tbwaitGo
  have hpark : tbwaitGo l.w.pc (active l h) x n c ⟨s, l.advance l.w.batch 16⟩ =
      ⟨s, (l.advance l.w.batch 16).parkAll (active l h) l.w.pc (.tbwait x (BitVec.ofNat 4 n))⟩ := by
    unfold tbwaitGo
    rw [bar_advanced hl, hdone]
    rfl
  have he := ((exec_tbwait h a o e s).trans (once_eq _ _ s)).trans
    (execC_done hl hready (fun _ => hfault) hwait (hbody.trans hpark))
  have ht := advanced_turns l h 16 (fun u hu => parkAll_th (active l h) (l.advance l.w.batch 16) (active_nodup l h) l.w.pc
    (.tbwait x (BitVec.ofNat 4 n)) hu)
  have hflow := (Lane.SameButFlow.settle _ l.w.batch).trans ((Lane.SameButFlow.endChain _).trans
    ((Lane.SameButFlow.parkAll (l.advance l.w.batch 16) (active l h) l.w.pc (.tbwait x (BitVec.ofNat 4 n))).trans
      (.advance l l.w.batch 16)))
  refine ⟨_, _, he, putLane_onlyWarp hl hflow, hflow.warp, fun j hj => ?_, fun j hj hn => ht.settled_past hj hn,
    fun j hj hn hc => ht.settled_bystander hj hn hc⟩
  have hset := ht.settled_act hj TState.noConfusion rfl
  exact ⟨kept_of_same hset (advance_past 16 hj).2, hset.pc, hset.st⟩

/-- `tbtest` writes to its predicate whether the phase is complete. -/
theorem tbtest_writes {dst : BitVec 8} (hclear : tbClear ⟨h, e, a, o, none, [1], [57], false, [], dst.extractLsb' 3 5 != 0⟩ l)
    (hr : tbReads ⟨h, e, a, o, none, [1], [57], false, [], dst.extractLsb' 3 5 != 0⟩ s l k x n c) :
    ∃ t w, exec (.tbtest h dst a o e) s = .next t ∧ onlyWarp s t l w ∧ onlyThreads l w ∧
      (∀ j ∈ l.w.batch, past 16 (l.w.th j) (w.th j)) ∧
      (∀ j ∈ active l h, written (.pred (dst.extractLsb' 0 3)) (boolVal ((barrier s x).done n)) none (l.w.th j) (w.th j)) ∧
      (∀ j ∈ l.w.batch, j ∉ active l h → kept (l.w.th j) (w.th j)) ∧
      (∀ j < 32, j ∉ l.w.batch → bystander (l.w.th j) (w.th j)) := by
  have hwait := waits_of_clear (s := s) hclear
  obtain ⟨hfault, hready, -⟩ := hclear
  obtain ⟨off, hargs, hplace, hbad⟩ := reads_advanced hl hact hr
  have hkact : k ∈ active l h := by rw [hact]; exact List.mem_cons_self
  have htag : (active l h).all (fun t => ((l.advance l.w.batch 16).w.th t).predTag h.guard) = false := by
    refine List.all_eq_false.mpr ⟨k, hkact, ?_⟩
    rw [advance_moved hkact]
    exact Bool.eq_false_iff.mp (predTag_of_clean (hguards k hkact))
  obtain ⟨hflow, hth⟩ := foldl_setTh
    (fun y => y.setPred (dst.extractLsb' 0 3) ((barrier s x).done n) (crazeOf [none, y.predCraze h.guard])) (active l h)
    (l.advance l.w.batch 16) (active_nodup l h)
  have hbody : tbtestBody ⟨h, e, a, o, none, [1], [57], false, [], dst.extractLsb' 3 5 != 0⟩ h (dst.extractLsb' 0 3) l.w.pc
      (active l h) ⟨s, l.advance l.w.batch 16⟩ = ⟨s, (active l h).foldl (fun m t => m.setTh t ((m.w.th t).setPred (dst.extractLsb' 0 3)
        ((barrier s x).done n) (crazeOf [none, (m.w.th t).predCraze h.guard]))) (l.advance l.w.batch 16)⟩ := by
    rw [hact] at htag ⊢
    simp only [tbtestBody, hargs, htag, hplace, scrubScr_clean hbad, bar_advanced hl, Option.isSome_none, Bool.or_self,
      Bool.false_eq_true, if_false]
    rfl
  obtain ⟨m, he, hm, hmw, hpast, hkept, hidle, hother⟩ := runC_done (.tbtest h dst a o e) _ _ _
    (fun u => ((l.advance l.w.batch 16).w.th u).setPred (dst.extractLsb' 0 3) ((barrier s x).done n)
      (crazeOf [none, ((l.advance l.w.batch 16).w.th u).predCraze h.guard])) s l _ hl (exec_tbtest h dst a o e s) hready hfault
    hwait hbody hth (fun u hu => by
      obtain ⟨hpc, hst⟩ := setPred_pc ((l.advance l.w.batch 16).w.th u) (dst.extractLsb' 0 3) ((barrier s x).done n)
        (crazeOf [none, ((l.advance l.w.batch 16).w.th u).predCraze h.guard])
      obtain ⟨⟨hpc', hst'⟩, -⟩ := advance_past 16 hu
      exact ⟨hpc.trans hpc', hst.trans hst'⟩)
  have hsame : m.SameButFlow l := Lane.SameButFlow.trans ⟨hm, hmw.trans (by rw [hmw])⟩ (hflow.trans (.advance l l.w.batch 16))
  refine ⟨_, m.w, he, putLane_onlyWarp hl hsame, hsame.warp, hpast, fun j hj => ?_, hidle, hother⟩
  have hclean : crazeOf [none, ((l.advance l.w.batch 16).w.th j).predCraze h.guard] = none := by
    have hg := hguards j hj
    rw [advance_moved hj]
    simpa [crazeOf, Thread.moved, Thread.predCraze, Thread.predTag] using hg
  have hw := written_setPred ((l.advance l.w.batch 16).w.th j) (dst.extractLsb' 0 3) ((barrier s x).done n)
    (crazeOf [none, ((l.advance l.w.batch 16).w.th j).predCraze h.guard])
  rw [hclean] at hw
  have hk := hkept j hj
  rw [hclean] at hk
  exact written_kept hk (written_of_same (advance_past 16 hj).2 hw)

end

/-- Settles O28: the lowest active thread reads the barrier, and the phase decides. -/
theorem barrierAwaits : Obligations.BarrierAwaits := by
  intro i s l b k ks x n c hl hi hclear hact hguards hr
  refine ⟨fun h a o e he hdone => ?_, fun h a o e he hdone => ?_, fun h dst a o e he => ?_⟩
  all_goals
    subst he
    cases hi
  · exact tbwait_passes hl hact hguards hclear hr hdone
  · exact tbwait_parks hl hact hguards hclear hr hdone
  · exact tbtest_writes hl hact hguards hclear hr

end Sys2Proof.Machine

namespace Sys2Proof.Machine

open Sys2Proof.Claims

/-! ## The bits of a transaction barrier (R202) -/

theorem leNat_append (a b : List Byte) : leNat (a ++ b) = leNat a + 256 ^ a.length * leNat b := by
  induction a with
  | nil => simp [leNat]
  | cons x a ih =>
    rw [List.cons_append, leNat, ih, leNat, List.length_cons, pow_succ]
    ring

theorem leBytes_length (n v : Nat) : (leBytes n v).length = n := by
  induction n generalizing v with
  | zero => rfl
  | succ n ih => simp [leBytes, ih]

theorem leNat_leBytes (n v : Nat) : leNat (leBytes n v) = v % 256 ^ n := by
  induction n generalizing v with
  | zero => simp [leBytes, leNat, Nat.mod_one]
  | succ n ih =>
    rw [leBytes, leNat, ih, pow_succ', Nat.mod_mul, BitVec.toNat_ofNat]

/-- Every field fits its bits. -/
structure TBar.InRange (b : TBar) : Prop where
  phase : b.phase < 2 ^ 4
  arrivals : b.arrivals < 2 ^ 20
  sectors : b.sectors < 2 ^ 32
  arrReload : b.arrReload < 2 ^ 20
  secReload : b.secReload < 2 ^ 32

theorem unpack_inRange (v : Nat) : (TBar.unpack v).InRange :=
  ⟨Nat.mod_lt _ (by decide), Nat.mod_lt _ (by decide), Nat.mod_lt _ (by decide), Nat.mod_lt _ (by decide), Nat.mod_lt _ (by decide)⟩

theorem pack_lt {b : TBar} (h : b.InRange) : b.pack < 2 ^ 128 := by
  obtain ⟨hp, ha, hs, har, hsr⟩ := h
  have hc := Bool.toNat_lt b.crz
  have hl := Bool.toNat_lt b.lost
  unfold TBar.pack
  omega

/-- The fields stand in the low 116 bits, and read back what was written. -/
theorem unpack_pack_add {b : TBar} (h : b.InRange) (r : Nat) : TBar.unpack (b.pack + 2 ^ 128 * r) = b := by
  obtain ⟨hp, ha, hs, har, hsr⟩ := h
  obtain ⟨p, a, s, c, l, ar, sr⟩ := b
  simp only at hp ha hs har hsr
  have hc := Bool.toNat_lt c
  have hl := Bool.toNat_lt l
  have hbit : ∀ d : Bool, decide (d.toNat = 1) = d := fun d => by cases d <;> rfl
  simp only [TBar.unpack, TBar.pack, field, Nat.testBit_eq_decide_div_mod_eq, TBar.mk.injEq]
  refine ⟨by omega, by omega, by omega, (congrArg (fun n => decide (n = 1)) ?_).trans (hbit c),
    (congrArg (fun n => decide (n = 1)) ?_).trans (hbit l), by omega, by omega⟩ <;> omega

/-- Every update keeps the fields in their bits. -/
theorem advance_inRange {b : TBar} (h : b.InRange) : b.advance.InRange := by
  obtain ⟨hp, ha, hs, har, hsr⟩ := h
  unfold TBar.advance
  split
  · exact ⟨Nat.mod_lt _ (by decide), har, hsr, har, hsr⟩
  · exact ⟨hp, ha, hs, har, hsr⟩

theorem init_inRange {n c : Nat} (hn : n < 2 ^ 20) (hc : c < 2 ^ 32) : (TBar.init n c).InRange :=
  advance_inRange ⟨(by decide : 0 < 2 ^ 4), hn, hc, hn, hc⟩

theorem arrive_inRange {b : TBar} (h : b.InRange) (n : Nat) : (b.arrive n).InRange := by
  obtain ⟨hp, ha, hs, har, hsr⟩ := h
  refine advance_inRange ?_
  split
  · exact ⟨hp, (by decide : 0 < 2 ^ 20), hs, har, hsr⟩
  · exact ⟨hp, Nat.lt_of_le_of_lt (Nat.sub_le _ _) ha, hs, har, hsr⟩

/-- `tbexpect` counts sectors, and then an arrival. -/
theorem expect_inRange {b : TBar} (h : b.InRange) (n : Nat) (arr : Bool) : (b.expect n arr).InRange := by
  obtain ⟨hp, ha, hs, har, hsr⟩ := h
  unfold TBar.expect
  generalize hcount : (if b.sectors + n ≥ 2 ^ 32 then { b with sectors := 2 ^ 32 - 1, lost := true }
    else { b with sectors := b.sectors + n } : TBar) = b1
  have hb1 : b1.InRange := by
    rw [← hcount]
    split
    · exact ⟨hp, ha, (by decide : 2 ^ 32 - 1 < 2 ^ 32), har, hsr⟩
    · next hlt => exact ⟨hp, ha, Nat.not_le.mp hlt, har, hsr⟩
  obtain ⟨hp, ha, hs, har, hsr⟩ := hb1
  refine advance_inRange ?_
  split
  · split
    · exact ⟨hp, ha, hs, har, hsr⟩
    · exact ⟨hp, Nat.lt_of_le_of_lt (Nat.sub_le _ _) ha, hs, har, hsr⟩
  · exact ⟨hp, ha, hs, har, hsr⟩

/-! ## The barrier of a scratchpad (R202) -/

/-- Sixteen bytes at any offset touch four words, and a fifth where the offset is not that of a word. -/
theorem wordsOf_sixteen (off : Nat) : ∃ rest, wordsOf off 16 = [off / 4, off / 4 + 1, off / 4 + 2, off / 4 + 3] ++ rest := by
  have hlen : (off % 4 + 16 + 3) / 4 = 4 ∨ (off % 4 + 16 + 3) / 4 = 5 := by omega
  unfold wordsOf
  rcases hlen with h | h <;> rw [h]
  · exact ⟨[], rfl⟩
  · exact ⟨[off / 4 + 4], rfl⟩

/-- The words of a barrier as one number. -/
theorem bar_eq (x : Scr) (off : Nat) : ∃ r, x.bar off = TBar.unpack
    ((barWord (x.word (off / 4)) 0).toNat + 2 ^ 32 * (barWord (x.word (off / 4 + 1)) 1).toNat +
      2 ^ 64 * (barWord (x.word (off / 4 + 2)) 2).toNat + 2 ^ 96 * (barWord (x.word (off / 4 + 3)) 3).toNat + 2 ^ 128 * r) := by
  obtain ⟨rest, hrest⟩ := wordsOf_sixteen off
  have hlow : ∀ w : Word, w.toNat % 256 ^ 4 = w.toNat := fun w => Nat.mod_eq_of_lt w.isLt
  unfold Scr.bar
  rw [hrest]
  simp only [List.cons_append, List.nil_append, List.zipIdx_cons, List.flatMap_cons, leNat_append, leNat_leBytes, leBytes_length, hlow]
  generalize leNat (List.flatMap _ _) = r
  exact ⟨r, congrArg TBar.unpack (by ring)⟩

theorem setBar_eq (x : Scr) (off : Nat) (b : TBar) : x.setBar off b =
    (((x.putWord (off / 4) ⟨BitVec.ofNat 32 (b.pack / 2 ^ 0), false⟩).putWord (off / 4 + 1) ⟨BitVec.ofNat 32 (b.pack / 2 ^ 32), false⟩).putWord
      (off / 4 + 2) ⟨BitVec.ofNat 32 (b.pack / 2 ^ 64), false⟩).putWord (off / 4 + 3) ⟨BitVec.ofNat 32 (b.pack / 2 ^ 96), false⟩ := rfl

/-- The barrier of a scratchpad reads back what was written. -/
theorem bar_setBar (x : Scr) (off : Nat) {b : TBar} (h : b.InRange) : (x.setBar off b).bar off = b := by
  obtain ⟨r, hr⟩ := bar_eq (x.setBar off b) off
  have hlt := pack_lt h
  refine hr.trans ((congrArg TBar.unpack ?_).trans (unpack_pack_add h r))
  rw [setBar_eq]
  simp only [putWord_word, barWord, Nat.add_right_inj, Nat.left_eq_add, Nat.add_eq_left, OfNat.ofNat_ne_zero, one_ne_zero,
    Nat.reduceEqDiff, if_false, if_true, Bool.false_eq_true, BitVec.toNat_ofNat]
  omega

/-- Writing a barrier leaves the other words, the granules and the size, and no error. -/
theorem setBar_word (x : Scr) (off : Nat) (b : TBar) {j : Nat} (h : j ∉ wordsOf off 16) : (x.setBar off b).word j = x.word j := by
  obtain ⟨rest, hrest⟩ := wordsOf_sixteen off
  simp only [hrest, List.cons_append, List.nil_append, List.mem_cons, not_or] at h
  obtain ⟨h0, h1, h2, h3, -⟩ := h
  simp only [setBar_eq, putWord_word, h0, h1, h2, h3, if_false]

theorem setBar_rest (x : Scr) (off : Nat) (b : TBar) : (x.setBar off b).size = x.size ∧ (x.setBar off b).gran = x.gran ∧
    (x.bad = [] → (x.setBar off b).bad = []) := by
  rw [setBar_eq]
  refine ⟨?_, ?_, ?_⟩
  · rw [putWord_size, putWord_size, putWord_size, putWord_size]
  · rw [putWord_gran, putWord_gran, putWord_gran, putWord_gran]
  · exact fun h => putWord_bad _ _ _ (putWord_bad _ _ _ (putWord_bad _ _ _ (putWord_bad _ _ _ h)))

/-- The scratchpads `m` are those of `s` but for the barrier at `x`, which is `v`. -/
structure BarAt (s : State) (x : ScrLoc) (v : TBar) (m : Nat → Scr) : Prop where
  size : ∀ g, (m g).size = (scratch s g).size
  bar : (m x.wg).bar x.off = v
  words : ∀ g j, (g ≠ x.wg ∨ j ∉ wordsOf x.off 16) → (m g).word j = (scratch s g).word j
  granules : ∀ g j, (m g).granule j = (scratch s g).granule j

theorem barAt_self (s : State) (x : ScrLoc) : BarAt s x (barrier s x) (scratch s) :=
  ⟨fun _ => rfl, rfl, fun _ _ _ => rfl, fun _ _ => rfl⟩

theorem barAt_set {s : State} {x : ScrLoc} {v u : TBar} {m : Nat → Scr} (h : BarAt s x v m) (hu : u.InRange) :
    BarAt s x u (fun g => if g = x.wg then (m x.wg).setBar x.off u else m g) := by
  obtain ⟨hsize, hgran, -⟩ := setBar_rest (m x.wg) x.off u
  refine ⟨fun g => ?_, ?_, fun g j hj => ?_, fun g j => ?_⟩
  · split
    · next e => rw [hsize, e]; exact h.size x.wg
    · exact h.size g
  · rw [if_pos rfl, bar_setBar _ _ hu]
  · split
    · next e =>
      rw [setBar_word _ _ _ (hj.resolve_left (fun hne => hne e)), e]
      exact h.words x.wg j (.inr (hj.resolve_left (fun hne => hne e)))
    · exact h.words g j hj
  · split
    · next e => rw [Scr.granule, hgran, e]; exact h.granules x.wg j
    · exact h.granules g j

/-! ## Updates of a barrier (R203) -/

/-- The view `c` of an instruction in whose turns the barrier at `x` has come to be `v`: the batch of `l` has moved on, and its threads
and the scratchpads alone have changed since. -/
structure TbView (s : State) (l : Lane) (x : ScrLoc) (v : TBar) (c : Ctx) : Prop where
  near : c.Near s (l.advance l.w.batch 16)
  bar : BarAt s x v c.scr
  po : c.l.w.po = l.w.po
  id : c.l.w.nextId = l.w.nextId

/-- Such a view in which the barrier can be updated: its fields fit their bits, and its scratchpad hides no error. -/
structure TbTurn (s : State) (l : Lane) (x : ScrLoc) (v : TBar) (c : Ctx) : Prop extends TbView s l x v c where
  range : v.InRange
  clean : (c.scr x.wg).bad = []

theorem scr_advanced {s : State} {l : Lane} (hl : s.lane? = some l) : Ctx.scr ⟨s, l.advance l.w.batch 16⟩ = scratch s := by
  obtain ⟨hg, -⟩ := lane?_wg hl
  exact funext (scr_of_lane hg rfl rfl rfl)

theorem tbView_self {s : State} {l : Lane} (hl : s.lane? = some l) (x : ScrLoc) :
    TbView s l x (barrier s x) ⟨s, l.advance l.w.batch 16⟩ := by
  obtain ⟨hg, -⟩ := lane?_wg hl
  exact ⟨near_self hg _ _, scr_advanced hl ▸ barAt_self s x, rfl, rfl⟩

theorem tbTurn_self {s : State} {l : Lane} {b : TbIns} {k : Nat} {x : ScrLoc} {n c : Nat} (hl : s.lane? = some l)
    (hr : tbReads b s l k x n c) : TbTurn s l x (barrier s x) ⟨s, l.advance l.w.batch 16⟩ := by
  obtain ⟨-, hbad, -⟩ := hr
  exact ⟨tbView_self hl x, unpack_inRange _, by rw [scr_advanced hl]; exact hbad⟩

/-- Threads that take results leave the machine and the counters. -/
theorem near_foldl_setTh {s : State} {l : Lane} (F : Thread → Thread) : ∀ (ts : List Nat) {c : Ctx}, c.Near s l →
    Ctx.Near s l (c.onL (fun m => ts.foldl (fun m t => m.setTh t (F (m.w.th t))) m)) ∧
    (∀ g, (c.onL (fun m => ts.foldl (fun m t => m.setTh t (F (m.w.th t))) m)).scr g = c.scr g) ∧
    (ts.foldl (fun m t => m.setTh t (F (m.w.th t))) c.l).w.po = c.l.w.po ∧
    (ts.foldl (fun m t => m.setTh t (F (m.w.th t))) c.l).w.nextId = c.l.w.nextId
  | [], _, h => ⟨h, fun _ => rfl, rfl, rfl⟩
  | t :: ts, c, h => by
    have hone : Ctx.Near s l (c.onL (fun m => m.setTh t (F (m.w.th t)))) :=
      ⟨h.rest, congrArg (fun m : Lane => m.setTh t (F (c.l.w.th t))) h.lane |>.trans rfl, h.own, fun n hn => h.groups n hn⟩
    obtain ⟨hnear, hscr, hpo, hid⟩ := near_foldl_setTh F ts hone
    exact ⟨hnear, fun g => (hscr g).trans rfl, hpo, hid⟩

section
variable {s : State} {l : Lane} {x : ScrLoc} {v : TBar} {c : Ctx} (ht : TbTurn s l x v c)
  (hx : x.wg = l.ref.wg ∨ (s.wg? x.wg).isSome)
include ht hx

/-- An update of the barrier. -/
theorem updBar_turn {f : TBar → TBar} (hf : (f v).InRange) : TbTurn s l x (f v) (c.updBar x f) ∧ (c.updBar x f).l.w = c.l.w := by
  obtain ⟨⟨hnear, hbar, hpo, hid⟩, -, hclean⟩ := ht
  obtain ⟨hn, hscr, hw⟩ := near_setScr hnear x.wg ((c.scr x.wg).setBar x.off (f ((c.scr x.wg).bar x.off))) hx
  rw [hbar.bar] at hn hscr hw
  have heq : c.updBar x f = c.setScr x.wg ((c.scr x.wg).setBar x.off (f v)) := by rw [Ctx.updBar, hbar.bar]
  rw [heq]
  obtain ⟨-, -, hbad⟩ := setBar_rest (c.scr x.wg) x.off (f v)
  refine ⟨⟨⟨hn, ?_, by rw [hw]; exact hpo, by rw [hw]; exact hid⟩, hf, by rw [hscr, if_pos rfl]; exact hbad hclean⟩, hw⟩
  rw [funext hscr]
  exact barAt_set hbar hf

/-- A thread with the phase of the barrier `v`. -/
def phased (dst : Nat) (v : TBar) (y : Thread) : Thread := y.setWords dst [⟨BitVec.ofNat 32 v.phase, false⟩]

/-- An arrival gives the threads `ts` the phase before it. -/
theorem arrive_turn (n dst : Nat) {ts : List Nat} (hn : ts.Nodup) : TbTurn s l x (v.arrive n) (c.arrive x n dst ts) ∧
    ∀ u < 32, (c.arrive x n dst ts).l.w.th u = if u ∈ ts then phased dst v (c.l.w.th u) else c.l.w.th u := by
  obtain ⟨hturn, hw⟩ := updBar_turn ht hx (f := fun t => t.arrive n) (arrive_inRange ht.range n)
  obtain ⟨⟨hnear, hbar, hpo, hid⟩, hrange, hclean⟩ := hturn
  obtain ⟨hnear', hscr, hpo', hid'⟩ := near_foldl_setTh (phased dst v) ts hnear
  have heq : c.arrive x n dst ts = (c.updBar x (fun t => t.arrive n)).onL
      (fun m => ts.foldl (fun m t => m.setTh t (phased dst v (m.w.th t))) m) := by
    simp only [Ctx.arrive, ht.bar.bar]
    rfl
  obtain ⟨-, hth⟩ := foldl_setTh (phased dst v) ts (c.updBar x (fun t => t.arrive n)).l hn
  rw [heq]
  refine ⟨⟨⟨hnear', by rw [funext hscr]; exact hbar, hpo'.trans hpo, hid'.trans hid⟩, hrange, by rw [hscr]; exact hclean⟩,
    fun u hu => (hth u hu).trans ?_⟩
  rw [hw]

end

/-- An instruction whose turns have made the barrier `v`. -/
theorem tb_done {i : Instr} {b : TbIns} {body : VAddr → List Nat → Ctx → Ctx} {s : State} {l : Lane} {x : ScrLoc} {v : TBar} {c : Ctx}
    {F : Nat → Thread} (hl : s.lane? = some l) (he : exec i s = b.form.execC b.waits body s) (hclear : tbClear b l)
    (hbody : body l.w.pc (active l b.h) ⟨s, l.advance l.w.batch 16⟩ = c) (ht : TbView s l x v c)
    (hth : ∀ u < 32, c.l.w.th u = if u ∈ active l b.h then F u else (l.advance l.w.batch 16).w.th u)
    (hF : ∀ u, (F u).pc = ((l.advance l.w.batch 16).w.th u).pc ∧ (F u).st = ((l.advance l.w.batch 16).w.th u).st) :
    ∃ t w, exec i s = .next t ∧ onlyScratch s t l w ∧ w = { l.w with thr := w.thr, chain := 0 } ∧ barrier t x = v ∧
      (∀ g j, (g ≠ x.wg ∨ j ∉ wordsOf x.off 16) → (scratch t g).word j = (scratch s g).word j) ∧
      (∀ g j, (scratch t g).granule j = (scratch s g).granule j) ∧
      (∀ j ∈ l.w.batch, past 16 (l.w.th j) (w.th j)) ∧
      (∀ j ∈ active l b.h, kept (F j) (w.th j)) ∧
      (∀ j ∈ l.w.batch, j ∉ active l b.h → kept (l.w.th j) (w.th j)) ∧
      (∀ j < 32, j ∉ l.w.batch → bystander (l.w.th j) (w.th j)) := by
  have hwait := waits_of_clear (s := s) hclear
  obtain ⟨hfault, hready, -⟩ := hclear
  obtain ⟨hnear, hbar, hpo, hid⟩ := ht
  obtain ⟨m, hx, hm, hmw, hpast, hact, hidle, hother⟩ := runC_done i b.form b.waits body F s l c hl he hready hfault hwait hbody hth
    (fun u hu => by
      obtain ⟨hpc, hst⟩ := hF u
      obtain ⟨⟨hpc', hst'⟩, -⟩ := advance_past 16 hu
      exact ⟨hpc.trans hpc', hst.trans hst'⟩)
  obtain ⟨honly, hput⟩ := near_onlyScratch hl hnear hm hbar.size
  refine ⟨_, m.w, hx, honly, ?_, by rw [barrier, hput]; exact hbar.bar, fun g j hj => by rw [hput]; exact hbar.words g j hj,
    fun g j => by rw [hput]; exact hbar.granules g j, hpast, hact, hidle, hother⟩
  have hcw : c.l.w = { l.w with thr := c.l.w.thr } := by
    have hw := congrArg Lane.w hnear.lane
    rw [hpo, hid] at hw
    exact hw
  rw [hmw, hcw]

/-! ## One update for all active threads (R203) -/

theorem fconst32_lt (k : Nat) : fconst32.getD k 0 < 2 ^ 32 := by
  have hall : ∀ y ∈ fconst32, y < 2 ^ 32 := by decide
  rw [List.getD_eq_getElem?_getD]
  cases h : fconst32[k]? with
  | none => exact Nat.two_pow_pos 32
  | some y => exact hall y (List.mem_of_getElem? h)

/-- A 32-bit integer operand fits 32 bits. -/
theorem readSrc_i32_lt {w : Warp} {y : Thread} {a : Src} {r : DWord × Option Word} (h : readSrc w y 0 .i32 a = some r) :
    r.1.toNat < 2 ^ 32 := by
  have hone : ∀ z : TWord, (oneOf z).1.toNat < 2 ^ 32 := fun z => by
    show (z.val.setWidth 64).toNat < 2 ^ 32
    have := z.val.isLt
    rw [BitVec.toNat_setWidth]
    omega
  cases a with
  | vec i | scal i => cases h; exact hone _
  | latch one =>
    obtain ⟨z, -, rfl⟩ := Option.map_eq_some_iff.mp h
    exact hone z
  | imm n =>
    cases h
    have := n.isLt
    show (BitVec.ofNat 64 n.toNat).toNat < 2 ^ 32
    rw [BitVec.toNat_ofNat]
    omega
  | fcon k =>
    cases h
    have := fconst32_lt k.toNat
    show (BitVec.ofNat 64 (fconst32.getD k.toNat 0)).toNat < 2 ^ 32
    rw [BitVec.toNat_ofNat]
    omega
  | lit => cases h; decide

/-- The third operand of a transaction-barrier instruction fits 32 bits. -/
theorem tbReads_lt {b : TbIns} {s : State} {l : Lane} {k : Nat} {x : ScrLoc} {n c : Nat} (hr : tbReads b s l k x n c) : c < 2 ^ 32 := by
  obtain ⟨-, -, rs, hread, -, -, hc, -⟩ := hr
  rw [hc, List.getD_eq_getElem?_getD]
  cases hrs : rs[2]? with
  | none => exact Nat.two_pow_pos 32
  | some r =>
    have hmem : some r ∈ rs.map some := List.mem_map_of_mem (List.mem_of_getElem? hrs)
    rw [← mapM_some _ _ _ hread] at hmem
    obtain ⟨a, -, ha⟩ := List.mem_map.mp hmem
    exact readSrc_i32_lt ha

/-- What `tbinit` does with its barrier. -/
def tbinitGo (pc : VAddr) (act : List Nat) (x : ScrLoc) (n k : Nat) (c : Ctx) : Ctx :=
  if n = 0 ∨ 2 ^ 20 ≤ n then c.onL (fun l => l.derailAll act pc 0x01 none) else c.updBar x (fun _ => TBar.init n k)

theorem exec_tbinit (h : Hdr) (a b c : Src) (e : Ext) (s : State) :
    exec (.tbinit h a b c e) s = TbIns.once ⟨h, e, a, b, some c, [1], [59], false, [], false⟩ tbDerail tbinitGo s := rfl

theorem exec_tbexpect (h : Hdr) (arr : Bool) (a b : Src) (e : Ext) (s : State) :
    exec (.tbexpect h arr a b e) s = TbIns.once ⟨h, e, a, b, none, [1, 2], [59], arr, [], false⟩ tbDerail
      (fun _ _ x n _ c => c.updBar x (fun t => t.expect n arr)) s := rfl

/-- The operands of `tbarrive`. -/
def tbarriveIns (h : Hdr) (dst : BitVec 8) (a b : Src) (e : Ext) : TbIns :=
  ⟨h, e, a, b, none, [1, 2], if dst = 255 then [59] else [59, 57], true, (ADst.vec dst false).regs, false⟩

theorem exec_tbarrive (h : Hdr) (dst : BitVec 8) (a b : Src) (e : Ext) (s : State) :
    exec (.tbarrive h false dst a b e) s =
      (tbarriveIns h dst a b e).once tbDerail (fun _ act x n _ c => c.arrive x n dst.toNat act) s := rfl

/-- The place of a barrier is in a resident group. -/
theorem tbReads_place {b : TbIns} {s : State} {l : Lane} {k : Nat} {x : ScrLoc} {n c : Nat} (hr : tbReads b s l k x n c) :
    x.wg = l.ref.wg ∨ (s.wg? x.wg).isSome := by
  obtain ⟨-, -, rs, -, -, -, -, hplace⟩ := hr
  exact mem_memPlace hplace

theorem phased_place (dst : Nat) (v : TBar) (y : Thread) : (phased dst v y).pc = y.pc ∧ (phased dst v y).st = y.st := by
  obtain ⟨-, hpc, hst⟩ := setWords_in y dst [⟨BitVec.ofNat 32 v.phase, false⟩]
  exact ⟨hpc, hst⟩

/-- An active thread that took the phase of `v` as it moved on has it in its register. -/
theorem wordsIn_of_phased {l : Lane} {h : Hdr} {dst : Nat} {v : TBar} {j : Nat} {y : Thread} (hj : j ∈ active l h)
    (hk : kept (phased dst v ((l.advance l.w.batch 16).w.th j)) y) : wordsIn dst [⟨BitVec.ofNat 32 v.phase, false⟩] (l.w.th j) y :=
  wordsIn_kept (wordsIn_from (setWords_in _ dst [⟨BitVec.ofNat 32 v.phase, false⟩]).1 (advance_past 16 hj).2) hk

section
variable {s : State} {l : Lane} {k : Nat} {ks : List Nat} {x : ScrLoc} {n c : Nat} (hl : s.lane? = some l)
include hl

/-- An update that no thread gets a result of. -/
theorem update_done {i : Instr} {b : TbIns} {go : VAddr → List Nat → ScrLoc → Nat → Nat → Ctx → Ctx} {f : TBar → TBar}
    (he : exec i s = b.once tbDerail go s) (hclear : tbClear b l) (hact : active l b.h = k :: ks)
    (hguards : ∀ j ∈ active l b.h, (l.w.th j).predCraze b.h.guard = none) (hr : tbReads b s l k x n c)
    (hgo : go l.w.pc (active l b.h) x n c ⟨s, l.advance l.w.batch 16⟩ = Ctx.updBar ⟨s, l.advance l.w.batch 16⟩ x f)
    (hf : (f (barrier s x)).InRange) :
    ∃ t w, exec i s = .next t ∧ onlyScratch s t l w ∧ w = { l.w with thr := w.thr, chain := 0 } ∧ barrier t x = f (barrier s x) ∧
      (∀ g j, (g ≠ x.wg ∨ j ∉ wordsOf x.off 16) → (scratch t g).word j = (scratch s g).word j) ∧
      (∀ g j, (scratch t g).granule j = (scratch s g).granule j) ∧
      (∀ j ∈ l.w.batch, past 16 (l.w.th j) (w.th j)) ∧
      (∀ j ∈ active l b.h, kept (l.w.th j) (w.th j)) ∧
      (∀ j ∈ l.w.batch, j ∉ active l b.h → kept (l.w.th j) (w.th j)) ∧
      (∀ j < 32, j ∉ l.w.batch → bystander (l.w.th j) (w.th j)) := by
  have hbody := (onceBody_reads hl hact hr hguards go).trans hgo
  obtain ⟨hturn, hw⟩ := updBar_turn (tbTurn_self hl hr) (tbReads_place hr) hf
  obtain ⟨t, w, hx, honly, hwarp, hbar, hwords, hgran, hpast, hkept, hidle, hother⟩ := tb_done hl (he.trans (once_eq b go s)) hclear
    hbody hturn.toTbView (F := (l.advance l.w.batch 16).w.th) (fun u _ => by rw [hw, ite_self]) (fun _ => ⟨rfl, rfl⟩)
  exact ⟨t, w, hx, honly, hwarp, hbar, hwords, hgran, hpast, fun j hj => kept_trans (advance_past 16 hj).2 (hkept j hj), hidle, hother⟩

/-- `tbarrive` without `.thr`. -/
theorem tbarrive_done {h : Hdr} {dst : BitVec 8} {a b : Src} {e : Ext} (hclear : tbClear (tbarriveIns h dst a b e) l)
    (hact : active l h = k :: ks) (hguards : ∀ j ∈ active l h, (l.w.th j).predCraze h.guard = none)
    (hr : tbReads (tbarriveIns h dst a b e) s l k x n c) :
    ∃ t w, exec (.tbarrive h false dst a b e) s = .next t ∧ onlyScratch s t l w ∧ w = { l.w with thr := w.thr, chain := 0 } ∧
      barrier t x = (barrier s x).arrive n ∧
      (∀ g j, (g ≠ x.wg ∨ j ∉ wordsOf x.off 16) → (scratch t g).word j = (scratch s g).word j) ∧
      (∀ g j, (scratch t g).granule j = (scratch s g).granule j) ∧
      (∀ j ∈ l.w.batch, past 16 (l.w.th j) (w.th j)) ∧
      (∀ j ∈ active l h, wordsIn dst.toNat [⟨BitVec.ofNat 32 (barrier s x).phase, false⟩] (l.w.th j) (w.th j)) ∧
      (∀ j ∈ l.w.batch, j ∉ active l h → kept (l.w.th j) (w.th j)) ∧
      (∀ j < 32, j ∉ l.w.batch → bystander (l.w.th j) (w.th j)) := by
  have hbody := onceBody_reads hl hact hr hguards (fun _ act x n _ c => c.arrive x n dst.toNat act)
  obtain ⟨hturn, hth⟩ := arrive_turn (tbTurn_self hl hr) (tbReads_place hr) n dst.toNat (active_nodup l h)
  obtain ⟨t, w, hx, honly, hwarp, hbar, hwords, hgran, hpast, hkept, hidle, hother⟩ := tb_done hl
    ((exec_tbarrive h dst a b e s).trans (once_eq _ _ s)) hclear hbody hturn.toTbView
    (F := fun u => phased dst.toNat (barrier s x) ((l.advance l.w.batch 16).w.th u)) hth (fun u => phased_place _ _ _)
  exact ⟨t, w, hx, honly, hwarp, hbar, hwords, hgran, hpast, fun j hj => wordsIn_of_phased hj (hkept j hj), hidle, hother⟩

end

/-! ## An update of each active thread (R203) -/

/-- The turn of thread `t` at `tbarrive.thr`. -/
def thrTurn (i : TbIns) (dst : Nat) (pc : VAddr) (c : Ctx) (t : Nat) : Ctx :=
  let (l, o, b, _, p) := i.args pc c.l t
  let c : Ctx := { c with l := l }
  match crazeOf [p, (c.l.w.th t).predCraze i.h.guard] with
  | some p => c.onL (fun l => l.derail t p)
  | none =>
    match c.check (exSeg i.e) t o 16 i.perms i.kinds true with
    | .ok (.scr x) => (c.scrubScr t pc x.wg (wordsOf x.off 16)).arrive x b dst [t]
    | .ok (.va _) => c
    | .fault q o =>
      let (c, p) := c.originate q 0 t pc (some o)
      c.onL (fun l => l.derail t p)

theorem exec_tbarriveThr (h : Hdr) (dst : BitVec 8) (a b : Src) (e : Ext) (s : State) :
    exec (.tbarrive h true dst a b e) s = (tbarriveIns h dst a b e).form.execC (tbarriveIns h dst a b e).waits
      (fun pc act c => act.foldl (thrTurn (tbarriveIns h dst a b e) dst.toNat pc) c) s := rfl

section
variable {s : State} {l : Lane} {b : TbIns} {x : ScrLoc} {dst : Nat} {n : Nat → Nat} (hl : s.lane? = some l)
include hl

/-- A thread with clean operands makes its arrival. -/
theorem thrTurn_arrives {v : TBar} {c : Ctx} {t m k : Nat} (hc : TbTurn s l x v c) (ht : t < 32)
    (hth : c.l.w.th t = (l.advance l.w.batch 16).w.th t) (hguard : (l.w.th t).predCraze b.h.guard = none)
    (hr : tbReads b s l t x m k) : thrTurn b dst l.w.pc c t = c.arrive x m dst [t] := by
  obtain ⟨hg, -⟩ := lane?_wg hl
  have hdata : (c.l.w.th t).SameData (l.w.th t) := by rw [hth]; exact advance_data l _ _ ht
  obtain ⟨o, hargs, hplace⟩ := args_of_reads hr (m := c.l) (by rw [hc.near.lane]; rfl) hdata l.w.pc
  have hcz := crazeOf_guards (m := c.l) (ts := [t]) (h := b.h) (by simpa using hguard) (by simpa using hdata)
  have hcheck := (check_alike (near_alike l.w.batch 16 hg hc.near hc.bar.size) _ _ _ _ _ _ _).trans hplace
  simp only [List.map_cons, List.map_nil] at hcz
  simp only [thrTurn, hargs, hcz, hcheck, scrubScr_clean hc.clean]

/-- The turns of the threads `ts`, from the barrier `v` on. -/
theorem thrTurns {ts : List Nat} : ∀ {v : TBar} {c : Ctx}, TbTurn s l x v c → ts.Nodup → (∀ t ∈ ts, t < 32) →
    (∀ t ∈ ts, c.l.w.th t = (l.advance l.w.batch 16).w.th t) →
    (∀ t ∈ ts, (l.w.th t).predCraze b.h.guard = none ∧ ∃ k, tbReads b s l t x (n t) k) →
    TbTurn s l x (ts.foldl (fun v t => v.arrive (n t)) v) (ts.foldl (thrTurn b dst l.w.pc) c) ∧
    ∀ u < 32, (ts.foldl (thrTurn b dst l.w.pc) c).l.w.th u = if u ∈ ts
      then phased dst ((ts.takeWhile (· != u)).foldl (fun v t => v.arrive (n t)) v) ((l.advance l.w.batch 16).w.th u)
      else c.l.w.th u := by
  induction ts with
  | nil => exact fun hc _ _ _ _ => ⟨hc, fun u _ => by simp⟩
  | cons t ts ih =>
    intro v c hc hn hlt hth hall
    obtain ⟨hnt, hn⟩ := List.nodup_cons.mp hn
    obtain ⟨hguard, k, hr⟩ := hall t List.mem_cons_self
    have hone := thrTurn_arrives (dst := dst) hl hc (hlt t List.mem_cons_self) (hth t List.mem_cons_self) hguard hr
    obtain ⟨hturn, hthr⟩ := arrive_turn hc (tbReads_place hr) (n t) dst (List.nodup_singleton t)
    obtain ⟨hrest, hthrest⟩ := ih hturn hn (fun u hu => hlt u (List.mem_cons_of_mem t hu))
      (fun u hu => by
        rw [hthr u (hlt u (List.mem_cons_of_mem t hu)), if_neg (by simpa using fun e : u = t => hnt (e ▸ hu))]
        exact hth u (List.mem_cons_of_mem t hu))
      (fun u hu => hall u (List.mem_cons_of_mem t hu))
    rw [List.foldl_cons, List.foldl_cons, hone]
    refine ⟨hrest, fun u hu => (hthrest u hu).trans ?_⟩
    by_cases hut : u = t
    · subst hut
      rw [if_neg hnt, hthr u hu, if_pos List.mem_cons_self, if_pos List.mem_cons_self, hth u List.mem_cons_self]
      simp
    · have htu : (t != u) = true := bne_iff_ne.mpr (Ne.symm hut)
      have hkeep : (c.arrive x (n t) dst [t]).l.w.th u = c.l.w.th u := (hthr u hu).trans (if_neg (by simpa using hut))
      rw [hkeep, List.takeWhile_cons, if_pos htu, List.foldl_cons]
      simp only [List.mem_cons, hut, false_or]

/-- `tbarrive.thr`. -/
theorem tbarriveThr_done {h : Hdr} {a c : Src} {e : Ext} {dst : BitVec 8} (hclear : tbClear (tbarriveIns h dst a c e) l)
    (hall : ∀ k ∈ active l h, (l.w.th k).predCraze h.guard = none ∧ ∃ c', tbReads (tbarriveIns h dst a c e) s l k x (n k) c') :
    ∃ t w, exec (.tbarrive h true dst a c e) s = .next t ∧ onlyScratch s t l w ∧ w = { l.w with thr := w.thr, chain := 0 } ∧
      barrier t x = (active l h).foldl (fun v j => v.arrive (n j)) (barrier s x) ∧
      (∀ g j, (g ≠ x.wg ∨ j ∉ wordsOf x.off 16) → (scratch t g).word j = (scratch s g).word j) ∧
      (∀ g j, (scratch t g).granule j = (scratch s g).granule j) ∧
      (∀ j ∈ l.w.batch, past 16 (l.w.th j) (w.th j)) ∧
      (∀ j ∈ active l h, wordsIn dst.toNat
        [⟨BitVec.ofNat 32 (((active l h).takeWhile (· != j)).foldl (fun v j => v.arrive (n j)) (barrier s x)).phase, false⟩]
        (l.w.th j) (w.th j)) ∧
      (∀ j ∈ l.w.batch, j ∉ active l h → kept (l.w.th j) (w.th j)) ∧
      (∀ j < 32, j ∉ l.w.batch → bystander (l.w.th j) (w.th j)) := by
  obtain ⟨hview, hth⟩ : TbView s l x ((active l h).foldl (fun v t => v.arrive (n t)) (barrier s x))
      ((active l h).foldl (thrTurn (tbarriveIns h dst a c e) dst.toNat l.w.pc) ⟨s, l.advance l.w.batch 16⟩) ∧
      ∀ u < 32, ((active l h).foldl (thrTurn (tbarriveIns h dst a c e) dst.toNat l.w.pc) ⟨s, l.advance l.w.batch 16⟩).l.w.th u =
        if u ∈ active l h then phased dst.toNat (((active l h).takeWhile (· != u)).foldl (fun v t => v.arrive (n t)) (barrier s x))
          ((l.advance l.w.batch 16).w.th u)
        else (l.advance l.w.batch 16).w.th u := by
    have hturns := thrTurns (b := tbarriveIns h dst a c e) (x := x) (dst := dst.toNat) (n := n) hl (ts := active l h)
      (v := barrier s x) (c := ⟨s, l.advance l.w.batch 16⟩)
    cases hact : active l h with
    | nil => exact ⟨tbView_self hl x, fun u _ => by simp⟩
    | cons k ks =>
      obtain ⟨-, c', hr⟩ := hall k (by rw [hact]; exact List.mem_cons_self)
      rw [← hact]
      obtain ⟨hturn, hth⟩ := hturns (tbTurn_self hl hr) (active_nodup l h) (fun _ => active_lt) (fun _ _ => rfl) hall
      exact ⟨hturn.toTbView, hth⟩
  obtain ⟨t, w, hx, honly, hwarp, hbar, hwords, hgran, hpast, hkept, hidle, hother⟩ := tb_done hl
    (exec_tbarriveThr h dst a c e s) hclear rfl hview hth (fun u => phased_place _ _ _)
  exact ⟨t, w, hx, honly, hwarp, hbar, hwords, hgran, hpast, fun j hj => wordsIn_of_phased hj (hkept j hj), hidle, hother⟩

end

/-- Settles O27: `tbinit` and `tbexpect` update the barrier, `tbarrive` gives its phase too, once or for each thread. -/
theorem barrierUpdates : Obligations.BarrierUpdates := by
  refine ⟨fun i s l b k ks x n c hl hi honce hclear hact hguards hr => ?_, fun s l h dst a b e bi x hl hi hclear n hall => ?_⟩
  · cases i
    case tbinit h a o c' e =>
      cases hi
      obtain ⟨hn0, hn⟩ := honce
      exact update_done hl (exec_tbinit h a o c' e s) hclear hact hguards hr (if_neg (by omega)) (init_inRange hn (tbReads_lt hr))
    case tbexpect h arr a o e =>
      cases hi
      exact update_done hl (exec_tbexpect h arr a o e s) hclear hact hguards hr rfl (expect_inRange (unpack_inRange _) n arr)
    case tbarrive h thr dst a o e =>
      cases hi
      cases honce
      exact tbarrive_done hl hclear hact hguards hr
    case tbwait | tbtest => exact honce.elim
    all_goals cases hi
  · cases hi
    exact tbarriveThr_done hl hclear hall

end Sys2Proof.Machine

namespace Sys2Proof.Machine

open Sys2Proof.Claims

/-! ## Instructions that write scratchpads in turns -/

/-- An instruction whose turns have left the view `c`, near to the machine, with `n` accesses counted. -/
theorem scratch_done {i : Instr} {f : Form} {wait : Ctx → List Nat → Bool} {body : VAddr → List Nat → Ctx → Ctx} {s : State} {l : Lane}
    {c : Ctx} {n : Nat} {F : Nat → Thread} (hl : s.lane? = some l) (he : exec i s = f.execC wait body s) (hsize : f.size = 16)
    (hr : l.w.ready f.regs = true) (hf : f.fault l = none) (hw : wait ⟨s, l⟩ (active l f.h) = false)
    (hc : body l.w.pc (active l f.h) ⟨s, l.advance l.w.batch 16⟩ = c) (hnear : c.Near s (l.advance l.w.batch 16))
    (hz : ∀ g, (c.scr g).size = (scratch s g).size) (hpo : c.l.w.po = l.w.po + n) (hid : c.l.w.nextId = l.w.nextId + n)
    (hth : ∀ u < 32, c.l.w.th u = if u ∈ active l f.h then F u else (l.advance l.w.batch 16).w.th u)
    (hF : ∀ u, (F u).pc = ((l.advance l.w.batch 16).w.th u).pc ∧ (F u).st = ((l.advance l.w.batch 16).w.th u).st) :
    ∃ t w, exec i s = .next t ∧ onlyScratch s t l w ∧ onlyCounted n l w ∧ (∀ g, scratch t g = c.scr g) ∧
      (∀ k ∈ l.w.batch, past 16 (l.w.th k) (w.th k)) ∧ (∀ k ∈ active l f.h, kept (F k) (w.th k)) ∧
      (∀ k ∈ l.w.batch, k ∉ active l f.h → kept (l.w.th k) (w.th k)) ∧
      (∀ k < 32, k ∉ l.w.batch → bystander (l.w.th k) (w.th k)) := by
  rw [← hsize] at hc hth
  obtain ⟨m, hx, hm, hmw, hpast, hact, hidle, hother⟩ := runC_done i f wait body F s l c hl he hr hf hw hc hth (fun u hu => by
    obtain ⟨hpc, hst⟩ := hF u
    obtain ⟨⟨hpc', hst'⟩, -⟩ := advance_past 16 hu
    rw [hsize]
    exact ⟨hpc.trans hpc', hst.trans hst'⟩)
  obtain ⟨honly, hput⟩ := near_onlyScratch hl hnear hm hz
  rw [hsize] at hpast
  refine ⟨_, m.w, hx, honly, ?_, hput, hpast, hact, hidle, hother⟩
  have hcw := congrArg Lane.w hnear.lane
  rw [hpo, hid] at hcw
  unfold onlyCounted
  rw [hmw, hcw]
  rfl

/-- Writing a scratchpad of a resident group: the view stays near, and the scratchpads are what they were but for that one. -/
theorem setScr_view {s : State} {l : Lane} {c : Ctx} {m : Nat → Scr} (hc : c.Near s l) (hm : ∀ g, c.scr g = m g) {a : ScrLoc}
    (ha : a.wg = l.ref.wg ∨ (s.wg? a.wg).isSome) (f : Scr → Scr) :
    (c.setScr a.wg (f (c.scr a.wg))).Near s l ∧
      (∀ g, (c.setScr a.wg (f (c.scr a.wg))).scr g = if g = a.wg then f (m g) else m g) ∧
      (c.setScr a.wg (f (c.scr a.wg))).l.w = c.l.w := by
  obtain ⟨hn, hs, hw⟩ := near_setScr hc a.wg (f (c.scr a.wg)) ha
  refine ⟨hn, fun g => ?_, hw⟩
  rw [hs, hm, hm]
  split
  · next e => rw [e]
  · rfl

/-- Turns that treat words alike make the same words. -/
theorem foldl_words {turn turn' : (Nat → Scr) → Nat → Nat → Scr}
    (h : ∀ m m' k, (∀ g j, (m g).word j = (m' g).word j) → ∀ g j, (turn m k g).word j = (turn' m' k g).word j) :
    ∀ (ts : List Nat) {m m' : Nat → Scr}, (∀ g j, (m g).word j = (m' g).word j) →
      ∀ g j, (ts.foldl turn m g).word j = (ts.foldl turn' m' g).word j
  | [], _, _, hm => hm
  | t :: ts, m, m', hm => foldl_words h ts (h m m' t hm)

/-! ## Stores to scratchpads (R186, R191) -/

/-- Scratchpads with the granules that `n` bytes at a place touch full. -/
def fillAt (m : Nat → Scr) (a : ScrLoc) (n : Nat) : Nat → Scr := fun g => if g = a.wg then (m g).fill a.off n else m g

/-- The turn of thread `k` at a store of `n` bytes. -/
def storeTurn (fill : Bool) (n : Nat) (place : Nat → ScrLoc) (cells : Nat → List WCell) (m : Nat → Scr) (k : Nat) : Nat → Scr :=
  if fill then fillAt (store m (place k) (cells k)) (place k) n else store m (place k) (cells k)

theorem fillAt_word (m : Nat → Scr) (a : ScrLoc) (n g j : Nat) : (fillAt m a n g).word j = (m g).word j := by
  unfold fillAt
  split
  · obtain ⟨-, hwords, -⟩ := fill_rest (m g) a.off n
    rw [Scr.word, hwords]
    rfl
  · rfl

theorem store_word_congr {m m' : Nat → Scr} (h : ∀ g j, (m g).word j = (m' g).word j) (a : ScrLoc) (cs : List WCell) (g j : Nat) :
    (store m a cs g).word j = (store m' a cs g).word j := by
  unfold store
  split
  · rw [writeCells_word, writeCells_word, h]
  · exact h g j

theorem store_granule (m : Nat → Scr) (a : ScrLoc) (cs : List WCell) (g n : Nat) : (store m a cs g).granule n = (m g).granule n := by
  unfold store
  split
  · obtain ⟨-, hgran, -⟩ := writeCells_rest a.off cs (m g)
    rw [Scr.granule, hgran]
    rfl
  · rfl

section
variable {fill : Bool} {n : Nat} {place : Nat → ScrLoc} {cells : Nat → List WCell}

/-- Filling plays no part in the words. -/
theorem storeTurn_word {m m' : Nat → Scr} (k : Nat) (h : ∀ g j, (m g).word j = (m' g).word j) (g j : Nat) :
    (storeTurn fill n place cells m k g).word j = (store m' (place k) (cells k) g).word j := by
  unfold storeTurn
  split
  · rw [fillAt_word, store_word_congr h]
  · rw [store_word_congr h]

theorem storeTurn_granule (m : Nat → Scr) (k g j : Nat) : (storeTurn fill n place cells m k g).granule j =
    if fill = true ∧ (place k).wg = g ∧ j ∈ granulesOf (place k).off n then .full else (m g).granule j := by
  unfold storeTurn
  cases fill with
  | false => simp [store_granule]
  | true =>
    simp only [if_true, true_and]
    unfold fillAt
    by_cases hg : g = (place k).wg
    · obtain ⟨-, -, -, hgran⟩ := fill_rest (store m (place k) (cells k) g) (place k).off n
      rw [if_pos hg, hgran, store_granule]
      simp [hg]
    · rw [if_neg hg, store_granule, if_neg (fun h => hg h.1.symm)]

/-- The granules that the turns touch. -/
theorem foldl_storeTurn_granule (g j : Nat) : ∀ (ts : List Nat) (m : Nat → Scr),
    (ts.foldl (storeTurn fill n place cells) m g).granule j =
      if fill = true ∧ ∃ k ∈ ts, (place k).wg = g ∧ j ∈ granulesOf (place k).off n then .full else (m g).granule j
  | [], m => by simp
  | t :: ts, m => by
    rw [List.foldl_cons, foldl_storeTurn_granule g j ts, storeTurn_granule]
    simp only [List.mem_cons, exists_eq_or_imp]
    by_cases h1 : fill = true ∧ (place t).wg = g ∧ j ∈ granulesOf (place t).off n
    · rw [if_pos h1, ite_self, if_pos ⟨h1.1, .inl h1.2⟩]
    · rw [if_neg h1]
      by_cases h2 : fill = true ∧ ∃ k ∈ ts, (place k).wg = g ∧ j ∈ granulesOf (place k).off n
      · rw [if_pos h2, if_pos ⟨h2.1, .inr h2.2⟩]
      · rw [if_neg h2, if_neg (fun h => h.2.elim (fun hd => h1 ⟨h.1, hd⟩) (fun tl => h2 ⟨h.1, tl⟩))]

theorem storeTurn_calm {s : State} {ps : List ScrLoc} {m : Nat → Scr} (h : Calm s ps m) (k : Nat) :
    Calm s ps (storeTurn fill n place cells m k) := by
  have hs := store_calm h (place k) (cells k)
  unfold storeTurn
  split
  · refine ⟨fun g => ?_, fun b hb => ?_⟩ <;> unfold fillAt <;> split
    · obtain ⟨hsize, -⟩ := fill_rest (store m (place k) (cells k) g) (place k).off n
      exact hsize.trans (hs.size g)
    · exact hs.size g
    · obtain ⟨-, -, hbad, -⟩ := fill_rest (store m (place k) (cells k) b.wg) (place k).off n
      exact hbad.trans (hs.bad b hb)
    · exact hs.bad b hb
  · exact hs

end

/-- Filling granules of a view. -/
theorem setScr_fill {s : State} {l : Lane} {c : Ctx} {m : Nat → Scr} (hc : c.Near s l) (hm : ∀ g, c.scr g = m g) {a : ScrLoc}
    (ha : a.wg = l.ref.wg ∨ (s.wg? a.wg).isSome) (n : Nat) :
    (c.setScr a.wg ((c.scr a.wg).fill a.off n)).Near s l ∧
      (∀ g, (c.setScr a.wg ((c.scr a.wg).fill a.off n)).scr g = fillAt m a n g) ∧
      (c.setScr a.wg ((c.scr a.wg).fill a.off n)).l.w = c.l.w :=
  setScr_view hc hm ha (fun x => x.fill a.off n)

/-- The cells that thread `k` stores. -/
def storedCells (f : MemForm) (l : Lane) (k : Nat) : List WCell :=
  cellsOf 0 f.m.n (memArgs f.m f.h l k).data (crazeOf [(memArgs f.m f.h l k).dcrz, (memArgs f.m f.h l k).guard])

/-- The places of a scratchpad instruction: its active threads have clean addresses, in scratchpads without errors. -/
def scratchPlaces (s : State) (l : Lane) (f : MemForm) (place : Nat → ScrLoc) : Prop :=
  ∀ k ∈ active l f.h, memClean f.m l k ∧ (memArgs f.m f.h l k).addr = none ∧ memPlace f.m f.row f.h s l k = .ok (.scr (place k)) ∧
    (scratch s (place k).wg).bad = []

section
variable {s : State} {l : Lane} {f : MemForm} {place : Nat → ScrLoc} (hl : s.lane? = some l) (hp : scratchPlaces s l f place)
include hl hp

/-- What an active thread meets in its turn: its operands, its place, a scratchpad without errors. -/
theorem turn_meets {d : Ctx} {m : Nat → Scr} {k : Nat} (hk : k ∈ active l f.h) (hd : d.Near s (l.advance l.w.batch 16))
    (hm : ∀ g, d.scr g = m g) (hcalm : Calm s ((active l f.h).map place) m) (hth : d.l.w.th k = (l.advance l.w.batch 16).w.th k)
    (disc : Bool) :
    f.m.args f.h l.w.pc disc d.l k = (d.l, memArgs f.m f.h l k) ∧
      d.check (exSeg f.m.e) k (memArgs f.m f.h l k).o f.m.n [f.row.perm] f.row.kinds true = .ok (.scr (place k)) ∧
      (d.scr (place k).wg).bad = [] := by
  obtain ⟨hg, -⟩ := lane?_wg hl
  obtain ⟨hclean, -, hplace, -⟩ := hp k hk
  refine ⟨args_advanced (active_lt hk) (by rw [hd.lane]; rfl) hth hclean _ _, ?_, ?_⟩
  · exact (check_alike (near_alike l.w.batch 16 hg hd (fun g => by rw [hm]; exact hcalm.size g)) _ _ _ _ _ _ _).trans hplace
  · rw [hm]
    exact hcalm.bad _ (List.mem_map_of_mem hk)

omit hl in
/-- Before the first turn the scratchpads hide no errors. -/
theorem calm_self : Calm s ((active l f.h).map place) (scratch s) := by
  refine ⟨fun _ => rfl, fun a ha => ?_⟩
  obtain ⟨k, hk, rfl⟩ := List.mem_map.mp ha
  obtain ⟨-, -, -, hbad⟩ := hp k hk
  exact hbad

/-- The turn of an active thread at a store. -/
theorem nearOne_stores {d : Ctx} {m : Nat → Scr} {k : Nat} (fill : Bool) (hk : k ∈ active l f.h)
    (hd : d.Near s (l.advance l.w.batch 16)) (hm : ∀ g, d.scr g = m g) (hcalm : Calm s ((active l f.h).map place) m)
    (hth : d.l.w.th k = (l.advance l.w.batch 16).w.th k) :
    Took s (l.advance l.w.batch 16) k ((l.advance l.w.batch 16).w.th k) (storeTurn fill f.m.n place (storedCells f l) m k) d
      (nearOne f.m f.row f.h none fill l.w.pc d k) := by
  obtain ⟨hargs, hcheck, hbad⟩ := turn_meets hl hp hk hd hm hcalm hth false
  obtain ⟨-, haddr, hplace, -⟩ := hp k hk
  have ha := mem_memPlace hplace
  rw [nearOne_store f.m f.row f.h fill l.w.pc l d k (place k) hargs haddr hcheck hbad]
  obtain ⟨hn1, hs1, hw1⟩ := setScr_view hd hm ha (fun x => x.writeCells (place k).off (storedCells f l k))
  have hn2 := near_onL_tick hn1
  have hkeep : ∀ u < 32, d.l.w.th u = if u = k then (l.advance l.w.batch 16).w.th k else d.l.w.th u := fun u _ => by
    split
    · next e => rw [e, hth]
    · rfl
  cases fill with
  | false =>
    refine ⟨hn2, hs1, congrArg (fun w : Warp => w.po + 1) hw1, congrArg (fun w : Warp => w.nextId + 1) hw1, fun u hu => ?_⟩
    exact (congrArg (fun w : Warp => w.th u) hw1).trans (hkeep u hu)
  | true =>
    obtain ⟨hn3, hs3, hw3⟩ := setScr_fill hn2 hs1 ha f.m.n
    refine ⟨hn3, hs3, (congrArg Warp.po hw3).trans (congrArg (fun w : Warp => w.po + 1) hw1),
      (congrArg Warp.nextId hw3).trans (congrArg (fun w : Warp => w.nextId + 1) hw1), fun u hu => ?_⟩
    exact (congrArg (fun w : Warp => w.th u) hw3).trans ((congrArg (fun w : Warp => w.th u) hw1).trans (hkeep u hu))

end

/-- The form of `st` and `red`. -/
def storeForm (m : MemIns) (row : MemRow) (h : Hdr) (fill : Bool) : Form :=
  { h, size := memSize, chains := false, regs := m.regs
    fault := fun l => illegal (m.bad row l || (fill && l.heldSeg (exSeg m.e))) }

/-- What holds `st` and `red` back. -/
def storeWaits (m : MemIns) (c : Ctx) (act : List Nat) : Bool :=
  if m.held c then act.any (fun t => !c.l.w.member t) && !c.l.wg.never 4 && !c.canReserve 4
  else c.l.w.holdsAt act true (exOrd m.e == 2)

/-- What `st` and `red` do. -/
def storeBody (m : MemIns) (row : MemRow) (h : Hdr) (red : Option Nat) (fill : Bool) (pc : VAddr) (act : List Nat) (c : Ctx) : Ctx :=
  if m.held c then heldBody m row h red pc act c else act.foldl (nearOne m row h red fill pc) c

theorem exec_st (h : Hdr) (a64 fill : Bool) (a b c : Src) (e : Ext) (s : State) :
    exec (.st h a64 fill a b c e) s = (storeForm ⟨a64, a, some b, none, some c, e⟩ stRow h fill).execC
      (storeWaits ⟨a64, a, some b, none, some c, e⟩) (storeBody ⟨a64, a, some b, none, some c, e⟩ stRow h none fill) s := rfl

/-- The turns of a store, from a machine whose scratchpads are as the places say. -/
theorem store_turns {s : State} {l : Lane} {f : MemForm} {place : Nat → ScrLoc} (hl : s.lane? = some l) (hp : scratchPlaces s l f place)
    (fill : Bool) {c : Ctx} (hc : (active l f.h).foldl (nearOne f.m f.row f.h none fill l.w.pc) ⟨s, l.advance l.w.batch 16⟩ = c) :
    c.Near s (l.advance l.w.batch 16) ∧
      (∀ g, c.scr g = (active l f.h).foldl (storeTurn fill f.m.n place (storedCells f l)) (scratch s) g) ∧
      (∀ g, (c.scr g).size = (scratch s g).size) ∧ c.l.w.po = l.w.po + (active l f.h).length ∧
      c.l.w.nextId = l.w.nextId + (active l f.h).length ∧ ∀ u < 32, c.l.w.th u = (l.advance l.w.batch 16).w.th u := by
  obtain ⟨hg, -⟩ := lane?_wg hl
  obtain ⟨hnear, hscr, hcalm, hpo, hid, hth⟩ := foldl_turns (nearOne f.m f.row f.h none fill l.w.pc)
    (storeTurn fill f.m.n place (storedCells f l)) (fun _ k => (l.advance l.w.batch 16).w.th k)
    (Calm s ((active l f.h).map place)) s (l.advance l.w.batch 16) (active l f.h) ⟨s, l.advance l.w.batch 16⟩ (scratch s)
    (active_nodup l f.h) (near_self hg _ _) (scr_of_lane hg rfl rfl rfl) (calm_self hp) (fun _ k _ hc => storeTurn_calm hc k)
    (fun _ _ => rfl) (fun _ hk => active_lt hk) (fun _ _ _ hk hd hn hc hk' => nearOne_stores hl hp fill hk hd hn hc hk')
  rw [hc] at hnear hscr hpo hid hth
  exact ⟨hnear, hscr, fun g => by rw [hscr]; exact hcalm.size g, hpo, hid, fun u hu => (hth u hu).trans (ite_self _)⟩

/-- What the turns of a store make of the words and of the granules. -/
theorem storeTurns_words {s : State} (fill : Bool) (n : Nat) (place : Nat → ScrLoc) (cells : Nat → List WCell) (ts : List Nat) (g j : Nat) :
    (ts.foldl (storeTurn fill n place cells) (scratch s) g).word j =
      (ts.foldl (fun m k => store m (place k) (cells k)) (scratch s) g).word j :=
  foldl_words (turn := storeTurn fill n place cells) (turn' := fun m k => store m (place k) (cells k))
    (fun _ _ k h => storeTurn_word k h) ts (fun _ _ => rfl) g j

/-- A store to scratchpads that nothing holds back. -/
theorem store_done {i : Instr} {s : State} {l : Lane} {f : MemForm} {fill : Bool} {place : Nat → ScrLoc} (hl : s.lane? = some l)
    (he : exec i s = (storeForm f.m f.row f.h fill).execC (storeWaits f.m) (storeBody f.m f.row f.h none fill) s)
    (hbad : f.m.bad f.row l = false) (hr : l.w.ready f.m.regs = true) (hheld : l.heldSeg (exSeg f.m.e) = false)
    (hhold : l.w.holdsAt (active l f.h) true (exOrd f.m.e == 2) = false) (hp : scratchPlaces s l f place) :
    ∃ t w, exec i s = .next t ∧ onlyScratch s t l w ∧ onlyCounted (active l f.h).length l w ∧
      (∀ g, scratch t g = (active l f.h).foldl (storeTurn fill f.m.n place (storedCells f l)) (scratch s) g) ∧
      (∀ k ∈ l.w.batch, past 16 (l.w.th k) (w.th k) ∧ kept (l.w.th k) (w.th k)) ∧
      (∀ k < 32, k ∉ l.w.batch → bystander (l.w.th k) (w.th k)) := by
  obtain ⟨hnear, hscr, hsize, hpo, hid, hth⟩ := store_turns hl hp fill rfl
  have hbody : storeBody f.m f.row f.h none fill l.w.pc (active l f.h) ⟨s, l.advance l.w.batch 16⟩ =
      (active l f.h).foldl (nearOne f.m f.row f.h none fill l.w.pc) ⟨s, l.advance l.w.batch 16⟩ :=
    if_neg (Bool.eq_false_iff.mp hheld)
  have hfault : (storeForm f.m f.row f.h fill).fault l = none := by simp [storeForm, illegal, hbad, hheld]
  have hwait : storeWaits f.m ⟨s, l⟩ (active l f.h) = false := (if_neg (Bool.eq_false_iff.mp hheld)).trans hhold
  obtain ⟨t, w, hx, honly, hcount, hput, hpast, hact, hidle, hother⟩ := scratch_done (F := (l.advance l.w.batch 16).w.th) hl he rfl hr
    hfault hwait hbody hnear hsize hpo hid (fun u hu => (hth u hu).trans (ite_self _).symm) (fun _ => ⟨rfl, rfl⟩)
  refine ⟨t, w, hx, honly, hcount, fun g => (hput g).trans (hscr g), fun k hk => ⟨hpast k hk, ?_⟩, hother⟩
  by_cases ha : k ∈ active l f.h
  · exact kept_trans (advance_past 16 ha).2 (hact k ha)
  · exact hidle k hk ha

/-- Settles O20: the threads store in turns; filling leaves the words. -/
theorem scratchStore : Obligations.ScratchStore := by
  intro s l h a64 fill a b c e f hl hi hs hr hheld hhold place hall cells
  cases hi
  obtain ⟨hbad, -⟩ := hs
  obtain ⟨t, w, hx, honly, hcount, hscr, hbatch, hother⟩ := store_done (place := place)
    (f := ⟨⟨a64, a, some b, none, some c, e⟩, stRow, h, 255⟩) hl (exec_st h a64 fill a b c e s) hbad hr hheld hhold hall
  have hwords : ∀ g j, (scratch t g).word j = ((active l h).foldl (fun m k => store m (place k) (cells k)) (scratch s) g).word j :=
    fun g j => (congrArg (fun x => x.word j) (hscr g)).trans (storeTurns_words _ _ _ _ _ g j)
  refine ⟨t, w, hx, honly, hcount, hwords, fun g j hj => ?_, fun g n => ?_, hbatch, hother⟩
  · rw [hwords]
    exact foldl_apart (fun m k => store m (place k) (cells k)) g j _ _ (fun k hk m => store_word m _ _ _ _ g j (hj k hk))
  · rw [hscr]
    exact foldl_storeTurn_granule g n _ _

end Sys2Proof.Machine

namespace Sys2Proof.Machine

open Sys2Proof.Claims

/-! ## Atomics and reductions on scratchpads (R194 to R196, R502) -/

/-- The turn of thread `k` at an atomic on scratchpads. -/
def atomTurn (f : MemForm) (l : Lane) (op : Nat) (place : Nat → ScrLoc) (m : Nat → Scr) (k : Nat) : Nat → Scr :=
  atomStore m op f.m.n (place k) (memArgs f.m f.h l k).data (memArgs f.m f.h l k).cmp

/-- The old words that thread `k` finds in the scratchpads `m`. -/
def atomOld (f : MemForm) (l : Lane) (op : Nat) (place : Nat → ScrLoc) (m : Nat → Scr) (k : Nat) : List TWord :=
  (atomStep op f.m.n (memArgs f.m f.h l k).data (memArgs f.m f.h l k).cmp (wordsAt (m (place k).wg) (place k).off f.m.n)).2

/-- An active thread with the old words. -/
def atomThread (f : MemForm) (l : Lane) (op : Nat) (place : Nat → ScrLoc) (m : Nat → Scr) (k : Nat) : Thread :=
  ((l.advance l.w.batch 16).w.th k).setWords f.dst (atomOld f l op place m k)

/-- An atomic stores a value, or nothing. -/
theorem atomStore_cases (m : Nat → Scr) (op n : Nat) (a : ScrLoc) (x cmp : Nat) :
    atomStore m op n a x cmp = m ∨ ∃ v, atomStore m op n a x cmp = store m a (cellsOf 0 n v none) := by
  unfold atomStore
  cases (atomStep op n x cmp (wordsAt (m a.wg) a.off n)).1 with
  | none => exact .inl rfl
  | some v => exact .inr ⟨v, rfl⟩

/-- What an atomic on scratchpads does, in terms of its turns. -/
def atomicDone (i : Instr) (s : State) (l : Lane) (f : MemForm) (op : Nat) (place : Nat → ScrLoc) : Prop :=
  ∃ t w, exec i s = .next t ∧ onlyScratch s t l w ∧ onlyCounted (active l f.h).length l w ∧
    (∀ g, scratch t g = (active l f.h).foldl (atomTurn f l op place) (scratch s) g) ∧
    (∀ k ∈ l.w.batch, past 16 (l.w.th k) (w.th k)) ∧
    (∀ k ∈ active l f.h, wordsIn f.dst (atomOld f l op place (before (active l f.h) (atomTurn f l op place) (scratch s) k) k)
      (l.w.th k) (w.th k)) ∧
    (∀ k ∈ l.w.batch, k ∉ active l f.h → kept (l.w.th k) (w.th k)) ∧
    (∀ k < 32, k ∉ l.w.batch → bystander (l.w.th k) (w.th k))

/-- An atomic leaves the granules. -/
theorem atomStore_granule (m : Nat → Scr) (op n : Nat) (a : ScrLoc) (x cmp g j : Nat) :
    (atomStore m op n a x cmp g).granule j = (m g).granule j := by
  rcases atomStore_cases m op n a x cmp with h | ⟨v, h⟩ <;> rw [h]
  exact store_granule m a _ g j

theorem atomStore_word (m : Nat → Scr) (op n : Nat) (a : ScrLoc) (x cmp g j : Nat) (h : a.wg = g → j ∉ wordsOf a.off n) :
    (atomStore m op n a x cmp g).word j = (m g).word j := by
  rcases atomStore_cases m op n a x cmp with e | ⟨v, e⟩ <;> rw [e]
  exact store_word m a n v none g j h

theorem foldl_granule {turn : (Nat → Scr) → Nat → Nat → Scr} {g j : Nat} (h : ∀ m k, (turn m k g).granule j = (m g).granule j) :
    ∀ (ts : List Nat) (m : Nat → Scr), (ts.foldl turn m g).granule j = (m g).granule j
  | [], _ => rfl
  | t :: ts, m => (foldl_granule h ts (turn m t)).trans (h m t)

/-- Without a comparison value there is none: zero. -/
theorem memArgs_cmp_zero {m : MemIns} (h : Hdr) (l : Lane) (k : Nat) (hm : m.cmp = none) : (memArgs m h l k).cmp = 0 := by
  unfold memArgs MemIns.args
  simp [hm]

/-- The words that an atomic stores, or none. -/
def Ctx.atomWrite (c : Ctx) (op n x cmp : Nat) (a : ScrLoc) : Ctx :=
  match (atomStep op n x cmp (wordsAt (c.scr a.wg) a.off n)).1 with
  | some v => c.setScr a.wg ((c.scr a.wg).writeCells a.off (cellsOf 0 n v none))
  | none => c

theorem atomWrite_view {s : State} {l : Lane} {c : Ctx} {m : Nat → Scr} (hc : c.Near s l) (hm : ∀ g, c.scr g = m g) {a : ScrLoc}
    (ha : a.wg = l.ref.wg ∨ (s.wg? a.wg).isSome) (op n x cmp : Nat) :
    (c.atomWrite op n x cmp a).Near s l ∧ (∀ g, (c.atomWrite op n x cmp a).scr g = atomStore m op n a x cmp g) ∧
      (c.atomWrite op n x cmp a).l.w = c.l.w := by
  unfold Ctx.atomWrite atomStore
  rw [hm]
  cases (atomStep op n x cmp (wordsAt (m a.wg) a.off n)).1 with
  | none => exact ⟨hc, hm, rfl⟩
  | some v =>
    rw [← hm]
    exact setScr_view hc hm ha (fun y => y.writeCells a.off (cellsOf 0 n v none))

/-- A turn that stores and gives its thread words. -/
theorem took_of_view {s : State} {l : Lane} {d c : Ctx} {m : Nat → Scr} {k : Nat} {x : Thread} (hc : c.Near s l)
    (hm : ∀ g, c.scr g = m g) (hw : c.l.w = d.l.w) : Took s l k x m d (c.onL (fun n => (n.setTh k x).tick)) := by
  obtain ⟨hn, hs⟩ := near_tick hc k x
  have hpo : c.l.w.po + 1 = d.l.w.po + 1 := by rw [hw]
  have hid : c.l.w.nextId + 1 = d.l.w.nextId + 1 := by rw [hw]
  refine ⟨hn, fun g => (hs g).trans (hm g), hpo, hid, fun u hu => ?_⟩
  show (c.l.setTh k x).w.th u = _
  rw [setTh_th _ _ _ hu, hw]

section
variable {s : State} {l : Lane} {f : MemForm} {place : Nat → ScrLoc} (hl : s.lane? = some l) (hp : scratchPlaces s l f place)
include hl hp

/-- The turn of an active thread at `atom` or `cas`. -/
theorem atomOne_takes {d : Ctx} {m : Nat → Scr} {k op : Nat} (hk : k ∈ active l f.h) (hd : d.Near s (l.advance l.w.batch 16))
    (hm : ∀ g, d.scr g = m g) (hcalm : Calm s ((active l f.h).map place) m) (hth : d.l.w.th k = (l.advance l.w.batch 16).w.th k)
    (hd0 : (memArgs f.m f.h l k).dcrz = none) (hc0 : (memArgs f.m f.h l k).ccrz = none) (hg0 : (memArgs f.m f.h l k).guard = none) :
    Took s (l.advance l.w.batch 16) k (atomThread f l op place m k) (atomTurn f l op place m k) d
      (atomOne f.m f.row f.h op f.dst false l.w.pc d k) := by
  obtain ⟨hargs, hcheck, hbad⟩ := turn_meets hl hp hk hd hm hcalm hth (f.dst == 255)
  obtain ⟨-, haddr, hplace, -⟩ := hp k hk
  obtain ⟨hn, hs, hw⟩ := atomWrite_view hd hm (mem_memPlace hplace) op f.m.n (memArgs f.m f.h l k).data (memArgs f.m f.h l k).cmp
  have hone : atomOne f.m f.row f.h op f.dst false l.w.pc d k =
      (d.atomWrite op f.m.n (memArgs f.m f.h l k).data (memArgs f.m f.h l k).cmp (place k)).onL
        (fun n => (n.setTh k (atomThread f l op place m k)).tick) := by
    rw [atomOne_clean f.m f.row f.h op f.dst l.w.pc l d k (place k) hargs haddr hd0 hc0 hg0 hcheck hbad]
    have hself : ∀ c : Ctx, c.l.w = d.l.w → c.l.w.th k = (l.advance l.w.batch 16).w.th k := fun c hcw => by rw [hcw, hth]
    show (Ctx.atomWrite d op f.m.n _ _ (place k)).onL _ = _
    simp only [Ctx.onL, hself _ hw, hm]
    rfl
  rw [hone]
  exact took_of_view hn hs hw

/-- The turn of an active thread at `red`. -/
theorem nearOne_reduces {d : Ctx} {m : Nat → Scr} {k op : Nat} (hk : k ∈ active l f.h) (hd : d.Near s (l.advance l.w.batch 16))
    (hm : ∀ g, d.scr g = m g) (hcalm : Calm s ((active l f.h).map place) m) (hth : d.l.w.th k = (l.advance l.w.batch 16).w.th k)
    (hd0 : (memArgs f.m f.h l k).dcrz = none) (hg0 : (memArgs f.m f.h l k).guard = none) (hcmp : f.m.cmp = none) (hdst : f.dst = 255) :
    Took s (l.advance l.w.batch 16) k (atomThread f l op place m k) (atomTurn f l op place m k) d
      (nearOne f.m f.row f.h (some op) false l.w.pc d k) := by
  obtain ⟨hargs, hcheck, hbad⟩ := turn_meets hl hp hk hd hm hcalm hth false
  obtain ⟨-, haddr, hplace, -⟩ := hp k hk
  obtain ⟨hn, hs, hw⟩ := atomWrite_view hd hm (mem_memPlace hplace) op f.m.n (memArgs f.m f.h l k).data (memArgs f.m f.h l k).cmp
  have hone : nearOne f.m f.row f.h (some op) false l.w.pc d k =
      (d.atomWrite op f.m.n (memArgs f.m f.h l k).data (memArgs f.m f.h l k).cmp (place k)).onL Lane.tick := by
    rw [nearOne_red f.m f.row f.h op l.w.pc l d k (place k) hargs haddr hd0 hg0 hcheck hbad, memArgs_cmp_zero f.h l k hcmp]
    rfl
  have hthread : atomThread f l op place m k = (l.advance l.w.batch 16).w.th k := by
    unfold atomThread Thread.setWords
    rw [if_pos hdst]
  rw [hone]
  refine ⟨near_onL_tick hn, hs, congrArg (fun w : Warp => w.po + 1) hw, congrArg (fun w : Warp => w.nextId + 1) hw, fun u hu => ?_⟩
  refine (congrArg (fun w : Warp => w.th u) hw).trans ?_
  split
  · next e => rw [e, hth, hthread]
  · rfl

/-- An atomic instruction whose body is the turns of its active threads. -/
theorem atomic_done {i : Instr} {F : Form} {wait : Ctx → List Nat → Bool} {body : VAddr → List Nat → Ctx → Ctx} {step : Ctx → Nat → Ctx}
    {op : Nat} (he : exec i s = F.execC wait body s) (hh : F.h = f.h) (hsize : F.size = 16) (hr : l.w.ready F.regs = true)
    (hf : F.fault l = none) (hw : wait ⟨s, l⟩ (active l f.h) = false)
    (hbody : body l.w.pc (active l f.h) ⟨s, l.advance l.w.batch 16⟩ = (active l f.h).foldl step ⟨s, l.advance l.w.batch 16⟩)
    (hstep : ∀ (d : Ctx) (m : Nat → Scr) (k : Nat), k ∈ active l f.h → d.Near s (l.advance l.w.batch 16) → (∀ g, d.scr g = m g) →
      Calm s ((active l f.h).map place) m → d.l.w.th k = (l.advance l.w.batch 16).w.th k →
      Took s (l.advance l.w.batch 16) k (atomThread f l op place m k) (atomTurn f l op place m k) d (step d k)) :
    atomicDone i s l f op place := by
  obtain ⟨hg, -⟩ := lane?_wg hl
  obtain ⟨hnear, hscr, hcalm, hpo, hid, hth⟩ := foldl_turns step (atomTurn f l op place) (atomThread f l op place)
    (Calm s ((active l f.h).map place)) s (l.advance l.w.batch 16) (active l f.h) ⟨s, l.advance l.w.batch 16⟩ (scratch s)
    (active_nodup l f.h) (near_self hg _ _) (scr_of_lane hg rfl rfl rfl) (calm_self hp) (fun _ _ _ hc => atomStore_calm hc _ _ _ _ _)
    (fun _ _ => rfl) (fun _ hk => active_lt hk) hstep
  rw [← hh] at hw hbody hth
  obtain ⟨t, w, hx, honly, hcount, hput, hpast, hact, hidle, hother⟩ := scratch_done hl he hsize hr hf hw hbody (hh ▸ hnear)
    (fun g => by rw [hh, hscr]; exact hcalm.size g) (hh ▸ hpo) (hh ▸ hid) hth (fun u => by
      obtain ⟨-, hpc, hst⟩ := setWords_in ((l.advance l.w.batch 16).w.th u) f.dst
        (atomOld f l op place (before (active l F.h) (atomTurn f l op place) (scratch s) u) u)
      exact ⟨hpc, hst⟩)
  rw [hh] at hcount hact hidle hput
  refine ⟨t, w, hx, honly, hcount, fun g => (hput g).trans (hscr g), hpast, fun k hk => ?_, hidle, hother⟩
  exact wordsIn_kept (wordsIn_from (setWords_in _ f.dst _).1 (advance_past 16 hk).2) (hact k hk)

end

/-- What holds `atom` and `cas` back. -/
def atomWaits (m : MemIns) (c : Ctx) (act : List Nat) : Bool :=
  if sgKind (c.l.w.seg (exSeg m.e)) == 0 then
    !c.l.w.implicit.isEmpty || (c.l.wg.pair.any Prod.snd && decide (64 ≤ c.l.wg.pairQ.length))
  else c.l.w.holdsAt act true (2 ≤ exOrd m.e)

/-- What `atom` and `cas` do. -/
def atomBody (m : MemIns) (row : MemRow) (h : Hdr) (op dst : Nat) (pc : VAddr) (act : List Nat) (c : Ctx) : Ctx :=
  act.foldl (atomOne m row h op dst (sgKind (c.l.w.seg (exSeg m.e)) == 0 && c.l.w.dirty && act.any c.l.w.member) pc) c

theorem exec_atom (h : Hdr) (a64 : Bool) (dst : BitVec 8) (a b c : Src) (e : Ext) (s : State) :
    exec (.atom h a64 dst a b c e) s = (loadForm ⟨a64, a, some b, none, some c, e⟩ atomRow h dst).execC
      (atomWaits ⟨a64, a, some b, none, some c, e⟩)
      (atomBody ⟨a64, a, some b, none, some c, e⟩ atomRow h (exAop e) dst.toNat) s := rfl

theorem exec_cas (h : Hdr) (a64 : Bool) (dst : BitVec 8) (a b c : Src) (e : Ext) (s : State) :
    exec (.cas h a64 dst a b c e) s = (loadForm ⟨a64, a, none, some b, some c, e⟩ casRow h dst).execC
      (atomWaits ⟨a64, a, none, some b, some c, e⟩)
      (atomBody ⟨a64, a, none, some b, some c, e⟩ casRow h 255 dst.toNat) s := rfl

theorem exec_red (h : Hdr) (a64 : Bool) (a b c : Src) (e : Ext) (s : State) :
    exec (.red h a64 a b c e) s = (storeForm ⟨a64, a, some b, none, some c, e⟩ redRow h false).execC
      (storeWaits ⟨a64, a, some b, none, some c, e⟩)
      (storeBody ⟨a64, a, some b, none, some c, e⟩ redRow h (some (exAop e)) false) s := rfl

/-- What no release has to wait for holds back no other access either. -/
theorem holdsAt_of_rel {w : Warp} {act : List Nat} {write rel : Bool} (h : w.holdsAt act write true = false) :
    w.holdsAt act write rel = false := by
  unfold Warp.holdsAt at h ⊢
  simp only [Bool.or_eq_false_iff, List.any_eq_false, Bool.true_and, Bool.not_eq_true] at h ⊢
  obtain ⟨hfence, hact⟩ := h
  refine ⟨hfence, fun k hk => ?_⟩
  obtain ⟨hacq, hbefore⟩ := hact k hk
  simp [hacq, hbefore]

/-- The operands of a scratchpad atomic: clean places, and no operand crazed. -/
def atomPlaces (s : State) (l : Lane) (f : MemForm) (place : Nat → ScrLoc) : Prop :=
  ∀ k ∈ active l f.h, memClean f.m l k ∧ (memArgs f.m f.h l k).addr = none ∧ (memArgs f.m f.h l k).dcrz = none ∧
    (memArgs f.m f.h l k).ccrz = none ∧ (memArgs f.m f.h l k).guard = none ∧
    memPlace f.m f.row f.h s l k = .ok (.scr (place k)) ∧ (scratch s (place k).wg).bad = []

theorem scratchPlaces_of_atom {s : State} {l : Lane} {f : MemForm} {place : Nat → ScrLoc} (h : atomPlaces s l f place) :
    scratchPlaces s l f place := fun k hk => by
  obtain ⟨hclean, haddr, -, -, -, hplace, hbad⟩ := h k hk
  exact ⟨hclean, haddr, hplace, hbad⟩

section
variable {i : Instr} {s : State} {l : Lane} {f : MemForm} {place : Nat → ScrLoc} {op : Nat} (hl : s.lane? = some l)
  (hs : f.sound l) (hr : l.w.ready f.regs = true)
  (hseg : sgKind (l.w.seg (exSeg f.m.e)) = 1 ∨ sgKind (l.w.seg (exSeg f.m.e)) = 2)
  (hhold : l.w.holdsAt (active l f.h) true (2 ≤ exOrd f.m.e) = false) (hp : atomPlaces s l f place)
include hl hs hr hseg hhold hp

/-- `atom` and `cas` on scratchpads. -/
theorem atom_done {dst : BitVec 8} (hdst : f.dst = dst.toNat)
    (he : exec i s = (loadForm f.m f.row f.h dst).execC (atomWaits f.m) (atomBody f.m f.row f.h op f.dst) s) :
    atomicDone i s l f op place := by
  have hfar : (sgKind (l.w.seg (exSeg f.m.e)) == 0) = false := by
    rcases hseg with h | h <;> rw [h] <;> rfl
  have hfault : (loadForm f.m f.row f.h dst).fault l = none := loadForm_fault (m := f.m) (row := f.row) (by
    obtain ⟨hbad, hok⟩ := hs
    exact ⟨hbad, hdst ▸ hok⟩)
  have hready : l.w.ready (loadForm f.m f.row f.h dst).regs = true := by
    rw [MemForm.regs, hdst] at hr
    exact hr
  have hwait : atomWaits f.m ⟨s, l⟩ (active l f.h) = false := (if_neg (Bool.eq_false_iff.mp hfar)).trans hhold
  have hbody : atomBody f.m f.row f.h op f.dst l.w.pc (active l f.h) ⟨s, l.advance l.w.batch 16⟩ =
      (active l f.h).foldl (atomOne f.m f.row f.h op f.dst false l.w.pc) ⟨s, l.advance l.w.batch 16⟩ := by
    have hclean : (sgKind ((l.advance l.w.batch 16).w.seg (exSeg f.m.e)) == 0) = false := hfar
    simp only [atomBody, hclean, Bool.false_and]
  exact atomic_done hl (scratchPlaces_of_atom hp) he rfl rfl hready hfault hwait hbody (fun d m k hk hd hm hc hth => by
    obtain ⟨-, -, hdcrz, hccrz, hguard, -, -⟩ := hp k hk
    exact atomOne_takes hl (scratchPlaces_of_atom hp) hk hd hm hc hth hdcrz hccrz hguard)

/-- `red` on scratchpads. -/
theorem red_done (hdst : f.dst = 255) (hcmp : f.m.cmp = none)
    (he : exec i s = (storeForm f.m f.row f.h false).execC (storeWaits f.m) (storeBody f.m f.row f.h (some op) false) s) :
    atomicDone i s l f op place := by
  have hheld : l.heldSeg (exSeg f.m.e) = false := by
    unfold Lane.heldSeg
    rcases hseg with h | h <;> rw [h] <;> rfl
  have hfault : (storeForm f.m f.row f.h false).fault l = none := by
    obtain ⟨hbad, -⟩ := hs
    simp [storeForm, illegal, hbad]
  have hready : l.w.ready (storeForm f.m f.row f.h false).regs = true := by
    rw [MemForm.regs, hdst] at hr
    exact hr
  have hrel : l.w.holdsAt (active l f.h) true (exOrd f.m.e == 2) = false := by
    by_cases h2 : exOrd f.m.e = 2
    · rw [h2] at hhold ⊢
      exact hhold
    · rw [beq_false_of_ne h2]
      cases hge : decide (2 ≤ exOrd f.m.e) with
      | false => rwa [hge] at hhold
      | true =>
        rw [hge] at hhold
        exact holdsAt_of_rel hhold
  have hwait : storeWaits f.m ⟨s, l⟩ (active l f.h) = false := (if_neg (Bool.eq_false_iff.mp hheld)).trans hrel
  have hbody : storeBody f.m f.row f.h (some op) false l.w.pc (active l f.h) ⟨s, l.advance l.w.batch 16⟩ =
      (active l f.h).foldl (nearOne f.m f.row f.h (some op) false l.w.pc) ⟨s, l.advance l.w.batch 16⟩ :=
    if_neg (Bool.eq_false_iff.mp hheld)
  exact atomic_done hl (scratchPlaces_of_atom hp) he rfl rfl hready hfault hwait hbody (fun d m k hk hd hm hc hth => by
    obtain ⟨-, -, hdcrz, -, hguard, -, -⟩ := hp k hk
    exact nearOne_reduces hl (scratchPlaces_of_atom hp) hk hd hm hc hth hdcrz hguard hcmp hdst)

end

/-- Settles O21: the threads take their turns; only words that a place touches change. -/
theorem scratchAtomic : Obligations.ScratchAtomic := by
  intro i s l f op hl hi hop hs hr hseg hhold place hp turn old
  have hdone : atomicDone i s l f op place := by
    cases i
    case atom h a64 dst a b c e =>
      cases hi; cases hop
      exact atom_done hl hs hr hseg hhold hp rfl (exec_atom h a64 dst a b c e s)
    case cas h a64 dst a b c e =>
      cases hi; cases hop
      exact atom_done hl hs hr hseg hhold hp rfl (exec_cas h a64 dst a b c e s)
    case red h a64 a b c e =>
      cases hi; cases hop
      exact red_done hl hs hr hseg hhold hp rfl rfl (exec_red h a64 a b c e s)
    all_goals cases hop
  obtain ⟨t, w, hx, honly, hcount, hscr, hpast, hold, hidle, hother⟩ := hdone
  refine ⟨t, w, hx, honly, hcount, fun g j => by rw [hscr]; rfl, fun g j hj => ?_, fun g n => ?_, hpast, hold, hidle, hother⟩
  · rw [hscr]
    exact foldl_apart _ g j _ _ (fun k hk m => atomStore_word m _ _ _ _ _ g j (hj k hk))
  · rw [hscr]
    exact foldl_granule (fun m k => atomStore_granule m _ _ _ _ _ g n) _ _

end Sys2Proof.Machine

namespace Sys2Proof.Machine

open Sys2Proof.Claims

/-! ## Outstanding accesses (R188, R193, R194, R305) -/

/-- Turns that each append one entry, numbered in their order. -/
theorem foldl_appends {α : Type} {step : Ctx → Nat → Ctx} {view : Nat → List α → Ctx} {entry : Nat → Nat → α} : ∀ {ts : List Nat},
    (∀ k ∈ ts, ∀ n xs, step (view n xs) k = view (n + 1) (xs ++ [entry n k])) → ∀ n xs,
    ts.foldl step (view n xs) = view (n + ts.length) (xs ++ (ts.zipIdx n).map (fun p => entry p.2 p.1))
  | [], _, n, xs => by simp
  | t :: ts, h, n, xs => by
    rw [List.foldl_cons, h t List.mem_cons_self, foldl_appends (fun k hk => h k (List.mem_cons_of_mem t hk))]
    simp [Nat.add_assoc, Nat.add_comm 1]

/-- The machine after `n` accesses that leave the core, the batch having moved on: `xs` are their entries. -/
def farView (s : State) (l : Lane) (n : Nat) (xs : List Acc) : Ctx :=
  ⟨s, { l.advance l.w.batch 16 with w := { (l.advance l.w.batch 16).w with
    accs := l.w.accs ++ xs, po := l.w.po + n, nextId := l.w.nextId + n } }⟩

theorem farView_alike (s : State) (l : Lane) (n : Nat) (xs : List Acc) : (farView s l n xs).Alike ⟨s, l⟩ :=
  ⟨rfl, rfl, rfl, rfl, fun _ => rfl, fun _ => rfl⟩

/-- Without data there is none: zero. -/
theorem memArgs_data_zero {m : MemIns} (h : Hdr) (l : Lane) (k : Nat) (hm : m.c = none) : (memArgs m h l k).data = 0 := by
  unfold memArgs MemIns.args
  simp [hm]

/-- The places of accesses that leave the core: nothing crazed, and an address in memory. -/
def farPlaces (s : State) (l : Lane) (f : MemForm) (place : Nat → Nat) : Prop :=
  ∀ k ∈ active l f.h, f.pure l k ∧ memPlace f.m f.row f.h s l k = .ok (.va (place k))

section
variable {s : State} {l : Lane} {f : MemForm} {place : Nat → Nat} (hp : farPlaces s l f place)
include hp

/-- What an active thread meets in its turn: its operands and its address. -/
theorem far_meets {k : Nat} (hk : k ∈ active l f.h) (n : Nat) (xs : List Acc) (disc : Bool) :
    f.m.args f.h l.w.pc disc (farView s l n xs).l k = ((farView s l n xs).l, memArgs f.m f.h l k) ∧
      (farView s l n xs).check (exSeg f.m.e) k (memArgs f.m f.h l k).o f.m.n [f.row.perm] f.row.kinds true = .ok (.va (place k)) := by
  obtain ⟨⟨hclean, -⟩, hplace⟩ := hp k hk
  have hcheck := check_alike (farView_alike s l n xs) (exSeg f.m.e) k (memArgs f.m f.h l k).o f.m.n [f.row.perm] f.row.kinds true
  have hw : (farView s l n xs).l.w.s = l.w.s := rfl
  have ht : (farView s l n xs).l.w.th k = (l.advance l.w.batch 16).w.th k := rfl
  have hargs := args_advanced (h := f.h) (active_lt hk) hw ht hclean l.w.pc disc
  exact ⟨hargs, hcheck.trans hplace⟩

/-- The turn of an active thread at `ld`. -/
theorem loadOne_far {i : Instr} {k : Nat} (hk : k ∈ active l f.h) (hc : f.m.c = none) (hcmp : f.m.cmp = none)
    (hi : farStage i l = .walk) (n : Nat) (xs : List Acc) :
    loadOne f.m f.row f.h f.dst none l.w.pc (farView s l n xs) k =
      farView s l (n + 1) (xs ++ [farAcc i (.load (exSx f.m.e)) f l n k (place k)]) := by
  obtain ⟨hargs, hcheck⟩ := far_meets hp hk n xs (f.dst == 255)
  obtain ⟨⟨-, haddr, -, -, hguard⟩, -⟩ := hp k hk
  have hcz : crazeOf [none, (none : Option Word)] = none := rfl
  simp only [loadOne, hargs, haddr, hguard, hcz, hcheck, farAcc, hi, memArgs_data_zero f.h l k hc, memArgs_cmp_zero f.h l k hcmp]
  simp only [farView, Ctx.onL, Lane.addAcc, Lane.tick, List.append_assoc, Nat.add_assoc]
  rfl

/-- The turn of an active thread at `atom` or `cas`. -/
theorem atomOne_far {i : Instr} {k op : Nat} (hk : k ∈ active l f.h)
    (hi : farStage i l = if l.wg.pair.any (fun p => !p.2) then .home else .walk) (n : Nat) (xs : List Acc) :
    atomOne f.m f.row f.h op f.dst false l.w.pc (farView s l n xs) k =
      farView s l (n + 1) (xs ++ [farAcc i (if op = 255 then .cas else .atom op) f l n k (place k)]) := by
  obtain ⟨hargs, hcheck⟩ := far_meets hp hk n xs (f.dst == 255)
  obtain ⟨⟨-, haddr, hdcrz, hccrz, hguard⟩, -⟩ := hp k hk
  have hcz : crazeOf [none, none, none, (none : Option Word)] = none := rfl
  simp only [atomOne, hargs, haddr, hdcrz, hccrz, hguard, hcz, hcheck, farAcc, hi, Bool.false_eq_true, if_false]
  simp only [farView, Ctx.onL, Lane.addAcc, Lane.tick, List.append_assoc, Nat.add_assoc]
  rfl

end

/-- An instruction whose turns each make one outstanding access. -/
theorem far_done {i : Instr} {s : State} {l : Lane} {f : MemForm} {kind : AccKind} {place : Nat → Nat} {F : Form}
    {wait : Ctx → List Nat → Bool} {body : VAddr → List Nat → Ctx → Ctx} {step : Ctx → Nat → Ctx} (hl : s.lane? = some l)
    (he : exec i s = F.execC wait body s) (hh : F.h = f.h) (hsize : F.size = 16) (hr : l.w.ready F.regs = true)
    (hf : F.fault l = none) (hw : wait ⟨s, l⟩ (active l f.h) = false)
    (hbody : body l.w.pc (active l f.h) ⟨s, l.advance l.w.batch 16⟩ = (active l f.h).foldl step ⟨s, l.advance l.w.batch 16⟩)
    (hstep : ∀ k ∈ active l f.h, ∀ n xs, step (farView s l n xs) k = farView s l (n + 1) (xs ++ [farAcc i kind f l n k (place k)])) :
    ∃ t w, exec i s = .next t ∧ onlyWarp s t l w ∧ moved 16 l w ∧
      w = { l.w with thr := w.thr, chain := 0, po := l.w.po + (active l f.h).length, nextId := l.w.nextId + (active l f.h).length,
                     accs := l.w.accs ++ (active l f.h).zipIdx.map (fun p => farAcc i kind f l p.2 p.1 (place p.1)) } := by
  have hstart : (⟨s, l.advance l.w.batch 16⟩ : Ctx) = farView s l 0 [] := by
    simp only [farView, List.append_nil, Nat.add_zero]
    rfl
  have hturns := foldl_appends hstep 0 []
  rw [← hstart, List.nil_append, Nat.zero_add] at hturns
  rw [← hh] at hw hbody
  have hc := hbody.trans (hh.symm ▸ hturns)
  rw [← hsize] at hc
  obtain ⟨m, hx, hm, hmw, hmoved⟩ := runC_moved hl he hr hf hw hc (fun _ _ => by rw [hsize]; rfl)
  rw [hsize] at hmoved
  refine ⟨_, m.w, hx, putLane_only hl (by rw [hm]; rfl) (by rw [hm]; rfl) (by rw [hm]; rfl), hmoved, ?_⟩
  rw [hmw, ← hh]
  rfl

section
variable {s : State} {l : Lane} {f : MemForm} {place : Nat → Nat} {dst : BitVec 8} (hl : s.lane? = some l) (hs : f.sound l)
  (hr : l.w.ready f.regs = true) (hdst : f.dst = dst.toNat) (hp : farPlaces s l f place)
include hl hs hr hdst hp

/-- `ld` through a segment of memory. -/
theorem ld_far {i : Instr} (hi : farStage i l = .walk) (hc : f.m.c = none) (hcmp : f.m.cmp = none)
    (he : exec i s = (loadForm f.m f.row f.h dst).execC (fun c act => c.atOnce f.m.e && c.l.w.holdsAt act false false)
      (fun pc act c => act.foldl (loadOne f.m f.row f.h f.dst none pc) c) s)
    (h1 : sgKind (l.w.seg (exSeg f.m.e)) ≠ 1) (h2 : sgKind (l.w.seg (exSeg f.m.e)) ≠ 2) :
    ∃ t w, exec i s = .next t ∧ onlyWarp s t l w ∧ moved 16 l w ∧
      w = { l.w with thr := w.thr, chain := 0, po := l.w.po + (active l f.h).length, nextId := l.w.nextId + (active l f.h).length,
                     accs := l.w.accs ++ (active l f.h).zipIdx.map
                       (fun p => farAcc i (.load (exSx f.m.e)) f l p.2 p.1 (place p.1)) } := by
  have honce : Ctx.atOnce ⟨s, l⟩ f.m.e = false := by simp [Ctx.atOnce, h1, h2]
  refine far_done hl he rfl rfl ?_ (loadForm_fault (hdst ▸ hs)) (by simp only [honce, Bool.false_and]) rfl
    (fun k hk n xs => loadOne_far hp hk hc hcmp hi n xs)
  rw [MemForm.regs, hdst] at hr
  exact hr

/-- `atom` and `cas` through a global segment. -/
theorem atom_far {i : Instr} {op : Nat} (hi : farStage i l = if l.wg.pair.any (fun p => !p.2) then .home else .walk)
    (he : exec i s = (loadForm f.m f.row f.h dst).execC (atomWaits f.m) (atomBody f.m f.row f.h op f.dst) s)
    (h0 : sgKind (l.w.seg (exSeg f.m.e)) = 0) (himp : l.w.implicit = [])
    (hpair : l.wg.pair.any Prod.snd = true → l.wg.pairQ.length < 64)
    (hdirty : l.w.dirty = true → ∀ k ∈ active l f.h, l.w.member k = false) :
    ∃ t w, exec i s = .next t ∧ onlyWarp s t l w ∧ moved 16 l w ∧
      w = { l.w with thr := w.thr, chain := 0, po := l.w.po + (active l f.h).length, nextId := l.w.nextId + (active l f.h).length,
                     accs := l.w.accs ++ (active l f.h).zipIdx.map
                       (fun p => farAcc i (if op = 255 then .cas else .atom op) f l p.2 p.1 (place p.1)) } := by
  have hwait : atomWaits f.m ⟨s, l⟩ (active l f.h) = false := by
    cases hany : l.wg.pair.any Prod.snd with
    | false => simp [atomWaits, h0, himp, hany]
    | true => simp [atomWaits, h0, himp, hpair hany]
  have hclean : (l.w.dirty && (active l f.h).any l.w.member) = false := by
    cases hd : l.w.dirty with
    | false => rfl
    | true => simpa using hdirty hd
  have hbody : atomBody f.m f.row f.h op f.dst l.w.pc (active l f.h) ⟨s, l.advance l.w.batch 16⟩ =
      (active l f.h).foldl (atomOne f.m f.row f.h op f.dst false l.w.pc) ⟨s, l.advance l.w.batch 16⟩ := by
    show List.foldl (atomOne f.m f.row f.h op f.dst
      (sgKind (l.w.seg (exSeg f.m.e)) == 0 && l.w.dirty && (active l f.h).any l.w.member) l.w.pc) _ _ = _
    rw [Bool.and_assoc, hclean, Bool.and_false]
  refine far_done hl he rfl rfl ?_ (loadForm_fault (hdst ▸ hs)) hwait hbody (fun k hk n xs => atomOne_far hp hk hi n xs)
  rw [MemForm.regs, hdst] at hr
  exact hr

end

/-- The operation of a sound `atom` is not the number of `cas`. -/
theorem exAop_ne {m : MemIns} {l : Lane} (h : m.bad atomRow l = false) : exAop m.e ≠ 255 := by
  intro he
  have haop : (aopCodes (exSize m.e)).contains (exAop m.e) = true := by
    simp only [MemIns.bad, MemRow.bad, atomRow, Bool.or_eq_false_iff, Bool.not_eq_false'] at h
    obtain ⟨⟨⟨-, haop⟩, -⟩, -⟩ := h
    exact haop
  rw [he] at haop
  have hmem := List.mem_of_mem_filter (List.contains_iff_mem.mp haop)
  exact absurd (List.mem_range.mp hmem) (by decide)

/-- Settles O22: each active thread appends its access. -/
theorem farAccess : Obligations.FarAccess := by
  intro i s l f kind hl hi hkind hs hr hclear place hp
  cases i
  case ld h a64 dst a b e =>
    cases hi; cases hkind
    obtain ⟨h1, h2⟩ := hclear
    exact ld_far hl hs hr rfl hp rfl rfl rfl (exec_ld h a64 dst a b e s) h1 h2
  case atom h a64 dst a b c e =>
    cases hi; cases hkind
    obtain ⟨h0, himp, hpair, hdirty⟩ := hclear
    have hfar := atom_far (i := .atom h a64 dst a b c e) hl hs hr rfl hp rfl (exec_atom h a64 dst a b c e s) h0 himp hpair hdirty
    obtain ⟨hbad, -⟩ := hs
    rwa [if_neg (exAop_ne hbad)] at hfar
  case cas h a64 dst a b c e =>
    cases hi; cases hkind
    obtain ⟨h0, himp, hpair, hdirty⟩ := hclear
    exact atom_far (i := .cas h a64 dst a b c e) hl hs hr rfl hp rfl (exec_cas h a64 dst a b c e s) h0 himp hpair hdirty
  all_goals cases hkind

end Sys2Proof.Machine

namespace Sys2Proof.Machine

open Sys2Proof.Claims

/-! ## Held stores and reductions (R186, R187, R196) -/

/-- The item of thread `k`, the `n`-th of a held store, or of a reduction where `red` names its operation. -/
def heldEntry (red : Option Nat) (f : MemForm) (l : Lane) (n k va : Nat) : Item :=
  let x := memArgs f.m f.h l k
  let crz := crazeOf [x.dcrz, x.guard]
  let (kind, cells) : ItemKind × List WCell := match red with
    | some op => (.red op f.m.n (BitVec.ofNat 64 x.data) crz, [])
    | none => (.store, cellsOf 0 f.m.n x.data crz)
  { id := l.w.nextId + n, tag := heldTag l k, po := l.w.po + n, thread := k, kind, cells, va, n := f.m.n, pc := l.w.pc,
    stage := .walk, dpa := 0, gen := 0, key := 0, rmt := false, copy := false, bad := false, sent := false, issued := l.clock,
    named := k }

/-- The machine after `n` held items `xs`, the batch having moved on, with the implicit regions `imp` opened. -/
def heldView (s : State) (l : Lane) (imp : List Implicit) (n : Nat) (xs : List Item) : Ctx :=
  ⟨s, { l.advance l.w.batch 16 with w := { (l.advance l.w.batch 16).w with
    items := l.w.items ++ xs, po := l.w.po + n, nextId := l.w.nextId + n, implicit := l.w.implicit ++ imp,
    nextTag := l.w.nextTag + imp.length, implicitCount := l.w.implicitCount + BitVec.ofNat 32 imp.length } }⟩

theorem heldView_alike (s : State) (l : Lane) (imp : List Implicit) (n : Nat) (xs : List Item) :
    (heldView s l imp n xs).Alike ⟨s, l⟩ := ⟨rfl, rfl, rfl, rfl, fun _ => rfl, fun _ => rfl⟩

/-- The places of held items: clean addresses in memory. -/
def heldPlaces (s : State) (l : Lane) (f : MemForm) (place : Nat → Nat) : Prop :=
  ∀ k ∈ active l f.h, memClean f.m l k ∧ (memArgs f.m f.h l k).addr = none ∧ memPlace f.m f.row f.h s l k = .ok (.va (place k))

/-- The region that the turn of a thread names: none for a member, whose open region it is. -/
def namedRegion (l : Lane) (k : Nat) : Option Nat := if l.w.member k then none else some l.w.nextTag

/-- An item that is no member's has the tag of the new region. -/
theorem heldTag_new {l : Lane} {k : Nat} (h : l.w.member k = false) : heldTag l k = l.w.nextTag := by
  unfold heldTag
  unfold Warp.member at h
  cases hr : l.w.region with
  | none => rfl
  | some r =>
    rw [hr] at h
    exact if_neg (Bool.eq_false_iff.mp h)

/-- A member's item has the tag of the open region. -/
theorem heldTag_member {l : Lane} {k : Nat} (h : l.w.member k = true) : ∃ r, l.w.region = some r ∧ heldTag l k = r.tag := by
  unfold heldTag
  unfold Warp.member at h
  cases hr : l.w.region with
  | none => rw [hr] at h; exact absurd h Bool.false_ne_true
  | some r =>
    rw [hr] at h
    exact ⟨r, rfl, if_pos h⟩

section
variable {s : State} {l : Lane} {f : MemForm} {place : Nat → Nat} (hp : heldPlaces s l f place)
include hp

/-- The turn of an active thread at a held store or reduction. -/
theorem heldOne_holds {k : Nat} (hk : k ∈ active l f.h) (red : Option Nat) (imp : List Implicit) (n : Nat) (xs : List Item) :
    heldOne f.m f.row f.h red (namedRegion l k) l.w.pc (heldView s l imp n xs) k =
      heldView s l imp (n + 1) (xs ++ [heldEntry red f l n k (place k)]) := by
  obtain ⟨hclean, haddr, hplace⟩ := hp k hk
  have hw : (heldView s l imp n xs).l.w.s = l.w.s := rfl
  have ht : (heldView s l imp n xs).l.w.th k = (l.advance l.w.batch 16).w.th k := rfl
  have hregion : (heldView s l imp n xs).l.w.region = l.w.region := rfl
  have hargs := args_advanced (h := f.h) (active_lt hk) hw ht hclean l.w.pc false
  have hcheck := (check_alike (heldView_alike s l imp n xs) (exSeg f.m.e) k (memArgs f.m f.h l k).o f.m.n [f.row.perm] f.row.kinds
    true).trans hplace
  unfold namedRegion heldEntry
  cases hm : l.w.member k with
  | false =>
    rw [heldTag_new hm]
    cases red <;>
    · simp only [heldOne, hargs, haddr, hcheck, Bool.false_eq_true, if_false]
      simp only [heldView, Ctx.onL, Lane.addItem, Lane.tick, List.append_assoc, Nat.add_assoc]
      rfl
  | true =>
    obtain ⟨r, hr, htag⟩ := heldTag_member hm
    rw [htag]
    cases red <;>
    · simp only [heldOne, hargs, haddr, hcheck, hregion, hr, if_true]
      simp only [heldView, Ctx.onL, Lane.addItem, Lane.tick, List.append_assoc, Nat.add_assoc]
      rfl

/-- The turns of all active threads. -/
theorem heldTurns (red : Option Nat) (imp : List Implicit) :
    (active l f.h).foldl (fun c k => heldOne f.m f.row f.h red (namedRegion l k) l.w.pc c k) (heldView s l imp 0 []) =
      heldView s l imp (active l f.h).length ((active l f.h).zipIdx.map (fun p => heldEntry red f l p.2 p.1 (place p.1))) := by
  have hturns := foldl_appends (step := fun c k => heldOne f.m f.row f.h red (namedRegion l k) l.w.pc c k) (view := heldView s l imp)
    (entry := fun n k => heldEntry red f l n k (place k)) (fun k hk n xs => heldOne_holds hp hk red imp n xs) 0 []
  rwa [List.nil_append, Nat.zero_add] at hturns

/-- Where all active threads are members, their items join the open region. -/
theorem heldBody_members (red : Option Nat) (hout : outsiders l f.h = []) :
    heldBody f.m f.row f.h red l.w.pc (active l f.h) ⟨s, l.advance l.w.batch 16⟩ =
      heldView s l [] (active l f.h).length ((active l f.h).zipIdx.map (fun p => heldEntry red f l p.2 p.1 (place p.1))) := by
  have hmem : ∀ k ∈ active l f.h, l.w.member k = true := by
    intro k hk
    have hnot := List.filter_eq_nil_iff.mp hout k hk
    simpa using hnot
  have hins : (active l f.h).filter (l.advance l.w.batch 16).w.member = active l f.h := List.filter_eq_self.mpr hmem
  have hstart : (⟨s, l.advance l.w.batch 16⟩ : Ctx) = heldView s l [] 0 [] := by
    simp only [heldView, List.append_nil, Nat.add_zero, List.length_nil, BitVec.add_zero]
    rfl
  have houts : (active l f.h).filter (fun t => !(l.advance l.w.batch 16).w.member t) = [] := hout
  unfold heldBody
  simp only [houts, hins, List.isEmpty_nil, if_true]
  rw [← heldTurns hp red [], hstart]
  refine List.foldl_ext _ _ _ (fun c k hk => ?_)
  rw [namedRegion, if_pos (hmem k hk)]

/-- Otherwise the items of the others share a region of four units. -/
theorem heldBody_outsiders (red : Option Nat) (hout : outsiders l f.h ≠ []) (hnever : l.wg.never 4 = false) :
    heldBody f.m f.row f.h red l.w.pc (active l f.h) ⟨s, l.advance l.w.batch 16⟩ =
      heldView s l [heldRegion l (exOrd f.m.e == 2)] (active l f.h).length
        ((active l f.h).zipIdx.map (fun p => heldEntry red f l p.2 p.1 (place p.1))) := by
  have houts : ((active l f.h).filter (fun t => !(l.advance l.w.batch 16).w.member t)).isEmpty = false :=
    List.isEmpty_eq_false_iff.mpr hout
  have hnever' : (l.advance l.w.batch 16).wg.never 4 = false := hnever
  unfold heldBody
  simp only [houts, hnever', Bool.false_eq_true, if_false]
  rw [← heldTurns hp red]
  have hstart : (⟨s, ((l.advance l.w.batch 16).implicit 4 (exOrd f.m.e == 2) none l.w.pc).1⟩ : Ctx) =
      heldView s l [heldRegion l (exOrd f.m.e == 2)] 0 [] := by
    simp only [heldView, List.append_nil, Nat.add_zero, List.length_singleton]
    rfl
  rw [← hstart]
  refine List.foldl_ext _ _ _ (fun c k hk => ?_)
  have hnamed : (if ((active l f.h).filter (fun t => !(l.advance l.w.batch 16).w.member t)).contains k then
      some ((l.advance l.w.batch 16).implicit 4 (exOrd f.m.e == 2) none l.w.pc).2 else none) = namedRegion l k := by
    have hcont : ((active l f.h).filter (fun t => !(l.advance l.w.batch 16).w.member t)).contains k = !l.w.member k := by
      rw [Bool.eq_iff_iff, List.contains_iff_mem, List.mem_filter]
      exact ⟨fun h => h.2, fun h => ⟨hk, h⟩⟩
    rw [hcont, namedRegion]
    cases l.w.member k <;> rfl
  rw [← hnamed]

end

/-- Four units that can be reserved can be granted at all. -/
theorem never_of_canReserve {s : State} {l : Lane} {u : Nat} (h : Ctx.canReserve ⟨s, l⟩ u = true) : l.wg.never u = false := by
  obtain ⟨-, hquota⟩ := Bool.and_eq_true_iff.mp h
  refine List.any_eq_false.mpr (fun q hq => ?_)
  have hle := of_decide_eq_true (List.all_eq_true.mp hquota q hq)
  simp only [decide_eq_true_eq]
  omega

/-- A held store or reduction: items, and an implicit region where it is not all members'. -/
theorem held_done {i : Instr} {s : State} {l : Lane} {f : MemForm} {red : Option Nat} {place : Nat → Nat} (hl : s.lane? = some l)
    (he : exec i s = (storeForm f.m f.row f.h false).execC (storeWaits f.m) (storeBody f.m f.row f.h red false) s)
    (hbad : f.m.bad f.row l = false) (hr : l.w.ready f.m.regs = true) (hheld : l.heldSeg (exSeg f.m.e) = true)
    (hroom : outsiders l f.h ≠ [] → Ctx.canReserve ⟨s, l⟩ 4 = true) (hp : heldPlaces s l f place) :
    ∃ t w, exec i s = .next t ∧ onlyWarp s t l w ∧ moved 16 l w ∧
      w = { l.w with thr := w.thr, chain := 0, po := l.w.po + (active l f.h).length, nextId := l.w.nextId + (active l f.h).length,
                     items := l.w.items ++ (active l f.h).zipIdx.map (fun p => heldEntry red f l p.2 p.1 (place p.1)),
                     implicit := l.w.implicit ++ (if outsiders l f.h = [] then [] else [heldRegion l (exOrd f.m.e == 2)]),
                     nextTag := l.w.nextTag + (if outsiders l f.h = [] then 0 else 1),
                     implicitCount := l.w.implicitCount + (if outsiders l f.h = [] then 0 else 1) } := by
  have hfault : (storeForm f.m f.row f.h false).fault l = none := by simp [storeForm, illegal, hbad]
  have hwait : storeWaits f.m ⟨s, l⟩ (active l f.h) = false := by
    refine (if_pos hheld).trans ?_
    by_cases hout : outsiders l f.h = []
    · have hany : (active l f.h).any (fun t => !l.w.member t) = false := by
        rw [List.any_eq_false]
        exact List.filter_eq_nil_iff.mp hout
      simp only [hany, Bool.false_and]
    · simp [hroom hout]
  have hbody : storeBody f.m f.row f.h red false l.w.pc (active l f.h) ⟨s, l.advance l.w.batch 16⟩ =
      heldView s l (if outsiders l f.h = [] then [] else [heldRegion l (exOrd f.m.e == 2)]) (active l f.h).length
        ((active l f.h).zipIdx.map (fun p => heldEntry red f l p.2 p.1 (place p.1))) := by
    refine (if_pos hheld).trans ?_
    split
    · next hout => exact heldBody_members hp red hout
    · next hout => exact heldBody_outsiders hp red hout (never_of_canReserve (hroom hout))
  obtain ⟨m, hx, hm, hmw, hmoved⟩ := runC_moved hl he hr hfault hwait hbody (fun _ _ => rfl)
  refine ⟨_, m.w, hx, putLane_only hl (by rw [hm]; rfl) (by rw [hm]; rfl) (by rw [hm]; rfl), hmoved, ?_⟩
  rw [hmw]
  split <;> rfl

/-- Settles O23: each active thread holds its item, the outsiders in one new region. -/
theorem heldStore : Obligations.HeldStore := by
  intro i s l f rel hl hi hrel hs hr hheld hroom place hp
  obtain ⟨hbad, -⟩ := hs
  cases i
  case st h a64 fill a b c e =>
    cases hi
    cases fill <;> cases hrel
    exact held_done (f := ⟨⟨a64, a, some b, none, some c, e⟩, stRow, h, 255⟩) hl (exec_st h a64 false a b c e s) hbad hr hheld hroom hp
  case red h a64 a b c e =>
    cases hi; cases hrel
    exact held_done (f := ⟨⟨a64, a, some b, none, some c, e⟩, redRow, h, 255⟩) hl (exec_red h a64 a b c e s) hbad hr hheld hroom hp
  all_goals cases hrel

end Sys2Proof.Machine

namespace Sys2Proof.Machine

open Sys2Proof.Claims

/-! ## `ldfe` on full granules (R190, R410) -/

/-- The view `c` with the open region as the lane `l` had it. -/
def Ctx.plain (c : Ctx) (l : Lane) : Ctx := c.onL (fun m => { m with w := { m.w with region := l.w.region } })

theorem plain_scr (c : Ctx) (l : Lane) (g : Nat) : (c.plain l).scr g = c.scr g := rfl

/-- Writing a scratchpad and restoring the region commute. -/
theorem setScr_plain (c : Ctx) (l : Lane) (g : Nat) (x : Scr) : (c.setScr g x).plain l = (c.plain l).setScr g x := by
  have href : (c.plain l).l.ref = c.l.ref := rfl
  have hs : (c.plain l).s = c.s := rfl
  unfold Ctx.setScr
  rw [href, hs]
  split
  · rfl
  · cases c.s.wg? g <;> rfl

/-- The view `c` with the open region `r`. -/
def Ctx.withRegion (c : Ctx) (r : Region) : Ctx := c.onL (fun m => { m with w := { m.w with region := some r } })

/-- The granule of a place. -/
def ScrLoc.granule (a : ScrLoc) : ScrLoc := ⟨a.wg, a.off / 16⟩

/-- What thread `k` adds to the granules that its region has pending. -/
def takenOf (l : Lane) (place : Nat → ScrLoc) (k : Nat) : List (Nat × ScrLoc) :=
  if l.w.member k then [(k, (place k).granule)] else []

/-- What the turn of thread `k` makes of the scratchpads. -/
def takeTurn (l : Lane) (place : Nat → ScrLoc) (m : Nat → Scr) (k : Nat) : Nat → Scr :=
  fun g => if g = (place k).wg then (m g).setGran ((place k).off / 16) (takenGran l k) else m g

/-- The scratchpads `m` are those of `s` but for granules. -/
structure SameButGran (s : State) (m : Nat → Scr) : Prop where
  size : ∀ g, (m g).size = (scratch s g).size
  words : ∀ g, (m g).words = (scratch s g).words
  bad : ∀ g, (m g).bad = (scratch s g).bad

theorem sameButGran_refl (s : State) : SameButGran s (scratch s) := ⟨fun _ => rfl, fun _ => rfl, fun _ => rfl⟩

section
variable {l : Lane} {place : Nat → ScrLoc}

theorem takeTurn_same {s : State} {m : Nat → Scr} (h : SameButGran s m) (k : Nat) : SameButGran s (takeTurn l place m k) := by
  refine ⟨fun g => ?_, fun g => ?_, fun g => ?_⟩ <;> unfold takeTurn <;> split
  · exact h.size g
  · exact h.size g
  · exact h.words g
  · exact h.words g
  · exact h.bad g
  · exact h.bad g

theorem takeTurn_granule (m : Nat → Scr) (k g n : Nat) :
    (takeTurn l place m k g).granule n = if (place k).wg = g ∧ (place k).off / 16 = n then takenGran l k else (m g).granule n := by
  unfold takeTurn
  by_cases hg : g = (place k).wg
  · rw [if_pos hg, granule_setGran]
    by_cases hn : n = (place k).off / 16
    · rw [if_pos hn, if_pos ⟨hg.symm, hn.symm⟩]
    · rw [if_neg hn, if_neg (fun h => hn h.2.symm)]
  · rw [if_neg hg, if_neg (fun h => hg h.1.symm)]

theorem foldl_takeTurn_same {s : State} : ∀ (ts : List Nat) {m : Nat → Scr}, SameButGran s m → SameButGran s (ts.foldl (takeTurn l place) m)
  | [], _, h => h
  | t :: ts, _, h => foldl_takeTurn_same ts (takeTurn_same h t)

/-- A granule that no thread takes stays. -/
theorem foldl_takeTurn_apart {g n : Nat} : ∀ {ts : List Nat} (m : Nat → Scr), (∀ k ∈ ts, (place k).wg = g → (place k).off / 16 ≠ n) →
    (ts.foldl (takeTurn l place) m g).granule n = (m g).granule n
  | [], _, _ => rfl
  | t :: ts, m, h => by
    rw [List.foldl_cons, foldl_takeTurn_apart _ (fun k hk => h k (List.mem_cons_of_mem t hk)), takeTurn_granule,
      if_neg (fun ht => h t List.mem_cons_self ht.1 ht.2)]

/-- The granules of different threads differ. -/
def apart (place : Nat → ScrLoc) (ts : List Nat) : Prop :=
  ∀ j ∈ ts, ∀ k ∈ ts, j ≠ k → ((place j).wg, (place j).off / 16) ≠ ((place k).wg, (place k).off / 16)

theorem apart_tail {t : Nat} {ts : List Nat} (h : apart place (t :: ts)) : apart place ts :=
  fun j hj k hk => h j (List.mem_cons_of_mem t hj) k (List.mem_cons_of_mem t hk)

/-- What the first thread takes, no later one does. -/
theorem apart_head {t : Nat} {ts : List Nat} (h : apart place (t :: ts)) (hn : t ∉ ts) {k : Nat} (hk : k ∈ ts)
    (hg : (place k).wg = (place t).wg) : (place k).off / 16 ≠ (place t).off / 16 := by
  intro hoff
  have hne : k ≠ t := fun e => hn (e ▸ hk)
  exact h k (List.mem_cons_of_mem t hk) t List.mem_cons_self hne (by rw [hg, hoff])

/-- Each thread's granule is as its turn leaves it. -/
theorem foldl_takeTurn_taken {k : Nat} : ∀ {ts : List Nat} (m : Nat → Scr), ts.Nodup → apart place ts → k ∈ ts →
    (ts.foldl (takeTurn l place) m (place k).wg).granule ((place k).off / 16) = takenGran l k
  | t :: ts, m, hn, ha, hk => by
    obtain ⟨hnt, hn⟩ := List.nodup_cons.mp hn
    rw [List.foldl_cons]
    rcases List.mem_cons.mp hk with rfl | hk
    · rw [foldl_takeTurn_apart _ (fun j hj hg => apart_head ha hnt hj hg), takeTurn_granule, if_pos ⟨rfl, rfl⟩]
    · exact foldl_takeTurn_taken _ hn (apart_tail ha) hk

end

/-- The view `c` after `n` turns of `ldfe`: `m` are the scratchpads, `pend` the granules that the open region has come to list. -/
structure TakeView (s : State) (l : Lane) (pend : List (Nat × ScrLoc)) (n : Nat) (m : Nat → Scr) (c : Ctx) : Prop where
  near : (c.plain l).Near s (l.advance l.w.batch 16)
  scr : ∀ g, c.scr g = m g
  region : c.l.w.region = l.w.region.map (fun r => { r with pending := r.pending ++ pend })
  po : c.l.w.po = l.w.po + n
  id : c.l.w.nextId = l.w.nextId + n

section
variable {s : State} {l : Lane}

theorem takeView_self (hl : s.lane? = some l) : TakeView s l [] 0 (scratch s) ⟨s, l.advance l.w.batch 16⟩ := by
  obtain ⟨hg, -⟩ := lane?_wg hl
  refine ⟨near_self hg _ _, scr_of_lane hg rfl rfl rfl, ?_, rfl, rfl⟩
  show l.w.region = _
  simp only [List.append_nil]
  exact Option.map_id_fun'.symm ▸ rfl

variable {pend : List (Nat × ScrLoc)} {n : Nat} {m : Nat → Scr} {c : Ctx} (hc : TakeView s l pend n m c)
include hc

/-- What the turns have made of the warp. -/
theorem takeView_warp : c.l.w = { l.w with
    thr := c.l.w.thr, po := l.w.po + n, nextId := l.w.nextId + n,
    region := l.w.region.map (fun r => { r with pending := r.pending ++ pend }) } := by
  obtain ⟨hnear, -, hregion, hpo, hid⟩ := hc
  have hplain : { c.l.w with region := l.w.region } =
      { l.w with thr := c.l.w.thr, po := c.l.w.po, nextId := c.l.w.nextId } := congrArg Lane.w hnear.lane
  rw [← hpo, ← hid, ← hregion]
  exact congrArg (fun w : Warp => { w with region := c.l.w.region }) hplain

/-- A thread takes its words. -/
theorem takeView_given (k : Nat) (x : Thread) :
    TakeView s l pend (n + 1) m (c.onL (fun d => (d.setTh k x).tick)) ∧
      ∀ u < 32, (c.onL (fun d => (d.setTh k x).tick)).l.w.th u = if u = k then x else c.l.w.th u := by
  obtain ⟨hnear, hscr, hregion, hpo, hid⟩ := hc
  obtain ⟨hn, hs⟩ := near_tick hnear k x
  have hpo' : c.l.w.po + 1 = l.w.po + (n + 1) := by rw [hpo, Nat.add_assoc]
  have hid' : c.l.w.nextId + 1 = l.w.nextId + (n + 1) := by rw [hid, Nat.add_assoc]
  exact ⟨⟨hn, hscr, hregion, hpo', hid'⟩, fun u hu => setTh_th c.l k x hu⟩

/-- A granule of a resident group is written, and the region lists `q` more. -/
theorem takeView_setGran {a : ScrLoc} (ha : a.wg = l.ref.wg ∨ (s.wg? a.wg).isSome) (v : Gran) {d : Ctx} (hd : d.plain l = c.plain l)
    {q : List (Nat × ScrLoc)} (hq : d.l.w.region = l.w.region.map (fun r => { r with pending := r.pending ++ (pend ++ q) })) :
    TakeView s l (pend ++ q) n (fun g => if g = a.wg then (m g).setGran (a.off / 16) v else m g)
      (d.setScr a.wg ((d.scr a.wg).setGran (a.off / 16) v)) ∧
      (d.setScr a.wg ((d.scr a.wg).setGran (a.off / 16) v)).l.w.thr = c.l.w.thr := by
  obtain ⟨hnear, hscr, -, hpo, hid⟩ := hc
  have hscr' : ∀ g, d.scr g = m g := fun g => (plain_scr d l g).symm.trans ((congrArg (fun e : Ctx => e.scr g) hd).trans (hscr g))
  obtain ⟨hn, hs, hw⟩ := setScr_view (l := l.advance l.w.batch 16) (c := d.plain l) (hd ▸ hnear) hscr' ha (fun x => x.setGran (a.off / 16) v)
  have hplain : (d.setScr a.wg ((d.scr a.wg).setGran (a.off / 16) v)).plain l =
      (d.plain l).setScr a.wg (((d.plain l).scr a.wg).setGran (a.off / 16) v) := setScr_plain d l _ _
  have hset : (d.setScr a.wg ((d.scr a.wg).setGran (a.off / 16) v)).l.w = d.l.w := by
    unfold Ctx.setScr
    split
    · rfl
    · cases d.s.wg? a.wg <;> rfl
  have hpod : (d.plain l).l.w.po = (c.plain l).l.w.po := by rw [hd]
  have hidd : (d.plain l).l.w.nextId = (c.plain l).l.w.nextId := by rw [hd]
  have hthr : (d.plain l).l.w.thr = (c.plain l).l.w.thr := by rw [hd]
  refine ⟨⟨hplain ▸ hn, fun g => ?_, by rw [hset]; exact hq, by rw [hset]; exact hpod.trans hpo, by rw [hset]; exact hidd.trans hid⟩,
    by rw [hset]; exact hthr⟩
  rw [← plain_scr _ l, hplain]
  exact hs g

/-- A thread takes its granule. -/
theorem takeView_taken {place : Nat → ScrLoc} {k : Nat} (ha : (place k).wg = l.ref.wg ∨ (s.wg? (place k).wg).isSome) :
    TakeView s l (pend ++ takenOf l place k) n (takeTurn l place m k) (c.takeGran k (place k)) ∧
      (c.takeGran k (place k)).l.w.thr = c.l.w.thr := by
  have hregion := hc.region
  have href : (c.plain l).l.ref = l.ref := by rw [hc.near.lane]; rfl
  have href' : c.l.ref = l.ref := href
  unfold Ctx.takeGran takenOf takeTurn takenGran Warp.member
  cases hr : l.w.region with
  | none =>
    rw [hr] at hregion
    rw [show c.l.w.region = none from hregion]
    exact takeView_setGran hc ha .empty rfl (q := []) (by rw [hregion, hr]; rfl)
  | some r =>
    rw [hr] at hregion
    rw [show c.l.w.region = some { r with pending := r.pending ++ pend } from hregion]
    cases hm : r.members.getLsbD k with
    | false =>
      simp only [hm, Bool.false_eq_true, if_false]
      exact takeView_setGran hc ha .empty rfl (q := []) (by rw [hregion, hr, List.append_nil])
    | true =>
      simp only [hm, if_true, href']
      refine takeView_setGran hc ha (.pending l.ref.wg l.ref.warp r.tag) (q := [(k, (place k).granule)])
        (d := c.withRegion { r with pending := r.pending ++ pend ++ [(k, (place k).granule)] }) rfl ?_
      rw [hr, Option.map_some, ← List.append_assoc]
      rfl

end

theorem exec_ldfe (h : Hdr) (a64 take : Bool) (dst : BitVec 8) (a b : Src) (e : Ext) (s : State) :
    exec (.ldfe h a64 take dst a b e) s = (loadForm ⟨a64, a, some b, none, none, e⟩ ldfeRow h dst).execC
      (fun c act => c.l.w.holdsAt act false false)
      (fun pc act c => act.foldl (loadOne ⟨a64, a, some b, none, none, e⟩ ldfeRow h dst.toNat (some take) pc) c) s := rfl

/-- `ldfe` extends no byte (R182). -/
theorem exSx_of_ldfe {m : MemIns} {l : Lane} (h : m.bad ldfeRow l = false) : exSx m.e = false := by
  simp only [MemIns.bad, MemRow.bad, ldfeRow, Bool.or_eq_false_iff, Bool.not_false, Bool.and_true] at h
  obtain ⟨⟨⟨⟨⟨⟨-, hsx⟩, -⟩, -⟩, -⟩, -⟩, -⟩ := h
  exact hsx

/-- The places of an `ldfe`: nothing crazed, in scratchpads without errors. -/
def ldfePlaces (s : State) (l : Lane) (f : MemForm) (place : Nat → ScrLoc) (ts : List Nat) : Prop :=
  ∀ k ∈ ts, f.pure l k ∧ memPlace f.m f.row f.h s l k = .ok (.scr (place k)) ∧ (scratch s (place k).wg).bad = []

/-- The granules at the places of the threads are full. -/
def allFull (place : Nat → ScrLoc) (ts : List Nat) (m : Nat → Scr) : Prop :=
  ∀ k ∈ ts, (m (place k).wg).granule ((place k).off / 16) = .full

/-- What the turns of `ts` add to the granules that the region lists, and make of the scratchpads. -/
def takenAll (take : Bool) (l : Lane) (place : Nat → ScrLoc) (ts : List Nat) : List (Nat × ScrLoc) :=
  if take then ts.flatMap (takenOf l place) else []

def takeTurns (take : Bool) (l : Lane) (place : Nat → ScrLoc) (ts : List Nat) (m : Nat → Scr) : Nat → Scr :=
  if take then ts.foldl (takeTurn l place) m else m

theorem takeTurns_sameButGran (take : Bool) {s : State} {l : Lane} {place : Nat → ScrLoc} (ts : List Nat) {m : Nat → Scr}
    (h : SameButGran s m) : SameButGran s (takeTurns take l place ts m) := by
  cases take
  · exact h
  · exact foldl_takeTurn_same ts h

section
variable {s : State} {l : Lane} {f : MemForm} {place : Nat → ScrLoc} {take : Bool} (hl : s.lane? = some l)
include hl

/-- The turn of an active thread whose granule is full. -/
theorem loadOne_takes {pend : List (Nat × ScrLoc)} {n : Nat} {m : Nat → Scr} {c : Ctx} {k : Nat} (hc : TakeView s l pend n m c)
    (hm : SameButGran s m) (hk : k < 32) (hp : f.pure l k ∧ memPlace f.m f.row f.h s l k = .ok (.scr (place k)) ∧
      (scratch s (place k).wg).bad = []) (hfull : (m (place k).wg).granule ((place k).off / 16) = .full)
    (hth : c.l.w.th k = (l.advance l.w.batch 16).w.th k) :
    TakeView s l (pend ++ takenAll take l place [k]) (n + 1) (takeTurns take l place [k] m)
        (loadOne f.m f.row f.h f.dst (some take) l.w.pc c k) ∧
      ∀ u < 32, (loadOne f.m f.row f.h f.dst (some take) l.w.pc c k).l.w.th u =
        if u = k then loadedThread s l f (exSx f.m.e) place k else c.l.w.th u := by
  obtain ⟨hg, -⟩ := lane?_wg hl
  obtain ⟨⟨hclean, haddr, -, -, hguard⟩, hplace, hbad⟩ := hp
  have hs : (c.plain l).l.w.s = l.w.s := by rw [hc.near.lane]; rfl
  have hargs := args_advanced (h := f.h) (c := c.l) hk hs hth hclean l.w.pc (f.dst == 255)
  have hsize : ∀ g, ((c.plain l).scr g).size = (scratch s g).size := fun g => by rw [plain_scr, hc.scr]; exact hm.size g
  have hsame : c.Alike (c.plain l) := ⟨rfl, rfl, rfl, rfl, fun _ => rfl, fun _ => rfl⟩
  have hcheck := ((check_alike hsame _ _ _ _ _ _ _).trans
    (check_alike (near_alike l.w.batch 16 hg hc.near hsize) _ _ _ _ _ _ _)).trans hplace
  have hnobad : (c.scr (place k).wg).bad = [] := by rw [hc.scr, hm.bad]; exact hbad
  have hfull' : (c.scr (place k).wg).granule ((place k).off / 16) = .full := by rw [hc.scr]; exact hfull
  have hwords : wordsAt (c.scr (place k).wg) (place k).off f.m.n = wordsAt (scratch s (place k).wg) (place k).off f.m.n := by
    unfold wordsAt Scr.word
    rw [hc.scr, hm.words]
  have hcz : crazeOf [none, (none : Option Word)] = none := rfl
  obtain ⟨hgiven, hthr⟩ := takeView_given hc k (loadedThread s l f (exSx f.m.e) place k)
  have hone : loadOne f.m f.row f.h f.dst (some take) l.w.pc c k =
      if take then (c.onL (fun d => (d.setTh k (loadedThread s l f (exSx f.m.e) place k)).tick)).takeGran k (place k)
      else c.onL (fun d => (d.setTh k (loadedThread s l f (exSx f.m.e) place k)).tick) := by
    unfold loadOne
    simp only [hargs, haddr, hguard, hcz, hcheck, hfull', readScr_clean c k l.w.pc (place k) f.m.n hnobad, hwords, bne_self_eq_false,
      Bool.and_false, Bool.false_eq_true, if_false, Option.some.injEq, Ctx.onL, hth]
    rfl
  rw [hone]
  cases take with
  | false => exact ⟨by simpa [takenAll, takeTurns] using hgiven, hthr⟩
  | true =>
    obtain ⟨hview, hkeep⟩ := takeView_taken (place := place) (k := k) hgiven (mem_memPlace hplace)
    refine ⟨by simpa [takenAll, takeTurns] using hview, fun u hu => ?_⟩
    refine Eq.trans ?_ (hthr u hu)
    exact congrArg (fun thr : List Thread => thr.getD u Thread.vacant) hkeep

omit hl in
/-- What the first thread takes leaves the granules of the others full. -/
theorem allFull_tail {t : Nat} {ts : List Nat} {m : Nat → Scr} (hn : t ∉ ts) (ha : take = true → apart place (t :: ts))
    (hfull : allFull place (t :: ts) m) : allFull place ts (takeTurns take l place [t] m) := by
  intro k hk
  have hkeep := hfull k (List.mem_cons_of_mem t hk)
  cases take with
  | false => exact hkeep
  | true =>
    refine (takeTurn_granule m t (place k).wg ((place k).off / 16)).trans ?_
    rw [if_neg (fun h => apart_head (ha rfl) hn hk h.1.symm h.2.symm)]
    exact hkeep

/-- The turns of the threads `ts`. -/
theorem ldfe_turns : ∀ {ts : List Nat} {pend : List (Nat × ScrLoc)} {n : Nat} {m : Nat → Scr} {c : Ctx}, TakeView s l pend n m c →
    SameButGran s m → ts.Nodup → (∀ k ∈ ts, k < 32) → ldfePlaces s l f place ts → allFull place ts m →
    (take = true → apart place ts) → (∀ k ∈ ts, c.l.w.th k = (l.advance l.w.batch 16).w.th k) →
    TakeView s l (pend ++ takenAll take l place ts) (n + ts.length) (takeTurns take l place ts m)
        (ts.foldl (loadOne f.m f.row f.h f.dst (some take) l.w.pc) c) ∧
      ∀ u < 32, (ts.foldl (loadOne f.m f.row f.h f.dst (some take) l.w.pc) c).l.w.th u =
        if u ∈ ts then loadedThread s l f (exSx f.m.e) place u else c.l.w.th u
  | [], pend, n, m, c, hc, _, _, _, _, _, _, _ => by
    refine ⟨?_, fun u _ => by simp⟩
    cases take <;> simpa [takenAll, takeTurns] using hc
  | t :: ts, pend, n, m, c, hc, hm, hn, hlt, hp, hfull, ha, hth => by
    obtain ⟨hnt, hn⟩ := List.nodup_cons.mp hn
    obtain ⟨hview, hone⟩ := loadOne_takes (take := take) hl hc hm (hlt t List.mem_cons_self) (hp t List.mem_cons_self)
      (hfull t List.mem_cons_self) (hth t List.mem_cons_self)
    obtain ⟨hrest, hthrest⟩ := ldfe_turns hview (takeTurns_sameButGran take [t] hm) hn (fun k hk => hlt k (List.mem_cons_of_mem t hk))
      (fun k hk => hp k (List.mem_cons_of_mem t hk)) (allFull_tail hnt ha hfull) (fun h => apart_tail (ha h)) (fun k hk => by
        rw [hone k (hlt k (List.mem_cons_of_mem t hk)), if_neg (fun e : k = t => hnt (e ▸ hk))]
        exact hth k (List.mem_cons_of_mem t hk))
    refine ⟨?_, fun u hu => ?_⟩
    · cases take <;> simpa [takenAll, takeTurns, Nat.add_assoc, Nat.add_comm 1] using hrest
    · rw [List.foldl_cons, hthrest u hu, hone u hu]
      by_cases e : u = t
      · subst e
        rw [if_neg hnt, if_pos rfl, if_pos List.mem_cons_self]
      · simp only [List.mem_cons, e, false_or, if_false]

end

/-- The granules that the region comes to list. -/
theorem takenAll_eq (take : Bool) (l : Lane) (place : Nat → ScrLoc) (ts : List Nat) : takenAll take l place ts =
    if take then (ts.filter l.w.member).map (fun k => (k, (⟨(place k).wg, (place k).off / 16⟩ : ScrLoc))) else [] := by
  unfold takenAll
  cases take with
  | false => rfl
  | true =>
    simp only [if_true]
    induction ts with
    | nil => rfl
    | cons t ts ih =>
      rw [List.flatMap_cons, ih, List.filter_cons, takenOf]
      cases l.w.member t <;> rfl

/-- Settles O24: each active thread takes its words and its granule in turn. -/
theorem fullLoad : Obligations.FullLoad := by
  intro s l h a64 take dst a b e f hl hi hs hr hhold place hall ha
  cases hi
  obtain ⟨hview, hth⟩ := ldfe_turns (f := ⟨⟨a64, a, some b, none, none, e⟩, ldfeRow, h, dst.toNat⟩) (take := take) hl (takeView_self hl)
    (sameButGran_refl s) (active_nodup l h) (fun _ => active_lt) (fun k hk => by
      obtain ⟨hpure, hplace, hbad, -⟩ := hall k hk
      exact ⟨hpure, hplace, hbad⟩) (fun k hk => by
      obtain ⟨-, -, -, hfull⟩ := hall k hk
      exact hfull) ha (fun _ _ => rfl)
  generalize hc : (active l h).foldl _ (⟨s, l.advance l.w.batch 16⟩ : Ctx) = c at hview hth
  obtain ⟨m, he, hm, hmw, hpast, hact, hidle, hother⟩ := runC_done (.ldfe h a64 take dst a b e)
    (loadForm ⟨a64, a, some b, none, none, e⟩ ldfeRow h dst) _ _
    (loadedThread s l ⟨⟨a64, a, some b, none, none, e⟩, ldfeRow, h, dst.toNat⟩ (exSx e) place) s l c hl
    (exec_ldfe h a64 take dst a b e s) hr (loadForm_fault hs) hhold hc hth
    (fun u hu => by
      obtain ⟨-, hpc, hst⟩ := setWords_in ((l.advance l.w.batch 16).w.th u) dst.toNat
        (loadWords (wordsAt (scratch s (place u).wg) (place u).off _) (place u).off _ (exSx e))
      obtain ⟨⟨hpc', hst'⟩, -⟩ := advance_past 16 hu
      exact ⟨hpc.trans hpc', hst.trans hst'⟩)
  have hwarp := takeView_warp hview
  rw [takenAll_eq, Nat.zero_add, List.nil_append] at hwarp
  have hsame := takeTurns_sameButGran take (active l h) (l := l) (place := place) (sameButGran_refl s)
  obtain ⟨hnear, hscr, hregion, hpo, hid⟩ := hview
  obtain ⟨honly, hput⟩ := near_onlyScratch hl hnear (m := m) hm (fun g => by rw [plain_scr, hscr]; exact hsame.size g)
  have hput' : ∀ g, scratch (c.s.putLane m) g = takeTurns take l place (active l h) (scratch s) g := fun g => (hput g).trans (hscr g)
  obtain ⟨hbad, -⟩ := hs
  refine ⟨_, m.w, he, honly, ?_, fun g j => ?_, fun k hk htake => ?_, fun g n hn => ?_, hpast, fun k hk => ?_, hidle, hother⟩
  · rw [hmw, hwarp]
  · rw [hput', Scr.word, hsame.words]
    rfl
  · subst htake
    rw [hput']
    exact foldl_takeTurn_taken _ (active_nodup l h) (ha rfl) hk
  · rw [hput']
    cases take with
    | false => rfl
    | true => exact foldl_takeTurn_apart _ (hn.resolve_left (fun h => absurd h Bool.noConfusion))
  · rw [← exSx_of_ldfe hbad]
    exact wordsIn_kept (wordsIn_from (setWords_in _ _ _).1 (advance_past 16 hk).2) (hact k hk)

end Sys2Proof.Machine
